-- ==== Sys2Proof/Word.lean ====
section
/-! DEFINITION. Bytes, sparse tables, and the data that commands carry as operands. -/

namespace Sys2Proof

/-- One byte of a frame. -/
abbrev Byte := BitVec 8

/-- A sparse table keyed by number: keys strictly rising, no key at its default value. -/
abbrev Table (α : Type) := List (Nat × α)

/-- What a receiver drives in the acknowledge slot of a track line frame (R146, R187). -/
inductive Answer where
  | refuseCheck
  | refuseBusy
  | acceptPace
  | accept
deriving DecidableEq, Repr

/-- How a frame sent by the engine ends (R155). `slot` lists what each receiver that answered drove;
no answer is the empty list. -/
inductive FrameOutcome where
  | arbitrationLost
  | slot (answers : List Answer)
deriving DecidableEq, Repr

/-- A track line frame as received (R187): priority, source address, kind, length byte, whole payload
bytes, the number of bits left over before the check, and the check. -/
structure TrackFrame where
  prio : Nat
  src : Byte
  kind : Byte
  len : Byte
  payload : List Byte
  stray : Nat
  check : BitVec 16
deriving DecidableEq, Repr

/-- What the TLI received: a frame with its four header fields, or one cut short before them (R188). -/
inductive TrackReception where
  | short
  | frame (f : TrackFrame)
deriving DecidableEq, Repr

end Sys2Proof
end

