-- ==== Sys2Proof/Syntax.lean ====
section
/-! DEFINITION. The commands: one constructor per row of spec/opcode_table.json, in its order. -/

namespace Sys2Proof

/-- A command. A request, peer or vehicle row carries no operand of its own: the step takes the frame at the
front of its receive queue (R160, R147). -/
inductive Instr where
  | move
  | cancel
  | forget
  | block
  | unblock
  | loadSegment
  | loadZone
  | loadPort
  | loadRoute
  | loadExit
  | loadTuning
  | loadCap
  | loadSeverity
  | activate
  | activationCheckComplete
  | modeDispatching
  | modeHalted
  | modeParked
  | queryVehicle
  | queryMove
  | querySegment
  | queryZone
  | queryRosterList
  | queryMoveList
  | queryStatusFlags
  | queryIdentity
  | queryMode
  | clear
  | restartKeepLayout
  | restartFull
  | identify
  | nonvolatileWriteComplete
  | unknownRequestKind
  | claim
  | claimGrant
  | claimRefuse
  | claimWithdraw
  | arrived
  | abandon
  | floorFrameArrival (bytes : List Byte)
  | floorFrameSent
  | trackFrameReceived (r : TrackReception)
  | join
  | position
  | statusConfirm
  | statusHoistStart
  | statusHoistDone
  | statusHoistFault
  | statusFault
  | statusCleared
  | sendGrant
  | sendAssign
  | sendWithdraw
  | sendHold
  | sendAllHold
  | sendResume
  | sendRollcall
  | engineFrameOutcome (outcome : FrameOutcome)
  | lastHeardDeadline (vehicle : Nat)
  | confirmDeadline (move : Nat)
  | claimDeadline (tag : Nat)
  | arrivalDeadline (cell : Nat) (tag : Nat)
  | ageTimer
  | dispatchTimer
  | dispatchPass
  | haltInputAsserted
  | haltInputReleased
  | resetPinAsserted
  | resetPinReleased
  | powerOn
  | lossOfPower
deriving DecidableEq, Repr

end Sys2Proof
end

