-- ==== Sys2Proof/Config.lean ====
section
/-! DEFINITION. Sizes the spec fixes, the work bound of one step, and the free values. -/

namespace Sys2Proof.Config

/-- Capacities (section 2 of 00_scope.md; R65, R89, R129, R137, R147, R160, R161, R33, R151). -/
def rosterMax : Nat := 64
def movesMax : Nat := 128
def outClaimsMax : Nat := 8
def inClaimsMax : Nat := 32
def trackQueueMax : Nat := 32
def inboundMax : Nat := 16
def outboundMax : Nat := 64
/-- Reports are appended only below this occupancy (R161). -/
def reportLimit : Nat := 56
def waitListMax : Nat := 4
def withdrawMax : Nat := 6
/-- Sendings without answer after which an item is dropped (R155). -/
def unansweredMax : Nat := 8
/-- Highest arrival sequence (R88). -/
def arrivalsTop : Nat := 4294967295

/-- DEDUCED (log 11), safe: bound on the chain of arbitrations and extension rounds that one event starts.
A chain is far shorter: each task either ends or adds one held entry, claim or refusal, all bounded. -/
def chainBound : Nat := 1000000

/-- FREE VALUE (R182, log 8): whether the n-th cut write of the nonvolatile copy leaves the new copy. -/
opaque cutKeepsNew : Nat → Bool

/-- FREE VALUE (R182, log 8): the error the n-th cut leaves in the stored check; 0 means it loads whole. -/
opaque cutCheckError : Nat → BitVec 16

end Sys2Proof.Config
end

