-- ==== Sys2Proof/Machine/State.lean ====
section
/-! DEFINITION. The state of the engine, unit by unit, and the state after reset. -/

namespace Sys2Proof.Machine

/-- The engine never stops: refusals of requests are REPLY codes (R164) and errors are events (R169). No step
raises `unreachable`; it stands only because the type is closed, and is safe. -/
inductive Fault where
  | unreachable
deriving DecidableEq, Repr

/-- `notModelled`: raised by an arm of `exec` for a command without a meaning; safe. No arm raises it. -/
inductive Refusal where
  | notModelled (mnemonic : String)
deriving DecidableEq, Repr

/-! ### Layout Store (chapter 1) -/

/-- Kind of a loaded segment with the fields only that kind uses (R3). -/
inductive SegForm where
  | plain
  | diverge (succ1 : Nat)
  | merge (mainPred : Nat)
  | boundary (owner : Nat)
deriving DecidableEq, Repr

/-- A loaded segment record (R3); an ABSENT index has no record. -/
structure SegmentRec where
  form : SegForm
  zone : Nat
  succ0 : Nat
  speed : Nat
deriving DecidableEq, Repr

/-- A present zone record (R5). -/
structure ZoneRec where
  capacity : Nat
  entrySeg : Nat
  anchor : Nat
  park : List Nat
  overflow : Option Nat
deriving DecidableEq, Repr

inductive PortKind where
  | load
  | buffer
deriving DecidableEq, Repr

/-- A present port record (R6). -/
structure PortRec where
  segment : Nat
  kind : PortKind
deriving DecidableEq, Repr

/-- A route descriptor (R7). -/
structure Descriptor where
  first : Nat
  runLen : Nat
  runs : Nat
  legs : Nat
  runStep : Int
  legStep : Int
deriving DecidableEq, Repr

/-- A route entry (R7). -/
structure RouteRec where
  time : Nat
  desc : Option Descriptor
deriving DecidableEq, Repr

/-- The Tuning record (R18). -/
structure Tuning where
  base0 : Nat
  base1 : Nat
  base2 : Nat
  base3 : Nat
  kage : Nat
  pz : Nat
  hd : Nat
  kmax : Nat
  mpre : Nat
  w : Nat
  tSide : Nat
  tSilent : Nat
  tConf : Nat
  tClaim : Nat
  tHand : Nat
  lpace : Nat
  lresume : Nat
deriving DecidableEq, Repr

/-- The defaults of R18. -/
def Tuning.defaults : Tuning :=
  { base0 := 30000, base1 := 12000, base2 := 6000, base3 := 0, kage := 16, pz := 40, hd := 120, kmax := 1800
    mpre := 300, w := 3, tSide := 40, tSilent := 30, tConf := 20, tClaim := 20, tHand := 100, lpace := 24
    lresume := 12 }

/-- Levels of R173, in rising order. -/
inductive Severity where
  | log
  | notice
  | alarm
  | halt
deriving DecidableEq, Repr

/-- The seventeen event kinds, in the order of R169. -/
inductive EventKind where
  | trackCheck
  | floorOverrun
  | floorReject
  | reportLost
  | vehicleLost
  | vehicleFault
  | hoistFault
  | carrierMismatch
  | confirmTimeout
  | preemptLost
  | positionConflict
  | pathFault
  | pathBlocked
  | rosterFull
  | claimTimeout
  | handoffAbandoned
  | haltLine
deriving DecidableEq, Repr

/-- The Layout Store (R1). Missing keys read as the values after reset: ABSENT, absent, T = 4095, none, cap 7,
default level. -/
structure Layout where
  segs : Table SegmentRec
  zones : Table ZoneRec
  ports : Table PortRec
  routes : Table RouteRec
  exits : Table Nat
  validated : Bool
  tuning : Tuning
  caps : Table Nat
  severity : Table Severity
  grantWindow : Nat
deriving DecidableEq, Repr

/-! ### Block Control Unit (chapter 2) -/

inductive HeldAs where
  | reserved
  | occupied
deriving DecidableEq, Repr

/-- State of a loaded segment with its holder, held-as, claimant and conflict note (R21). -/
inductive Res where
  | free
  | reserved (v : Nat)
  | occupied (v : Nat) (note : Option Nat)
  | blocked
  | blockPending (v : Nat) (heldAs : HeldAs) (note : Option Nat)
  | foreign
  | claiming (v : Nat)
  | borrowed (v : Nat)
deriving DecidableEq, Repr

/-- Who waits: a roster vehicle with its from-segment, or a claim with its tag, source cell and class (R33). -/
inductive Waiter where
  | vehicle (v : Nat) (fromSeg : Nat)
  | claim (v : Nat) (tag : Nat) (cell : Nat) (cls : Nat)
deriving DecidableEq, Repr

structure WaitEntry where
  who : Waiter
  enteredAt : Nat
deriving DecidableEq, Repr

/-- The reservation record of a loaded segment (R21). -/
structure SegRes where
  res : Res
  waits : List WaitEntry
deriving DecidableEq, Repr

/-! ### Path Walker (chapter 3) -/

inductive Purpose where
  | none
  | source
  | destination
  | exit
  | park
  | stand
deriving DecidableEq, Repr

inductive PathCause where
  | walkLimit
  | walkForeign
  | noRoute
  | noExit
deriving DecidableEq, Repr

inductive PathCondition where
  | noTarget
  | built
  | standing
  | broken (cause : PathCause)
deriving DecidableEq, Repr

inductive Leg where
  | leadIn
  | route
  | leadOut
  | walk
  | final
  | done
deriving DecidableEq, Repr

/-- The path record (R51). -/
structure Path where
  purpose : Purpose
  target : Option Nat
  condition : PathCondition
  start : Option Nat
  routePair : Option (Nat × Nat)
  approach : Option Nat
  finalSeg : Option Nat
  leadInLen : Nat
  routeLen : Nat
  leadOutLen : Nat
  walkLen : Nat
  finalLen : Nat
  leg : Option Leg
  walkSteps : Nat
  h : Nat
  m : Nat
  r : Nat
  cursor : Option Nat
  remaining : Nat
deriving DecidableEq, Repr

/-- The record as created with a vehicle record (R51). -/
def Path.empty : Path :=
  { purpose := .none, target := none, condition := .noTarget, start := none, routePair := none, approach := none
    finalSeg := none, leadInLen := 0, routeLen := 0, leadOutLen := 0, walkLen := 0, finalLen := 0, leg := none
    walkSteps := 0, h := 0, m := 0, r := 0, cursor := none, remaining := 0 }

/-! ### Vehicle Roster (chapter 4) -/

/-- The working states (4.2). -/
inductive WorkState where
  | idle
  | toSource
  | acquiring
  | laden
  | depositing
deriving DecidableEq, Repr

/-- State of a vehicle, with the resume state and fault mark where R64 has them present. -/
inductive VState where
  | work (w : WorkState)
  | faulted (resume : WorkState)
  | lost (resume : WorkState) (faultMark : Bool)
  | departing
  | arriving
deriving DecidableEq, Repr

/-- A vehicle's due set (R151). A due item carries its unanswered count (R155). -/
structure DueSet where
  hold : Option Nat
  withdraw : List Nat
  withdrawCount : Nat
  assign : Option Nat
  grant : Option Nat
  stopMark : Bool
deriving DecidableEq, Repr

def DueSet.empty : DueSet :=
  { hold := none, withdraw := [], withdrawCount := 0, assign := none, grant := none, stopMark := false }

/-- A vehicle record (R64) with its path record (R51), park target mark (R61) and due set (R151). -/
structure Vehicle where
  id : Nat
  state : VState
  held : List Nat
  move : Option Nat
  nextMove : Option Nat
  carrier : Option Nat
  need : Nat
  heardBy : Option Nat
  pacing : Bool
  path : Path
  parkMark : Option Nat
  due : DueSet
deriving DecidableEq, Repr

/-! ### Move Queue (chapter 5) -/

inductive MState where
  | waiting
  | assignedNext
  | assigned
  | enroute
  | picking
  | carrying
  | delivering
  | cancelling
  | unrouted
deriving DecidableEq, Repr

inductive ConfirmDeadline where
  | absent
  | suspended
  | at (time : Nat)
deriving DecidableEq, Repr

/-- A move record (R88). -/
structure Move where
  id : Nat
  carrier : Nat
  source : Option Nat
  dest : Option Nat
  cls : Nat
  age : Nat
  seq : Nat
  state : MState
  vehicle : Option Nat
  confirm : ConfirmDeadline
  returnFlag : Bool
  urgency : Nat
deriving DecidableEq, Repr

structure MoveQueue where
  moves : List Move
  arrivals : Nat
  ageAt : Nat
deriving DecidableEq, Repr

/-! ### Assignment Unit (chapter 6) -/

/-- A preemption list entry (R123). -/
structure Preemption where
  vehicle : Nat
  newMove : Nat
  oldMove : Nat
deriving DecidableEq, Repr

structure Asu where
  passDue : Bool
  dispatchAt : Nat
  preempts : List Preemption
  passRunning : Bool
  haltDeferred : Bool
deriving DecidableEq, Repr

/-! ### Boundary Exchange Unit (chapter 7) -/

inductive OutPhase where
  | claiming (deadline : Nat)
  | granted
deriving DecidableEq, Repr

/-- An Outgoing Claim List entry (R129). -/
structure OutClaim where
  tag : Nat
  segment : Nat
  vehicle : Nat
  phase : OutPhase
deriving DecidableEq, Repr

/-- The summary of a move that a CLAIM carries (R128). -/
structure Summary where
  move : Nat
  carrier : Nat
  dest : Nat
  cls : Nat
  age : Nat
deriving DecidableEq, Repr

inductive InPhase where
  | waiting
  | granted (deadline : Nat)
deriving DecidableEq, Repr

/-- An Incoming Claim Table entry (R137). -/
structure InClaim where
  cell : Nat
  tag : Nat
  segment : Nat
  vehicle : Nat
  summary : Summary
  phase : InPhase
deriving DecidableEq, Repr

structure Bxu where
  outClaims : List OutClaim
  lastTag : Nat
  inClaims : List InClaim
deriving DecidableEq, Repr

/-! ### Track Line Interface (chapter 8) -/

inductive StatusEvent where
  | confirm
  | hoistStart
  | hoistDone
  | hoistFault
  | fault
  | cleared
deriving DecidableEq, Repr

/-- What a vehicle's frame carries (R188). -/
inductive VehicleFrame where
  | join (seg : Nat) (present : Bool) (carrier : Nat) (move : Nat)
  | position (seg : Nat) (need : Nat) (load : Bool)
  | status (event : StatusEvent) (seg : Nat) (move : Nat) (present : Bool) (carrier : Nat)
deriving DecidableEq, Repr

/-- A Track Receive Queue entry (R147). `paced` says that the answer given was ACCEPT-PACE (R149). -/
structure TrackEntry where
  src : Nat
  body : VehicleFrame
  paced : Bool
deriving DecidableEq, Repr

/-- A due item: what an engine frame serves (R150, R151). -/
inductive LineItem where
  | allHold
  | resume
  | rollcall
  | hold (v : Nat)
  | strayHold (id : Nat)
  | withdraw (v : Nat)
  | grant (v : Nat)
  | assign (v : Nat)
deriving DecidableEq, Repr

/-- Whether the item has been made due again (`renewed`) or discarded (`severed`) since its frame was composed
(R155). -/
inductive Link where
  | live
  | renewed
  | severed
deriving DecidableEq, Repr

/-- The engine's frame on the line, fixed from composition to its end (8.6). `carried` lists the WITHDRAW ids its
completion would clear. -/
structure LineFrame where
  item : LineItem
  prio : Nat
  kind : Nat
  payload : List Byte
  carried : List Nat
  link : Link
deriving DecidableEq, Repr

structure Tli where
  queue : List TrackEntry
  pacing : Bool
  allHold : Option Nat
  resume : Option Nat
  rollcall : Option Nat
  strayHolds : Table Nat
  pointer : Nat
  line : Option LineFrame
  answer : Option Answer
deriving DecidableEq, Repr

/-! ### Floor Link Interface (chapters 9 and 11) -/

/-- A floor link frame but for its length and check, which follow from it (R189). -/
structure FloorFrame where
  dst : Nat
  src : Nat
  kind : Nat
  tag : Nat
  payload : List Byte
deriving DecidableEq, Repr

structure Fli where
  inbound : List FloorFrame
  outbound : List FloorFrame
  reservations : Nat
  sent : Option FloorFrame
deriving DecidableEq, Repr

/-! ### Status Unit (chapter 9) -/

/-- The cause field of an event detail (R170). -/
inductive Cause where
  | path (c : PathCause)
  | frameKind (code : Nat)
deriving DecidableEq, Repr

/-- The event detail (R170); `segment` and `cell` absent and the numbers 0 where the kind carries none. -/
structure Detail where
  kind : EventKind
  severity : Severity
  vehicle : Nat
  move : Nat
  segment : Option Nat
  cell : Option Nat
  tag : Nat
  carrier : Nat
  cause : Option Cause
deriving DecidableEq, Repr

/-- A flag is set exactly when its kind's code has a first-occurrence record (R168). -/
structure Su where
  flags : Table Detail
  alarm : Bool
deriving DecidableEq, Repr

/-! ### Mode Control (chapter 10) -/

inductive Mode where
  | parked
  | dispatching
  | halted
deriving DecidableEq, Repr

/-- The Identity record (R182). -/
structure Identity where
  cell : Option Nat
  haltEnable : Bool
  neighbours : List Nat
deriving DecidableEq, Repr

/-- Cell number unset, halt-enable clear, no neighbours: what a blank copy gives (R182). -/
def Identity.blank : Identity := { cell := none, haltEnable := false, neighbours := [] }

/-- The written nonvolatile copy with its own check (R182). -/
structure Image where
  cell : Nat
  haltEnable : Bool
  neighbours : List Nat
  check : BitVec 16
deriving DecidableEq, Repr

/-- Where an answer still owed goes: the request's source address and tag. -/
structure ReplyTo where
  src : Nat
  tag : Nat
deriving DecidableEq, Repr

structure Mc where
  mode : Mode
  haltInput : Bool
  haltPending : Bool
  identity : Identity
  windowClosed : Bool
  copy : Option Image
  write : Option (Image × ReplyTo)
  check : Option ReplyTo
deriving DecidableEq, Repr

/-! ### The whole engine -/

/-- Supply, pins and clock, and the model's counter of free values (log 3, 8). -/
structure Board where
  now : Nat
  power : Bool
  resetPin : Bool
  haltPin : Bool
  freeCount : Nat
deriving DecidableEq, Repr

structure State where
  board : Board
  layout : Layout
  srt : Table SegRes
  roster : Table Vehicle
  mq : MoveQueue
  asu : Asu
  bxu : Bxu
  tli : Tli
  fli : Fli
  su : Su
  mc : Mc
  pending : List Instr
deriving DecidableEq, Repr

/-- One update per unit. -/
def State.updBoard (f : Board → Board) (s : State) : State := { s with board := f s.board }
def State.updLayout (f : Layout → Layout) (s : State) : State := { s with layout := f s.layout }
def State.updSrt (f : Table SegRes → Table SegRes) (s : State) : State := { s with srt := f s.srt }
def State.updRoster (f : Table Vehicle → Table Vehicle) (s : State) : State := { s with roster := f s.roster }
def State.updMq (f : MoveQueue → MoveQueue) (s : State) : State := { s with mq := f s.mq }
def State.updAsu (f : Asu → Asu) (s : State) : State := { s with asu := f s.asu }
def State.updBxu (f : Bxu → Bxu) (s : State) : State := { s with bxu := f s.bxu }
def State.updTli (f : Tli → Tli) (s : State) : State := { s with tli := f s.tli }
def State.updFli (f : Fli → Fli) (s : State) : State := { s with fli := f s.fli }
def State.updSu (f : Su → Su) (s : State) : State := { s with su := f s.su }
def State.updMc (f : Mc → Mc) (s : State) : State := { s with mc := f s.mc }

/-- The stores after power-on (R1, R22, R66, R94, R127, R143, R147, R150, R154, R160, R161, R174, R185). -/
def Layout.initial : Layout :=
  { segs := [], zones := [], ports := [], routes := [], exits := [], validated := false, tuning := Tuning.defaults
    caps := [], severity := [], grantWindow := 3 }
def Bxu.initial : Bxu := { outClaims := [], lastTag := 0, inClaims := [] }
def Tli.initial : Tli :=
  { queue := [], pacing := false, allHold := none, resume := none, rollcall := none, strayHolds := [], pointer := 63
    line := none, answer := none }
def Fli.initial : Fli := { inbound := [], outbound := [], reservations := 0, sent := none }
def Su.initial : Su := { flags := [], alarm := false }

/-- The engine right after power-on (R185). DESIGN CHOICE (log 3, 4, 6, 7): time 0, HALT pin released, copy blank. -/
def State.reset : State :=
  { board := { now := 0, power := true, resetPin := false, haltPin := false, freeCount := 0 }
    layout := Layout.initial, srt := [], roster := []
    mq := { moves := [], arrivals := 0, ageAt := 10 }
    asu := { passDue := false, dispatchAt := 10, preempts := [], passRunning := false, haltDeferred := false }
    bxu := Bxu.initial, tli := Tli.initial, fli := Fli.initial, su := Su.initial
    mc := { mode := .parked, haltInput := false, haltPending := false, identity := Identity.blank
            windowClosed := false, copy := none, write := none, check := none }
    pending := [] }

end Sys2Proof.Machine
end

