-- ==== Sys2Proof/Machine/Table.lean ====
section
/-! DEFINITION. Sparse tables: reading, writing and removing a key; sorted insertion. -/

namespace Sys2Proof.Machine

/-- The record at key `k`, if the table holds one. -/
def tget {α : Type} (k : Nat) : Table α → Option α
  | [] => none
  | (j, a) :: t => if j = k then some a else tget k t

/-- The table with `a` at key `k`, keys still rising. -/
def tput {α : Type} (k : Nat) (a : α) : Table α → Table α
  | [] => [(k, a)]
  | (j, b) :: t => if k < j then (k, a) :: (j, b) :: t else if k = j then (k, a) :: t else (j, b) :: tput k a t

/-- The table without key `k`. -/
def tdrop {α : Type} (k : Nat) (t : Table α) : Table α := t.filter (fun p => p.1 ≠ k)

/-- The table with the record at key `k`, if any, changed by `f`. -/
def tmod {α : Type} (k : Nat) (f : α → α) (t : Table α) : Table α :=
  t.map (fun p => if p.1 = k then (p.1, f p.2) else p)

/-- A table whose missing keys read as `d`: writing `d` removes the key. -/
def tputD {α : Type} [DecidableEq α] (d : α) (k : Nat) (a : α) (t : Table α) : Table α :=
  if a = d then tdrop k t else tput k a t

/-- The canonical form: keys strictly rising. -/
abbrev TableWf {α : Type} (t : Table α) : Prop := t.Pairwise (fun p q => p.1 < q.1)

/-- The lowest key from 0 that the table does not hold, below `n`. -/
def lowestFree {α : Type} (n : Nat) (t : Table α) : Option Nat :=
  (List.range n).find? (fun k => (tget k t).isNone)

/-- Insertion before the first element that `f` ranks strictly below `a`: equal ranks keep their order. -/
def insertByRank {α : Type} (f : α → Nat) (a : α) : List α → List α
  | [] => [a]
  | b :: t => if f b < f a then a :: b :: t else b :: insertByRank f a t

/-- The list in descending rank, equal ranks in their first order. -/
def sortByRank {α : Type} (f : α → Nat) (l : List α) : List α :=
  l.foldl (fun acc a => insertByRank f a acc) []

/-- The first element of least rank. -/
def leastBy {α : Type} (f : α → Nat) : List α → Option α
  | [] => none
  | a :: t =>
    match leastBy f t with
    | none => some a
    | some b => if f b < f a then some b else some a

end Sys2Proof.Machine
end

