-- ==== Sys2Proof/Machine/Frames.lean ====
section
/-! DEFINITION. Byte order, the 16-bit check, the field codes and the bytes of frames (chapter 11). -/

namespace Sys2Proof.Machine

/-! ### Bytes, most significant first (R186) -/

def byte (n : Nat) : Byte := BitVec.ofNat 8 n
def bytes2 (n : Nat) : List Byte := [byte (n / 256), byte n]
def bytes4 (n : Nat) : List Byte := bytes2 (n / 65536) ++ bytes2 n
def num2 (a b : Byte) : Nat := a.toNat * 256 + b.toNat
def num4 (a b c d : Byte) : Nat := num2 a b * 65536 + num2 c d
/-- A signed 16-bit field, two's complement. -/
def int2 (a b : Byte) : Int := if num2 a b < 32768 then (num2 a b : Int) else (num2 a b : Int) - 65536
def flagByte (b : Bool) : Byte := if b then 1 else 0
/-- Absent values are FFh or FFFFh (R189). -/
def opt1 (o : Option Nat) : Byte := match o with | some n => byte n | none => 0xFF
def opt2 (o : Option Nat) : List Byte := match o with | some n => bytes2 n | none => [0xFF, 0xFF]
def opt4 (o : Option Nat) : List Byte := match o with | some n => bytes4 n | none => [0xFF, 0xFF, 0xFF, 0xFF]
/-- FFFFh is "none" in a segment field (R186). -/
def segField (a b : Byte) : Option Nat := if num2 a b = 65535 then none else some (num2 a b)

/-! ### The check (R187): x^16 + x^12 + x^5 + 1, preset FFFFh, most significant bit first (log 12) -/

def crcBit (reg : BitVec 16) (bit : Bool) : BitVec 16 :=
  if (reg.msb != bit) then (reg <<< 1) ^^^ 0x1021 else reg <<< 1

def crcByte (reg : BitVec 16) (b : Byte) : BitVec 16 :=
  [7, 6, 5, 4, 3, 2, 1, 0].foldl (fun r i => crcBit r (b.getLsbD i)) reg

def crc16 (bs : List Byte) : BitVec 16 := bs.foldl crcByte 0xFFFF

/-! ### Codes (R186): position in the order listed there -/

def StatusEvent.ofCode : Nat → Option StatusEvent
  | 0 => some .confirm
  | 1 => some .hoistStart
  | 2 => some .hoistDone
  | 3 => some .hoistFault
  | 4 => some .fault
  | 5 => some .cleared
  | _ => none

/-- New state of a MOVE-REPORT (R92): a state of the record or the outcome of a removal. -/
inductive ReportState where
  | now (m : MState)
  | delivered
  | cancelled
  | failed
  | handedOff
deriving DecidableEq, Repr

def MState.code : MState → Nat
  | .waiting => 0
  | .assignedNext => 1
  | .assigned => 2
  | .enroute => 3
  | .picking => 4
  | .carrying => 5
  | .delivering => 6
  | .cancelling => 7
  | .unrouted => 8

def ReportState.code : ReportState → Nat
  | .now m => m.code
  | .delivered => 9
  | .cancelled => 10
  | .failed => 11
  | .handedOff => 12

def SegForm.code : SegForm → Nat
  | .plain => 1
  | .diverge _ => 2
  | .merge _ => 3
  | .boundary _ => 4

def PortKind.code : PortKind → Nat
  | .load => 0
  | .buffer => 1

/-- Completion codes (R164). -/
inductive Code where
  | done
  | doneClamped
  | busy
  | refusedState
  | refusedRange
  | refusedFull
  | refusedDuplicate
  | refusedLaden
  | unknown
  | routeFault
deriving DecidableEq, Repr

def Code.code : Code → Nat
  | .done => 0
  | .doneClamped => 1
  | .busy => 2
  | .refusedState => 3
  | .refusedRange => 4
  | .refusedFull => 5
  | .refusedDuplicate => 6
  | .refusedLaden => 7
  | .unknown => 8
  | .routeFault => 9

/-- Fault codes of ROUTE-FAULT (R164). -/
inductive LayoutFault where
  | segmentLink
  | zoneShape
  | portPlace
  | routeRange
  | routeBreak
  | routeEnds
  | routeForeign
  | exitShape
deriving DecidableEq, Repr

def LayoutFault.code : LayoutFault → Nat
  | .segmentLink => 0
  | .zoneShape => 1
  | .portPlace => 2
  | .routeRange => 3
  | .routeBreak => 4
  | .routeEnds => 5
  | .routeForeign => 6
  | .exitShape => 7

/-- The table a layout fault names, as a LOAD selector code (R189, section 1.7). -/
def LayoutFault.table : LayoutFault → Nat
  | .segmentLink => 0
  | .zoneShape => 1
  | .portPlace => 2
  | .routeRange => 3
  | .routeBreak => 3
  | .routeEnds => 3
  | .routeForeign => 3
  | .exitShape => 4

/-- All seventeen kinds in code order. -/
def EventKind.all : List EventKind :=
  [.trackCheck, .floorOverrun, .floorReject, .reportLost, .vehicleLost, .vehicleFault, .hoistFault,
   .carrierMismatch, .confirmTimeout, .preemptLost, .positionConflict, .pathFault, .pathBlocked, .rosterFull,
   .claimTimeout, .handoffAbandoned, .haltLine]

def EventKind.code : EventKind → Nat
  | .trackCheck => 0
  | .floorOverrun => 1
  | .floorReject => 2
  | .reportLost => 3
  | .vehicleLost => 4
  | .vehicleFault => 5
  | .hoistFault => 6
  | .carrierMismatch => 7
  | .confirmTimeout => 8
  | .preemptLost => 9
  | .positionConflict => 10
  | .pathFault => 11
  | .pathBlocked => 12
  | .rosterFull => 13
  | .claimTimeout => 14
  | .handoffAbandoned => 15
  | .haltLine => 16

def EventKind.ofCode (n : Nat) : Option EventKind := EventKind.all[n]?

def Severity.code : Severity → Nat
  | .log => 0
  | .notice => 1
  | .alarm => 2
  | .halt => 3

/-- A level code above HALT is taken as HALT (R173). -/
def Severity.ofCode : Nat → Severity
  | 0 => .log
  | 1 => .notice
  | 2 => .alarm
  | _ => .halt

/-- Reasons of a CLAIM-REFUSE (R128). -/
inductive RefuseReason where
  | state
  | range
  | full
  | duplicate
deriving DecidableEq, Repr

def RefuseReason.code : RefuseReason → Nat
  | .state => 0
  | .range => 1
  | .full => 2
  | .duplicate => 3

def Mode.code : Mode → Nat
  | .parked => 0
  | .dispatching => 1
  | .halted => 2

def VState.code : VState → Nat
  | .work .idle => 0
  | .work .toSource => 1
  | .work .acquiring => 2
  | .work .laden => 3
  | .work .depositing => 4
  | .faulted _ => 5
  | .lost _ _ => 6
  | .departing => 7
  | .arriving => 8

def Res.code : Res → Nat
  | .free => 0
  | .reserved _ => 1
  | .occupied _ _ => 2
  | .blocked => 3
  | .blockPending _ _ _ => 4
  | .foreign => 5
  | .claiming _ => 6
  | .borrowed _ => 7

def HeldAs.code : HeldAs → Nat
  | .reserved => 0
  | .occupied => 1

def Purpose.code : Purpose → Nat
  | .none => 0
  | .source => 1
  | .destination => 2
  | .exit => 3
  | .park => 4
  | .stand => 5

def PathCondition.code : PathCondition → Nat
  | .noTarget => 0
  | .built => 1
  | .standing => 2
  | .broken _ => 3

def Leg.code : Leg → Nat
  | .leadIn => 0
  | .route => 1
  | .leadOut => 2
  | .walk => 3
  | .final => 4
  | .done => 5

def PathCause.code : PathCause → Nat
  | .walkLimit => 0
  | .walkForeign => 1
  | .noRoute => 2
  | .noExit => 3

def Cause.code : Cause → Nat
  | .path c => c.code
  | .frameKind k => k

/-! ### Kind codes (R188, R189) -/

def kindMove : Nat := 0x20
def kindCancel : Nat := 0x21
def kindForget : Nat := 0x22
def kindBlock : Nat := 0x23
def kindUnblock : Nat := 0x24
def kindLoad : Nat := 0x25
def kindActivate : Nat := 0x26
def kindMode : Nat := 0x27
def kindQuery : Nat := 0x28
def kindClear : Nat := 0x29
def kindRestart : Nat := 0x2A
def kindIdentify : Nat := 0x2B
def kindClaim : Nat := 0x40
def kindClaimGrant : Nat := 0x41
def kindClaimRefuse : Nat := 0x42
def kindClaimWithdraw : Nat := 0x43
def kindArrived : Nat := 0x44
def kindAbandon : Nat := 0x45
def kindReply : Nat := 0x60
def kindMoveReport : Nat := 0x61
def kindNotice : Nat := 0x62
def kindRollcall : Nat := 0x10
def kindGrant : Nat := 0x11
def kindAssign : Nat := 0x12
def kindWithdraw : Nat := 0x13
def kindHold : Nat := 0x14
def kindAllHold : Nat := 0x15
def kindResume : Nat := 0x16

/-- Floor addresses (section 5 of 00_scope.md, R189). -/
def serverAddress : Nat := 64
def anyAddress : Nat := 255

/-! ### Whole frames -/

/-- Header and payload of a floor frame, and the same with its check (R189). -/
def FloorFrame.body (f : FloorFrame) : List Byte :=
  [byte f.dst, byte f.src, byte f.kind] ++ bytes2 f.tag ++ bytes2 f.payload.length ++ f.payload

def FloorFrame.bytes (f : FloorFrame) : List Byte := f.body ++ bytes2 (crc16 f.body).toNat

/-- A floor frame read from the bytes received: none when the length tests of R190 case 1 fail; otherwise the
frame and whether its check holds. -/
def FloorFrame.parse (bs : List Byte) : Option (FloorFrame × Bool) :=
  match bs with
  | d :: s :: k :: t1 :: t0 :: l1 :: l0 :: rest =>
    if bs.length = 9 + num2 l1 l0 ∧ num2 l1 l0 ≤ 320 then
      let payload := rest.take (num2 l1 l0)
      let f : FloorFrame :=
        { dst := d.toNat, src := s.toNat, kind := k.toNat, tag := num2 t1 t0, payload := payload }
      some (f, rest.drop (num2 l1 l0) == bytes2 (crc16 (bs.take (bs.length - 2))).toNat)
    else none
  | _ => none

/-- The string the check of a track line frame is formed over (R187). -/
def trackCheckString (prio : Nat) (src kind len : Byte) (payload : List Byte) : List Byte :=
  [byte prio, src, kind, len] ++ payload

/-- The check a received frame should carry. -/
def trackCheck (f : TrackFrame) : BitVec 16 := crc16 (trackCheckString f.prio f.src f.kind f.len f.payload)

/-- The bytes of an engine frame after the priority bits: source 0, kind, length, payload, check (R187). -/
def LineFrame.bytes (f : LineFrame) : List Byte :=
  [0, byte f.kind, byte f.payload.length] ++ f.payload
    ++ bytes2 (crc16 (trackCheckString f.prio 0 (byte f.kind) (byte f.payload.length) f.payload)).toNat

/-- The four bits of the acknowledge slot, the presence bit first; dominant is `false` (R187). -/
def slotBits : Option Answer → List Bool
  | some .refuseCheck => [false, false, false, false]
  | some .refuseBusy => [false, true, false, false]
  | some .acceptPace => [false, true, true, false]
  | some .accept => [false, true, true, true]
  | none => [true, true, true, true]

def Answer.dominance : Answer → Nat
  | .refuseCheck => 0
  | .refuseBusy => 1
  | .acceptPace => 2
  | .accept => 3

/-- Several answers read as the most dominant one (R155). -/
def combinedAnswer (answers : List Answer) : Option Answer := leastBy Answer.dominance answers

/-- The check of the nonvolatile copy over its three fields, in the order of the IDENTIFY payload (R187, log 12). -/
def imageCheck (cell : Nat) (haltEnable : Bool) (neighbours : List Nat) : BitVec 16 :=
  crc16 ([byte cell, flagByte haltEnable, byte neighbours.length] ++ neighbours.map byte)

end Sys2Proof.Machine
end

