-- ==== Sys2Proof/Machine/Operands.lean ====
section
/-! DEFINITION. The operands of commands: the payloads of received frames read field by field (R188, R189). -/

namespace Sys2Proof.Machine

/-! ### Track line frames (R188) -/

def flag0 (b : Byte) : Bool := b.getLsbD 0

/-- Whether a kind code is one a vehicle sends. -/
def vehicleKind (kind : Nat) : Bool := kind == 1 || kind == 2 || kind == 3

/-- A vehicle frame's content; none for a wrong payload size, an event code above 5 or another kind. -/
def readVehicleFrame (kind : Nat) (payload : List Byte) : Option VehicleFrame :=
  match kind, payload with
  | 1, [s1, s0, fl, c3, c2, c1, c0, m1, m0] => some (.join (num2 s1 s0) (flag0 fl) (num4 c3 c2 c1 c0) (num2 m1 m0))
  | 2, [s1, s0, n, fl] => some (.position (num2 s1 s0) n.toNat (flag0 fl))
  | 3, [e, s1, s0, m1, m0, fl, c3, c2, c1, c0] =>
    (StatusEvent.ofCode e.toNat).map fun ev =>
      .status ev (num2 s1 s0) (num2 m1 m0) (flag0 fl) (num4 c3 c2 c1 c0)
  | _, _ => none

/-! ### Request payloads (R189) -/

structure MoveRequest where
  move : Nat
  carrier : Nat
  source : Nat
  dest : Nat
  cls : Nat
deriving DecidableEq, Repr

def readMove : List Byte → Option MoveRequest
  | [m1, m0, c3, c2, c1, c0, s, d1, d0, cl] =>
    some { move := num2 m1 m0, carrier := num4 c3 c2 c1 c0, source := s.toNat, dest := num2 d1 d0, cls := cl.toNat }
  | _ => none

def readNum1 : List Byte → Option Nat
  | [a] => some a.toNat
  | _ => none

def readNum2 : List Byte → Option Nat
  | [a, b] => some (num2 a b)
  | _ => none

/-- A QUERY's selector. -/
def readQuery : List Byte → Option Nat
  | [_, a, b] => some (num2 a b)
  | _ => none

/-- A CLEAR's event kind codes. -/
def readClear : List Byte → Option (List Nat)
  | n :: codes => if codes.length = n.toNat then some (codes.map (·.toNat)) else none
  | [] => none

/-- A RESTART's reload flag. -/
def readRestart : List Byte → Option Bool
  | [_, fl] => some (flag0 fl)
  | _ => none

structure IdentifyRequest where
  cell : Nat
  haltEnable : Bool
  persist : Bool
  neighbours : List Nat
deriving DecidableEq, Repr

def readIdentify : List Byte → Option IdentifyRequest
  | c :: fl :: n :: cells =>
    if cells.length = n.toNat then
      some { cell := c.toNat, haltEnable := fl.getLsbD 0, persist := fl.getLsbD 1, neighbours := cells.map (·.toNat) }
    else none
  | _ => none

/-! ### LOAD records: none means REFUSED-RANGE (R3, R5, R6, R7, R9) -/

/-- Size of the record that follows selector and index. -/
def loadRecordSize : Nat → Option Nat
  | 0 => some 10
  | 1 => some 16
  | 2 => some 4
  | 3 => some 11
  | 4 => some 2
  | 5 => some 24
  | 6 => some 1
  | 7 => some 1
  | _ => none

/-- Index and record of a LOAD whose record has the size its selector implies. -/
def readLoad (size : Nat) : List Byte → Option (Nat × List Byte)
  | _ :: i1 :: i0 :: record => if record.length = size then some (num2 i1 i0, record) else none
  | _ => none

/-- The form a kind code and its own fields give, each in range (R3). ABSENT is handled before. -/
def readSegForm (k : Nat) (succ1 mainPred owner : Nat) : Option SegForm :=
  match k with
  | 1 => some .plain
  | 2 => if succ1 ≤ 1023 then some (.diverge succ1) else none
  | 3 => if mainPred ≤ 1023 then some (.merge mainPred) else none
  | 4 => if owner ≤ 63 then some (.boundary owner) else none
  | _ => none

/-- A SEGMENT record: `some none` is ABSENT. -/
def readSegment : List Byte → Option (Option SegmentRec)
  | [k, z, a1, a0, b1, b0, m1, m0, sp, ow] =>
    if k.toNat = 0 then some none
    else
      match readSegForm k.toNat (num2 b1 b0) (num2 m1 m0) ow.toNat with
      | none => none
      | some form =>
        if z.toNat ≤ 31 ∧ num2 a1 a0 ≤ 1023 ∧ sp.toNat ≤ 7 then
          some (some { form := form, zone := z.toNat, succ0 := num2 a1 a0, speed := sp.toNat })
        else none
  | _ => none

/-- A ZONE record: `some none` is absent. DESIGN CHOICE (log 36): a park place beyond the park count is not examined,
whatever it holds. -/
def readZone : List Byte → Option (Option ZoneRec)
  | [p, cap, e1, e0, a1, a0, n, p11, p10, p21, p20, p31, p30, p41, p40, ov] =>
    if p.toNat = 0 then some none
    else if p.toNat = 1 then
      let park := [num2 p11 p10, num2 p21 p20, num2 p31 p30, num2 p41 p40].take n.toNat
      if 1 ≤ cap.toNat ∧ cap.toNat ≤ 64 ∧ num2 e1 e0 ≤ 1023 ∧ num2 a1 a0 ≤ 1023 ∧ n.toNat ≤ 4
          ∧ (∀ q ∈ park, q ≤ 1023) ∧ (ov.toNat = 255 ∨ ov.toNat ≤ 31) then
        some (some { capacity := cap.toNat, entrySeg := num2 e1 e0, anchor := num2 a1 a0, park := park
                     overflow := if ov.toNat = 255 then none else some ov.toNat })
      else none
    else none
  | _ => none

/-- A PORT record: `some none` is absent. -/
def readPort : List Byte → Option (Option PortRec)
  | [p, s1, s0, k] =>
    if p.toNat = 0 then some none
    else if p.toNat = 1 ∧ num2 s1 s0 ≤ 1023 then
      match k.toNat with
      | 0 => some (some { segment := num2 s1 s0, kind := .load })
      | 1 => some (some { segment := num2 s1 s0, kind := .buffer })
      | _ => none
    else none
  | _ => none

/-- A ROUTE record for the pair (a, b), with the cases of R7. -/
def readRoute (a b : Nat) : List Byte → Option RouteRec
  | [t1, t0, f1, f0, lr, mr, hl, o11, o10, o21, o20] =>
    let t := num2 t1 t0
    if t > 4095 then none
    else if t = 4095 ∨ a = b then some { time := t, desc := none }
    else
      let d : Descriptor :=
        { first := num2 f1 f0, runLen := lr.toNat, runs := mr.toNat, legs := hl.toNat
          runStep := int2 o11 o10, legStep := int2 o21 o20 }
      if d.first ≤ 1023 ∧ 1 ≤ d.runLen ∧ d.runLen ≤ 32 ∧ 1 ≤ d.runs ∧ d.runs ≤ 8 ∧ 1 ≤ d.legs ∧ d.legs ≤ 8
          ∧ -512 ≤ d.runStep ∧ d.runStep ≤ 511 ∧ -512 ≤ d.legStep ∧ d.legStep ≤ 511
          ∧ d.runLen * d.runs * d.legs ≤ 255 then
        some { time := t, desc := some d }
      else none
  | _ => none

/-- An EXIT record: `some none` is none. -/
def readExit : List Byte → Option (Option Nat)
  | [s1, s0] =>
    if num2 s1 s0 = 65535 then some none else if num2 s1 s0 ≤ 1023 then some (some (num2 s1 s0)) else none
  | _ => none

/-- A TUNING record as carried, before clamping (R18). -/
def readTuning : List Byte → Option Tuning
  | [a1, a0, b1, b0, c1, c0, d1, d0, ka, p1, p0, hd, k1, k0, m1, m0, w, side, silent, conf, claim, hand, lp, lr] =>
    some { base0 := num2 a1 a0, base1 := num2 b1 b0, base2 := num2 c1 c0, base3 := num2 d1 d0, kage := ka.toNat
           pz := num2 p1 p0, hd := hd.toNat, kmax := num2 k1 k0, mpre := num2 m1 m0, w := w.toNat
           tSide := side.toNat, tSilent := silent.toNat, tConf := conf.toNat, tClaim := claim.toNat
           tHand := hand.toNat, lpace := lp.toNat, lresume := lr.toNat }
  | _ => none

/-! ### Peer payloads (R189) -/

/-- Tag, segment and vehicle of every peer frame. -/
structure PeerHead where
  tag : Nat
  segment : Nat
  vehicle : Nat
deriving DecidableEq, Repr

def readPeer : List Byte → Option PeerHead
  | [t, s1, s0, v] => some { tag := t.toNat, segment := num2 s1 s0, vehicle := v.toNat }
  | _ => none

/-- A CLAIM-REFUSE: the reason byte follows and is not kept (R132). -/
def readRefuse : List Byte → Option PeerHead
  | [t, s1, s0, v, _] => some { tag := t.toNat, segment := num2 s1 s0, vehicle := v.toNat }
  | _ => none

def readClaim : List Byte → Option (PeerHead × Summary)
  | [t, s1, s0, v, m1, m0, c3, c2, c1, c0, d1, d0, cl, a1, a0] =>
    some ({ tag := t.toNat, segment := num2 s1 s0, vehicle := v.toNat },
          { move := num2 m1 m0, carrier := num4 c3 c2 c1 c0, dest := num2 d1 d0, cls := cl.toNat, age := num2 a1 a0 })
  | _ => none

/-! ### Which row of the table a frame belongs to (log 2) -/

/-- The first payload byte: LOAD selector, mode code, query kind or restart kind. -/
def FloorFrame.selector (f : FloorFrame) : Option Nat := f.payload.head?.map (·.toNat)

def isKind (kind : Nat) (f : FloorFrame) : Bool := f.kind == kind
def isKindWith (kind sel : Nat) (f : FloorFrame) : Bool := f.kind == kind && f.selector == some sel

/-- Whether a selector names one of `n` codes counted from 0. -/
def selectorBelow (n : Nat) (f : FloorFrame) : Bool :=
  match f.selector with
  | some k => k < n
  | none => false

/-- A peer kind goes to the BXU (R190). -/
def isPeer (f : FloorFrame) : Bool := kindClaim ≤ f.kind && f.kind ≤ kindAbandon

/-- A request some row other than UNKNOWN_REQUEST_KIND takes: one of the twelve kinds, and for LOAD, MODE, QUERY
and RESTART one of the listed selectors, modes, query kinds or restart kinds. -/
def hasRow (f : FloorFrame) : Bool :=
  if f.kind = kindLoad then selectorBelow 8 f
  else if f.kind = kindMode then selectorBelow 3 f
  else if f.kind = kindQuery then selectorBelow 9 f
  else if f.kind = kindRestart then selectorBelow 2 f
  else kindMove ≤ f.kind && f.kind ≤ kindIdentify

def isUnknownRequest (f : FloorFrame) : Bool := !isPeer f && !hasRow f

end Sys2Proof.Machine
end

