-- ==== Sys2Proof/Machine/Ops.lean ====
section
/-! DEFINITION. The shared operations under every meaning: reading the stores, the floor queues, the due sets of
the track line, the mode's entry to HALTED. -/

namespace Sys2Proof.Machine

/-! ### Running, time and mode -/

/-- The engine runs: power present and the reset pin released (R185). -/
def State.running (s : State) : Bool := s.board.power && !s.board.resetPin

/-- An event of a running engine; otherwise every unit is held still (R185). -/
def whenRunning (f : State → State) (s : State) : State := if s.running then f s else s

def State.now (s : State) : Nat := s.board.now
def State.mode (s : State) : Mode := s.mc.mode
def State.tuning (s : State) : Tuning := s.layout.tuning

/-- Time has reached `t`: the fall of a deadline or the expiry of a timer (log 4). -/
def reachTime (t : Nat) (s : State) : State := s.updBoard fun b => { b with now := max b.now t }

/-- The HALT line is active (R175). -/
def State.haltLine (s : State) : Bool := s.mc.haltInput && s.mc.identity.haltEnable

/-- Effective halt (R175). -/
def State.effectiveHalt (s : State) : Bool := s.haltLine || s.mc.haltPending

/-! ### Layout Store (R4) -/

def segment (s : State) (i : Nat) : Option SegmentRec := tget i s.layout.segs
def zoneRec (s : State) (z : Nat) : Option ZoneRec := tget z s.layout.zones
def portRec (s : State) (p : Nat) : Option PortRec := tget p s.layout.ports
def exitSeg (s : State) (c : Nat) : Option Nat := tget c s.layout.exits

/-- "No route": what an entry that holds nothing reads as (R1, R7). -/
def noRoute : RouteRec := { time := 4095, desc := none }
def route (s : State) (a b : Nat) : RouteRec := (tget (a * 32 + b) s.layout.routes).getD noRoute

def capOf (s : State) (z : Nat) : Nat := (tget z s.layout.caps).getD 7
def zoneOf (s : State) (i : Nat) : Option Nat := (segment s i).map (·.zone)

/-- Successors of a segment record (R4). -/
def SegmentRec.successors (r : SegmentRec) : List Nat :=
  match r.form with
  | .diverge t => [r.succ0, t]
  | _ => [r.succ0]

/-- A BOUNDARY whose owner cell differs from the cell number is foreign (R4). -/
def isForeignRec (s : State) (r : SegmentRec) : Bool :=
  match r.form with
  | .boundary owner => s.mc.identity.cell != some owner
  | _ => false

def isForeign (s : State) (i : Nat) : Bool :=
  match segment s i with
  | some r => isForeignRec s r
  | none => false

/-- A loaded own segment (R4). -/
def isOwn (s : State) (i : Nat) : Bool :=
  match segment s i with
  | some r => !isForeignRec s r
  | none => false

def ownerOf (s : State) (i : Nat) : Option Nat :=
  match segment s i with
  | some r => (match r.form with | .boundary owner => some owner | _ => none)
  | none => none

/-- Predecessors of a segment (R4). -/
def predecessors (s : State) (t : Nat) : List Nat :=
  (s.layout.segs.filter fun p => !isForeignRec s p.2 && p.2.successors.contains t).map (·.1)

def solePredecessor (s : State) (t : Nat) : Option Nat :=
  match predecessors s t with
  | [p] => some p
  | _ => none

/-! ### Segment Reservation Table (R21) -/

def resRec (s : State) (i : Nat) : Option SegRes := tget i s.srt
def resOf (s : State) (i : Nat) : Option Res := (resRec s i).map (·.res)
def waitsOf (s : State) (i : Nat) : List WaitEntry :=
  match resRec s i with
  | some r => r.waits
  | none => []

def setRes (i : Nat) (r : Res) (s : State) : State := s.updSrt (tmod i fun x => { x with res := r })
def modWaits (i : Nat) (f : List WaitEntry → List WaitEntry) (s : State) : State :=
  s.updSrt (tmod i fun x => { x with waits := f x.waits })

/-- The state a loaded segment takes in PARKED: FOREIGN for a foreign BOUNDARY, FREE for any other (R22). -/
def parkedRes (s : State) (r : SegmentRec) : SegRes :=
  { res := if isForeignRec s r then .foreign else .free, waits := [] }

/-- Every loaded segment FREE or FOREIGN with an empty wait list (R16, R22, R47). -/
def clearReservations (s : State) : State :=
  s.updSrt fun _ => s.layout.segs.map fun p => (p.1, parkedRes s p.2)

def Waiter.vehicleId : Waiter → Nat
  | .vehicle v _ => v
  | .claim v _ _ _ => v

def WaitEntry.isVehicle (v : Nat) (e : WaitEntry) : Bool :=
  match e.who with
  | .vehicle u _ => u == v
  | .claim _ _ _ _ => false

def WaitEntry.isClaim (cell tag : Nat) (e : WaitEntry) : Bool :=
  match e.who with
  | .vehicle _ _ => false
  | .claim _ t c _ => t == tag && c == cell

/-- A local vehicle leaves every wait list (R34). -/
def leaveWaits (v : Nat) (s : State) : State :=
  s.updSrt fun t => t.map fun p => (p.1, { p.2 with waits := p.2.waits.filter fun e => !e.isVehicle v })

/-- A waiting foreign claim leaves the wait list (R34). -/
def leaveClaimWait (cell tag : Nat) (s : State) : State :=
  s.updSrt fun t => t.map fun p => (p.1, { p.2 with waits := p.2.waits.filter fun e => !e.isClaim cell tag })

/-- The segment in whose wait list a local vehicle waits. -/
def waitingAt (s : State) (v : Nat) : Option Nat :=
  (s.srt.find? fun p => p.2.waits.any fun e => e.isVehicle v).map (·.1)

/-! ### Vehicle Roster (R64, R65) -/

def findVehicle (s : State) (v : Nat) : Option (Nat × Vehicle) := s.roster.find? fun p => p.2.id == v
def vehicle (s : State) (v : Nat) : Option Vehicle := (findVehicle s v).map (·.2)
def inRoster (s : State) (v : Nat) : Bool := (findVehicle s v).isSome
def updVehicle (v : Nat) (f : Vehicle → Vehicle) (s : State) : State :=
  s.updRoster fun t => t.map fun p => if p.2.id = v then (p.1, f p.2) else p
def dropVehicle (v : Nat) (s : State) : State := s.updRoster fun t => t.filter fun p => p.2.id ≠ v

def Vehicle.isWorking (x : Vehicle) : Bool :=
  match x.state with
  | .work _ => true
  | _ => false

/-- The working state a rule reads: the state in service, the resume state out of it (R67, R91). -/
def Vehicle.workOf (x : Vehicle) : Option WorkState :=
  match x.state with
  | .work w => some w
  | .faulted w => some w
  | .lost w _ => some w
  | .departing => none
  | .arriving => none

/-- A change of working state is made to the resume state while FAULTED or LOST (R67, R101). -/
def Vehicle.setWork (w : WorkState) (x : Vehicle) : Vehicle :=
  match x.state with
  | .faulted _ => { x with state := .faulted w }
  | .lost _ mark => { x with state := .lost w mark }
  | _ => { x with state := .work w }

def Vehicle.firstHeld (x : Vehicle) : Option Nat := x.held.head?
def Vehicle.lastHeld (x : Vehicle) : Option Nat := x.held.getLast?

/-- Whether a vehicle counts in a zone: a held entry there that is not BORROWED (R30). -/
def countsIn (s : State) (z : Nat) (x : Vehicle) : Bool :=
  x.held.any fun i => zoneOf s i == some z &&
    (match resOf s i with
     | some (.borrowed _) => false
     | _ => true)

/-- The zone count (R30). -/
def zoneCount (s : State) (z : Nat) : Nat := (s.roster.filter fun p => countsIn s z p.2).length

/-- Below the capacity of the zone of segment `i` (R31). -/
def zoneHasRoom (s : State) (i : Nat) : Bool :=
  match zoneOf s i with
  | none => false
  | some z =>
    match zoneRec s z with
    | none => false
    | some rec => zoneCount s z < rec.capacity

/-- Zone admission of a local vehicle at an own segment (R31). -/
def admits (s : State) (v i : Nat) : Bool :=
  match vehicle s v with
  | none => false
  | some x => (x.lastHeld.bind (zoneOf s) == zoneOf s i && (zoneOf s i).isSome) || zoneHasRoom s i

/-! ### Move Queue -/

def findMove (s : State) (m : Nat) : Option Move := s.mq.moves.find? fun x => x.id == m
def vehicleMove (s : State) (v : Nat) : Option Move := (vehicle s v).bind fun x => x.move.bind (findMove s)

/-- A preemption entry stands while its new move is ASSIGNED on its vehicle (R123). -/
def standing (moves : List Move) (e : Preemption) : Bool :=
  moves.any fun x => x.id == e.newMove && x.state == .assigned && x.vehicle == some e.vehicle

def prunePreempts (s : State) : State :=
  s.updAsu fun a => { a with preempts := a.preempts.filter (standing s.mq.moves) }

/-- A record of the Move Queue changes; entries of the preemption list that no longer stand go (R123). -/
def setMove (m : Nat) (f : Move → Move) (s : State) : State :=
  prunePreempts (s.updMq fun q => { q with moves := q.moves.map fun x => if x.id = m then f x else x })

def deleteMove (m : Nat) (s : State) : State :=
  prunePreempts (s.updMq fun q => { q with moves := q.moves.filter fun x => x.id ≠ m })

/-- The pass-due flag is set only in DISPATCHING (R111). -/
def setPassDue (s : State) : State :=
  if s.mode = .dispatching then s.updAsu fun a => { a with passDue := true } else s

/-- The confirm deadline of a move that becomes ASSIGNED (R99). -/
def confirmFromNow (s : State) : ConfirmDeadline :=
  if s.mode = .dispatching then .at (s.now + s.tuning.tConf) else .suspended

/-- The cell and local port of a global port (section 5 of 00_scope.md). -/
def cellOfPort (g : Nat) : Nat := g / 256
def localOfPort (g : Nat) : Nat := g % 256
def isOwnPort (s : State) (g : Nat) : Bool := s.mc.identity.cell == some (cellOfPort g)
def portSegment (s : State) (p : Nat) : Option Nat := (portRec s p).map (·.segment)

/-! ### Due sets of the track line (R150, R151, R155) -/

/-- The item was made due again, or discarded, while its frame is on the line (R155). -/
def relink (item : LineItem) (l : Link) (s : State) : State :=
  s.updTli fun t =>
    { t with line := t.line.map fun f => if f.item = item ∧ f.link ≠ .severed then { f with link := l } else f }

/-- A WITHDRAW id made due again or discarded is no longer cleared by the frame on the line (R155, log 25). -/
def uncarry (v m : Nat) (s : State) : State :=
  s.updTli fun t =>
    { t with line := t.line.map fun f =>
        if f.item = .withdraw v then { f with carried := f.carried.filter (· ≠ m) } else f }

def updDue (v : Nat) (f : DueSet → DueSet) (s : State) : State := updVehicle v (fun x => { x with due := f x.due }) s

/-- A GRANT becomes due to a roster vehicle other than an ARRIVING one (R24, R20, R150). -/
def makeGrantDue (v : Nat) (s : State) : State :=
  relink (.grant v) .renewed
    (updVehicle v (fun x => if x.state = .arriving then x else { x with due := { x.due with grant := some 0 } }) s)

/-- A HOLD becomes due to an id: to its record with the stop mark set, or in the unrecorded HOLD set (R151). -/
def makeHoldDue (v : Nat) (s : State) : State :=
  if inRoster s v then
    relink (.hold v) .renewed (updDue v (fun d => { d with hold := some 0, stopMark := true }) s)
  else
    relink (.strayHold v) .renewed (s.updTli fun t => { t with strayHolds := tput v 0 t.strayHolds })

/-- The WITHDRAW list with an id made due (R151). -/
def addWithdraw (m : Nat) (ids : List Nat) : List Nat :=
  if m ∈ ids then ids else if ids.length < Config.withdrawMax then ids ++ [m] else ids.tail ++ [m]

def makeWithdrawDue (v m : Nat) (s : State) : State :=
  uncarry v m (relink (.withdraw v) .renewed
    (updDue v (fun d => { d with withdraw := addWithdraw m d.withdraw, withdrawCount := 0 }) s))

def discardWithdraw (v m : Nat) (s : State) : State :=
  uncarry v m (updDue v (fun d => { d with withdraw := d.withdraw.filter (· ≠ m) }) s)

/-- An ASSIGN becomes due for move `m`, whose id leaves the WITHDRAW list (R151). -/
def makeAssignDue (v m : Nat) (s : State) : State :=
  relink (.assign v) .renewed (updDue v (fun d => { d with assign := some 0 }) (discardWithdraw v m s))

def discardAssign (v : Nat) (s : State) : State :=
  relink (.assign v) .severed (updDue v (fun d => { d with assign := none }) s)

/-- A return to service: a HOLD still due is discarded and the stop mark cleared (R84, R151). -/
def liftHold (v : Nat) (s : State) : State :=
  relink (.hold v) .severed (updDue v (fun d => { d with hold := none, stopMark := false }) s)

/-- Whether a line item belongs to a vehicle's due set. -/
def LineItem.isOf (v : Nat) : LineItem → Bool
  | .hold u => u == v
  | .withdraw u => u == v
  | .grant u => u == v
  | .assign u => u == v
  | _ => false

/-- The whole due set of a vehicle goes; a frame of it on the line clears nothing further (R65, R151, R155). -/
def severVehicle (v : Nat) (s : State) : State :=
  s.updTli fun t =>
    { t with line := t.line.map fun f => if f.item.isOf v then { f with link := .severed, carried := [] } else f }

def discardDue (v : Nat) (s : State) : State := severVehicle v (updDue v (fun _ => DueSet.empty) s)

/-- The record of a vehicle is removed, its due set with it (R65, R151). -/
def removeRecord (v : Nat) (s : State) : State := dropVehicle v (severVehicle v s)

/-- An id leaves the unrecorded HOLD set when a record is made for it (R151). -/
def claimStrayHold (v : Nat) (s : State) : State :=
  relink (.strayHold v) .severed (s.updTli fun t => { t with strayHolds := tdrop v t.strayHolds })

/-- A record is made in the lowest free slot (R65). -/
def addRecord (x : Vehicle) (s : State) : State :=
  match lowestFree Config.rosterMax s.roster with
  | none => s
  | some slot => claimStrayHold x.id (s.updRoster (tput slot x))

def makeAllHoldDue (s : State) : State := relink .allHold .renewed (s.updTli fun t => { t with allHold := some 0 })
def makeResumeDue (s : State) : State := relink .resume .renewed (s.updTli fun t => { t with resume := some 0 })
def makeRollcallDue (s : State) : State := relink .rollcall .renewed (s.updTli fun t => { t with rollcall := some 0 })
def discardResume (s : State) : State := relink .resume .severed (s.updTli fun t => { t with resume := none })
def discardRollcall (s : State) : State := relink .rollcall .severed (s.updTli fun t => { t with rollcall := none })

/-! ### Entry to HALTED (R179) -/

/-- Running confirm deadlines become SUSPENDED (R99). -/
def suspendConfirm (s : State) : State :=
  s.updMq fun q =>
    { q with moves := q.moves.map fun x =>
        match x.confirm with
        | .at _ => { x with confirm := .suspended }
        | _ => x }

def enterHalted (s : State) : State :=
  (suspendConfirm (discardResume (makeAllHoldDue (s.updMc fun m => { m with mode := .halted })))).updAsu
    fun a => { a with passDue := false }

/-! ### Floor queues (R160, R161) -/

/-- Entries held plus open reply reservations (R161). -/
def occupancy (s : State) : Nat := s.fli.outbound.length + s.fli.reservations

/-- Frames carry the cell number, or 255 while it is unset (R163). -/
def ownAddress (s : State) : Nat := s.mc.identity.cell.getD anyAddress

def pushOut (f : FloorFrame) (s : State) : State := s.updFli fun l => { l with outbound := l.outbound ++ [f] }

def floorFrame (s : State) (dst kind tag : Nat) (payload : List Byte) : FloorFrame :=
  { dst := dst, src := ownAddress s, kind := kind, tag := tag, payload := payload }

/-- A completion code with the content the owner's rule gives (R163, R164). -/
structure Reply where
  code : Code
  content : List Byte
deriving DecidableEq, Repr

def Reply.bare (c : Code) : Reply := { code := c, content := [] }

/-- The REPLY to a request of `kind` is appended and its reservation closes (R161, R163). -/
def appendReply (asker : ReplyTo) (kind : Nat) (r : Reply) (s : State) : State :=
  pushOut (floorFrame s asker.src kindReply asker.tag ([byte kind, byte r.code.code] ++ r.content))
    (s.updFli fun l => { l with reservations := l.reservations - 1 })

/-! ### Pacing (R148) -/

def nextPacing (t : Tuning) (pacing : Bool) (n : Nat) : Bool :=
  if pacing then !(n < t.lresume) else t.lpace < n

/-- The pacing state is brought up to date for the occupancy (R148). -/
def updatePacing (s : State) : State :=
  s.updTli fun t => { t with pacing := nextPacing s.tuning t.pacing t.queue.length }

end Sys2Proof.Machine
end

