-- ==== Sys2Proof/Machine/Flags.lean ====
section
/-! DEFINITION. Status flags, severities, NOTICE and ALARM; reports, which raise REPORT-LOST when discarded
(R161, R169 to R174, R178). -/

namespace Sys2Proof.Machine

/-! ### Severity map and ALARM -/

/-- The defaults of R173. -/
def EventKind.defaultSeverity : EventKind → Severity
  | .trackCheck => .log
  | .pathBlocked => .log
  | .floorOverrun => .notice
  | .floorReject => .notice
  | .reportLost => .notice
  | .vehicleLost => .notice
  | .confirmTimeout => .notice
  | .preemptLost => .notice
  | .rosterFull => .notice
  | .claimTimeout => .notice
  | .vehicleFault => .alarm
  | .hoistFault => .alarm
  | .carrierMismatch => .alarm
  | .pathFault => .alarm
  | .handoffAbandoned => .alarm
  | .haltLine => .alarm
  | .positionConflict => .halt

/-- The lowest level a kind may hold (R173). -/
def EventKind.floor : EventKind → Severity
  | .positionConflict => .halt
  | _ => .log

def severityOf (s : State) (k : EventKind) : Severity := (tget k.code s.layout.severity).getD k.defaultSeverity

def flagSet (s : State) (k : EventKind) : Bool := (tget k.code s.su.flags).isSome

/-- The ALARM condition of R171. -/
def alarmDue (s : State) : Bool :=
  EventKind.all.any fun k => flagSet s k && (severityOf s k == .alarm || severityOf s k == .halt)

def updateAlarm (s : State) : State := s.updSu fun u => { u with alarm := alarmDue s }

/-! ### Occurrences (R169, R178) -/

/-- An occurrence of HALT severity passed to Mode Control (R178). During a dispatch pass the entry to HALTED waits
for the last application (R112). -/
def haltOccurrence (s : State) : State :=
  if s.mode = .dispatching then
    if s.asu.passRunning then s.updAsu fun a => { a with haltDeferred := true } else enterHalted s
  else s

/-- An event detail with every field at its none value (R170). -/
def noDetail : Detail :=
  { kind := .trackCheck, severity := .log, vehicle := 0, move := 0, segment := none, cell := none, tag := 0
    carrier := 0, cause := none }

def segmentDetail (i : Nat) : Option Nat := if i ≤ 1023 then some i else none
def cellDetail (c : Nat) : Option Nat := if c ≤ 63 then some c else none

/-- One occurrence: the flag and first-occurrence record, the NOTICE by `notify`, the ALARM output, Mode Control. -/
def occur (notify : Detail → State → State) (k : EventKind) (d : Detail) (s : State) : State :=
  let sev := severityOf s k
  let det := { d with kind := k, severity := sev }
  let s₁ :=
    if flagSet s k then s
    else
      let s₀ := s.updSu fun u => { u with flags := tput k.code det u.flags }
      if sev = .log then s₀ else notify det s₀
  let s₂ := updateAlarm s₁
  if sev = .halt then haltOccurrence s₂ else s₂

/-- The payload of a NOTICE (R189). -/
def detailBytes (d : Detail) : List Byte :=
  [byte d.kind.code, byte d.severity.code, byte d.vehicle] ++ bytes2 d.move ++ opt2 d.segment
    ++ [opt1 d.cell, byte d.tag] ++ bytes4 d.carrier ++ [opt1 (d.cause.map (·.code))]

def noticeFrame (d : Detail) (s : State) : FloorFrame := floorFrame s serverAddress kindNotice 0 (detailBytes d)

/-- The detail of a REPORT-LOST occurrence: the kind code of the frame lost (R170, R189). -/
def lostDetail (kind : Nat) : Detail := { noDetail with cause := some (.frameKind kind) }

/-- A NOTICE for REPORT-LOST discarded raises REPORT-LOST once more, which finds the flag set (R170). -/
def notifyLost (d : Detail) (s : State) : State :=
  if occupancy s < Config.reportLimit then pushOut (noticeFrame d s) s
  else occur (fun _ t => t) .reportLost (lostDetail kindNotice) s

/-- A NOTICE under the report limit, or discarded with REPORT-LOST (R161, R170). -/
def notify (d : Detail) (s : State) : State :=
  if occupancy s < Config.reportLimit then pushOut (noticeFrame d s) s
  else occur notifyLost .reportLost (lostDetail kindNotice) s

/-- A unit raises an event kind (R169). -/
def raise (k : EventKind) (d : Detail) (s : State) : State := occur notify k d s

/-! ### Reports and peer frames (R161) -/

/-- A MOVE-REPORT (R92, R189). -/
def reportMove (m : Nat) (st : ReportState) (v : Nat) (age : Nat) (s : State) : State :=
  if occupancy s < Config.reportLimit then
    pushOut (floorFrame s serverAddress kindMoveReport 0 (bytes2 m ++ [byte st.code, byte v] ++ bytes2 age)) s
  else raise .reportLost (lostDetail kindMoveReport) s

/-- A peer frame of `kind` to the engine of cell `dst` (R128, R161, R189). -/
def sendPeer (dst kind : Nat) (tag seg v : Nat) (extra : List Byte) (s : State) : State :=
  if occupancy s < Config.outboundMax then
    pushOut (floorFrame s dst kind 0 ([byte tag] ++ bytes2 seg ++ [byte v] ++ extra)) s
  else raise .reportLost (lostDetail kind) s

/-! ### Changes of moves with their reports (R92) -/

/-- A move changes by `f`, to a state that is reported. The confirm deadline is absent outside ASSIGNED (R99). -/
def changeMove (m : Nat) (f : Move → Move) (s : State) : State :=
  match findMove s m with
  | none => s
  | some x =>
    let y := f x
    let y := if y.state = .assigned then y else { y with confirm := .absent }
    reportMove m (.now y.state) (y.vehicle.getD 0) y.age (setMove m (fun _ => y) s)

/-- A move is reported with the outcome of its removal and the vehicle it named, and removed (R92). -/
def removeMove (m : Nat) (out : ReportState) (s : State) : State :=
  match findMove s m with
  | none => s
  | some x => reportMove m out (x.vehicle.getD 0) x.age (deleteMove m s)

/-- A move returns to WAITING with its age and place kept (R98, R100, R111). -/
def returnToWaiting (m : Nat) (s : State) : State :=
  setPassDue (changeMove m (fun x => { x with state := .waiting, vehicle := none }) s)

def returnAll (ms : List Nat) (s : State) : State := ms.foldl (fun t m => returnToWaiting m t) s

/-- A record is appended with the next arrival sequence value (R88, R89). -/
def appendMove (x : Move) (s : State) : State :=
  s.updMq fun q =>
    { q with moves := q.moves ++ [{ x with seq := q.arrivals }]
             arrivals := if q.arrivals < Config.arrivalsTop then q.arrivals + 1 else q.arrivals }

/-- The highest move id from 65535 down that no record holds (R93). At most 128 are held. -/
def freshMoveId (s : State) : Nat :=
  (((List.range 129).map (65535 - ·)).find? fun m => (findMove s m).isNone).getD 0

/-- A carrier no move accounts for is on vehicle `v`: an UNROUTED record is made and linked, or none when the queue
is full (R93). The vehicle's carrier is recorded. -/
def createUnrouted (v carrier : Nat) (s : State) : State :=
  if s.mq.moves.length < Config.movesMax then
    let m := freshMoveId s
    let x : Move :=
      { id := m, carrier := carrier, source := none, dest := none, cls := 3, age := 0, seq := 0, state := .unrouted
        vehicle := some v, confirm := .absent, returnFlag := false, urgency := 0 }
    reportMove m (.now .unrouted) v 0
      (updVehicle v (fun y => { y with move := some m, carrier := some carrier }) (appendMove x s))
  else updVehicle v (fun y => { y with move := none, carrier := some carrier }) s

end Sys2Proof.Machine
end

