-- ==== Sys2Proof/Machine/PathWalker.lean ====
section
/-! DEFINITION. The Path Walker: route sequences, walks, targets, path builds, and the next segment of a path
(R8, R49 to R63). -/

namespace Sys2Proof.Machine

/-! ### Route descriptors -/

/-- The segment at leg `h`, run `m`, place `r` of a descriptor (R8, closed form). -/
def Descriptor.segmentAt (d : Descriptor) (h m r : Nat) : Int :=
  d.first + h * (d.runs * ((d.runLen : Int) - 1) + ((d.runs : Int) - 1) * d.runStep + d.legStep)
    + m * ((d.runLen : Int) - 1 + d.runStep) + r

def Descriptor.length (d : Descriptor) : Nat := d.runLen * d.runs * d.legs

/-- The segment sequence of a descriptor, in increasing h, then m, then r (R8). -/
def Descriptor.sequence (d : Descriptor) : List Int :=
  (List.range d.legs).flatMap fun h =>
    (List.range d.runs).flatMap fun m =>
      (List.range d.runLen).map fun r => d.segmentAt h m r

/-- The step from a route segment to the next and the counters it takes; none at the end of the leg (R54). -/
def Descriptor.step (d : Descriptor) (h m r : Nat) : Option (Int × Nat × Nat × Nat) :=
  if r + 1 < d.runLen then some (1, h, m, r + 1)
  else if m + 1 < d.runs then some (d.runStep, h, m + 1, 0)
  else if h + 1 < d.legs then some (d.legStep, h + 1, 0, 0)
  else none

/-! ### Walks (R53) -/

def succ0 (s : State) (i : Nat) : Option Nat := (segment s i).map (·.succ0)

/-- The number of segments from `cur` to `goal` along succ0, after `taken`, with at most `n` more. A segment that
is not loaded ends the walk; a validated layout has none (R11, log 27). DESIGN CHOICE (log 37): a 255th segment that is
a foreign BOUNDARY fails the walk with WALK-FOREIGN. -/
def walkFrom (s : State) (goal : Nat) : Nat → Nat → Nat → Except PathCause Nat
  | 0, _, _ => .error .walkLimit
  | n + 1, cur, taken =>
    match succ0 s cur with
    | none => .error .walkLimit
    | some nx =>
      if isForeign s nx then .error .walkForeign
      else if nx = goal then .ok (taken + 1)
      else walkFrom s goal n nx (taken + 1)

def walkLength (s : State) (start goal : Nat) : Except PathCause Nat :=
  if start = goal then .ok 0 else walkFrom s goal 255 start 0

/-! ### The trial (R52, R55) -/

def standPath (s0 : Nat) : Path :=
  { Path.empty with
    purpose := .stand, target := some s0, condition := .standing, start := some s0, approach := some s0
    leg := some .done, cursor := some s0 }

/-- What a trial knows of its path before the walks: start, target, approach, final segment and route pair (R51). -/
def plannedPath (p : Purpose) (target : Option Nat) (s0 : Nat) (approach finalSeg : Option Nat)
    (pair : Option (Nat × Nat)) : Path :=
  { Path.empty with
    purpose := p, target := target, start := some s0, routePair := pair, approach := approach, finalSeg := finalSeg
    cursor := some s0 }

/-- The record of a failed build: what the trial knew is kept, with the cause (R51, R55, log 18). -/
def brokenPath (p : Path) (c : PathCause) : Path := { p with condition := .broken c }

/-- A completed trial: lengths counted, remaining their sum, the leg the first one, or DONE without segments. -/
def builtPath (p : Path) (leadIn route leadOut walk : Nat) : Path :=
  let fin := if p.finalSeg.isSome then 1 else 0
  let total := leadIn + route + leadOut + walk + fin
  { p with
    condition := .built, leadInLen := leadIn, routeLen := route, leadOutLen := leadOut, walkLen := walk
    finalLen := fin, remaining := total
    leg := some (if total = 0 then .done else if p.routePair.isSome then .leadIn else .walk) }

/-- The trial walk from `s0` to the approach, in one of the two shapes of R52. -/
def trial (s : State) (p : Purpose) (target s0 approach : Nat) (finalSeg : Option Nat) : Path :=
  let plan := plannedPath p (some target) s0 (some approach) finalSeg
  match zoneOf s s0, zoneOf s approach with
  | some a, some b =>
    if a = b then
      match walkLength s s0 approach with
      | .error c => brokenPath (plan none) c
      | .ok n => builtPath (plan none) 0 0 0 n
    else
      match zoneRec s a, zoneRec s b with
      | some za, some zb =>
        match walkLength s s0 za.anchor with
        | .error c => brokenPath (plan (some (a, b))) c
        | .ok leadIn =>
          match (route s a b).desc with
          | none => brokenPath (plan (some (a, b))) .noRoute
          | some d =>
            match walkLength s zb.entrySeg approach with
            | .error c => brokenPath (plan (some (a, b))) c
            | .ok leadOut => builtPath (plan (some (a, b))) leadIn d.length leadOut 0
      | _, _ => brokenPath (plan (some (a, b))) .walkLimit
  | _, _ => brokenPath (plan none) .walkLimit

/-! ### Park choice (R59, R61) -/

/-- The segment is the park target of a roster vehicle other than `v`. -/
def markedByOther (s : State) (v i : Nat) : Bool := s.roster.any fun p => p.2.id != v && p.2.parkMark == some i

def parkFree (s : State) (v i : Nat) : Bool := resOf s i == some .free && !markedByOther s v i

/-- The park target of an IDLE vehicle at `s0`, or none for STAND (R59). -/
def parkChoice (s : State) (v s0 : Nat) : Option Nat :=
  match (zoneOf s s0).bind fun z => (zoneRec s z).map fun rec => (z, rec) with
  | none => none
  | some (z, rec) =>
    if s0 ∈ rec.park ∧ markedByOther s v s0 = false then some s0
    else
      match rec.park.find? (parkFree s v) with
      | some i => some i
      | none =>
        match rec.overflow with
        | none => none
        | some o =>
          if (route s z o).time < 4095 then ((zoneRec s o).map (·.park)).bind fun l => l.find? (parkFree s v)
          else none

/-! ### Builds (R49, R50, R55, R62) -/

/-- The path of a laden vehicle to a destination port: here, or through the exit of its cell (R50, R62). -/
def pathToPort (s : State) (s0 dest : Nat) : Path :=
  if isOwnPort s dest then
    match portSegment s (localOfPort dest) with
    | none => standPath s0
    | some t => trial s .destination t s0 t none
  else
    match exitSeg s (cellOfPort dest) with
    | none => brokenPath (plannedPath .exit none s0 none none none) .noExit
    | some x =>
      match solePredecessor s x with
      | none => brokenPath (plannedPath .exit (some x) s0 none (some x) none) .noExit
      | some p => trial s .exit x s0 p (some x)

/-- The path of a working vehicle at `s0` and the park target mark it takes (R50, R59). -/
def planPath (s : State) (x : Vehicle) (w : WorkState) (s0 : Nat) : Path × Option Nat :=
  let mv := x.move.bind (findMove s)
  match w with
  | .idle =>
    match parkChoice s x.id s0 with
    | none => (standPath s0, none)
    | some t => (trial s .park t s0 t none, some t)
  | .toSource | .acquiring =>
    match mv.bind fun y => y.source.bind (portSegment s) with
    | none => (standPath s0, none)
    | some t => (trial s .source t s0 t none, none)
  | .laden | .depositing =>
    match mv with
    | none => (standPath s0, none)
    | some y =>
      match y.state, y.dest with
      | .unrouted, _ => (standPath s0, none)
      | _, none => (standPath s0, none)
      | _, some d => (pathToPort s s0 d, none)

/-- A build for a working vehicle: the former record and mark go, the new record is set from the trial, and a
failed trial raises PATH-FAULT (R49, R55). No build runs in another state (R63). -/
def buildPath (v : Nat) (s : State) : State :=
  match vehicle s v with
  | none => s
  | some x =>
    match x.state, x.firstHeld with
    | .work w, some s0 =>
      let s₁ := updVehicle v (fun y => { y with parkMark := none }) s
      let plan := planPath s₁ x w s0
      let s₂ := updVehicle v (fun y => { y with path := plan.1, parkMark := plan.2 }) s₁
      match plan.1.condition with
      | .broken c =>
        raise .pathFault { noDetail with vehicle := v, segment := plan.1.target, cause := some (.path c) } s₂
      | _ => s₂
    | _, _ => s

/-! ### Asking and advancing (R54, R56, R57) -/

def routeDesc (s : State) (p : Path) : Option Descriptor := p.routePair.bind fun ab => (route s ab.1 ab.2).desc

/-- The segment that follows the cursor (R56). -/
def followingSegment (s : State) (p : Path) : Option Nat :=
  match p.leg, p.cursor with
  | some .leadIn, some c => if p.walkSteps < p.leadInLen then succ0 s c else (routeDesc s p).map (·.first)
  | some .route, some c =>
    match routeDesc s p with
    | none => none
    | some d =>
      match d.step p.h p.m p.r with
      | some (k, _) => some ((c : Int) + k).toNat
      | none => if 0 < p.leadOutLen then succ0 s c else p.finalSeg
  | some .leadOut, some c => if p.walkSteps < p.leadOutLen then succ0 s c else p.finalSeg
  | some .walk, some c => if p.walkSteps < p.walkLen then succ0 s c else p.finalSeg
  | _, _ => none

/-- The answer to the BCU's question: a segment, or none for AT-TARGET and NO-PATH, which both end the extension
step (R28, R56). -/
def nextPathSegment (s : State) (p : Path) : Option Nat :=
  match p.condition with
  | .built => followingSegment s p
  | _ => none

/-- The leg and counters when one more segment is taken; `leg` is the leg of the segment at the cursor (R57,
log 18). -/
def stepLeg (s : State) (p : Path) : Path :=
  match p.leg with
  | some .leadIn =>
    if p.walkSteps < p.leadInLen then { p with walkSteps := p.walkSteps + 1 }
    else { p with leg := some .route, walkSteps := 0, h := 0, m := 0, r := 0 }
  | some .route =>
    match (routeDesc s p).bind fun d => d.step p.h p.m p.r with
    | some (_, h, m, r) => { p with h := h, m := m, r := r }
    | none => if 0 < p.leadOutLen then { p with leg := some .leadOut, walkSteps := 1 } else { p with leg := some .final }
  | some .leadOut =>
    if p.walkSteps < p.leadOutLen then { p with walkSteps := p.walkSteps + 1 } else { p with leg := some .final }
  | some .walk =>
    if p.walkSteps < p.walkLen then { p with walkSteps := p.walkSteps + 1 } else { p with leg := some .final }
  | _ => p

/-- The cursor advances onto segment `i` (R57). -/
def advancePath (s : State) (i : Nat) (p : Path) : Path :=
  let q := { stepLeg s p with cursor := some i, remaining := p.remaining - 1 }
  if q.remaining = 0 then { q with leg := some .done } else q

end Sys2Proof.Machine
end

