-- ==== Sys2Proof/Machine/Claims.lean ====
section
/-! DEFINITION. Boundary claims as the other units use them: making, withdrawing and granting one (R87, R129,
R130, R134, R139). -/

namespace Sys2Proof.Machine

/-! ### The claimant's side -/

def outClaimOf (s : State) (v : Nat) : Option OutClaim := s.bxu.outClaims.find? fun e => e.vehicle == v
def outClaimAt (s : State) (i : Nat) : Option OutClaim := s.bxu.outClaims.find? fun e => e.segment == i
def dropOutClaim (tag : Nat) (s : State) : State :=
  s.updBxu fun b => { b with outClaims := b.outClaims.filter fun e => e.tag ≠ tag }
def outListHasRoom (s : State) : Bool := s.bxu.outClaims.length < Config.outClaimsMax

/-- The first tag after the last-issued one, through 255 and then from 1, that no entry holds (R129). -/
def nextTag (b : Bxu) : Nat :=
  (((List.range 255).map fun i => (b.lastTag + i) % 255 + 1).find?
    fun t => b.outClaims.all fun e => e.tag != t).getD 0

def summaryBytes (x : Summary) : List Byte :=
  bytes2 x.move ++ bytes4 x.carrier ++ bytes2 x.dest ++ [byte x.cls] ++ bytes2 x.age

def summaryOf (x : Move) : Summary :=
  { move := x.id, carrier := x.carrier, dest := x.dest.getD 0, cls := x.cls, age := x.age }

/-- An entry names the vehicle or the segment; no two entries name the same one (R129). -/
def claimNames (s : State) (v i : Nat) : Bool := s.bxu.outClaims.any fun e => e.vehicle == v || e.segment == i

/-- A claim for vehicle `v` and foreign segment `i` (R129, R130). -/
def makeClaim (v i : Nat) (s : State) : State :=
  match vehicleMove s v, ownerOf s i with
  | some x, some owner =>
    if claimNames s v i then s
    else
      let tag := nextTag s.bxu
      let entry : OutClaim :=
        { tag := tag, segment := i, vehicle := v, phase := .claiming (s.now + s.tuning.tClaim) }
      sendPeer owner kindClaim tag i v (summaryBytes (summaryOf x))
        (setRes i (.claiming v) (s.updBxu fun b => { b with outClaims := b.outClaims ++ [entry], lastTag := tag }))
  | _, _ => s

/-- The entry goes and its segment returns to FOREIGN, leaving its vehicle's held list if it was BORROWED. -/
def endOutClaim (e : OutClaim) (s : State) : State :=
  let s₁ := dropOutClaim e.tag (setRes e.segment .foreign s)
  match e.phase with
  | .claiming _ => s₁
  | .granted =>
    makeGrantDue e.vehicle
      (updVehicle e.vehicle (fun x => { x with held := x.held.filter (· ≠ e.segment) }) s₁)

/-- CLAIM-WITHDRAW for the claim of `v`, which ends; the segment returned to FOREIGN, if any (R134). -/
def withdrawClaim (v : Nat) (s : State) : List Nat × State :=
  match outClaimOf s v with
  | none => ([], s)
  | some e =>
    ([e.segment],
     endOutClaim e (sendPeer ((ownerOf s e.segment).getD anyAddress) kindClaimWithdraw e.tag e.segment v [] s))

/-- The same for an entry in phase CLAIMING only (R134). -/
def withdrawClaiming (v : Nat) (s : State) : List Nat × State :=
  match outClaimOf s v with
  | some { phase := .claiming _, .. } => withdrawClaim v s
  | _ => ([], s)

/-! ### The receiver's side -/

def inClaim (s : State) (cell tag : Nat) : Option InClaim :=
  s.bxu.inClaims.find? fun e => e.cell == cell && e.tag == tag
def dropInClaim (cell tag : Nat) (s : State) : State :=
  s.updBxu fun b => { b with inClaims := b.inClaims.filter fun e => !(e.cell == cell && e.tag == tag) }

/-- The GRANTED entry of an ARRIVING vehicle (R137). -/
def grantedClaimOf (s : State) (v : Nat) : Option InClaim :=
  s.bxu.inClaims.find? fun e => e.vehicle == v && e.phase != .waiting

def rosterHasRoom (s : State) : Bool := s.roster.length < Config.rosterMax

/-- The ARRIVING record of a granted claim (R87). -/
def arrivingRecord (v i : Nat) : Vehicle :=
  { id := v, state := .arriving, held := [i], move := none, nextMove := none, carrier := none, need := 0
    heardBy := none, pacing := false, path := Path.empty, parkMark := none, due := DueSet.empty }

/-- A CLAIM-REFUSE with its reason (R128, R138). -/
def sendRefuse (cell tag seg v : Nat) (why : RefuseReason) (s : State) : State :=
  sendPeer cell kindClaimRefuse tag seg v [byte why.code] s

/-- The grant of a claim whose vehicle has no record here (R139). -/
def grantClaim (e : InClaim) (s : State) : State :=
  let s₁ := setRes e.segment (.reserved e.vehicle) (addRecord (arrivingRecord e.vehicle e.segment) s)
  let s₂ := s₁.updBxu fun b =>
    { b with inClaims := b.inClaims.map fun c =>
        if c.cell = e.cell ∧ c.tag = e.tag then { c with phase := .granted (s.now + s.tuning.tHand) } else c }
  sendPeer e.cell kindClaimGrant e.tag e.segment e.vehicle [] s₂

end Sys2Proof.Machine
end

