-- ==== Sys2Proof/Machine/Reservation.lean ====
section
/-! DEFINITION. The Block Control Unit: release, wait lists, the arbiter, extension and alignment (R23 to R37,
R43, R46, R48). One event can start a chain of arbitrations and extension rounds; the chain is a list of tasks,
taken depth first. -/

namespace Sys2Proof.Machine

/-! ### Release (R26, R43) -/

/-- What a segment becomes when vehicle `v` leaves it. -/
def releasedRes (v : Nat) : Res → Res
  | .free => .free
  | .reserved u => if u = v then .free else .reserved u
  | .occupied u none => if u = v then .free else .occupied u none
  | .occupied u (some w) => if u = v then .occupied w none else if w = v then .occupied u none else .occupied u (some w)
  | .blocked => .blocked
  | .blockPending u k none => if u = v then .blocked else .blockPending u k none
  | .blockPending u k (some w) =>
    if u = v then .blockPending w k none
    else if w = v then .blockPending u k none
    else .blockPending u k (some w)
  | .foreign => .foreign
  | .claiming u => .claiming u
  | .borrowed u => if u = v then .foreign else .borrowed u

/-- The reported entry: RESERVED becomes OCCUPIED, held as RESERVED becomes held as OCCUPIED (R26). -/
def occupiedRes : Res → Res
  | .reserved u => .occupied u none
  | .blockPending u .reserved n => .blockPending u .occupied n
  | r => r

def modRes (i : Nat) (f : Res → Res) (s : State) : State := s.updSrt (tmod i fun x => { x with res := f x.res })
def releaseSeg (v i : Nat) (s : State) : State := modRes i (releasedRes v) s
def releaseSegs (v : Nat) (is : List Nat) (s : State) : State := is.foldl (fun t i => releaseSeg v i t) s
def setHeld (v : Nat) (held : List Nat) (s : State) : State := updVehicle v (fun x => { x with held := held }) s

/-- The GRANTED claim of `v` for a segment among `is` is withdrawn. -/
def withdrawAmong (v : Nat) (is : List Nat) (s : State) : State :=
  match outClaimOf s v with
  | none => s
  | some e => if e.segment ∈ is ∧ e.phase = .granted then (withdrawClaim v s).2 else s

/-- Entries leave a list at a report or an alignment. A BORROWED one would end with its claim, since R129 lets no GRANTED
entry stand without it; DEDUCED (log 16), and no list has one there. -/
def releaseEntries (v : Nat) (is : List Nat) (s : State) : State := releaseSegs v is (withdrawAmong v is s)

/-! ### Tasks -/

/-- Work one event starts: arbitrate a segment (R35); arbitrate a zone's segments from an index (R32); arbitrate
every segment from an index (R48); run a vehicle's extension step, or its next round (R28), or a round of its
extension at a return to service (R46). -/
inductive Task where
  | arb (i : Nat)
  | scanZone (z : Nat) (i : Nat)
  | scanAll (i : Nat)
  | extend (v : Nat)
  | rounds (v : Nat)
  | regain (v : Nat)
deriving DecidableEq, Repr

/-- Zones whose count fell, ascending (R25, R32). -/
def fallenZones (before after : State) : List Nat :=
  (List.range 32).filter fun z => zoneCount after z < zoneCount before z

/-- Freed segments in the order of release, then the zones whose count fell (R25, R44, R46). -/
def settleTasks (before after : State) (freed : List Nat) : List Task :=
  freed.map .arb ++ (fallenZones before after).map (.scanZone · 0)

/-! ### Wait lists (R33) -/

/-- Vehicle `v` is entered in the wait list of `i`; an entry kept keeps its place; a new one at a BLOCKED segment
raises PATH-BLOCKED. -/
def enterWait (v i : Nat) (s : State) : State :=
  if (waitsOf s i).any fun e => e.isVehicle v then s
  else
    let s₁ := leaveWaits v s
    if (waitsOf s₁ i).length < Config.waitListMax then
      let from' := ((vehicle s₁ v).bind Vehicle.lastHeld).getD 0
      let s₂ := modWaits i (fun l => l ++ [{ who := .vehicle v from', enteredAt := s.now }]) s₁
      if resOf s₂ i = some .blocked then
        raise .pathBlocked { noDetail with vehicle := v, segment := some i } s₂
      else s₂
    else s₁

/-! ### The arbiter (R36, R37) -/

def entryClass0 (s : State) (e : WaitEntry) : Bool :=
  match e.who with
  | .vehicle v _ => (vehicleMove s v).any fun x => x.cls == 0
  | .claim _ _ _ cls => cls == 0

/-- The main predecessor of a MERGE. -/
def mainPredOf (s : State) (i : Nat) : Option Nat :=
  match segment s i with
  | some r => (match r.form with | .merge p => some p | _ => none)
  | none => none

def entryMain (s : State) (i : Nat) (e : WaitEntry) : Bool :=
  match e.who with
  | .vehicle _ f => (match mainPredOf s i with | some p => f == p | none => true)
  | .claim _ _ _ _ => false

/-- A side entry that has waited at least T_side (R37, key 2). -/
def entryAgedSide (s : State) (i : Nat) (e : WaitEntry) : Bool :=
  !entryMain s i e && s.tuning.tSide ≤ s.now - e.enteredAt

/-- The first three keys of R37, smaller first; arrival decides the rest. -/
def entryRank (s : State) (i : Nat) (e : WaitEntry) : Nat :=
  (if entryClass0 s e then 0 else 4) + (if entryAgedSide s i e then 0 else 2) + (if entryMain s i e then 0 else 1)

/-- Admissible entries of a FREE own or a FOREIGN foreign segment (R36). -/
def admissible (s : State) (i : Nat) (e : WaitEntry) : Bool :=
  if resOf s i = some .foreign then
    match e.who with
    | .vehicle _ _ => outListHasRoom s
    | .claim _ _ _ _ => false
  else
    match e.who with
    | .vehicle v _ => admits s v i
    | .claim _ _ _ _ => zoneHasRoom s i && rosterHasRoom s

def winner (s : State) (i : Nat) : Option WaitEntry :=
  leastBy (entryRank s i) ((waitsOf s i).filter (admissible s i))

/-- The segment the path was asked for becomes the last held entry: the cursor advances, a GRANT is due (R24,
R57). -/
def appendHeld (v i : Nat) (s : State) : State :=
  makeGrantDue v (updVehicle v (fun x => { x with held := x.held ++ [i], path := advancePath s i x.path }) s)

def reserveFor (v i : Nat) (s : State) : State := setRes i (.reserved v) (appendHeld v i s)

/-- A FOREIGN winner: granted, or refused when a record holds its vehicle, and then the segment is arbitrated again
(R139). -/
def claimWins (i v tag cell : Nat) (s : State) : List Task × State :=
  let s₁ := leaveClaimWait cell tag s
  match (inClaim s₁ cell tag).filter fun e => e.segment == i with
  | none => ([.arb i], s₁)
  | some e =>
    if inRoster s₁ e.vehicle then ([.arb i], sendRefuse cell tag i v .duplicate (dropInClaim cell tag s₁))
    else ([], grantClaim e s₁)

/-- One arbitration of segment `i` (R35, R37). -/
def arbitrate (i : Nat) (s : State) : List Task × State :=
  match resOf s i with
  | some .free =>
    match winner s i with
    | none => ([], s)
    | some e =>
      match e.who with
      | .vehicle v _ => ([.rounds v], reserveFor v i (leaveWaits v s))
      | .claim v tag cell _ => claimWins i v tag cell s
  | some .foreign =>
    match winner s i with
    | none => ([], s)
    | some e =>
      match e.who with
      | .vehicle v _ => ([], makeClaim v i (leaveWaits v s))
      | .claim _ _ _ _ => ([], s)
  | _ => ([], s)

/-! ### Alignment with a new path (R46) -/

/-- The longest run of entries the path gives, and the path with its cursor at the end of the run. -/
def alignRun (s : State) (p : Path) : List Nat → List Nat × Path
  | [] => ([], p)
  | i :: t =>
    if nextPathSegment s p = some i then
      let k := alignRun s (advancePath s i p) t
      (i :: k.1, k.2)
    else ([], p)

/-- The held list is brought into line with the path: the matching run kept, the rest released from the far end; a
wait-list entry elsewhere goes. The tasks settle what was released. -/
def alignHeld (v : Nat) (s : State) : List Task × State :=
  match vehicle s v with
  | none => ([], s)
  | some x =>
    match x.held with
    | [] => ([], s)
    | first :: ahead =>
      let k := alignRun s x.path ahead
      let dropped := (ahead.drop k.1.length).reverse
      let s₁ := updVehicle v (fun y => { y with held := first :: k.1, path := k.2 })
        (releaseEntries v dropped s)
      let s₂ := if dropped.isEmpty then s₁ else makeGrantDue v s₁
      let s₃ := if waitingAt s₂ v = nextPathSegment s₂ k.2 then s₂ else leaveWaits v s₂
      (settleTasks s s₃ dropped, s₃)

/-! ### Extension (R28, R29, R58, R60) -/

/-- Segment `i` is the next path segment of vehicle `v`: one round of R28 from its step 3. -/
def reachSegment (v i : Nat) (s : State) : List Task × State :=
  match resRec s i with
  | none => ([], s)
  | some rec =>
    match rec.res with
    | .free =>
      if rec.waits.isEmpty then
        if admits s v i then ([.rounds v], reserveFor v i s) else ([], enterWait v i s)
      else ([.arb i], enterWait v i s)
    | .foreign =>
      if rec.waits.isEmpty then
        if outListHasRoom s then ([], makeClaim v i s) else ([], enterWait v i s)
      else ([.arb i], enterWait v i s)
    | .claiming u => if u = v then ([], s) else ([], enterWait v i s)
    | _ => ([], enterWait v i s)

/-- The list holds min(need, W) entries ahead (R28). -/
def Vehicle.satisfied (x : Vehicle) (window : Nat) : Bool := min x.need window ≤ x.held.length - 1

/-- The segment the next round of the vehicle's extension asks for, if it asks for one (R28 steps 1 and 2). -/
def wantedSegment (v : Nat) (s : State) : Option Nat :=
  (vehicle s v).bind fun x =>
    if x.isWorking && !x.satisfied s.layout.grantWindow then nextPathSegment s x.path else none

/-- One round of the extension step (R28). -/
def extendRound (v : Nat) (s : State) : List Task × State :=
  match wantedSegment v s with
  | none => ([], s)
  | some i => reachSegment v i s

/-- One round of the extension at a return to service (R46): a FREE segment where nobody waits is taken if zone
admission holds (R28 step 4). DESIGN CHOICE (log 35): anywhere else the step ends without a wait and without a claim,
which are left to the next position (R34, R84, example 7.6.3). -/
def regainRound (v : Nat) (s : State) : List Task × State :=
  match wantedSegment v s with
  | none => ([], s)
  | some i =>
    if resOf s i = some .free ∧ waitsOf s i = [] ∧ admits s v i = true then ([.regain v], reserveFor v i s)
    else ([], s)

def Path.isBroken (p : Path) : Bool :=
  match p.condition with
  | .broken _ => true
  | _ => false

def pathBroken (s : State) (v : Nat) : Bool := (vehicle s v).any (·.path.isBroken)

/-- A path built again inside the extension step: on success the list is aligned and the step goes on (R58,
R60). -/
def retryPath (v : Nat) (s : State) : List Task × State :=
  let s₁ := buildPath v s
  let al := alignHeld v s₁
  if pathBroken s₁ v then al else (al.1 ++ [.rounds v], al.2)

/-- The extension step: a BROKEN path is retried, an IDLE vehicle that stands has its park choice made again. -/
def extendStart (v : Nat) (s : State) : List Task × State :=
  match vehicle s v with
  | none => ([], s)
  | some x =>
    if x.isWorking then
      match x.path.condition with
      | .broken _ => retryPath v s
      | .standing =>
        if x.state = .work .idle ∧ ((x.firstHeld.bind (parkChoice s v)).isSome) then retryPath v s
        else ([], s)
      | _ => ([.rounds v], s)
    else ([], s)

/-! ### Running tasks -/

/-- The lowest segment from `i` with waiters that satisfies `p`. -/
def nextWaiting (s : State) (i : Nat) (p : Nat × SegRes → Bool) : Option Nat :=
  (s.srt.find? fun q => i ≤ q.1 && !q.2.waits.isEmpty && p q).map (·.1)

/-- One task; none runs outside DISPATCHING (R25, R32, R35). -/
def taskStep (t : Task) (s : State) : List Task × State :=
  if s.mode = .dispatching then
    match t with
    | .arb i => arbitrate i s
    | .scanZone z i =>
      match nextWaiting s i fun q => q.2.res == .free && zoneOf s q.1 == some z with
      | none => ([], s)
      | some j => ([.arb j, .scanZone z (j + 1)], s)
    | .scanAll i =>
      match nextWaiting s i fun q => q.2.res == .free || q.2.res == .foreign with
      | none => ([], s)
      | some j => ([.arb j, .scanAll (j + 1)], s)
    | .extend v => extendStart v s
    | .rounds v => extendRound v s
    | .regain v => regainRound v s
  else ([], s)

/-- Tasks taken from the front, what each starts going before the rest (R37: the winner's extension resumes). -/
def runTasks : Nat → List Task → State → State
  | 0, _, s => s
  | _ + 1, [], s => s
  | n + 1, t :: ts, s => runTasks n ((taskStep t s).1 ++ ts) (taskStep t s).2

def run (ts : List Task) (s : State) : State := runTasks Config.chainBound ts s

/-- Arbitration after `freed` segments left a held list between `before` and now (R25, R32, R44). -/
def settle (before : State) (freed : List Nat) (s : State) : State := run (settleTasks before s freed) s

/-- A path build and what the BCU does after it: alignment, arbitration of what was released, and `more`, unless the
path is BROKEN (R46, R49, R55). Nothing for a vehicle out of service (R63). -/
def rebuildWith (more : List Task) (v : Nat) (s : State) : State :=
  match vehicle s v with
  | none => s
  | some x =>
    if x.isWorking then
      let s₁ := buildPath v s
      let al := alignHeld v s₁
      run (if pathBroken s₁ v then al.1 else al.1 ++ more) al.2
    else s

/-- The rebuild of a vehicle in service, with its extension (R46). -/
def rebuild (v : Nat) (s : State) : State := rebuildWith [.extend v] v s

/-- The rebuild at a return to service, with the extension that waits nowhere and claims nothing (R46, R84, log 35). -/
def rebuildReturned (v : Nat) (s : State) : State := rebuildWith [.regain v] v s

/-- The path of an arrival, which a POSITION's extension follows (R141). -/
def realign (v : Nat) (s : State) : State := rebuildWith [] v s

/-! ### Removal of holdings (R44) -/

/-- Every held entry is released and the wait-list entry removed. -/
def dropHoldings (v : Nat) (s : State) : List Nat × State :=
  match vehicle s v with
  | none => ([], s)
  | some x => (x.held, leaveWaits v (setHeld v [] (releaseSegs v x.held s)))

end Sys2Proof.Machine
end

