-- ==== Sys2Proof/Machine/Service.lean ====
section
/-! DEFINITION. Vehicles leaving and returning to service, working-state changes, position conflicts (R41, R42,
R63, R67, R83, R84, R101), and how a request, a peer frame or a vehicle frame is taken from its queue (R68, R128,
R147, R160, R163, R190). -/

namespace Sys2Proof.Machine

/-! ### Working states -/

/-- The resume state of a vehicle that leaves service now; LADEN for a DEPARTING one (R83). -/
def Vehicle.resumeWork (x : Vehicle) : WorkState :=
  match x.workOf with
  | some w => w
  | none => .laden

/-- R111: a vehicle in service that is IDLE, or DEPOSITING without a next move, is eligible. -/
def Vehicle.eligible (x : Vehicle) : Bool :=
  match x.state with
  | .work .idle => true
  | .work .depositing => x.nextMove.isNone
  | _ => false

def noteEligible (v : Nat) (s : State) : State :=
  if (vehicle s v).any Vehicle.eligible then setPassDue s else s

/-- A change of working state the Move Queue makes, to the resume state out of service (R67, R101). -/
def enterWork (v : Nat) (w : WorkState) (s : State) : State := noteEligible v (updVehicle v (Vehicle.setWork w) s)

def setMoveField (v : Nat) (m : Option Nat) (s : State) : State := updVehicle v (fun x => { x with move := m }) s
def setNextMove (v : Nat) (m : Option Nat) (s : State) : State := updVehicle v (fun x => { x with nextMove := m }) s
def setCarrier (v : Nat) (c : Option Nat) (s : State) : State := updVehicle v (fun x => { x with carrier := c }) s

/-- A last-heard deadline set afresh (R78). -/
def heardFromNow (s : State) : Option Nat := some (s.now + s.tuning.tSilent)

/-- The next move of a vehicle returns to WAITING (R67, R98). -/
def giveUpNext (v : Nat) (s : State) : State :=
  match vehicle s v with
  | none => s
  | some x =>
    match x.nextMove with
    | none => s
    | some m => returnToWaiting m (setNextMove v none s)

/-! ### Out of service and back -/

/-- The vehicle takes the state FAULTED or LOST: its next move is given up, its wait-list entry goes, its claim in
phase CLAIMING is withdrawn and a HOLD becomes due (R34, R67, R134). -/
def outOfService (v : Nat) (st : VState) (heardBy : Option Nat) (s : State) : State :=
  let s₁ := leaveWaits v (giveUpNext v (updVehicle v (fun x => { x with state := st, heardBy := heardBy }) s))
  let w := withdrawClaiming v s₁
  run (w.1.map .arb) (makeHoldDue v w.2)

/-- The vehicle comes back into service in working state `w` (R84): its path is built, its list aligned and extended
(R46), and it enters a wait list or claims at its next position (R34, R84, log 35). -/
def returnToService (v : Nat) (w : WorkState) (s : State) : State :=
  let s₁ := updVehicle v (fun x => { x with state := .work w, heardBy := heardFromNow s }) s
  rebuildReturned v (noteEligible v (makeGrantDue v (liftHold v s₁)))

/-! ### Position conflicts -/

/-- How a vehicle found on a segment it does not hold marks it; none where it marks nothing (R41, R45). -/
def markFor (v : Nat) : Res → Option Res
  | .free => some (.occupied v none)
  | .blocked => some (.blockPending v .occupied none)
  | .reserved u => some (.occupied u (some v))
  | .occupied u none => some (.occupied u (some v))
  | .blockPending u _ none => some (.blockPending u .occupied (some v))
  | .occupied _ (some _) => none
  | .blockPending _ _ (some _) => none
  | .foreign => none
  | .claiming _ => none
  | .borrowed _ => none

/-- The segment takes the marked state, the held list is replaced by it and what was held is released, not arbitrated
(R42). -/
def replaceHeld (v i : Nat) (r : Res) (s : State) : State :=
  match vehicle s v with
  | none => s
  | some x => makeGrantDue v (setRes i r (setHeld v [i] (releaseSegs v x.held s)))

/-- The marking of a conflicting report (R41). The vehicle's claim is withdrawn in either phase and a BORROWED segment
leaves its list (R134); where the segment is marked the list is replaced (R42). DEDUCED (log 16): where it is not marked
the rest of the list is kept as it was (R41). -/
def conflictMark (v i : Nat) (s : State) : State :=
  let s₁ := (withdrawClaim v s).2
  match (resOf s i).bind (markFor v) with
  | none => s₁
  | some r => replaceHeld v i r s₁

def raiseConflict (v i : Nat) (s : State) : State :=
  raise .positionConflict { noDetail with vehicle := v, segment := segmentDetail i } s

/-- A conflicting report of roster vehicle `v` (R41, R42, R83, R134): its claim is withdrawn, the segment marked,
POSITION-CONFLICT raised, and the vehicle becomes FAULTED. -/
def positionConflict (v i : Nat) (s : State) : State :=
  match vehicle s v with
  | none => s
  | some x =>
    let s₁ := raiseConflict v i (conflictMark v i s)
    outOfService v (.faulted x.resumeWork) (heardFromNow s) s₁

/-! ### Taking a request (R160, R161, R163, R190) -/

/-- The FLI takes the frame at the front only below 64 and once the handling of the one before is complete. -/
def takesFront (s : State) : Bool := occupancy s < Config.outboundMax && s.mc.write.isNone

/-- An answer that changes nothing. -/
def refuse (c : Code) (s : State) : State × Option Reply := (s, some (Reply.bare c))
def done (s : State) : State × Option Reply := (s, some (Reply.bare .done))

/-- The frame leaves the inbound queue and its reply reservation opens. -/
def openRequest (rest : List FloorFrame) (s : State) : State :=
  s.updFli fun l => { l with inbound := rest, reservations := l.reservations + 1 }

/-- A request at the front of the inbound queue that satisfies `p` is handled by `h`; its REPLY, if the handling
gives one, is appended last (R162). -/
def serveRequest (p : FloorFrame → Bool) (h : FloorFrame → State → State × Option Reply) (s : State) : State :=
  if s.running then
    match s.fli.inbound with
    | [] => s
    | f :: rest =>
      if takesFront s && p f then
        let r := h f (openRequest rest s)
        match r.2 with
        | none => r.1
        | some reply => appendReply { src := f.src, tag := f.tag } f.kind reply r.1
      else s
  else s

def cellUnset (s : State) : Bool := s.mc.identity.cell.isNone
def checkRunning (s : State) : Bool := s.mc.check.isSome

/-- The head of the checks of MOVE, CANCEL, FORGET, BLOCK and UNBLOCK (R163). -/
def dispatchRefused (s : State) : Bool := cellUnset s || s.mode == .parked

/-- A request of fixed payload: a wrong length is answered REFUSED-RANGE before its owner checks it (R190, log 13). -/
def withPayload {α : Type} (read : List Byte → Option α) (h : FloorFrame → α → State → State × Option Reply)
    (f : FloorFrame) (s : State) : State × Option Reply :=
  match read f.payload with
  | none => refuse .refusedRange s
  | some a => h f a s

/-! ### Taking a peer frame (R128, R190) -/

/-- A peer frame of `kind` at the front: wrong length discarded, a cell outside the neighbour list gives
FLOOR-REJECT, anything else goes to `h` with its source cell (log 13). -/
def servePeer {α : Type} (kind : Nat) (read : List Byte → Option α) (h : Nat → α → State → State) (s : State) : State :=
  if s.running then
    match s.fli.inbound with
    | [] => s
    | f :: rest =>
      if takesFront s && f.kind == kind then
        let s₁ := s.updFli fun l => { l with inbound := rest }
        match read f.payload with
        | none => s₁
        | some a =>
          if f.src ∈ s.mc.identity.neighbours then h f.src a s₁
          else raise .floorReject { noDetail with cell := cellDetail f.src } s₁
      else s
  else s

/-! ### Taking a vehicle frame (R68, R147, R148) -/

/-- The entry leaves the receive queue and the pacing state is brought up to date. -/
def popTrack (rest : List TrackEntry) (s : State) : State := updatePacing (s.updTli fun t => { t with queue := rest })

/-- The entry at the front of the receive queue is taken if `p` holds of it; PARKED discards it (R68). -/
def takeTrack (p : VehicleFrame → Bool) (h : TrackEntry → State → State) (s : State) : State :=
  if s.running then
    match s.tli.queue with
    | [] => s
    | e :: rest =>
      if p e.body then
        if s.mode = .parked then popTrack rest s else h e (popTrack rest s)
      else s
  else s

end Sys2Proof.Machine
end

