-- ==== Sys2Proof/Machine/MoveQueue.lean ====
section
/-! DEFINITION. The Move Queue: MOVE, CANCEL, assignments, hoist events, the race of a preemption, the confirm
deadline and the age timer (chapter 5, R121 to R126). -/

namespace Sys2Proof.Machine

/-! ### MOVE (R95, R96, R97) -/

/-- Whether a destination can be served from this cell (R95 cases 5 and 6, R138 case 3). -/
def destinationReachable (s : State) (d : Nat) : Bool :=
  if isOwnPort s d then (portRec s (localOfPort d)).isSome else (exitSeg s (cellOfPort d)).isSome

/-- A record of the named id is adopted if it is UNROUTED with the same carrier (R97). -/
def adoptMove (q : MoveRequest) (x : Move) (s : State) : State × Option Reply :=
  if x.state = .unrouted ∧ x.carrier = q.carrier then
    let s₁ := changeMove q.move (fun y =>
      { y with source := some q.source, dest := some q.dest, cls := q.cls, returnFlag := false, state := .carrying }) s
    done (match x.vehicle with | some v => rebuild v s₁ | none => s₁)
  else refuse .refusedDuplicate s

/-- The record of a MOVE taken as a new move (R96). -/
def MoveRequest.record (q : MoveRequest) : Move :=
  { id := q.move, carrier := q.carrier, source := some q.source, dest := some q.dest, cls := q.cls, age := 0, seq := 0
    state := .waiting, vehicle := none, confirm := .absent, returnFlag := false, urgency := 0 }

def serveMove (_ : FloorFrame) (q : MoveRequest) (s : State) : State × Option Reply :=
  if dispatchRefused s then refuse .refusedState s
  else if q.move = 0 ∨ 3 < q.cls ∨ 255 < q.source ∨ 16383 < q.dest then refuse .refusedRange s
  else if (portRec s q.source).isNone then refuse .refusedRange s
  else if !destinationReachable s q.dest then refuse .refusedRange s
  else
    match findMove s q.move with
    | some x => adoptMove q x s
    | none =>
      if q.carrier = 0 then refuse .refusedRange s
      else if Config.movesMax ≤ s.mq.moves.length then refuse .refusedFull s
      else done (setPassDue (appendMove q.record s))

def execMove (s : State) : Host.Outcome State Fault Refusal :=
  .next (serveRequest (isKind kindMove) (withPayload readMove serveMove) s)

/-! ### Shared endings -/

/-- The vehicle takes the working state and its path is built, unless it is out of service (R49, R63, R101). -/
def enterAndBuild (v : Nat) (w : WorkState) (s : State) : State := rebuild v (enterWork v w s)

/-- The vehicle loses its move and becomes IDLE, with its IDLE path built. -/
def releaseVehicle (v : Nat) (s : State) : State := enterAndBuild v .idle (setMoveField v none s)

/-- A WITHDRAW for a move id other than 0 (R107). -/
def withdrawNamed (v m : Nat) (s : State) : State := if m = 0 then s else makeWithdrawDue v m s

/-! ### CANCEL (R108) -/

/-- The effect of a CANCEL on the move, or none where it is refused (R108 case 5). -/
def cancelMove (x : Move) (s : State) : Option State :=
  match x.state with
  | .waiting => some (removeMove x.id .cancelled s)
  | .assignedNext =>
    let s₁ := removeMove x.id .cancelled s
    some (match x.vehicle with | some u => noteEligible u (setNextMove u none s₁) | none => s₁)
  | .assigned | .enroute =>
    some (match x.vehicle with
      | some u => removeMove x.id .cancelled (releaseVehicle u (discardAssign u (makeWithdrawDue u x.id s)))
      | none => removeMove x.id .cancelled s)
  | .picking => some (changeMove x.id (fun y => { y with state := .cancelling }) s)
  | .carrying | .delivering | .cancelling | .unrouted => none

def serveCancel (_ : FloorFrame) (m : Nat) (s : State) : State × Option Reply :=
  if dispatchRefused s then refuse .refusedState s
  else if m = 0 then refuse .refusedRange s
  else
    match findMove s m with
    | none => refuse .unknown s
    | some x =>
      match cancelMove x s with
      | some t => done t
      | none => refuse .refusedLaden s

def execCancel (s : State) : Host.Outcome State Fault Refusal :=
  .next (serveRequest (isKind kindCancel) (withPayload readNum2 serveCancel) s)

/-! ### Applying an assignment (R98, R121) -/

/-- The move becomes ASSIGNED on the vehicle, which becomes TO-SOURCE with an ASSIGN due and a path built. -/
def assignTo (m v : Nat) (s : State) : State :=
  let s₁ := changeMove m (fun y => { y with state := .assigned, vehicle := some v, confirm := confirmFromNow s }) s
  enterAndBuild v .toSource (makeAssignDue v m (setMoveField v (some m) s₁))

/-- The move becomes ASSIGNED-NEXT on a depositing vehicle. -/
def assignNext (m v : Nat) (s : State) : State :=
  setNextMove v (some m) (changeMove m (fun y => { y with state := .assignedNext, vehicle := some v }) s)

/-- The preempted move `p` returns to WAITING, then `m` is applied and the preemption list entry made (R123). -/
def assignByPreemption (m v p : Nat) (s : State) : State :=
  let s₁ := assignTo m v (makeWithdrawDue v p (returnToWaiting p s))
  s₁.updAsu fun a => { a with preempts := a.preempts ++ [{ vehicle := v, newMove := m, oldMove := p }] }

/-! ### Events from a vehicle (R101) -/

/-- The segment at which a hoist event for the move is expected (R101). -/
def expectedSegment (s : State) (y : Move) : Option Nat :=
  match y.state with
  | .assigned | .enroute | .picking | .cancelling => y.source.bind (portSegment s)
  | .carrying | .delivering =>
    y.dest.bind fun d => if isOwnPort s d then portSegment s (localOfPort d) else none
  | .waiting | .assignedNext | .unrouted => none

/-- The vehicle's own move when the event names it. -/
def concerned (s : State) (v m : Nat) : Option Move :=
  match vehicle s v with
  | none => none
  | some x => if x.move = some m then findMove s m else none

/-- What the gripper reports at a hoist's end. -/
structure Gripper where
  present : Bool
  carrier : Nat
deriving DecidableEq, Repr

def raiseMismatch (v m carrier : Nat) (s : State) : State :=
  raise .carrierMismatch { noDetail with vehicle := v, move := m, carrier := carrier } s

def toMoveState (m : Nat) (st : MState) (s : State) : State := changeMove m (fun y => { y with state := st }) s

/-! ### CONFIRM (R102, R107) -/

def takeConfirm (v m : Nat) (s : State) : State :=
  match concerned s v m with
  | none => withdrawNamed v m s
  | some y => if y.state = .assigned then toMoveState m .enroute s else s

/-! ### The race of a preemption (R124) -/

def preemptionOf (s : State) (v p : Nat) : Option Preemption :=
  s.asu.preempts.find? fun e => e.vehicle == v && e.oldMove == p

def dropPreemption (v : Nat) (s : State) : State :=
  s.updAsu fun a => { a with preempts := a.preempts.filter fun e => e.vehicle ≠ v }

/-- The preemption is undone: the class-0 move returns to WAITING and `v` takes its former move, PICKING. -/
def undoPreemption (v p n : Nat) (s : State) : State :=
  let s₁ := makeWithdrawDue v n (discardWithdraw v p (discardAssign v (returnToWaiting n s)))
  let s₂ := setMoveField v (some p) (changeMove p (fun y => { y with state := .picking, vehicle := some v }) s₁)
  let s₃ := raise .preemptLost { noDetail with vehicle := v, move := n } (enterAndBuild v .acquiring s₂)
  dropPreemption v s₃

/-- `p` is taken back from vehicle `u`, which had it ASSIGNED or ENROUTE. It waits, unreported, only until it becomes
PICKING in this same step. -/
def takeBack (p u : Nat) (s : State) : State :=
  let s₁ := setMove p (fun y => { y with state := .waiting, confirm := .absent, vehicle := none }) s
  releaseVehicle u (makeWithdrawDue u p (discardAssign u s₁))

/-- A hoist start of `v` at `seg` for its preempted move `p`, and whether it undid the preemption (R124). DESIGN CHOICE
(log 38): where `p` has no source port the segments differ, and the entry stands. -/
def preemptedStart (v p seg : Nat) (e : Preemption) (s : State) : State × Bool :=
  match findMove s p with
  | none => (dropPreemption v (makeWithdrawDue v p s), false)
  | some y =>
    if y.source.bind (portSegment s) ≠ some seg then (withdrawNamed v p s, false)
    else
      match y.state, y.vehicle with
      | .waiting, _ => (undoPreemption v p e.newMove s, true)
      | .assignedNext, some u => (undoPreemption v p e.newMove (setNextMove u none s), true)
      | .assigned, some u => (undoPreemption v p e.newMove (takeBack p u s), true)
      | .enroute, some u => (undoPreemption v p e.newMove (takeBack p u s), true)
      | _, _ => (dropPreemption v (makeWithdrawDue v p s), false)

/-! ### HOIST-START (R103, R107) -/

/-- A hoist start at the expected segment of the vehicle's move. -/
def startHoist (v : Nat) (y : Move) (s : State) : State :=
  match y.state with
  | .assigned | .enroute => enterWork v .acquiring (toMoveState y.id .picking s)
  | .carrying => enterWork v .depositing (toMoveState y.id .delivering s)
  | _ => s

def takeHoistStart (v seg m : Nat) (s : State) : State :=
  match concerned s v m with
  | some y => if expectedSegment s y = some seg then startHoist v y s else s
  | none =>
    match preemptionOf s v m with
    | some e => (preemptedStart v m seg e s).1
    | none => withdrawNamed v m s

/-! ### HOIST-DONE (R104, R105, R107, R109, R125) -/

/-- The move turns UNROUTED on the carrier actually read (R104, R109, log 26). DESIGN CHOICE (log 29): CARRIER-MISMATCH
is raised after the MOVE-REPORT and the path build. -/
def mismatch (v : Nat) (y : Move) (read : Nat) (s : State) : State :=
  let s₁ := changeMove y.id (fun z =>
    { z with state := .unrouted, carrier := read, dest := none, returnFlag := false }) s
  raiseMismatch v y.id read (enterAndBuild v .laden (setCarrier v (some read) s₁))

/-- The vehicle has no carrier and no move left and becomes IDLE. -/
def emptied (v : Nat) (s : State) : State := releaseVehicle v (setCarrier v none s)

/-- The end of a pick-up of a PICKING move (R104); an empty pick's CARRIER-MISMATCH comes last too (log 29). -/
def endPick (v : Nat) (y : Move) (g : Gripper) (s : State) : State :=
  if g.present then
    if g.carrier = y.carrier then
      enterAndBuild v .laden (setCarrier v (some g.carrier) (toMoveState y.id .carrying s))
    else mismatch v y g.carrier s
  else raiseMismatch v y.id 0 (emptied v (removeMove y.id .failed s))

/-- The return delivery a CANCELLING move turns into (R109). -/
def returnDelivery (s : State) (y : Move) : Move :=
  { y with state := .carrying, returnFlag := true
           dest := y.source.map fun p => (s.mc.identity.cell.getD 0) * 256 + p }

/-- The end of the hoist of a CANCELLING move (R109). -/
def endCancelling (v : Nat) (y : Move) (g : Gripper) (s : State) : State :=
  if g.present then
    if g.carrier = y.carrier then
      enterAndBuild v .laden (setCarrier v (some g.carrier) (changeMove y.id (returnDelivery s) s))
    else mismatch v y g.carrier s
  else emptied v (removeMove y.id .cancelled s)

/-- A next move is handed over at the end of a delivery (R105, R122). -/
def handOver (v n : Nat) (s : State) : State := assignTo n v (setNextMove v none s)

/-- The end of a deposit of a DELIVERING move (R105). -/
def endDeposit (v : Nat) (y : Move) (g : Gripper) (s : State) : State :=
  if g.present then
    giveUpNext v (enterWork v .laden (setCarrier v (some g.carrier) (toMoveState y.id .carrying s)))
  else
    let s₁ := setMoveField v none
      (setCarrier v none (removeMove y.id (if y.returnFlag then .cancelled else .delivered) s))
    match (vehicle s₁ v).bind Vehicle.nextMove with
    | some n => handOver v n s₁
    | none => enterAndBuild v .idle s₁

/-- A hoist's end at the expected segment of the vehicle's move. -/
def endHoist (v : Nat) (y : Move) (g : Gripper) (s : State) : State :=
  match y.state with
  | .assigned | .enroute => endPick v y g (startHoist v y s)
  | .picking => endPick v y g s
  | .cancelling => endCancelling v y g s
  | .carrying => endDeposit v y g (startHoist v y s)
  | .delivering => endDeposit v y g s
  | .waiting | .assignedNext | .unrouted => s

/-- An idle vehicle has taken up a carrier no move accounts for (R107, log 21). -/
def strayPick (v carrier : Nat) (s : State) : State :=
  let s₁ := createUnrouted v carrier s
  let m := ((vehicle s₁ v).bind Vehicle.move).getD 0
  raiseMismatch v m carrier (enterAndBuild v .laden s₁)

/-- A hoist's end naming a move that is not the vehicle's (R107). -/
def strayDone (v m : Nat) (g : Gripper) (s : State) : State :=
  if (vehicle s v).any (fun x => decide (x.state = .work .idle)) && g.present then
    withdrawNamed v m (strayPick v g.carrier s)
  else withdrawNamed v m s

def takeHoistDone (v seg m : Nat) (g : Gripper) (s : State) : State :=
  match concerned s v m with
  | some y => if expectedSegment s y = some seg then endHoist v y g s else s
  | none =>
    match preemptionOf s v m with
    | some e =>
      let r := preemptedStart v m seg e s
      match r.2, findMove r.1 m with
      | true, some y => endPick v y g r.1
      | _, _ => withdrawNamed v m r.1
    | none => strayDone v m g s

/-! ### HOIST-FAULT (R83, R106) -/

def raiseHoistFault (v m : Nat) (s : State) : State := raise .hoistFault { noDetail with vehicle := v, move := m } s

def takeHoistFault (v : Nat) (s : State) : State :=
  match vehicle s v with
  | none => s
  | some x =>
    if x.state = .departing then makeHoldDue v (raiseHoistFault v 0 s)
    else
      let s₁ := match x.move with | some m => removeMove m .failed s | none => s
      let s₂ := outOfService v (.faulted .idle) x.heardBy (setCarrier v none (setMoveField v none s₁))
      raiseHoistFault v (x.move.getD 0) s₂

/-! ### The confirm deadline and the age timer (R90, R100) -/

/-- The move and vehicle of a confirm deadline that falls: the event comes first, then the report (section 9.5). -/
def confirmTimeout (m v : Nat) (s : State) : State :=
  let s₁ := returnToWaiting m (raise .confirmTimeout { noDetail with vehicle := v, move := m } s)
  releaseVehicle v (makeWithdrawDue v m (discardAssign v s₁))

/-- The confirm deadline of move `m` falls; nothing happens where none runs (log 1). -/
def confirmFalls (m : Nat) (s : State) : State :=
  match findMove s m with
  | some { confirm := .at t, vehicle := some v, .. } => confirmTimeout m v (reachTime t s)
  | _ => s

def execConfirmDeadline (m : Nat) (s : State) : Host.Outcome State Fault Refusal :=
  .next (whenRunning (confirmFalls m) s)

def ageOne (x : Move) : Move := { x with age := min 65535 (x.age + 1) }

/-- One expiry of the age timer (R90, log 4). -/
def ageExpiry (s : State) : State :=
  (reachTime s.mq.ageAt s).updMq fun q => { q with moves := q.moves.map ageOne, ageAt := q.ageAt + 10 }

def execAgeTimer (s : State) : Host.Outcome State Fault Refusal := .next (whenRunning ageExpiry s)

end Sys2Proof.Machine
end

