-- ==== Sys2Proof/Machine/Roster.lean ====
section
/-! DEFINITION. The Vehicle Roster: frames of vehicles, positions, joining, silence, faults, FORGET and the arrival
of a handed-over vehicle (chapter 4, R25 to R27, R44, R45, R110, R141). -/

namespace Sys2Proof.Machine

/-! ### The frame is received (R68, R78, R149) -/

def Vehicle.hasDeadline (x : Vehicle) : Bool :=
  match x.state with
  | .work _ => true
  | .faulted _ => true
  | _ => false

/-- The pacing flag follows the answer given; the last-heard deadline is set afresh where the state has one. -/
def noteFrame (e : TrackEntry) (s : State) : State :=
  updVehicle e.src (fun x =>
    { x with pacing := e.paced, heardBy := if x.hasDeadline then heardFromNow s else x.heardBy }) s

/-- A frame of a LOST vehicle naming `seg` restores it, makes it FAULTED, or is a conflict; the Bool says whether the
frame goes on (R80). -/
def restoreLost (isJoin : Bool) (v seg : Nat) (s : State) : State × Bool :=
  match vehicle s v with
  | none => (s, true)
  | some x =>
    match x.state with
    | .lost w mark =>
      if seg ∈ x.held then
        if mark then
          (updVehicle v (fun y => { y with state := .faulted w, heardBy := heardFromNow s }) s, true)
        else (returnToService v w s, true)
      else if isJoin then (s, true)
      else (positionConflict v seg s, false)
    | _ => (s, true)

/-! ### Taking a position (R25, R26, R27) -/

/-- The held list with what lies before `i` released; a DEPARTING vehicle keeps the entry before its BORROWED last
one (R27). No vehicle in another state has a BORROWED entry (R23, log 16). -/
def splitHeld (x : Vehicle) (i : Nat) : List Nat × List Nat :=
  let k := x.held.idxOf i
  let k := if x.state = .departing ∧ x.lastHeld = some i then k - 1 else k
  (x.held.take k, x.held.drop k)

/-- The release step: entries before the reported one go and the first entry left becomes occupied. -/
def releaseBehind (v i : Nat) (x : Vehicle) (s : State) : List Nat × State :=
  let p := splitHeld x i
  let s₁ := setHeld v p.2 (releaseEntries v p.1 s)
  let s₂ := match p.2 with | first :: _ => modRes first occupiedRes s₁ | [] => s₁
  (p.1, if p.1.isEmpty then s₂ else makeGrantDue v s₂)

/-- The BCU takes a position (R25); no arbitration or extension outside DISPATCHING. -/
def takePosition (v i : Nat) (s : State) : State :=
  match vehicle s v with
  | none => s
  | some x =>
    if i ∈ x.held then
      let r := releaseBehind v i x s
      run (settleTasks s r.2 r.1 ++ [.extend v]) r.2
    else positionConflict v i s

/-! ### Arrival of a handed-over vehicle (R69, R110, R141) -/

/-- The carried move is created on the vehicle (R110). DESIGN CHOICE (log 41): a claim that carried move id 0, which
R138 does not refuse, makes its record too, with move id 0. -/
def createCarried (v : Nat) (c : Summary) (s : State) : State :=
  if s.mq.moves.length < Config.movesMax ∧ (findMove s c.move).isNone then
    let m : Move :=
      { id := c.move, carrier := c.carrier, source := none, dest := some c.dest, cls := c.cls, age := c.age, seq := 0
        state := .carrying, vehicle := some v, confirm := .absent, returnFlag := false, urgency := 0 }
    reportMove c.move (.now .carrying) v c.age
      (updVehicle v (fun y => { y with move := some c.move, carrier := some c.carrier }) (appendMove m s))
  else createUnrouted v c.carrier s

/-- The arrival completes, step by step (R141); the extension is that of a POSITION, after it. A vehicle stopped while
ARRIVING becomes FAULTED instead of LADEN (R69). -/
def completeArrival (x : Vehicle) (c : InClaim) (s : State) : State :=
  let s₁ := createCarried x.id c.summary (modRes c.segment occupiedRes s)
  let st : VState := if x.due.stopMark then .faulted .laden else .work .laden
  let s₂ := realign x.id (updVehicle x.id (fun y => { y with state := st, heardBy := heardFromNow s }) s₁)
  dropInClaim c.cell c.tag (sendPeer c.cell kindArrived c.tag c.segment x.id [] s₂)

/-- A frame of an ARRIVING vehicle (R69). -/
def arrivingFrame (e : TrackEntry) (x : Vehicle) (s : State) : State :=
  match e.body with
  | .join seg _ _ _ =>
    match grantedClaimOf s x.id with
    | some c => if c.segment = seg then completeArrival x c s else s
    | none => s
  | .position seg need _ =>
    match grantedClaimOf s x.id with
    | some c =>
      if c.segment = seg then
        takePosition x.id seg (updVehicle x.id (fun y => { y with need := min need 4 }) (completeArrival x c s))
      else s
    | none => s
  | .status .fault seg _ _ _ | .status .hoistFault seg _ _ _ =>
    makeHoldDue x.id (raise .vehicleFault { noDetail with vehicle := x.id, segment := segmentDetail seg } s)
  | .status _ _ _ _ _ => s

/-! ### Joining (R71 to R76) -/

/-- What a JOIN, or a POSITION taken as one, says of its vehicle. -/
structure JoinData where
  seg : Nat
  grip : Gripper
  move : Nat
  paced : Bool
deriving DecidableEq, Repr

/-- Moves a JOIN has detached: those returned to WAITING and the one set aside (R73). -/
structure Detached where
  returned : List Nat
  aside : Option Nat
deriving DecidableEq, Repr

/-- The moves of a known vehicle are detached (R73). -/
def detach (x : Vehicle) (s : State) : Detached × State :=
  let own := x.move.bind (findMove s)
  let back : List Nat :=
    match own with
    | some y => if y.state = .assigned ∨ y.state = .enroute then [y.id] else []
    | none => []
  let aside : Option Nat :=
    match own with
    | some y => if y.state = .assigned ∨ y.state = .enroute then none else some y.id
    | none => none
  let s₁ := setNextMove x.id none (setMoveField x.id none s)
  let s₂ := match aside with | some m => setMove m (fun y => { y with vehicle := none }) s₁ | none => s₁
  let returned := back ++ x.nextMove.toList
  ({ returned := returned, aside := aside }, returnAll returned s₂)

/-- A known vehicle's holdings go, its claim withdrawn, and what became free is arbitrated (R44, log 15). -/
def stripHoldings (v : Nat) (s : State) : State :=
  let w := withdrawClaim v s
  let h := dropHoldings v w.2
  settle s (h.1 ++ w.1) h.2

/-- The segment of a JOIN is examined and marked; POSITION-CONFLICT unless it was FREE or BLOCKED (R45). -/
def examineJoin (v i : Nat) (s : State) : State :=
  match resOf s i with
  | some .free => setRes i (.occupied v none) s
  | some .blocked => setRes i (.blockPending v .occupied none) s
  | some r =>
    match markFor v r with
    | some q => raiseConflict v i (setRes i q s)
    | none => raiseConflict v i s
  | none => raiseConflict v i s

/-- Whether the examination marks a segment. -/
def joinMarks (v i : Nat) (s : State) : Bool := ((resOf s i).bind (markFor v)).isSome

/-- Whether it finds a conflict. -/
def joinConflicts (i : Nat) (s : State) : Bool :=
  match resOf s i with
  | some .free => false
  | some .blocked => false
  | _ => true

/-- The record a JOIN makes (R71, log 33). -/
def joinRecord (v : Nat) (j : JoinData) (s : State) : Vehicle :=
  { id := v, state := .work .idle, held := [j.seg], move := none, nextMove := none, carrier := none, need := 0
    heardBy := heardFromNow s, pacing := j.paced, path := Path.empty, parkMark := none, due := DueSet.empty }

/-- The record of a known vehicle set afresh: its path record and park target mark stay until its path is next built,
which for a vehicle that joins in conflict is its return to service (R61, R63, R71, log 33). -/
def rejoinRecord (j : JoinData) (s : State) (x : Vehicle) : Vehicle :=
  { joinRecord x.id j s with path := x.path, parkMark := x.parkMark }

/-- The move a JOIN's vehicle may take again: WAITING, or set aside from this vehicle, with the same carrier. A JOIN with
m = 0 names none, also where a record has move id 0 (R75, log 41). -/
def claimable (j : JoinData) (d : Detached) (s : State) : Option Move :=
  match findMove s j.move with
  | some y =>
    if j.move ≠ 0 ∧ y.carrier = j.grip.carrier ∧ j.grip.carrier ≠ 0 ∧ (y.state = .waiting ∨ d.aside = some y.id) then some y
    else none
  | none => none

/-- The move as the joining vehicle takes it (R75). -/
def rejoined (s : State) (v : Nat) (y : Move) : Move :=
  match y.state with
  | .unrouted => { y with vehicle := some v }
  | .cancelling => { returnDelivery s y with vehicle := some v }
  | _ => { y with state := .carrying, vehicle := some v }

/-- The move is linked to the vehicle; reported where its state changes (R75, R92). -/
def linkMove (v : Nat) (y : Move) (s : State) : State :=
  let z := rejoined s v y
  let s₁ := if z.state = y.state then setMove y.id (fun _ => z) s else changeMove y.id (fun _ => z) s
  updVehicle v (fun x => { x with move := some y.id, carrier := some y.carrier }) s₁

/-- Carrier and move are reconciled; the working state that results (R75). -/
def reconcile (v : Nat) (j : JoinData) (d : Detached) (s : State) : WorkState × State :=
  if j.grip.present then
    match claimable j d s with
    | some y => (.laden, linkMove v y s)
    | none => (.laden, createUnrouted v j.grip.carrier s)
  else (.idle, s)

/-- WITHDRAWs for the returned moves that are still WAITING (R71 step 5). -/
def withdrawReturned (v : Nat) (ms : List Nat) (s : State) : State :=
  ms.foldl (fun t m =>
    if (findMove t m).any (fun y => decide (y.state = .waiting)) then makeWithdrawDue v m t else t) s

/-- The move set aside that no vehicle took is FAILED and removed (R73, log 20). -/
def failAside (d : Detached) (s : State) : State :=
  match d.aside with
  | none => s
  | some m => if (findMove s m).any (fun y => decide (y.vehicle = none)) then removeMove m .failed s else s

/-- The record stands: reconciled, its state taken, its path built (R71 steps 4 and 5, R74, log 14). -/
def settleJoin (v : Nat) (j : JoinData) (d : Detached) (conflict : Bool) (s : State) : State :=
  let r := reconcile v j d (makeGrantDue v s)
  let st : VState := if conflict then .faulted r.1 else .work r.1
  let s₁ := noteEligible v (updVehicle v (fun x => { x with state := st }) r.2)
  let s₂ := rebuild v (if conflict then makeHoldDue v s₁ else s₁)
  failAside d (withdrawReturned v d.returned s₂)

/-- A JOIN of an unknown id (R71, R72, R74). -/
def joinUnknown (v : Nat) (j : JoinData) (s : State) : State :=
  if rosterHasRoom s then
    if joinMarks v j.seg s then
      settleJoin v j { returned := [], aside := none } (joinConflicts j.seg s)
        (examineJoin v j.seg (addRecord (joinRecord v j s) s))
    else makeHoldDue v (examineJoin v j.seg s)
  else makeHoldDue v (raise .rosterFull { noDetail with vehicle := v } s)

/-- A JOIN of a known vehicle that is not ARRIVING (R71, R73, R74). -/
def joinKnown (x : Vehicle) (j : JoinData) (s : State) : State :=
  let d := detach x s
  let s₁ := stripHoldings x.id d.2
  if joinMarks x.id j.seg s₁ then
    settleJoin x.id j d.1 (joinConflicts j.seg s₁)
      (examineJoin x.id j.seg (updVehicle x.id (rejoinRecord j s) (discardDue x.id s₁)))
  else failAside d.1 (makeHoldDue x.id (removeRecord x.id (examineJoin x.id j.seg s₁)))

/-! ### The rows JOIN and POSITION (R68, R76) -/

def isJoinFrame : VehicleFrame → Bool
  | .join _ _ _ _ => true
  | _ => false

def isPositionFrame : VehicleFrame → Bool
  | .position _ _ _ => true
  | _ => false

def takeJoin (e : TrackEntry) (s : State) : State :=
  match e.body with
  | .join seg present carrier move =>
    let j : JoinData := { seg := seg, grip := { present := present, carrier := carrier }, move := move, paced := e.paced }
    match vehicle s e.src with
    | none => joinUnknown e.src j s
    | some x =>
      let s₁ := noteFrame e s
      if x.state = .arriving then arrivingFrame e x s₁
      else
        let s₂ := (restoreLost true e.src seg s₁).1
        match vehicle s₂ e.src with
        | none => s₂
        | some y => joinKnown y j s₂
  | _ => s

def takePositionFrame (e : TrackEntry) (s : State) : State :=
  match e.body with
  | .position seg need load =>
    match vehicle s e.src with
    | none =>
      joinUnknown e.src { seg := seg, grip := { present := load, carrier := 0 }, move := 0, paced := e.paced } s
    | some x =>
      let s₁ := noteFrame e s
      if x.state = .arriving then arrivingFrame e x s₁
      else
        let r := restoreLost false e.src seg s₁
        if r.2 then takePosition e.src seg (updVehicle e.src (fun y => { y with need := min need 4 }) r.1) else r.1
  | _ => s

def execJoin (s : State) : Host.Outcome State Fault Refusal := .next (takeTrack isJoinFrame takeJoin s)
def execPosition (s : State) : Host.Outcome State Fault Refusal :=
  .next (takeTrack isPositionFrame takePositionFrame s)

/-! ### STATUS frames (R68, R70, R81, R82) -/

def isStatus (ev : StatusEvent) : VehicleFrame → Bool
  | .status e _ _ _ _ => e == ev
  | _ => false

/-- What a STATUS carries besides its event. -/
structure StatusData where
  seg : Nat
  move : Nat
  grip : Gripper
deriving DecidableEq, Repr

/-- A STATUS: discarded with a HOLD due from an unknown id, handled by R69 for an ARRIVING vehicle, and otherwise
passed to `h` after R80. -/
def takeStatus (h : Nat → StatusData → State → State) (e : TrackEntry) (s : State) : State :=
  match e.body with
  | .status _ seg m present carrier =>
    match vehicle s e.src with
    | none => makeHoldDue e.src s
    | some x =>
      let s₁ := noteFrame e s
      if x.state = .arriving then arrivingFrame e x s₁
      else
        let r := restoreLost false e.src seg s₁
        if r.2 then h e.src { seg := seg, move := m, grip := { present := present, carrier := carrier } } r.1 else r.1
  | _ => s

def statusRow (ev : StatusEvent) (h : Nat → StatusData → State → State) (s : State) : State :=
  takeTrack (isStatus ev) (takeStatus h) s

def execStatusConfirm (s : State) : Host.Outcome State Fault Refusal :=
  .next (statusRow .confirm (fun v d => takeConfirm v d.move) s)
def execStatusHoistStart (s : State) : Host.Outcome State Fault Refusal :=
  .next (statusRow .hoistStart (fun v d => takeHoistStart v d.seg d.move) s)
def execStatusHoistDone (s : State) : Host.Outcome State Fault Refusal :=
  .next (statusRow .hoistDone (fun v d => takeHoistDone v d.seg d.move d.grip) s)
def execStatusHoistFault (s : State) : Host.Outcome State Fault Refusal :=
  .next (statusRow .hoistFault (fun v _ => takeHoistFault v) s)

/-- STATUS FAULT (R81): the event first, then the state. -/
def takeFault (v : Nat) (d : StatusData) (s : State) : State :=
  let s₁ := raise .vehicleFault { noDetail with vehicle := v, segment := segmentDetail d.seg } s
  match vehicle s₁ v with
  | none => s₁
  | some x =>
    match x.state with
    | .work w => outOfService v (.faulted w) x.heardBy s₁
    | _ => makeHoldDue v s₁

def execStatusFault (s : State) : Host.Outcome State Fault Refusal := .next (statusRow .fault takeFault s)

/-- STATUS CLEARED (R82). -/
def takeCleared (v : Nat) (d : StatusData) (s : State) : State :=
  match vehicle s v with
  | none => s
  | some x =>
    match x.state with
    | .faulted .idle =>
      if d.grip.present then returnToService v .laden (createUnrouted v d.grip.carrier s)
      else returnToService v .idle s
    | .faulted w => returnToService v w s
    | _ => s

def execStatusCleared (s : State) : Host.Outcome State Fault Refusal := .next (statusRow .cleared takeCleared s)

/-! ### Silence (R79) -/

/-- VEHICLE-LOST is raised and the vehicle becomes LOST (R67). -/
def loseVehicle (v : Nat) (x : Vehicle) (s : State) : State :=
  let mark := match x.state with | .faulted _ => true | _ => false
  outOfService v (.lost x.resumeWork mark) none
    (raise .vehicleLost { noDetail with vehicle := v, move := x.move.getD 0 } s)

/-- The last-heard deadline of vehicle `v` falls; nothing happens where none runs (log 1). -/
def silenceFalls (v : Nat) (s : State) : State :=
  match vehicle s v with
  | none => s
  | some x =>
    match x.heardBy with
    | none => s
    | some t => loseVehicle v x (reachTime t s)

def execLastHeardDeadline (v : Nat) (s : State) : Host.Outcome State Fault Refusal :=
  .next (whenRunning (silenceFalls v) s)

/-! ### The end of an ARRIVING record (R44, R86, R140, R142) -/

/-- The record and its claim entry go; the segments released. -/
def endArriving (c : InClaim) (s : State) : List Nat × State :=
  let h := dropHoldings c.vehicle s
  (h.1, dropInClaim c.cell c.tag (removeRecord c.vehicle h.2))

/-- The receiver gives the arrival up: ABANDON, HANDOFF-ABANDONED, arbitration (R142). -/
def abandonArrival (c : InClaim) (s : State) : State :=
  let h := endArriving c s
  let s₁ := sendPeer c.cell kindAbandon c.tag c.segment c.vehicle [] h.2
  let s₂ := raise .handoffAbandoned
    { noDetail with vehicle := c.vehicle, segment := some c.segment, cell := cellDetail c.cell, tag := c.tag } s₁
  run (settleTasks s h.2 h.1) s₂

/-! ### FORGET (R85, R86) -/

/-- The record and its holdings go and what became free is arbitrated after the removal (log 15). -/
def forgetRecord (v : Nat) (s : State) : State :=
  let w := withdrawClaim v s
  let h := dropHoldings v w.2
  settle s (h.1 ++ w.1) (removeRecord v h.2)

def forgetVehicle (x : Vehicle) (s : State) : State :=
  match x.state, grantedClaimOf s x.id with
  | .arriving, some c => abandonArrival c s
  | _, _ =>
    let s₁ := match x.move with | some m => removeMove m .failed s | none => s
    forgetRecord x.id (giveUpNext x.id s₁)

def serveForget (_ : FloorFrame) (v : Nat) (s : State) : State × Option Reply :=
  if dispatchRefused s then refuse .refusedState s
  else if v = 0 ∨ 254 < v then refuse .refusedRange s
  else
    match vehicle s v with
    | none => refuse .unknown s
    | some x => done (forgetVehicle x s)

def execForget (s : State) : Host.Outcome State Fault Refusal :=
  .next (serveRequest (isKind kindForget) (withPayload readNum1 serveForget) s)

end Sys2Proof.Machine
end

