-- ==== Sys2Proof/Machine/Assignment.lean ====
section
/-! DEFINITION. The Assignment Unit: urgency, cost, choice, the dispatch pass and the dispatch timer (R111 to R122). -/

namespace Sys2Proof.Machine

/-! ### Urgency (R114, R115) -/

def Tuning.base (t : Tuning) (cls : Nat) : Nat :=
  match cls with
  | 0 => t.base0
  | 1 => t.base1
  | 2 => t.base2
  | _ => t.base3

/-- U = min(65535, Base[class] + floor(age × Kage / 16)) (R114). -/
def urgencyOf (t : Tuning) (x : Move) : Nat := min 65535 (t.base x.cls + x.age * t.kage / 16)

def isWaiting (x : Move) : Bool := x.state == .waiting

/-- The WAITING moves in the order the pass takes them: descending urgency, then queue order (R115). -/
def passOrder (s : State) : List Move := sortByRank (urgencyOf s.tuning) (s.mq.moves.filter isWaiting)

/-- The urgency of every WAITING move is written into its record (R114). -/
def writeUrgencies (s : State) : State :=
  s.updMq fun q =>
    { q with moves := q.moves.map fun x => if isWaiting x then { x with urgency := urgencyOf s.tuning x } else x }

/-! ### Candidates and cost (R116, R117, R118). All read from the state at the start of the pass. -/

def sourceZone (s : State) (x : Move) : Option Nat := (x.source.bind (portSegment s)).bind (zoneOf s)
def vehicleZone (s : State) (x : Vehicle) : Option Nat := x.firstHeld.bind (zoneOf s)

/-- IDLE, or DEPOSITING with no next move (R116). -/
def plainCandidate (x : Vehicle) : Bool := x.eligible

/-- TO-SOURCE with a move of class 1 to 3 that is ASSIGNED or ENROUTE (R117). -/
def preemptible (s : State) (x : Vehicle) : Bool :=
  match x.state with
  | .work .toSource =>
    (x.move.bind (findMove s)).any fun y => y.cls != 0 && (y.state == .assigned || y.state == .enroute)
  | _ => false

/-- H of R118. -/
def hoistTerm (t : Tuning) (x : Vehicle) : Nat := if x.state = .work .depositing then t.hd else 0

/-- L of R118: the zone count of the source zone without the candidate itself. -/
def loadTerm (s : State) (x : Vehicle) (zs : Nat) : Nat := zoneCount s zs - (if countsIn s zs x then 1 else 0)

/-- K = min(65535, T + H + L × Pz) for a candidate whose route entry to `zs` is not "no route" (R116, R118). -/
def costOf (s : State) (x : Vehicle) (zs : Nat) : Option Nat :=
  match vehicleZone s x with
  | none => none
  | some zv =>
    let t := (route s zv zs).time
    if t = 4095 then none
    else some (min 65535 (t + hoistTerm s.tuning x + loadTerm s x zs * s.tuning.pz))

/-- An eligible candidate with its cost. -/
structure Bid where
  vehicle : Vehicle
  cost : Nat
deriving DecidableEq, Repr

def bids (s : State) (chosen : List Nat) (p : Vehicle → Bool) (zs : Nat) : List Bid :=
  s.roster.filterMap fun e =>
    if p e.2 && !chosen.contains e.2.id then (costOf s e.2 zs).map fun k => { vehicle := e.2, cost := k } else none

/-- The smallest cost, the lower slot of equal ones (R119). -/
def bestBid (l : List Bid) : Option Bid := leastBy Bid.cost l

/-! ### Choice (R119, R120) -/

inductive Choice where
  | none
  | plain (x : Vehicle)
  | preempt (x : Vehicle)
deriving DecidableEq, Repr

/-- The choice for a move of class 1, 2 or 3 (R119). -/
def chooseOrdinary (t : Tuning) (best : Option Bid) : Choice :=
  match best with
  | Option.none => .none
  | some b => if t.kmax < b.cost then .none else .plain b.vehicle

/-- The choice for a class-0 move (R120). -/
def chooseUrgent (t : Tuning) (best rival : Option Bid) : Choice :=
  let kBest := match best with | some b => b.cost | Option.none => 65535
  match rival, best with
  | some c, Option.none => if c.cost + t.mpre < kBest then .preempt c.vehicle else .none
  | some c, some b => if c.cost + t.mpre < kBest then .preempt c.vehicle else .plain b.vehicle
  | Option.none, some b => .plain b.vehicle
  | Option.none, Option.none => .none

/-- The pass's choice for a move, against the state `s₀` at its start (R112, R119, R120). -/
def choose (s₀ : State) (chosen : List Nat) (x : Move) : Choice :=
  match sourceZone s₀ x with
  | Option.none => .none
  | some zs =>
    let best := bestBid (bids s₀ chosen plainCandidate zs)
    if x.cls = 0 then chooseUrgent s₀.tuning best (bestBid (bids s₀ chosen (preemptible s₀) zs))
    else chooseOrdinary s₀.tuning best

/-! ### The pass (R112, R121) -/

/-- The assignment is handed to the Move Queue (R98, R121). -/
def applyChoice (m : Nat) (c : Choice) (s : State) : State :=
  match c with
  | .none => s
  | .plain x => if x.state = .work .idle then assignTo m x.id s else assignNext m x.id s
  | .preempt x => (match x.move with | some p => assignByPreemption m x.id p s | Option.none => s)

def Choice.vehicles : Choice → List Nat
  | .none => []
  | .plain x => [x.id]
  | .preempt x => [x.id]

/-- The moves in order, each with the vehicles chosen before it. -/
def passMoves (s₀ : State) : List Move → List Nat → State → State
  | [], _, s => s
  | x :: xs, chosen, s =>
    let c := choose s₀ chosen x
    passMoves s₀ xs (c.vehicles ++ chosen) (applyChoice x.id c s)

/-- The flag clears as the pass begins (R111). -/
def beginPass (s : State) : State := s.updAsu fun a => { a with passDue := false, passRunning := true }

/-- A halt that arose while the pass applied its choices takes effect (R112). -/
def endPass (s : State) : State :=
  let s₁ := s.updAsu fun a => { a with passRunning := false, haltDeferred := false }
  if s.asu.haltDeferred then enterHalted s₁ else s₁

/-- One pass (R112); one that finds no WAITING move writes nothing (R113). -/
def dispatchPass (s : State) : State :=
  let s₀ := writeUrgencies (beginPass s)
  endPass (passMoves s₀ (passOrder s) [] s₀)

/-- The pass runs when the pass-due flag is set, in DISPATCHING (R111, R127, log 5). -/
def execDispatchPass (s : State) : Host.Outcome State Fault Refusal :=
  .next (whenRunning (fun t => if t.mode = .dispatching ∧ t.asu.passDue = true then dispatchPass t else t) s)

/-- One expiry of the dispatch timer (R113, log 4). -/
def dispatchExpiry (s : State) : State :=
  setPassDue ((reachTime s.asu.dispatchAt s).updAsu fun a => { a with dispatchAt := a.dispatchAt + 10 })

def execDispatchTimer (s : State) : Host.Outcome State Fault Refusal := .next (whenRunning dispatchExpiry s)

end Sys2Proof.Machine
end

