-- ==== Sys2Proof/Machine/Boundary.lean ====
section
/-! DEFINITION. The Boundary Exchange Unit: the six peer frames and the claim and arrival deadlines (R128 to R143). -/

namespace Sys2Proof.Machine

/-! ### The claimant's side -/

/-- The entry an answer matches: tag, segment, vehicle and the owner cell of the segment (R128). -/
def matchOut (s : State) (cell : Nat) (p : PeerHead) : Option OutClaim :=
  s.bxu.outClaims.find? fun e =>
    e.tag == p.tag && e.segment == p.segment && e.vehicle == p.vehicle && ownerOf s e.segment == some cell

def OutClaim.isClaiming (e : OutClaim) : Bool :=
  match e.phase with
  | .claiming _ => true
  | .granted => false

/-- A segment that returned to FOREIGN is arbitrated if it has waiters (R35). -/
def arbitrateSeg (i : Nat) (s : State) : State := run [.arb i] s

/-- CLAIM-GRANT for an entry in phase CLAIMING (R131). No entry outlives its vehicle's record; one that did would
end. -/
def grantTaken (e : OutClaim) (s : State) : State :=
  if inRoster s e.vehicle then
    let s₁ := (setRes e.segment (.borrowed e.vehicle) s).updBxu fun b =>
      { b with outClaims := b.outClaims.map fun c => if c.tag = e.tag then { c with phase := .granted } else c }
    let s₂ := appendHeld e.vehicle e.segment s₁
    updVehicle e.vehicle (fun x => { x with state := .departing, heardBy := none }) s₂
  else endOutClaim e s

def takeGrant (cell : Nat) (p : PeerHead) (s : State) : State :=
  match matchOut s cell p with
  | some e => if e.isClaiming then grantTaken e s else s
  | none => s

def execClaimGrant (s : State) : Host.Outcome State Fault Refusal :=
  .next (servePeer kindClaimGrant readPeer takeGrant s)

/-- CLAIM-REFUSE (R132). -/
def takeRefuse (cell : Nat) (p : PeerHead) (s : State) : State :=
  match matchOut s cell p with
  | some e => if e.isClaiming then arbitrateSeg e.segment (endOutClaim e s) else s
  | none => s

def execClaimRefuse (s : State) : Host.Outcome State Fault Refusal :=
  .next (servePeer kindClaimRefuse readRefuse takeRefuse s)

/-- The queued frames of a vehicle that has crossed are discarded (R135 step 2). DESIGN CHOICE (log 39): however many
go, the pacing state is compared once, with the occupancy that is left (R148). -/
def discardFrames (v : Nat) (s : State) : State :=
  updatePacing (s.updTli fun t => { t with queue := t.queue.filter fun e => e.src ≠ v })

/-- The end of a crossing for a GRANTED entry (R135); the frame queue changes only if it held frames of it. -/
def crossingEnds (e : OutClaim) (s : State) : State :=
  let s₁ := match (vehicle s e.vehicle).bind Vehicle.move with
    | some m => removeMove m .handedOff s
    | none => s
  let s₂ := if s₁.tli.queue.any (fun q => q.src == e.vehicle) then discardFrames e.vehicle s₁ else s₁
  let h := dropHoldings e.vehicle s₂
  settle s₂ h.1 (dropOutClaim e.tag (removeRecord e.vehicle h.2))

def takeArrived (cell : Nat) (p : PeerHead) (s : State) : State :=
  match matchOut s cell p with
  | some e => crossingEnds e (if e.isClaiming then grantTaken e s else s)
  | none => s

def execArrived (s : State) : Host.Outcome State Fault Refusal :=
  .next (servePeer kindArrived readPeer takeArrived s)

/-- HANDOFF-ABANDONED as the claimant raises it (R136, R169). -/
def raiseAbandoned (cell : Nat) (e : OutClaim) (s : State) : State :=
  raise .handoffAbandoned
    { noDetail with vehicle := e.vehicle, segment := some e.segment, cell := cellDetail cell, tag := e.tag } s

/-- ABANDON (R136). -/
def takeAbandon (cell : Nat) (p : PeerHead) (s : State) : State :=
  match matchOut s cell p with
  | some e =>
    let s₁ := endOutClaim e s
    let s₂ := if e.isClaiming then s₁ else outOfService e.vehicle (.lost .laden false) none s₁
    arbitrateSeg e.segment (raiseAbandoned cell e s₂)
  | none => s

def execAbandon (s : State) : Host.Outcome State Fault Refusal :=
  .next (servePeer kindAbandon readPeer takeAbandon s)

/-- The claim deadline of tag `t` falls (R133): CLAIM-WITHDRAW, the end of the entry, its segment arbitrated,
then CLAIM-TIMEOUT. -/
def claimTimeout (e : OutClaim) (s : State) : State :=
  let owner := ownerOf s e.segment
  let s₁ := endOutClaim e (sendPeer (owner.getD anyAddress) kindClaimWithdraw e.tag e.segment e.vehicle [] s)
  raise .claimTimeout
    { noDetail with vehicle := e.vehicle, segment := some e.segment, cell := owner.bind cellDetail, tag := e.tag }
    (arbitrateSeg e.segment s₁)

def claimFalls (t : Nat) (s : State) : State :=
  match s.bxu.outClaims.find? fun e => e.tag == t with
  | some e =>
    match e.phase with
    | .claiming d => claimTimeout e (reachTime d s)
    | .granted => s
  | none => s

def execClaimDeadline (t : Nat) (s : State) : Host.Outcome State Fault Refusal := .next (whenRunning (claimFalls t) s)

/-! ### The receiver's side -/

/-- A claim ended as a CLAIM-WITHDRAW ends it (R140). -/
def endInClaim (c : InClaim) (s : State) : State :=
  match c.phase with
  | .waiting => dropInClaim c.cell c.tag (leaveClaimWait c.cell c.tag s)
  | .granted _ =>
    let h := endArriving c s
    settle s h.1 h.2

def takeWithdraw (cell : Nat) (p : PeerHead) (s : State) : State :=
  match inClaim s cell p.tag with
  | some c => if c.segment = p.segment ∧ c.vehicle = p.vehicle then endInClaim c s else s
  | none => s

def execClaimWithdraw (s : State) : Host.Outcome State Fault Refusal :=
  .next (servePeer kindClaimWithdraw readPeer takeWithdraw s)

/-- X is a loaded own BOUNDARY segment (R138 case 2). -/
def isOwnBoundary (s : State) (i : Nat) : Bool := isOwn s i && (ownerOf s i).isSome

def claimInRange (s : State) (p : PeerHead) (c : Summary) : Bool :=
  p.tag != 0 && 1 ≤ p.vehicle && p.vehicle ≤ 254 && c.cls ≤ 3 && p.segment ≤ 1023 && isOwnBoundary s p.segment

/-- The repeat of a claim already held (R138 case 4). -/
def isRepeat (s : State) (cell : Nat) (p : PeerHead) : Option InClaim :=
  (inClaim s cell p.tag).filter fun c => c.segment == p.segment && c.vehicle == p.vehicle

/-- A claim with the same tag and other content, then one for the same vehicle with another tag, is ended (R138
cases 4 and 5). -/
def endStale (cell : Nat) (p : PeerHead) (s : State) : State :=
  let s₁ := match inClaim s cell p.tag with | some c => endInClaim c s | none => s
  match s₁.bxu.inClaims.find? fun c => c.cell == cell && c.vehicle == p.vehicle with
  | some c => endInClaim c s₁
  | none => s₁

/-- A new entry, the only one of its cell and tag (R137). -/
def addInClaim (c : InClaim) (s : State) : State :=
  (dropInClaim c.cell c.tag s).updBxu fun b => { b with inClaims := b.inClaims ++ [c] }

/-- The FOREIGN entry of a claim that waits (R33, R138 case 11). -/
def enterClaimWait (c : InClaim) (s : State) : State :=
  modWaits c.segment
    (fun l => l ++ [{ who := .claim c.vehicle c.tag c.cell c.summary.cls, enteredAt := s.now }]) s

/-- Cases 6 to 11 of R138. -/
def admitClaim (cell : Nat) (p : PeerHead) (m : Summary) (s : State) : State :=
  let refuseWith := fun why => sendRefuse cell p.tag p.segment p.vehicle why s
  let c : InClaim :=
    { cell := cell, tag := p.tag, segment := p.segment, vehicle := p.vehicle, summary := m, phase := .waiting }
  if s.bxu.inClaims.any (fun e => e.vehicle == p.vehicle) || inRoster s p.vehicle then refuseWith .duplicate
  else if !rosterHasRoom s then refuseWith .full
  else if Config.inClaimsMax ≤ s.bxu.inClaims.length then refuseWith .full
  else if resOf s p.segment = some .free ∧ (waitsOf s p.segment).isEmpty ∧ zoneHasRoom s p.segment then
    grantClaim c (addInClaim c s)
  else if Config.waitListMax ≤ (waitsOf s p.segment).length then refuseWith .full
  else
    let s₁ := enterClaimWait c (addInClaim c s)
    if resOf s p.segment = some .free then arbitrateSeg p.segment s₁ else s₁

/-- CLAIM (R138). -/
def takeClaim (cell : Nat) (q : PeerHead × Summary) (s : State) : State :=
  let p := q.1
  if s.mode ≠ .dispatching then sendRefuse cell p.tag p.segment p.vehicle .state s
  else if !claimInRange s p q.2 then sendRefuse cell p.tag p.segment p.vehicle .range s
  else if !destinationReachable s q.2.dest then sendRefuse cell p.tag p.segment p.vehicle .range s
  else
    match isRepeat s cell p with
    | some c =>
      match c.phase with
      | .granted _ => sendPeer cell kindClaimGrant c.tag c.segment c.vehicle [] s
      | .waiting => s
    | none => admitClaim cell p q.2 (endStale cell p s)

def execClaim (s : State) : Host.Outcome State Fault Refusal := .next (servePeer kindClaim readClaim takeClaim s)

/-- The arrival deadline of the claim with tag `t` of cell `c` falls (R142). -/
def arrivalFalls (c t : Nat) (s : State) : State :=
  match inClaim s c t with
  | some e =>
    match e.phase with
    | .granted d => abandonArrival e (reachTime d s)
    | .waiting => s
  | none => s

def execArrivalDeadline (c t : Nat) (s : State) : Host.Outcome State Fault Refusal :=
  .next (whenRunning (arrivalFalls c t) s)

end Sys2Proof.Machine
end

