-- ==== Sys2Proof/Machine/TrackLine.lean ====
section
/-! DEFINITION. The Track Line Interface: receiving and answering, coalescing, the pick and composition of engine
frames, and their outcome (R144 to R159, R187, R188). -/

namespace Sys2Proof.Machine

/-! ### Receiving (R146, R147, R188) -/

def setAnswer (a : Answer) (s : State) : State := s.updTli fun t => { t with answer := some a }

/-- ACCEPT, or ACCEPT-PACE in PACING (R146). -/
def acceptAnswer (s : State) : Answer := if s.tli.pacing then .acceptPace else .accept

def raiseTrackCheck (s : State) : State := raise .trackCheck noDetail s

/-- The bits before the check match the length byte, which is at most 16, and the check holds (R187, R188). -/
def frameIntact (f : TrackFrame) : Bool :=
  f.check == trackCheck f && f.stray == 0 && f.payload.length == f.len.toNat && f.len.toNat ≤ 16

/-- The entry a POSITION from the same source replaces (R147). -/
def waitsFrom (src : Nat) (e : TrackEntry) : Bool := e.src == src && isPositionFrame e.body

def coalesce (src : Nat) (b : VehicleFrame) (s : State) : State :=
  s.updTli fun t =>
    { t with queue := t.queue.map fun e => if waitsFrom src e then { e with body := b, paced := t.pacing } else e }

/-- The entry is appended, the pacing state brought up to date, and the answer given in the resulting state. -/
def appendTrack (src : Nat) (b : VehicleFrame) (s : State) : State :=
  updatePacing (s.updTli fun t =>
    { t with queue := t.queue ++
        [{ src := src, body := b, paced := nextPacing s.tuning t.pacing (t.queue.length + 1) }] })

/-- Cases 4 to 6 of R146. -/
def enqueueFrame (src : Nat) (b : VehicleFrame) (s : State) : State :=
  if isPositionFrame b && s.tli.queue.any (waitsFrom src) then setAnswer (acceptAnswer s) (coalesce src b s)
  else if Config.trackQueueMax ≤ s.tli.queue.length then setAnswer .refuseBusy s
  else setAnswer (acceptAnswer (appendTrack src b s)) (appendTrack src b s)

/-- The answer to a frame and what becomes of it (R146, R188). -/
def receiveFrame (f : TrackFrame) (s : State) : State :=
  if !frameIntact f then raiseTrackCheck (setAnswer .refuseCheck s)
  else if !vehicleKind f.kind.toNat then setAnswer .accept s
  else
    match readVehicleFrame f.kind.toNat f.payload with
    | none => raiseTrackCheck (setAnswer .accept s)
    | some b =>
      if f.src.toNat = 0 ∨ f.src.toNat = 255 then setAnswer .accept s else enqueueFrame f.src.toNat b s

/-- A frame reaches the engine on an idle line, or by winning arbitration against the engine's frame, which is then
discarded (R144, log 24). -/
def contend (r : TrackReception) (s : State) : Option State :=
  match s.tli.line, r with
  | none, _ => some s
  | some _, .short => none
  | some e, .frame f => if f.prio < e.prio then some (s.updTli fun t => { t with line := none }) else none

def trackReceived (r : TrackReception) (s : State) : State :=
  match contend r s with
  | none => s
  | some s₁ =>
    match r with
    | .short => raiseTrackCheck (setAnswer .refuseCheck s₁)
    | .frame f => receiveFrame f s₁

def execTrackFrameReceived (r : TrackReception) (s : State) : Host.Outcome State Fault Refusal :=
  .next (whenRunning (trackReceived r) s)

/-! ### The pick (R152, R153, R154) -/

/-- The first record after the pointer, counting up through 63 and then from 0, that `p` accepts. -/
def roundRobin (s : State) (p : DueSet → Bool) : Option Nat :=
  let after := s.roster.filter fun e => s.tli.pointer < e.1
  let before := s.roster.filter fun e => e.1 ≤ s.tli.pointer
  ((after ++ before).find? fun e => p e.2.due).map (·.2.id)

def dispatching (s : State) : Bool := s.mode == .dispatching

/-- Step 4: the vehicle taken, WITHDRAW before GRANT; a GRANT counts only in DISPATCHING (R152). -/
def pickGrantOrWithdraw (s : State) : Option LineItem :=
  (roundRobin s fun d => !d.withdraw.isEmpty || (dispatching s && d.grant.isSome)).map fun v =>
    if (vehicle s v).any (fun x => !x.due.withdraw.isEmpty) then .withdraw v else .grant v

/-- The item of R153, from the sendable ones. -/
def pick (s : State) : Option LineItem :=
  if s.tli.allHold.isSome then some .allHold
  else
    match roundRobin s fun d => d.hold.isSome with
    | some v => some (.hold v)
    | none =>
      match s.tli.strayHolds.head? with
      | some e => some (.strayHold e.1)
      | none =>
        match pickGrantOrWithdraw s with
        | some i => some i
        | none =>
          if !dispatching s then none
          else if s.tli.resume.isSome then some .resume
          else if s.tli.rollcall.isSome then some .rollcall
          else (roundRobin s fun d => d.assign.isSome && d.withdraw.isEmpty).map .assign

/-! ### Composition (R145, R156 to R159, R188) -/

def engineFrame (item : LineItem) (prio kind : Nat) (payload : List Byte) (carried : List Nat) : LineFrame :=
  { item := item, prio := prio, kind := kind, payload := payload, carried := carried, link := .live }

/-- Speed step of a segment (R156). -/
def speedStep (s : State) (i : Nat) : Nat :=
  match segment s i with
  | some r => min r.speed (capOf s r.zone)
  | none => 0

/-- A vehicle that is granted nothing ahead (R156). -/
def Vehicle.stopped (x : Vehicle) : Bool :=
  match x.state with
  | .faulted _ => true
  | .lost _ _ => true
  | _ => x.due.stopMark

/-- The entries a GRANT lists (R156). -/
def grantEntries (x : Vehicle) : List Nat := if x.stopped then [] else x.held.tail

def composeGrant (s : State) (x : Vehicle) : LineFrame :=
  let l := grantEntries x
  engineFrame (.grant x.id) 1 kindGrant
    ([byte x.id] ++ opt2 x.firstHeld ++ [byte l.length] ++ l.flatMap fun i => bytes2 (speedStep s i * 1024 + i)) []

/-- The move an ASSIGN to the vehicle announces (R157). -/
def announced (s : State) (x : Vehicle) : Option Move :=
  (x.move.bind (findMove s)).filter fun y => y.state == .assigned

def composeAssign (s : State) (x : Vehicle) (y : Move) : LineFrame :=
  let port := y.source.bind (portRec s)
  engineFrame (.assign x.id) 2 kindAssign
    ([byte x.id] ++ bytes2 y.id ++ bytes4 y.carrier ++ [opt1 y.source] ++ opt2 (port.map (·.segment))
      ++ [opt1 (port.map (·.kind.code))]) []

def composeWithdraw (x : Vehicle) : LineFrame :=
  engineFrame (.withdraw x.id) 1 kindWithdraw
    ([byte x.id, byte x.due.withdraw.length] ++ x.due.withdraw.flatMap bytes2) x.due.withdraw

/-- The frame of an item; none where the item has nothing to announce. -/
def compose (s : State) : LineItem → Option LineFrame
  | .allHold => some (engineFrame .allHold 0 kindAllHold [255] [])
  | .resume => some (engineFrame .resume 2 kindResume [255] [])
  | .rollcall => some (engineFrame .rollcall 2 kindRollcall [255, opt1 s.mc.identity.cell] [])
  | .hold v => some (engineFrame (.hold v) 0 kindHold [byte v] [])
  | .strayHold v => some (engineFrame (.strayHold v) 0 kindHold [byte v] [])
  | .grant v => (vehicle s v).map (composeGrant s)
  | .withdraw v => (vehicle s v).map composeWithdraw
  | .assign v => (vehicle s v).bind fun x => (announced s x).map (composeAssign s x)

/-- The item is cleared unsent (R153). -/
def clearUnsent (item : LineItem) (s : State) : State :=
  match item with
  | .assign v => updDue v (fun d => { d with assign := none }) s
  | _ => s

/-- The frame begins if the pick is an item `p` accepts; an ASSIGN with nothing to announce is cleared and the pick
made again, at most once for each record. -/
def sendPicked (p : LineItem → Bool) : Nat → State → State
  | 0, s => s
  | n + 1, s =>
    match pick s with
    | none => s
    | some item =>
      if p item then
        match compose s item with
        | some f => s.updTli fun t => { t with line := some f }
        | none => sendPicked p n (clearUnsent item s)
      else s

/-- The line is idle and the engine picks (R153, log 1). -/
def sendRow (p : LineItem → Bool) (s : State) : State :=
  if s.tli.line.isNone then sendPicked p (Config.rosterMax + 1) s else s

def isGrantItem : LineItem → Bool | .grant _ => true | _ => false
def isAssignItem : LineItem → Bool | .assign _ => true | _ => false
def isWithdrawItem : LineItem → Bool | .withdraw _ => true | _ => false
def isHoldItem : LineItem → Bool | .hold _ => true | .strayHold _ => true | _ => false

def execSendGrant (s : State) : Host.Outcome State Fault Refusal := .next (whenRunning (sendRow isGrantItem) s)
def execSendAssign (s : State) : Host.Outcome State Fault Refusal := .next (whenRunning (sendRow isAssignItem) s)
def execSendWithdraw (s : State) : Host.Outcome State Fault Refusal := .next (whenRunning (sendRow isWithdrawItem) s)
def execSendHold (s : State) : Host.Outcome State Fault Refusal := .next (whenRunning (sendRow isHoldItem) s)
def execSendAllHold (s : State) : Host.Outcome State Fault Refusal := .next (whenRunning (sendRow (· == .allHold)) s)
def execSendResume (s : State) : Host.Outcome State Fault Refusal := .next (whenRunning (sendRow (· == .resume)) s)
def execSendRollcall (s : State) : Host.Outcome State Fault Refusal := .next (whenRunning (sendRow (· == .rollcall)) s)

/-! ### Outcomes (R154, R155) -/

/-- The unanswered count of an item, changed by `f`; `f` answers none where the item leaves its set. -/
def modItem (f : Nat → Option Nat) (item : LineItem) (s : State) : State :=
  match item with
  | .allHold => s.updTli fun t => { t with allHold := t.allHold.bind f }
  | .resume => s.updTli fun t => { t with resume := t.resume.bind f }
  | .rollcall => s.updTli fun t => { t with rollcall := t.rollcall.bind f }
  | .strayHold v =>
    s.updTli fun t => { t with strayHolds := t.strayHolds.filterMap fun e =>
      if e.1 = v then (f e.2).map (fun n => (e.1, n)) else some e }
  | .hold v => updDue v (fun d => { d with hold := d.hold.bind f }) s
  | .grant v => updDue v (fun d => { d with grant := d.grant.bind f }) s
  | .assign v => updDue v (fun d => { d with assign := d.assign.bind f }) s
  | .withdraw v => updDue v (fun d => { d with withdrawCount := (f d.withdrawCount).getD 0 }) s

/-- The item leaves its set: whole, or for a WITHDRAW the ids the frame carried. -/
def clearItem (fr : LineFrame) (s : State) : State :=
  match fr.item with
  | .withdraw v =>
    updDue v (fun d => { d with withdraw := d.withdraw.filter fun m => !fr.carried.contains m, withdrawCount := 0 }) s
  | item => if fr.link = .live then modItem (fun _ => none) item s else modItem (fun _ => some 0) item s

/-- The present unanswered count of the frame's item. -/
def itemCount (s : State) : LineItem → Option Nat
  | .allHold => s.tli.allHold
  | .resume => s.tli.resume
  | .rollcall => s.tli.rollcall
  | .strayHold v => tget v s.tli.strayHolds
  | .hold v => (vehicle s v).bind fun x => x.due.hold
  | .grant v => (vehicle s v).bind fun x => x.due.grant
  | .assign v => (vehicle s v).bind fun x => x.due.assign
  | .withdraw v => (vehicle s v).bind fun x => if x.due.withdraw.isEmpty then none else some x.due.withdrawCount

/-- No answer: the count rises, and at 8 the item is dropped as though its frame had completed. DESIGN CHOICE (log 40):
a WITHDRAW item is the vehicle's list, so its count rises also where every id the frame carried has been discarded and
the list was made due afresh meanwhile. -/
def unanswered (fr : LineFrame) (s : State) : State :=
  match itemCount s fr.item with
  | none => s
  | some n =>
    if Config.unansweredMax ≤ n + 1 then clearItem fr s else modItem (fun k => some (k + 1)) fr.item s

/-- What the answer does to the item of a frame not discarded meanwhile (R155). -/
def settleItem (fr : LineFrame) (a : Option Answer) (s : State) : State :=
  match a with
  | some .accept | some .acceptPace => clearItem fr s
  | some .refuseBusy | some .refuseCheck => modItem (fun _ => some 0) fr.item s
  | none => unanswered fr s

/-- The roster vehicle an item is for. -/
def LineItem.target : LineItem → Option Nat
  | .hold v => some v
  | .withdraw v => some v
  | .grant v => some v
  | .assign v => some v
  | _ => none

/-- The pointer moves to the slot of the vehicle served (R154, log 25). -/
def movePointer (item : LineItem) (s : State) : State :=
  match (item.target.bind (findVehicle s)).map (·.1) with
  | some slot => s.updTli fun t => { t with pointer := slot }
  | none => s

/-- The engine's frame ends (R155). -/
def frameEnds (o : FrameOutcome) (s : State) : State :=
  match s.tli.line with
  | none => s
  | some fr =>
    let s₁ := s.updTli fun t => { t with line := none }
    match o with
    | .arbitrationLost => s₁
    | .slot answers =>
      let s₂ := movePointer fr.item s₁
      if fr.link = .severed then s₂ else settleItem fr (combinedAnswer answers) s₂

def execEngineFrameOutcome (o : FrameOutcome) (s : State) : Host.Outcome State Fault Refusal :=
  .next (whenRunning (frameEnds o) s)

end Sys2Proof.Machine
end

