-- ==== Sys2Proof/Machine/FloorLink.lean ====
section
/-! DEFINITION. The Floor Link Interface: arrival and sending of frames, requests of unknown kind, BLOCK and
UNBLOCK, CLEAR (R38 to R40, R160, R161, R163, R172, R190). -/

namespace Sys2Proof.Machine

/-! ### Frames arriving and leaving -/

/-- Case 3 of R190: while the cell number is set, the destination must be it or 255. -/
def addressedHere (s : State) (f : FloorFrame) : Bool :=
  match s.mc.identity.cell with
  | none => true
  | some c => f.dst == c || f.dst == anyAddress

/-- A report or reply kind, which the engine does not take (R190 case 4). -/
def isOutgoingKind (k : Nat) : Bool := k == kindReply || k == kindMoveReport || k == kindNotice

/-- The tests of R190 and R160 on the bytes received. -/
def floorArrival (bs : List Byte) (s : State) : State :=
  match FloorFrame.parse bs with
  | none => s
  | some (f, checkHolds) =>
    if !checkHolds || !addressedHere s f || isOutgoingKind f.kind then s
    else if Config.inboundMax ≤ s.fli.inbound.length then raise .floorOverrun noDetail s
    else s.updFli fun l => { l with inbound := l.inbound ++ [f] }

def execFloorFrameArrival (bs : List Byte) (s : State) : Host.Outcome State Fault Refusal :=
  .next (whenRunning (floorArrival bs) s)

/-- The last byte of the front entry has been sent (R161, log 31). -/
def floorSent (s : State) : State :=
  match s.fli.outbound with
  | [] => s
  | f :: rest => s.updFli fun l => { l with outbound := rest, sent := some f }

def execFloorFrameSent (s : State) : Host.Outcome State Fault Refusal := .next (whenRunning floorSent s)

/-! ### Requests no other row takes (R2, R163, R165, R176, R184, log 2) -/

/-- LOAD and MODE go through the first two checks of their owner; every other such request is out of range. -/
def serveUnknown (f : FloorFrame) (s : State) : State × Option Reply :=
  if f.payload ≠ [] ∧ (f.kind = kindLoad ∨ f.kind = kindMode ∧ f.payload.length = 1) then
    if cellUnset s then refuse .refusedState s
    else if checkRunning s then refuse .busy s
    else refuse .refusedRange s
  else refuse .refusedRange s

def execUnknownRequestKind (s : State) : Host.Outcome State Fault Refusal :=
  .next (serveRequest isUnknownRequest serveUnknown s)

/-! ### BLOCK and UNBLOCK (R38, R39, R40) -/

def blockRes : Res → Res
  | .free => .blocked
  | .reserved v => .blockPending v .reserved none
  | .occupied v n => .blockPending v .occupied n
  | r => r

def unblockRes : Res → Res
  | .blocked => .free
  | .blockPending v .reserved _ => .reserved v
  | .blockPending v .occupied n => .occupied v n
  | r => r

/-- The checks of R38 before the change `h`. -/
def serveClosure (h : Nat → State → State) (_ : FloorFrame) (i : Nat) (s : State) : State × Option Reply :=
  if dispatchRefused s then refuse .refusedState s
  else if 1023 < i ∨ (segment s i).isNone then refuse .refusedRange s
  else if isForeign s i then refuse .refusedState s
  else done (h i s)

def execBlock (s : State) : Host.Outcome State Fault Refusal :=
  .next (serveRequest (isKind kindBlock) (withPayload readNum2 (serveClosure fun i => modRes i blockRes)) s)

/-- A segment that was BLOCKED is arbitrated when it is FREE again (R35, R40). -/
def unblock (i : Nat) (s : State) : State :=
  let s₁ := modRes i unblockRes s
  if resOf s i = some .blocked then arbitrateSeg i s₁ else s₁

def execUnblock (s : State) : Host.Outcome State Fault Refusal :=
  .next (serveRequest (isKind kindUnblock) (withPayload readNum2 (serveClosure unblock)) s)

/-! ### CLEAR (R172) -/

/-- The named flags and their first-occurrence records go and the ALARM output follows. -/
def clearFlags (codes : List Nat) (s : State) : State :=
  updateAlarm (s.updSu fun u => { u with flags := u.flags.filter fun e => !codes.contains e.1 })

def serveClear (_ : FloorFrame) (codes : List Nat) (s : State) : State × Option Reply :=
  if cellUnset s then refuse .refusedState s
  else if 17 < codes.length ∨ codes.any (fun k => decide (17 ≤ k)) then refuse .refusedRange s
  else done (clearFlags codes s)

def execClear (s : State) : Host.Outcome State Fault Refusal :=
  .next (serveRequest (isKind kindClear) (withPayload readClear serveClear) s)

end Sys2Proof.Machine
end

