-- ==== Sys2Proof/Machine/Query.lean ====
section
/-! DEFINITION. The nine QUERY kinds and the bytes of their replies (R21, R30, R64 to R66, R89, R151, R165 to R168,
R186, R189, log 23). -/

namespace Sys2Proof.Machine

/-! ### Field widths (R186) -/

/-- A time remaining before a deadline. -/
def timeLeft (s : State) (t : Nat) : List Byte := bytes2 (min (t - s.now) 65533)
def optTimeLeft (s : State) (t : Option Nat) : List Byte :=
  match t with
  | some t => timeLeft s t
  | none => [0xFF, 0xFF]
def optFlag (o : Option Bool) : Byte := match o with | some b => flagByte b | none => 0xFF
def countByte {α : Type} (l : List α) : Byte := byte l.length

/-! ### Contents -/

def VState.resume : VState → Option WorkState
  | .faulted w => some w
  | .lost w _ => some w
  | _ => none

def VState.faultMark : VState → Option Bool
  | .lost _ m => some m
  | _ => none

/-- The held list, each entry with its state (R23). -/
def heldBytes (s : State) (x : Vehicle) : List Byte :=
  [countByte x.held] ++ x.held.flatMap fun i => bytes2 i ++ [opt1 ((resOf s i).map Res.code)]

/-- The path fields R51 names. -/
def Path.report (p : Path) : List Byte :=
  let cause := match p.condition with | .broken c => some c | _ => none
  [byte p.purpose.code] ++ opt2 p.target ++ [byte p.condition.code, opt1 (cause.map PathCause.code),
    opt1 (p.leg.map Leg.code)] ++ opt2 p.cursor ++ bytes2 p.remaining

/-- The items due to a vehicle (R151). -/
def DueSet.report (d : DueSet) : List Byte :=
  [flagByte d.hold.isSome, countByte d.withdraw] ++ d.withdraw.flatMap bytes2
    ++ [flagByte d.assign.isSome, flagByte d.grant.isSome, flagByte d.stopMark]

def InPhase.deadline : InPhase → Option Nat
  | .waiting => none
  | .granted t => some t

/-- The arrival deadline of an ARRIVING vehicle (R137). -/
def arrivalBytes (s : State) (x : Vehicle) : List Byte :=
  if x.state = .arriving then optTimeLeft s ((grantedClaimOf s x.id).bind fun c => c.phase.deadline) else []

def vehicleBytes (s : State) (slot : Nat) (x : Vehicle) : List Byte :=
  [byte slot, byte x.id, byte x.state.code, opt1 (x.state.resume.map fun w => (VState.work w).code),
    optFlag x.state.faultMark]
  ++ heldBytes s x ++ opt2 x.move ++ opt2 x.nextMove ++ opt4 x.carrier ++ [byte x.need]
  ++ optTimeLeft s x.heardBy ++ [flagByte x.pacing] ++ opt2 (waitingAt s x.id) ++ x.path.report
  ++ x.due.report ++ arrivalBytes s x

def confirmBytes (s : State) : ConfirmDeadline → List Byte
  | .absent => [0xFF, 0xFF]
  | .suspended => [0xFF, 0xFE]
  | .at t => timeLeft s t

def moveBytes (s : State) (y : Move) : List Byte :=
  bytes2 y.id ++ bytes4 y.carrier ++ opt2 y.source ++ opt2 y.dest ++ [byte y.cls] ++ bytes2 y.age ++ bytes4 y.seq
    ++ [byte y.state.code, opt1 y.vehicle] ++ confirmBytes s y.confirm ++ [flagByte y.returnFlag] ++ bytes2 y.urgency

def SegForm.fields : SegForm → List Byte
  | .plain => [0xFF, 0xFF, 0xFF, 0xFF]
  | .diverge t => bytes2 t ++ [0xFF, 0xFF]
  | .merge p => [0xFF, 0xFF] ++ bytes2 p
  | .boundary _ => [0xFF, 0xFF, 0xFF, 0xFF]

def SegForm.owner : SegForm → Option Nat
  | .boundary o => some o
  | _ => none

def Res.holder : Res → Option Nat
  | .reserved v => some v
  | .occupied v _ => some v
  | .blockPending v _ _ => some v
  | .borrowed v => some v
  | _ => none

def Res.heldAs : Res → Option HeldAs
  | .blockPending _ h _ => some h
  | _ => none

def Res.claimant : Res → Option Nat
  | .claiming v => some v
  | _ => none

def Res.note : Res → Option Nat
  | .occupied _ n => n
  | .blockPending _ _ n => n
  | _ => none

def waitBytes (s : State) (e : WaitEntry) : List Byte :=
  let waited := bytes2 (min (s.now - e.enteredAt) 65533)
  match e.who with
  | .vehicle v f => [0, byte v] ++ bytes2 f ++ waited ++ [0xFF, 0xFF, 0xFF]
  | .claim v tag cell cls => [1, byte v, 0xFF, 0xFF] ++ waited ++ [byte tag, byte cell, byte cls]

/-- The claim a segment is subject to: the entry's cell, for an incoming one, and tag (R129, R137). -/
def claimBytes (s : State) (i : Nat) : List Byte :=
  match outClaimAt s i with
  | some e => [0xFF, byte e.tag]
  | none =>
    match s.bxu.inClaims.find? fun c => c.segment == i && c.phase != .waiting with
    | some c => [byte c.cell, byte c.tag]
    | none => [0xFF, 0xFF]

/-- The vehicle whose park target the segment is (R51, R61). -/
def parkedBy (s : State) (i : Nat) : Option Nat := (s.roster.find? fun p => p.2.parkMark == some i).map (·.2.id)

/-- The layout fields of an ABSENT segment, which R3 stores as absent; there is no reservation record. -/
def absentSegmentBytes : List Byte := [0] ++ opt1 none :: (opt2 none ++ opt2 none ++ opt2 none) ++ [opt1 none, opt1 none]

def segmentBytes (s : State) (i : Nat) (r : SegmentRec) (x : SegRes) : List Byte :=
  [byte r.form.code, byte r.zone] ++ bytes2 r.succ0 ++ r.form.fields ++ [byte r.speed, opt1 r.form.owner]
  ++ [byte x.res.code, opt1 x.res.holder, opt1 (x.res.heldAs.map HeldAs.code), opt1 x.res.claimant]
  ++ [countByte x.waits] ++ x.waits.flatMap (waitBytes s) ++ [opt1 x.res.note]
  ++ claimBytes s i ++ [opt1 (parkedBy s i)]

def zoneBytes (s : State) (z : Nat) : List Byte :=
  (match zoneRec s z with
   | none => [0]
   | some r =>
     [1, byte r.capacity] ++ bytes2 r.entrySeg ++ bytes2 r.anchor ++ [countByte r.park] ++ r.park.flatMap bytes2
       ++ [opt1 r.overflow])
  ++ [byte (zoneCount s z), byte (capOf s z)]

def flagBytes (s : State) (k : EventKind) : List Byte :=
  match tget k.code s.su.flags with
  | none => [0, byte (severityOf s k).code]
  | some d => [1, byte (severityOf s k).code] ++ detailBytes d

def statusBytes (s : State) : List Byte := [flagByte s.su.alarm] ++ EventKind.all.flatMap (flagBytes s)

def identityBytes (s : State) : List Byte :=
  [opt1 s.mc.identity.cell, flagByte s.mc.identity.haltEnable, countByte s.mc.identity.neighbours]
    ++ s.mc.identity.neighbours.map byte ++ [flagByte s.mc.windowClosed]

def modeBytes (s : State) : List Byte :=
  [byte s.mode.code, flagByte (checkRunning s), flagByte s.layout.validated, flagByte s.mc.haltInput,
    flagByte s.mc.haltPending, byte s.tuning.w, byte s.layout.grantWindow, countByte s.tli.queue,
    flagByte s.tli.pacing, countByte s.fli.inbound, countByte s.fli.outbound, byte s.fli.reservations]

/-! ### Answers (R165, R166): a QUERY changes nothing -/

def answer (s : State) (content : List Byte) : State × Option Reply := (s, some { code := .done, content := content })

def queryVehicle (_ : FloorFrame) (v : Nat) (s : State) : State × Option Reply :=
  if v = 0 ∨ 254 < v then refuse .refusedRange s
  else
    match findVehicle s v with
    | none => refuse .unknown s
    | some (slot, x) => answer s (vehicleBytes s slot x)

def queryMove (_ : FloorFrame) (m : Nat) (s : State) : State × Option Reply :=
  if m = 0 then refuse .refusedRange s
  else
    match findMove s m with
    | none => refuse .unknown s
    | some y => answer s (moveBytes s y)

def querySegment (_ : FloorFrame) (i : Nat) (s : State) : State × Option Reply :=
  if 1023 < i then refuse .refusedRange s
  else
    match segment s i, resRec s i with
    | some r, some x => answer s (segmentBytes s i r x)
    | _, _ => answer s absentSegmentBytes

def queryZone (_ : FloorFrame) (z : Nat) (s : State) : State × Option Reply :=
  if 31 < z then refuse .refusedRange s else answer s (zoneBytes s z)

def queryRosterList (_ : FloorFrame) (_ : Nat) (s : State) : State × Option Reply :=
  answer s ([countByte s.roster] ++ s.roster.map fun p => byte p.2.id)

def queryMoveList (_ : FloorFrame) (start : Nat) (s : State) : State × Option Reply :=
  if 127 < start then refuse .refusedRange s
  else
    let ids := ((s.mq.moves.drop start).take 64).map (·.id)
    answer s ([countByte s.mq.moves, countByte ids] ++ ids.flatMap bytes2)

def queryStatusFlags (_ : FloorFrame) (_ : Nat) (s : State) : State × Option Reply := answer s (statusBytes s)
def queryIdentity (_ : FloorFrame) (_ : Nat) (s : State) : State × Option Reply := answer s (identityBytes s)
def queryMode (_ : FloorFrame) (_ : Nat) (s : State) : State × Option Reply := answer s (modeBytes s)

/-- A QUERY of kind code `k` at the front of the queue. -/
def serveQuery (k : Nat) (h : FloorFrame → Nat → State → State × Option Reply) (s : State) : State :=
  serveRequest (isKindWith kindQuery k) (withPayload readQuery h) s

def execQueryVehicle (s : State) : Host.Outcome State Fault Refusal := .next (serveQuery 0 queryVehicle s)
def execQueryMove (s : State) : Host.Outcome State Fault Refusal := .next (serveQuery 1 queryMove s)
def execQuerySegment (s : State) : Host.Outcome State Fault Refusal := .next (serveQuery 2 querySegment s)
def execQueryZone (s : State) : Host.Outcome State Fault Refusal := .next (serveQuery 3 queryZone s)
def execQueryRosterList (s : State) : Host.Outcome State Fault Refusal := .next (serveQuery 4 queryRosterList s)
def execQueryMoveList (s : State) : Host.Outcome State Fault Refusal := .next (serveQuery 5 queryMoveList s)
def execQueryStatusFlags (s : State) : Host.Outcome State Fault Refusal := .next (serveQuery 6 queryStatusFlags s)
def execQueryIdentity (s : State) : Host.Outcome State Fault Refusal := .next (serveQuery 7 queryIdentity s)
def execQueryMode (s : State) : Host.Outcome State Fault Refusal := .next (serveQuery 8 queryMode s)

end Sys2Proof.Machine
end

