-- ==== Sys2Proof/Machine/LayoutLoad.lean ====
section
/-! DEFINITION. The eight LOAD rows (R2 to R9, R18, R20, R22, R173). -/

namespace Sys2Proof.Machine

/-- The checks of R2 before the record itself; `size` is the record's length and `bound` the table's. -/
def serveLoad (size : Nat) (layoutTable : Bool) (bound : Nat) (h : Nat → List Byte → State → State × Option Reply)
    (f : FloorFrame) (s : State) : State × Option Reply :=
  match readLoad size f.payload with
  | none => refuse .refusedRange s
  | some (i, record) =>
    if cellUnset s then refuse .refusedState s
    else if checkRunning s then refuse .busy s
    else if layoutTable && s.mode != .parked then refuse .refusedState s
    else if bound ≤ i then refuse .refusedRange s
    else h i record s

/-- A LOAD with selector code `sel` at the front of the queue. -/
def loadRow (sel bound : Nat) (h : Nat → List Byte → State → State × Option Reply) (s : State) : State :=
  serveRequest (isKindWith kindLoad sel) (serveLoad ((loadRecordSize sel).getD 0) (sel < 5) bound h) s

/-- A layout LOAD that is taken: the record replaced, the layout unvalidated (R1, R2). -/
def storeLayout {α : Type} (read : List Byte → Option α) (put : Nat → α → Layout → Layout) (i : Nat)
    (record : List Byte) (s : State) : State × Option Reply :=
  match read record with
  | none => refuse .refusedRange s
  | some a => done (s.updLayout fun l => { put i a l with validated := false })

/-- The present record, or none for the absent marker. -/
def putOrDrop {α : Type} (i : Nat) (o : Option α) (t : Table α) : Table α :=
  match o with
  | some a => tput i a t
  | none => tdrop i t

/-- A SEGMENT LOAD also gives the record its reservation state (R22). -/
def loadSegmentRecord (i : Nat) (record : List Byte) (s : State) : State × Option Reply :=
  match readSegment record with
  | none => refuse .refusedRange s
  | some o =>
    let s₁ := s.updLayout fun l => { l with segs := putOrDrop i o l.segs, validated := false }
    done (s₁.updSrt (putOrDrop i (o.map (parkedRes s₁))))

def loadRouteRecord (i : Nat) (record : List Byte) (s : State) : State × Option Reply :=
  storeLayout (readRoute (i / 32) (i % 32)) (fun j r l => { l with routes := tputD noRoute j r l.routes }) i record s

def execLoadSegment (s : State) : Host.Outcome State Fault Refusal := .next (loadRow 0 1024 loadSegmentRecord s)
def execLoadZone (s : State) : Host.Outcome State Fault Refusal :=
  .next (loadRow 1 32 (storeLayout readZone fun i o l => { l with zones := putOrDrop i o l.zones }) s)
def execLoadPort (s : State) : Host.Outcome State Fault Refusal :=
  .next (loadRow 2 256 (storeLayout readPort fun i o l => { l with ports := putOrDrop i o l.ports }) s)
def execLoadRoute (s : State) : Host.Outcome State Fault Refusal := .next (loadRow 3 1024 loadRouteRecord s)
def execLoadExit (s : State) : Host.Outcome State Fault Refusal :=
  .next (loadRow 4 64 (storeLayout readExit fun i o l => { l with exits := putOrDrop i o l.exits }) s)

/-! ### Tuning tables -/

def clamp (lo hi n : Nat) : Nat := max lo (min hi n)

/-- Every field brought into its range, Lpace before Lresume (R18). -/
def Tuning.clamped (t : Tuning) : Tuning :=
  let lp := clamp 8 31 t.lpace
  { base0 := clamp 0 32767 t.base0, base1 := clamp 0 32767 t.base1, base2 := clamp 0 32767 t.base2
    base3 := clamp 0 32767 t.base3, kage := clamp 0 255 t.kage, pz := clamp 0 1023 t.pz, hd := clamp 0 255 t.hd
    kmax := clamp 0 65535 t.kmax, mpre := clamp 0 4095 t.mpre, w := clamp 1 4 t.w, tSide := clamp 0 255 t.tSide
    tSilent := clamp 5 255 t.tSilent, tConf := clamp 5 255 t.tConf, tClaim := clamp 5 255 t.tClaim
    tHand := clamp 20 255 t.tHand, lpace := lp, lresume := clamp 1 (lp - 1) t.lresume }

/-- DONE, or DONE-CLAMPED where a value was adjusted (R164). -/
def doneWith (adjusted : Bool) (s : State) : State × Option Reply :=
  (s, some (Reply.bare (if adjusted then .doneClamped else .done)))

def loadTuningRecord (_ : Nat) (record : List Byte) (s : State) : State × Option Reply :=
  match readTuning record with
  | none => refuse .refusedRange s
  | some t => doneWith (decide (t.clamped ≠ t)) (s.updLayout fun l => { l with tuning := t.clamped })

def execLoadTuning (s : State) : Host.Outcome State Fault Refusal := .next (loadRow 5 65536 loadTuningRecord s)

/-- A vehicle with a held entry in zone `z` (R20). -/
def holdsIn (s : State) (z : Nat) (x : Vehicle) : Bool := x.held.any fun i => zoneOf s i == some z

/-- GRANTs for every vehicle that `p` accepts, in slot order; an ARRIVING one takes none (R24). -/
def grantAll (p : Vehicle → Bool) (s : State) : State :=
  s.roster.foldl (fun t e => if p e.2 then makeGrantDue e.2.id t else t) s

def loadCapRecord (z : Nat) (record : List Byte) (s : State) : State × Option Reply :=
  match readNum1 record with
  | none => refuse .refusedRange s
  | some n =>
    doneWith (decide (7 < n))
      (grantAll (holdsIn s z) (s.updLayout fun l => { l with caps := tputD 7 z (min 7 n) l.caps }))

def execLoadCap (s : State) : Host.Outcome State Fault Refusal := .next (loadRow 6 32 loadCapRecord s)

/-- The level a SEVERITY LOAD stores: a code above HALT is HALT, a level below the floor is the floor (R173). -/
def storedLevel (k : EventKind) (code : Nat) : Severity :=
  let v := Severity.ofCode code
  if v.code < k.floor.code then k.floor else v

def loadSeverityRecord (i : Nat) (record : List Byte) (s : State) : State × Option Reply :=
  match EventKind.ofCode i, readNum1 record with
  | some k, some code =>
    let v := storedLevel k code
    doneWith (decide (v.code ≠ code))
      (updateAlarm (s.updLayout fun l => { l with severity := tputD k.defaultSeverity k.code v l.severity }))
  | _, _ => refuse .refusedRange s

def execLoadSeverity (s : State) : Host.Outcome State Fault Refusal := .next (loadRow 7 17 loadSeverityRecord s)

end Sys2Proof.Machine
end

