-- ==== Sys2Proof/Machine/Activation.lean ====
section
/-! DEFINITION. ACTIVATE and the completion of its check (R10 to R16). -/

namespace Sys2Proof.Machine

/-- A payload of no bytes. -/
def readNone : List Byte → Option Unit
  | [] => some ()
  | _ => none

/-- The check begins; its REPLY waits, its reservation staying open (R10, R161). -/
def serveActivate (f : FloorFrame) (_ : Unit) (s : State) : State × Option Reply :=
  if cellUnset s then refuse .refusedState s
  else if checkRunning s then refuse .busy s
  else if s.mode ≠ .parked then refuse .refusedState s
  else if s.haltLine then refuse .refusedState s
  else (s.updMc fun m => { m with check := some { src := f.src, tag := f.tag } }, none)

def execActivate (s : State) : Host.Outcome State Fault Refusal :=
  .next (serveRequest (isKind kindActivate) (withPayload readNone serveActivate) s)

/-! ### The five steps of the check -/

def loaded (s : State) (i : Nat) : Bool := (segment s i).isSome

/-- `t` is a successor of `i` (R4). -/
def isSuccessor (s : State) (i t : Nat) : Bool :=
  match segment s i with
  | some r => r.successors.contains t
  | none => false

/-- Step 1 for one segment (R11). -/
def segmentPasses (s : State) (i : Nat) (r : SegmentRec) : Bool :=
  let foreign := isForeignRec s r
  (foreign || loaded s r.succ0)
  && (match r.form with
      | .diverge t => loaded s t && t != r.succ0
      | .merge p => loaded s p && isSuccessor s p i
      | .boundary owner => !foreign || s.mc.identity.neighbours.contains owner
      | .plain => true)
  && (predecessors s i).length ≤ (match r.form with | .merge _ => 2 | _ => 1)

/-- An own segment loaded in zone `z`. -/
def ownIn (s : State) (z i : Nat) : Bool := isOwn s i && zoneOf s i == some z

def isPlainIn (s : State) (z i : Nat) : Bool :=
  match segment s i with
  | some r => r.form == .plain && r.zone == z
  | none => false

/-- Step 2 for one zone (R12). -/
def zonePasses (s : State) (z : Nat) : Bool :=
  match zoneRec s z with
  | none => s.layout.segs.all fun p => p.2.zone != z
  | some r =>
    ownIn s z r.entrySeg && ownIn s z r.anchor && r.park.all (isPlainIn s z) && decide r.park.Nodup
    && (match r.overflow with | some o => o != z && (zoneRec s o).isSome | none => true)

/-- The conditions at one position of a route, `before` being the segment at the position before, if any (R14). -/
def positionFault (s : State) (anchor : Nat) (before : Option Int) (x : Int) : Option LayoutFault :=
  if x < 0 ∨ 1023 < x ∨ loaded s x.toNat = false then some .routeRange
  else if isForeign s x.toNat then some .routeForeign
  else
    match before with
    | none => if isSuccessor s anchor x.toNat then none else some .routeEnds
    | some b => if isSuccessor s b.toNat x.toNat then none else some .routeBreak

/-- The positions in turn, then the last segment against entry(b). -/
def sequenceFault (s : State) (anchor entrySeg : Nat) : Option Int → List Int → Option LayoutFault
  | before, [] => if before = some (entrySeg : Int) then none else some .routeEnds
  | before, x :: xs =>
    match positionFault s anchor before x with
    | some c => some c
    | none => sequenceFault s anchor entrySeg (some x) xs

/-- Step 4 for one entry (R14). -/
def routeFault (s : State) (a b : Nat) : Option LayoutFault :=
  match (route s a b).desc with
  | none => none
  | some d =>
    match zoneRec s a, zoneRec s b with
    | some za, some zb => sequenceFault s za.anchor zb.entrySeg none d.sequence
    | _, _ => some .routeEnds

/-- Step 5 for one entry (R15). -/
def exitPasses (s : State) (c x : Nat) : Bool :=
  s.mc.identity.cell != some c
  && isForeign s x && (ownerOf s x).any (fun o => s.mc.identity.neighbours.contains o)
  && (match solePredecessor s x with | some p => isOwn s p | none => false)

/-- The first record of a step that fails. -/
def firstFail (fault : LayoutFault) (p : Nat → Bool) (is : List Nat) : Option (LayoutFault × Nat) :=
  (is.find? fun i => !p i).map fun i => (fault, i)

/-- The first route entry that fails, a-major. -/
def firstRouteFault (s : State) : Option (LayoutFault × Nat) :=
  s.layout.routes.findSome? fun e => (routeFault s (e.1 / 32) (e.1 % 32)).map fun c => (c, e.1)

/-- The first fault of the check, with the index of the record at fault (section 1.7). Records a table does not hold
pass steps 1, 3, 4 and 5. -/
def layoutFault (s : State) : Option (LayoutFault × Nat) :=
  (firstFail .segmentLink (fun i => (segment s i).all (segmentPasses s i)) (s.layout.segs.map (·.1))).or
    ((firstFail .zoneShape (zonePasses s) (List.range 32)).or
      ((firstFail .portPlace (fun p => (portSegment s p).all (isOwn s)) (s.layout.ports.map (·.1))).or
        ((firstRouteFault s).or
          (firstFail .exitShape (fun c => (exitSeg s c).all (exitPasses s c)) (s.layout.exits.map (·.1))))))

/-! ### Completion (R16) -/

/-- The engine enters DISPATCHING with every segment FREE or FOREIGN and a ROLLCALL due; the pass-due flag is set
(R16, R111). -/
def activate (s : State) : State :=
  let s₁ := s.updLayout fun l => { l with validated := true, grantWindow := l.tuning.w }
  setPassDue (makeRollcallDue ((clearReservations s₁).updMc fun m => { m with mode := .dispatching }))

/-- The outcome of the check and its REPLY. -/
def checkOutcome (s : State) : Reply × State :=
  match layoutFault s with
  | some (c, i) =>
    ({ code := .routeFault, content := [byte c.code, byte c.table] ++ bytes2 i },
     s.updLayout fun l => { l with validated := false })
  | none => if s.haltLine then (Reply.bare .refusedState, s) else (Reply.bare .done, activate s)

def checkCompletes (s : State) : State :=
  match s.mc.check with
  | none => s
  | some asker =>
    let r := checkOutcome (s.updMc fun m => { m with check := none })
    appendReply asker kindActivate r.1 r.2

def execActivationCheckComplete (s : State) : Host.Outcome State Fault Refusal := .next (whenRunning checkCompletes s)

end Sys2Proof.Machine
end

