-- ==== Sys2Proof/Machine/Modes.lean ====
section
/-! DEFINITION. Mode Control: MODE requests, the HALT input, IDENTIFY and the nonvolatile copy, restarts, the reset
pin and power (R175 to R185). -/

namespace Sys2Proof.Machine

/-! ### MODE (R176, R180, R181) -/

/-- Every SUSPENDED confirm deadline is set T_conf ahead (R99). -/
def resumeConfirm (s : State) : State :=
  s.updMq fun q =>
    { q with moves := q.moves.map fun x =>
        if x.confirm = .suspended then { x with confirm := .at (s.now + s.tuning.tConf) } else x }

/-- The engine leaves HALTED (R180). The pass itself is the row DISPATCH_PASS (log 5). -/
def leaveHalted (s : State) : State :=
  let s₁ := resumeConfirm (s.updMc fun m => { m with mode := .dispatching, haltPending := false })
  setPassDue (run [.scanAll 0] (grantAll (fun _ => true) (makeResumeDue s₁)))

/-- The Move Queue reports every record FAILED in queue order and removes it (R94). -/
def failAllMoves (s : State) : State := (s.mq.moves.map (·.id)).foldl (fun t m => removeMove m .failed t) s

/-- The frames the BXU sends at entry to PARKED, outgoing claims first (R143, R181). -/
def withdrawAllClaims (s : State) : State :=
  let outs := s.bxu.outClaims.foldl (fun t e =>
    sendPeer ((ownerOf t e.segment).getD anyAddress) kindClaimWithdraw e.tag e.segment e.vehicle [] t) s
  let granted := (s.bxu.inClaims.filter fun c => c.phase != .waiting).foldl (fun t c =>
    sendPeer c.cell kindAbandon c.tag c.segment c.vehicle [] t) outs
  let waiting := (s.bxu.inClaims.filter fun c => c.phase == .waiting).foldl (fun t c =>
    sendRefuse c.cell c.tag c.segment c.vehicle .state t) granted
  waiting.updBxu fun b => { b with outClaims := [], inClaims := [] }

/-- The per-vehicle due sets and the unrecorded HOLD set go; ALL-HOLD is due, RESUME and ROLLCALL are not. A frame on
the line serves nothing that is left, unless it is an ALL-HOLD made due again (R150, R151, R155). -/
def parkLine (s : State) : State :=
  let s₁ := s.updTli fun t =>
    { t with strayHolds := [], resume := none, rollcall := none
             line := t.line.map fun f => if f.item = .allHold then f else { f with link := .severed, carried := [] } }
  makeAllHoldDue s₁

/-- Entry to PARKED (R181). -/
def enterParked (s : State) : State :=
  let s₁ := withdrawAllClaims (failAllMoves (s.updMc fun m => { m with mode := .parked, haltPending := false }))
  let s₂ := s₁.updAsu fun a => { a with passDue := false, preempts := [] }
  parkLine (clearReservations (s₂.updRoster fun _ => []))

/-- The checks of R176 before the effect `h` of the mode value. -/
def serveMode (h : State → State × Option Reply) (_ : FloorFrame) (_ : Nat) (s : State) : State × Option Reply :=
  if cellUnset s then refuse .refusedState s else if checkRunning s then refuse .busy s else h s

def modeRow (code : Nat) (h : State → State × Option Reply) (s : State) : State :=
  serveRequest (isKindWith kindMode code) (withPayload readNum1 (serveMode h)) s

def askDispatching (s : State) : State × Option Reply :=
  match s.mode with
  | .parked => refuse .refusedState s
  | .dispatching => done s
  | .halted => if s.haltLine then refuse .refusedState s else done (leaveHalted s)

def askHalted (s : State) : State × Option Reply :=
  match s.mode with
  | .parked => refuse .refusedState s
  | .dispatching => done (enterHalted (s.updMc fun m => { m with haltPending := true }))
  | .halted => done (s.updMc fun m => { m with haltPending := true })

def askParked (s : State) : State × Option Reply :=
  match s.mode with
  | .parked => done s
  | .dispatching => done (enterParked s)
  | .halted => done (enterParked s)

def execModeDispatching (s : State) : Host.Outcome State Fault Refusal := .next (modeRow 1 askDispatching s)
def execModeHalted (s : State) : Host.Outcome State Fault Refusal := .next (modeRow 2 askHalted s)
def execModeParked (s : State) : Host.Outcome State Fault Refusal := .next (modeRow 0 askParked s)

/-! ### The HALT input (R177) -/

def setHaltPin (b : Bool) (s : State) : State := s.updBoard fun x => { x with haltPin := b }

/-- An assertion is recorded and, with halt-enable set, halts a DISPATCHING engine before HALT-LINE is raised. -/
def haltAsserted (s : State) : State :=
  if s.mc.haltInput then s
  else
    let s₁ := s.updMc fun m => { m with haltInput := true }
    if s.mc.identity.haltEnable then
      match s.mode with
      | .parked => s₁
      | .dispatching => raise .haltLine noDetail (enterHalted s₁)
      | .halted => raise .haltLine noDetail s₁
    else s₁

def execHaltInputAsserted (s : State) : Host.Outcome State Fault Refusal :=
  .next (whenRunning haltAsserted (setHaltPin true s))

/-- A release is recorded and changes nothing else. -/
def execHaltInputReleased (s : State) : Host.Outcome State Fault Refusal :=
  .next (whenRunning (fun t => t.updMc fun m => { m with haltInput := false }) (setHaltPin false s))

/-! ### Identity and the nonvolatile copy (R182, R183) -/

def Image.loads (i : Image) : Bool := i.check == imageCheck i.cell i.haltEnable i.neighbours

/-- The record the copy gives: blank for a blank copy or a failed check (R182). -/
def loadCopy (c : Option Image) : Identity :=
  match c with
  | none => Identity.blank
  | some i =>
    if i.loads then { cell := some i.cell, haltEnable := i.haltEnable, neighbours := i.neighbours }
    else Identity.blank

def IdentifyRequest.inRange (q : IdentifyRequest) : Bool :=
  q.cell ≤ 63 && q.neighbours.length ≤ 6
    && q.neighbours.all (fun c => decide (c ≤ 63) && c != q.cell) && decide q.neighbours.Nodup

def IdentifyRequest.identity (q : IdentifyRequest) : Identity :=
  { cell := some q.cell, haltEnable := q.haltEnable, neighbours := q.neighbours }

def IdentifyRequest.image (q : IdentifyRequest) : Image :=
  { cell := q.cell, haltEnable := q.haltEnable, neighbours := q.neighbours
    check := imageCheck q.cell q.haltEnable q.neighbours }

/-- The record is replaced, the window closes and each BOUNDARY takes FREE or FOREIGN afresh (R22, R183). -/
def takeIdentity (q : IdentifyRequest) (s : State) : State :=
  clearReservations (s.updMc fun m => { m with identity := q.identity, windowClosed := true })

def serveIdentify (f : FloorFrame) (q : IdentifyRequest) (s : State) : State × Option Reply :=
  if checkRunning s then refuse .busy s
  else if s.mode ≠ .parked then refuse .refusedState s
  else if s.mc.windowClosed then refuse .refusedState s
  else if !q.inRange then refuse .refusedRange s
  else if q.persist then
    ((takeIdentity q s).updMc fun m => { m with write := some (q.image, { src := f.src, tag := f.tag }) }, none)
  else done (takeIdentity q s)

def execIdentify (s : State) : Host.Outcome State Fault Refusal :=
  .next (serveRequest (isKind kindIdentify) (withPayload readIdentify serveIdentify) s)

/-- The copy is written whole and the IDENTIFY answered (R183). -/
def writeCompletes (s : State) : State :=
  match s.mc.write with
  | none => s
  | some (image, asker) =>
    appendReply asker kindIdentify (Reply.bare .done)
      (s.updMc fun m => { m with copy := some image, write := none })

def execNonvolatileWriteComplete (s : State) : Host.Outcome State Fault Refusal := .next (whenRunning writeCompletes s)

/-! ### Restart, reset and power (R182, R184, R185) -/

/-- A write of the copy in progress is cut: the former copy or the new one, whole or with a check that fails; both are
free values (log 8, 9). -/
def cutWrite (s : State) : State :=
  match s.mc.write with
  | none => s
  | some (image, _) =>
    let n := s.board.freeCount
    let kept := if Config.cutKeepsNew n then some image else s.mc.copy
    let copy := kept.map fun i => { i with check := i.check ^^^ Config.cutCheckError n }
    (s.updMc fun m => { m with copy := copy, write := none }).updBoard fun b => { b with freeCount := n + 1 }

/-- A RESTART (R184), up to its REPLY; KEEP-LAYOUT keeps the grant window in force with the tables (R1). -/
def restart (full reload : Bool) (s : State) : State :=
  let identity := if full || reload then loadCopy s.mc.copy else s.mc.identity
  let s₁ : State :=
    { s with
      layout := if full then Layout.initial else s.layout
      roster := []
      mq := { s.mq with moves := [], arrivals := 0 }
      asu := { s.asu with passDue := false, preempts := [] }
      bxu := Bxu.initial
      tli := { Tli.initial with
        line := s.tli.line.map fun f => { f with link := .severed, carried := [] }, answer := s.tli.answer }
      fli := { Fli.initial with sent := s.fli.sent }
      su := Su.initial
      mc := { s.mc with mode := .parked, haltInput := s.board.haltPin, haltPending := false, identity := identity
                        write := none, check := none } }
  clearReservations s₁

/-- A RESTART of the kind `full`; the reload flag is read only for KEEP-LAYOUT. -/
def serveRestart (full : Bool) (_ : FloorFrame) (reload : Bool) (s : State) : State × Option Reply :=
  done (restart full reload s)

def restartRow (code : Nat) (full : Bool) (s : State) : State :=
  serveRequest (isKindWith kindRestart code) (withPayload readRestart (serveRestart full)) s

def execRestartKeepLayout (s : State) : Host.Outcome State Fault Refusal := .next (restartRow 0 false s)
def execRestartFull (s : State) : Host.Outcome State Fault Refusal := .next (restartRow 1 true s)

/-- The state of R185, on the present board, with the Identity record loaded from the present copy. -/
def startUp (s : State) : State :=
  { State.reset with
    board := s.board
    mq := { State.reset.mq with ageAt := s.now + 10 }
    asu := { State.reset.asu with dispatchAt := s.now + 10 }
    mc := { State.reset.mc with haltInput := s.board.haltPin, identity := loadCopy s.mc.copy, copy := s.mc.copy }
    pending := s.pending }

/-- While the pin is asserted every unit is held still and ALARM is released; frames in progress are lost (R185). -/
def resetAsserted (s : State) : State :=
  let s₁ := cutWrite s
  { s₁ with
    board := { s₁.board with resetPin := true }
    su := { s₁.su with alarm := false }
    tli := { s₁.tli with line := none } }

def execResetPinAsserted (s : State) : Host.Outcome State Fault Refusal :=
  .next (if s.running then resetAsserted s else s.updBoard fun b => { b with resetPin := true })

/-- The release gives the state of R185 where the supply is present. -/
def execResetPinReleased (s : State) : Host.Outcome State Fault Refusal :=
  let t := s.updBoard fun b => { b with resetPin := false }
  .next (if s.board.power && s.board.resetPin then startUp t else t)

/-- Power is first applied (R185). -/
def execPowerOn (s : State) : Host.Outcome State Fault Refusal :=
  .next (if s.board.power then s else startUp (s.updBoard fun b => { b with power := true }))

/-- The supply goes: a write of the copy is cut, the pins are not driven (R182, log 10). -/
def powerLost (s : State) : State :=
  let s₁ := cutWrite s
  { s₁ with
    board := { s₁.board with power := false }
    su := { s₁.su with alarm := false }
    tli := { s₁.tli with line := none } }

def execLossOfPower (s : State) : Host.Outcome State Fault Refusal :=
  .next (if s.board.power then powerLost s else s)

end Sys2Proof.Machine
end

