-- ==== Sys2Proof/Machine/Dispatch.lean ====
section
/-! DEFINITION. One arm per command, each one call of its meaning. -/

namespace Sys2Proof.Machine

def exec (i : Instr) (s : State) : Host.Outcome State Fault Refusal :=
  match i with
  | .move => Sys2Proof.Machine.execMove s
  | .cancel => Sys2Proof.Machine.execCancel s
  | .forget => Sys2Proof.Machine.execForget s
  | .block => Sys2Proof.Machine.execBlock s
  | .unblock => Sys2Proof.Machine.execUnblock s
  | .loadSegment => Sys2Proof.Machine.execLoadSegment s
  | .loadZone => Sys2Proof.Machine.execLoadZone s
  | .loadPort => Sys2Proof.Machine.execLoadPort s
  | .loadRoute => Sys2Proof.Machine.execLoadRoute s
  | .loadExit => Sys2Proof.Machine.execLoadExit s
  | .loadTuning => Sys2Proof.Machine.execLoadTuning s
  | .loadCap => Sys2Proof.Machine.execLoadCap s
  | .loadSeverity => Sys2Proof.Machine.execLoadSeverity s
  | .activate => Sys2Proof.Machine.execActivate s
  | .activationCheckComplete => Sys2Proof.Machine.execActivationCheckComplete s
  | .modeDispatching => Sys2Proof.Machine.execModeDispatching s
  | .modeHalted => Sys2Proof.Machine.execModeHalted s
  | .modeParked => Sys2Proof.Machine.execModeParked s
  | .queryVehicle => Sys2Proof.Machine.execQueryVehicle s
  | .queryMove => Sys2Proof.Machine.execQueryMove s
  | .querySegment => Sys2Proof.Machine.execQuerySegment s
  | .queryZone => Sys2Proof.Machine.execQueryZone s
  | .queryRosterList => Sys2Proof.Machine.execQueryRosterList s
  | .queryMoveList => Sys2Proof.Machine.execQueryMoveList s
  | .queryStatusFlags => Sys2Proof.Machine.execQueryStatusFlags s
  | .queryIdentity => Sys2Proof.Machine.execQueryIdentity s
  | .queryMode => Sys2Proof.Machine.execQueryMode s
  | .clear => Sys2Proof.Machine.execClear s
  | .restartKeepLayout => Sys2Proof.Machine.execRestartKeepLayout s
  | .restartFull => Sys2Proof.Machine.execRestartFull s
  | .identify => Sys2Proof.Machine.execIdentify s
  | .nonvolatileWriteComplete => Sys2Proof.Machine.execNonvolatileWriteComplete s
  | .unknownRequestKind => Sys2Proof.Machine.execUnknownRequestKind s
  | .claim => Sys2Proof.Machine.execClaim s
  | .claimGrant => Sys2Proof.Machine.execClaimGrant s
  | .claimRefuse => Sys2Proof.Machine.execClaimRefuse s
  | .claimWithdraw => Sys2Proof.Machine.execClaimWithdraw s
  | .arrived => Sys2Proof.Machine.execArrived s
  | .abandon => Sys2Proof.Machine.execAbandon s
  | .floorFrameArrival bs => Sys2Proof.Machine.execFloorFrameArrival bs s
  | .floorFrameSent => Sys2Proof.Machine.execFloorFrameSent s
  | .trackFrameReceived r => Sys2Proof.Machine.execTrackFrameReceived r s
  | .join => Sys2Proof.Machine.execJoin s
  | .position => Sys2Proof.Machine.execPosition s
  | .statusConfirm => Sys2Proof.Machine.execStatusConfirm s
  | .statusHoistStart => Sys2Proof.Machine.execStatusHoistStart s
  | .statusHoistDone => Sys2Proof.Machine.execStatusHoistDone s
  | .statusHoistFault => Sys2Proof.Machine.execStatusHoistFault s
  | .statusFault => Sys2Proof.Machine.execStatusFault s
  | .statusCleared => Sys2Proof.Machine.execStatusCleared s
  | .sendGrant => Sys2Proof.Machine.execSendGrant s
  | .sendAssign => Sys2Proof.Machine.execSendAssign s
  | .sendWithdraw => Sys2Proof.Machine.execSendWithdraw s
  | .sendHold => Sys2Proof.Machine.execSendHold s
  | .sendAllHold => Sys2Proof.Machine.execSendAllHold s
  | .sendResume => Sys2Proof.Machine.execSendResume s
  | .sendRollcall => Sys2Proof.Machine.execSendRollcall s
  | .engineFrameOutcome outcome => Sys2Proof.Machine.execEngineFrameOutcome outcome s
  | .lastHeardDeadline vehicle => Sys2Proof.Machine.execLastHeardDeadline vehicle s
  | .confirmDeadline move => Sys2Proof.Machine.execConfirmDeadline move s
  | .claimDeadline tag => Sys2Proof.Machine.execClaimDeadline tag s
  | .arrivalDeadline cell tag => Sys2Proof.Machine.execArrivalDeadline cell tag s
  | .ageTimer => Sys2Proof.Machine.execAgeTimer s
  | .dispatchTimer => Sys2Proof.Machine.execDispatchTimer s
  | .dispatchPass => Sys2Proof.Machine.execDispatchPass s
  | .haltInputAsserted => Sys2Proof.Machine.execHaltInputAsserted s
  | .haltInputReleased => Sys2Proof.Machine.execHaltInputReleased s
  | .resetPinAsserted => Sys2Proof.Machine.execResetPinAsserted s
  | .resetPinReleased => Sys2Proof.Machine.execResetPinReleased s
  | .powerOn => Sys2Proof.Machine.execPowerOn s
  | .lossOfPower => Sys2Proof.Machine.execLossOfPower s

end Sys2Proof.Machine
end

