-- ==== Sys2Proof/Safety.lean ====
section
/-! DEFINITION. What always holds of the engine: capacities, bookkeeping and mode rules. -/

namespace Sys2Proof.Machine

/-! ### Stores that any handling may change -/

/-- Slots below 64 in rising order, distinct vehicle ids, WITHDRAW lists of at most 6 ids (R65, R151). -/
structure RosterOk (r : Table Vehicle) : Prop where
  sorted : TableWf r
  slots : ∀ p ∈ r, p.1 < Config.rosterMax
  ids : (r.map (·.2.id)).Nodup
  withdraws : ∀ p ∈ r, p.2.due.withdraw.length ≤ Config.withdrawMax

/-- At most 128 records with distinct ids, the arrival count within its top (R88, R89). -/
structure MovesOk (q : MoveQueue) : Prop where
  size : q.moves.length ≤ Config.movesMax
  ids : (q.moves.map (·.id)).Nodup
  arrivals : q.arrivals ≤ Config.arrivalsTop

/-- A confirm deadline is present exactly in ASSIGNED, running in DISPATCHING and SUSPENDED otherwise (R99). -/
def ConfirmFits (md : Mode) (x : Move) : Prop :=
  match x.confirm with
  | .absent => x.state ≠ .assigned
  | .suspended => x.state = .assigned ∧ md ≠ .dispatching
  | .at _ => x.state = .assigned ∧ md = .dispatching

/-- Wait lists of at most 4 entries (R33). -/
def WaitsOk (t : Table SegRes) : Prop := ∀ p ∈ t, p.2.waits.length ≤ Config.waitListMax

/-- Outgoing entries have tags 1 to 255, and no two the same tag, segment or vehicle; no two incoming entries have the
same cell and tag, or the same vehicle (R129, R137). -/
structure ClaimsOk (b : Bxu) : Prop where
  tags : ∀ e ∈ b.outClaims, 1 ≤ e.tag ∧ e.tag ≤ 255
  outTags : (b.outClaims.map (·.tag)).Nodup
  segments : (b.outClaims.map (·.segment)).Nodup
  vehicles : (b.outClaims.map (·.vehicle)).Nodup
  inKeys : (b.inClaims.map fun c => (c.cell, c.tag)).Nodup
  inVehicles : (b.inClaims.map (·.vehicle)).Nodup

/-! ### Segments, vehicles and claims agree -/

/-- The vehicles that hold a segment in its state: the holder, and the second occupant of a note (R21, R43). -/
def Res.named : Res → List Nat
  | .reserved v => [v]
  | .occupied v note => v :: note.toList
  | .blockPending v _ note => v :: note.toList
  | .borrowed v => [v]
  | _ => []

/-- FOREIGN, CLAIMING and BORROWED are the states of a foreign BOUNDARY, the others those of an own segment (R21,
R22). -/
def Res.isForeignKind : Res → Bool
  | .foreign => true
  | .claiming _ => true
  | .borrowed _ => true
  | _ => false

/-- A segment held as RESERVED has no second occupant (R41). -/
def Res.plain (r : Res) : Prop := ∀ v w, r ≠ .blockPending v .reserved (some w)

/-- The reservation state a table gives segment `i`. -/
def resIn (t : Table SegRes) (i : Nat) : Option Res := (tget i t).map (·.res)

/-- The vehicles that segment `i` names. -/
def namedIn (t : Table SegRes) (i : Nat) : List Nat := ((resIn t i).map Res.named).getD []

/-- The held list of vehicle `v`. -/
def heldIn (r : Table Vehicle) (v : Nat) : List Nat := ((r.find? fun p => p.2.id == v).map (·.2.held)).getD []

/-- An entry for vehicle `v` and segment `i`, GRANTED or not. -/
def HasEntry (b : Bxu) (v i : Nat) (granted : Prop) : Prop :=
  ∃ e ∈ b.outClaims, e.segment = i ∧ e.vehicle = v ∧ (e.phase = .granted ↔ granted)

/-- The reservation table, the held lists and the claims agree. A vehicle has a segment in its held list, once, exactly
where the segment names it (R21, R23, R43). A segment is CLAIMING exactly where a claim in phase CLAIMING stands, and
BORROWED only under a GRANTED one (R129). Claims are for foreign BOUNDARY segments, and these alone are FOREIGN, CLAIMING
or BORROWED (R21, R22). -/
structure Agree (t : Table SegRes) (r : Table Vehicle) (b : Bxu) (foreign : Nat → Bool) : Prop where
  once : ∀ i, (namedIn t i).Nodup
  listed : ∀ v, (heldIn r v).Nodup
  holds : ∀ v i, i ∈ heldIn r v ↔ v ∈ namedIn t i
  claiming : ∀ v i, resIn t i = some (.claiming v) ↔ HasEntry b v i False
  borrowed : ∀ v i, resIn t i = some (.borrowed v) → HasEntry b v i True
  kinds : ∀ i q, resIn t i = some q → q.isForeignKind = foreign i
  plain : ∀ i q, resIn t i = some q → q.plain
  claims : ∀ e ∈ b.outClaims, ∃ q, resIn t e.segment = some q ∧ q.isForeignKind = true

/-- What every operation keeps, store by store. -/
structure Stores (s : State) : Prop where
  segments : (s.srt.map (·.1)).Pairwise (· < ·)
  flags : TableWf s.su.flags
  strays : TableWf s.tli.strayHolds
  roster : RosterOk s.roster
  moves : MovesOk s.mq
  confirm : ∀ x ∈ s.mq.moves, ConfirmFits s.mode x
  waits : WaitsOk s.srt
  claims : ClaimsOk s.bxu
  outClaims : s.bxu.outClaims.length ≤ Config.outClaimsMax
  inClaims : s.bxu.inClaims.length ≤ Config.inClaimsMax
  occupancy : occupancy s ≤ Config.outboundMax
  passDue : s.asu.passDue = true → s.mode = .dispatching
  deferred : s.asu.haltDeferred = true → s.asu.passRunning = true

/-- What every handling keeps: the stores one by one, and their agreement. -/
structure Sound (s : State) : Prop extends Stores s where
  agree : Agree s.srt s.roster s.bxu (isForeign s)

/-- The ALARM output of a running engine follows the flags and the map (R171). -/
def AlarmOk (s : State) : Prop := s.running = true → s.su.alarm = alarmDue s

/-! ### Between steps -/

/-- While PARKED no dispatch state is held, and every loaded segment is FREE or FOREIGN (R22, R66, R94, R127,
R143). -/
structure ParkedClear (s : State) : Prop where
  roster : s.roster = []
  moves : s.mq.moves = []
  outClaims : s.bxu.outClaims = []
  inClaims : s.bxu.inClaims = []
  preempts : s.asu.preempts = []
  strayHolds : s.tli.strayHolds = []
  haltPending : s.mc.haltPending = false
  srt : s.srt = (clearReservations s).srt

/-- Reply reservations: one for the ACTIVATE whose check runs, one for the IDENTIFY whose write runs (R161). -/
def openAnswers (s : State) : Nat := (if s.mc.check.isSome then 1 else 0) + (if s.mc.write.isSome then 1 else 0)

/-- The layout tables in canonical form, the Tuning record within its ranges, the floor of POSITION-CONFLICT kept
(R1, R18, R20, R173). -/
structure LayoutOk (l : Layout) : Prop where
  segs : TableWf l.segs
  zones : TableWf l.zones
  ports : TableWf l.ports
  routes : TableWf l.routes ∧ ∀ p ∈ l.routes, p.2 ≠ noRoute
  exits : TableWf l.exits
  tuning : l.tuning.clamped = l.tuning
  caps : TableWf l.caps ∧ ∀ p ∈ l.caps, p.2 < 7
  severity : TableWf l.severity
  conflictLevel : tget EventKind.positionConflict.code l.severity = none

/-- What holds between steps besides `Sound`. -/
structure Settled (s : State) : Prop where
  parked : s.mode = .parked → ParkedClear s
  halt : s.mode = .dispatching → s.effectiveHalt = false
  checkParked : s.mc.check.isSome = true → s.mode = .parked
  writeParked : s.mc.write.isSome = true → s.mode = .parked
  oneAnswer : s.mc.check = none ∨ s.mc.write = none
  noPass : s.asu.passRunning = false
  reservations : s.running = true → s.fli.reservations = openAnswers s
  queue : s.tli.queue.length ≤ Config.trackQueueMax
  inbound : s.fli.inbound.length ≤ Config.inboundMax
  segments : s.srt.map (·.1) = s.layout.segs.map (·.1)
  layout : LayoutOk s.layout

/-- The invariant of the engine. -/
structure Inv (s : State) : Prop where
  sound : Sound s
  alarm : AlarmOk s
  settled : Settled s

end Sys2Proof.Machine
end

