-- ==== Sys2Proof/Certificates/Slice0/Obligations.lean ====
section
/-! DEFINITION. The statements for the provers. -/

open Sys2Proof Sys2Proof.Machine

namespace Sys2Proof.Says

/-! ### Vocabulary -/

/-- The FLI takes frame `f`, with `rest` behind it, now (R160). -/
abbrev Takes (s : State) (f : FloorFrame) (rest : List FloorFrame) : Prop :=
  s.running = true ∧ s.fli.inbound = f :: rest ∧ occupancy s < 64 ∧ s.mc.write = none

/-- The cell number is set and the engine is not PARKED. -/
abbrev InService (s : State) : Prop := s.mc.identity.cell ≠ none ∧ s.mode ≠ .parked

/-- A frame of an engine in state `t` (R163, R189). -/
def frameOf (t : State) (dst kind tag : Nat) (payload : List Byte) : FloorFrame :=
  { dst := dst, src := t.mc.identity.cell.getD 255, kind := kind, tag := tag, payload := payload }

/-- The REPLY to `f`. -/
def reply (t : State) (f : FloorFrame) (code : Code) (content : List Byte) : FloorFrame :=
  frameOf t f.src 0x60 f.tag ([byte f.kind, byte code.code] ++ content)

/-- `t` with `f` gone from the inbound queue and its REPLY appended: nothing else changes. -/
def answered (t : State) (f : FloorFrame) (rest : List FloorFrame) (code : Code) (content : List Byte) : State :=
  { t with fli := { t.fli with inbound := rest, outbound := t.fli.outbound ++ [reply t f code content] } }

/-- `t` with the REPLY to `f` appended and its reservation closed. -/
def closed (f : FloorFrame) (code : Code) (t : State) : State :=
  { t with fli := { t.fli with reservations := t.fli.reservations - 1
                               outbound := t.fli.outbound ++ [reply t f code []] } }

/-- The REPLY to `f` is the last entry of the outbound queue. -/
abbrev EndsWithReply (t : State) (f : FloorFrame) (code : Code) : Prop :=
  t.fli.outbound.getLast? = some (reply t f code [])

/-- `t` with the front frame gone from the inbound queue. -/
def popped (t : State) (rest : List FloorFrame) : State := { t with fli := { t.fli with inbound := rest } }

/-- A peer frame from a neighbour is taken (R128). -/
abbrev TakesPeer (s : State) (f : FloorFrame) (rest : List FloorFrame) (kind : Nat) : Prop :=
  Takes s f rest ∧ f.kind = kind ∧ f.src ∈ s.mc.identity.neighbours

/-- The VR takes entry `e`, with `rest` behind it, in DISPATCHING or HALTED (R68). -/
abbrev TakesEntry (s : State) (e : TrackEntry) (rest : List TrackEntry) : Prop :=
  s.running = true ∧ s.tli.queue = e :: rest ∧ s.mode ≠ .parked

/-- What a frame handled for a known vehicle that is neither LOST nor ARRIVING finds: the entry gone, the pacing state
up to date, the report pacing flag and the last-heard deadline set (R64, R78, R148, R149). -/
def heard (s : State) (e : TrackEntry) (rest : List TrackEntry) : State :=
  updVehicle e.src (fun x => { x with
      pacing := e.paced
      heardBy := match x.state with
        | .work _ => some (s.board.now + s.layout.tuning.tSilent)
        | .faulted _ => some (s.board.now + s.layout.tuning.tSilent)
        | _ => x.heardBy })
    { s with tli := { s.tli with
        queue := rest
        pacing := if s.tli.pacing then !(rest.length < s.layout.tuning.lresume) else s.layout.tuning.lpace < rest.length } }

/-- No arbitration finds work: the engine is not DISPATCHING, or no wait list has an entry (R35). -/
abbrev Unarbitrated (s : State) : Prop := s.mode ≠ .dispatching ∨ ∀ p ∈ s.srt, p.2.waits = []

/-- A segment in state `q` is in state `r` once vehicle `v` has left it (R26, R43). -/
structure LeftBy (v : Nat) (q r : Res) : Prop where
  reserved : q = .reserved v → r = .free
  occupied : q = .occupied v none → r = .free
  pending : ∀ h, q = .blockPending v h none → r = .blocked
  shared : ∀ w, w ≠ v → q = .occupied v (some w) ∨ q = .occupied w (some v) → r = .occupied w none
  pendingShared : ∀ w h, w ≠ v → q = .blockPending v h (some w) ∨ q = .blockPending w h (some v) →
    r = .blockPending w h none
  borrowed : q = .borrowed v → r = .foreign

/-- A vehicle whose frames reach the rules unrestored: neither LOST nor ARRIVING. -/
abbrev Present (x : Vehicle) : Prop := x.state ≠ .arriving ∧ ∀ w m, x.state ≠ .lost w m

/-- What the handling of an event may change beyond reservations, vehicles, moves, due sets and claims: time only
forward, the mode only to HALTED; entries leave the queues that the engine takes from, frames are only appended to
the outbound queue, and a set flag keeps its record. -/
structure Framed (s t : State) : Prop where
  now : s.board.now ≤ t.board.now
  board : t.board = { s.board with now := t.board.now }
  layout : t.layout = s.layout
  mc : t.mc = s.mc ∨ s.mode = .dispatching ∧ t.mc = { s.mc with mode := .halted }
  segments : t.srt.map (·.1) = s.srt.map (·.1)
  ageAt : t.mq.ageAt = s.mq.ageAt
  dispatchAt : t.asu.dispatchAt = s.asu.dispatchAt
  queue : t.tli.queue.Sublist s.tli.queue
  inbound : t.fli.inbound.Sublist s.fli.inbound
  outbound : s.fli.outbound <+: t.fli.outbound
  reservations : t.fli.reservations = s.fli.reservations
  flags : ∀ k d, tget k s.su.flags = some d → tget k t.su.flags = some d
  pending : t.pending = s.pending

end Sys2Proof.Says

open Sys2Proof.Says

/-! ### The queue of commands -/

/-- A step takes the command at the front of the queue and runs it on the state with the queue's rest. -/
def Obligations.StepRunsFrontCommand : Prop :=
  ∀ (c : Instr) (s : State) (rest : List Instr), s.pending = c :: rest → step s = exec c { s with pending := rest }

/-- On an empty queue 0.1 s passes and nothing else changes. The model's choice (log 3 and 34). -/
def Obligations.StepIdlesOneTick : Prop :=
  ∀ s : State, s.pending = [] → step s = .next { s with board := { s.board with now := s.board.now + 1 } }

/-- No command stops the engine, and no command changes the queue behind it. A command whose event cannot occur leaves
the state instead of refusing (log 1), and the queue is the model's (log 34). -/
def Obligations.CommandsComplete : Prop :=
  ∀ (c : Instr) (s : State), ∃ t, exec c s = .next t ∧ t.pending = s.pending

/-! ### Reset and the invariant -/

/-- The state after power-on with a blank copy, as the chapters' state tables give it (R1, R18, R22, R66, R94, R127,
R129, R143, R147, R150, R154, R160, R161, R173, R174, R175, R182, R185); HALT pin released, time 0, the blank copy and
the empty queue of commands are the model's (log 3, 6, 7 and 34). -/
def Obligations.ResetState : Prop :=
  State.reset.mode = .parked ∧ State.reset.mc.haltPending = false ∧ State.reset.mc.windowClosed = false
    ∧ State.reset.mc.identity = { cell := none, haltEnable := false, neighbours := [] }
    ∧ (∀ i, segment State.reset i = none) ∧ (∀ z, zoneRec State.reset z = none) ∧ (∀ p, portRec State.reset p = none)
    ∧ (∀ a b, route State.reset a b = { time := 4095, desc := none }) ∧ (∀ c, exitSeg State.reset c = none)
    ∧ State.reset.layout.validated = false ∧ State.reset.layout.grantWindow = 3
    ∧ (∀ z, capOf State.reset z = 7) ∧ (∀ k, severityOf State.reset k = k.defaultSeverity)
    ∧ State.reset.layout.tuning =
        { base0 := 30000, base1 := 12000, base2 := 6000, base3 := 0, kage := 16, pz := 40, hd := 120, kmax := 1800
          mpre := 300, w := 3, tSide := 40, tSilent := 30, tConf := 20, tClaim := 20, tHand := 100, lpace := 24
          lresume := 12 }
    ∧ State.reset.srt = [] ∧ State.reset.roster = [] ∧ State.reset.mq.moves = [] ∧ State.reset.mq.arrivals = 0
    ∧ State.reset.asu.passDue = false ∧ State.reset.asu.preempts = []
    ∧ State.reset.bxu = { outClaims := [], lastTag := 0, inClaims := [] }
    ∧ State.reset.tli.queue = [] ∧ State.reset.tli.pacing = false ∧ State.reset.tli.pointer = 63
    ∧ State.reset.tli.allHold = none ∧ State.reset.tli.resume = none ∧ State.reset.tli.rollcall = none
    ∧ State.reset.tli.strayHolds = [] ∧ State.reset.fli.inbound = [] ∧ State.reset.fli.outbound = []
    ∧ State.reset.fli.reservations = 0 ∧ State.reset.su = { flags := [], alarm := false } ∧ State.reset.pending = []

/-- The invariant holds at reset. -/
def Obligations.ResetInv : Prop := Inv State.reset

/-- Every step keeps the invariant. -/
def Obligations.StepKeepsInv : Prop := ∀ s t : State, Inv s → step s = .next t → Inv t

/-! ### MOVE, CANCEL, FORGET, BLOCK, UNBLOCK -/

namespace Sys2Proof.Says

/-- The payload of a MOVE (R189). -/
def movePayload (m c p d k : Nat) : List Byte := bytes2 m ++ bytes4 c ++ [byte p] ++ bytes2 d ++ [byte k]

/-- The fields fit their payload fields. -/
abbrev MoveFields (m c p d k : Nat) : Prop := m < 65536 ∧ c < 4294967296 ∧ p < 256 ∧ d < 65536 ∧ k < 256

/-- The destination is a present port of cell `n`, or lies in a cell with an exit entry (R95 cases 5 and 6). -/
abbrev Reachable (s : State) (n d : Nat) : Prop :=
  if d / 256 = n then portRec s (d - n * 256) ≠ none else exitSeg s (d / 256) ≠ none

end Sys2Proof.Says

/-- A MOVE taken as a new move (R95, R96): the record appended, the pass-due flag set in DISPATCHING, REPLY DONE. The
record takes the arrival count as it stands, so the first arrival has sequence value 0 (log 19). -/
def Obligations.MoveTakenAsNew : Prop :=
  ∀ (s : State) (f : FloorFrame) (rest : List FloorFrame) (n m c p d k : Nat),
    Takes s f rest → f.kind = 0x20 → f.payload = movePayload m c p d k → MoveFields m c p d k →
    s.mc.identity.cell = some n → s.mode ≠ .parked → 1 ≤ m → 1 ≤ c → d ≤ 16383 → k ≤ 3 →
    portRec s p ≠ none → Reachable s n d → findMove s m = none → s.mq.moves.length < 128 →
    exec .move s = .next (answered
      { s with
        mq := { s.mq with
          moves := s.mq.moves ++
            [{ id := m, carrier := c, source := some p, dest := some d, cls := k, age := 0, seq := s.mq.arrivals
               state := .waiting, vehicle := none, confirm := .absent, returnFlag := false, urgency := 0 }]
          arrivals := if s.mq.arrivals < 4294967295 then s.mq.arrivals + 1 else s.mq.arrivals }
        asu := { s.asu with passDue := s.asu.passDue || decide (s.mode = .dispatching) } }
      f rest .done [])

namespace Sys2Proof.Says

/-- The refusal of a MOVE, in the order of R95; none where it is taken or adopts. -/
def moveRefusal (s : State) (m c p d k : Nat) : Option Code :=
  match s.mc.identity.cell with
  | none => some .refusedState
  | some n =>
    if s.mode = .parked then some .refusedState
    else if m = 0 ∨ 3 < k ∨ 255 < p ∨ 16383 < d then some .refusedRange
    else if portRec s p = none then some .refusedRange
    else if ¬ Reachable s n d then some .refusedRange
    else
      match findMove s m with
      | some x => if x.state = .unrouted ∧ x.carrier = c then none else some .refusedDuplicate
      | none => if c = 0 then some .refusedRange else if 128 ≤ s.mq.moves.length then some .refusedFull else none

end Sys2Proof.Says

/-- A refused MOVE changes nothing but the queues, and its code is the first case of R95 that applies. -/
def Obligations.MoveRefusedInOrder : Prop :=
  ∀ (s : State) (f : FloorFrame) (rest : List FloorFrame) (m c p d k : Nat) (code : Code),
    Takes s f rest → f.kind = 0x20 → f.payload = movePayload m c p d k → MoveFields m c p d k →
    moveRefusal s m c p d k = some code → exec .move s = .next (answered s f rest code [])

/-- A MOVE adopts the UNROUTED record of its id and carrier (R97): the fields of the request, CARRYING, everything
else of the record kept. -/
def Sys2Proof.Says.MoveAdopts : Prop :=
  ∀ (s : State) (f : FloorFrame) (rest : List FloorFrame) (n m c p d k : Nat) (x : Move),
    Takes s f rest → f.kind = 0x20 → f.payload = movePayload m c p d k → MoveFields m c p d k →
    s.mc.identity.cell = some n → s.mode ≠ .parked → 1 ≤ m → d ≤ 16383 → k ≤ 3 →
    portRec s p ≠ none → Reachable s n d → findMove s m = some x → x.state = .unrouted → x.carrier = c →
    ∃ t, exec .move s = .next t ∧ EndsWithReply t f .done
      ∧ findMove t m = some { x with source := some p, dest := some d, cls := k, returnFlag := false
                                     state := .carrying, confirm := .absent }

namespace Sys2Proof.Says

/-- `k` steps along first successors (R53). -/
def along (s : State) : Nat → Nat → Option Nat
  | 0, a => some a
  | k + 1, a => (along s k a).bind fun b => (segment s b).map (·.succ0)

/-- Segments 1 to `k` of the walk from `a` are loaded, none is a foreign BOUNDARY, and before step `k` the walk does not
stand at `b`. -/
abbrev OnTheWay (s : State) (a b k : Nat) : Prop :=
  (∀ j, j < k → ∃ i, along s j a = some i ∧ i ≠ b ∧ (1 ≤ j → isForeign s i = false))

/-- The walk from `a` reaches `b` with its `k`-th segment (R53). -/
def Walks (s : State) (a b k : Nat) : Prop :=
  k ≤ 255 ∧ OnTheWay s a b k ∧ along s k a = some b ∧ (1 ≤ k → isForeign s b = false)

/-- The walk from `a` meets a foreign BOUNDARY with its `k`-th segment before it reaches `b` (R53). The 255th segment is
left out: which cause wins there is the model's choice (log 37). -/
def WalksForeign (s : State) (a b k : Nat) : Prop :=
  1 ≤ k ∧ k ≤ 254 ∧ OnTheWay s a b k ∧ ∃ i, along s k a = some i ∧ isForeign s i = true

/-- The walk from `a` takes 255 segments and does not reach `b` (R53). -/
def WalksOn (s : State) (a b : Nat) : Prop := OnTheWay s a b 256

/-- What every build knows before its walks (R51). -/
def begunPath (purpose : Purpose) (target s0 approach : Nat) (fin : Option Nat) (pair : Option (Nat × Nat)) : Path :=
  { Path.empty with
    purpose := purpose, target := some target, start := some s0, approach := some approach, finalSeg := fin
    routePair := pair, cursor := some s0 }

/-- A path of one walk of `k` segments (R51, R52). -/
def walkPath (purpose : Purpose) (target s0 k : Nat) : Path :=
  { begunPath purpose target s0 target none none with
    condition := .built, walkLen := k, remaining := k, leg := some (if k = 0 then .done else .walk) }

/-- A path of lead-in, route and lead-out between two zones (R51, R52). -/
def routePath (purpose : Purpose) (target s0 a b leadIn route leadOut : Nat) : Path :=
  { begunPath purpose target s0 target none (some (a, b)) with
    condition := .built, leadInLen := leadIn, routeLen := route, leadOutLen := leadOut
    remaining := leadIn + route + leadOut, leg := some (if leadIn + route + leadOut = 0 then .done else .leadIn) }

/-- A path through the exit `ex` behind `p` (R50, R51, R62). -/
def exitPath (ex s0 p k : Nat) : Path :=
  { begunPath .exit ex s0 p (some ex) none with
    condition := .built, walkLen := k, finalLen := 1, remaining := k + 1, leg := some .walk }

/-- The path of a vehicle that stands at `s0` (R50, R51). -/
def standingPath (s0 : Nat) : Path :=
  { begunPath .stand s0 s0 s0 none none with condition := .standing, leg := some .done }

/-- `path` is what a build for `purpose` from `s0` to `g` sets: one walk in one zone, or lead-in, route and lead-out
between two; BROKEN with its cause where a walk or the route fails (R51 to R55). A BROKEN record keeps what was known
before the walks (log 18). -/
def LeadsTo (s : State) (purpose : Purpose) (s0 g : Nat) (path : Path) : Prop :=
  ∀ a b, zoneOf s s0 = some a → zoneOf s g = some b →
    (a = b →
      (∀ k, Walks s s0 g k → path = walkPath purpose g s0 k) ∧
      (∀ k, WalksForeign s s0 g k → path = { begunPath purpose g s0 g none none with condition := .broken .walkForeign }) ∧
      (WalksOn s s0 g → path = { begunPath purpose g s0 g none none with condition := .broken .walkLimit })) ∧
    (∀ za zb li, a ≠ b → zoneRec s a = some za → zoneRec s b = some zb → Walks s s0 za.anchor li →
      (∀ desc lo, (route s a b).desc = some desc → Walks s zb.entrySeg g lo →
        path = routePath purpose g s0 a b li (desc.runLen * desc.runs * desc.legs) lo) ∧
      ((route s a b).desc = none →
        path = { begunPath purpose g s0 g none (some (a, b)) with condition := .broken .noRoute }))

/-- A MOVE adopts record `x` in HALTED, on the LADEN vehicle `v` at the one segment `s0` it holds. -/
abbrev AdoptsAt (s : State) (f : FloorFrame) (rest : List FloorFrame) (n d v s0 : Nat) : Prop :=
  ∃ m c p k x u, Takes s f rest ∧ f.kind = 0x20 ∧ f.payload = movePayload m c p d k ∧ MoveFields m c p d k
    ∧ s.mc.identity.cell = some n ∧ s.mode = .halted ∧ 1 ≤ m ∧ d ≤ 16383 ∧ k ≤ 3 ∧ portRec s p ≠ none ∧ Reachable s n d
    ∧ findMove s m = some x ∧ x.state = .unrouted ∧ x.carrier = c ∧ x.vehicle = some v ∧ vehicle s v = some u
    ∧ u.state = .work .laden ∧ u.move = some m ∧ u.held = [s0]

/-- The adoption leaves vehicle `v` at `s0` with a path that `p` describes, PATH-FAULT raised where it is BROKEN. -/
def PathSet (s : State) (v s0 : Nat) (p : Path → Prop) : Prop :=
  ∃ t y, exec .move s = .next t ∧ vehicle t v = some y ∧ p y.path ∧ y.held = [s0]
    ∧ ((∃ c, y.path.condition = .broken c) → flagSet t .pathFault = true)

/-- The path record an adoption builds (R49 to R53, R55, R62): to a port of the same zone, of another zone, or through an
exit; BROKEN with its cause where a walk or the route fails. A BROKEN record keeps what was known before the walks
(log 18). -/
def AdoptedPathBuilt : Prop :=
  ∀ (s : State) (f : FloorFrame) (rest : List FloorFrame) (n d v s0 a : Nat), AdoptsAt s f rest n d v s0 →
    zoneOf s s0 = some a →
    (∀ g, d / 256 = n → portRec s (d % 256) = some g → PathSet s v s0 (LeadsTo s .destination s0 g.segment)) ∧
    ∀ x p, d / 256 ≠ n → exitSeg s (d / 256) = some x → predecessors s x = [p] → zoneOf s p = some a →
      ∀ k, Walks s s0 p k → PathSet s v s0 (· = exitPath x s0 p k)

end Sys2Proof.Says

/-- What an adopting MOVE does to the record, and the path its vehicle then has. -/
def Obligations.MoveAdoptsUnrouted : Prop := Says.MoveAdopts ∧ Says.AdoptedPathBuilt

/-- CANCEL by the state of the move (R108). Of an ASSIGNED move the preemption list names it no more (R123, R126). -/
def Obligations.CancelByState : Prop :=
  ∀ (s : State) (f : FloorFrame) (rest : List FloorFrame) (m : Nat),
    Takes s f rest → f.kind = 0x21 → f.payload = bytes2 m → m < 65536 → InService s →
    (m = 0 → exec .cancel s = .next (answered s f rest .refusedRange [])) ∧
    (1 ≤ m → findMove s m = none → exec .cancel s = .next (answered s f rest .unknown [])) ∧
    ∀ x, 1 ≤ m → findMove s m = some x →
      (x.state = .waiting → exec .cancel s = .next (closed f .done
        (reportMove m .cancelled (x.vehicle.getD 0) x.age (deleteMove m (openRequest rest s))))) ∧
      (x.state = .assignedNext → ∃ t, exec .cancel s = .next t ∧ EndsWithReply t f .done ∧ findMove t m = none
        ∧ ∀ u y, x.vehicle = some u → vehicle s u = some y → vehicle t u = some { y with nextMove := none }) ∧
      (x.state = .assigned ∨ x.state = .enroute →
        ∃ t, exec .cancel s = .next t ∧ EndsWithReply t f .done ∧ findMove t m = none
        ∧ (∀ q ∈ t.asu.preempts, q.newMove ≠ m)
        ∧ ∀ u y, x.vehicle = some u → vehicle s u = some y → ∃ z, vehicle t u = some z ∧ z.move = none
          ∧ z.state = (y.setWork .idle).state ∧ m ∈ z.due.withdraw ∧ z.due.assign = none) ∧
      (x.state = .picking → exec .cancel s = .next (closed f .done
        (reportMove m (.now .cancelling) (x.vehicle.getD 0) x.age
          (setMove m (fun _ => { x with state := .cancelling, confirm := .absent }) (openRequest rest s))))) ∧
      (x.state = .carrying ∨ x.state = .delivering ∨ x.state = .cancelling ∨ x.state = .unrouted →
        exec .cancel s = .next (answered s f rest .refusedLaden []))

/-- With the cell number unset or in PARKED the five dispatch requests are refused and change nothing (R163). -/
def Obligations.DispatchRequestsRefused : Prop :=
  ∀ (s : State) (f : FloorFrame) (rest : List FloorFrame) (c : Instr) (kind size : Nat),
    Takes s f rest → s.mc.identity.cell = none ∨ s.mode = .parked →
    (c, kind, size) ∈ [(Instr.move, 0x20, 10), (.cancel, 0x21, 2), (.forget, 0x22, 1), (.block, 0x23, 2),
      (.unblock, 0x24, 2)] →
    f.kind = kind → f.payload.length = size → exec c s = .next (answered s f rest .refusedState [])

/-- FORGET (R85, R86): the record goes, its move with it and what the preemption list says of that move (R123, R126); its
next move waits again with its age. A record under the
same id afterwards is an ARRIVING one that the arbitration which follows made. -/
def Obligations.ForgetRemovesVehicle : Prop :=
  ∀ (s : State) (f : FloorFrame) (rest : List FloorFrame) (v : Nat),
    Takes s f rest → f.kind = 0x22 → f.payload = [byte v] → v < 256 → InService s →
    (v = 0 ∨ v = 255 → exec .forget s = .next (answered s f rest .refusedRange [])) ∧
    (1 ≤ v → v ≤ 254 → vehicle s v = none → exec .forget s = .next (answered s f rest .unknown [])) ∧
    ∀ x, 1 ≤ v → v ≤ 254 → vehicle s v = some x →
      ∃ t, exec .forget s = .next t ∧ EndsWithReply t f .done
        ∧ (∀ y, vehicle t v = some y → y.state = .arriving)
        ∧ (x.state ≠ .arriving → ∀ m, x.move = some m → findMove t m = none
            ∧ (findMove s m ≠ none → ∀ q ∈ t.asu.preempts, q.newMove ≠ m))
        ∧ (x.state ≠ .arriving → ∀ n y, x.nextMove = some n → x.move ≠ some n → findMove s n = some y →
            ∃ z, findMove t n = some z ∧ z.state = .waiting ∧ z.vehicle = none ∧ z.age = y.age)

/-- BLOCK and UNBLOCK of an own segment (R38 to R40), for a Segment Reservation Table in canonical form. -/
def Sys2Proof.Says.ClosuresTaken : Prop :=
  ∀ (s : State) (f : FloorFrame) (rest : List FloorFrame) (i : Nat) (r : SegRes),
    Takes s f rest → f.payload = bytes2 i → i ≤ 1023 → InService s → isOwn s i = true → resRec s i = some r →
    (s.srt.map (·.1)).Pairwise (· < ·) →
    (f.kind = 0x23 →
      (r.res = .free → exec .block s = .next (answered (setRes i .blocked s) f rest .done [])) ∧
      (∀ v, r.res = .reserved v →
        exec .block s = .next (answered (setRes i (.blockPending v .reserved none) s) f rest .done [])) ∧
      (∀ v n, r.res = .occupied v n →
        exec .block s = .next (answered (setRes i (.blockPending v .occupied n) s) f rest .done [])) ∧
      (r.res = .blocked ∨ (∃ v h n, r.res = .blockPending v h n) →
        exec .block s = .next (answered s f rest .done []))) ∧
    (f.kind = 0x24 →
      (r.res = .blocked → exec .unblock s = .next (closed f .done (run [.arb i] (setRes i .free (openRequest rest s))))) ∧
      (r.res = .blocked → r.waits = [] → exec .unblock s = .next (answered (setRes i .free s) f rest .done [])) ∧
      (∀ v n, r.res = .blockPending v .reserved n →
        exec .unblock s = .next (answered (setRes i (.reserved v) s) f rest .done [])) ∧
      (∀ v n, r.res = .blockPending v .occupied n →
        exec .unblock s = .next (answered (setRes i (.occupied v n) s) f rest .done [])) ∧
      (r.res = .free ∨ (∃ v, r.res = .reserved v) ∨ (∃ v n, r.res = .occupied v n) →
        exec .unblock s = .next (answered s f rest .done [])))

/-- A BLOCK or UNBLOCK of an index above 1023 or of an ABSENT segment is REFUSED-RANGE, of a foreign segment
REFUSED-STATE (R38); nothing changes. -/
def Sys2Proof.Says.ClosuresRefused : Prop :=
  ∀ (s : State) (f : FloorFrame) (rest : List FloorFrame) (c : Instr) (kind i : Nat),
    (c, kind) ∈ [(Instr.block, 0x23), (.unblock, 0x24)] → Takes s f rest → f.kind = kind → f.payload = bytes2 i →
    i < 65536 → InService s →
    (1023 < i ∨ segment s i = none → exec c s = .next (answered s f rest .refusedRange [])) ∧
    (i ≤ 1023 → isForeign s i = true → exec c s = .next (answered s f rest .refusedState []))

/-- BLOCK and UNBLOCK. -/
def Obligations.BlockAndUnblock : Prop := Says.ClosuresTaken ∧ Says.ClosuresRefused

/-! ### LOAD (R2 to R9, R18, R20, R22, R173) -/

namespace Sys2Proof.Says

/-- Selector, index and record of a LOAD (R189). -/
def loadPayload (sel i : Nat) (record : List Byte) : List Byte := byte sel :: (bytes2 i ++ record)

/-- A layout LOAD is taken: cell number set, no check running, PARKED. -/
abbrev TakesLayout (s : State) (f : FloorFrame) (rest : List FloorFrame) (sel i : Nat) (record : List Byte) : Prop :=
  Takes s f rest ∧ f.kind = 0x25 ∧ f.payload = loadPayload sel i record ∧ s.mc.identity.cell ≠ none
    ∧ s.mc.check = none ∧ s.mode = .parked

/-- A TUNING, CAP or SEVERITY LOAD is taken in every mode. -/
abbrev TakesTable (s : State) (f : FloorFrame) (rest : List FloorFrame) (sel i : Nat) (record : List Byte) : Prop :=
  Takes s f rest ∧ f.kind = 0x25 ∧ f.payload = loadPayload sel i record ∧ s.mc.identity.cell ≠ none ∧ s.mc.check = none

/-- The fields of a segment record as a frame carries them. -/
structure SegFields where
  kind : Nat
  zone : Nat
  succ0 : Nat
  succ1 : Nat
  mainPred : Nat
  speed : Nat
  owner : Nat

def SegFields.bytes (x : SegFields) : List Byte :=
  [byte x.kind, byte x.zone] ++ bytes2 x.succ0 ++ bytes2 x.succ1 ++ bytes2 x.mainPred ++ [byte x.speed, byte x.owner]

/-- Every field fits its place in the frame, and those every present kind has are in range. -/
abbrev SegFields.Fits (x : SegFields) : Prop :=
  x.kind < 256 ∧ x.zone ≤ 31 ∧ x.succ0 ≤ 1023 ∧ x.succ1 < 65536 ∧ x.mainPred < 65536 ∧ x.speed ≤ 7 ∧ x.owner < 256

/-- Every field fits its place in the frame. -/
abbrev SegFields.Carried (x : SegFields) : Prop :=
  x.kind < 256 ∧ x.zone < 256 ∧ x.succ0 < 65536 ∧ x.succ1 < 65536 ∧ x.mainPred < 65536 ∧ x.speed < 256 ∧ x.owner < 256

/-- The form a record of a present kind takes (R3). -/
def SegFields.HasForm (x : SegFields) (form : SegForm) : Prop :=
  (x.kind = 1 ∧ form = .plain) ∨ (x.kind = 2 ∧ x.succ1 ≤ 1023 ∧ form = .diverge x.succ1)
    ∨ (x.kind = 3 ∧ x.mainPred ≤ 1023 ∧ form = .merge x.mainPred) ∨ (x.kind = 4 ∧ x.owner ≤ 63 ∧ form = .boundary x.owner)

/-- FOREIGN for a BOUNDARY of another cell, FREE for any other kind (R22). -/
def restingRes (cell : Option Nat) : SegForm → Res
  | .boundary o => if cell = some o then .free else .foreign
  | _ => .free

end Sys2Proof.Says

/-- A SEGMENT LOAD stores the record with its reservation state and makes the layout unvalidated; ABSENT removes
both (R2, R3, R22); an unknown kind, or a field of a present kind out of its range, is REFUSED-RANGE (R2). -/
def Obligations.LoadSegmentStores : Prop :=
  ∀ (s : State) (f : FloorFrame) (rest : List FloorFrame) (i : Nat) (x : SegFields),
    TakesLayout s f rest 0 i x.bytes → i ≤ 1023 →
    (∀ form, x.Fits → x.HasForm form → exec .loadSegment s = .next (answered
      { s with
        layout := { s.layout with
          segs := tput i { form := form, zone := x.zone, succ0 := x.succ0, speed := x.speed } s.layout.segs
          validated := false }
        srt := tput i { res := restingRes s.mc.identity.cell form, waits := [] } s.srt }
      f rest .done [])) ∧
    (x.kind = 0 → exec .loadSegment s = .next (answered
      { s with layout := { s.layout with segs := tdrop i s.layout.segs, validated := false }, srt := tdrop i s.srt }
      f rest .done [])) ∧
    (x.kind < 256 → 5 ≤ x.kind → exec .loadSegment s = .next (answered s f rest .refusedRange [])) ∧
    (x.Carried → 1 ≤ x.kind → x.kind ≤ 4 → ¬ (x.Fits ∧ ∃ form, x.HasForm form) →
      exec .loadSegment s = .next (answered s f rest .refusedRange []))

/-- A ZONE LOAD stores the record; the absent marker removes it (R2, R5). That park places beyond the park count are
neither examined nor stored is the model's choice (log 36). -/
def Sys2Proof.Says.LoadZoneStores : Prop :=
  ∀ (s : State) (f : FloorFrame) (rest : List FloorFrame) (z p cap e a n q1 q2 q3 q4 ov : Nat),
    TakesLayout s f rest 1 z ([byte p, byte cap] ++ bytes2 e ++ bytes2 a ++ [byte n] ++ bytes2 q1 ++ bytes2 q2 ++ bytes2 q3
      ++ bytes2 q4 ++ [byte ov]) →
    z ≤ 31 → p < 256 → cap < 256 → e < 65536 → a < 65536 → n < 256 → q1 < 65536 → q2 < 65536 → q3 < 65536 →
    q4 < 65536 → ov < 256 →
    exec .loadZone s = .next (
      if p = 0 then
        answered { s with layout := { s.layout with zones := tdrop z s.layout.zones, validated := false } } f rest .done []
      else if p = 1 ∧ 1 ≤ cap ∧ cap ≤ 64 ∧ e ≤ 1023 ∧ a ≤ 1023 ∧ n ≤ 4 ∧ (∀ q ∈ [q1, q2, q3, q4].take n, q ≤ 1023)
          ∧ (ov ≤ 31 ∨ ov = 255) then
        answered
          { s with layout := { s.layout with
              zones := tput z
                { capacity := cap, entrySeg := e, anchor := a, park := [q1, q2, q3, q4].take n
                  overflow := if ov = 255 then none else some ov } s.layout.zones
              validated := false } } f rest .done []
      else answered s f rest .refusedRange [])

/-- A PORT LOAD and an EXIT LOAD store their record; the absent marker and "none" remove it (R2, R6, R9). -/
def Sys2Proof.Says.LoadPortAndExitStore : Prop :=
  ∀ (s : State) (f : FloorFrame) (rest : List FloorFrame) (i p g k : Nat), p < 256 → g < 65536 → k < 256 →
    (TakesLayout s f rest 2 i ([byte p] ++ bytes2 g ++ [byte k]) → i ≤ 255 →
      exec .loadPort s = .next (
        if p = 0 then
          answered { s with layout := { s.layout with ports := tdrop i s.layout.ports, validated := false } } f rest .done []
        else if p = 1 ∧ g ≤ 1023 ∧ k ≤ 1 then
          answered
            { s with layout := { s.layout with
                ports := tput i { segment := g, kind := if k = 0 then .load else .buffer } s.layout.ports
                validated := false } } f rest .done []
        else answered s f rest .refusedRange [])) ∧
    (TakesLayout s f rest 4 i (bytes2 g) → i ≤ 63 →
      exec .loadExit s = .next (
        if g = 65535 then
          answered { s with layout := { s.layout with exits := tdrop i s.layout.exits, validated := false } } f rest .done []
        else if g ≤ 1023 then
          answered { s with layout := { s.layout with exits := tput i g s.layout.exits, validated := false } } f rest .done []
        else answered s f rest .refusedRange []))

namespace Sys2Proof.Says

/-- The descriptor fields are in range (R7). -/
abbrev InRange (d : Descriptor) : Prop :=
  d.first ≤ 1023 ∧ 1 ≤ d.runLen ∧ d.runLen ≤ 32 ∧ 1 ≤ d.runs ∧ d.runs ≤ 8 ∧ 1 ≤ d.legs ∧ d.legs ≤ 8
    ∧ -512 ≤ d.runStep ∧ d.runStep ≤ 511 ∧ -512 ≤ d.legStep ∧ d.legStep ≤ 511 ∧ d.runLen * d.runs * d.legs ≤ 255

/-- Every field fits its place in the frame. -/
abbrev Carried (d : Descriptor) : Prop :=
  d.first < 65536 ∧ d.runLen < 256 ∧ d.runs < 256 ∧ d.legs < 256 ∧ -32768 ≤ d.runStep ∧ d.runStep < 32768
    ∧ -32768 ≤ d.legStep ∧ d.legStep < 32768

/-- A signed 16-bit field (R186). -/
def signed2 (n : Int) : List Byte := bytes2 (n % 65536).toNat

end Sys2Proof.Says

/-- A ROUTE LOAD for the pair (a, b) (R2, R7). -/
def Sys2Proof.Says.LoadRouteStores : Prop :=
  ∀ (s : State) (f : FloorFrame) (rest : List FloorFrame) (a b t : Nat) (d : Descriptor),
    TakesLayout s f rest 3 (a * 32 + b) (bytes2 t ++ bytes2 d.first ++ [byte d.runLen, byte d.runs, byte d.legs]
      ++ signed2 d.runStep ++ signed2 d.legStep) →
    a ≤ 31 → b ≤ 31 → t < 65536 → Carried d →
    exec .loadRoute s = .next (
      if 4095 < t then answered s f rest .refusedRange []
      else if t = 4095 ∨ a = b then
        answered { s with layout := { s.layout with
          routes := tputD noRoute (a * 32 + b) { time := t, desc := none } s.layout.routes, validated := false } }
          f rest .done []
      else if InRange d then
        answered { s with layout := { s.layout with
          routes := tputD noRoute (a * 32 + b) { time := t, desc := some d } s.layout.routes, validated := false } }
          f rest .done []
      else answered s f rest .refusedRange [])

/-- The LOADs of the Zone, Port, Route and Exit tables. That a ZONE LOAD ignores the park places beyond its count,
whatever they hold, is the model's choice (log 36). -/
def Obligations.LayoutTablesStore : Prop :=
  Says.LoadZoneStores ∧ Says.LoadPortAndExitStore ∧ Says.LoadRouteStores

namespace Sys2Proof.Says

/-- A TUNING record as a frame carries it. -/
def tuningBytes (t : Tuning) : List Byte :=
  bytes2 t.base0 ++ bytes2 t.base1 ++ bytes2 t.base2 ++ bytes2 t.base3 ++ [byte t.kage] ++ bytes2 t.pz ++ [byte t.hd]
    ++ bytes2 t.kmax ++ bytes2 t.mpre
    ++ [byte t.w, byte t.tSide, byte t.tSilent, byte t.tConf, byte t.tClaim, byte t.tHand, byte t.lpace, byte t.lresume]

abbrev Tuning.Carried (t : Tuning) : Prop :=
  t.base0 < 65536 ∧ t.base1 < 65536 ∧ t.base2 < 65536 ∧ t.base3 < 65536 ∧ t.kage < 256 ∧ t.pz < 65536 ∧ t.hd < 256
    ∧ t.kmax < 65536 ∧ t.mpre < 65536 ∧ t.w < 256 ∧ t.tSide < 256 ∧ t.tSilent < 256 ∧ t.tConf < 256 ∧ t.tClaim < 256
    ∧ t.tHand < 256 ∧ t.lpace < 256 ∧ t.lresume < 256

/-- Every field within its range, Lresume within the clamped Lpace (R18). -/
def Tuning.stored (t : Tuning) : Tuning :=
  { base0 := min t.base0 32767, base1 := min t.base1 32767, base2 := min t.base2 32767, base3 := min t.base3 32767
    kage := t.kage, pz := min t.pz 1023, hd := t.hd, kmax := t.kmax, mpre := min t.mpre 4095, w := max 1 (min t.w 4)
    tSide := t.tSide, tSilent := max 5 t.tSilent, tConf := max 5 t.tConf, tClaim := max 5 t.tClaim
    tHand := max 20 t.tHand, lpace := max 8 (min t.lpace 31)
    lresume := max 1 (min t.lresume (max 8 (min t.lpace 31) - 1)) }

end Sys2Proof.Says

/-- A TUNING LOAD, in every mode, replaces every field at once after clamping it (R18, R2). -/
def Sys2Proof.Says.LoadTuningClamps : Prop :=
  ∀ (s : State) (f : FloorFrame) (rest : List FloorFrame) (i : Nat) (t : Tuning),
    TakesTable s f rest 5 i (tuningBytes t) → i < 65536 → Says.Tuning.Carried t →
    exec .loadTuning s = .next (answered { s with layout := { s.layout with tuning := Says.Tuning.stored t } } f rest
      (if Says.Tuning.stored t = t then .done else .doneClamped) [])

/-- A CAP LOAD stores the cap and makes a GRANT due to every vehicle that is not ARRIVING and has a held entry in the
zone (R20). -/
def Sys2Proof.Says.LoadCapGrants : Prop :=
  ∀ (s : State) (f : FloorFrame) (rest : List FloorFrame) (z n : Nat),
    TakesTable s f rest 6 z [byte n] → z ≤ 31 → n < 256 → RosterOk s.roster →
    ∃ t, exec .loadCap s = .next t ∧ EndsWithReply t f (if 7 < n then .doneClamped else .done)
      ∧ capOf t z = min 7 n ∧ (∀ y, y ≠ z → capOf t y = capOf s y)
      ∧ ∀ v, vehicle t v = (vehicle s v).map fun x =>
          if x.state ≠ .arriving ∧ ∃ i ∈ x.held, zoneOf s i = some z then { x with due := { x.due with grant := some 0 } }
          else x

/-- A SEVERITY LOAD stores the level, a code above HALT as HALT and POSITION-CONFLICT always as HALT, and the ALARM
output follows (R171, R173). -/
def Sys2Proof.Says.LoadSeverityStores : Prop :=
  ∀ (s : State) (f : FloorFrame) (rest : List FloorFrame) (k : EventKind) (n : Nat),
    TakesTable s f rest 7 k.code [byte n] → n < 256 →
    let level : Severity :=
      if k = .positionConflict then .halt
      else if n = 0 then .log else if n = 1 then .notice else if n = 2 then .alarm else .halt
    ∃ t, exec .loadSeverity s = .next t
      ∧ EndsWithReply t f (if level.code = n then .done else .doneClamped)
      ∧ severityOf t k = level ∧ (∀ j, j ≠ k → severityOf t j = severityOf s j)
      ∧ (t.su.alarm = true ↔ ∃ j, flagSet t j = true ∧ (severityOf t j = .alarm ∨ severityOf t j = .halt))
      ∧ t.su.flags = s.su.flags

/-- The LOADs of the Tuning record, the Zone Speed Caps and the Severity map. -/
def Obligations.TuningTablesStore : Prop :=
  Says.LoadTuningClamps ∧ Says.LoadCapGrants ∧ Says.LoadSeverityStores

/-- A LOAD is refused in the order of R2: the cell number, a running check, the mode for the layout tables, the
index. -/
def Obligations.LoadsRefusedInOrder : Prop :=
  ∀ (s : State) (f : FloorFrame) (rest : List FloorFrame) (c : Instr) (sel size bound i : Nat) (record : List Byte),
    (c, sel, size, bound) ∈ [(Instr.loadSegment, 0, 10, 1024), (.loadZone, 1, 16, 32), (.loadPort, 2, 4, 256),
      (.loadRoute, 3, 11, 1024), (.loadExit, 4, 2, 64), (.loadTuning, 5, 24, 65536), (.loadCap, 6, 1, 32),
      (.loadSeverity, 7, 1, 17)] →
    Takes s f rest → f.kind = 0x25 → f.payload = loadPayload sel i record → record.length = size → i < 65536 →
    (s.mc.identity.cell = none → exec c s = .next (answered s f rest .refusedState [])) ∧
    (s.mc.identity.cell ≠ none → s.mc.check ≠ none → exec c s = .next (answered s f rest .busy [])) ∧
    (s.mc.identity.cell ≠ none → s.mc.check = none → sel ≤ 4 → s.mode ≠ .parked →
      exec c s = .next (answered s f rest .refusedState [])) ∧
    (s.mc.identity.cell ≠ none → s.mc.check = none → (sel ≤ 4 → s.mode = .parked) → bound ≤ i →
      exec c s = .next (answered s f rest .refusedRange []))

/-! ### ACTIVATE (R10 to R16) -/

/-- An ACTIVATE is refused in the order of R10 or starts the check, unanswered. -/
def Obligations.ActivateStartsCheck : Prop :=
  ∀ (s : State) (f : FloorFrame) (rest : List FloorFrame), Takes s f rest → f.kind = 0x26 → f.payload = [] →
    exec .activate s = .next (
      if s.mc.identity.cell = none then answered s f rest .refusedState []
      else if s.mc.check ≠ none then answered s f rest .busy []
      else if s.mode ≠ .parked then answered s f rest .refusedState []
      else if s.mc.haltInput = true ∧ s.mc.identity.haltEnable = true then answered s f rest .refusedState []
      else { s with
        mc := { s.mc with check := some { src := f.src, tag := f.tag } }
        fli := { s.fli with inbound := rest, reservations := s.fli.reservations + 1 } })

namespace Sys2Proof.Says

/-- Each loaded segment with its resting state and an empty wait list (R16, R22, R47). -/
def restingTable (cell : Option Nat) (segs : Table SegmentRec) : Table SegRes :=
  segs.map fun p => (p.1, { res := restingRes cell p.2.form, waits := [] })

/-- The REPLY to the ACTIVATE that asked, closing its reservation. -/
def activateReplied (s : State) (asker : ReplyTo) (code : Code) (content : List Byte) : Fli :=
  { s.fli with
    reservations := s.fli.reservations - 1
    outbound := s.fli.outbound ++ [frameOf s asker.src 0x60 asker.tag ([0x26, byte code.code] ++ content)] }

end Sys2Proof.Says

/-- The completion of the check in its three outcomes (R16); without a running check the command changes nothing
(log 1). -/
def Obligations.ActivationCheckOutcome : Prop :=
  ∀ s : State, s.running = true →
    (s.mc.check = none → exec .activationCheckComplete s = .next s) ∧
    ∀ a, s.mc.check = some a → exec .activationCheckComplete s = .next (
      match layoutFault s with
      | some (c, i) =>
        { s with
          layout := { s.layout with validated := false }
          mc := { s.mc with check := none }
          fli := activateReplied s a .routeFault ([byte c.code, byte c.table] ++ bytes2 i) }
      | none =>
        if s.mc.haltInput = true ∧ s.mc.identity.haltEnable = true then
          { s with mc := { s.mc with check := none }, fli := activateReplied s a .refusedState [] }
        else
          { s with
            layout := { s.layout with validated := true, grantWindow := s.layout.tuning.w }
            srt := restingTable s.mc.identity.cell s.layout.segs
            mc := { s.mc with check := none, mode := .dispatching }
            asu := { s.asu with passDue := true }
            tli := { s.tli with
              rollcall := some 0
              line := s.tli.line.map fun g =>
                if g.item = .rollcall ∧ g.link ≠ .severed then { g with link := .renewed } else g }
            fli := activateReplied s a .done [] })

namespace Sys2Proof.Says

/-- Step 1 for segment `i` (R11). -/
def SegmentPasses (s : State) (i : Nat) : Prop :=
  ∀ r, segment s i = some r →
    (isForeign s i = false → segment s r.succ0 ≠ none) ∧
    (∀ t, r.form = .diverge t → segment s t ≠ none ∧ t ≠ r.succ0) ∧
    (∀ p, r.form = .merge p → ∃ q, segment s p = some q ∧ i ∈ q.successors) ∧
    (∀ o, r.form = .boundary o → isForeign s i = true → o ∈ s.mc.identity.neighbours) ∧
    (predecessors s i).length ≤ (match r.form with | .merge _ => 2 | _ => 1)

def SegmentsPass (s : State) : Prop := ∀ i, SegmentPasses s i

/-- Step 2 for zone `z` (R12). -/
def ZonePasses (s : State) (z : Nat) : Prop :=
  (zoneRec s z = none → ∀ i r, segment s i = some r → r.zone ≠ z) ∧
  ∀ r, zoneRec s z = some r →
    (∀ i ∈ [r.entrySeg, r.anchor], isOwn s i = true ∧ zoneOf s i = some z) ∧
    (∀ i ∈ r.park, ∃ q, segment s i = some q ∧ q.zone = z ∧ q.form = .plain) ∧ r.park.Nodup ∧
    ∀ o, r.overflow = some o → o ≠ z ∧ zoneRec s o ≠ none

def ZonesPass (s : State) : Prop := ∀ z, z ≤ 31 → ZonePasses s z

/-- Step 3 for port `p` (R13). -/
def PortPasses (s : State) (p : Nat) : Prop := ∀ g, portRec s p = some g → isOwn s g.segment = true

def PortsPass (s : State) : Prop := ∀ p, PortPasses s p

/-- Step 4 (R14). -/
def RoutesPass (s : State) : Prop :=
  ∀ a b d, b ≤ 31 → (route s a b).desc = some d →
    ∃ za zb, zoneRec s a = some za ∧ zoneRec s b = some zb ∧
      (∀ x ∈ d.sequence, 0 ≤ x ∧ x ≤ 1023 ∧ isOwn s x.toNat = true) ∧
      (∀ x ∈ d.sequence.head?, isSuccessor s za.anchor x.toNat = true) ∧
      d.sequence.IsChain (fun x y => isSuccessor s x.toNat y.toNat = true) ∧
      d.sequence.getLast? = some (zb.entrySeg : Int)

/-- Step 5 for exit entry `c` (R15). -/
def ExitPasses (s : State) (c : Nat) : Prop :=
  ∀ x, exitSeg s c = some x →
    s.mc.identity.cell ≠ some c ∧ isForeign s x = true ∧ (∃ o, ownerOf s x = some o ∧ o ∈ s.mc.identity.neighbours) ∧
      ∃ p, predecessors s x = [p] ∧ isOwn s p = true

def ExitsPass (s : State) : Prop := ∀ c, ExitPasses s c

/-- The check ends without a fault exactly when every record passes its step (R11 to R15), for layout tables in
canonical form. -/
def CheckPasses : Prop :=
  ∀ s : State, LayoutOk s.layout →
    (layoutFault s = none ↔ SegmentsPass s ∧ ZonesPass s ∧ PortsPass s ∧ RoutesPass s ∧ ExitsPass s)

/-- The segment at place `k` of the route sequence `l`, counted from 0, fails with `c`: out of range or not loaded, a
foreign BOUNDARY, no successor of the anchor or of the segment before, tested in this order (R14 step 2). -/
def PlaceFails (s : State) (anchor : Nat) (l : List Int) (k : Nat) (c : LayoutFault) : Prop :=
  ∃ x, l[k]? = some x ∧
    let known := 0 ≤ x ∧ x ≤ 1023 ∧ segment s x.toNat ≠ none
    let linked := if k = 0 then isSuccessor s anchor x.toNat = true
      else ∃ y, l[k - 1]? = some y ∧ isSuccessor s y.toNat x.toNat = true
    c = .routeRange ∧ ¬ known ∨ c = .routeForeign ∧ known ∧ isForeign s x.toNat = true
      ∨ c = (if k = 0 then .routeEnds else .routeBreak) ∧ known ∧ isForeign s x.toNat = false ∧ ¬ linked

/-- Step 4 for the entry (a, b) ends with `c`: a zone is absent, the first place that fails, or the last segment is not
the entry segment of b (R14). -/
def RouteFails (s : State) (a b : Nat) (c : LayoutFault) : Prop :=
  ∃ d, (route s a b).desc = some d ∧
    ((zoneRec s a = none ∨ zoneRec s b = none) ∧ c = .routeEnds ∨
      ∃ za zb, zoneRec s a = some za ∧ zoneRec s b = some zb ∧
        ((∃ k, PlaceFails s za.anchor d.sequence k c ∧ ∀ j, j < k → ∀ e, ¬ PlaceFails s za.anchor d.sequence j e) ∨
          (∀ j e, ¬ PlaceFails s za.anchor d.sequence j e) ∧ d.sequence.getLast? ≠ some (zb.entrySeg : Int)
            ∧ c = .routeEnds))

/-- The first record that fails a step. -/
def FirstFails (p : Nat → Prop) (i : Nat) : Prop := ¬ p i ∧ ∀ j, j < i → p j

/-- The fault reported is that of the first record, in the order of the steps, that fails one: its code and the index of
the record, a × 32 + b for a route (R11 to R15). For layout tables in canonical form. -/
def FirstFaultReported : Prop :=
  ∀ (s : State) (c : LayoutFault) (i : Nat), LayoutOk s.layout →
    (layoutFault s = some (c, i) ↔
      c = .segmentLink ∧ FirstFails (SegmentPasses s) i ∨
      SegmentsPass s ∧ c = .zoneShape ∧ i ≤ 31 ∧ FirstFails (ZonePasses s) i ∨
      SegmentsPass s ∧ ZonesPass s ∧ c = .portPlace ∧ FirstFails (PortPasses s) i ∨
      SegmentsPass s ∧ ZonesPass s ∧ PortsPass s ∧ RouteFails s (i / 32) (i % 32) c
        ∧ (∀ j, j < i → ∀ e, ¬ RouteFails s (j / 32) (j % 32) e) ∨
      SegmentsPass s ∧ ZonesPass s ∧ PortsPass s ∧ RoutesPass s ∧ c = .exitShape ∧ FirstFails (ExitPasses s) i)

/-- The bytes of a fault code and of the table it names in the REPLY, which O19 states: codes in the order of chapter 11,
tables SEGMENT, ZONE, PORT, ROUTE and EXIT as LOAD selectors (R11 to R16, R189). -/
def FaultBytes : Prop :=
  [LayoutFault.segmentLink, .zoneShape, .portPlace, .routeRange, .routeBreak, .routeEnds, .routeForeign, .exitShape].map
    (fun c => (c.code, c.table)) = [(0, 0), (1, 1), (2, 2), (3, 3), (4, 3), (5, 3), (6, 3), (7, 4)]

end Sys2Proof.Says

/-- When the activation check finds no fault, and which fault it reports. -/
def Obligations.ActivationCheckConditions : Prop := Says.CheckPasses ∧ Says.FirstFaultReported ∧ Says.FaultBytes

/-! ### MODE (R176, R179 to R181) -/

namespace Sys2Proof.Says

/-- A MODE request passes the first checks of R176. -/
abbrev TakesMode (s : State) (f : FloorFrame) (rest : List FloorFrame) (code : Nat) : Prop :=
  Takes s f rest ∧ f.kind = 0x27 ∧ f.payload = [byte code] ∧ s.mc.identity.cell ≠ none ∧ s.mc.check = none

/-- No event kind that a path build or an extension step can raise has severity HALT. -/
abbrev Quiet (s : State) : Prop :=
  severityOf s .pathFault ≠ .halt ∧ severityOf s .pathBlocked ≠ .halt ∧ severityOf s .reportLost ≠ .halt

/-- A running confirm deadline SUSPENDED (R99). -/
def suspended (x : Move) : Move :=
  match x.confirm with
  | .at _ => { x with confirm := .suspended }
  | _ => x

/-- What entry to HALTED does (R179), and what it leaves. -/
structure EntersHalted (s t : State) : Prop where
  mode : t.mc = { s.mc with mode := .halted, haltPending := t.mc.haltPending, haltInput := t.mc.haltInput }
  moves : t.mq = { s.mq with moves := s.mq.moves.map suspended }
  pass : t.asu = { s.asu with passDue := false }
  line : t.tli = { s.tli with allHold := some 0, resume := none, line := t.tli.line }
  board : t.board.now = s.board.now
  layout : t.layout = s.layout
  srt : t.srt = s.srt
  roster : t.roster = s.roster
  claims : t.bxu = s.bxu

end Sys2Proof.Says

/-- MODE DISPATCHING by the present mode (R176); in HALTED with the HALT line inactive the engine leaves HALTED
(R180): the confirm deadlines run again, RESUME and GRANTs are due, the pass-due flag is set. The last clause needs
that nothing the arbitration raises halts the engine again. -/
def Sys2Proof.Says.HaltedLeft : Prop :=
  ∀ (s : State) (f : FloorFrame) (rest : List FloorFrame), TakesMode s f rest 1 →
    (s.mode = .parked → exec .modeDispatching s = .next (answered s f rest .refusedState [])) ∧
    (s.mode = .dispatching → exec .modeDispatching s = .next (answered s f rest .done [])) ∧
    (s.mode = .halted → s.haltLine = true → exec .modeDispatching s = .next (answered s f rest .refusedState [])) ∧
    (s.mode = .halted → s.haltLine = false →
      ∃ t, exec .modeDispatching s = .next t ∧ EndsWithReply t f .done ∧ t.mc.haltPending = false
        ∧ (∀ v x, vehicle s v = some x → x.state ≠ .arriving →
            ∃ y, vehicle t v = some y ∧ y.due.grant = some 0 ∧ y.state = x.state ∧ y.move = x.move)
        ∧ (Quiet s → t.mode = .dispatching ∧ t.tli.resume = some 0 ∧ t.asu.passDue = true
            ∧ t.mq.moves = s.mq.moves.map fun x =>
                if x.confirm = .suspended then { x with confirm := .at (s.board.now + s.layout.tuning.tConf) } else x))

namespace Sys2Proof.Says

/-- The engine before the arbitration of step 3, DISPATCHING: steps 1 and 2 of R180 made. -/
structure Resumed (s u : State) (rest : List FloorFrame) : Prop where
  mode : u.mc = { s.mc with mode := .dispatching, haltPending := false }
  moves : u.mq = { s.mq with moves := s.mq.moves.map fun x =>
    if x.confirm = .suspended then { x with confirm := .at (s.board.now + s.layout.tuning.tConf) } else x }
  line : u.tli = { s.tli with resume := some 0, line := u.tli.line }
  grants : ∀ v, vehicle u v = (vehicle s v).map fun x =>
    if x.state = .arriving then x else { x with due := { x.due with grant := some 0 } }
  fli : u.fli = { s.fli with inbound := rest, reservations := s.fli.reservations + 1 }
  rest : u = { s with mc := u.mc, mq := u.mq, tli := u.tli, roster := u.roster, fli := u.fli }

/-- An engine that leaves HALTED arbitrates every FREE own and every FOREIGN segment with waiters in ascending index, as
the task that looks from index 0 does, and then answers and sets the pass-due flag (R48, R180). -/
def WaitersArbitrated : Prop :=
  ∀ (s : State) (f : FloorFrame) (rest : List FloorFrame), TakesMode s f rest 1 → RosterOk s.roster →
    s.mode = .halted → s.haltLine = false →
    ∃ u, Resumed s u rest ∧
      let w := run [.scanAll 0] u
      exec .modeDispatching s = .next (closed f .done
        { w with asu := { w.asu with passDue := w.asu.passDue || decide (w.mode = .dispatching) } })

/-! Tasks: the arbitrations and extensions one event starts -/

/-- A segment from index `i` up that the tasks below look for. -/
def Found (s : State) (i : Nat) (p : Nat → Res → Prop) (j : Nat) : Prop :=
  i ≤ j ∧ ∃ r, resRec s j = some r ∧ r.waits ≠ [] ∧ p j r.res

/-- The lowest such segment. -/
def FirstFound (s : State) (i : Nat) (p : Nat → Res → Prop) (j : Nat) : Prop := Found s i p j ∧ ∀ k, k < j → ¬ Found s i p k

/-- FREE in zone `z` (R32). -/
def FreeIn (s : State) (z i : Nat) (r : Res) : Prop := r = .free ∧ zoneOf s i = some z

/-- FREE own or FOREIGN (R48). -/
def FreeOrForeign (_ : Nat) (r : Res) : Prop := r = .free ∨ r = .foreign

/-- Tasks are taken from the front, and what one starts goes before the rest: an arbitration and the extension of its
winner are complete before the next segment's turn (R25, R37, R48). A zone's FREE segments with waiters, and for an engine
that leaves HALTED every FREE or FOREIGN one, are arbitrated in ascending index, each as it stands when its turn comes (R32,
R48). Outside DISPATCHING no task does anything. The bound on the length of a chain is the model's (log 11). -/
def TasksTakenInOrder : Prop :=
  (∀ (ts : List Task) (s : State), run ts s = runTasks 1000000 ts s) ∧
  (∀ (n : Nat) (s : State), runTasks n [] s = s) ∧
  (∀ (n : Nat) (t : Task) (ts : List Task) (s : State),
    runTasks (n + 1) (t :: ts) s = runTasks n ((taskStep t s).1 ++ ts) (taskStep t s).2) ∧
  (∀ (t : Task) (s : State), s.mode ≠ .dispatching → taskStep t s = ([], s)) ∧
  ∀ (s : State) (i : Nat), s.mode = .dispatching → (s.srt.map (·.1)).Pairwise (· < ·) →
    (∀ z, (∀ j, ¬ Found s i (FreeIn s z) j) → taskStep (.scanZone z i) s = ([], s)) ∧
    (∀ z j, FirstFound s i (FreeIn s z) j → taskStep (.scanZone z i) s = ([.arb j, .scanZone z (j + 1)], s)) ∧
    ((∀ j, ¬ Found s i FreeOrForeign j) → taskStep (.scanAll i) s = ([], s)) ∧
    (∀ j, FirstFound s i FreeOrForeign j → taskStep (.scanAll i) s = ([.arb j, .scanAll (j + 1)], s))

end Sys2Proof.Says

/-- MODE DISPATCHING, the arbitration on leaving HALTED, and the order of the arbitrations one event starts. -/
def Obligations.ModeDispatchingResumes : Prop := Says.HaltedLeft ∧ Says.WaitersArbitrated ∧ Says.TasksTakenInOrder

/-- MODE HALTED by the present mode (R176, R179). -/
def Obligations.ModeHaltedEnters : Prop :=
  ∀ (s : State) (f : FloorFrame) (rest : List FloorFrame), TakesMode s f rest 2 →
    (s.mode = .parked → exec .modeHalted s = .next (answered s f rest .refusedState [])) ∧
    (s.mode = .halted →
      exec .modeHalted s = .next (answered { s with mc := { s.mc with haltPending := true } } f rest .done [])) ∧
    (s.mode = .dispatching →
      ∃ t, exec .modeHalted s = .next t ∧ EntersHalted s t ∧ t.mc.haltPending = true ∧ t.su = s.su
        ∧ t.fli = (answered s f rest .done []).fli)

namespace Sys2Proof.Says

/-- Payload head of a peer frame (R189). -/
def peerBytes (tag seg v : Nat) : List Byte := [byte tag] ++ bytes2 seg ++ [byte v]

/-- A MOVE-REPORT with the given state code (R92, R189). -/
def moveReport (t : State) (m code v age : Nat) : FloorFrame :=
  frameOf t 64 0x61 0 (bytes2 m ++ [byte code, byte v] ++ bytes2 age)

/-- The frames of entry to PARKED in their order: FAILED reports, CLAIM-WITHDRAW, ABANDON, CLAIM-REFUSE (R94, R143,
R181). -/
def partingFrames (s : State) : List FloorFrame :=
  (s.mq.moves.map fun x => moveReport s x.id 11 (x.vehicle.getD 0) x.age)
    ++ (s.bxu.outClaims.map fun e =>
        frameOf s ((ownerOf s e.segment).getD 255) 0x43 0 (peerBytes e.tag e.segment e.vehicle))
    ++ ((s.bxu.inClaims.filter fun c => c.phase != .waiting).map fun c =>
        frameOf s c.cell 0x45 0 (peerBytes c.tag c.segment c.vehicle))
    ++ ((s.bxu.inClaims.filter fun c => c.phase == .waiting).map fun c =>
        frameOf s c.cell 0x42 0 (peerBytes c.tag c.segment c.vehicle ++ [0]))

end Sys2Proof.Says

/-- MODE PARKED (R176, R181): all dispatch state goes, ALL-HOLD is due, the rest is kept, REPLY DONE comes last; the
frames before it in their order where the queue takes them all. The order of the granted before the waiting claims
is the model's (log 29). -/
def Obligations.ModeParkedClears : Prop :=
  ∀ (s : State) (f : FloorFrame) (rest : List FloorFrame), TakesMode s f rest 0 →
    (s.mode = .parked → exec .modeParked s = .next (answered s f rest .done [])) ∧
    (s.mode ≠ .parked →
      ∃ t, exec .modeParked s = .next t ∧ EndsWithReply t f .done
        ∧ t.mc = { s.mc with mode := .parked, haltPending := false }
        ∧ t.mq = { s.mq with moves := [] } ∧ t.bxu = { s.bxu with outClaims := [], inClaims := [] }
        ∧ t.roster = [] ∧ t.asu = { s.asu with passDue := false, preempts := [] }
        ∧ t.srt = restingTable s.mc.identity.cell s.layout.segs
        ∧ t.tli = { s.tli with allHold := some 0, resume := none, rollcall := none, strayHolds := [], line := t.tli.line }
        ∧ t.layout = s.layout ∧ t.board = s.board
        ∧ (∀ k d, tget k s.su.flags = some d → tget k t.su.flags = some d)
        ∧ (MovesOk s.mq → occupancy s + s.mq.moves.length < 56 →
            occupancy s + s.mq.moves.length + s.bxu.outClaims.length + s.bxu.inClaims.length < 64 →
            t.su = s.su ∧ t.fli.outbound = s.fli.outbound ++ partingFrames s ++ [reply s f .done []]))

/-! ### QUERY (R165 to R168) -/

namespace Sys2Proof.Says

/-- A QUERY of kind `k` with selector `n`. -/
abbrev TakesQuery (s : State) (f : FloorFrame) (rest : List FloorFrame) (k n : Nat) : Prop :=
  Takes s f rest ∧ f.kind = 0x28 ∧ f.payload = byte k :: bytes2 n ∧ n < 65536

/-- A yes or no byte. -/
def yes (b : Bool) : Byte := if b then 1 else 0

end Sys2Proof.Says

/-- A vehicle, move, segment or zone QUERY changes nothing and is answered REFUSED-RANGE, UNKNOWN or DONE with the
record's bytes (R165). Their layout is the model's (log 23). -/
def Sys2Proof.Says.ItemQueriesAnswer : Prop :=
  ∀ (s : State) (f : FloorFrame) (rest : List FloorFrame) (n : Nat),
    (TakesQuery s f rest 0 n → exec .queryVehicle s = .next (
      if n = 0 ∨ 254 < n then answered s f rest .refusedRange []
      else match findVehicle s n with
        | none => answered s f rest .unknown []
        | some (slot, x) => answered s f rest .done (vehicleBytes s slot x))) ∧
    (TakesQuery s f rest 1 n → exec .queryMove s = .next (
      if n = 0 then answered s f rest .refusedRange []
      else match findMove s n with
        | none => answered s f rest .unknown []
        | some y => answered s f rest .done (moveBytes s y))) ∧
    (TakesQuery s f rest 2 n → exec .querySegment s = .next (
      if 1023 < n then answered s f rest .refusedRange []
      else match segment s n, resRec s n with
        | some r, some x => answered s f rest .done (segmentBytes s n r x)
        | _, _ => answered s f rest .done (0 :: List.replicate 9 0xFF))) ∧
    (TakesQuery s f rest 3 n → exec .queryZone s = .next (
      if 31 < n then answered s f rest .refusedRange [] else answered s f rest .done (zoneBytes s n)))

/-- A list, status flags, identity or mode QUERY changes nothing and is answered DONE with the content of R166 to
R168; the byte layout is the model's (log 23). -/
def Sys2Proof.Says.ListQueriesAnswer : Prop :=
  ∀ (s : State) (f : FloorFrame) (rest : List FloorFrame) (n : Nat),
    (TakesQuery s f rest 4 n → exec .queryRosterList s =
      .next (answered s f rest .done (byte s.roster.length :: s.roster.map fun p => byte p.2.id))) ∧
    (TakesQuery s f rest 5 n → exec .queryMoveList s = .next (
      if 127 < n then answered s f rest .refusedRange []
      else
        let ids := ((s.mq.moves.map (·.id)).drop n).take 64
        answered s f rest .done ([byte s.mq.moves.length, byte ids.length] ++ ids.flatMap bytes2))) ∧
    (TakesQuery s f rest 6 n → exec .queryStatusFlags s = .next (answered s f rest .done
      (yes s.su.alarm :: EventKind.all.flatMap fun k =>
        match tget k.code s.su.flags with
        | none => [0, byte (severityOf s k).code]
        | some d => [1, byte (severityOf s k).code] ++ detailBytes d))) ∧
    (TakesQuery s f rest 7 n → exec .queryIdentity s = .next (answered s f rest .done
      ([opt1 s.mc.identity.cell, yes s.mc.identity.haltEnable, byte s.mc.identity.neighbours.length]
        ++ s.mc.identity.neighbours.map byte ++ [yes s.mc.windowClosed]))) ∧
    (TakesQuery s f rest 8 n → exec .queryMode s = .next (answered s f rest .done
      [match s.mode with | .parked => 0 | .dispatching => 1 | .halted => 2, yes s.mc.check.isSome,
        yes s.layout.validated, yes s.mc.haltInput, yes s.mc.haltPending, byte s.layout.tuning.w,
        byte s.layout.grantWindow, byte s.tli.queue.length, yes s.tli.pacing, byte rest.length,
        byte s.fli.outbound.length, byte (s.fli.reservations + 1)]))

/-- The nine QUERY kinds. -/
def Obligations.QueriesAnswer : Prop := Says.ItemQueriesAnswer ∧ Says.ListQueriesAnswer

/-! ### CLEAR, RESTART, IDENTIFY, unknown requests -/

/-- A CLEAR removes the named flags with their records and brings ALARM up to date (R172). -/
def Obligations.ClearRemovesFlags : Prop :=
  ∀ (s : State) (f : FloorFrame) (rest : List FloorFrame) (codes : List Nat),
    Takes s f rest → f.kind = 0x29 → f.payload = byte codes.length :: codes.map byte → codes.length ≤ 17 →
    (∀ k ∈ codes, k < 256) →
    (s.mc.identity.cell = none → exec .clear s = .next (answered s f rest .refusedState [])) ∧
    (s.mc.identity.cell ≠ none → (∃ k ∈ codes, 17 ≤ k) → exec .clear s = .next (answered s f rest .refusedRange [])) ∧
    (s.mc.identity.cell ≠ none → (∀ k ∈ codes, k < 17) →
      ∃ t, exec .clear s = .next t ∧ t = answered { s with su := t.su } f rest .done []
        ∧ t.su.flags = s.su.flags.filter (fun e => decide (e.1 ∉ codes))
        ∧ (t.su.alarm = true ↔ ∃ k, flagSet t k = true ∧ (severityOf s k = .alarm ∨ severityOf s k = .halt)))

namespace Sys2Proof.Says

/-- The state a RESTART leaves, up to the REPLY that is then the only outbound entry (R184); KEEP-LAYOUT keeps the grant
window in force (R1). `tli.answer` and `fli.sent` are the model's own fields, and that they are kept is its choice (log
31). -/
def restarted (s : State) (full reload : Bool) (f : FloorFrame) : State :=
  let identity := if full || reload then loadCopy s.mc.copy else s.mc.identity
  let layout := if full then State.reset.layout else s.layout
  let t : State :=
    { s with
      layout := layout
      srt := restingTable identity.cell layout.segs
      roster := []
      mq := { s.mq with moves := [], arrivals := 0 }
      asu := { s.asu with passDue := false, preempts := [] }
      bxu := { outClaims := [], lastTag := 0, inClaims := [] }
      tli := { State.reset.tli with
        line := s.tli.line.map fun g => { g with link := .severed, carried := [] }, answer := s.tli.answer }
      su := { flags := [], alarm := false }
      mc := { s.mc with mode := .parked, haltInput := s.board.haltPin, haltPending := false, identity := identity
                        write := none, check := none } }
  { t with fli := { inbound := [], outbound := [reply t f .done []], reservations := 0, sent := s.fli.sent } }

end Sys2Proof.Says

/-- A RESTART of either kind is taken in every mode (R184, R182); KEEP-LAYOUT keeps the layout tables and the grant window
in force (R1). That the last answer given on the line and the last
frame sent are kept, both fields of the model's own, is the model's choice (log 31). -/
def Obligations.RestartReturnsToParked : Prop :=
  ∀ (s : State) (f : FloorFrame) (rest : List FloorFrame) (b : Byte),
    Takes s f rest → f.kind = 0x2A →
    (f.payload = [0, b] → exec .restartKeepLayout s = .next (restarted s false (b.getLsbD 0) f)) ∧
    (f.payload = [1, b] → exec .restartFull s = .next (restarted s true (b.getLsbD 0) f))

namespace Sys2Proof.Says

/-- The fields of an IDENTIFY (R183). -/
structure IdFields where
  cell : Nat
  haltEnable : Bool
  persist : Bool
  neighbours : List Nat

def IdFields.bytes (q : IdFields) : List Byte :=
  [byte q.cell, byte ((if q.haltEnable then 1 else 0) + (if q.persist then 2 else 0)), byte q.neighbours.length]
    ++ q.neighbours.map byte

/-- Case 4 of R183 does not apply. -/
def IdFields.Good (q : IdFields) : Prop :=
  q.cell ≤ 63 ∧ q.neighbours.length ≤ 6 ∧ (∀ c ∈ q.neighbours, c ≤ 63 ∧ c ≠ q.cell) ∧ q.neighbours.Nodup

/-- The record replaced, the window closed, each BOUNDARY afresh (R22, R183). -/
def identified (s : State) (q : IdFields) : State :=
  { s with
    mc := { s.mc with
      identity := { cell := some q.cell, haltEnable := q.haltEnable, neighbours := q.neighbours }, windowClosed := true }
    srt := restingTable (some q.cell) s.layout.segs }

/-- The copy an IDENTIFY writes. -/
def imageOf (q : IdFields) : Image :=
  { cell := q.cell, haltEnable := q.haltEnable, neighbours := q.neighbours
    check := imageCheck q.cell q.haltEnable q.neighbours }

end Sys2Proof.Says

/-- An IDENTIFY is refused in the order of R183 or taken; with the persist flag its REPLY waits for the write. -/
def Sys2Proof.Says.IdentifySetsRecord : Prop :=
  ∀ (s : State) (f : FloorFrame) (rest : List FloorFrame) (q : IdFields),
    Takes s f rest → f.kind = 0x2B → f.payload = q.bytes → q.cell < 256 → q.neighbours.length < 256 →
    (∀ c ∈ q.neighbours, c < 256) →
    (s.mc.check ≠ none → exec .identify s = .next (answered s f rest .busy [])) ∧
    (s.mc.check = none → s.mode ≠ .parked ∨ s.mc.windowClosed = true →
      exec .identify s = .next (answered s f rest .refusedState [])) ∧
    (s.mc.check = none → s.mode = .parked → s.mc.windowClosed = false → ¬ q.Good →
      exec .identify s = .next (answered s f rest .refusedRange [])) ∧
    (s.mc.check = none → s.mode = .parked → s.mc.windowClosed = false → q.Good →
      (q.persist = false → exec .identify s = .next (answered (identified s q) f rest .done [])) ∧
      (q.persist = true → exec .identify s = .next
        { identified s q with
          mc := { (identified s q).mc with write := some (imageOf q, { src := f.src, tag := f.tag }) }
          fli := { s.fli with inbound := rest, reservations := s.fli.reservations + 1 } }))

/-- The completed write stores the copy whole and answers the IDENTIFY (R183), and the copy loads as it was written, one
whose check fails as blank (R182). Without a write in progress the command changes nothing (log 1). -/
def Sys2Proof.Says.WriteStoresCopy : Prop :=
  (∀ (s : State), s.running = true →
    (s.mc.write = none → exec .nonvolatileWriteComplete s = .next s) ∧
    ∀ image asker, s.mc.write = some (image, asker) →
      exec .nonvolatileWriteComplete s = .next { s with
        mc := { s.mc with copy := some image, write := none }
        fli := { s.fli with
          reservations := s.fli.reservations - 1
          outbound := s.fli.outbound ++ [frameOf s asker.src 0x60 asker.tag [0x2B, 0]] } }) ∧
  (∀ q : IdFields, loadCopy (some (imageOf q)) =
    { cell := some q.cell, haltEnable := q.haltEnable, neighbours := q.neighbours }) ∧
  (∀ i : Image, i.check ≠ imageCheck i.cell i.haltEnable i.neighbours →
    loadCopy (some i) = { cell := none, haltEnable := false, neighbours := [] }) ∧
  loadCopy none = { cell := none, haltEnable := false, neighbours := [] }

/-- IDENTIFY and the write of the nonvolatile copy. -/
def Obligations.IdentityIsSet : Prop := Says.IdentifySetsRecord ∧ Says.WriteStoresCopy

/-- A request that no other row takes changes nothing (R163): an unknown kind is REFUSED-RANGE, and an unlisted
selector of LOAD, value of MODE, kind of QUERY or of RESTART is answered by the order of its owner's checks (R2, R165,
R176, R184). That this row takes those frames is the model's (log 2). -/
def Obligations.UnknownRequestRefused : Prop :=
  ∀ (s : State) (f : FloorFrame) (rest : List FloorFrame) (n : Byte) (more : List Byte), Takes s f rest →
    (f.kind < 0x20 ∨ 0x2B < f.kind ∧ f.kind < 0x40 ∨ 0x45 < f.kind →
      exec .unknownRequestKind s = .next (answered s f rest .refusedRange [])) ∧
    (f.kind = 0x25 ∧ f.payload = n :: more ∧ 8 ≤ n.toNat ∨ f.kind = 0x27 ∧ f.payload = [n] ∧ 3 ≤ n.toNat →
      exec .unknownRequestKind s = .next (
        if s.mc.identity.cell = none then answered s f rest .refusedState []
        else if s.mc.check ≠ none then answered s f rest .busy []
        else answered s f rest .refusedRange [])) ∧
    (f.kind = 0x28 ∧ f.payload = n :: more ∧ 9 ≤ n.toNat ∨ f.kind = 0x2A ∧ f.payload = n :: more ∧ 2 ≤ n.toNat →
      exec .unknownRequestKind s = .next (answered s f rest .refusedRange []))

/-! ### Peer frames (R128 to R143) -/

namespace Sys2Proof.Says

/-- A CLAIM's payload (R189). -/
def claimPayload (tag seg v : Nat) (m : Summary) : List Byte :=
  peerBytes tag seg v ++ bytes2 m.move ++ bytes4 m.carrier ++ bytes2 m.dest ++ [byte m.cls] ++ bytes2 m.age

/-- A CLAIM from a neighbour whose fields fit their places is taken. -/
abbrev TakesClaim (s : State) (f : FloorFrame) (rest : List FloorFrame) (tag seg v : Nat) (m : Summary) : Prop :=
  TakesPeer s f rest 0x40 ∧ f.payload = claimPayload tag seg v m ∧ tag < 256 ∧ seg < 65536 ∧ v < 256
    ∧ m.move < 65536 ∧ m.carrier < 4294967296 ∧ m.dest < 65536 ∧ m.cls < 256 ∧ m.age < 65536

/-- Cases 2 and 3 of R138 do not apply in cell `n`. -/
abbrev Claimable (s : State) (n tag seg v : Nat) (m : Summary) : Prop :=
  1 ≤ tag ∧ 1 ≤ v ∧ v ≤ 254 ∧ m.cls ≤ 3 ∧ seg ≤ 1023 ∧ isOwn s seg = true ∧ ownerOf s seg ≠ none ∧ Reachable s n m.dest

/-- No entry of cell `c` has the tag or the vehicle: cases 4 and 5 of R138 do not apply. -/
abbrev Unclaimed (s : State) (c tag v : Nat) : Prop :=
  ∀ e ∈ s.bxu.inClaims, e.cell = c → e.tag ≠ tag ∧ e.vehicle ≠ v

/-- Cases 6 to 8 of R138 do not apply. -/
abbrev Receivable (s : State) (v : Nat) : Prop :=
  (∀ e ∈ s.bxu.inClaims, e.vehicle ≠ v) ∧ vehicle s v = none ∧ s.roster.length < 64 ∧ s.bxu.inClaims.length < 32

/-- The engine of cell `n`, DISPATCHING. -/
abbrev Dispatching (s : State) (n : Nat) : Prop := s.mode = .dispatching ∧ s.mc.identity.cell = some n

/-- The Incoming Claim Table entry of a CLAIM. -/
def claimEntry (f : FloorFrame) (tag seg v : Nat) (m : Summary) (ph : InPhase) : InClaim :=
  { cell := f.src, tag := tag, segment := seg, vehicle := v, summary := m, phase := ph }

/-- `t` with a peer frame appended. -/
def sending (t : State) (g : FloorFrame) : State := { t with fli := { t.fli with outbound := t.fli.outbound ++ [g] } }

/-- `s` after the front frame, which is discarded or ignored. -/
abbrev afterRefuse (s : State) (f : FloorFrame) (rest : List FloorFrame) (tag seg v reason : Nat) : State :=
  sending (popped s rest) (frameOf s f.src 0x42 0 (peerBytes tag seg v ++ [byte reason]))

end Sys2Proof.Says

/-- A CLAIM for a FREE segment without waiters, below its zone's capacity, is granted at once (R138 case 9, R139): the
segment RESERVED, an ARRIVING record with the segment as held list, a GRANTED entry with its deadline, CLAIM-GRANT
sent. -/
def Obligations.ClaimGrantedAtOnce : Prop :=
  ∀ (s : State) (f : FloorFrame) (rest : List FloorFrame) (n tag seg v : Nat) (m : Summary),
    TakesClaim s f rest tag seg v m → Dispatching s n → Claimable s n tag seg v m → Unclaimed s f.src tag v →
    Receivable s v → resOf s seg = some .free → waitsOf s seg = [] → zoneHasRoom s seg = true →
    ∃ t, exec .claim s = .next t ∧ resOf t seg = some (.reserved v)
      ∧ (∃ x, vehicle t v = some x ∧ x.state = .arriving ∧ x.held = [seg] ∧ x.move = none ∧ x.heardBy = none)
      ∧ (∀ u, u ≠ v → vehicle t u = vehicle s u)
      ∧ t.bxu = { s.bxu with
          inClaims := s.bxu.inClaims ++ [claimEntry f tag seg v m (.granted (s.board.now + s.layout.tuning.tHand))] }
      ∧ t.fli = (sending (popped s rest) (frameOf s f.src 0x41 0 (peerBytes tag seg v))).fli
      ∧ t.mq = s.mq ∧ t.su = s.su ∧ t.mc = s.mc

/-- A CLAIM that cannot be granted at once waits (R138 case 11), behind at most three entries; a FREE segment is then
arbitrated. -/
def Sys2Proof.Says.ClaimEntersWait : Prop :=
  ∀ (s : State) (f : FloorFrame) (rest : List FloorFrame) (n tag seg v : Nat) (m : Summary),
    TakesClaim s f rest tag seg v m → Dispatching s n → Claimable s n tag seg v m → Unclaimed s f.src tag v →
    Receivable s v → ¬ (resOf s seg = some .free ∧ waitsOf s seg = [] ∧ zoneHasRoom s seg = true) →
    (4 ≤ (waitsOf s seg).length → exec .claim s = .next (afterRefuse s f rest tag seg v 2)) ∧
    ((waitsOf s seg).length < 4 →
      let t : State :=
        { popped s rest with
          bxu := { s.bxu with inClaims := s.bxu.inClaims ++ [claimEntry f tag seg v m .waiting] }
          srt := tmod seg (fun r => { r with
            waits := r.waits ++ [{ who := .claim v tag f.src m.cls, enteredAt := s.board.now }] }) s.srt }
      exec .claim s = .next (if resOf s seg = some .free then run [.arb seg] t else t))

namespace Sys2Proof.Says

/-! The arbiter -/

/-- Below the capacity of zone `z` (R31). -/
def HasRoom (s : State) (z : Nat) : Prop := ∃ r, zoneRec s z = some r ∧ zoneCount s z < r.capacity

/-- Zone admission of a local vehicle at an own segment (R31). -/
def Admits (s : State) (v i : Nat) : Prop :=
  ∃ x z, vehicle s v = some x ∧ zoneOf s i = some z ∧ ((∃ l, x.held.getLast? = some l ∧ zoneOf s l = some z) ∨ HasRoom s z)

/-- Admissible at arbitration (R36). -/
def Admissible (s : State) (i : Nat) (w : WaitEntry) : Prop :=
  match w.who with
  | .vehicle v _ => if resOf s i = some .foreign then s.bxu.outClaims.length < 8 else Admits s v i
  | .claim _ _ _ _ =>
    if resOf s i = some .foreign then False else (∃ z, zoneOf s i = some z ∧ HasRoom s z) ∧ s.roster.length < 64

/-- The move of an entry is class 0 (R37 key 1). -/
def Urgent (s : State) (w : WaitEntry) : Prop :=
  match w.who with
  | .vehicle v _ => ∃ x m y, vehicle s v = some x ∧ x.move = some m ∧ findMove s m = some y ∧ y.cls = 0
  | .claim _ _ _ cls => cls = 0

/-- A side entry: FOREIGN, or LOCAL on a MERGE from another segment than the main predecessor (R37 keys 2 and 3). -/
def Side (s : State) (i : Nat) (w : WaitEntry) : Prop :=
  match w.who with
  | .vehicle _ f => ∃ r p, segment s i = some r ∧ r.form = .merge p ∧ f ≠ p
  | .claim _ _ _ _ => True

/-- A side entry that has waited T_side (R37 key 2). -/
def AgedSide (s : State) (i : Nat) (w : WaitEntry) : Prop :=
  Side s i w ∧ s.layout.tuning.tSide ≤ s.board.now - w.enteredAt

/-- `a` goes before `b` on the first of the keys 1 to 3 on which they differ (R37). -/
def Precedes (s : State) (i : Nat) (a b : WaitEntry) : Prop :=
  Urgent s a ∧ ¬ Urgent s b ∨
    (Urgent s a ↔ Urgent s b) ∧
      (AgedSide s i a ∧ ¬ AgedSide s i b ∨ (AgedSide s i a ↔ AgedSide s i b) ∧ ¬ Side s i a ∧ Side s i b)

/-- `w` wins the arbitration of segment `i`: admissible, preceded by no admissible entry, and of equals the one nearest
the front (R37 key 4). -/
def Wins (s : State) (i : Nat) (w : WaitEntry) : Prop :=
  ∃ pre post, waitsOf s i = pre ++ w :: post ∧ Admissible s i w ∧ (∀ u ∈ pre, Admissible s i u → Precedes s i w u)
    ∧ ∀ u ∈ post, Admissible s i u → ¬ Precedes s i u w

/-- The first tag after the last one issued, round through 255 and 1, that no entry of the list holds (R129). -/
def IssuedNext (b : Bxu) (tag : Nat) : Prop :=
  ∃ k, k < 255 ∧ tag = (b.lastTag + k) % 255 + 1 ∧ (∀ e ∈ b.outClaims, e.tag ≠ tag)
    ∧ ∀ j, j < k → ∃ e ∈ b.outClaims, e.tag = (b.lastTag + j) % 255 + 1

/-- A claim of segment `i` for vehicle `v` with its move `y` was made (R29, R129, R130). -/
def ClaimMade (s t : State) (v i : Nat) (y : Move) : Prop :=
  ∃ tag o, IssuedNext s.bxu tag ∧ ownerOf s i = some o ∧ resOf t i = some (.claiming v)
    ∧ t.bxu = { s.bxu with
        outClaims := s.bxu.outClaims ++
          [{ tag := tag, segment := i, vehicle := v, phase := .claiming (s.board.now + s.layout.tuning.tClaim) }]
        lastTag := tag }
    ∧ (occupancy s < 64 → t.fli.outbound = s.fli.outbound ++ [frameOf s o 0x40 0 (claimPayload tag i v
        { move := y.id, carrier := y.carrier, dest := y.dest.getD 0, cls := y.cls, age := y.age })])

/-- One arbitration in DISPATCHING (R35 to R37): nothing at a segment that is neither FREE nor FOREIGN or has no
admissible entry; otherwise the winner leaves the wait list and takes the segment, and its extension goes on. A FOREIGN
winner whose vehicle has a record is refused, and the segment arbitrated again (R139). -/
def ArbiterChooses : Prop :=
  ∀ (s : State) (i : Nat), s.mode = .dispatching →
    (resOf s i ≠ some .free → resOf s i ≠ some .foreign → taskStep (.arb i) s = ([], s)) ∧
    ((∀ w ∈ waitsOf s i, ¬ Admissible s i w) → taskStep (.arb i) s = ([], s)) ∧
    ((∃ w ∈ waitsOf s i, Admissible s i w) → ∃ w, Wins s i w) ∧
    ∀ w, Wins s i w →
      (∀ v g x, w.who = .vehicle v g → resOf s i = some .free → vehicle s v = some x →
        ∃ t y, taskStep (.arb i) s = ([.rounds v], t) ∧ resOf t i = some (.reserved v) ∧ vehicle t v = some y
          ∧ y.held = x.held ++ [i] ∧ y.path.cursor = some i ∧ (x.state ≠ .arriving → y.due.grant = some 0)
          ∧ (∀ j, waitsOf t j = (waitsOf s j).filter fun u => !u.isVehicle v) ∧ (∀ j, j ≠ i → resOf t j = resOf s j)
          ∧ t.bxu = s.bxu ∧ t.fli = s.fli ∧ t.mq = s.mq) ∧
      (∀ v g x m y, w.who = .vehicle v g → resOf s i = some .foreign → vehicle s v = some x → x.move = some m →
        findMove s m = some y → ownerOf s i ≠ none → (∀ e ∈ s.bxu.outClaims, e.vehicle ≠ v ∧ e.segment ≠ i) →
        ∃ t, taskStep (.arb i) s = ([], t) ∧ ClaimMade s t v i y ∧ t.roster = s.roster
          ∧ ∀ j, waitsOf t j = (waitsOf s j).filter fun u => !u.isVehicle v) ∧
      (∀ v tag cell cls e, w.who = .claim v tag cell cls → resOf s i = some .free → inClaim s cell tag = some e →
        e.segment = i → e.vehicle = v →
        (vehicle s v = none →
          ∃ t x, taskStep (.arb i) s = ([], t) ∧ resOf t i = some (.reserved v) ∧ vehicle t v = some x
            ∧ x.state = .arriving ∧ x.held = [i]
            ∧ t.bxu = { s.bxu with inClaims := s.bxu.inClaims.map fun c =>
                if c.cell = cell ∧ c.tag = tag then { c with phase := .granted (s.board.now + s.layout.tuning.tHand) }
                else c }
            ∧ (∀ j, waitsOf t j = (waitsOf s j).filter fun u => !u.isClaim cell tag)
            ∧ (occupancy s < 64 → t.fli.outbound = s.fli.outbound ++ [frameOf s cell 0x41 0 (peerBytes tag i v)])) ∧
        (vehicle s v ≠ none →
          ∃ t, taskStep (.arb i) s = ([.arb i], t) ∧ resOf t i = some .free ∧ t.roster = s.roster
            ∧ t.bxu = { s.bxu with inClaims := s.bxu.inClaims.filter fun c => !(c.cell == cell && c.tag == tag) }
            ∧ (∀ j, waitsOf t j = (waitsOf s j).filter fun u => !u.isClaim cell tag)
            ∧ (occupancy s < 64 →
                t.fli.outbound = s.fli.outbound ++ [frameOf s cell 0x42 0 (peerBytes tag i v ++ [3])])))

end Sys2Proof.Says

/-- The wait of a CLAIM and the arbitration that ends a wait. -/
def Obligations.ClaimWaits : Prop := Says.ClaimEntersWait ∧ Says.ArbiterChooses

/-- The refusals of a CLAIM in the order of R138, and the repeat of a claim already held. -/
def Sys2Proof.Says.ClaimRefusals : Prop :=
  ∀ (s : State) (f : FloorFrame) (rest : List FloorFrame) (n tag seg v : Nat) (m : Summary),
    TakesClaim s f rest tag seg v m → s.mc.identity.cell = some n →
    (s.mode ≠ .dispatching → exec .claim s = .next (afterRefuse s f rest tag seg v 0)) ∧
    (s.mode = .dispatching → ¬ Claimable s n tag seg v m → exec .claim s = .next (afterRefuse s f rest tag seg v 1)) ∧
    (s.mode = .dispatching → Claimable s n tag seg v m →
      (∀ e, inClaim s f.src tag = some e → e.segment = seg → e.vehicle = v →
        (e.phase = .waiting → exec .claim s = .next (popped s rest)) ∧
        (e.phase ≠ .waiting →
          exec .claim s = .next (sending (popped s rest) (frameOf s f.src 0x41 0 (peerBytes e.tag seg v))))) ∧
      (Unclaimed s f.src tag v → (∃ e ∈ s.bxu.inClaims, e.vehicle = v) ∨ vehicle s v ≠ none →
        exec .claim s = .next (afterRefuse s f rest tag seg v 3)) ∧
      (Unclaimed s f.src tag v → (∀ e ∈ s.bxu.inClaims, e.vehicle ≠ v) → vehicle s v = none →
        64 ≤ s.roster.length ∨ 32 ≤ s.bxu.inClaims.length →
        exec .claim s = .next (afterRefuse s f rest tag seg v 2)))

/-- A stale entry (R138): one of the CLAIM's cell and tag with another segment or vehicle (case 4), or one of its cell
and vehicle with another tag (case 5), is ended as a CLAIM-WITHDRAW for it ends it, and the checks go on: the CLAIM does
what it does behind that CLAIM-WITHDRAW. The end of an entry that does not wait is stated where nothing waits for what it
frees. -/
def Sys2Proof.Says.StaleClaimsEnded : Prop :=
  ∀ (s u : State) (f : FloorFrame) (rest : List FloorFrame) (n tag seg v : Nat) (m : Summary) (e : InClaim),
    TakesClaim s f rest tag seg v m → Dispatching s n → Claimable s n tag seg v m → e.cell = f.src →
    inClaim s f.src e.tag = some e → e.tag < 256 → e.segment < 65536 → e.vehicle < 256 →
    e.phase = .waiting ∨ (∀ p ∈ s.srt, p.2.waits = []) →
    (e.tag = tag ∧ ¬ (e.segment = seg ∧ e.vehicle = v)) ∨
      (inClaim s f.src tag = none ∧ e.vehicle = v ∧ ∀ c ∈ s.bxu.inClaims, c.cell = f.src → c.vehicle = v → c = e) →
    exec .claimWithdraw { s with fli := { s.fli with
      inbound := { f with kind := 0x43, payload := peerBytes e.tag e.segment e.vehicle } :: f :: rest } } = .next u →
    exec .claim s = exec .claim u

/-- The refusals of a CLAIM and the entries it finds stale. -/
def Obligations.ClaimRefusedInOrder : Prop := Says.ClaimRefusals ∧ Says.StaleClaimsEnded

namespace Sys2Proof.Says

/-- The ARRIVING record of the granted claim `c` is gone and what it held is left as R26 says, its boundary segment FREE,
or BLOCKED if it was BLOCK-PENDING; every other segment keeps its state (R44). Stated where nothing is arbitrated. -/
def ArrivingEnds (s t : State) (c : InClaim) : Prop :=
  Unarbitrated s → ∀ x, vehicle s c.vehicle = some x →
    t.roster = s.roster.filter (fun p => p.2.id ≠ c.vehicle)
    ∧ t.bxu = { s.bxu with inClaims := s.bxu.inClaims.filter fun d => !(d.cell == c.cell && d.tag == c.tag) }
    ∧ (∀ i q, i ∈ x.held → resOf s i = some q → ∃ r, resOf t i = some r ∧ LeftBy c.vehicle q r)
    ∧ ∀ i, i ∉ x.held → resOf t i = resOf s i

/-- A peer frame of `kind` about the entry `e` of the Outgoing Claim List, whose tag no other entry has (R128,
R129). -/
abbrev TakesAnswer (s : State) (f : FloorFrame) (rest : List FloorFrame) (kind : Nat) (e : OutClaim)
    (extra : List Byte) : Prop :=
  TakesPeer s f rest kind ∧ f.payload = peerBytes e.tag e.segment e.vehicle ++ extra ∧ e ∈ s.bxu.outClaims
    ∧ e.tag < 256 ∧ e.segment < 65536 ∧ e.vehicle < 256 ∧ ownerOf s e.segment = some f.src
    ∧ ∀ c ∈ s.bxu.outClaims, c.tag = e.tag → c = e

/-- The entry is in phase CLAIMING. -/
def claiming (e : OutClaim) : Prop := ∃ d, e.phase = .claiming d

/-- The entry is gone from the Outgoing Claim List, and its segment is FOREIGN again or, where it was arbitrated, claimed
for a vehicle that waited there; without arbitration nothing else of the claims and segments changed (R35, R136). -/
def EntryEnds (s t : State) (e : OutClaim) : Prop :=
  (∀ c ∈ t.bxu.outClaims, c ∈ s.bxu.outClaims ∧ c.tag ≠ e.tag
    ∨ c.segment = e.segment ∧ c.phase = .claiming (t.board.now + s.layout.tuning.tClaim)) ∧
  (resOf s e.segment ≠ none → resOf t e.segment = some .foreign ∨ ∃ u, resOf t e.segment = some (.claiming u)) ∧
  (Unarbitrated s → t.bxu = { s.bxu with outClaims := s.bxu.outClaims.filter fun c => c.tag ≠ e.tag }
    ∧ (resOf s e.segment ≠ none → resOf t e.segment = some .foreign)
    ∧ ∀ i, i ≠ e.segment → resOf t i = resOf s i)

/-- Vehicle `v` has left service (R34, R67, R134): it waits nowhere, and a claim of it still CLAIMING is withdrawn, with
CLAIM-WITHDRAW to the owner cell behind the reports made before it. No two entries name one vehicle or have one tag, which
is part of the invariant (R129). -/
def LeavesService (s t : State) (v : Nat) : Prop :=
  (∀ i, ∀ w ∈ waitsOf t i, w.isVehicle v = false) ∧
  ∀ d ∈ s.bxu.outClaims, d.vehicle = v → claiming d → (∀ c ∈ s.bxu.outClaims, c.vehicle = v ∨ c.tag = d.tag → c = d) →
    EntryEnds s t d ∧ (∀ c ∈ t.bxu.outClaims, c.vehicle ≠ v)
    ∧ ∀ o, ownerOf s d.segment = some o → occupancy s < 64 →
        ∃ mid, s.fli.outbound ++ mid ++ [frameOf s o 0x43 0 (peerBytes d.tag d.segment v)] <+: t.fli.outbound

/-- The entry of a claim in phase CLAIMING gone and its segment FOREIGN again. -/
def claimEnded (s : State) (e : OutClaim) : State :=
  { s with
    bxu := { s.bxu with outClaims := s.bxu.outClaims.filter fun c => c.tag ≠ e.tag }
    srt := tmod e.segment (fun r => { r with res := .foreign }) s.srt }

end Sys2Proof.Says

/-- CLAIM-GRANT (R131): the entry GRANTED, the segment BORROWED and last in the held list with the cursor on it, the
vehicle DEPARTING without a last-heard deadline, a GRANT due. A repeat changes nothing. For a vehicle without a record,
which no run reaches, the entry ends (R129). -/
def Obligations.ClaimGrantLendsSegment : Prop :=
  ∀ (s : State) (f : FloorFrame) (rest : List FloorFrame) (e : OutClaim), TakesAnswer s f rest 0x41 e [] →
    (¬ claiming e → exec .claimGrant s = .next (popped s rest)) ∧
    (claiming e → vehicle s e.vehicle = none → exec .claimGrant s = .next (claimEnded (popped s rest) e)) ∧
    (claiming e → vehicle s e.vehicle ≠ none →
      ∃ t, exec .claimGrant s = .next t ∧ t.fli = (popped s rest).fli ∧ t.mq = s.mq ∧ t.mc = s.mc ∧ t.su = s.su
        ∧ t.bxu = { s.bxu with outClaims := s.bxu.outClaims.map fun c => if c.tag = e.tag then { c with phase := .granted } else c }
        ∧ t.srt = tmod e.segment (fun r => { r with res := .borrowed e.vehicle }) s.srt
        ∧ (∀ u, u ≠ e.vehicle → vehicle t u = vehicle s u)
        ∧ ∀ x, vehicle s e.vehicle = some x → x.state ≠ .arriving →
            ∃ y, vehicle t e.vehicle = some y ∧ y.state = .departing ∧ y.heardBy = none
              ∧ y.held = x.held ++ [e.segment] ∧ y.path.cursor = some e.segment ∧ y.due.grant = some 0
              ∧ y.move = x.move ∧ y.carrier = x.carrier)

/-- CLAIM-REFUSE (R132): the entry gone, the segment FOREIGN and arbitrated. For a GRANTED entry it is ignored. -/
def Sys2Proof.Says.ClaimRefuseEndsClaim : Prop :=
  ∀ (s : State) (f : FloorFrame) (rest : List FloorFrame) (e : OutClaim) (reason : Byte),
    TakesAnswer s f rest 0x42 e [reason] →
    (¬ claiming e → exec .claimRefuse s = .next (popped s rest)) ∧
    (claiming e → exec .claimRefuse s = .next (run [.arb e.segment] (claimEnded (popped s rest) e))) ∧
    (claiming e → waitsOf s e.segment = [] → exec .claimRefuse s = .next (claimEnded (popped s rest) e))

/-- The claim deadline (R133): CLAIM-WITHDRAW to the owner cell, the end of the entry, the segment arbitrated, then
CLAIM-TIMEOUT. Without a running deadline of the tag nothing happens (log 1), and the time moves to the deadline
(log 4). -/
def Sys2Proof.Says.ClaimDeadlineWithdraws : Prop :=
  ∀ (s : State) (tag : Nat), s.running = true →
    ((∀ e ∈ s.bxu.outClaims, e.tag = tag → ¬ claiming e) → exec (.claimDeadline tag) s = .next s) ∧
    ∀ e d, e ∈ s.bxu.outClaims → e.tag = tag → (∀ c ∈ s.bxu.outClaims, c.tag = tag → c = e) → e.phase = .claiming d →
      (∃ t, exec (.claimDeadline tag) s = .next t ∧ flagSet t .claimTimeout = true ∧ d ≤ t.board.now) ∧
      ∀ o, ownerOf s e.segment = some o → o ≤ 63 → occupancy s < 64 → waitsOf s e.segment = [] →
        flagSet s .claimTimeout = true → severityOf s .claimTimeout ≠ .halt → AlarmOk s →
        exec (.claimDeadline tag) s = .next
          { claimEnded s e with
            board := { s.board with now := max s.board.now d }
            fli := { s.fli with
              outbound := s.fli.outbound ++ [frameOf s o 0x43 0 (peerBytes e.tag e.segment e.vehicle)] } }

/-- The two ends of a claim that was not granted. -/
def Obligations.UngrantedClaimEnds : Prop := Says.ClaimRefuseEndsClaim ∧ Says.ClaimDeadlineWithdraws

/-- CLAIM-WITHDRAW (R140): a waiting claim leaves the wait list and the table, a granted one ends with its ARRIVING
record, its segment released; one that matches no entry is ignored. -/
def Sys2Proof.Says.ClaimWithdrawEndsClaim : Prop :=
  ∀ (s : State) (f : FloorFrame) (rest : List FloorFrame) (tag seg v : Nat), TakesPeer s f rest 0x43 →
    f.payload = peerBytes tag seg v → tag < 256 → seg < 65536 → v < 256 →
    ((∀ e, inClaim s f.src tag = some e → ¬ (e.segment = seg ∧ e.vehicle = v)) →
      exec .claimWithdraw s = .next (popped s rest)) ∧
    ∀ e, inClaim s f.src tag = some e → e.segment = seg → e.vehicle = v →
      (e.phase = .waiting → exec .claimWithdraw s = .next
        { popped s rest with
          bxu := { s.bxu with inClaims := s.bxu.inClaims.filter fun c => !(c.cell == f.src && c.tag == tag) }
          srt := s.srt.map fun p => (p.1, { p.2 with waits := p.2.waits.filter fun w => !w.isClaim f.src tag }) }) ∧
      (e.phase ≠ .waiting →
        ∃ t, exec .claimWithdraw s = .next t ∧ inClaim t f.src tag = none
          ∧ (∀ y, vehicle t v = some y → y.state = .arriving) ∧ ArrivingEnds s t e)

/-- The arrival deadline (R142): the record and the entry go, the segment is released, ABANDON is sent, HANDOFF-ABANDONED
raised. Without a
running deadline nothing happens (log 1), and the time moves to the deadline (log 4). -/
def Sys2Proof.Says.ArrivalDeadlineAbandons : Prop :=
  ∀ (s : State) (c tag : Nat), s.running = true →
    ((∀ e, inClaim s c tag = some e → e.phase = .waiting) → exec (.arrivalDeadline c tag) s = .next s) ∧
    ∀ e d, inClaim s c tag = some e → e.phase = .granted d →
      ∃ t, exec (.arrivalDeadline c tag) s = .next t ∧ t.board.now = max s.board.now d ∧ inClaim t c tag = none
        ∧ (∀ y, vehicle t e.vehicle = some y → y.state = .arriving) ∧ flagSet t .handoffAbandoned = true
        ∧ ArrivingEnds s t e
        ∧ (occupancy s < 64 →
            s.fli.outbound ++ [frameOf s c 0x45 0 (peerBytes tag e.segment e.vehicle)] <+: t.fli.outbound)

/-- The two ends of an incoming claim whose vehicle did not arrive. -/
def Obligations.IncomingClaimEnds : Prop := Says.ClaimWithdrawEndsClaim ∧ Says.ArrivalDeadlineAbandons

/-- ARRIVED (R135): the move HANDED-OFF and removed, the vehicle's queued frames discarded, its record gone, its
holdings released, the entry gone whatever its phase; an entry still CLAIMING is first granted. A claim of another vehicle
that stands afterwards stood before or was made by the arbitration that follows. Where nothing is arbitrated the whole
effect is stated: what the vehicle held is left as R26 and R43 say, its boundary segment is FOREIGN, every other segment
keeps its state, only the report is sent. -/
def Obligations.ArrivedEndsCrossing : Prop :=
  ∀ (s : State) (f : FloorFrame) (rest : List FloorFrame) (e : OutClaim), TakesAnswer s f rest 0x44 e [] →
    ∃ t, exec .arrived s = .next t
      ∧ (∀ y, vehicle t e.vehicle = some y → y.state = .arriving)
      ∧ t.tli.queue = s.tli.queue.filter (fun q => q.src ≠ e.vehicle)
      ∧ (∀ c ∈ t.bxu.outClaims, c ∈ s.bxu.outClaims ∧ c.tag ≠ e.tag
          ∨ c.vehicle ≠ e.vehicle ∧ c.phase = .claiming (s.board.now + s.layout.tuning.tClaim))
      ∧ (∀ x m y, vehicle s e.vehicle = some x → x.move = some m → findMove s m = some y →
          findMove t m = none
          ∧ (occupancy s < 56 →
              s.fli.outbound ++ [moveReport s m 12 (y.vehicle.getD 0) y.age] <+: t.fli.outbound))
      ∧ ∀ x m y, Unarbitrated s → vehicle s e.vehicle = some x → x.move = some m → findMove s m = some y →
          t.bxu = { s.bxu with outClaims := s.bxu.outClaims.filter fun c => c.tag ≠ e.tag }
          ∧ t.roster = s.roster.filter (fun p => p.2.id ≠ e.vehicle)
          ∧ (∀ i, i ∉ x.held → i ≠ e.segment → resOf t i = resOf s i)
          ∧ (∀ i q, i ∈ x.held → i ≠ e.segment → resOf s i = some q → ∃ r, resOf t i = some r ∧ LeftBy e.vehicle q r)
          ∧ (claiming e ∧ resOf s e.segment ≠ none
              ∨ e.segment ∈ x.held ∧ resOf s e.segment = some (.borrowed e.vehicle) →
              resOf t e.segment = some .foreign)
          ∧ (∀ i, waitsOf t i = (waitsOf s i).filter fun w => !w.isVehicle e.vehicle)
          ∧ (occupancy s < 56 →
              t.fli.outbound = s.fli.outbound ++ [moveReport s m 12 (y.vehicle.getD 0) y.age])

/-- ABANDON (R136): a DEPARTING vehicle becomes LOST with resume state LADEN, fault mark clear and a HOLD due, waiting
nowhere, its BORROWED segment gone from its list; a vehicle whose claim was CLAIMING stays as it was; HANDOFF-ABANDONED is
raised. The entry is gone, and its segment FOREIGN or, where it is arbitrated, claimed for a vehicle that waited there;
with no two entries for one vehicle, which is part of the invariant (R129). -/
def Obligations.AbandonGivesUpCrossing : Prop :=
  ∀ (s : State) (f : FloorFrame) (rest : List FloorFrame) (e : OutClaim), TakesAnswer s f rest 0x45 e [] →
    ∃ t, exec .abandon s = .next t ∧ flagSet t .handoffAbandoned = true
      ∧ (∀ x, vehicle s e.vehicle = some x → ∃ y, vehicle t e.vehicle = some y ∧ y.move = x.move ∧ y.carrier = x.carrier
          ∧ (claiming e → y.state = x.state)
          ∧ (¬ claiming e → y.state = .lost .laden false ∧ y.heardBy = none ∧ y.due.hold = some 0
              ∧ y.due.stopMark = true ∧ y.held = x.held.filter (· ≠ e.segment))
          ∧ (claiming e → Unarbitrated s → y.held = x.held))
      ∧ (¬ claiming e → ∀ i, ∀ w ∈ waitsOf t i, w.isVehicle e.vehicle = false)
      ∧ ((∀ c ∈ s.bxu.outClaims, c.vehicle = e.vehicle → c = e) → EntryEnds s t e)

/-- A peer frame of wrong length, or an answer that matches no entry, is discarded; one from a cell outside the
neighbour list raises FLOOR-REJECT (R128, R190). The order of the two tests is the model's (log 13), and so is the
event's cell none for a source above 63 (log 22). -/
def Obligations.PeerFramesDiscarded : Prop :=
  ∀ (s : State) (f : FloorFrame) (rest : List FloorFrame) (c : Instr) (kind size : Nat),
    (c, kind, size) ∈ [(Instr.claim, 0x40, 15), (.claimGrant, 0x41, 4), (.claimRefuse, 0x42, 5),
      (.claimWithdraw, 0x43, 4), (.arrived, 0x44, 4), (.abandon, 0x45, 4)] →
    Takes s f rest → f.kind = kind →
    (f.payload.length ≠ size → exec c s = .next (popped s rest)) ∧
    (f.payload.length = size → f.src ∉ s.mc.identity.neighbours →
      exec c s = .next (raise .floorReject { noDetail with cell := if f.src ≤ 63 then some f.src else none }
        (popped s rest))) ∧
    (c ∈ [Instr.claimGrant, .claimRefuse, .arrived, .abandon] → f.payload.length = size →
      f.src ∈ s.mc.identity.neighbours →
      (∀ e ∈ s.bxu.outClaims, ¬ (peerBytes e.tag e.segment e.vehicle <+: f.payload
        ∧ e.tag < 256 ∧ e.segment < 65536 ∧ e.vehicle < 256 ∧ ownerOf s e.segment = some f.src)) →
      exec c s = .next (popped s rest))

/-! ### The lines as receivers (R146 to R149, R160, R161, R188 to R190) -/

/-- A floor frame received whole is queued if it is addressed to this cell and of a kind the engine takes; a full
queue raises FLOOR-OVERRUN; other bytes change nothing (R160, R187, R189, R190). The front outbound frame leaves when
sent (R161) and is kept as the last one sent (log 31); an empty queue has nothing to send (log 1). -/
def Obligations.FloorFramesArriveAndLeave : Prop :=
  (∀ (s : State) (f : FloorFrame) (dst src kind : Byte) (t1 t0 l1 l0 c1 c0 : Byte) (payload : List Byte),
    s.running = true →
    f = { dst := dst.toNat, src := src.toNat, kind := kind.toNat, tag := num2 t1 t0, payload := payload } →
    let head := [dst, src, kind, t1, t0, l1, l0] ++ payload
    let bs := head ++ [c1, c0]
    (payload.length ≠ num2 l1 l0 ∨ 320 < payload.length → exec (.floorFrameArrival bs) s = .next s) ∧
    (payload.length = num2 l1 l0 → payload.length ≤ 320 → (crc16 head).toNat ≠ num2 c1 c0 →
      exec (.floorFrameArrival bs) s = .next s) ∧
    (payload.length = num2 l1 l0 → payload.length ≤ 320 → (crc16 head).toNat = num2 c1 c0 →
      exec (.floorFrameArrival bs) s = .next (
        if (∃ n, s.mc.identity.cell = some n ∧ f.dst ≠ n ∧ f.dst ≠ 255) ∨ f.kind ∈ [0x60, 0x61, 0x62] then s
        else if 16 ≤ s.fli.inbound.length then raise .floorOverrun noDetail s
        else { s with fli := { s.fli with inbound := s.fli.inbound ++ [f] } }))) ∧
  (∀ (s : State) (bs : List Byte), s.running = true → bs.length < 9 → exec (.floorFrameArrival bs) s = .next s) ∧
  (∀ (s : State) (f : FloorFrame) (rest : List FloorFrame), s.running = true → s.fli.outbound = f :: rest →
    exec .floorFrameSent s = .next { s with fli := { s.fli with outbound := rest, sent := some f } }) ∧
  (∀ s : State, s.running = true → s.fli.outbound = [] → exec .floorFrameSent s = .next s)

namespace Sys2Proof.Says

def statusCode : StatusEvent → Nat
  | .confirm => 0
  | .hoistStart => 1
  | .hoistDone => 2
  | .hoistFault => 3
  | .fault => 4
  | .cleared => 5

def kindOf : VehicleFrame → Byte
  | .join _ _ _ _ => 1
  | .position _ _ _ => 2
  | .status _ _ _ _ _ => 3

/-- The payload of a vehicle frame (R188). -/
def payloadOf : VehicleFrame → List Byte
  | .join seg present carrier move => bytes2 seg ++ [yes present] ++ bytes4 carrier ++ bytes2 move
  | .position seg need load => bytes2 seg ++ [byte need, yes load]
  | .status ev seg move present carrier =>
    [byte (statusCode ev)] ++ bytes2 seg ++ bytes2 move ++ [yes present] ++ bytes4 carrier

/-- Every field fits its place in the frame. -/
def Fits : VehicleFrame → Prop
  | .join seg _ carrier move => seg < 65536 ∧ carrier < 4294967296 ∧ move < 65536
  | .position seg need _ => seg < 65536 ∧ need < 256
  | .status _ seg move _ carrier => seg < 65536 ∧ move < 65536 ∧ carrier < 4294967296

/-- A frame whose length and check hold (R187). -/
def Intact (f : TrackFrame) : Prop :=
  f.stray = 0 ∧ f.payload.length ≤ 16 ∧ f.len = byte f.payload.length
    ∧ f.check = crc16 ([byte f.prio, f.src, f.kind, f.len] ++ f.payload)

/-- The engine's line is idle, or its frame loses against priority `prio` (R144). -/
def Heard (s : State) (prio : Nat) : Prop := ∀ g ∈ s.tli.line, prio < g.prio

/-- The answer given, no frame of the engine on the line, nothing else changed. -/
def answering (s : State) (a : Answer) : State := { s with tli := { s.tli with line := none, answer := some a } }

/-- ACCEPT, or ACCEPT-PACE in PACING. -/
def accepting (pacing : Bool) : Answer := if pacing then .acceptPace else .accept

/-- The pacing state for an occupancy (R148). -/
def pacingAt (t : Tuning) (pacing : Bool) (n : Nat) : Bool := if pacing then !(decide (n < t.lresume)) else decide (t.lpace < n)

/-- A POSITION of `src` waits in the entry. -/
def WaitsFor (src : Nat) (e : TrackEntry) : Prop := e.src = src ∧ ∃ seg need load, e.body = .position seg need load

/-- The frame is a POSITION. -/
def IsPosition (b : VehicleFrame) : Prop := ∃ seg need load, b = .position seg need load

/-- A vehicle frame is accepted, coalesced or refused as busy (R146, R147, R148, R188). -/
def VehicleFrameTaken : Prop :=
  ∀ (s : State) (f : TrackFrame) (b : VehicleFrame) (src : Nat), s.running = true → Heard s f.prio → Intact f →
    Fits b → f.kind = kindOf b → f.payload = payloadOf b → f.src = byte src → src < 256 →
    (src = 0 ∨ src = 255 → exec (.trackFrameReceived (.frame f)) s = .next (answering s .accept)) ∧
    (1 ≤ src → src ≤ 254 →
      (IsPosition b → (∃ e ∈ s.tli.queue, WaitsFor src e) →
        ∃ t : State, exec (.trackFrameReceived (.frame f)) s = .next t
          ∧ t = { answering s (accepting s.tli.pacing) with tli := t.tli }
          ∧ t.tli = { (answering s (accepting s.tli.pacing)).tli with queue := t.tli.queue }
          ∧ t.tli.queue.length = s.tli.queue.length
          ∧ ∀ (i : Nat) (e : TrackEntry), s.tli.queue[i]? = some e →
              (WaitsFor src e → t.tli.queue[i]? = some (TrackEntry.mk src b s.tli.pacing)) ∧
              (¬ WaitsFor src e → t.tli.queue[i]? = some e)) ∧
      (¬ (IsPosition b ∧ ∃ e ∈ s.tli.queue, WaitsFor src e) →
        (32 ≤ s.tli.queue.length → exec (.trackFrameReceived (.frame f)) s = .next (answering s .refuseBusy)) ∧
        (s.tli.queue.length < 32 →
          let p := pacingAt s.layout.tuning s.tli.pacing (s.tli.queue.length + 1)
          exec (.trackFrameReceived (.frame f)) s = .next { s with tli := { s.tli with
            line := none, answer := some (accepting p), pacing := p
            queue := s.tli.queue ++ [{ src := src, body := b, paced := p }] } })))

/-- A frame that fails its check, is cut short or malformed, or is of another kind never reaches the queue (R146,
R188); a frame that loses arbitration is not received (R144, log 24). -/
def VehicleFrameDiscarded : Prop :=
  ∀ (s : State) (f : TrackFrame), s.running = true →
    (s.tli.line = none →
      exec (.trackFrameReceived .short) s = .next (raise .trackCheck noDetail (answering s .refuseCheck))) ∧
    (Heard s f.prio →
      (¬ Intact f → exec (.trackFrameReceived (.frame f)) s = .next
        (raise .trackCheck noDetail (answering s .refuseCheck))) ∧
      (Intact f → f.kind ∉ [(1 : Byte), 2, 3] → exec (.trackFrameReceived (.frame f)) s = .next (answering s .accept)) ∧
      (Intact f → (f.kind = 1 ∧ f.payload.length ≠ 9 ∨ f.kind = 2 ∧ f.payload.length ≠ 4
          ∨ f.kind = 3 ∧ (f.payload.length ≠ 10 ∨ ∀ c ∈ f.payload.head?, 5 < c.toNat)) →
        exec (.trackFrameReceived (.frame f)) s = .next (raise .trackCheck noDetail (answering s .accept)))) ∧
    (∀ g, s.tli.line = some g → g.prio ≤ f.prio →
      exec (.trackFrameReceived (.frame f)) s = .next s ∧ exec (.trackFrameReceived .short) s = .next s)

end Sys2Proof.Says

/-- What the TLI answers to a frame on the line and what becomes of it. -/
def Obligations.TrackFramesAnswered : Prop := Says.VehicleFrameTaken ∧ Says.VehicleFrameDiscarded

/-! ### Vehicle frames (R68 to R76, R80, R25 to R27, R41, R42) -/

namespace Sys2Proof.Says

/-- The command that takes a vehicle frame. -/
def rowOf : VehicleFrame → Instr
  | .join _ _ _ _ => .join
  | .position _ _ _ => .position
  | .status .confirm _ _ _ _ => .statusConfirm
  | .status .hoistStart _ _ _ _ => .statusHoistStart
  | .status .hoistDone _ _ _ _ => .statusHoistDone
  | .status .hoistFault _ _ _ _ => .statusHoistFault
  | .status .fault _ _ _ _ => .statusFault
  | .status .cleared _ _ _ _ => .statusCleared

end Sys2Proof.Says

/-- In PARKED an entry of the receive queue is discarded; a STATUS of an id without a record makes a HOLD due to the
id and changes nothing else (R68, R151). -/
def Obligations.FramesWithoutRecord : Prop :=
  ∀ (s : State) (e : TrackEntry) (rest : List TrackEntry), s.running = true → s.tli.queue = e :: rest →
    let taken : State := { s with tli := { s.tli with
      queue := rest, pacing := pacingAt s.layout.tuning s.tli.pacing rest.length } }
    (s.mode = .parked → exec (rowOf e.body) s = .next taken) ∧
    (s.mode ≠ .parked → vehicle s e.src = none → kindOf e.body = 3 →
      ∃ t : State, exec (rowOf e.body) s = .next t ∧ t = { taken with tli := t.tli }
        ∧ tget e.src t.tli.strayHolds = some 0
        ∧ t.tli = { taken.tli with strayHolds := t.tli.strayHolds, line := t.tli.line })

namespace Sys2Proof.Says

/-- A JOIN, or a POSITION of an id without a record taken as a JOIN (R76): its command and what it says. -/
def Joins (c : Instr) (b : VehicleFrame) (seg : Nat) (present : Bool) (carrier m : Nat) : Prop :=
  (c = .join ∧ b = .join seg present carrier m) ∨
    (c = .position ∧ (∃ need, b = .position seg need present) ∧ carrier = 0 ∧ m = 0)

/-- The fields a record made by a JOIN has whatever is reconciled (R71), and the state it takes. -/
def JoinedAs (s t : State) (e : TrackEntry) (seg : Nat) (st : VState) (y : Vehicle) : Prop :=
  vehicle t e.src = some y ∧ y.state = st ∧ y.held.head? = some seg ∧ y.nextMove = none ∧ y.need = 0
    ∧ y.pacing = e.paced ∧ y.heardBy = some (s.board.now + s.layout.tuning.tSilent) ∧ y.due.grant = some 0

/-- An unknown vehicle's JOIN at an own segment that is FREE or BLOCKED (R45, R71, R74, R75). -/
def UnknownJoins : Prop :=
  ∀ (s : State) (e : TrackEntry) (rest : List TrackEntry) (c : Instr) (seg carrier m : Nat) (present : Bool),
    TakesEntry s e rest → Joins c e.body seg present carrier m → vehicle s e.src = none → s.roster.length < 64 →
    resOf s seg = some .free ∨ resOf s seg = some .blocked →
    (present = false → ∃ t y, exec c s = .next t ∧ JoinedAs s t e seg (.work .idle) y ∧ y.move = none ∧ y.carrier = none) ∧
    (present = true → m ≠ 0 → carrier ≠ 0 → (∃ x, findMove s m = some x ∧ x.state = .waiting ∧ x.carrier = carrier) →
      ∃ t y z, exec c s = .next t ∧ JoinedAs s t e seg (.work .laden) y ∧ y.move = some m ∧ y.carrier = some carrier
        ∧ findMove t m = some z ∧ z.state = .carrying ∧ z.vehicle = some e.src ∧ z.carrier = carrier) ∧
    (present = true → (m = 0 ∨ carrier = 0 ∨ ∀ x, findMove s m = some x → x.state ≠ .waiting ∨ x.carrier ≠ carrier) →
      s.mq.moves.length < 128 →
      ∃ t y z k, exec c s = .next t ∧ JoinedAs s t e seg (.work .laden) y ∧ y.move = some k ∧ y.carrier = some carrier
        ∧ findMove s k = none ∧ (∀ j, k < j → j ≤ 65535 → findMove s j ≠ none)
        ∧ findMove t k = some z ∧ z.state = .unrouted ∧ z.vehicle = some e.src ∧ z.carrier = carrier ∧ z.dest = none)

/-- An unknown vehicle's JOIN that finds the roster full (R72), another vehicle (R45, R74), or nothing it can mark. -/
def UnknownJoinStopped : Prop :=
  ∀ (s : State) (e : TrackEntry) (rest : List TrackEntry) (c : Instr) (seg carrier m : Nat) (present : Bool),
    TakesEntry s e rest → Joins c e.body seg present carrier m → vehicle s e.src = none →
    (64 ≤ s.roster.length →
      ∃ t, exec c s = .next t ∧ flagSet t .rosterFull = true ∧ vehicle t e.src = none
        ∧ tget e.src t.tli.strayHolds = some 0 ∧ t.srt = s.srt) ∧
    (s.roster.length < 64 → (∃ u, resOf s seg = some (.reserved u) ∨ resOf s seg = some (.occupied u none)) →
      present = false →
      ∃ t y, exec c s = .next t ∧ flagSet t .positionConflict = true ∧ JoinedAs s t e seg (.faulted .idle) y
        ∧ y.due.hold = some 0 ∧ y.due.stopMark = true) ∧
    (s.roster.length < 64 → (resOf s seg).bind (markFor e.src) = none →
      ∃ t, exec c s = .next t ∧ flagSet t .positionConflict = true ∧ vehicle t e.src = none
        ∧ tget e.src t.tli.strayHolds = some 0 ∧ t.srt = s.srt)

/-- A JOIN of a known vehicle whose release starts no arbitration: it has no claim and no next move, and its own move
is `z`. -/
abbrev JoinsAgain (s : State) (e : TrackEntry) (rest : List TrackEntry) (x : Vehicle) (z : Move) : Prop :=
  TakesEntry s e rest ∧ Unarbitrated s ∧ vehicle s e.src = some x ∧ Present x
    ∧ (∀ d ∈ s.bxu.outClaims, d.vehicle ≠ e.src) ∧ x.nextMove = none ∧ x.move = some z.id ∧ findMove s z.id = some z

/-- A known vehicle's JOIN at a FREE segment, without a carrier (R71, R73): its ASSIGNED or ENROUTE move waits again with
a WITHDRAW due, any other move of it is FAILED, and its record is set afresh. -/
def KnownJoins : Prop :=
  ∀ (s : State) (e : TrackEntry) (rest : List TrackEntry) (seg carrier m k : Nat) (x : Vehicle) (z : Move),
    JoinsAgain s e rest x z → k = z.id → e.body = .join seg false carrier m → resOf s seg = some .free →
    ∃ t y, exec .join s = .next t ∧ JoinedAs s t e seg (.work .idle) y ∧ y.held = [seg] ∧ y.move = none
      ∧ y.carrier = none ∧ resOf t seg = some (.occupied e.src none)
      ∧ (z.state = .assigned ∨ z.state = .enroute → y.due.withdraw = [k] ∧ ∃ w, findMove t k = some w
          ∧ w.state = .waiting ∧ w.vehicle = none ∧ w.age = z.age ∧ w.confirm = .absent)
      ∧ (z.state ≠ .assigned → z.state ≠ .enroute → y.due.withdraw = [] ∧ findMove t k = none)

/-- A known vehicle's JOIN at a FREE segment with the carrier of its own move, which it names (R71, R73, R75): the move is
linked again, its delivery taken up; a CANCELLING move turns into its return delivery (R109). A move id of 0 names no
move. -/
def KnownJoinsLaden : Prop :=
  ∀ (s : State) (e : TrackEntry) (rest : List TrackEntry) (seg carrier : Nat) (x : Vehicle) (z : Move),
    JoinsAgain s e rest x z → e.body = .join seg true carrier z.id → resOf s seg = some .free → z.carrier = carrier →
    z.id ≠ 0 → carrier ≠ 0 → z.state ∈ [.picking, .carrying, .delivering, .cancelling, .unrouted] →
    ∃ t y w, exec .join s = .next t ∧ JoinedAs s t e seg (.work .laden) y ∧ y.held = [seg] ∧ y.move = some z.id
      ∧ y.carrier = some carrier ∧ resOf t seg = some (.occupied e.src none) ∧ findMove t z.id = some w
      ∧ w.vehicle = some e.src ∧ w.carrier = carrier ∧ w.age = z.age
      ∧ (z.state ∈ [.picking, .carrying, .delivering] →
          w.state = .carrying ∧ w.dest = z.dest ∧ w.returnFlag = z.returnFlag)
      ∧ (z.state = .cancelling → w.state = .carrying ∧ w.returnFlag = true
          ∧ ∀ n p, s.mc.identity.cell = some n → z.source = some p → w.dest = some (n * 256 + p))
      ∧ (z.state = .unrouted → w.state = .unrouted ∧ w.dest = z.dest)

/-- A known vehicle's JOIN at a FREE segment with a carrier that no move it may take accounts for: m = 0, also where its own
move is the record with id 0 (log 41), carrier 0, no such move, another carrier, or a move that neither waits nor was its
own (R71, R73, R75). A new UNROUTED record is linked; its ASSIGNED or ENROUTE move waits again, any other is FAILED. -/
def KnownJoinsUnrouted : Prop :=
  ∀ (s : State) (e : TrackEntry) (rest : List TrackEntry) (seg carrier m : Nat) (x : Vehicle) (z : Move),
    JoinsAgain s e rest x z → e.body = .join seg true carrier m → resOf s seg = some .free →
    (m = 0 ∨ carrier = 0 ∨ ∀ q, findMove s m = some q → q.carrier ≠ carrier ∨ m ≠ z.id ∧ q.state ≠ .waiting) →
    s.mq.moves.length < 128 →
    ∃ t y k w, exec .join s = .next t ∧ JoinedAs s t e seg (.work .laden) y ∧ y.held = [seg] ∧ y.move = some k
      ∧ y.carrier = some carrier ∧ resOf t seg = some (.occupied e.src none) ∧ findMove s k = none
      ∧ (∀ j, k < j → j ≤ 65535 → findMove s j ≠ none) ∧ findMove t k = some w ∧ w.state = .unrouted
      ∧ w.vehicle = some e.src ∧ w.carrier = carrier ∧ w.dest = none
      ∧ (z.state = .assigned ∨ z.state = .enroute → ∃ q, findMove t z.id = some q ∧ q.state = .waiting
          ∧ q.vehicle = none ∧ q.age = z.age)
      ∧ (z.state ≠ .assigned → z.state ≠ .enroute → findMove t z.id = none)

/-- The preemption list after a JOIN of a known vehicle names no move that was its own: a JOIN takes the new move off the
vehicle (R73, R123, R126). -/
def JoinEndsPreemption : Prop :=
  ∀ (s t : State) (e : TrackEntry) (rest : List TrackEntry) (seg carrier m : Nat) (present : Bool) (x : Vehicle) (z : Move),
    JoinsAgain s e rest x z → e.body = .join seg present carrier m → exec .join s = .next t →
    ∀ q ∈ t.asu.preempts, q.newMove ≠ z.id

/-- A known vehicle's JOIN at a segment another vehicle holds (R45, R61, R63, R74): POSITION-CONFLICT, the vehicle FAULTED
there with a HOLD due. Its path record and park target mark stay as they were (log 33). -/
def KnownJoinConflicts : Prop :=
  ∀ (s : State) (e : TrackEntry) (rest : List TrackEntry) (seg carrier m u : Nat) (present : Bool) (x : Vehicle) (z : Move),
    JoinsAgain s e rest x z → e.body = .join seg present carrier m → seg ∉ x.held →
    resOf s seg = some (.reserved u) ∨ resOf s seg = some (.occupied u none) →
    ∃ t y, exec .join s = .next t ∧ flagSet t .positionConflict = true
      ∧ JoinedAs s t e seg (.faulted (if present then .laden else .idle)) y ∧ y.held = [seg] ∧ y.due.hold = some 0
      ∧ y.due.stopMark = true ∧ y.path = x.path ∧ y.parkMark = x.parkMark
      ∧ resOf t seg = some (.occupied u (some e.src))

/-- A known vehicle's JOIN that can mark nothing (R44, R45, R73, R74): its record goes, a HOLD is due to the id, its
ASSIGNED or ENROUTE move waits again and any other move of it is FAILED. -/
def KnownJoinUnmarked : Prop :=
  ∀ (s : State) (e : TrackEntry) (rest : List TrackEntry) (seg carrier m : Nat) (present : Bool) (x : Vehicle) (z : Move),
    JoinsAgain s e rest x z → e.body = .join seg present carrier m → seg ∉ x.held →
    (resOf s seg).bind (markFor e.src) = none →
    ∃ t, exec .join s = .next t ∧ flagSet t .positionConflict = true ∧ vehicle t e.src = none
      ∧ tget e.src t.tli.strayHolds = some 0
      ∧ (z.state = .assigned ∨ z.state = .enroute → ∃ w, findMove t z.id = some w ∧ w.state = .waiting ∧ w.vehicle = none)
      ∧ (z.state ≠ .assigned → z.state ≠ .enroute → findMove t z.id = none)

end Sys2Proof.Says

/-- What a JOIN does (R71 to R76). That a GRANT is due at every JOIN is the model's (log 14). -/
def Obligations.JoinSetsRecord : Prop :=
  Says.UnknownJoins ∧ Says.UnknownJoinStopped ∧ Says.KnownJoins ∧ Says.KnownJoinsLaden ∧ Says.KnownJoinsUnrouted
    ∧ Says.KnownJoinConflicts ∧ Says.KnownJoinUnmarked ∧ Says.JoinEndsPreemption

/-- A POSITION or JOIN of an ARRIVING vehicle at its boundary segment completes the arrival (R69, R110, R141); one
naming another segment changes nothing but the flag of R149. A STATUS FAULT or HOIST-FAULT is noted with a HOLD. That a
carried move id of 0 makes its record too is the model's choice (log 41). -/
def Sys2Proof.Says.ArrivalTaken : Prop :=
  ∀ (s : State) (e : TrackEntry) (rest : List TrackEntry) (c : Instr) (seg : Nat) (x : Vehicle) (q : InClaim) (d : Nat),
    TakesEntry s e rest → vehicle s e.src = some x → x.state = .arriving → grantedClaimOf s e.src = some q →
    q.phase = .granted d →
    ((∃ b cr m, c = .join ∧ e.body = .join seg b cr m) ∨ (∃ n b, c = .position ∧ e.body = .position seg n b) →
      (seg ≠ q.segment → exec c s = .next (heard s e rest)) ∧
      (seg = q.segment → s.mq.moves.length < 128 → findMove s q.summary.move = none → x.held = [seg] →
        ∃ t y z, exec c s = .next t ∧ inClaim t q.cell q.tag = none ∧ vehicle t e.src = some y
          ∧ y.state = (if x.due.stopMark then .faulted .laden else .work .laden) ∧ y.held.head? = some seg
          ∧ y.move = some q.summary.move ∧ y.carrier = some q.summary.carrier
          ∧ y.heardBy = some (s.board.now + s.layout.tuning.tSilent)
          ∧ findMove t q.summary.move = some z ∧ z.state = .carrying ∧ z.vehicle = some e.src
          ∧ z.carrier = q.summary.carrier ∧ z.dest = some q.summary.dest ∧ z.age = q.summary.age
          ∧ z.cls = q.summary.cls)) ∧
    (∀ m b cr, (c = .statusFault ∧ e.body = .status .fault seg m b cr)
        ∨ (c = .statusHoistFault ∧ e.body = .status .hoistFault seg m b cr) →
      ∃ t y, exec c s = .next t ∧ flagSet t .vehicleFault = true ∧ vehicle t e.src = some y ∧ y.state = .arriving
        ∧ y.due.hold = some 0 ∧ y.due.stopMark = true ∧ y.held = x.held)

/-- The frames of an arrival in their order (R141): the report of the carried move, then at most notices of the path
build, then ARRIVED; what the position's extension sends comes after them. That a carried move id of 0 is reported too is
the model's choice (log 41). -/
def Sys2Proof.Says.ArrivalInOrder : Prop :=
  ∀ (s : State) (e : TrackEntry) (rest : List TrackEntry) (need d : Nat) (load : Bool) (x : Vehicle) (q : InClaim),
    TakesEntry s e rest → RosterOk s.roster → vehicle s e.src = some x → x.state = .arriving →
    grantedClaimOf s e.src = some q → q.phase = .granted d → x.held = [q.segment] →
    e.body = .position q.segment need load → s.mq.moves.length < 128 → findMove s q.summary.move = none →
    occupancy s < 54 →
    ∃ t mid tail, exec .position s = .next t ∧ (∀ g ∈ mid, g.kind = 0x62)
      ∧ t.fli.outbound = s.fli.outbound ++ [moveReport s q.summary.move 5 e.src q.summary.age] ++ mid
          ++ [frameOf s q.cell 0x44 0 (peerBytes q.tag q.segment e.src)] ++ tail

/-- The arrival of a handed-over vehicle. For a carried move id of 0, which no move has (R88), the record and its report are
the model's choice (log 41). -/
def Obligations.ArrivalCompletes : Prop := Says.ArrivalTaken ∧ Says.ArrivalInOrder

namespace Sys2Proof.Says

/-- A POSITION of a present vehicle. -/
abbrev TakesPosition (s : State) (e : TrackEntry) (rest : List TrackEntry) (seg need : Nat) (x : Vehicle) : Prop :=
  TakesEntry s e rest ∧ (∃ load, e.body = .position seg need load) ∧ vehicle s e.src = some x ∧ Present x

end Sys2Proof.Says

/-- A consistent POSITION (R25 to R27, R68): the need is stored, what lies before the segment is released, the
segment becomes the occupied first entry, a GRANT is due where the list changed. The releases are stated for HALTED,
where no arbitration or extension follows, and with every outgoing claim at a foreign BOUNDARY segment, which is part of
the invariant (R129). -/
def Sys2Proof.Says.PositionReleases : Prop :=
  ∀ (s : State) (e : TrackEntry) (rest : List TrackEntry) (seg need : Nat) (x : Vehicle),
    TakesPosition s e rest seg need x → seg ∈ x.held →
    (∃ t y, exec .position s = .next t ∧ vehicle t e.src = some y ∧ y.need = min need 4 ∧ y.state = x.state
      ∧ y.move = x.move ∧ y.carrier = x.carrier ∧ y.pacing = e.paced ∧ t.tli.queue = rest
      ∧ (x.state ≠ .departing → y.held.head? = some seg ∧ (x.held.head? ≠ some seg → y.due.grant = some 0))) ∧
    (s.mode = .halted → x.state ≠ .departing →
      (∀ c ∈ s.bxu.outClaims, ∃ q, resOf s c.segment = some q ∧ q.isForeignKind = true) →
      ∃ t y, exec .position s = .next t ∧ vehicle t e.src = some y ∧ y.held = x.held.drop (x.held.idxOf seg)
        ∧ y.heardBy = some (s.board.now + s.layout.tuning.tSilent)
        ∧ (resOf s seg = some (.reserved e.src) ∨ resOf s seg = some (.occupied e.src none) →
            resOf t seg = some (.occupied e.src none))
        ∧ (∀ i ∈ x.held.take (x.held.idxOf seg),
            (resOf s i = some (.reserved e.src) ∨ resOf s i = some (.occupied e.src none) → resOf t i = some .free) ∧
            (∀ h, resOf s i = some (.blockPending e.src h none) → resOf t i = some .blocked) ∧
            (∀ u, u ≠ e.src → resOf s i = some (.occupied u (some e.src)) → resOf t i = some (.occupied u none)))
        ∧ (∀ i, i ≠ seg → i ∉ x.held.take (x.held.idxOf seg) → resOf t i = resOf s i)
        ∧ ∀ i, waitsOf t i = waitsOf s i) ∧
    (s.mode = .halted → x.state = .departing → ∀ a b, x.held = a ++ [b, seg] → seg ∉ a ++ [b] →
      ∃ t y, exec .position s = .next t ∧ vehicle t e.src = some y ∧ y.state = .departing ∧ y.held = [b, seg]
        ∧ resOf t seg = resOf s seg
        ∧ (b ∉ a → resOf s b = some (.reserved e.src) → resOf t b = some (.occupied e.src none)))

namespace Sys2Proof.Says

/-- In DISPATCHING a consistent POSITION does what it does in HALTED, and then arbitrates: each segment it released, in the
order of release, then zone by zone in ascending number the FREE segments of the zones whose count fell, and last the
reporter's extension step (R25 steps 2 to 4, R32). -/
def ReleasedArbitrated : Prop :=
  ∀ (s u : State) (e : TrackEntry) (rest : List TrackEntry) (seg need : Nat) (x : Vehicle),
    TakesPosition s e rest seg need x → seg ∈ x.held → s.mode = .dispatching → RosterOk s.roster →
    exec .position { s with mc := { s.mc with mode := .halted } } = .next u →
    ∃ y, vehicle u e.src = some y ∧
      let freed := x.held.take (x.held.length - y.held.length)
      let fallen := (List.range 32).filter fun z => decide (zoneCount u z < zoneCount s z)
      exec .position s = .next (run (freed.map .arb ++ fallen.map (.scanZone · 0) ++ [.extend e.src])
        { u with mc := { u.mc with mode := .dispatching } })

/-- Vehicle `e.src`, in service at the one segment it holds and waiting nowhere else than at `i`, reports in DISPATCHING
and asks for more; segment `i` is the next of its path. -/
abbrev Extends (s : State) (e : TrackEntry) (rest : List TrackEntry) (seg need i : Nat) (x : Vehicle) : Prop :=
  TakesPosition s e rest seg need x ∧ s.mode = .dispatching ∧ RosterOk s.roster ∧ x.isWorking = true ∧ x.held = [seg]
    ∧ x.path.condition = .built ∧ 1 ≤ need ∧ 1 ≤ s.layout.grantWindow ∧ nextPathSegment s x.path = some i ∧ i ≠ seg

/-- Vehicle `v` waits nowhere. -/
def WaitsNowhere (s : State) (v : Nat) : Prop := ∀ p ∈ s.srt, ∀ w ∈ p.2.waits, w.isVehicle v = false

/-- A first round that ends in a wait: the next segment is held, BLOCKED or another vehicle's claim, or zone admission or
the Outgoing Claim List fails with nobody waiting there (R28, R29). -/
def RoundWaits (s : State) (v i : Nat) (q : Res) : Prop :=
  q = .free ∧ waitsOf s i = [] ∧ ¬ Admits s v i ∨ q = .foreign ∧ waitsOf s i = [] ∧ 8 ≤ s.bxu.outClaims.length
    ∨ q ≠ .free ∧ q ≠ .foreign ∧ q ≠ .claiming v

/-- The first round of the extension step behind a POSITION (R28, R29, R33): one segment taken with its GRANT, a claim
made, a wait list entered or kept, nothing behind a claim of its own. -/
def ExtensionRound : Prop :=
  ∀ (s : State) (e : TrackEntry) (rest : List TrackEntry) (seg need i : Nat) (x : Vehicle) (q : Res),
    Extends s e rest seg need i x → resOf s i = some q →
    (q = .free → waitsOf s i = [] → Admits s e.src i → min need s.layout.grantWindow = 1 →
      ∃ t y, exec .position s = .next t ∧ vehicle t e.src = some y ∧ y.held = [seg, i] ∧ y.due.grant = some 0
        ∧ y.path.cursor = some i ∧ y.path.remaining = x.path.remaining - 1 ∧ resOf t i = some (.reserved e.src)
        ∧ t.bxu = s.bxu ∧ t.fli = s.fli ∧ t.mq = s.mq) ∧
    (∀ m z, q = .foreign → waitsOf s i = [] → s.bxu.outClaims.length < 8 → x.move = some m → findMove s m = some z →
      ownerOf s i ≠ none → (∀ c ∈ s.bxu.outClaims, c.vehicle ≠ e.src ∧ c.segment ≠ i) →
      ∃ t y, exec .position s = .next t ∧ ClaimMade s t e.src i z ∧ vehicle t e.src = some y ∧ y.held = [seg]) ∧
    (RoundWaits s e.src i q → WaitsNowhere s e.src → (waitsOf s i).length < 4 →
      ∃ t y, exec .position s = .next t ∧ vehicle t e.src = some y ∧ y.held = [seg] ∧ t.bxu = s.bxu
        ∧ waitsOf t i = waitsOf s i ++ [{ who := .vehicle e.src seg, enteredAt := s.board.now }]
        ∧ (q = .blocked → flagSet t .pathBlocked = true)) ∧
    (RoundWaits s e.src i q → (∃ w ∈ waitsOf s i, w.isVehicle e.src = true) →
      ∃ t y, exec .position s = .next t ∧ vehicle t e.src = some y ∧ y.held = [seg] ∧ t.bxu = s.bxu ∧ t.su = s.su
        ∧ ∀ j, waitsOf t j = waitsOf s j) ∧
    (RoundWaits s e.src i q → WaitsNowhere s e.src → 4 ≤ (waitsOf s i).length →
      ∃ t y, exec .position s = .next t ∧ vehicle t e.src = some y ∧ y.held = [seg] ∧ t.bxu = s.bxu ∧ t.su = s.su
        ∧ ∀ j, waitsOf t j = waitsOf s j) ∧
    (q = .free → waitsOf s i ≠ [] → (∀ w ∈ waitsOf s i, ¬ Admissible s i w) → WaitsNowhere s e.src →
      (waitsOf s i).length < 4 →
      (¬ Admits s e.src i → ∃ t y, exec .position s = .next t ∧ vehicle t e.src = some y ∧ y.held = [seg]
        ∧ waitsOf t i = waitsOf s i ++ [{ who := .vehicle e.src seg, enteredAt := s.board.now }] ∧ resOf t i = some .free) ∧
      (Admits s e.src i → min need s.layout.grantWindow = 1 → ∃ t y, exec .position s = .next t
        ∧ vehicle t e.src = some y ∧ y.held = [seg, i] ∧ y.due.grant = some 0 ∧ y.path.cursor = some i
        ∧ waitsOf t i = waitsOf s i ∧ resOf t i = some (.reserved e.src))) ∧
    (q = .claiming e.src →
      ∃ t y, exec .position s = .next t ∧ vehicle t e.src = some y ∧ y.held = [seg] ∧ t.bxu = s.bxu
        ∧ ∀ j, waitsOf t j = waitsOf s j)

/-- Vehicle `v` holds fewer entries ahead than min(need, W), and `i` is the next segment of its path (R28 steps 1 and 2). -/
abbrev Wants (s : State) (v i : Nat) (x : Vehicle) : Prop :=
  vehicle s v = some x ∧ x.isWorking = true ∧ x.held.length - 1 < min x.need s.layout.grantWindow
    ∧ nextPathSegment s x.path = some i

/-- `t` is `s` with vehicle `v` entered last in the wait list of `i`, of at most three entries, and PATH-BLOCKED raised where
`i` is BLOCKED (R33). -/
def Entered (s t : State) (v i : Nat) (x : Vehicle) : Prop :=
  (waitsOf s i).length < 4 ∧
  let u : State := { s with srt := tmod i (fun r => { r with
    waits := r.waits ++ [{ who := .vehicle v (x.held.getLast?.getD 0), enteredAt := s.board.now }] }) s.srt }
  t = if resOf s i = some .blocked then raise .pathBlocked { noDetail with vehicle := v, segment := some i } u else u

/-- The rounds of an extension, each from the state the one before left (R28, R29, R33): a segment taken starts the next
round; where others wait at a FREE or FOREIGN segment the vehicle is entered and the segment arbitrated at once, and the
arbiter's round goes on if it wins; a full wait list is not entered, and the vehicle tries again at its next position; a
satisfied list, a path at its target, a claim or a wait ends the step. The step begins with the rounds for a BUILT path. For a
vehicle that waits nowhere. -/
def ExtensionRounds : Prop :=
  ∀ (s : State) (v : Nat) (x : Vehicle), s.mode = .dispatching → WaitsNowhere s v → vehicle s v = some x →
    x.held ≠ [] →
    (x.isWorking = true → x.path.condition = .built → taskStep (.extend v) s = ([.rounds v], s)) ∧
    (min x.need s.layout.grantWindow ≤ x.held.length - 1 ∨ nextPathSegment s x.path = none →
      taskStep (.rounds v) s = ([], s)) ∧
    ∀ i q, Wants s v i x → resOf s i = some q →
      (q = .free → waitsOf s i = [] → Admits s v i →
        ∃ t y, taskStep (.rounds v) s = ([.rounds v], t) ∧ vehicle t v = some y ∧ y.held = x.held ++ [i]
          ∧ y.path.cursor = some i ∧ y.due.grant = some 0 ∧ resOf t i = some (.reserved v)
          ∧ (∀ j, j ≠ i → resOf t j = resOf s j) ∧ (∀ j, waitsOf t j = waitsOf s j) ∧ t.bxu = s.bxu) ∧
      (∀ m z, q = .foreign → waitsOf s i = [] → s.bxu.outClaims.length < 8 → x.move = some m → findMove s m = some z →
        ownerOf s i ≠ none → (∀ c ∈ s.bxu.outClaims, c.vehicle ≠ v ∧ c.segment ≠ i) →
        ∃ t, taskStep (.rounds v) s = ([], t) ∧ ClaimMade s t v i z ∧ t.roster = s.roster) ∧
      (q = .claiming v → taskStep (.rounds v) s = ([], s)) ∧
      (q = .free ∨ q = .foreign → waitsOf s i ≠ [] →
        ((waitsOf s i).length < 4 → ∃ t, taskStep (.rounds v) s = ([.arb i], t) ∧ Entered s t v i x) ∧
        (4 ≤ (waitsOf s i).length → taskStep (.rounds v) s = ([.arb i], s))) ∧
      (RoundWaits s v i q →
        ((waitsOf s i).length < 4 → ∃ t, taskStep (.rounds v) s = ([], t) ∧ Entered s t v i x) ∧
        (4 ≤ (waitsOf s i).length → taskStep (.rounds v) s = ([], s)))

/-- At the target of its path the vehicle takes nothing and waits nowhere new (R28, R56). -/
def NothingAtTarget : Prop :=
  ∀ (s : State) (e : TrackEntry) (rest : List TrackEntry) (seg need : Nat) (x : Vehicle),
    TakesPosition s e rest seg need x → s.mode = .dispatching → RosterOk s.roster → x.isWorking = true → x.held = [seg] →
    x.path.condition = .built → nextPathSegment s x.path = none →
    ∃ t y, exec .position s = .next t ∧ vehicle t e.src = some y ∧ y.held = [seg] ∧ t.bxu = s.bxu
      ∧ ∀ j, waitsOf t j = waitsOf s j

/-! Paths asked segment by segment -/

/-- The path after `n` more segments were taken; none where it gives fewer (R56, R57). -/
def taken (s : State) (p : Path) : Nat → Option Path
  | 0 => some p
  | n + 1 => (taken s p n).bind fun q => (nextPathSegment s q).map fun i => advancePath s i q

/-- The cursor after `n` segments. -/
def cursorAt (s : State) (p : Path) (n : Nat) : Option Nat := (taken s p n).bind Path.cursor

/-- A BUILT path gives its walk, or its lead-in, route sequence and lead-out, segment by segment, and then nothing
(R54, R56, R57). -/
def PathStepsThrough : Prop :=
  (∀ (s : State) (u : Purpose) (s0 g k : Nat), Walks s s0 g k →
    (∀ j, j ≤ k → cursorAt s (walkPath u g s0 k) j = along s j s0) ∧ taken s (walkPath u g s0 k) (k + 1) = none) ∧
  (∀ (s : State) (u : Purpose) (s0 g a b li lo : Nat) (za zb : ZoneRec) (d : Descriptor), zoneRec s a = some za → zoneRec s b = some zb →
    (route s a b).desc = some d → 1 ≤ d.runLen → 1 ≤ d.runs → 1 ≤ d.legs → (∀ n ∈ d.sequence, 0 ≤ n) →
    d.sequence.getLast? = some (zb.entrySeg : Int) → Walks s s0 za.anchor li → Walks s zb.entrySeg g lo →
    let len := d.runLen * d.runs * d.legs
    let p := routePath u g s0 a b li len lo
    (∀ j, j ≤ li → cursorAt s p j = along s j s0) ∧
    (∀ j, j < len → cursorAt s p (li + 1 + j) = (d.sequence[j]?).map Int.toNat) ∧
    (∀ j, j ≤ lo → cursorAt s p (li + len + j) = along s j zb.entrySeg) ∧ taken s p (li + len + lo + 1) = none) ∧
  ∀ (s : State) (p : Path), p.condition ≠ .built → nextPathSegment s p = none

end Sys2Proof.Says

/-- What a consistent POSITION releases and arbitrates, and how the list is extended behind it along the path. -/
def Obligations.PositionReleasesBehind : Prop :=
  Says.PositionReleases ∧ Says.ReleasedArbitrated ∧ Says.ExtensionRound ∧ Says.ExtensionRounds ∧ Says.NothingAtTarget ∧ Says.PathStepsThrough

/-- A conflicting POSITION in DISPATCHING (R41, R42, R83, R178): the segment is marked, the reporter's held list
replaced, the reporter FAULTED with a HOLD due, and the engine HALTED. -/
def Sys2Proof.Says.ConflictHalts : Prop :=
  ∀ (s : State) (e : TrackEntry) (rest : List TrackEntry) (seg need : Nat) (x : Vehicle),
    TakesPosition s e rest seg need x → seg ∉ x.held → s.mode = .dispatching → s.asu.passRunning = false →
    severityOf s .positionConflict = .halt → (∀ d ∈ s.bxu.outClaims, d.vehicle ≠ e.src) →
    ∃ t y, exec .position s = .next t ∧ t.mode = .halted ∧ flagSet t .positionConflict = true
      ∧ t.tli.allHold = some 0 ∧ t.tli.resume = none ∧ t.asu.passDue = false
      ∧ vehicle t e.src = some y ∧ y.due.hold = some 0 ∧ y.due.stopMark = true ∧ y.nextMove = none
      ∧ y.state = .faulted (match x.state with | .work w => w | .faulted w => w | _ => .laden)
      ∧ (match resOf s seg with
          | some .free => resOf t seg = some (.occupied e.src none) ∧ y.held = [seg]
          | some .blocked => resOf t seg = some (.blockPending e.src .occupied none) ∧ y.held = [seg]
          | some (.reserved u) => resOf t seg = some (.occupied u (some e.src)) ∧ y.held = [seg]
          | some (.occupied u none) => resOf t seg = some (.occupied u (some e.src)) ∧ y.held = [seg]
          | some (.blockPending u _ none) => resOf t seg = some (.blockPending u .occupied (some e.src)) ∧ y.held = [seg]
          | r => resOf t seg = r ∧ y.held = x.held)

namespace Sys2Proof.Says

/-- The conflict marks its segment: FREE, BLOCKED, or held by one vehicle only (R41). -/
def Markable (s : State) (seg : Nat) : Prop :=
  ∃ r, resOf s seg = some r ∧ (r = .free ∨ r = .blocked ∨ (∃ u, r = .reserved u) ∨ (∃ u, r = .occupied u none)
    ∨ ∃ u h, r = .blockPending u h none)

/-- A conflict of vehicle `v` at `seg` with held list `held` left the segment and the list so (R41, R42). -/
def ConflictMarks (s t : State) (v seg : Nat) (held : List Nat) (y : Vehicle) : Prop :=
  (resOf s seg = some .free → resOf t seg = some (.occupied v none)) ∧
  (resOf s seg = some .blocked → resOf t seg = some (.blockPending v .occupied none)) ∧
  (∀ u, resOf s seg = some (.reserved u) ∨ resOf s seg = some (.occupied u none) →
    resOf t seg = some (.occupied u (some v))) ∧
  (∀ u h, resOf s seg = some (.blockPending u h none) → resOf t seg = some (.blockPending u .occupied (some v))) ∧
  (Markable s seg → y.held = [seg]) ∧ (¬ Markable s seg → resOf t seg = resOf s seg ∧ y.held = held)

/-- A conflicting POSITION of a vehicle with a claim (R41, R42, R134): the claim is withdrawn in either phase, its segment
is FOREIGN again, also where it is the segment reported, and leaves the held list if it was BORROWED. Where the conflict
marks nothing the list keeps its other entries, which is the model's reading (log 16). That CLAIM-WITHDRAW goes out before anything else is the model's order
(log 29). -/
def ConflictAndClaim : Prop :=
  ∀ (s : State) (e : TrackEntry) (rest : List TrackEntry) (seg need : Nat) (x : Vehicle) (d : OutClaim),
    TakesPosition s e rest seg need x → seg ∉ x.held →
    s.mode = .halted ∨ s.mode = .dispatching ∧ s.asu.passRunning = false ∧ severityOf s .positionConflict = .halt →
    d ∈ s.bxu.outClaims → d.vehicle = e.src →
    (∀ c ∈ s.bxu.outClaims, c.vehicle = e.src ∨ c.tag = d.tag → c = d) → resOf s d.segment ≠ none →
    ∃ t y, exec .position s = .next t ∧ t.mode = .halted ∧ vehicle t e.src = some y
      ∧ t.bxu = { s.bxu with outClaims := s.bxu.outClaims.filter fun c => c.tag ≠ d.tag }
      ∧ (d.segment ≠ seg → resOf t d.segment = some .foreign ∧ ConflictMarks s t e.src seg
          (match d.phase with | .claiming _ => x.held | .granted => x.held.filter (· ≠ d.segment)) y)
      ∧ (d.segment = seg → ¬ Markable s seg → resOf t seg = some .foreign ∧ y.held = x.held)
      ∧ (¬ Markable s seg → ∀ i, i ≠ d.segment → resOf t i = resOf s i)
      ∧ ∀ o, ownerOf s d.segment = some o → occupancy s < 64 →
          s.fli.outbound ++ [frameOf s o 0x43 0 (peerBytes d.tag d.segment e.src)] <+: t.fli.outbound

/-- The segment a vehicle frame names. -/
def namedSeg : VehicleFrame → Nat
  | .join seg _ _ _ => seg
  | .position seg _ _ => seg
  | .status _ seg _ _ _ => seg

/-- A POSITION or STATUS of a LOST vehicle that names a segment it does not hold (R80): a position conflict, in HALTED,
where nothing else follows; the vehicle becomes FAULTED with its resume state, heard from again, a HOLD due. -/
def LostConflict : Prop :=
  ∀ (s : State) (e : TrackEntry) (rest : List TrackEntry) (x : Vehicle) (w : WorkState) (mark : Bool),
    TakesEntry s e rest → s.mode = .halted → kindOf e.body ≠ 1 → vehicle s e.src = some x → x.state = .lost w mark →
    namedSeg e.body ∉ x.held → x.nextMove = none → (∀ d ∈ s.bxu.outClaims, d.vehicle ≠ e.src) →
    ∃ t y, exec (rowOf e.body) s = .next t ∧ flagSet t .positionConflict = true ∧ vehicle t e.src = some y
      ∧ y.state = .faulted w ∧ y.heardBy = some (s.board.now + s.layout.tuning.tSilent) ∧ y.due.hold = some 0
      ∧ y.due.stopMark = true ∧ y.move = x.move ∧ y.carrier = x.carrier ∧ y.need = x.need
      ∧ ConflictMarks s t e.src (namedSeg e.body) x.held y ∧ t.mq = s.mq

end Sys2Proof.Says

/-- Position conflicts: of a present vehicle, of one with a claim, of a LOST one. -/
def Obligations.PositionConflictHalts : Prop := Says.ConflictHalts ∧ Says.ConflictAndClaim ∧ Says.LostConflict

/-! ### STATUS frames of present vehicles (R81 to R84, R101 to R109, R124) -/

namespace Sys2Proof.Says

/-- What a STATUS says besides its event. -/
structure Said where
  seg : Nat
  move : Nat
  present : Bool
  carrier : Nat

/-- A STATUS of a present vehicle is taken. -/
abbrev TakesStatus (s : State) (e : TrackEntry) (rest : List TrackEntry) (ev : StatusEvent) (d : Said) (x : Vehicle) : Prop :=
  TakesEntry s e rest ∧ e.body = .status ev d.seg d.move d.present d.carrier ∧ vehicle s e.src = some x ∧ Present x

/-- The move `y` is the vehicle's own and the STATUS names it. -/
abbrev Concerns (s : State) (x : Vehicle) (d : Said) (y : Move) : Prop :=
  x.move = some d.move ∧ findMove s d.move = some y

/-- The segment of the STATUS is that of the move's source port. -/
abbrev AtSource (s : State) (d : Said) (y : Move) : Prop := ∃ p r, y.source = some p ∧ portRec s p = some r ∧ r.segment = d.seg

/-- The segment of the STATUS is that of the move's destination port in this cell. -/
abbrev AtDestination (s : State) (d : Said) (y : Move) : Prop :=
  ∃ n g r, s.mc.identity.cell = some n ∧ y.dest = some g ∧ g / 256 = n ∧ portRec s (g % 256) = some r ∧ r.segment = d.seg

/-- A change of working state: of the state in service, of the resume state while FAULTED (R101). -/
def worksAs (w : WorkState) : VState → VState
  | .faulted _ => .faulted w
  | .lost _ mark => .lost w mark
  | _ => .work w

end Sys2Proof.Says

/-- STATUS CONFIRM (R102): an ASSIGNED move becomes ENROUTE, its confirm deadline absent, a MOVE-REPORT queued, the
vehicle and its path unchanged, a preemption list entry for it removed and every other that stands kept (R123, R126); in a
later state it is a repeat; one that is not the vehicle's makes a WITHDRAW due (R107). -/
def Obligations.ConfirmMakesEnroute : Prop :=
  ∀ (s : State) (e : TrackEntry) (rest : List TrackEntry) (d : Said) (x : Vehicle), TakesStatus s e rest .confirm d x →
    (∀ y, Concerns s x d y → y.state = .assigned →
      ∃ t, exec .statusConfirm s = .next t
        ∧ findMove t d.move = some { y with state := .enroute, confirm := .absent }
        ∧ vehicle t e.src = vehicle (heard s e rest) e.src ∧ t.srt = s.srt ∧ t.bxu = s.bxu
        ∧ (∀ q ∈ t.asu.preempts, q ∈ s.asu.preempts ∧ q.newMove ≠ d.move)
        ∧ (∀ q ∈ s.asu.preempts, ∀ z, q.newMove ≠ d.move → findMove s q.newMove = some z → z.state = .assigned →
            z.vehicle = some q.vehicle → q ∈ t.asu.preempts)
        ∧ (occupancy s < 56 → t.fli.outbound = s.fli.outbound ++ [moveReport s d.move 3 (y.vehicle.getD 0) y.age])) ∧
    (∀ y, Concerns s x d y → y.state ≠ .assigned → exec .statusConfirm s = .next (heard s e rest)) ∧
    (x.move ≠ some d.move →
      (d.move = 0 → exec .statusConfirm s = .next (heard s e rest)) ∧
      (d.move ≠ 0 → ∃ t y, exec .statusConfirm s = .next t ∧ vehicle t e.src = some y ∧ d.move ∈ y.due.withdraw
        ∧ y.due.withdraw.length ≤ max 6 x.due.withdraw.length ∧ y.state = x.state ∧ t.mq = s.mq ∧ t.srt = s.srt))

/-- STATUS HOIST-START (R101, R103): at the source an ASSIGNED or ENROUTE move becomes PICKING and the vehicle
ACQUIRING, a preemption list entry for the move removed (R123, R126); at the destination a CARRYING move becomes DELIVERING
and the vehicle DEPOSITING; elsewhere it is a stray event. The undoing of a preemption is the last clause (R124). -/
def Sys2Proof.Says.HoistStarts : Prop :=
  ∀ (s : State) (e : TrackEntry) (rest : List TrackEntry) (d : Said) (x : Vehicle), TakesStatus s e rest .hoistStart d x →
    (∀ y, Concerns s x d y → y.state = .assigned ∨ y.state = .enroute → AtSource s d y →
      ∃ t z, exec .statusHoistStart s = .next t
        ∧ findMove t d.move = some { y with state := .picking, confirm := .absent }
        ∧ vehicle t e.src = some z ∧ z.state = worksAs .acquiring x.state ∧ z.held = x.held ∧ z.path = x.path
        ∧ ∀ q ∈ t.asu.preempts, q.newMove ≠ d.move) ∧
    (∀ y, Concerns s x d y → y.state = .carrying → AtDestination s d y →
      ∃ t z, exec .statusHoistStart s = .next t
        ∧ findMove t d.move = some { y with state := .delivering, confirm := .absent }
        ∧ vehicle t e.src = some z ∧ z.state = worksAs .depositing x.state ∧ z.held = x.held ∧ z.path = x.path
        ∧ (s.mode = .dispatching → x.isWorking = true → x.nextMove = none → severityOf s .reportLost ≠ .halt →
            t.asu.passDue = true)) ∧
    (∀ y, Concerns s x d y → (y.state = .picking ∨ y.state = .unrouted
        ∨ (y.state = .assigned ∨ y.state = .enroute) ∧ ¬ AtSource s d y ∨ y.state = .carrying ∧ ¬ AtDestination s d y) →
      exec .statusHoistStart s = .next (heard s e rest)) ∧
    (x.move ≠ some d.move → (∀ q ∈ s.asu.preempts, q.vehicle = e.src → q.oldMove ≠ d.move) → d.move ≠ 0 →
      ∃ t y, exec .statusHoistStart s = .next t ∧ vehicle t e.src = some y ∧ d.move ∈ y.due.withdraw ∧ t.mq = s.mq) ∧
    (∀ n y z, x.isWorking = true → x.move = some n → n ≠ d.move →
      s.asu.preempts.find? (fun q => q.vehicle == e.src && q.oldMove == d.move) =
        some { vehicle := e.src, newMove := n, oldMove := d.move } →
      findMove s n = some z → findMove s d.move = some y → y.state = .waiting → AtSource s d y →
      ∃ t u w v, exec .statusHoistStart s = .next t ∧ flagSet t .preemptLost = true
        ∧ findMove t n = some w ∧ w.state = .waiting ∧ w.vehicle = none ∧ w.age = z.age ∧ w.confirm = .absent
        ∧ findMove t d.move = some u ∧ u.state = .picking ∧ u.vehicle = some e.src
        ∧ vehicle t e.src = some v ∧ v.state = .work .acquiring ∧ v.move = some d.move ∧ v.due.assign = none
        ∧ n ∈ v.due.withdraw ∧ ∀ q ∈ t.asu.preempts, q.vehicle ≠ e.src)

namespace Sys2Proof.Says

/-- Vehicle `e.src`, preempted from the move its HOIST-START names for its present move `n`, starts a hoist at the source
of the old move `y` (R124). -/
abbrev StartsOldHoist (s : State) (e : TrackEntry) (rest : List TrackEntry) (d : Said) (x : Vehicle) (n : Nat) : Prop :=
  TakesStatus s e rest .hoistStart d x ∧ x.move = some n ∧ n ≠ d.move
    ∧ s.asu.preempts.find? (fun q => q.vehicle == e.src && q.oldMove == d.move) =
        some { vehicle := e.src, newMove := n, oldMove := d.move }

/-- The preemption of the old move `y` for `z` is undone (R124): the new move waits again with its age, the old one is
PICKING on the vehicle, which is ACQUIRING, or to be so while FAULTED; the ASSIGN is discarded and a WITHDRAW due for the
new move, none for the old one; the entry is gone. -/
def PreemptionUndone (s t : State) (v : Nat) (x : Vehicle) (y z : Move) : Prop :=
  flagSet t .preemptLost = true ∧ findMove t z.id = some { z with state := .waiting, vehicle := none, confirm := .absent }
    ∧ findMove t y.id = some { y with state := .picking, vehicle := some v, confirm := .absent }
    ∧ (∃ w, vehicle t v = some w ∧ w.state = worksAs .acquiring x.state ∧ w.move = some y.id ∧ w.due.assign = none
        ∧ z.id ∈ w.due.withdraw ∧ y.id ∉ w.due.withdraw)
    ∧ (∀ q ∈ t.asu.preempts, q.vehicle ≠ v)
    ∧ ∃ new, t.fli.outbound = s.fli.outbound ++ new ∧ (new.filter fun g => g.kind == 0x61).Sublist
        [moveReport s z.id 0 0 z.age, moveReport s y.id 4 v y.age]

/-- The old move of a preemption is taken back from the vehicle `u` that has it, and the preemption undone; no report tells
of the taking back (R124). An ASSIGNED-NEXT move leaves its vehicle DEPOSITING without a next move; from an ASSIGNED or
ENROUTE one the ASSIGN is discarded, a WITHDRAW is due, and the vehicle, or its resume state, is IDLE without a move. In
DISPATCHING a pass is due, unless an event of the handling halts the engine. -/
def PreemptedTakenBack : Prop :=
  ∀ (s : State) (e : TrackEntry) (rest : List TrackEntry) (d : Said) (x xu : Vehicle) (n u : Nat) (y z : Move),
    StartsOldHoist s e rest d x n → findMove s n = some z → findMove s d.move = some y → AtSource s d y →
    y.vehicle = some u → u ≠ e.src → vehicle s u = some xu →
    (y.state = .assignedNext →
      ∃ t w, exec .statusHoistStart s = .next t ∧ PreemptionUndone s t e.src x y z ∧ vehicle t u = some w
        ∧ w.nextMove = none ∧ w.state = xu.state ∧ w.move = xu.move ∧ w.carrier = xu.carrier) ∧
    (y.state = .assigned ∨ y.state = .enroute →
      ∃ t w, exec .statusHoistStart s = .next t ∧ PreemptionUndone s t e.src x y z ∧ vehicle t u = some w
        ∧ w.move = none ∧ w.state = worksAs .idle xu.state ∧ w.due.assign = none ∧ d.move ∈ w.due.withdraw
        ∧ (s.mode = .dispatching → t.mode = .dispatching → t.asu.passDue = true))

/-- A preemption that is not undone (R124): where the old move is PICKING or in a later state on a vehicle, or absent, a
WITHDRAW for it is due and the entry is removed; away from its source a WITHDRAW is due and the entry stands. No move
changes. -/
def PreemptionKept : Prop :=
  ∀ (s : State) (e : TrackEntry) (rest : List TrackEntry) (d : Said) (x : Vehicle) (n : Nat),
    StartsOldHoist s e rest d x n → d.move ≠ 0 →
    (findMove s d.move = none ∨ (∃ y, findMove s d.move = some y ∧ AtSource s d y ∧ y.vehicle ≠ none
        ∧ y.state ∈ [.picking, .carrying, .delivering, .cancelling, .unrouted]) →
      ∃ t w, exec .statusHoistStart s = .next t ∧ vehicle t e.src = some w ∧ d.move ∈ w.due.withdraw
        ∧ w.state = x.state ∧ w.move = x.move ∧ t.mq = s.mq ∧ t.srt = s.srt
        ∧ t.asu = { s.asu with preempts := s.asu.preempts.filter fun q => decide (q.vehicle ≠ e.src) }) ∧
    (∀ y, findMove s d.move = some y → ¬ AtSource s d y →
      ∃ t w, exec .statusHoistStart s = .next t ∧ vehicle t e.src = some w ∧ d.move ∈ w.due.withdraw
        ∧ w.state = x.state ∧ w.move = x.move ∧ t.mq = s.mq ∧ t.srt = s.srt ∧ t.asu = s.asu)

end Sys2Proof.Says

/-- STATUS HOIST-START: the hoists that begin, and the race of a preemption. -/
def Obligations.HoistStartBegins : Prop := Says.HoistStarts ∧ Says.PreemptedTakenBack ∧ Says.PreemptionKept

namespace Sys2Proof.Says

/-- The end of a pick-up of a PICKING move at its source (R104). That the UNROUTED record of a mismatch keeps its source
port is the model's choice (log 26), and so is that an empty pick queues its MOVE-REPORT before the CARRIER-MISMATCH
NOTICE, an order no rule gives (log 29). -/
def PickEnds : Prop :=
  ∀ (s : State) (e : TrackEntry) (rest : List TrackEntry) (d : Said) (x : Vehicle) (y : Move),
    TakesStatus s e rest .hoistDone d x → Concerns s x d y → y.state = .picking → AtSource s d y →
    (d.present = true → d.carrier = y.carrier →
      ∃ t z w, exec .statusHoistDone s = .next t ∧ findMove t d.move = some w
        ∧ w = { y with state := .carrying, confirm := .absent }
        ∧ vehicle t e.src = some z ∧ z.state = worksAs .laden x.state ∧ z.carrier = some d.carrier ∧ z.move = some d.move) ∧
    (d.present = true → d.carrier ≠ y.carrier →
      ∃ t z w, exec .statusHoistDone s = .next t ∧ flagSet t .carrierMismatch = true ∧ findMove t d.move = some w
        ∧ w = { y with state := .unrouted, carrier := d.carrier, dest := none, returnFlag := false, confirm := .absent }
        ∧ vehicle t e.src = some z ∧ z.state = worksAs .laden x.state ∧ z.carrier = some d.carrier ∧ z.move = some d.move) ∧
    (d.present = false →
      ∃ t z, exec .statusHoistDone s = .next t ∧ flagSet t .carrierMismatch = true ∧ findMove t d.move = none
        ∧ vehicle t e.src = some z ∧ z.state = worksAs .idle x.state ∧ z.carrier = none ∧ z.move = none
        ∧ (occupancy s < 56 →
            s.fli.outbound ++ [moveReport s d.move 11 (y.vehicle.getD 0) y.age] <+: t.fli.outbound))

/-- A hoist's end whose start was missed (R104, R105): both changes of the move are made and reported, one after the
other, at the source of an ASSIGNED or ENROUTE move and at the destination of a CARRYING one. That the MOVE-REPORT of a
mismatch or an empty pick is queued before the CARRIER-MISMATCH NOTICE is the model's choice, since no rule gives the
order (log 29), and so is the source port that stays in the UNROUTED record (log 26). -/
def MissedStarts : Prop :=
  ∀ (s : State) (e : TrackEntry) (rest : List TrackEntry) (d : Said) (x : Vehicle) (y : Move),
    TakesStatus s e rest .hoistDone d x → Concerns s x d y →
    let reports (t : State) (first second : Nat) : Prop := occupancy s < 55 →
      s.fli.outbound ++ [moveReport s d.move first (y.vehicle.getD 0) y.age,
        moveReport s d.move second (y.vehicle.getD 0) y.age] <+: t.fli.outbound
    (y.state = .assigned ∨ y.state = .enroute → AtSource s d y →
      (d.present = true → d.carrier = y.carrier →
        ∃ t z, exec .statusHoistDone s = .next t ∧ vehicle t e.src = some z ∧ z.state = worksAs .laden x.state
          ∧ z.carrier = some d.carrier ∧ findMove t d.move = some { y with state := .carrying, confirm := .absent }
          ∧ reports t 4 5) ∧
      (d.present = true → d.carrier ≠ y.carrier →
        ∃ t z, exec .statusHoistDone s = .next t ∧ vehicle t e.src = some z ∧ z.state = worksAs .laden x.state
          ∧ z.carrier = some d.carrier ∧ flagSet t .carrierMismatch = true ∧ reports t 4 8
          ∧ findMove t d.move = some { y with state := .unrouted, carrier := d.carrier, dest := none, returnFlag := false
                                              confirm := .absent }) ∧
      (d.present = false →
        ∃ t z, exec .statusHoistDone s = .next t ∧ vehicle t e.src = some z ∧ z.state = worksAs .idle x.state
          ∧ z.carrier = none ∧ z.move = none ∧ flagSet t .carrierMismatch = true ∧ findMove t d.move = none
          ∧ reports t 4 11)) ∧
    (y.state = .carrying → AtDestination s d y → x.nextMove = none →
      (d.present = true →
        ∃ t z, exec .statusHoistDone s = .next t ∧ vehicle t e.src = some z ∧ z.state = worksAs .laden x.state
          ∧ z.carrier = some d.carrier ∧ findMove t d.move = some { y with state := .carrying, confirm := .absent }
          ∧ reports t 6 5) ∧
      (d.present = false →
        ∃ t z, exec .statusHoistDone s = .next t ∧ vehicle t e.src = some z ∧ z.state = worksAs .idle x.state
          ∧ z.carrier = none ∧ z.move = none ∧ findMove t d.move = none
          ∧ reports t 6 (if y.returnFlag then 10 else 9)))

/-- A hoist's end for a preempted move that waits (R124, R125): the preemption is undone, then the pick-up ends. -/
def PreemptedHoistDone : Prop :=
  ∀ (s : State) (e : TrackEntry) (rest : List TrackEntry) (d : Said) (x : Vehicle) (n : Nat) (y z : Move),
    TakesStatus s e rest .hoistDone d x → x.isWorking = true → x.move = some n → n ≠ d.move →
    s.asu.preempts.find? (fun q => q.vehicle == e.src && q.oldMove == d.move) =
      some { vehicle := e.src, newMove := n, oldMove := d.move } →
    findMove s n = some z → findMove s d.move = some y → y.state = .waiting → AtSource s d y →
    ∃ t u v, exec .statusHoistDone s = .next t ∧ flagSet t .preemptLost = true ∧ findMove t n = some u
      ∧ u.state = .waiting ∧ u.vehicle = none ∧ u.age = z.age ∧ vehicle t e.src = some v ∧ v.due.assign = none
      ∧ n ∈ v.due.withdraw ∧ (∀ q ∈ t.asu.preempts, q.vehicle ≠ e.src)
      ∧ (d.present = true → d.carrier = y.carrier →
          v.state = .work .laden ∧ v.carrier = some d.carrier ∧ v.move = some d.move
          ∧ ∃ w, findMove t d.move = some w ∧ w.state = .carrying ∧ w.vehicle = some e.src ∧ w.carrier = d.carrier)
      ∧ (d.present = true → d.carrier ≠ y.carrier →
          v.state = .work .laden ∧ v.carrier = some d.carrier ∧ v.move = some d.move
          ∧ flagSet t .carrierMismatch = true
          ∧ ∃ w, findMove t d.move = some w ∧ w.state = .unrouted ∧ w.vehicle = some e.src ∧ w.carrier = d.carrier)
      ∧ (d.present = false →
          v.state = .work .idle ∧ v.carrier = none ∧ v.move = none ∧ flagSet t .carrierMismatch = true
          ∧ findMove t d.move = none)

/-- The end of the hoist of a CANCELLING move (R109). That the UNROUTED record of a mismatch keeps its source port is the
model's (log 26). -/
def CancelEnds : Prop :=
  ∀ (s : State) (e : TrackEntry) (rest : List TrackEntry) (d : Said) (x : Vehicle) (y : Move) (n p : Nat),
    TakesStatus s e rest .hoistDone d x → Concerns s x d y → y.state = .cancelling → AtSource s d y →
    s.mc.identity.cell = some n → y.source = some p →
    (d.present = true → d.carrier = y.carrier →
      ∃ t z w, exec .statusHoistDone s = .next t ∧ findMove t d.move = some w
        ∧ w = { y with state := .carrying, dest := some (n * 256 + p), returnFlag := true, confirm := .absent }
        ∧ vehicle t e.src = some z ∧ z.state = worksAs .laden x.state ∧ z.carrier = some d.carrier) ∧
    (d.present = true → d.carrier ≠ y.carrier →
      ∃ t z, exec .statusHoistDone s = .next t ∧ flagSet t .carrierMismatch = true
        ∧ findMove t d.move = some { y with state := .unrouted, carrier := d.carrier, dest := none, returnFlag := false
                                            confirm := .absent }
        ∧ vehicle t e.src = some z ∧ z.state = worksAs .laden x.state ∧ z.carrier = some d.carrier) ∧
    (d.present = false →
      ∃ t z, exec .statusHoistDone s = .next t ∧ findMove t d.move = none ∧ vehicle t e.src = some z
        ∧ z.state = worksAs .idle x.state ∧ z.carrier = none ∧ z.move = none
        ∧ (occupancy s < 56 →
            s.fli.outbound ++ [moveReport s d.move 10 (y.vehicle.getD 0) y.age] <+: t.fli.outbound))

/-- The end of a deposit of a DELIVERING move at its destination (R105, R122). -/
def DepositEnds : Prop :=
  ∀ (s : State) (e : TrackEntry) (rest : List TrackEntry) (d : Said) (x : Vehicle) (y : Move),
    TakesStatus s e rest .hoistDone d x → Concerns s x d y → y.state = .delivering → AtDestination s d y →
    (d.present = true → x.nextMove ≠ some d.move →
      ∃ t z w, exec .statusHoistDone s = .next t ∧ findMove t d.move = some w ∧ w.state = .carrying ∧ w.dest = y.dest
        ∧ vehicle t e.src = some z ∧ z.state = worksAs .laden x.state ∧ z.carrier = some d.carrier ∧ z.nextMove = none
        ∧ z.path = x.path) ∧
    (d.present = false → x.nextMove = none →
      ∃ t z, exec .statusHoistDone s = .next t ∧ findMove t d.move = none ∧ vehicle t e.src = some z
        ∧ z.state = worksAs .idle x.state ∧ z.carrier = none ∧ z.move = none
        ∧ (occupancy s < 56 → s.fli.outbound
            ++ [moveReport s d.move (if y.returnFlag then 10 else 9) (y.vehicle.getD 0) y.age] <+: t.fli.outbound)) ∧
    (∀ n q, d.present = false → x.nextMove = some n → n ≠ d.move → findMove s n = some q → x.isWorking = true →
      ∃ t z w, exec .statusHoistDone s = .next t ∧ findMove t d.move = none ∧ vehicle t e.src = some z
        ∧ z.state = .work .toSource ∧ z.carrier = none ∧ z.move = some n ∧ z.nextMove = none ∧ z.due.assign = some 0
        ∧ findMove t n = some w ∧ w.state = .assigned ∧ w.vehicle = some e.src ∧ w.age = q.age)

/-- A HOIST-DONE away from the expected segment, or naming a move that is not the vehicle's (R101, R107). -/
def StrayHoistDone : Prop :=
  ∀ (s : State) (e : TrackEntry) (rest : List TrackEntry) (d : Said) (x : Vehicle), TakesStatus s e rest .hoistDone d x →
    (∀ y, Concerns s x d y → (y.state = .unrouted ∨ y.state = .picking ∧ ¬ AtSource s d y
        ∨ y.state = .delivering ∧ ¬ AtDestination s d y) → exec .statusHoistDone s = .next (heard s e rest)) ∧
    (x.move ≠ some d.move → (∀ q ∈ s.asu.preempts, q.vehicle = e.src → q.oldMove ≠ d.move) →
      (x.state ≠ .work .idle ∨ d.present = false → d.move ≠ 0 →
        ∃ t y, exec .statusHoistDone s = .next t ∧ vehicle t e.src = some y ∧ d.move ∈ y.due.withdraw ∧ t.mq = s.mq
          ∧ y.state = x.state) ∧
      (x.state = .work .idle → d.present = true → s.mq.moves.length < 128 →
        ∃ t y k w, exec .statusHoistDone s = .next t ∧ flagSet t .carrierMismatch = true ∧ vehicle t e.src = some y
          ∧ y.state = .work .laden ∧ y.carrier = some d.carrier ∧ y.move = some k ∧ findMove s k = none
          ∧ findMove t k = some w ∧ w.state = .unrouted ∧ w.carrier = d.carrier ∧ w.vehicle = some e.src))

end Sys2Proof.Says

/-- STATUS HOIST-DONE (R104, R105, R107, R109, R125). That a MOVE-REPORT goes before the CARRIER-MISMATCH NOTICE of the same
pick-up is the model's choice (log 29). -/
def Obligations.HoistDoneEnds : Prop :=
  Says.PickEnds ∧ Says.CancelEnds ∧ Says.DepositEnds ∧ Says.StrayHoistDone ∧ Says.MissedStarts ∧ Says.PreemptedHoistDone

/-- STATUS FAULT (R81) and HOIST-FAULT (R83, R106); a vehicle that becomes FAULTED leaves its wait list, and a claim of it
still CLAIMING is withdrawn (R67, R134). -/
def Obligations.FaultsStopVehicle : Prop :=
  ∀ (s : State) (e : TrackEntry) (rest : List TrackEntry) (d : Said) (x : Vehicle),
    (TakesStatus s e rest .fault d x →
      ∃ t y, exec .statusFault s = .next t ∧ flagSet t .vehicleFault = true ∧ vehicle t e.src = some y
        ∧ y.due.hold = some 0 ∧ y.due.stopMark = true ∧ y.move = x.move
        ∧ (∀ w, x.state = .work w → y.state = .faulted w ∧ y.nextMove = none ∧ LeavesService s t e.src)
        ∧ (x.isWorking = false → y.state = x.state)) ∧
    (TakesStatus s e rest .hoistFault d x →
      ∃ t y, exec .statusHoistFault s = .next t ∧ flagSet t .hoistFault = true ∧ vehicle t e.src = some y
        ∧ y.due.hold = some 0 ∧ y.due.stopMark = true
        ∧ (x.state = .departing → y.state = .departing ∧ y.move = x.move) ∧
        (x.state ≠ .departing → y.state = .faulted .idle ∧ y.carrier = none ∧ y.move = none ∧ y.nextMove = none
          ∧ LeavesService s t e.src
          ∧ ∀ m z, x.move = some m → findMove s m = some z → findMove t m = none
            ∧ (occupancy s < 56 →
                s.fli.outbound ++ [moveReport s m 11 (z.vehicle.getD 0) z.age] <+: t.fli.outbound)))

/-- STATUS CLEARED (R82, R84): a FAULTED vehicle returns in its resume state, or LADEN with an UNROUTED record where
it was IDLE and holds a carrier; the HOLD is withdrawn, a GRANT due, the last-heard deadline set. -/
def Sys2Proof.Says.ClearedReturns : Prop :=
  ∀ (s : State) (e : TrackEntry) (rest : List TrackEntry) (d : Said) (x : Vehicle), TakesStatus s e rest .cleared d x →
    ((∀ w, x.state ≠ .faulted w) → exec .statusCleared s = .next (heard s e rest)) ∧
    (∀ w, x.state = .faulted w → w ≠ .idle ∨ d.present = false →
      ∃ t y, exec .statusCleared s = .next t ∧ vehicle t e.src = some y ∧ y.state = .work w ∧ y.due.hold = none
        ∧ y.due.stopMark = false ∧ y.due.grant = some 0 ∧ y.move = x.move ∧ y.carrier = x.carrier
        ∧ y.heardBy = some (s.board.now + s.layout.tuning.tSilent)) ∧
    (x.state = .faulted .idle → d.present = true → s.mq.moves.length < 128 →
      ∃ t y k z, exec .statusCleared s = .next t ∧ vehicle t e.src = some y ∧ y.state = .work .laden
        ∧ y.due.hold = none ∧ y.due.stopMark = false ∧ y.due.grant = some 0 ∧ y.carrier = some d.carrier
        ∧ y.move = some k ∧ findMove s k = none ∧ findMove t k = some z ∧ z.state = .unrouted ∧ z.carrier = d.carrier
        ∧ z.vehicle = some e.src)

namespace Sys2Proof.Says

/-- Vehicle `y` is back in service in working state `w` (R84). -/
def BackInService (s : State) (w : WorkState) (y : Vehicle) : Prop :=
  y.state = .work w ∧ y.due.hold = none ∧ y.due.stopMark = false ∧ y.due.grant = some 0
    ∧ y.heardBy = some (s.board.now + s.layout.tuning.tSilent)

/-- A POSITION at the first entry of a LOST vehicle's held list (R80): it returns to service, or with the fault mark it is
FAULTED, its HOLD standing. A STATUS CLEARED at a held segment then returns a FAULTED one too (R82). -/
def LostRestored : Prop :=
  ∀ (s : State) (e : TrackEntry) (rest : List TrackEntry) (seg : Nat) (l : List Nat) (x : Vehicle) (w : WorkState)
    (mark : Bool), TakesEntry s e rest → RosterOk s.roster → vehicle s e.src = some x → x.state = .lost w mark →
    x.held = seg :: l →
    (∀ need load, e.body = .position seg need load →
      ∃ t y, exec .position s = .next t ∧ vehicle t e.src = some y ∧ y.held.head? = some seg ∧ y.need = min need 4
        ∧ y.move = x.move ∧ (mark = false → BackInService s w y)
        ∧ (mark = true → y.state = .faulted w ∧ y.due.hold = x.due.hold ∧ y.due.stopMark = x.due.stopMark
            ∧ y.held = x.held ∧ y.heardBy = some (s.board.now + s.layout.tuning.tSilent))) ∧
    ∀ (d : Said), e.body = .status .cleared d.seg d.move d.present d.carrier → d.seg ∈ x.held →
      mark = false ∨ w ≠ .idle ∨ d.present = false →
      ∃ t y, exec .statusCleared s = .next t ∧ vehicle t e.src = some y ∧ BackInService s w y ∧ y.move = x.move

/-- A return to service by STATUS CLEARED extends the list along the new path, segment by segment, up to min(need, W) entries
ahead: it takes FREE segments where nobody waits and zone admission holds, and stops before anything else (R28, R46,
R84). It makes no claim and enters no wait list, which comes at the next position: the model's choice between the
rules on returns (log 35). In HALTED it takes nothing (R46). Stated for a vehicle with one held segment. -/
def ExtendedAtReturn : Prop :=
  ∀ (s : State) (e : TrackEntry) (rest : List TrackEntry) (d : Said) (x : Vehicle) (w : WorkState) (seg : Nat),
    TakesStatus s e rest .cleared d x → RosterOk s.roster → x.state = .faulted w → w ≠ .idle ∨ d.present = false →
    x.held = [seg] →
    ∃ t y p more, exec .statusCleared s = .next t ∧ vehicle t e.src = some y ∧ y.held = seg :: more ∧ t.bxu = s.bxu
      ∧ (∀ i, (waitsOf t i).Sublist (waitsOf s i)) ∧ (s.mode ≠ .dispatching → more = [])
      ∧ more.length ≤ min x.need s.layout.grantWindow
      ∧ (∀ i ∈ more, resOf s i = some .free ∧ waitsOf t i = [] ∧ resOf t i = some (.reserved e.src))
      ∧ (∀ i, i ∉ more → resOf t i = resOf s i)
      ∧ Path.cursor p = some seg ∧ taken s p more.length = some y.path
      ∧ (∀ (j i : Nat), more[j]? = some i → cursorAt s p (j + 1) = some i
          ∧ ∃ z, zoneOf s i = some z ∧ ((seg :: more)[j]?.bind (zoneOf s) = some z ∨ HasRoom s z))
      ∧ (t.mode = .dispatching → more.length < min x.need s.layout.grantWindow → ∀ i, nextPathSegment s y.path = some i →
          ¬ (resOf t i = some .free ∧ waitsOf t i = [] ∧ Admits t e.src i))

/-! The path a return builds -/

/-- Segment `i` is the park target of another vehicle than `v` (R61). -/
def MarkedByOther (s : State) (v i : Nat) : Prop := ∃ q ∈ s.roster, q.2.id ≠ v ∧ q.2.parkMark = some i

/-- Vehicle `v` at `s0` in a zone with the park list `l` is parked where it stands (R59 step 1). -/
def ParkedAt (s : State) (v s0 : Nat) (l : List Nat) : Prop := s0 ∈ l ∧ ¬ MarkedByOther s v s0

/-- A park choice of `v` may take segment `i` (R59). -/
def Open (s : State) (v i : Nat) : Prop := resOf s i = some .free ∧ ¬ MarkedByOther s v i

/-- `i` is the first segment of `l` that a park choice of `v` may take (R59). -/
def FirstOpen (s : State) (v : Nat) (l : List Nat) (i : Nat) : Prop :=
  ∃ pre post, l = pre ++ i :: post ∧ Open s v i ∧ ∀ j ∈ pre, ¬ Open s v j

/-- The park list of the overflow zone of zone `a`, where it may be used (R59 step 3). -/
def OverflowList (s : State) (a : Nat) (za : ZoneRec) (l : List Nat) : Prop :=
  ∃ o zo, za.overflow = some o ∧ (route s a o).time < 4095 ∧ zoneRec s o = some zo ∧ zo.park = l

/-- The park target of `v` at `s0` in zone `a` is `i` (R59 steps 1 to 3). -/
def ParksAt (s : State) (v s0 a : Nat) (za : ZoneRec) (i : Nat) : Prop :=
  ParkedAt s v s0 za.park ∧ i = s0 ∨
    ¬ ParkedAt s v s0 za.park ∧
      (FirstOpen s v za.park i ∨ (∀ j ∈ za.park, ¬ Open s v j) ∧ ∃ l, OverflowList s a za l ∧ FirstOpen s v l i)

/-- There is no park target for it (R59 step 4). -/
def ParksNowhere (s : State) (v s0 a : Nat) (za : ZoneRec) : Prop :=
  ¬ ParkedAt s v s0 za.park ∧ (∀ j ∈ za.park, ¬ Open s v j) ∧ ∀ l, OverflowList s a za l → ∀ j ∈ l, ¬ Open s v j

/-- Port `g`, a global port of this cell, is at segment `i`. -/
def OwnPortAt (s : State) (g i : Nat) : Prop :=
  ∃ n r, s.mc.identity.cell = some n ∧ g / 256 = n ∧ portRec s (g % 256) = some r ∧ r.segment = i

/-- The path and park target mark a return to service builds in HALTED (R49, R50, R59 to R62, R84): to the park target of
an IDLE vehicle, which it marks, or STANDING without a mark; to the source port of its move for TO-SOURCE and ACQUIRING; for
LADEN and DEPOSITING to the destination port or through the exit, STANDING with an UNROUTED move; STANDING without a move.
PATH-FAULT is raised where the path is BROKEN (R55). -/
def ReturnBuildsPath : Prop :=
  ∀ (s : State) (e : TrackEntry) (rest : List TrackEntry) (d : Said) (x : Vehicle) (w : WorkState) (s0 a : Nat),
    TakesStatus s e rest .cleared d x → RosterOk s.roster → s.mode = .halted → x.state = .faulted w →
    w ≠ .idle ∨ d.present = false → x.held = [s0] → zoneOf s s0 = some a →
    ∃ t y, exec .statusCleared s = .next t ∧ vehicle t e.src = some y ∧ y.held = [s0]
      ∧ ((∃ c, y.path.condition = .broken c) → flagSet t .pathFault = true)
      ∧ (w ≠ .idle → y.parkMark = none ∧ (x.move = none → y.path = standingPath s0))
      ∧ (w = .idle → ∀ za, zoneRec s a = some za →
          (∀ i, ParksAt s e.src s0 a za i → y.parkMark = some i ∧ LeadsTo s .park s0 i y.path) ∧
          (ParksNowhere s e.src s0 a za → y.parkMark = none ∧ y.path = standingPath s0))
      ∧ ∀ m z, x.move = some m → findMove s m = some z →
          (w = .toSource ∨ w = .acquiring → ∀ p r, z.source = some p → portRec s p = some r →
            LeadsTo s .source s0 r.segment y.path) ∧
          (w = .laden ∨ w = .depositing →
            (z.state = .unrouted → y.path = standingPath s0) ∧
            (∀ g i, z.state ≠ .unrouted → z.dest = some g → OwnPortAt s g i → LeadsTo s .destination s0 i y.path) ∧
            (∀ g i p k, z.state ≠ .unrouted → z.dest = some g → s.mc.identity.cell ≠ some (g / 256) →
              exitSeg s (g / 256) = some i → predecessors s i = [p] → zoneOf s p = some a → Walks s s0 p k →
              y.path = exitPath i s0 p k))

/-- The extension step of an IDLE vehicle that stands makes its park choice again: with a target the path is built and the
extension goes on with it, without one nothing happens (R60). Stated for a vehicle with one held segment, waiting nowhere,
where an event the build raises does not halt the engine. -/
def ParkChosenAgain : Prop :=
  ∀ (s : State) (v s0 a : Nat) (x : Vehicle) (za : ZoneRec), s.mode = .dispatching → RosterOk s.roster → WaitsNowhere s v →
    vehicle s v = some x → x.state = .work .idle → x.held = [s0] → x.path.condition = .standing → zoneOf s s0 = some a →
    zoneRec s a = some za →
    (ParksNowhere s v s0 a za → taskStep (.extend v) s = ([], s)) ∧
    (∀ i, ParksAt s v s0 a za i →
      ∃ ts t y, taskStep (.extend v) s = (ts, t) ∧ vehicle t v = some y ∧ y.held = [s0] ∧ y.parkMark = some i
        ∧ LeadsTo s .park s0 i y.path ∧ (y.path.condition = .built → ts = [.rounds v])
        ∧ ∀ c, y.path.condition = .broken c → ts = [] ∧ flagSet t .pathFault = true)

end Sys2Proof.Says

/-- Returns to service, of FAULTED and of LOST vehicles; the path such a vehicle gets and how its list is extended. -/
def Obligations.ClearedReturnsToService : Prop :=
  Says.ClearedReturns ∧ Says.LostRestored ∧ Says.ExtendedAtReturn ∧ Says.ReturnBuildsPath ∧ Says.ParkChosenAgain

/-! ### Frames of the engine on the track line (R145, R152 to R159, R187, R188) -/

namespace Sys2Proof.Says

/-- The command that begins a frame for an item. -/
def sendRowOf : LineItem → Instr
  | .allHold => .sendAllHold
  | .resume => .sendResume
  | .rollcall => .sendRollcall
  | .hold _ => .sendHold
  | .strayHold _ => .sendHold
  | .withdraw _ => .sendWithdraw
  | .grant _ => .sendGrant
  | .assign _ => .sendAssign

/-- The seven rows that begin a frame. -/
def sendRows : List Instr :=
  [.sendGrant, .sendAssign, .sendWithdraw, .sendHold, .sendAllHold, .sendResume, .sendRollcall]

/-- On an idle line the row of the picked item begins its frame and every other row does nothing, as on a busy line or
with nothing to pick (R153, log 1). An ASSIGN with nothing to announce is cleared unsent. -/
def SendsThePick : Prop :=
  ∀ (s : State) (c : Instr), s.running = true → c ∈ sendRows →
    (s.tli.line ≠ none ∨ pick s = none → exec c s = .next s) ∧
    (∀ i, s.tli.line = none → pick s = some i →
      (c ≠ sendRowOf i → exec c s = .next s) ∧
      (∀ g, c = sendRowOf i → compose s i = some g →
        exec c s = .next { s with tli := { s.tli with line := some g } })) ∧
    (∀ v, c = .sendAssign → s.tli.line = none → pick s = some (.assign v) → compose s (.assign v) = none →
      ∃ t y, exec c s = .next t ∧ vehicle t v = some y ∧ y.due.assign = none)

/-- Slots from the one after the pointer round to the pointer itself. -/
def turn (s : State) (slot : Nat) : Nat := (slot + 63 - s.tli.pointer) % 64

/-- The vehicle taken round-robin among those whose due set `p` accepts (R154). -/
def NextServed (s : State) (p : DueSet → Bool) (v : Nat) : Prop :=
  ∃ slot x, (slot, x) ∈ s.roster ∧ x.id = v ∧ p x.due = true ∧
    ∀ q ∈ s.roster, p q.2.due = true → turn s slot ≤ turn s q.1

/-- No vehicle has an item that `p` accepts. -/
def NoneServed (s : State) (p : DueSet → Bool) : Prop := ∀ q ∈ s.roster, p q.2.due = false

/-- The order of the pick in DISPATCHING, step by step (R152, R153), and the steps left in HALTED and PARKED. -/
def PickInOrder : Prop :=
  ∀ s : State, RosterOk s.roster → s.tli.pointer ≤ 63 →
    let hold : DueSet → Bool := fun d => d.hold.isSome
    let step4 : DueSet → Bool := fun d => !d.withdraw.isEmpty || (decide (s.mode = .dispatching) && d.grant.isSome)
    let assign : DueSet → Bool := fun d => d.assign.isSome && d.withdraw.isEmpty
    (s.tli.allHold ≠ none → pick s = some .allHold) ∧
    (s.tli.allHold = none →
      (∀ v, NextServed s hold v → pick s = some (.hold v)) ∧
      (NoneServed s hold →
        (∀ v n more, s.tli.strayHolds = (v, n) :: more → pick s = some (.strayHold v)) ∧
        (s.tli.strayHolds = [] →
          (∀ v x, NextServed s step4 v → vehicle s v = some x →
            pick s = some (if x.due.withdraw = [] then .grant v else .withdraw v)) ∧
          (NoneServed s step4 →
            (s.mode ≠ .dispatching → pick s = none) ∧
            (s.mode = .dispatching →
              (s.tli.resume ≠ none → pick s = some .resume) ∧
              (s.tli.resume = none → s.tli.rollcall ≠ none → pick s = some .rollcall) ∧
              (s.tli.resume = none → s.tli.rollcall = none →
                (∀ v, NextServed s assign v → pick s = some (.assign v)) ∧
                (NoneServed s assign → pick s = none)))))))

/-- A fresh frame. -/
def fresh (item : LineItem) (prio kind : Nat) (payload : List Byte) (carried : List Nat) : Option LineFrame :=
  some { item := item, prio := prio, kind := kind, payload := payload, carried := carried, link := .live }

/-- The vehicle is stopped: FAULTED, LOST or its stop mark set (R156). -/
def Stopped (x : Vehicle) : Prop := (∃ w, x.state = .faulted w) ∨ (∃ w m, x.state = .lost w m) ∨ x.due.stopMark = true

/-- What each frame carries, with its priority (R145, R156 to R159, R188). -/
def FrameContents : Prop :=
  ∀ s : State,
    compose s .allHold = fresh .allHold 0 0x15 [255] [] ∧
    compose s .resume = fresh .resume 2 0x16 [255] [] ∧
    (∀ n, s.mc.identity.cell = some n → compose s .rollcall = fresh .rollcall 2 0x10 [255, byte n] []) ∧
    (∀ v, compose s (.hold v) = fresh (.hold v) 0 0x14 [byte v] []) ∧
    (∀ v, compose s (.strayHold v) = fresh (.strayHold v) 0 0x14 [byte v] []) ∧
    (∀ v x, vehicle s v = some x →
      compose s (.withdraw v) = fresh (.withdraw v) 1 0x13
        ([byte v, byte x.due.withdraw.length] ++ x.due.withdraw.flatMap bytes2) x.due.withdraw ∧
      (∀ a l, x.held = a :: l → Stopped x →
        compose s (.grant v) = fresh (.grant v) 1 0x11 ([byte v] ++ bytes2 a ++ [0]) []) ∧
      (∀ a l, x.held = a :: l → ¬ Stopped x → ∀ speeds : List Nat,
        List.Forall₂ (fun i k => ∃ r, segment s i = some r ∧ k = min r.speed (capOf s r.zone)) l speeds →
        compose s (.grant v) = fresh (.grant v) 1 0x11
          ([byte v] ++ bytes2 a ++ [byte l.length]
            ++ (List.zipWith (fun i k => bytes2 (k * 1024 + i)) l speeds).flatten) []) ∧
      (∀ m y p r, x.move = some m → findMove s m = some y → y.state = .assigned → y.source = some p →
        portRec s p = some r →
        compose s (.assign v) = fresh (.assign v) 2 0x12
          ([byte v] ++ bytes2 m ++ bytes4 y.carrier ++ [byte p] ++ bytes2 r.segment
            ++ [if r.kind = .load then 0 else 1]) []) ∧
      ((∀ m y, x.move = some m → findMove s m = some y → y.state ≠ .assigned) → compose s (.assign v) = none))

end Sys2Proof.Says

/-- The seven SEND rows: which item is picked, which row begins its frame, what the frame carries. -/
def Obligations.SendRowsSendThePick : Prop := Says.SendsThePick ∧ Says.PickInOrder ∧ Says.FrameContents

namespace Sys2Proof.Says

/-- The most dominant answer (R155). -/
def mostDominant (l : List Answer) : Option Answer :=
  if Answer.refuseCheck ∈ l then some .refuseCheck
  else if Answer.refuseBusy ∈ l then some .refuseBusy
  else if Answer.acceptPace ∈ l then some .acceptPace
  else if Answer.accept ∈ l then some .accept
  else none

/-- The count of an item made due again, with count `n`, while a frame of it was on the line that ended with this
answer: the item stays due (R155). -/
def keptCount (n : Nat) : Option Answer → Nat
  | some _ => 0
  | none => if 8 ≤ n + 1 then 0 else n + 1

/-- An item due with count `n` after a frame of it ended with this answer (R155). -/
def afterAnswer (n : Nat) : Option Answer → Option Nat
  | some .accept => none
  | some .acceptPace => none
  | some _ => some 0
  | none => if 8 ≤ n + 1 then none else some (n + 1)

end Sys2Proof.Says

/-- The outcome of an engine frame (R154, R155): a lost arbitration leaves the item; an answer clears it or sets its
count to 0; no answer counts up to the eighth. The pointer moves to a served vehicle. That an item discarded meanwhile is
not touched, and that the pointer stays where the vehicle's record is gone, is the model's (log 25). -/
def Sys2Proof.Says.FrameOutcomes : Prop :=
  ∀ (s : State) (g : LineFrame) (l : List Answer), s.running = true → s.tli.line = some g →
    exec (.engineFrameOutcome .arbitrationLost) s = .next { s with tli := { s.tli with line := none } } ∧
    (g.link = .live →
      (∀ n, g.item = .allHold → s.tli.allHold = some n → exec (.engineFrameOutcome (.slot l)) s =
        .next { s with tli := { s.tli with line := none, allHold := afterAnswer n (mostDominant l) } }) ∧
      (∀ n, g.item = .resume → s.tli.resume = some n → exec (.engineFrameOutcome (.slot l)) s =
        .next { s with tli := { s.tli with line := none, resume := afterAnswer n (mostDominant l) } }) ∧
      (∀ n, g.item = .rollcall → s.tli.rollcall = some n → exec (.engineFrameOutcome (.slot l)) s =
        .next { s with tli := { s.tli with line := none, rollcall := afterAnswer n (mostDominant l) } }) ∧
      (∀ v n, g.item = .strayHold v → TableWf s.tli.strayHolds → tget v s.tli.strayHolds = some n →
        ∃ t, exec (.engineFrameOutcome (.slot l)) s = .next t ∧ t.roster = s.roster ∧ t.tli.pointer = s.tli.pointer
          ∧ tget v t.tli.strayHolds = afterAnswer n (mostDominant l)
          ∧ ∀ u, u ≠ v → tget u t.tli.strayHolds = tget u s.tli.strayHolds) ∧
      (∀ v slot x, findVehicle s v = some (slot, x) →
        (∀ n, g.item = .hold v → x.due.hold = some n →
          ∃ t, exec (.engineFrameOutcome (.slot l)) s = .next t ∧ t.tli = { s.tli with line := none, pointer := slot }
            ∧ vehicle t v = some { x with due := { x.due with hold := afterAnswer n (mostDominant l) } }) ∧
        (∀ n, g.item = .grant v → x.due.grant = some n →
          ∃ t, exec (.engineFrameOutcome (.slot l)) s = .next t ∧ t.tli = { s.tli with line := none, pointer := slot }
            ∧ vehicle t v = some { x with due := { x.due with grant := afterAnswer n (mostDominant l) } }) ∧
        (∀ n, g.item = .assign v → x.due.assign = some n →
          ∃ t, exec (.engineFrameOutcome (.slot l)) s = .next t ∧ t.tli = { s.tli with line := none, pointer := slot }
            ∧ vehicle t v = some { x with due := { x.due with assign := afterAnswer n (mostDominant l) } }) ∧
        (g.item = .withdraw v → x.due.withdraw ≠ [] →
          ∃ t y, exec (.engineFrameOutcome (.slot l)) s = .next t ∧ t.tli = { s.tli with line := none, pointer := slot }
            ∧ vehicle t v = some y
            ∧ (afterAnswer x.due.withdrawCount (mostDominant l) = none →
                y.due.withdraw = x.due.withdraw.filter (fun m => decide (m ∉ g.carried)) ∧ y.due.withdrawCount = 0)
            ∧ (∀ k, afterAnswer x.due.withdrawCount (mostDominant l) = some k →
                y.due.withdraw = x.due.withdraw ∧ y.due.withdrawCount = k)))) ∧
    (g.link = .renewed → g.item = .allHold → s.tli.allHold = some 0 → l ≠ [] →
      exec (.engineFrameOutcome (.slot l)) s = .next { s with tli := { s.tli with line := none } }) ∧
    (g.link = .severed → (∀ v, g.item.target = some v → vehicle s v = none) →
      exec (.engineFrameOutcome (.slot l)) s = .next { s with tli := { s.tli with line := none } })

/-- An item made due again while its frame is on the line stays due whatever the answer (R155); of a WITHDRAW only the ids
the frame still carries leave, and an unanswered frame counts for the list as it stands (log 40). -/
def Sys2Proof.Says.RenewedItemsStay : Prop :=
  ∀ (s : State) (g : LineFrame) (l : List Answer), s.running = true → s.tli.line = some g → g.link = .renewed →
    let ends : State → Prop := fun t => exec (.engineFrameOutcome (.slot l)) s = .next t
    let kept : Nat → Option Nat := fun n => some (keptCount n (mostDominant l))
    (∀ n, g.item = .allHold → s.tli.allHold = some n →
      ends { s with tli := { s.tli with line := none, allHold := kept n } }) ∧
    (∀ n, g.item = .resume → s.tli.resume = some n →
      ends { s with tli := { s.tli with line := none, resume := kept n } }) ∧
    (∀ n, g.item = .rollcall → s.tli.rollcall = some n →
      ends { s with tli := { s.tli with line := none, rollcall := kept n } }) ∧
    (∀ v n, g.item = .strayHold v → TableWf s.tli.strayHolds → tget v s.tli.strayHolds = some n →
      ∃ t, ends t ∧ t.roster = s.roster ∧ t.tli.pointer = s.tli.pointer ∧ tget v t.tli.strayHolds = kept n
        ∧ ∀ u, u ≠ v → tget u t.tli.strayHolds = tget u s.tli.strayHolds) ∧
    ∀ v slot x, findVehicle s v = some (slot, x) →
      (∀ n, g.item = .hold v → x.due.hold = some n →
        ∃ t, ends t ∧ t.tli = { s.tli with line := none, pointer := slot }
          ∧ vehicle t v = some { x with due := { x.due with hold := kept n } }) ∧
      (∀ n, g.item = .grant v → x.due.grant = some n →
        ∃ t, ends t ∧ t.tli = { s.tli with line := none, pointer := slot }
          ∧ vehicle t v = some { x with due := { x.due with grant := kept n } }) ∧
      (∀ n, g.item = .assign v → x.due.assign = some n →
        ∃ t, ends t ∧ t.tli = { s.tli with line := none, pointer := slot }
          ∧ vehicle t v = some { x with due := { x.due with assign := kept n } }) ∧
      (g.item = .withdraw v → x.due.withdraw ≠ [] →
        ∃ t y, ends t ∧ t.tli = { s.tli with line := none, pointer := slot } ∧ vehicle t v = some y
          ∧ (afterAnswer x.due.withdrawCount (mostDominant l) = none →
              y.due.withdraw = x.due.withdraw.filter (fun m => decide (m ∉ g.carried)) ∧ y.due.withdrawCount = 0)
          ∧ (∀ k, afterAnswer x.due.withdrawCount (mostDominant l) = some k →
              y.due.withdraw = x.due.withdraw ∧ y.due.withdrawCount = k))

/-- How an engine frame ends, for its item as it stood and for one made due again. -/
def Obligations.FrameOutcomeSettlesItem : Prop := Says.FrameOutcomes ∧ Says.RenewedItemsStay

/-! ### Deadlines, timers and the dispatch pass -/

namespace Sys2Proof.Says

/-- The last-heard deadline (R67, R79, R134): the vehicle becomes LOST with its resume state and fault mark, a HOLD due,
its next move given up, its wait-list entry gone and a claim still CLAIMING withdrawn; without a deadline nothing happens
(log 1), and the time moves to the deadline (log 4). -/
def SilenceLosesVehicle : Prop :=
  ∀ (s : State) (v : Nat), s.running = true →
    ((∀ x, vehicle s v = some x → x.heardBy = none) → exec (.lastHeardDeadline v) s = .next s) ∧
    ∀ x d, vehicle s v = some x → x.heardBy = some d →
      ∃ t y, exec (.lastHeardDeadline v) s = .next t ∧ t.board.now = max s.board.now d
        ∧ flagSet t .vehicleLost = true ∧ vehicle t v = some y ∧ y.heardBy = none ∧ y.due.hold = some 0
        ∧ y.due.stopMark = true ∧ y.nextMove = none ∧ y.move = x.move ∧ y.carrier = x.carrier ∧ LeavesService s t v
        ∧ (∀ w, x.state = .work w → y.state = .lost w false) ∧ (∀ w, x.state = .faulted w → y.state = .lost w true)

/-- The confirm deadline (R100): CONFIRM-TIMEOUT, the move WAITING with its age, a WITHDRAW due and the ASSIGN
discarded, the vehicle IDLE without it, a preemption list entry for it removed (R123, R126); without a running deadline nothing happens (log 1), and the time moves to the
deadline (log 4). -/
def ConfirmTimesOut : Prop :=
  ∀ (s : State) (m : Nat), s.running = true →
    ((∀ y, findMove s m = some y → ∀ d, y.confirm ≠ .at d) → exec (.confirmDeadline m) s = .next s) ∧
    ∀ y d v, findMove s m = some y → y.confirm = .at d → y.vehicle = some v →
      ∃ t z, exec (.confirmDeadline m) s = .next t ∧ t.board.now = max s.board.now d
        ∧ flagSet t .confirmTimeout = true ∧ (∀ q ∈ t.asu.preempts, q.newMove ≠ m) ∧ findMove t m = some z
        ∧ z = { y with state := .waiting, vehicle := none, confirm := .absent }
        ∧ ∀ x, vehicle s v = some x → ∃ u, vehicle t v = some u ∧ u.state = worksAs .idle x.state ∧ u.move = none
            ∧ u.due.assign = none ∧ m ∈ u.due.withdraw

end Sys2Proof.Says

/-- The deadlines of vehicles and moves. -/
def Obligations.DeadlinesFall : Prop := Says.SilenceLosesVehicle ∧ Says.ConfirmTimesOut

/-- One expiry of the age timer (R90) and of the dispatch timer (R113); the timers' times are the model's (log 4). -/
def Obligations.TimersExpire : Prop :=
  ∀ s : State, s.running = true →
    exec .ageTimer s = .next { s with
      board := { s.board with now := max s.board.now s.mq.ageAt }
      mq := { s.mq with
        moves := s.mq.moves.map fun x => { x with age := if x.age < 65535 then x.age + 1 else 65535 }
        ageAt := s.mq.ageAt + 10 } } ∧
    exec .dispatchTimer s = .next { s with
      board := { s.board with now := max s.board.now s.asu.dispatchAt }
      asu := { s.asu with
        dispatchAt := s.asu.dispatchAt + 10, passDue := s.asu.passDue || decide (s.mode = .dispatching) } }

namespace Sys2Proof.Says

/-- U of R114. -/
def urgencyBy (t : Tuning) (x : Move) : Nat :=
  min 65535 ((if x.cls = 0 then t.base0 else if x.cls = 1 then t.base1 else if x.cls = 2 then t.base2 else t.base3)
    + x.age * t.kage / 16)

/-- The pass is due in DISPATCHING. -/
abbrev PassBegins (s : State) : Prop := s.running = true ∧ s.mode = .dispatching ∧ s.asu.passDue = true

/-- A pass with the one WAITING move `m`. -/
abbrev OneWaiting (s : State) (m : Move) : Prop :=
  s.mq.moves.filter (fun x => x.state == .waiting) = [m] ∧ (s.mq.moves.map (·.id)).Nodup

end Sys2Proof.Says

/-- A dispatch pass (R111 to R115, R121 to R123): the urgency of every WAITING move is written; without one nothing
but the flags changes; the one WAITING move goes to the vehicle chosen for it, by the kind of vehicle. A pass that is
not due changes nothing, and a pass is one command (log 1 and 5). -/
def Sys2Proof.Says.PassOfOne : Prop :=
  ∀ s : State,
    (s.running = true → ¬ (s.mode = .dispatching ∧ s.asu.passDue = true) → exec .dispatchPass s = .next s) ∧
    (PassBegins s → s.asu.haltDeferred = false → (∀ x ∈ s.mq.moves, x.state ≠ .waiting) →
      exec .dispatchPass s = .next { s with asu := { s.asu with passDue := false, passRunning := false } }) ∧
    (PassBegins s → ∃ t, exec .dispatchPass s = .next t ∧ t.asu.passRunning = false ∧ t.asu.haltDeferred = false
      ∧ ((s.mq.moves.map (·.id)).Nodup → ∀ x ∈ s.mq.moves, ∃ y, findMove t x.id = some y ∧ y.age = x.age ∧ y.cls = x.cls
          ∧ y.urgency = if x.state = .waiting then urgencyBy s.layout.tuning x else x.urgency)) ∧
    (∀ m x, PassBegins s → OneWaiting s m → choose s [] m = .plain x → vehicle s x.id = some x →
      (x.state = .work .idle →
        ∃ t y z, exec .dispatchPass s = .next t ∧ findMove t m.id = some y ∧ y.state = .assigned ∧ y.vehicle = some x.id
          ∧ vehicle t x.id = some z ∧ z.state = .work .toSource ∧ z.move = some m.id ∧ z.due.assign = some 0) ∧
      (x.state = .work .depositing →
        ∃ t y z, exec .dispatchPass s = .next t ∧ findMove t m.id = some y ∧ y.state = .assignedNext
          ∧ y.vehicle = some x.id ∧ vehicle t x.id = some z ∧ z.state = .work .depositing ∧ z.nextMove = some m.id)) ∧
    (∀ m x p, PassBegins s → OneWaiting s m → choose s [] m = .preempt x → vehicle s x.id = some x → x.move = some p →
      ∃ t y z w, exec .dispatchPass s = .next t ∧ findMove t m.id = some y ∧ y.state = .assigned ∧ y.vehicle = some x.id
        ∧ findMove t p = some w ∧ w.state = .waiting ∧ w.vehicle = none ∧ vehicle t x.id = some z
        ∧ z.state = .work .toSource ∧ z.move = some m.id ∧ z.due.assign = some 0 ∧ p ∈ z.due.withdraw
        ∧ { vehicle := x.id, newMove := m.id, oldMove := p } ∈ t.asu.preempts) ∧
    (∀ m, PassBegins s → OneWaiting s m → choose s [] m = .none →
      ∃ t y, exec .dispatchPass s = .next t ∧ findMove t m.id = some y ∧ y.state = .waiting ∧ t.roster = s.roster)

namespace Sys2Proof.Says

/-- The vehicle a choice takes. -/
def chosenBy : Choice → List Nat
  | .none => []
  | .plain x => [x.id]
  | .preempt x => [x.id]

/-- The choices of a pass, move by move: each against the state `s` at its start, the vehicles chosen for earlier moves
excluded (R112, R115, R116). -/
def choicesOf (s : State) : List Move → List Nat → List (Move × Choice)
  | [], _ => []
  | m :: more, chosen => (m, choose s chosen m) :: choicesOf s more (chosenBy (choose s chosen m) ++ chosen)

/-- What the MOVE-REPORTs of one application say (R121). -/
def reportsOf (s : State) (m : Move) : Choice → List FloorFrame
  | .none => []
  | .plain x => [moveReport s m.id (if x.state = .work .idle then 2 else 1) x.id m.age]
  | .preempt x =>
    ((x.move.bind (findMove s)).toList.map fun p => moveReport s p.id 0 0 p.age) ++ [moveReport s m.id 2 x.id m.age]

/-- Move `m` is ASSIGNED to vehicle `v`, TO-SOURCE with an ASSIGN due and its path to the source port (R121). -/
def Assigned (t : State) (m : Move) (v : Nat) : Prop :=
  ∃ y z, findMove t m.id = some y ∧ y.state = .assigned ∧ y.vehicle = some v ∧ y.age = m.age ∧ vehicle t v = some z
    ∧ z.state = .work .toSource ∧ z.move = some m.id ∧ z.due.assign = some 0 ∧ z.path.purpose = .source
    ∧ ∀ p r, m.source = some p → portRec t p = some r → z.path.target = some r.segment

/-- A pass with any number of WAITING moves (R112, R115, R116, R121): they are taken in the order `passOrder`, which
O55 states, each gets the choice of `choose`, which O55 states too, with the vehicles chosen before it in the pass excluded,
and every choice is applied by the kind of vehicle; a move without a vehicle stays WAITING, a vehicle that is not chosen keeps
its state and moves; the MOVE-REPORTs go out in the order of application, as far as the queue takes them. -/
def PassTakesInOrder : Prop :=
  ∀ s : State, PassBegins s → RosterOk s.roster → (s.mq.moves.map (·.id)).Nodup →
    let all := choicesOf s (passOrder s) []
    ∃ t, exec .dispatchPass s = .next t ∧
      (∀ m x, (m, Choice.plain x) ∈ all →
        (x.state = .work .idle → Assigned t m x.id) ∧
        (x.state = .work .depositing → ∃ y z, findMove t m.id = some y ∧ y.state = .assignedNext ∧ y.vehicle = some x.id
          ∧ y.confirm = .absent ∧ vehicle t x.id = some z ∧ z.state = .work .depositing ∧ z.move = x.move
          ∧ z.nextMove = some m.id)) ∧
      (∀ m x, (m, Choice.preempt x) ∈ all → Assigned t m x.id ∧ ∃ p w z, x.move = some p ∧ findMove t p = some w
        ∧ w.state = .waiting ∧ w.vehicle = none ∧ vehicle t x.id = some z ∧ p ∈ z.due.withdraw
        ∧ { vehicle := x.id, newMove := m.id, oldMove := p } ∈ t.asu.preempts) ∧
      (∀ m, (m, Choice.none) ∈ all → ∃ y, findMove t m.id = some y ∧ y.state = .waiting) ∧
      (∀ v x, vehicle s v = some x → (∀ c ∈ all, v ∉ chosenBy c.2) →
        ∃ z, vehicle t v = some z ∧ z.state = x.state ∧ z.move = x.move ∧ z.nextMove = x.nextMove) ∧
      ∃ new, t.fli.outbound = s.fli.outbound ++ new ∧ (new.filter fun g => g.kind == 0x61).Sublist
        (all.flatMap fun c => reportsOf s c.1 c.2)

end Sys2Proof.Says

/-- What a dispatch pass assigns: with one WAITING move, and with any number. -/
def Obligations.DispatchPassAssigns : Prop := Says.PassOfOne ∧ Says.PassTakesInOrder

namespace Sys2Proof.Says

/-- The cost of R118 for a candidate `x` and source zone `zs`, none where its route entry is "no route" (R116). -/
def costBy (s : State) (x : Vehicle) (zs zv : Nat) : Option Nat :=
  if (route s zv zs).time = 4095 then none
  else some (min 65535 ((route s zv zs).time + (if x.state = .work .depositing then s.layout.tuning.hd else 0)
    + (zoneCount s zs - (if countsIn s zs x then 1 else 0)) * s.layout.tuning.pz))

/-- `b` is the best of the candidates `p` accepts that are not chosen: smallest cost, then lowest slot (R119). -/
def Best (s : State) (chosen : List Nat) (p : Vehicle → Bool) (zs : Nat) (b : Option Bid) : Prop :=
  match b with
  | none => ∀ q ∈ s.roster, p q.2 = true → q.2.id ∉ chosen → costOf s q.2 zs = none
  | some b => ∃ slot, (slot, b.vehicle) ∈ s.roster ∧ p b.vehicle = true ∧ b.vehicle.id ∉ chosen
      ∧ costOf s b.vehicle zs = some b.cost
      ∧ ∀ q ∈ s.roster, p q.2 = true → q.2.id ∉ chosen → ∀ k, costOf s q.2 zs = some k →
          b.cost ≤ k ∧ (b.cost = k → slot ≤ q.1)

/-- A plain candidate (R116). -/
def IsPlain (x : Vehicle) : Prop := x.state = .work .idle ∨ x.state = .work .depositing ∧ x.nextMove = none

/-- A preemption candidate (R117). -/
def IsPreemptible (s : State) (x : Vehicle) : Prop :=
  x.state = .work .toSource ∧ ∃ m z, x.move = some m ∧ findMove s m = some z ∧ z.cls ≠ 0
    ∧ (z.state = .assigned ∨ z.state = .enroute)

/-- The zone of the segment of the move's source port is `zs` (R116). -/
def SourceIn (s : State) (m : Move) (zs : Nat) : Prop :=
  ∃ p r g, m.source = some p ∧ portRec s p = some r ∧ segment s r.segment = some g ∧ g.zone = zs

/-- The choice for a move is that of its class between the best plain candidate and, for class 0, the best preemption
candidate, among the vehicles not chosen before (R116, R117, R119, R120). -/
def ChoiceByClass : Prop :=
  ∀ (s : State) (chosen : List Nat) (m : Move) (zs : Nat), RosterOk s.roster → SourceIn s m zs →
    ∃ (plain rival : Vehicle → Bool) (best second : Option Bid),
      (∀ x, plain x = true ↔ IsPlain x) ∧ (∀ x, rival x = true ↔ IsPreemptible s x)
      ∧ Best s chosen plain zs best ∧ Best s chosen rival zs second
      ∧ choose s chosen m = (if m.cls = 0 then chooseUrgent s.layout.tuning best second
          else chooseOrdinary s.layout.tuning best)

end Sys2Proof.Says

/-- The arithmetic and choices of a pass: urgency (R114), order (R115), candidates (R116, R117), cost (R118), best candidate
and choice (R119, R120). -/
def Obligations.PassArithmetic : Prop :=
  (∀ (t : Tuning) (x : Move), urgencyOf t x = urgencyBy t x) ∧
  (∀ s : State, (passOrder s).Perm (s.mq.moves.filter fun x => x.state == .waiting)
    ∧ (passOrder s).Pairwise (fun x y => urgencyOf s.layout.tuning y ≤ urgencyOf s.layout.tuning x)
    ∧ ∀ x y, x ≠ y → [x, y].Sublist (s.mq.moves.filter fun x => x.state == .waiting) →
        urgencyOf s.layout.tuning x = urgencyOf s.layout.tuning y → s.mq.moves.Nodup → [x, y].Sublist (passOrder s)) ∧
  (∀ (s : State) (x : Vehicle) (zs zv : Nat), vehicleZone s x = some zv → costOf s x zs = costBy s x zs zv) ∧
  (∀ (s : State) (x : Vehicle) (i : Nat) (g : SegmentRec), x.held.head? = some i → segment s i = some g →
    vehicleZone s x = some g.zone) ∧
  Says.ChoiceByClass ∧
  (∀ (s : State) (chosen : List Nat) (p : Vehicle → Bool) (zs : Nat), RosterOk s.roster →
    Best s chosen p zs (bestBid (bids s chosen p zs))) ∧
  (∀ (t : Tuning) (b : Bid), chooseOrdinary t none = .none ∧
    (b.cost ≤ t.kmax → chooseOrdinary t (some b) = .plain b.vehicle) ∧ (t.kmax < b.cost → chooseOrdinary t (some b) = .none)) ∧
  (∀ (t : Tuning) (b c : Bid), chooseUrgent t none none = .none ∧ chooseUrgent t (some b) none = .plain b.vehicle ∧
    (c.cost + t.mpre < b.cost → chooseUrgent t (some b) (some c) = .preempt c.vehicle) ∧
    (b.cost ≤ c.cost + t.mpre → chooseUrgent t (some b) (some c) = .plain b.vehicle) ∧
    (c.cost + t.mpre < 65535 → chooseUrgent t none (some c) = .preempt c.vehicle) ∧
    (65535 ≤ c.cost + t.mpre → chooseUrgent t none (some c) = .none))

/-! ### Routes (R8) -/

/-- The sequence of a route descriptor: its length, at most 255, its first segment, the steps within and between runs and legs, and
the closed form (R8). -/
def Obligations.RouteSequenceClosedForm : Prop :=
  ∀ d : Descriptor, 1 ≤ d.runLen → 1 ≤ d.runs → 1 ≤ d.legs →
    d.sequence.length = d.runLen * d.runs * d.legs ∧ (InRange d → d.sequence.length ≤ 255) ∧ d.sequence.head? = some (d.first : Int) ∧
    (∀ h m r, h < d.legs → m < d.runs → r < d.runLen →
      d.sequence[(h * d.runs + m) * d.runLen + r]? = some ((d.first : Int)
        + h * (d.runs * ((d.runLen : Int) - 1) + ((d.runs : Int) - 1) * d.runStep + d.legStep)
        + m * ((d.runLen : Int) - 1 + d.runStep) + r)) ∧
    (∀ h m r k h' m' r', h < d.legs → m < d.runs → r < d.runLen → d.step h m r = some (k, h', m', r') →
      d.segmentAt h' m' r' = d.segmentAt h m r + k ∧
      (h' * d.runs + m') * d.runLen + r' = (h * d.runs + m) * d.runLen + r + 1 ∧
      k = (if r + 1 < d.runLen then 1 else if m + 1 < d.runs then d.runStep else d.legStep)) ∧
    (∀ h m r, h < d.legs → m < d.runs → r < d.runLen →
      (d.step h m r = none ↔ h + 1 = d.legs ∧ m + 1 = d.runs ∧ r + 1 = d.runLen))

/-! ### The HALT input, the reset pin and the supply -/

/-- The HALT input (R177, R179): an assertion is recorded, halts a DISPATCHING engine whose halt-enable is set and
then raises HALT-LINE; a release is recorded only. An assertion of an asserted input moves only the pin (log 1). -/
def Obligations.HaltInputChanges : Prop :=
  ∀ s : State, s.running = true →
    exec .haltInputReleased s =
      .next { s with board := { s.board with haltPin := false }, mc := { s.mc with haltInput := false } } ∧
    (s.mc.haltInput = true → exec .haltInputAsserted s = .next { s with board := { s.board with haltPin := true } }) ∧
    (s.mc.haltInput = false →
      let seen : State := { s with board := { s.board with haltPin := true }, mc := { s.mc with haltInput := true } }
      (s.mc.identity.haltEnable = false ∨ s.mode = .parked → exec .haltInputAsserted s = .next seen) ∧
      (s.mc.identity.haltEnable = true → s.mode = .halted →
        exec .haltInputAsserted s = .next (raise .haltLine noDetail seen)) ∧
      (s.mc.identity.haltEnable = true → s.mode = .dispatching →
        ∃ t, exec .haltInputAsserted s = .next t ∧ EntersHalted s t ∧ t.mc.haltInput = true
          ∧ t.mc.haltPending = s.mc.haltPending ∧ flagSet t .haltLine = true))

namespace Sys2Proof.Says

/-- The state that a release of the reset pin or a power-on gives (R185), on the present board and copy. -/
def startedUp (s : State) : State :=
  { State.reset with
    board := s.board
    mq := { moves := [], arrivals := 0, ageAt := s.board.now + 10 }
    asu := { State.reset.asu with dispatchAt := s.board.now + 10 }
    mc := { State.reset.mc with haltInput := s.board.haltPin, identity := loadCopy s.mc.copy, copy := s.mc.copy }
    pending := s.pending }

end Sys2Proof.Says

/-- The reset pin and the supply (R182, R185): a held or unpowered engine does nothing; release and power-on give the
state of R185 with the record loaded from the copy. The model's own: what a cut write leaves is a free value (log 8 and
9), a held or unpowered part does nothing and has no output (log 10), power on a powered part changes nothing (log 1),
the timers first expire 10 units after the start (log 4). -/
def Obligations.ResetAndPower : Prop :=
  ∀ s : State,
    (s.running = false → ∀ c : Instr, c ∉ [Instr.haltInputAsserted, .haltInputReleased, .resetPinAsserted,
      .resetPinReleased, .powerOn, .lossOfPower] → exec c s = .next s) ∧
    (s.running = true → s.mc.write = none →
      exec .resetPinAsserted s = .next { s with
        board := { s.board with resetPin := true }, su := { s.su with alarm := false }, tli := { s.tli with line := none } } ∧
      exec .lossOfPower s = .next { s with
        board := { s.board with power := false }, su := { s.su with alarm := false }, tli := { s.tli with line := none } }) ∧
    (s.running = true → ∀ w, s.mc.write = some w →
      (∃ t, exec .resetPinAsserted s = .next t ∧ t.running = false ∧ t.su.alarm = false ∧ t.mc.write = none) ∧
      (∃ t, exec .lossOfPower s = .next t ∧ t.running = false ∧ t.su.alarm = false ∧ t.mc.write = none)) ∧
    (s.board.power = true → s.board.resetPin = true → exec .resetPinReleased s =
      .next (startedUp { s with board := { s.board with resetPin := false } })) ∧
    (s.board.power = false → exec .powerOn s = .next (startedUp { s with board := { s.board with power := true } })) ∧
    (s.board.power = true → exec .powerOn s = .next s)

/-! ### Occurrences and frames -/

namespace Sys2Proof.Says

/-- The detail an occurrence records (R170). -/
def recorded (s : State) (k : EventKind) (d : Detail) : Detail := { d with kind := k, severity := severityOf s k }

/-- The ALARM condition (R171). -/
def AlarmHolds (s : State) : Prop := ∃ k, flagSet s k = true ∧ (severityOf s k = .alarm ∨ severityOf s k = .halt)

end Sys2Proof.Says

/-- An occurrence of an event kind (R161, R169 to R171, R178): it sets the flag and its first-occurrence record, which
a set flag keeps; a NOTICE goes out from NOTICE severity up at the setting only, below the report limit; ALARM
follows; HALT severity halts a DISPATCHING engine. -/
def Obligations.OccurrencesRecorded : Prop :=
  ∀ (s : State) (k : EventKind) (d : Detail), s.asu.passRunning = false →
    (flagSet (raise k d s) k = true) ∧
    (∀ j r, tget j s.su.flags = some r → tget j (raise k d s).su.flags = some r) ∧
    (flagSet s k = false → tget k.code (raise k d s).su.flags = some (recorded s k d)) ∧
    ((raise k d s).su.alarm = true ↔ AlarmHolds (raise k d s)) ∧
    (severityOf s k = .halt → s.mode = .dispatching → (raise k d s).mode = .halted) ∧
    (s.mode ≠ .dispatching → (raise k d s).mode = s.mode) ∧
    (flagSet s k = true ∨ severityOf s k = .log → (raise k d s).fli = s.fli) ∧
    (flagSet s k = false → severityOf s k ≠ .log → occupancy s < 56 →
      (raise k d s).fli.outbound = s.fli.outbound ++ [frameOf s 64 0x62 0 (detailBytes (recorded s k d))]) ∧
    (flagSet s k = false → severityOf s k ≠ .log → 56 ≤ occupancy s →
      (raise k d s).fli = s.fli ∧ flagSet (raise k d s) .reportLost = true) ∧
    (severityOf s k ≠ .halt → (severityOf s .reportLost ≠ .halt ∨ occupancy s < 56) →
      raise k d s = { s with su := (raise k d s).su, fli := (raise k d s).fli })

/-- What the handling of a vehicle frame, a peer frame, a deadline or a pass leaves unchanged: the mode changes only to
HALTED (R178), no segment gains or loses its record, entries only leave the receive queues (R147), frames are only
appended outbound (R161), set flags keep their records (R169, R170). That time never falls is a rule of the model's
clock (log 3 and 4). -/
def Obligations.HandlingFrame : Prop :=
  ∀ (s t : State) (c : Instr),
    (c ∈ [Instr.claim, .claimGrant, .claimRefuse, .claimWithdraw, .arrived, .abandon, .join, .position, .statusConfirm,
        .statusHoistStart, .statusHoistDone, .statusHoistFault, .statusFault, .statusCleared, .dispatchPass]
      ∨ (∃ v, c = .lastHeardDeadline v) ∨ (∃ m, c = .confirmDeadline m) ∨ (∃ k, c = .claimDeadline k)
      ∨ ∃ n k, c = .arrivalDeadline n k) →
    exec c s = .next t → Framed s t
end

