-- ==== Sys2Proof/Laws/Table.lean ====
section
/-! SUPPORT. Sparse tables: what writing, dropping and changing a key does to reads and to the canonical form. -/

namespace Sys2Proof.Machine

variable {α : Type}

theorem mem_of_tget {k : Nat} {a : α} : ∀ {t : Table α}, tget k t = some a → (k, a) ∈ t
  | [], h => by simp [tget] at h
  | (j, b) :: t, h => by
    unfold tget at h
    split at h
    · rename_i e; subst e; cases h; exact List.mem_cons_self
    · exact List.mem_cons_of_mem _ (mem_of_tget h)

theorem tget_of_mem {k : Nat} {a : α} : ∀ {t : Table α}, (t.map (·.1)).Pairwise (· < ·) → (k, a) ∈ t → tget k t = some a
  | [], _, h => by cases h
  | (j, b) :: t, hp, h => by
    rw [List.map_cons, List.pairwise_cons] at hp
    unfold tget
    rcases List.mem_cons.1 h with e | m
    · cases e; rw [if_pos rfl]
    · rw [if_neg (Nat.ne_of_lt (hp.1 k (List.mem_map.2 ⟨_, m, rfl⟩)))]
      exact tget_of_mem hp.2 m

theorem tableWf_iff {t : Table α} : TableWf t ↔ (t.map (·.1)).Pairwise (· < ·) := by
  rw [List.pairwise_map]

theorem mem_tput {k : Nat} {a : α} {p : Nat × α} : ∀ {t : Table α}, p ∈ tput k a t → p = (k, a) ∨ p ∈ t
  | [], h => by simpa [tput] using h
  | (j, b) :: t, h => by
    unfold tput at h
    split at h
    · simpa using h
    · split at h
      · rcases List.mem_cons.1 h with e | m
        · exact .inl e
        · exact .inr (List.mem_cons_of_mem _ m)
      · rcases List.mem_cons.1 h with e | m
        · exact .inr (e ▸ List.mem_cons_self)
        · exact (mem_tput m).imp id (List.mem_cons_of_mem _)

/-- Writing a key keeps the canonical form. -/
theorem tableWf_tput {k : Nat} {a : α} : ∀ {t : Table α}, TableWf t → TableWf (tput k a t)
  | [], _ => by simp [tput]
  | (j, b) :: t, h => by
    have h := List.pairwise_cons.1 h
    unfold tput
    split
    · rename_i lt
      refine List.pairwise_cons.2 ⟨fun p hp => ?_, List.pairwise_cons.2 h⟩
      rcases List.mem_cons.1 hp with e | m
      · exact e ▸ lt
      · exact Nat.lt_trans lt (h.1 p m)
    · split
      · rename_i e; subst e; exact List.pairwise_cons.2 h
      · rename_i n e
        refine List.pairwise_cons.2 ⟨fun p hp => ?_, tableWf_tput h.2⟩
        rcases mem_tput hp with rfl | m
        · show j < k; omega
        · exact h.1 p m

theorem tableWf_tdrop {k : Nat} {t : Table α} (h : TableWf t) : TableWf (tdrop k t) := h.filter _

theorem tableWf_tputD [DecidableEq α] {d a : α} {k : Nat} {t : Table α} (h : TableWf t) : TableWf (tputD d k a t) := by
  unfold tputD; split
  · exact tableWf_tdrop h
  · exact tableWf_tput h

/-- A written key reads as what was written; every other key reads as before. -/
theorem tget_tput (k j : Nat) (a : α) : ∀ t : Table α, tget j (tput k a t) = if j = k then some a else tget j t
  | [] => by
    by_cases h : j = k
    · subst h; simp [tput, tget]
    · simp [tput, tget, h, Ne.symm h]
  | (i, b) :: t => by
    unfold tput
    split
    · by_cases h : j = k
      · subst h; simp [tget]
      · simp [tget, h, Ne.symm h]
    · split
      · rename_i e; subst e
        by_cases h : j = k
        · subst h; simp [tget]
        · simp [tget, h, Ne.symm h]
      · rename_i n e
        by_cases h : i = j
        · subst h; simp [tget, Ne.symm e]
        · simp [tget, h, tget_tput k j a t]

theorem tget_tdrop (k j : Nat) : ∀ t : Table α, tget j (tdrop k t) = if j = k then none else tget j t
  | [] => by simp [tdrop, tget]
  | (i, b) :: t => by
    have ih := tget_tdrop k j t
    unfold tdrop at ih ⊢
    by_cases e : i = k
    · subst e
      simp only [List.filter_cons, ne_eq, not_true_eq_false, decide_false, Bool.false_eq_true, if_false, tget]
      rw [ih]
      by_cases h : j = i
      · simp [h]
      · simp [h, Ne.symm h]
    · simp only [List.filter_cons, ne_eq, e, not_false_eq_true, decide_true, if_true, tget, ih]
      by_cases h : i = j
      · subst h; simp [e]
      · simp [h]

/-- Changing a key's record changes the read of that key only. -/
theorem tget_tmod (k j : Nat) (f : α → α) :
    ∀ t : Table α, tget j (tmod k f t) = if j = k then (tget j t).map f else tget j t
  | [] => by simp [tmod, tget]
  | (i, b) :: t => by
    have ih := tget_tmod k j f t
    unfold tmod at ih ⊢
    rw [List.map_cons]
    by_cases e : i = k
    · subst e
      by_cases h : j = i
      · subst h; simp [tget]
      · simp only [if_true, tget, Ne.symm h, if_false, ih, h]
    · by_cases h : i = j
      · subst h; simp [tget, e]
      · simp only [e, if_false, tget, h, ih]

theorem tmod_mem {k : Nat} {f : α → α} {t : Table α} {p : Nat × α} (h : p ∈ tmod k f t) :
    ∃ q ∈ t, q.1 = p.1 ∧ (p.2 = q.2 ∧ q.1 ≠ k ∨ p.2 = f q.2 ∧ q.1 = k) := by
  obtain ⟨q, hq, rfl⟩ := List.mem_map.1 h
  by_cases e : q.1 = k
  · exact ⟨q, hq, by simp [e], .inr ⟨by simp [e], e⟩⟩
  · exact ⟨q, hq, by simp [e], .inl ⟨by simp [e], e⟩⟩

theorem tmod_keys (k : Nat) (f : α → α) (t : Table α) : (tmod k f t).map (·.1) = t.map (·.1) := by
  unfold tmod
  rw [List.map_map]
  exact List.map_congr_left fun p _ => by simp only [Function.comp_apply]; split <;> rfl

theorem lowestFree_spec {n k : Nat} {t : Table α} (h : lowestFree n t = some k) : k < n ∧ tget k t = none := by
  unfold lowestFree at h
  exact ⟨List.mem_range.1 (List.mem_of_find?_eq_some h), by simpa using List.find?_some h⟩

theorem tget_mapVal {β : Type} (f : α → β) (j : Nat) :
    ∀ t : Table α, tget j (t.map fun p => (p.1, f p.2)) = (tget j t).map f
  | [] => rfl
  | (i, b) :: t => by
    rw [List.map_cons]; unfold tget
    split
    · rfl
    · exact tget_mapVal f j t

theorem insertByRank_perm (f : α → Nat) (a : α) : ∀ l : List α, (insertByRank f a l).Perm (a :: l)
  | [] => .refl _
  | b :: t => by
    unfold insertByRank; split
    · exact .refl _
    · exact ((insertByRank_perm f a t).cons b).trans (.swap a b t)

theorem leastBy_mem {f : α → Nat} {a : α} : ∀ {l : List α}, leastBy f l = some a → a ∈ l
  | [], h => by cases h
  | b :: t, h => by
    unfold leastBy at h
    cases e : leastBy f t with
    | none => rw [e] at h; cases h; exact List.mem_cons_self
    | some c =>
      rw [e] at h
      simp only at h
      split at h
      · cases h; exact List.mem_cons_of_mem _ (leastBy_mem e)
      · cases h; exact List.mem_cons_self

theorem leastBy_none {f : α → Nat} : ∀ {l : List α}, leastBy f l = none → l = []
  | [], _ => rfl
  | b :: t, h => by
    unfold leastBy at h
    cases e : leastBy f t with
    | none => rw [e] at h; cases h
    | some c => rw [e] at h; simp only at h; split at h <;> cases h

/-- Nothing in the list ranks below the element chosen. -/
theorem leastBy_le {f : α → Nat} {a b : α} : ∀ {l : List α}, leastBy f l = some a → b ∈ l → f a ≤ f b
  | [], h, _ => by cases h
  | c :: t, h, m => by
    unfold leastBy at h
    cases e : leastBy f t with
    | none =>
      rw [e] at h; cases h
      rw [leastBy_none e] at m
      simp at m; rw [m]
    | some d =>
      rw [e] at h
      simp only at h
      split at h
      · rename_i lt
        cases h
        rcases List.mem_cons.1 m with rfl | m
        · exact lt.le
        · exact leastBy_le e m
      · rename_i nlt
        cases h
        rcases List.mem_cons.1 m with rfl | m
        · exact le_refl _
        · exact (not_lt.1 nlt).trans (leastBy_le e m)

end Sys2Proof.Machine
end

