-- ==== Sys2Proof/Laws/Holders.lean ====
section
/-! SUPPORT. Who holds a segment and who claims it: what changes of the reservation table, the roster and the claim
tables keep (R21, R129, R137). -/

namespace Sys2Proof.Machine

/-! ### Reading the reservation table and the roster -/

theorem mem_namedIn {t : Table SegRes} {v i : Nat} : v ∈ namedIn t i ↔ ∃ q, resIn t i = some q ∧ v ∈ q.named := by
  unfold namedIn
  cases resIn t i <;> simp

theorem namedIn_of {t : Table SegRes} {i : Nat} {q : Res} (h : resIn t i = some q) : namedIn t i = q.named := by
  unfold namedIn; rw [h]; rfl

theorem resIn_mem {t : Table SegRes} {i : Nat} {q : Res} (h : resIn t i = some q) :
    ∃ w, (i, ({ res := q, waits := w } : SegRes)) ∈ t := by
  unfold resIn at h
  obtain ⟨x, hx, rfl⟩ := Option.map_eq_some_iff.1 h
  exact ⟨x.waits, mem_of_tget hx⟩

theorem resIn_of_mem {t : Table SegRes} {p : Nat × SegRes} (ht : (t.map (·.1)).Pairwise (· < ·)) (hp : p ∈ t) :
    resIn t p.1 = some p.2.res := by
  unfold resIn; rw [tget_of_mem ht hp]; rfl

/-- The state of one segment changes. -/
theorem resIn_tmod (k j : Nat) (f : SegRes → SegRes) (g : Res → Res) (t : Table SegRes) (h : ∀ x, (f x).res = g x.res) :
    resIn (tmod k f t) j = if j = k then (resIn t j).map g else resIn t j := by
  unfold resIn
  rw [tget_tmod]
  split
  · cases tget j t with
    | none => rfl
    | some x => simp [h]
  · rfl

/-- Changes elsewhere than in the states. -/
theorem resIn_map (f : SegRes → SegRes) (j : Nat) (t : Table SegRes) (h : ∀ x, (f x).res = x.res) :
    resIn (t.map fun p => (p.1, f p.2)) j = resIn t j := by
  unfold resIn
  rw [tget_mapVal]
  cases tget j t with
  | none => rfl
  | some x => simp [h]

/-! ### What changes of the views keep -/

theorem Agree.views {t t' : Table SegRes} {r r' : Table Vehicle} {b b' : Bxu} {f : Nat → Bool} (h : Agree t r b f)
    (hr : ∀ i, resIn t' i = resIn t i) (hh : ∀ v, heldIn r' v = heldIn r v) (hb : b'.outClaims = b.outClaims) :
    Agree t' r' b' f := by
  have hn : ∀ i, namedIn t' i = namedIn t i := fun i => by unfold namedIn; rw [hr]
  have he : ∀ v i g, HasEntry b' v i g ↔ HasEntry b v i g := fun v i g => by unfold HasEntry; rw [hb]
  exact
    { once := fun i => by rw [hn]; exact h.once i
      listed := fun v => by rw [hh]; exact h.listed v
      holds := fun v i => by rw [hh, hn]; exact h.holds v i
      claiming := fun v i => by rw [hr, he]; exact h.claiming v i
      borrowed := fun v i e => (he v i _).2 (h.borrowed v i (hr i ▸ e))
      kinds := fun i q e => h.kinds i q (hr i ▸ e)
      plain := fun i q e => h.plain i q (hr i ▸ e)
      claims := fun e he => by rw [hr]; exact h.claims e (hb ▸ he) }

/-- One segment changes its state, with the held lists of the vehicles it named and names, and with its claim. -/
theorem Agree.segment {t t' : Table SegRes} {r r' : Table Vehicle} {b b' : Bxu} {f : Nat → Bool} {i : Nat} {q p : Res}
    (h : Agree t r b f) (hq : resIn t i = some q) (hp : resIn t' i = some p)
    (hr : ∀ j, j ≠ i → resIn t' j = resIn t j) (hk : p.isForeignKind = q.isForeignKind) (hpl : p.plain)
    (hd : p.named.Nodup)
    (hh : ∀ v j, j ∈ heldIn r' v ↔ if j = i then v ∈ p.named else j ∈ heldIn r v) (hl : ∀ v, (heldIn r' v).Nodup)
    (hb : ∀ e, e.segment ≠ i → (e ∈ b'.outClaims ↔ e ∈ b.outClaims)) (hc : ∀ v, p = .claiming v ↔ HasEntry b' v i False)
    (hw : ∀ v, p = .borrowed v → HasEntry b' v i True) (hf : ∀ e ∈ b'.outClaims, e.segment = i → p.isForeignKind = true) :
    Agree t' r' b' f := by
  have hn : ∀ j, j ≠ i → namedIn t' j = namedIn t j := fun j e => by unfold namedIn; rw [hr j e]
  have hi : namedIn t' i = p.named := namedIn_of hp
  have he : ∀ v j g, j ≠ i → (HasEntry b' v j g ↔ HasEntry b v j g) := fun v j g ne => by
    unfold HasEntry
    exact exists_congr fun e => ⟨fun ⟨m, es, k⟩ => ⟨(hb e (es ▸ ne)).1 m, es, k⟩, fun ⟨m, es, k⟩ => ⟨(hb e (es ▸ ne)).2 m, es, k⟩⟩
  refine
    { once := fun j => ?_
      listed := hl
      holds := fun v j => ?_
      claiming := fun v j => ?_
      borrowed := fun v j e => ?_
      kinds := fun j x e => ?_
      plain := fun j x e => ?_
      claims := fun e m => ?_ }
  · by_cases e : j = i
    · subst e; rw [hi]; exact hd
    · rw [hn j e]; exact h.once j
  · rw [hh]
    by_cases e : j = i
    · subst e; rw [if_pos rfl, hi]
    · rw [if_neg e, hn j e]; exact h.holds v j
  · by_cases e : j = i
    · subst e; rw [hp, ← hc]; simp
    · rw [hr j e, he v j _ e]; exact h.claiming v j
  · by_cases k : j = i
    · subst k; rw [hp] at e; cases e; exact hw v rfl
    · rw [hr j k] at e; exact (he v j _ k).2 (h.borrowed v j e)
  · by_cases k : j = i
    · subst k; rw [hp] at e; cases e; rw [hk]; exact h.kinds _ _ hq
    · rw [hr j k] at e; exact h.kinds j x e
  · by_cases k : j = i
    · subst k; rw [hp] at e; cases e; exact hpl
    · rw [hr j k] at e; exact h.plain j x e
  · by_cases k : e.segment = i
    · rw [k]; exact ⟨p, hp, hf e m k⟩
    · rw [hr _ k]; exact h.claims e ((hb e k).1 m)

/-- An own segment takes another state of an own segment. -/
theorem Agree.own {t t' : Table SegRes} {r r' : Table Vehicle} {b b' : Bxu} {f : Nat → Bool} {i : Nat} {q p : Res}
    (h : Agree t r b f) (hq : resIn t i = some q) (hp : resIn t' i = some p)
    (hr : ∀ j, j ≠ i → resIn t' j = resIn t j) (kq : q.isForeignKind = false) (kp : p.isForeignKind = false)
    (hpl : p.plain) (hd : p.named.Nodup) (hh : ∀ v j, j ∈ heldIn r' v ↔ if j = i then v ∈ p.named else j ∈ heldIn r v)
    (hl : ∀ v, (heldIn r' v).Nodup) (hb : b'.outClaims = b.outClaims) : Agree t' r' b' f := by
  have none : ∀ v, ¬ HasEntry b v i False := fun v k => by
    have := (h.claiming v i).2 k
    rw [hq] at this
    cases this
    cases kq
  refine h.segment hq hp hr (kp.trans kq.symm) hpl hd hh hl (fun e _ => by rw [hb]) (fun v => ?_) (fun v e => ?_) fun e m es => ?_
  · refine ⟨fun e => ?_, fun ⟨e, m, k⟩ => absurd ⟨e, hb ▸ m, k⟩ (none v)⟩
    rw [e] at kp; cases kp
  · rw [e] at kp; cases kp
  · obtain ⟨x, hx, kx⟩ := h.claims e (hb ▸ m)
    rw [es, hq] at hx
    cases hx
    rw [kq] at kx; cases kx

/-- A segment's state changes to one that names the same vehicles, nothing else. -/
theorem Agree.renamed {t t' : Table SegRes} {r : Table Vehicle} {b : Bxu} {f : Nat → Bool} {g : Res → Res} {i : Nat}
    (h : Agree t r b f) (hr : ∀ j, resIn t' j = if j = i then (resIn t j).map g else resIn t j)
    (hn : ∀ q, q.plain → (g q).named = q.named ∧ (g q).plain) (hk : ∀ q, (g q).isForeignKind = q.isForeignKind)
    (hg : ∀ q, q.isForeignKind = true → g q = q) : Agree t' r b f := by
  have named : ∀ j, namedIn t' j = namedIn t j := fun j => by
    unfold namedIn
    rw [hr]
    split
    · cases k : resIn t j with
      | none => rfl
      | some q => exact (hn q (h.plain j q k)).1
    · rfl
  have foreign : ∀ j p, p.isForeignKind = true → (resIn t' j = some p ↔ resIn t j = some p) := fun j p kp => by
    rw [hr]
    split
    · cases resIn t j with
      | none => rfl
      | some q =>
        simp only [Option.map_some, Option.some.injEq]
        constructor
        · intro e
          have : q.isForeignKind = true := by rw [← hk, e]; exact kp
          rw [← hg q this]; exact e
        · intro e; rw [e]; exact hg p kp
    · rfl
  exact
    { once := fun j => by rw [named]; exact h.once j
      listed := h.listed
      holds := fun v j => by rw [named]; exact h.holds v j
      claiming := fun v j => by rw [foreign j _ rfl]; exact h.claiming v j
      borrowed := fun v j e => h.borrowed v j ((foreign j _ rfl).1 e)
      kinds := fun j p e => by
        rw [hr] at e
        split at e
        · obtain ⟨q, hq, rfl⟩ := Option.map_eq_some_iff.1 e
          rw [hk]; exact h.kinds j q hq
        · exact h.kinds j p e
      plain := fun j p e => by
        rw [hr] at e
        split at e
        · obtain ⟨q, hq, rfl⟩ := Option.map_eq_some_iff.1 e
          exact (hn q (h.plain j q hq)).2
        · exact h.plain j p e
      claims := fun e m => by
        obtain ⟨q, hq, k⟩ := h.claims e m
        exact ⟨q, (foreign _ q k).2 hq, k⟩ }

/-! ### ClaimsOk -/

theorem map_map_same {α β : Type} {f : α → α} {g : α → β} (h : ∀ a, g (f a) = g a) (l : List α) :
    (l.map f).map g = l.map g := by
  rw [List.map_map]; exact List.map_congr_left fun a _ => h a

theorem ClaimsOk.out {b : Bxu} {l : List OutClaim} (h : ClaimsOk b) (hl : l.Sublist b.outClaims) :
    ClaimsOk { b with outClaims := l } where
  tags := fun e he => h.tags e (hl.subset he)
  outTags := h.outTags.sublist (hl.map _)
  segments := h.segments.sublist (hl.map _)
  vehicles := h.vehicles.sublist (hl.map _)
  inKeys := h.inKeys
  inVehicles := h.inVehicles

theorem ClaimsOk.inn {b : Bxu} {l : List InClaim} (h : ClaimsOk b) (hl : l.Sublist b.inClaims) :
    ClaimsOk { b with inClaims := l } where
  tags := h.tags
  outTags := h.outTags
  segments := h.segments
  vehicles := h.vehicles
  inKeys := h.inKeys.sublist (hl.map _)
  inVehicles := h.inVehicles.sublist (hl.map _)

/-- Phases change, nothing else. -/
theorem ClaimsOk.outPhases {b : Bxu} {f : OutClaim → OutClaim} (h : ClaimsOk b)
    (hf : ∀ e, (f e).tag = e.tag ∧ (f e).segment = e.segment ∧ (f e).vehicle = e.vehicle) :
    ClaimsOk { b with outClaims := b.outClaims.map f } where
  tags := fun e he => by
    obtain ⟨d, hd, rfl⟩ := List.mem_map.1 he
    rw [(hf d).1]; exact h.tags d hd
  outTags := by
    rw [map_map_same fun e => (hf e).1]; exact h.outTags
  segments := by
    rw [map_map_same fun e => (hf e).2.1]; exact h.segments
  vehicles := by
    rw [map_map_same fun e => (hf e).2.2]; exact h.vehicles
  inKeys := h.inKeys
  inVehicles := h.inVehicles

theorem ClaimsOk.inPhases {b : Bxu} {f : InClaim → InClaim} (h : ClaimsOk b)
    (hf : ∀ e, ((f e).cell, (f e).tag) = (e.cell, e.tag) ∧ (f e).vehicle = e.vehicle) :
    ClaimsOk { b with inClaims := b.inClaims.map f } where
  tags := h.tags
  outTags := h.outTags
  segments := h.segments
  vehicles := h.vehicles
  inKeys := by
    rw [map_map_same fun e => (hf e).1]; exact h.inKeys
  inVehicles := by
    rw [map_map_same fun e => (hf e).2]; exact h.inVehicles

theorem nodup_concat {α : Type} {l : List α} {a : α} (h : l.Nodup) (ha : a ∉ l) : (l ++ [a]).Nodup :=
  List.Nodup.append h (List.nodup_singleton a) fun _ hx hy => ha (List.mem_singleton.1 hy ▸ hx)

theorem ClaimsOk.addOut {b : Bxu} {e : OutClaim} {n : Nat} (h : ClaimsOk b) (ht : 1 ≤ e.tag ∧ e.tag ≤ 255)
    (hn : ∀ c ∈ b.outClaims, c.tag ≠ e.tag ∧ c.segment ≠ e.segment ∧ c.vehicle ≠ e.vehicle) :
    ClaimsOk { b with outClaims := b.outClaims ++ [e], lastTag := n } := by
  have key : ∀ {β : Type} (f : OutClaim → β), (∀ c ∈ b.outClaims, f c ≠ f e) → (b.outClaims.map f).Nodup →
      ((b.outClaims ++ [e]).map f).Nodup := fun f hf hd => by
    rw [List.map_append]
    refine nodup_concat hd fun m => ?_
    obtain ⟨c, hc, ec⟩ := List.mem_map.1 m
    exact hf c hc ec
  exact
    { tags := fun c hc => (List.mem_append.1 hc).elim (h.tags c) fun m => List.mem_singleton.1 m ▸ ht
      outTags := key _ (fun c hc => (hn c hc).1) h.outTags
      segments := key _ (fun c hc => (hn c hc).2.1) h.segments
      vehicles := key _ (fun c hc => (hn c hc).2.2) h.vehicles
      inKeys := h.inKeys
      inVehicles := h.inVehicles }

theorem ClaimsOk.addIn {b : Bxu} {c : InClaim} (h : ClaimsOk b)
    (hn : ∀ d ∈ b.inClaims, ¬ (d.cell = c.cell ∧ d.tag = c.tag) ∧ d.vehicle ≠ c.vehicle) :
    ClaimsOk { b with inClaims := b.inClaims ++ [c] } where
  tags := h.tags
  outTags := h.outTags
  segments := h.segments
  vehicles := h.vehicles
  inKeys := by
    rw [List.map_append]
    refine nodup_concat h.inKeys fun m => ?_
    obtain ⟨d, hd, e⟩ := List.mem_map.1 m
    exact (hn d hd).1 (Prod.mk.injEq .. ▸ e)
  inVehicles := by
    rw [List.map_append]
    refine nodup_concat h.inVehicles fun m => ?_
    obtain ⟨d, hd, e⟩ := List.mem_map.1 m
    exact (hn d hd).2 e

/-- A list with `n` distinct values needs `n` elements to hold them all. -/
theorem exists_free {l : List Nat} {cs : List Nat} (hc : cs.Nodup) (hl : l.length < cs.length) : ∃ c ∈ cs, c ∉ l := by
  by_contra h
  push Not at h
  exact absurd (List.subperm_of_subset hc h).length_le (by omega)

/-- The next tag is from 1 to 255 and no entry has it (R129). -/
theorem nextTag_spec (b : Bxu) (h : b.outClaims.length < 255) :
    1 ≤ nextTag b ∧ nextTag b ≤ 255 ∧ ∀ e ∈ b.outClaims, e.tag ≠ nextTag b := by
  have nd : ((List.range 255).map fun i => (b.lastTag + i) % 255 + 1).Nodup := by
    refine (List.nodup_map_iff_inj_on List.nodup_range).2 fun x hx y hy e => ?_
    rw [List.mem_range] at hx hy
    omega
  obtain ⟨c, hc, free⟩ := exists_free (l := b.outClaims.map (·.tag)) nd (by simpa using h)
  have some : (((List.range 255).map fun i => (b.lastTag + i) % 255 + 1).find?
      fun t => b.outClaims.all fun e => e.tag != t).isSome := by
    rw [List.find?_isSome]
    refine ⟨c, hc, List.all_eq_true.2 fun e he => ?_⟩
    rw [bne_iff_ne]
    exact fun k => free (List.mem_map.2 ⟨e, he, k⟩)
  obtain ⟨t, ht⟩ := Option.isSome_iff_exists.1 some
  have e : nextTag b = t := by unfold nextTag; rw [ht]; rfl
  obtain ⟨i, _, hi⟩ := List.mem_map.1 (List.mem_of_find?_eq_some ht)
  have all := List.all_eq_true.1 (List.find?_some (p := fun t => b.outClaims.all fun e => e.tag != t) ht)
  rw [e]
  refine ⟨by omega, by omega, fun d hd => ?_⟩
  have := all d hd
  rwa [bne_iff_ne] at this

/-- A roster with room has a free slot (R65). -/
theorem lowestFree_isSome {α : Type} {n : Nat} {t : Table α} (h : t.length < n) : (lowestFree n t).isSome := by
  obtain ⟨k, hk, free⟩ := exists_free (l := t.map (·.1)) (List.nodup_range (n := n)) (by simpa using h)
  unfold lowestFree
  rw [List.find?_isSome]
  refine ⟨k, hk, ?_⟩
  cases e : tget k t with
  | none => rfl
  | some a => exact absurd (List.mem_map.2 ⟨_, mem_of_tget e, rfl⟩) free

/-! ### What release keeps (R26, R43) -/

theorem releasedRes_named {v u : Nat} {r : Res} (h : r.named.Nodup) :
    u ∈ (releasedRes v r).named ↔ u ∈ r.named ∧ u ≠ v := by
  unfold releasedRes
  split <;> (try split) <;> (try split) <;> simp_all [Res.named] <;> omega

theorem releasedRes_sublist (v : Nat) (r : Res) : (releasedRes v r).named.Sublist r.named := by
  unfold releasedRes
  split <;> (try split) <;> (try split) <;> simp [Res.named]

theorem releasedRes_claiming {v u : Nat} {r : Res} : releasedRes v r = .claiming u ↔ r = .claiming u := by
  unfold releasedRes
  split <;> (try split) <;> (try split) <;> simp

theorem releasedRes_borrowed {v u : Nat} {r : Res} (h : releasedRes v r = .borrowed u) : r = .borrowed u := by
  unfold releasedRes at h
  repeat' split at h
  all_goals first | exact h | cases h

theorem releasedRes_plain {v : Nat} {r : Res} (h : r.plain) : (releasedRes v r).plain := by
  unfold releasedRes Res.plain at *
  split <;> (try split) <;> (try split) <;> simp_all

theorem releasedRes_kind (v : Nat) (r : Res) : (releasedRes v r).isForeignKind = r.isForeignKind := by
  unfold releasedRes
  split <;> (try split) <;> (try split) <;> rfl

/-- Entries leave the held list of `v` as their segments are released. -/
theorem Agree.release {t t' : Table SegRes} {r r' : Table Vehicle} {b : Bxu} {f : Nat → Bool} {v : Nat} {is : List Nat}
    (h : Agree t r b f) (hr : ∀ j, resIn t' j = if j ∈ is then (resIn t j).map (releasedRes v) else resIn t j)
    (hu : ∀ u, u ≠ v → heldIn r' u = heldIn r u) (hd : (heldIn r' v).Nodup)
    (hh : ∀ j, j ∈ heldIn r' v ↔ j ∈ heldIn r v ∧ j ∉ is) : Agree t' r' b f := by
  have named : ∀ u j, u ∈ namedIn t' j ↔ u ∈ namedIn t j ∧ ¬ (j ∈ is ∧ u = v) := fun u j => by
    rw [mem_namedIn, mem_namedIn, hr]
    split
    · rename_i m
      cases k : resIn t j with
      | none => simp
      | some q =>
        have := releasedRes_named (v := v) (u := u) (r := q) (namedIn_of k ▸ h.once j)
        simp [this, m]
    · rename_i m; simp [m]
  refine
    { once := fun j => ?_
      listed := fun u => ?_
      holds := fun u j => ?_
      claiming := fun u j => ?_
      borrowed := fun u j e => ?_
      kinds := fun j p e => ?_
      plain := fun j p e => ?_
      claims := fun e m => ?_ }
  · have := h.once j
    unfold namedIn at this ⊢
    rw [hr]
    split
    · cases k : resIn t j with
      | none => exact List.nodup_nil
      | some q => rw [k] at this; exact this.sublist (releasedRes_sublist v q)
    · exact this
  · by_cases e : u = v
    · rw [e]; exact hd
    · rw [hu u e]; exact h.listed u
  · rw [named]
    by_cases e : u = v
    · subst e; rw [hh, h.holds]; simp
    · rw [hu u e, h.holds]; simp [e]
  · rw [← h.claiming, hr]
    split
    · cases resIn t j <;> simp [releasedRes_claiming]
    · rfl
  · rw [hr] at e
    split at e
    · obtain ⟨q, hq, k⟩ := Option.map_eq_some_iff.1 e
      exact h.borrowed u j (by rw [hq, releasedRes_borrowed k])
    · exact h.borrowed u j e
  · rw [hr] at e
    split at e
    · obtain ⟨q, hq, rfl⟩ := Option.map_eq_some_iff.1 e
      rw [releasedRes_kind]; exact h.kinds j q hq
    · exact h.kinds j p e
  · rw [hr] at e
    split at e
    · obtain ⟨q, hq, rfl⟩ := Option.map_eq_some_iff.1 e
      exact releasedRes_plain (h.plain j q hq)
    · exact h.plain j p e
  · obtain ⟨q, hq, k⟩ := h.claims e m
    rw [hr, hq]
    split
    · exact ⟨_, rfl, by rw [releasedRes_kind]; exact k⟩
    · exact ⟨q, rfl, k⟩

theorem occupiedRes_keeps (r : Res) (h : r.plain) : (occupiedRes r).named = r.named ∧ (occupiedRes r).plain := by
  unfold occupiedRes
  split
  · simp [Res.named, Res.plain]
  · simp [Res.named, Res.plain]
  · exact ⟨rfl, h⟩

theorem occupiedRes_kind (r : Res) : (occupiedRes r).isForeignKind = r.isForeignKind ∧
    (r.isForeignKind = true → occupiedRes r = r) := by
  unfold occupiedRes
  split <;> simp [Res.isForeignKind]

/-! ### Tables without holders or claims (R22) -/

/-- In PARKED every segment is FREE or FOREIGN, FOREIGN where it is a foreign BOUNDARY, and no claim stands. -/
theorem agree_parked (s : State) (l : Table SegmentRec) (b : Bxu) (f : Nat → Bool) (hb : b.outClaims = [])
    (hf : ∀ i x, tget i l = some x → f i = isForeignRec s x) : Agree (l.map fun p => (p.1, parkedRes s p.2)) [] b f := by
  have res : ∀ i, resIn (l.map fun p => (p.1, parkedRes s p.2)) i = (tget i l).map fun x => (parkedRes s x).res :=
    fun i => by unfold resIn; rw [tget_mapVal, Option.map_map]; rfl
  have bare : ∀ i q, resIn (l.map fun p => (p.1, parkedRes s p.2)) i = some q → q.named = [] ∧ q.isForeignKind = f i ∧
      (∀ v, q ≠ .claiming v) ∧ (∀ v, q ≠ .borrowed v) ∧ q.plain := fun i q e => by
    rw [res] at e
    obtain ⟨x, hx, rfl⟩ := Option.map_eq_some_iff.1 e
    rw [hf i x hx]
    unfold parkedRes
    cases isForeignRec s x <;> simp [Res.named, Res.isForeignKind, Res.plain]
  have none : ∀ i, namedIn (l.map fun p => (p.1, parkedRes s p.2)) i = [] := fun i => by
    unfold namedIn
    cases k : resIn (l.map fun p => (p.1, parkedRes s p.2)) i with
    | none => rfl
    | some q => exact (bare i q k).1
  exact
    { once := fun i => by rw [none]; exact List.nodup_nil
      listed := fun _ => List.nodup_nil
      holds := fun v i => by rw [none]; simp [heldIn]
      claiming := fun v i => ⟨fun e => absurd rfl ((bare i _ e).2.2.1 v), fun ⟨e, m, _⟩ => by rw [hb] at m; cases m⟩
      borrowed := fun v i e => absurd rfl ((bare i _ e).2.2.2.1 v)
      plain := fun i q e => (bare i q e).2.2.2.2
      kinds := fun i q e => (bare i q e).2.1
      claims := fun e m => by rw [hb] at m; cases m }

theorem claimsOk_none {b : Bxu} (h : b.outClaims = [] ∧ b.inClaims = []) : ClaimsOk b where
  tags := fun e he => by rw [h.1] at he; cases he
  outTags := by rw [h.1]; exact List.nodup_nil
  segments := by rw [h.1]; exact List.nodup_nil
  vehicles := by rw [h.1]; exact List.nodup_nil
  inKeys := by rw [h.2]; exact List.nodup_nil
  inVehicles := by rw [h.2]; exact List.nodup_nil

end Sys2Proof.Machine
end

