-- ==== Sys2Proof/Laws/State.lean ====
section
/-! SUPPORT. What each update of a unit reads back as, field by field. -/

namespace Sys2Proof.Machine.State

variable (s : State)

section
variable (f : Board → Board)
@[simp] theorem updBoard_board : (s.updBoard f).board = f s.board := rfl
@[simp] theorem updBoard_layout : (s.updBoard f).layout = s.layout := rfl
@[simp] theorem updBoard_srt : (s.updBoard f).srt = s.srt := rfl
@[simp] theorem updBoard_roster : (s.updBoard f).roster = s.roster := rfl
@[simp] theorem updBoard_mq : (s.updBoard f).mq = s.mq := rfl
@[simp] theorem updBoard_asu : (s.updBoard f).asu = s.asu := rfl
@[simp] theorem updBoard_bxu : (s.updBoard f).bxu = s.bxu := rfl
@[simp] theorem updBoard_tli : (s.updBoard f).tli = s.tli := rfl
@[simp] theorem updBoard_fli : (s.updBoard f).fli = s.fli := rfl
@[simp] theorem updBoard_su : (s.updBoard f).su = s.su := rfl
@[simp] theorem updBoard_mc : (s.updBoard f).mc = s.mc := rfl
@[simp] theorem updBoard_pending : (s.updBoard f).pending = s.pending := rfl
end

section
variable (f : Layout → Layout)
@[simp] theorem updLayout_board : (s.updLayout f).board = s.board := rfl
@[simp] theorem updLayout_layout : (s.updLayout f).layout = f s.layout := rfl
@[simp] theorem updLayout_srt : (s.updLayout f).srt = s.srt := rfl
@[simp] theorem updLayout_roster : (s.updLayout f).roster = s.roster := rfl
@[simp] theorem updLayout_mq : (s.updLayout f).mq = s.mq := rfl
@[simp] theorem updLayout_asu : (s.updLayout f).asu = s.asu := rfl
@[simp] theorem updLayout_bxu : (s.updLayout f).bxu = s.bxu := rfl
@[simp] theorem updLayout_tli : (s.updLayout f).tli = s.tli := rfl
@[simp] theorem updLayout_fli : (s.updLayout f).fli = s.fli := rfl
@[simp] theorem updLayout_su : (s.updLayout f).su = s.su := rfl
@[simp] theorem updLayout_mc : (s.updLayout f).mc = s.mc := rfl
@[simp] theorem updLayout_pending : (s.updLayout f).pending = s.pending := rfl
end

section
variable (f : Table SegRes → Table SegRes)
@[simp] theorem updSrt_board : (s.updSrt f).board = s.board := rfl
@[simp] theorem updSrt_layout : (s.updSrt f).layout = s.layout := rfl
@[simp] theorem updSrt_srt : (s.updSrt f).srt = f s.srt := rfl
@[simp] theorem updSrt_roster : (s.updSrt f).roster = s.roster := rfl
@[simp] theorem updSrt_mq : (s.updSrt f).mq = s.mq := rfl
@[simp] theorem updSrt_asu : (s.updSrt f).asu = s.asu := rfl
@[simp] theorem updSrt_bxu : (s.updSrt f).bxu = s.bxu := rfl
@[simp] theorem updSrt_tli : (s.updSrt f).tli = s.tli := rfl
@[simp] theorem updSrt_fli : (s.updSrt f).fli = s.fli := rfl
@[simp] theorem updSrt_su : (s.updSrt f).su = s.su := rfl
@[simp] theorem updSrt_mc : (s.updSrt f).mc = s.mc := rfl
@[simp] theorem updSrt_pending : (s.updSrt f).pending = s.pending := rfl
end

section
variable (f : Table Vehicle → Table Vehicle)
@[simp] theorem updRoster_board : (s.updRoster f).board = s.board := rfl
@[simp] theorem updRoster_layout : (s.updRoster f).layout = s.layout := rfl
@[simp] theorem updRoster_srt : (s.updRoster f).srt = s.srt := rfl
@[simp] theorem updRoster_roster : (s.updRoster f).roster = f s.roster := rfl
@[simp] theorem updRoster_mq : (s.updRoster f).mq = s.mq := rfl
@[simp] theorem updRoster_asu : (s.updRoster f).asu = s.asu := rfl
@[simp] theorem updRoster_bxu : (s.updRoster f).bxu = s.bxu := rfl
@[simp] theorem updRoster_tli : (s.updRoster f).tli = s.tli := rfl
@[simp] theorem updRoster_fli : (s.updRoster f).fli = s.fli := rfl
@[simp] theorem updRoster_su : (s.updRoster f).su = s.su := rfl
@[simp] theorem updRoster_mc : (s.updRoster f).mc = s.mc := rfl
@[simp] theorem updRoster_pending : (s.updRoster f).pending = s.pending := rfl
end

section
variable (f : MoveQueue → MoveQueue)
@[simp] theorem updMq_board : (s.updMq f).board = s.board := rfl
@[simp] theorem updMq_layout : (s.updMq f).layout = s.layout := rfl
@[simp] theorem updMq_srt : (s.updMq f).srt = s.srt := rfl
@[simp] theorem updMq_roster : (s.updMq f).roster = s.roster := rfl
@[simp] theorem updMq_mq : (s.updMq f).mq = f s.mq := rfl
@[simp] theorem updMq_asu : (s.updMq f).asu = s.asu := rfl
@[simp] theorem updMq_bxu : (s.updMq f).bxu = s.bxu := rfl
@[simp] theorem updMq_tli : (s.updMq f).tli = s.tli := rfl
@[simp] theorem updMq_fli : (s.updMq f).fli = s.fli := rfl
@[simp] theorem updMq_su : (s.updMq f).su = s.su := rfl
@[simp] theorem updMq_mc : (s.updMq f).mc = s.mc := rfl
@[simp] theorem updMq_pending : (s.updMq f).pending = s.pending := rfl
end

section
variable (f : Asu → Asu)
@[simp] theorem updAsu_board : (s.updAsu f).board = s.board := rfl
@[simp] theorem updAsu_layout : (s.updAsu f).layout = s.layout := rfl
@[simp] theorem updAsu_srt : (s.updAsu f).srt = s.srt := rfl
@[simp] theorem updAsu_roster : (s.updAsu f).roster = s.roster := rfl
@[simp] theorem updAsu_mq : (s.updAsu f).mq = s.mq := rfl
@[simp] theorem updAsu_asu : (s.updAsu f).asu = f s.asu := rfl
@[simp] theorem updAsu_bxu : (s.updAsu f).bxu = s.bxu := rfl
@[simp] theorem updAsu_tli : (s.updAsu f).tli = s.tli := rfl
@[simp] theorem updAsu_fli : (s.updAsu f).fli = s.fli := rfl
@[simp] theorem updAsu_su : (s.updAsu f).su = s.su := rfl
@[simp] theorem updAsu_mc : (s.updAsu f).mc = s.mc := rfl
@[simp] theorem updAsu_pending : (s.updAsu f).pending = s.pending := rfl
end

section
variable (f : Bxu → Bxu)
@[simp] theorem updBxu_board : (s.updBxu f).board = s.board := rfl
@[simp] theorem updBxu_layout : (s.updBxu f).layout = s.layout := rfl
@[simp] theorem updBxu_srt : (s.updBxu f).srt = s.srt := rfl
@[simp] theorem updBxu_roster : (s.updBxu f).roster = s.roster := rfl
@[simp] theorem updBxu_mq : (s.updBxu f).mq = s.mq := rfl
@[simp] theorem updBxu_asu : (s.updBxu f).asu = s.asu := rfl
@[simp] theorem updBxu_bxu : (s.updBxu f).bxu = f s.bxu := rfl
@[simp] theorem updBxu_tli : (s.updBxu f).tli = s.tli := rfl
@[simp] theorem updBxu_fli : (s.updBxu f).fli = s.fli := rfl
@[simp] theorem updBxu_su : (s.updBxu f).su = s.su := rfl
@[simp] theorem updBxu_mc : (s.updBxu f).mc = s.mc := rfl
@[simp] theorem updBxu_pending : (s.updBxu f).pending = s.pending := rfl
end

section
variable (f : Tli → Tli)
@[simp] theorem updTli_board : (s.updTli f).board = s.board := rfl
@[simp] theorem updTli_layout : (s.updTli f).layout = s.layout := rfl
@[simp] theorem updTli_srt : (s.updTli f).srt = s.srt := rfl
@[simp] theorem updTli_roster : (s.updTli f).roster = s.roster := rfl
@[simp] theorem updTli_mq : (s.updTli f).mq = s.mq := rfl
@[simp] theorem updTli_asu : (s.updTli f).asu = s.asu := rfl
@[simp] theorem updTli_bxu : (s.updTli f).bxu = s.bxu := rfl
@[simp] theorem updTli_tli : (s.updTli f).tli = f s.tli := rfl
@[simp] theorem updTli_fli : (s.updTli f).fli = s.fli := rfl
@[simp] theorem updTli_su : (s.updTli f).su = s.su := rfl
@[simp] theorem updTli_mc : (s.updTli f).mc = s.mc := rfl
@[simp] theorem updTli_pending : (s.updTli f).pending = s.pending := rfl
end

section
variable (f : Fli → Fli)
@[simp] theorem updFli_board : (s.updFli f).board = s.board := rfl
@[simp] theorem updFli_layout : (s.updFli f).layout = s.layout := rfl
@[simp] theorem updFli_srt : (s.updFli f).srt = s.srt := rfl
@[simp] theorem updFli_roster : (s.updFli f).roster = s.roster := rfl
@[simp] theorem updFli_mq : (s.updFli f).mq = s.mq := rfl
@[simp] theorem updFli_asu : (s.updFli f).asu = s.asu := rfl
@[simp] theorem updFli_bxu : (s.updFli f).bxu = s.bxu := rfl
@[simp] theorem updFli_tli : (s.updFli f).tli = s.tli := rfl
@[simp] theorem updFli_fli : (s.updFli f).fli = f s.fli := rfl
@[simp] theorem updFli_su : (s.updFli f).su = s.su := rfl
@[simp] theorem updFli_mc : (s.updFli f).mc = s.mc := rfl
@[simp] theorem updFli_pending : (s.updFli f).pending = s.pending := rfl
end

section
variable (f : Su → Su)
@[simp] theorem updSu_board : (s.updSu f).board = s.board := rfl
@[simp] theorem updSu_layout : (s.updSu f).layout = s.layout := rfl
@[simp] theorem updSu_srt : (s.updSu f).srt = s.srt := rfl
@[simp] theorem updSu_roster : (s.updSu f).roster = s.roster := rfl
@[simp] theorem updSu_mq : (s.updSu f).mq = s.mq := rfl
@[simp] theorem updSu_asu : (s.updSu f).asu = s.asu := rfl
@[simp] theorem updSu_bxu : (s.updSu f).bxu = s.bxu := rfl
@[simp] theorem updSu_tli : (s.updSu f).tli = s.tli := rfl
@[simp] theorem updSu_fli : (s.updSu f).fli = s.fli := rfl
@[simp] theorem updSu_su : (s.updSu f).su = f s.su := rfl
@[simp] theorem updSu_mc : (s.updSu f).mc = s.mc := rfl
@[simp] theorem updSu_pending : (s.updSu f).pending = s.pending := rfl
end

section
variable (f : Mc → Mc)
@[simp] theorem updMc_board : (s.updMc f).board = s.board := rfl
@[simp] theorem updMc_layout : (s.updMc f).layout = s.layout := rfl
@[simp] theorem updMc_srt : (s.updMc f).srt = s.srt := rfl
@[simp] theorem updMc_roster : (s.updMc f).roster = s.roster := rfl
@[simp] theorem updMc_mq : (s.updMc f).mq = s.mq := rfl
@[simp] theorem updMc_asu : (s.updMc f).asu = s.asu := rfl
@[simp] theorem updMc_bxu : (s.updMc f).bxu = s.bxu := rfl
@[simp] theorem updMc_tli : (s.updMc f).tli = s.tli := rfl
@[simp] theorem updMc_fli : (s.updMc f).fli = s.fli := rfl
@[simp] theorem updMc_su : (s.updMc f).su = s.su := rfl
@[simp] theorem updMc_mc : (s.updMc f).mc = f s.mc := rfl
@[simp] theorem updMc_pending : (s.updMc f).pending = s.pending := rfl
end

end Sys2Proof.Machine.State
end

