-- ==== Sys2Proof/Laws/Acts.lean ====
section
/-! SUPPORT. `Acts s t`: what any handling of an event may change, and that it keeps `Sound`. It is reflexive and
transitive, so each operation has one lemma saying that it acts. Where parts of an operation keep the stores and only
the whole keeps their agreement, the parts have `Frames` lemmas. -/

namespace Sys2Proof.Machine

/-- From `s` to `t` only what the handling of an event may change has changed. -/
structure Frames (s t : State) : Prop where
  now : s.board.now ≤ t.board.now
  power : t.board.power = s.board.power
  resetPin : t.board.resetPin = s.board.resetPin
  haltPin : t.board.haltPin = s.board.haltPin
  freeCount : t.board.freeCount = s.board.freeCount
  layout : t.layout = s.layout
  pending : t.pending = s.pending
  mc : t.mc = s.mc ∨ s.mode = .dispatching ∧ t.mc = { s.mc with mode := .halted }
  segments : t.srt.map (·.1) = s.srt.map (·.1)
  ageAt : t.mq.ageAt = s.mq.ageAt
  dispatchAt : t.asu.dispatchAt = s.asu.dispatchAt
  passRunning : t.asu.passRunning = s.asu.passRunning
  queue : t.tli.queue.Sublist s.tli.queue
  inbound : t.fli.inbound.Sublist s.fli.inbound
  reservations : t.fli.reservations = s.fli.reservations
  sent : t.fli.sent = s.fli.sent
  outbound : s.fli.outbound <+: t.fli.outbound
  flags : ∀ k d, tget k s.su.flags = some d → tget k t.su.flags = some d
  alarm : AlarmOk s → AlarmOk t
  stores : Stores s → Stores t

/-- And the agreement of the stores is kept. -/
structure Acts (s t : State) : Prop extends Frames s t where
  agree : Sound s → Agree t.srt t.roster t.bxu (isForeign t)

theorem Acts.sound {s t : State} (a : Acts s t) (h : Sound s) : Sound t := ⟨a.stores h.toStores, a.agree h⟩

theorem Frames.refl (s : State) : Frames s s :=
  { now := le_refl _, power := rfl, resetPin := rfl, haltPin := rfl, freeCount := rfl, layout := rfl, pending := rfl
    mc := .inl rfl, segments := rfl, ageAt := rfl, dispatchAt := rfl, passRunning := rfl
    queue := List.Sublist.refl _, inbound := List.Sublist.refl _, reservations := rfl, sent := rfl
    outbound := List.prefix_rfl, flags := fun _ _ h => h, alarm := id, stores := id }

theorem Acts.refl (s : State) : Acts s s := { Frames.refl s with agree := fun h => h.agree }

theorem Frames.trans {s t u : State} (a : Frames s t) (b : Frames t u) : Frames s u :=
  { now := a.now.trans b.now
    power := b.power.trans a.power, resetPin := b.resetPin.trans a.resetPin
    haltPin := b.haltPin.trans a.haltPin, freeCount := b.freeCount.trans a.freeCount
    layout := b.layout.trans a.layout, pending := b.pending.trans a.pending
    mc := by
      rcases a.mc with h | ⟨d, h⟩ <;> rcases b.mc with k | ⟨e, k⟩
      · exact .inl (k.trans h)
      · exact .inr ⟨by unfold State.mode at *; rw [← h]; exact e, by rw [k, h]⟩
      · exact .inr ⟨d, k.trans h⟩
      · unfold State.mode at e; rw [h] at e; exact absurd e (by simp)
    segments := b.segments.trans a.segments, ageAt := b.ageAt.trans a.ageAt
    dispatchAt := b.dispatchAt.trans a.dispatchAt, passRunning := b.passRunning.trans a.passRunning
    queue := b.queue.trans a.queue, inbound := b.inbound.trans a.inbound
    reservations := b.reservations.trans a.reservations, sent := b.sent.trans a.sent
    outbound := a.outbound.trans b.outbound
    flags := fun k d h => b.flags k d (a.flags k d h), alarm := fun h => b.alarm (a.alarm h)
    stores := fun h => b.stores (a.stores h) }

theorem Acts.trans {s t u : State} (a : Acts s t) (b : Acts t u) : Acts s u :=
  { a.toFrames.trans b.toFrames with agree := fun h => b.agree (a.sound h) }

/-- What is an own or a foreign segment does not change. -/
theorem Frames.foreign {s t : State} (h : Frames s t) : isForeign t = isForeign s := by
  have e : t.mc.identity = s.mc.identity := by
    rcases h.mc with k | ⟨_, k⟩ <;> rw [k]
  unfold isForeign isForeignRec segment
  rw [h.layout, e]

/-- A second part that keeps the agreement because of what the first part began with. -/
theorem Acts.after {s t u : State} (a : Acts s t) (f : Frames t u)
    (h : Sound s → Sound t → Agree u.srt u.roster u.bxu (isForeign t)) : Acts s u :=
  { a.toFrames.trans f with agree := fun k => by rw [f.foreign]; exact h k (a.sound k) }

/-- A second part that acts because of what the first part began with. -/
theorem Acts.afterActs {s t u : State} (a : Acts s t) (f : Frames t u) (b : Sound s → Acts t u) : Acts s u :=
  { a.toFrames.trans f with agree := fun k => (b k).agree (a.sound k) }

/-- A whole operation keeps the agreement where its parts keep the rest. -/
theorem Frames.acts {s t : State} (f : Frames s t) (h : Sound s → Agree t.srt t.roster t.bxu (isForeign s)) : Acts s t :=
  { f with agree := fun k => by rw [f.foreign]; exact h k }

/-! ### The ALARM condition reads flags and severities only -/

theorem severityOf_congr {s t : State} (h : t.layout.severity = s.layout.severity) (k : EventKind) :
    severityOf t k = severityOf s k := by
  unfold severityOf; rw [h]

theorem alarmDue_congr {s t : State} (h : t.layout.severity = s.layout.severity) (hf : t.su.flags = s.su.flags) :
    alarmDue t = alarmDue s := by
  unfold alarmDue flagSet
  simp only [severityOf_congr h, hf]

theorem AlarmOk.congr {s t : State} (hb : t.running = s.running) (hl : t.layout.severity = s.layout.severity)
    (hu : t.su = s.su) (h : AlarmOk s) : AlarmOk t := by
  unfold AlarmOk
  rw [hb, hu, alarmDue_congr hl (by rw [hu])]
  exact h

/-! ### One lemma per unit -/

theorem frames_updRoster {f : Table Vehicle → Table Vehicle} {s : State} (hf : RosterOk s.roster → RosterOk (f s.roster)) :
    Frames s (s.updRoster f) :=
  { Frames.refl s with
    mc := .inl rfl
    alarm := AlarmOk.congr rfl rfl rfl
    stores := fun h => { h with roster := hf h.roster } }

theorem acts_updRoster {f : Table Vehicle → Table Vehicle} {s : State} (hf : RosterOk s.roster → RosterOk (f s.roster))
    (hh : Sound s → ∀ v, heldIn (f s.roster) v = heldIn s.roster v) : Acts s (s.updRoster f) :=
  { frames_updRoster hf with agree := fun h => h.agree.views (fun _ => rfl) (hh h) rfl }

theorem frames_updSrt {f : Table SegRes → Table SegRes} {s : State} (hk : (f s.srt).map (·.1) = s.srt.map (·.1))
    (hw : WaitsOk s.srt → WaitsOk (f s.srt)) : Frames s (s.updSrt f) :=
  { Frames.refl s with
    mc := .inl rfl
    alarm := AlarmOk.congr rfl rfl rfl
    segments := hk
    stores := fun h =>
      { h with
        waits := hw h.waits
        segments := by rw [State.updSrt_srt, hk]; exact h.segments } }

theorem acts_updSrt {f : Table SegRes → Table SegRes} {s : State} (hk : (f s.srt).map (·.1) = s.srt.map (·.1))
    (hw : WaitsOk s.srt → WaitsOk (f s.srt)) (hr : ∀ i, resIn (f s.srt) i = resIn s.srt i) : Acts s (s.updSrt f) :=
  { frames_updSrt hk hw with agree := fun h => h.agree.views hr (fun _ => rfl) rfl }

theorem acts_updMq {f : MoveQueue → MoveQueue} {s : State} (ha : (f s.mq).ageAt = s.mq.ageAt)
    (hm : MovesOk s.mq → MovesOk (f s.mq))
    (hc : (∀ x ∈ s.mq.moves, ConfirmFits s.mode x) → ∀ x ∈ (f s.mq).moves, ConfirmFits s.mode x) :
    Acts s (s.updMq f) :=
  { Acts.refl s with
    mc := .inl rfl
    alarm := AlarmOk.congr rfl rfl rfl
    ageAt := ha
    stores := fun h => { h with moves := hm h.moves, confirm := hc h.confirm }
    agree := fun h => h.agree }

theorem acts_updAsu {f : Asu → Asu} {s : State} (hd : (f s.asu).dispatchAt = s.asu.dispatchAt)
    (hr : (f s.asu).passRunning = s.asu.passRunning)
    (hp : (f s.asu).passDue = true → s.asu.passDue = true ∨ s.mode = .dispatching)
    (hh : (f s.asu).haltDeferred = true → s.asu.haltDeferred = true ∨ s.asu.passRunning = true) :
    Acts s (s.updAsu f) :=
  { Acts.refl s with
    mc := .inl rfl
    alarm := AlarmOk.congr rfl rfl rfl
    dispatchAt := hd
    passRunning := hr
    stores := fun h =>
      { h with
        passDue := fun e => (hp e).elim h.passDue id
        deferred := fun e => hr.trans ((hh e).elim h.deferred id) }
    agree := fun h => h.agree }

theorem frames_updBxu {f : Bxu → Bxu} {s : State}
    (ho : s.bxu.outClaims.length ≤ Config.outClaimsMax → (f s.bxu).outClaims.length ≤ Config.outClaimsMax)
    (hi : s.bxu.inClaims.length ≤ Config.inClaimsMax → (f s.bxu).inClaims.length ≤ Config.inClaimsMax)
    (hk : ClaimsOk s.bxu → ClaimsOk (f s.bxu)) : Frames s (s.updBxu f) :=
  { Frames.refl s with
    mc := .inl rfl
    alarm := AlarmOk.congr rfl rfl rfl
    stores := fun h => { h with outClaims := ho h.outClaims, inClaims := hi h.inClaims, claims := hk h.claims } }

/-- The outgoing entries stay. -/
theorem acts_updBxu {f : Bxu → Bxu} {s : State}
    (hi : s.bxu.inClaims.length ≤ Config.inClaimsMax → (f s.bxu).inClaims.length ≤ Config.inClaimsMax)
    (hk : ClaimsOk s.bxu → ClaimsOk (f s.bxu)) (ho : (f s.bxu).outClaims = s.bxu.outClaims) : Acts s (s.updBxu f) :=
  { frames_updBxu (fun h => by rw [ho]; exact h) hi hk with
    agree := fun h => h.agree.views (fun _ => rfl) (fun _ => rfl) ho }

theorem acts_updTli {f : Tli → Tli} {s : State} (hq : (f s.tli).queue.Sublist s.tli.queue)
    (hs : TableWf s.tli.strayHolds → TableWf (f s.tli).strayHolds) : Acts s (s.updTli f) :=
  { Acts.refl s with
    mc := .inl rfl
    alarm := AlarmOk.congr rfl rfl rfl
    queue := hq
    stores := fun h => { h with strays := hs h.strays }
    agree := fun h => h.agree }

/-- A frame is appended where the occupancy allows it (R161). -/
theorem acts_pushOut {f : FloorFrame} {s : State} (ho : occupancy s < Config.outboundMax) : Acts s (pushOut f s) :=
  { Acts.refl s with
    mc := .inl rfl
    alarm := AlarmOk.congr rfl rfl rfl
    outbound := List.prefix_append _ _
    agree := fun h => h.agree
    stores := fun h =>
      { h with
        occupancy := by
          show (s.fli.outbound ++ [f]).length + s.fli.reservations ≤ _
          unfold occupancy at ho
          simp only [List.length_append, List.length_singleton]
          omega } }

/-- Time moves on to a deadline. -/
theorem acts_reachTime (t : Nat) (s : State) : Acts s (reachTime t s) :=
  { Acts.refl s with
    mc := .inl rfl
    alarm := AlarmOk.congr rfl rfl rfl
    now := Nat.le_max_left _ _
    stores := fun h => { h with }
    agree := fun h => h.agree }

/-! ### Maps over stores -/

theorem RosterOk.map {r : Table Vehicle} {f : Vehicle → Vehicle} (hr : RosterOk r)
    (hid : ∀ p ∈ r, (f p.2).id = p.2.id)
    (hw : ∀ p ∈ r, p.2.due.withdraw.length ≤ Config.withdrawMax → (f p.2).due.withdraw.length ≤ Config.withdrawMax) :
    RosterOk (r.map fun p => (p.1, f p.2)) where
  sorted := by
    have h := hr.sorted
    simp only [TableWf, List.pairwise_map] at h ⊢
    exact h
  slots := by
    intro p hp
    obtain ⟨q, hq, rfl⟩ := List.mem_map.1 hp
    exact hr.slots q hq
  ids := by
    have h : (r.map fun p => (p.1, f p.2)).map (·.2.id) = r.map (·.2.id) := by
      rw [List.map_map]
      exact List.map_congr_left fun p hp => hid p hp
    rw [h]; exact hr.ids
  withdraws := by
    intro p hp
    obtain ⟨q, hq, rfl⟩ := List.mem_map.1 hp
    exact hw q hq (hr.withdraws q hq)

theorem RosterOk.sublist {r t : Table Vehicle} (hr : RosterOk r) (h : t.Sublist r) : RosterOk t where
  sorted := hr.sorted.sublist h
  slots := fun p hp => hr.slots p (h.subset hp)
  ids := hr.ids.sublist (h.map _)
  withdraws := fun p hp => hr.withdraws p (h.subset hp)

theorem WaitsOk.tmod {k : Nat} {f : SegRes → SegRes} {t : Table SegRes} (ht : WaitsOk t)
    (hf : ∀ p ∈ t, p.1 = k → (f p.2).waits.length ≤ Config.waitListMax) : WaitsOk (tmod k f t) := by
  intro p hp
  obtain ⟨q, hq, rfl⟩ := List.mem_map.1 hp
  by_cases h : q.1 = k
  · simp only [h, if_true]; exact hf q hq h
  · simp only [h, if_false]; exact ht q hq

end Sys2Proof.Machine
end

