-- ==== Sys2Proof/Laws/Rest.lean ====
section
/-! SUPPORT. What each shared operation leaves unchanged, unit by unit. -/

namespace Sys2Proof.Machine

@[simp] theorem setRes_rest (i : Nat) (r : Res) (s : State) :
    (setRes i r s).board = s.board ∧ (setRes i r s).layout = s.layout ∧ (setRes i r s).roster = s.roster ∧
      (setRes i r s).mq = s.mq ∧ (setRes i r s).asu = s.asu ∧ (setRes i r s).bxu = s.bxu ∧
      (setRes i r s).tli = s.tli ∧ (setRes i r s).fli = s.fli ∧ (setRes i r s).su = s.su ∧
      (setRes i r s).mc = s.mc ∧ (setRes i r s).pending = s.pending := by simp [setRes]

@[simp] theorem modRes_rest (i : Nat) (f : Res → Res) (s : State) :
    (modRes i f s).board = s.board ∧ (modRes i f s).layout = s.layout ∧ (modRes i f s).roster = s.roster ∧
      (modRes i f s).mq = s.mq ∧ (modRes i f s).asu = s.asu ∧ (modRes i f s).bxu = s.bxu ∧
      (modRes i f s).tli = s.tli ∧ (modRes i f s).fli = s.fli ∧ (modRes i f s).su = s.su ∧
      (modRes i f s).mc = s.mc ∧ (modRes i f s).pending = s.pending := by simp [modRes]

@[simp] theorem modWaits_rest (i : Nat) (f : List WaitEntry → List WaitEntry) (s : State) :
    (modWaits i f s).board = s.board ∧ (modWaits i f s).layout = s.layout ∧ (modWaits i f s).roster = s.roster ∧
      (modWaits i f s).mq = s.mq ∧ (modWaits i f s).asu = s.asu ∧ (modWaits i f s).bxu = s.bxu ∧
      (modWaits i f s).tli = s.tli ∧ (modWaits i f s).fli = s.fli ∧ (modWaits i f s).su = s.su ∧
      (modWaits i f s).mc = s.mc ∧ (modWaits i f s).pending = s.pending := by simp [modWaits]

@[simp] theorem clearReservations_rest (s : State) :
    (clearReservations s).board = s.board ∧ (clearReservations s).layout = s.layout ∧
      (clearReservations s).roster = s.roster ∧ (clearReservations s).mq = s.mq ∧
      (clearReservations s).asu = s.asu ∧ (clearReservations s).bxu = s.bxu ∧ (clearReservations s).tli = s.tli ∧
      (clearReservations s).fli = s.fli ∧ (clearReservations s).su = s.su ∧ (clearReservations s).mc = s.mc ∧
      (clearReservations s).pending = s.pending := by simp [clearReservations]

@[simp] theorem leaveWaits_rest (v : Nat) (s : State) :
    (leaveWaits v s).board = s.board ∧ (leaveWaits v s).layout = s.layout ∧ (leaveWaits v s).roster = s.roster ∧
      (leaveWaits v s).mq = s.mq ∧ (leaveWaits v s).asu = s.asu ∧ (leaveWaits v s).bxu = s.bxu ∧
      (leaveWaits v s).tli = s.tli ∧ (leaveWaits v s).fli = s.fli ∧ (leaveWaits v s).su = s.su ∧
      (leaveWaits v s).mc = s.mc ∧ (leaveWaits v s).pending = s.pending := by simp [leaveWaits]

@[simp] theorem leaveClaimWait_rest (cell tag : Nat) (s : State) :
    (leaveClaimWait cell tag s).board = s.board ∧ (leaveClaimWait cell tag s).layout = s.layout ∧
      (leaveClaimWait cell tag s).roster = s.roster ∧ (leaveClaimWait cell tag s).mq = s.mq ∧
      (leaveClaimWait cell tag s).asu = s.asu ∧ (leaveClaimWait cell tag s).bxu = s.bxu ∧
      (leaveClaimWait cell tag s).tli = s.tli ∧ (leaveClaimWait cell tag s).fli = s.fli ∧
      (leaveClaimWait cell tag s).su = s.su ∧ (leaveClaimWait cell tag s).mc = s.mc ∧
      (leaveClaimWait cell tag s).pending = s.pending := by simp [leaveClaimWait]

@[simp] theorem releaseSeg_rest (v i : Nat) (s : State) :
    (releaseSeg v i s).board = s.board ∧ (releaseSeg v i s).layout = s.layout ∧
      (releaseSeg v i s).roster = s.roster ∧ (releaseSeg v i s).mq = s.mq ∧ (releaseSeg v i s).asu = s.asu ∧
      (releaseSeg v i s).bxu = s.bxu ∧ (releaseSeg v i s).tli = s.tli ∧ (releaseSeg v i s).fli = s.fli ∧
      (releaseSeg v i s).su = s.su ∧ (releaseSeg v i s).mc = s.mc ∧ (releaseSeg v i s).pending = s.pending := by simp [releaseSeg]

@[simp] theorem updVehicle_rest (v : Nat) (f : Vehicle → Vehicle) (s : State) :
    (updVehicle v f s).board = s.board ∧ (updVehicle v f s).layout = s.layout ∧ (updVehicle v f s).srt = s.srt ∧
      (updVehicle v f s).mq = s.mq ∧ (updVehicle v f s).asu = s.asu ∧ (updVehicle v f s).bxu = s.bxu ∧
      (updVehicle v f s).tli = s.tli ∧ (updVehicle v f s).fli = s.fli ∧ (updVehicle v f s).su = s.su ∧
      (updVehicle v f s).mc = s.mc ∧ (updVehicle v f s).pending = s.pending := by simp [updVehicle]

@[simp] theorem setHeld_rest (v : Nat) (h : List Nat) (s : State) :
    (setHeld v h s).board = s.board ∧ (setHeld v h s).layout = s.layout ∧ (setHeld v h s).srt = s.srt ∧
      (setHeld v h s).mq = s.mq ∧ (setHeld v h s).asu = s.asu ∧ (setHeld v h s).bxu = s.bxu ∧
      (setHeld v h s).tli = s.tli ∧ (setHeld v h s).fli = s.fli ∧ (setHeld v h s).su = s.su ∧
      (setHeld v h s).mc = s.mc ∧ (setHeld v h s).pending = s.pending := by simp [setHeld]

@[simp] theorem dropVehicle_rest (v : Nat) (s : State) :
    (dropVehicle v s).board = s.board ∧ (dropVehicle v s).layout = s.layout ∧ (dropVehicle v s).srt = s.srt ∧
      (dropVehicle v s).mq = s.mq ∧ (dropVehicle v s).asu = s.asu ∧ (dropVehicle v s).bxu = s.bxu ∧
      (dropVehicle v s).tli = s.tli ∧ (dropVehicle v s).fli = s.fli ∧ (dropVehicle v s).su = s.su ∧
      (dropVehicle v s).mc = s.mc ∧ (dropVehicle v s).pending = s.pending := by simp [dropVehicle]

@[simp] theorem reachTime_rest (t : Nat) (s : State) :
    (reachTime t s).layout = s.layout ∧ (reachTime t s).srt = s.srt ∧ (reachTime t s).roster = s.roster ∧
      (reachTime t s).mq = s.mq ∧ (reachTime t s).asu = s.asu ∧ (reachTime t s).bxu = s.bxu ∧
      (reachTime t s).tli = s.tli ∧ (reachTime t s).fli = s.fli ∧ (reachTime t s).su = s.su ∧
      (reachTime t s).mc = s.mc ∧ (reachTime t s).pending = s.pending := by simp [reachTime]

@[simp] theorem prunePreempts_rest (s : State) :
    (prunePreempts s).board = s.board ∧ (prunePreempts s).layout = s.layout ∧ (prunePreempts s).srt = s.srt ∧
      (prunePreempts s).roster = s.roster ∧ (prunePreempts s).mq = s.mq ∧ (prunePreempts s).bxu = s.bxu ∧
      (prunePreempts s).tli = s.tli ∧ (prunePreempts s).fli = s.fli ∧ (prunePreempts s).su = s.su ∧
      (prunePreempts s).mc = s.mc ∧ (prunePreempts s).pending = s.pending := by simp [prunePreempts]

@[simp] theorem setMove_rest (m : Nat) (f : Move → Move) (s : State) :
    (setMove m f s).board = s.board ∧ (setMove m f s).layout = s.layout ∧ (setMove m f s).srt = s.srt ∧
      (setMove m f s).roster = s.roster ∧ (setMove m f s).bxu = s.bxu ∧ (setMove m f s).tli = s.tli ∧
      (setMove m f s).fli = s.fli ∧ (setMove m f s).su = s.su ∧ (setMove m f s).mc = s.mc ∧
      (setMove m f s).pending = s.pending := by simp [setMove]

@[simp] theorem deleteMove_rest (m : Nat) (s : State) :
    (deleteMove m s).board = s.board ∧ (deleteMove m s).layout = s.layout ∧ (deleteMove m s).srt = s.srt ∧
      (deleteMove m s).roster = s.roster ∧ (deleteMove m s).bxu = s.bxu ∧ (deleteMove m s).tli = s.tli ∧
      (deleteMove m s).fli = s.fli ∧ (deleteMove m s).su = s.su ∧ (deleteMove m s).mc = s.mc ∧
      (deleteMove m s).pending = s.pending := by simp [deleteMove]

@[simp] theorem appendMove_rest (x : Move) (s : State) :
    (appendMove x s).board = s.board ∧ (appendMove x s).layout = s.layout ∧ (appendMove x s).srt = s.srt ∧
      (appendMove x s).roster = s.roster ∧ (appendMove x s).asu = s.asu ∧ (appendMove x s).bxu = s.bxu ∧
      (appendMove x s).tli = s.tli ∧ (appendMove x s).fli = s.fli ∧ (appendMove x s).su = s.su ∧
      (appendMove x s).mc = s.mc ∧ (appendMove x s).pending = s.pending := by simp [appendMove]

@[simp] theorem setPassDue_rest (s : State) :
    (setPassDue s).board = s.board ∧ (setPassDue s).layout = s.layout ∧ (setPassDue s).srt = s.srt ∧
      (setPassDue s).roster = s.roster ∧ (setPassDue s).mq = s.mq ∧ (setPassDue s).bxu = s.bxu ∧
      (setPassDue s).tli = s.tli ∧ (setPassDue s).fli = s.fli ∧ (setPassDue s).su = s.su ∧
      (setPassDue s).mc = s.mc ∧ (setPassDue s).pending = s.pending := by
  unfold setPassDue; split <;> simp

@[simp] theorem relink_rest (i : LineItem) (l : Link) (s : State) :
    (relink i l s).board = s.board ∧ (relink i l s).layout = s.layout ∧ (relink i l s).srt = s.srt ∧
      (relink i l s).roster = s.roster ∧ (relink i l s).mq = s.mq ∧ (relink i l s).asu = s.asu ∧
      (relink i l s).bxu = s.bxu ∧ (relink i l s).fli = s.fli ∧ (relink i l s).su = s.su ∧
      (relink i l s).mc = s.mc ∧ (relink i l s).pending = s.pending := by simp [relink]

@[simp] theorem uncarry_rest (v m : Nat) (s : State) :
    (uncarry v m s).board = s.board ∧ (uncarry v m s).layout = s.layout ∧ (uncarry v m s).srt = s.srt ∧
      (uncarry v m s).roster = s.roster ∧ (uncarry v m s).mq = s.mq ∧ (uncarry v m s).asu = s.asu ∧
      (uncarry v m s).bxu = s.bxu ∧ (uncarry v m s).fli = s.fli ∧ (uncarry v m s).su = s.su ∧
      (uncarry v m s).mc = s.mc ∧ (uncarry v m s).pending = s.pending := by simp [uncarry]

@[simp] theorem updDue_rest (v : Nat) (f : DueSet → DueSet) (s : State) :
    (updDue v f s).board = s.board ∧ (updDue v f s).layout = s.layout ∧ (updDue v f s).srt = s.srt ∧
      (updDue v f s).mq = s.mq ∧ (updDue v f s).asu = s.asu ∧ (updDue v f s).bxu = s.bxu ∧
      (updDue v f s).tli = s.tli ∧ (updDue v f s).fli = s.fli ∧ (updDue v f s).su = s.su ∧
      (updDue v f s).mc = s.mc ∧ (updDue v f s).pending = s.pending := by simp [updDue]

@[simp] theorem makeGrantDue_rest (v : Nat) (s : State) :
    (makeGrantDue v s).board = s.board ∧ (makeGrantDue v s).layout = s.layout ∧ (makeGrantDue v s).srt = s.srt ∧
      (makeGrantDue v s).mq = s.mq ∧ (makeGrantDue v s).asu = s.asu ∧ (makeGrantDue v s).bxu = s.bxu ∧
      (makeGrantDue v s).fli = s.fli ∧ (makeGrantDue v s).su = s.su ∧ (makeGrantDue v s).mc = s.mc ∧
      (makeGrantDue v s).pending = s.pending := by simp [makeGrantDue]

@[simp] theorem makeHoldDue_rest (v : Nat) (s : State) :
    (makeHoldDue v s).board = s.board ∧ (makeHoldDue v s).layout = s.layout ∧ (makeHoldDue v s).srt = s.srt ∧
      (makeHoldDue v s).mq = s.mq ∧ (makeHoldDue v s).asu = s.asu ∧ (makeHoldDue v s).bxu = s.bxu ∧
      (makeHoldDue v s).fli = s.fli ∧ (makeHoldDue v s).su = s.su ∧ (makeHoldDue v s).mc = s.mc ∧
      (makeHoldDue v s).pending = s.pending := by
  unfold makeHoldDue; split <;> simp

@[simp] theorem makeWithdrawDue_rest (v m : Nat) (s : State) :
    (makeWithdrawDue v m s).board = s.board ∧ (makeWithdrawDue v m s).layout = s.layout ∧
      (makeWithdrawDue v m s).srt = s.srt ∧ (makeWithdrawDue v m s).mq = s.mq ∧
      (makeWithdrawDue v m s).asu = s.asu ∧ (makeWithdrawDue v m s).bxu = s.bxu ∧
      (makeWithdrawDue v m s).fli = s.fli ∧ (makeWithdrawDue v m s).su = s.su ∧
      (makeWithdrawDue v m s).mc = s.mc ∧ (makeWithdrawDue v m s).pending = s.pending := by simp [makeWithdrawDue]

@[simp] theorem discardWithdraw_rest (v m : Nat) (s : State) :
    (discardWithdraw v m s).board = s.board ∧ (discardWithdraw v m s).layout = s.layout ∧
      (discardWithdraw v m s).srt = s.srt ∧ (discardWithdraw v m s).mq = s.mq ∧
      (discardWithdraw v m s).asu = s.asu ∧ (discardWithdraw v m s).bxu = s.bxu ∧
      (discardWithdraw v m s).fli = s.fli ∧ (discardWithdraw v m s).su = s.su ∧
      (discardWithdraw v m s).mc = s.mc ∧ (discardWithdraw v m s).pending = s.pending := by simp [discardWithdraw]

@[simp] theorem makeAssignDue_rest (v m : Nat) (s : State) :
    (makeAssignDue v m s).board = s.board ∧ (makeAssignDue v m s).layout = s.layout ∧
      (makeAssignDue v m s).srt = s.srt ∧ (makeAssignDue v m s).mq = s.mq ∧ (makeAssignDue v m s).asu = s.asu ∧
      (makeAssignDue v m s).bxu = s.bxu ∧ (makeAssignDue v m s).fli = s.fli ∧ (makeAssignDue v m s).su = s.su ∧
      (makeAssignDue v m s).mc = s.mc ∧ (makeAssignDue v m s).pending = s.pending := by simp [makeAssignDue]

@[simp] theorem discardAssign_rest (v : Nat) (s : State) :
    (discardAssign v s).board = s.board ∧ (discardAssign v s).layout = s.layout ∧
      (discardAssign v s).srt = s.srt ∧ (discardAssign v s).mq = s.mq ∧ (discardAssign v s).asu = s.asu ∧
      (discardAssign v s).bxu = s.bxu ∧ (discardAssign v s).fli = s.fli ∧ (discardAssign v s).su = s.su ∧
      (discardAssign v s).mc = s.mc ∧ (discardAssign v s).pending = s.pending := by simp [discardAssign]

@[simp] theorem liftHold_rest (v : Nat) (s : State) :
    (liftHold v s).board = s.board ∧ (liftHold v s).layout = s.layout ∧ (liftHold v s).srt = s.srt ∧
      (liftHold v s).mq = s.mq ∧ (liftHold v s).asu = s.asu ∧ (liftHold v s).bxu = s.bxu ∧
      (liftHold v s).fli = s.fli ∧ (liftHold v s).su = s.su ∧ (liftHold v s).mc = s.mc ∧
      (liftHold v s).pending = s.pending := by simp [liftHold]

@[simp] theorem severVehicle_rest (v : Nat) (s : State) :
    (severVehicle v s).board = s.board ∧ (severVehicle v s).layout = s.layout ∧ (severVehicle v s).srt = s.srt ∧
      (severVehicle v s).roster = s.roster ∧ (severVehicle v s).mq = s.mq ∧ (severVehicle v s).asu = s.asu ∧
      (severVehicle v s).bxu = s.bxu ∧ (severVehicle v s).fli = s.fli ∧ (severVehicle v s).su = s.su ∧
      (severVehicle v s).mc = s.mc ∧ (severVehicle v s).pending = s.pending := by simp [severVehicle]

@[simp] theorem discardDue_rest (v : Nat) (s : State) :
    (discardDue v s).board = s.board ∧ (discardDue v s).layout = s.layout ∧ (discardDue v s).srt = s.srt ∧
      (discardDue v s).mq = s.mq ∧ (discardDue v s).asu = s.asu ∧ (discardDue v s).bxu = s.bxu ∧
      (discardDue v s).fli = s.fli ∧ (discardDue v s).su = s.su ∧ (discardDue v s).mc = s.mc ∧
      (discardDue v s).pending = s.pending := by simp [discardDue]

@[simp] theorem removeRecord_rest (v : Nat) (s : State) :
    (removeRecord v s).board = s.board ∧ (removeRecord v s).layout = s.layout ∧ (removeRecord v s).srt = s.srt ∧
      (removeRecord v s).mq = s.mq ∧ (removeRecord v s).asu = s.asu ∧ (removeRecord v s).bxu = s.bxu ∧
      (removeRecord v s).fli = s.fli ∧ (removeRecord v s).su = s.su ∧ (removeRecord v s).mc = s.mc ∧
      (removeRecord v s).pending = s.pending := by simp [removeRecord]

@[simp] theorem claimStrayHold_rest (v : Nat) (s : State) :
    (claimStrayHold v s).board = s.board ∧ (claimStrayHold v s).layout = s.layout ∧
      (claimStrayHold v s).srt = s.srt ∧ (claimStrayHold v s).roster = s.roster ∧ (claimStrayHold v s).mq = s.mq ∧
      (claimStrayHold v s).asu = s.asu ∧ (claimStrayHold v s).bxu = s.bxu ∧ (claimStrayHold v s).fli = s.fli ∧
      (claimStrayHold v s).su = s.su ∧ (claimStrayHold v s).mc = s.mc ∧ (claimStrayHold v s).pending = s.pending := by simp [claimStrayHold]

@[simp] theorem addRecord_rest (x : Vehicle) (s : State) :
    (addRecord x s).board = s.board ∧ (addRecord x s).layout = s.layout ∧ (addRecord x s).srt = s.srt ∧
      (addRecord x s).mq = s.mq ∧ (addRecord x s).asu = s.asu ∧ (addRecord x s).bxu = s.bxu ∧
      (addRecord x s).fli = s.fli ∧ (addRecord x s).su = s.su ∧ (addRecord x s).mc = s.mc ∧
      (addRecord x s).pending = s.pending := by
  unfold addRecord; split <;> simp

@[simp] theorem makeAllHoldDue_rest (s : State) :
    (makeAllHoldDue s).board = s.board ∧ (makeAllHoldDue s).layout = s.layout ∧ (makeAllHoldDue s).srt = s.srt ∧
      (makeAllHoldDue s).roster = s.roster ∧ (makeAllHoldDue s).mq = s.mq ∧ (makeAllHoldDue s).asu = s.asu ∧
      (makeAllHoldDue s).bxu = s.bxu ∧ (makeAllHoldDue s).fli = s.fli ∧ (makeAllHoldDue s).su = s.su ∧
      (makeAllHoldDue s).mc = s.mc ∧ (makeAllHoldDue s).pending = s.pending := by simp [makeAllHoldDue]

@[simp] theorem makeResumeDue_rest (s : State) :
    (makeResumeDue s).board = s.board ∧ (makeResumeDue s).layout = s.layout ∧ (makeResumeDue s).srt = s.srt ∧
      (makeResumeDue s).roster = s.roster ∧ (makeResumeDue s).mq = s.mq ∧ (makeResumeDue s).asu = s.asu ∧
      (makeResumeDue s).bxu = s.bxu ∧ (makeResumeDue s).fli = s.fli ∧ (makeResumeDue s).su = s.su ∧
      (makeResumeDue s).mc = s.mc ∧ (makeResumeDue s).pending = s.pending := by simp [makeResumeDue]

@[simp] theorem makeRollcallDue_rest (s : State) :
    (makeRollcallDue s).board = s.board ∧ (makeRollcallDue s).layout = s.layout ∧
      (makeRollcallDue s).srt = s.srt ∧ (makeRollcallDue s).roster = s.roster ∧ (makeRollcallDue s).mq = s.mq ∧
      (makeRollcallDue s).asu = s.asu ∧ (makeRollcallDue s).bxu = s.bxu ∧ (makeRollcallDue s).fli = s.fli ∧
      (makeRollcallDue s).su = s.su ∧ (makeRollcallDue s).mc = s.mc ∧ (makeRollcallDue s).pending = s.pending := by simp [makeRollcallDue]

@[simp] theorem discardResume_rest (s : State) :
    (discardResume s).board = s.board ∧ (discardResume s).layout = s.layout ∧ (discardResume s).srt = s.srt ∧
      (discardResume s).roster = s.roster ∧ (discardResume s).mq = s.mq ∧ (discardResume s).asu = s.asu ∧
      (discardResume s).bxu = s.bxu ∧ (discardResume s).fli = s.fli ∧ (discardResume s).su = s.su ∧
      (discardResume s).mc = s.mc ∧ (discardResume s).pending = s.pending := by simp [discardResume]

@[simp] theorem discardRollcall_rest (s : State) :
    (discardRollcall s).board = s.board ∧ (discardRollcall s).layout = s.layout ∧
      (discardRollcall s).srt = s.srt ∧ (discardRollcall s).roster = s.roster ∧ (discardRollcall s).mq = s.mq ∧
      (discardRollcall s).asu = s.asu ∧ (discardRollcall s).bxu = s.bxu ∧ (discardRollcall s).fli = s.fli ∧
      (discardRollcall s).su = s.su ∧ (discardRollcall s).mc = s.mc ∧ (discardRollcall s).pending = s.pending := by simp [discardRollcall]

@[simp] theorem suspendConfirm_rest (s : State) :
    (suspendConfirm s).board = s.board ∧ (suspendConfirm s).layout = s.layout ∧ (suspendConfirm s).srt = s.srt ∧
      (suspendConfirm s).roster = s.roster ∧ (suspendConfirm s).asu = s.asu ∧ (suspendConfirm s).bxu = s.bxu ∧
      (suspendConfirm s).tli = s.tli ∧ (suspendConfirm s).fli = s.fli ∧ (suspendConfirm s).su = s.su ∧
      (suspendConfirm s).mc = s.mc ∧ (suspendConfirm s).pending = s.pending := by simp [suspendConfirm]

@[simp] theorem enterHalted_rest (s : State) :
    (enterHalted s).board = s.board ∧ (enterHalted s).layout = s.layout ∧ (enterHalted s).srt = s.srt ∧
      (enterHalted s).roster = s.roster ∧ (enterHalted s).bxu = s.bxu ∧ (enterHalted s).fli = s.fli ∧
      (enterHalted s).su = s.su ∧ (enterHalted s).pending = s.pending := by simp [enterHalted]

@[simp] theorem pushOut_rest (f : FloorFrame) (s : State) :
    (pushOut f s).board = s.board ∧ (pushOut f s).layout = s.layout ∧ (pushOut f s).srt = s.srt ∧
      (pushOut f s).roster = s.roster ∧ (pushOut f s).mq = s.mq ∧ (pushOut f s).asu = s.asu ∧
      (pushOut f s).bxu = s.bxu ∧ (pushOut f s).tli = s.tli ∧ (pushOut f s).su = s.su ∧ (pushOut f s).mc = s.mc ∧
      (pushOut f s).pending = s.pending := by simp [pushOut]

@[simp] theorem appendReply_rest (a : ReplyTo) (k : Nat) (r : Reply) (s : State) :
    (appendReply a k r s).board = s.board ∧ (appendReply a k r s).layout = s.layout ∧
      (appendReply a k r s).srt = s.srt ∧ (appendReply a k r s).roster = s.roster ∧
      (appendReply a k r s).mq = s.mq ∧ (appendReply a k r s).asu = s.asu ∧ (appendReply a k r s).bxu = s.bxu ∧
      (appendReply a k r s).tli = s.tli ∧ (appendReply a k r s).su = s.su ∧ (appendReply a k r s).mc = s.mc ∧
      (appendReply a k r s).pending = s.pending := by simp [appendReply]

@[simp] theorem updatePacing_rest (s : State) :
    (updatePacing s).board = s.board ∧ (updatePacing s).layout = s.layout ∧ (updatePacing s).srt = s.srt ∧
      (updatePacing s).roster = s.roster ∧ (updatePacing s).mq = s.mq ∧ (updatePacing s).asu = s.asu ∧
      (updatePacing s).bxu = s.bxu ∧ (updatePacing s).fli = s.fli ∧ (updatePacing s).su = s.su ∧
      (updatePacing s).mc = s.mc ∧ (updatePacing s).pending = s.pending := by simp [updatePacing]

@[simp] theorem updateAlarm_rest (s : State) :
    (updateAlarm s).board = s.board ∧ (updateAlarm s).layout = s.layout ∧ (updateAlarm s).srt = s.srt ∧
      (updateAlarm s).roster = s.roster ∧ (updateAlarm s).mq = s.mq ∧ (updateAlarm s).asu = s.asu ∧
      (updateAlarm s).bxu = s.bxu ∧ (updateAlarm s).tli = s.tli ∧ (updateAlarm s).fli = s.fli ∧
      (updateAlarm s).mc = s.mc ∧ (updateAlarm s).pending = s.pending := by simp [updateAlarm]

@[simp] theorem haltOccurrence_rest (s : State) :
    (haltOccurrence s).board = s.board ∧ (haltOccurrence s).layout = s.layout ∧ (haltOccurrence s).srt = s.srt ∧
      (haltOccurrence s).roster = s.roster ∧ (haltOccurrence s).bxu = s.bxu ∧ (haltOccurrence s).fli = s.fli ∧
      (haltOccurrence s).su = s.su ∧ (haltOccurrence s).pending = s.pending := by
  unfold haltOccurrence; split <;> (try split) <;> simp

@[simp] theorem dropOutClaim_rest (t : Nat) (s : State) :
    (dropOutClaim t s).board = s.board ∧ (dropOutClaim t s).layout = s.layout ∧ (dropOutClaim t s).srt = s.srt ∧
      (dropOutClaim t s).roster = s.roster ∧ (dropOutClaim t s).mq = s.mq ∧ (dropOutClaim t s).asu = s.asu ∧
      (dropOutClaim t s).tli = s.tli ∧ (dropOutClaim t s).fli = s.fli ∧ (dropOutClaim t s).su = s.su ∧
      (dropOutClaim t s).mc = s.mc ∧ (dropOutClaim t s).pending = s.pending := by simp [dropOutClaim]

@[simp] theorem dropInClaim_rest (c t : Nat) (s : State) :
    (dropInClaim c t s).board = s.board ∧ (dropInClaim c t s).layout = s.layout ∧
      (dropInClaim c t s).srt = s.srt ∧ (dropInClaim c t s).roster = s.roster ∧ (dropInClaim c t s).mq = s.mq ∧
      (dropInClaim c t s).asu = s.asu ∧ (dropInClaim c t s).tli = s.tli ∧ (dropInClaim c t s).fli = s.fli ∧
      (dropInClaim c t s).su = s.su ∧ (dropInClaim c t s).mc = s.mc ∧ (dropInClaim c t s).pending = s.pending := by simp [dropInClaim]

@[simp] theorem openRequest_rest (rest : List FloorFrame) (s : State) :
    (openRequest rest s).board = s.board ∧ (openRequest rest s).layout = s.layout ∧
      (openRequest rest s).srt = s.srt ∧ (openRequest rest s).roster = s.roster ∧ (openRequest rest s).mq = s.mq ∧
      (openRequest rest s).asu = s.asu ∧ (openRequest rest s).bxu = s.bxu ∧ (openRequest rest s).tli = s.tli ∧
      (openRequest rest s).su = s.su ∧ (openRequest rest s).mc = s.mc ∧ (openRequest rest s).pending = s.pending := by simp [openRequest]

@[simp] theorem popTrack_rest (rest : List TrackEntry) (s : State) :
    (popTrack rest s).board = s.board ∧ (popTrack rest s).layout = s.layout ∧ (popTrack rest s).srt = s.srt ∧
      (popTrack rest s).roster = s.roster ∧ (popTrack rest s).mq = s.mq ∧ (popTrack rest s).asu = s.asu ∧
      (popTrack rest s).bxu = s.bxu ∧ (popTrack rest s).fli = s.fli ∧ (popTrack rest s).su = s.su ∧
      (popTrack rest s).mc = s.mc ∧ (popTrack rest s).pending = s.pending := by simp [popTrack]

@[simp] theorem setAnswer_rest (a : Answer) (s : State) :
    (setAnswer a s).board = s.board ∧ (setAnswer a s).layout = s.layout ∧ (setAnswer a s).srt = s.srt ∧
      (setAnswer a s).roster = s.roster ∧ (setAnswer a s).mq = s.mq ∧ (setAnswer a s).asu = s.asu ∧
      (setAnswer a s).bxu = s.bxu ∧ (setAnswer a s).fli = s.fli ∧ (setAnswer a s).su = s.su ∧
      (setAnswer a s).mc = s.mc ∧ (setAnswer a s).pending = s.pending := by simp [setAnswer]

/-! ### Occurrences, reports and changes of moves -/

/-- What an occurrence keeps: whatever neither the flags, nor a frame appended, nor an entry to HALTED changes. -/
theorem occur_keeps {α : Type} (p : State → α) (hu : ∀ f s, p (s.updSu f) = p s) (hh : ∀ s, p (haltOccurrence s) = p s)
    (notify : Detail → State → State) (hn : ∀ d s, p (notify d s) = p s) (k : EventKind) (d : Detail) (s : State) :
    p (occur notify k d s) = p s := by
  have ha : ∀ t, p (updateAlarm t) = p t := fun t => hu _ t
  unfold occur
  simp only
  split <;> split <;> (try split) <;> simp only [hh, ha, hn, hu]

theorem raise_keeps {α : Type} (p : State → α) (hu : ∀ f s, p (s.updSu f) = p s) (hh : ∀ s, p (haltOccurrence s) = p s)
    (hp : ∀ f s, p (pushOut f s) = p s) (k : EventKind) (d : Detail) (s : State) : p (raise k d s) = p s := by
  refine occur_keeps p hu hh _ (fun d s => ?_) k d s
  unfold notify
  split
  · exact hp _ _
  · refine occur_keeps p hu hh _ (fun d s => ?_) _ _ _
    unfold notifyLost
    split
    · exact hp _ _
    · exact occur_keeps p hu hh _ (fun _ _ => rfl) _ _ _

@[simp] theorem raise_rest (k : EventKind) (d : Detail) (s : State) :
    (raise k d s).board = s.board ∧ (raise k d s).layout = s.layout ∧ (raise k d s).srt = s.srt
      ∧ (raise k d s).roster = s.roster ∧ (raise k d s).bxu = s.bxu ∧ (raise k d s).pending = s.pending :=
  ⟨raise_keeps State.board (by simp) (by simp) (by simp) k d s, raise_keeps State.layout (by simp) (by simp) (by simp) k d s,
   raise_keeps State.srt (by simp) (by simp) (by simp) k d s, raise_keeps State.roster (by simp) (by simp) (by simp) k d s,
   raise_keeps State.bxu (by simp) (by simp) (by simp) k d s, raise_keeps State.pending (by simp) (by simp) (by simp) k d s⟩

@[simp] theorem reportMove_rest (m : Nat) (st : ReportState) (v a : Nat) (s : State) :
    (reportMove m st v a s).board = s.board ∧ (reportMove m st v a s).layout = s.layout
      ∧ (reportMove m st v a s).srt = s.srt ∧ (reportMove m st v a s).roster = s.roster
      ∧ (reportMove m st v a s).bxu = s.bxu ∧ (reportMove m st v a s).pending = s.pending := by
  unfold reportMove; split <;> simp

@[simp] theorem sendPeer_rest (dst kind tag seg v : Nat) (extra : List Byte) (s : State) :
    (sendPeer dst kind tag seg v extra s).board = s.board ∧ (sendPeer dst kind tag seg v extra s).layout = s.layout
      ∧ (sendPeer dst kind tag seg v extra s).srt = s.srt ∧ (sendPeer dst kind tag seg v extra s).roster = s.roster
      ∧ (sendPeer dst kind tag seg v extra s).bxu = s.bxu ∧ (sendPeer dst kind tag seg v extra s).pending = s.pending := by
  unfold sendPeer; split <;> simp

@[simp] theorem changeMove_rest (m : Nat) (f : Move → Move) (s : State) :
    (changeMove m f s).board = s.board ∧ (changeMove m f s).layout = s.layout ∧ (changeMove m f s).srt = s.srt
      ∧ (changeMove m f s).roster = s.roster ∧ (changeMove m f s).bxu = s.bxu ∧ (changeMove m f s).pending = s.pending := by
  unfold changeMove; split <;> simp

@[simp] theorem removeMove_rest (m : Nat) (o : ReportState) (s : State) :
    (removeMove m o s).board = s.board ∧ (removeMove m o s).layout = s.layout ∧ (removeMove m o s).srt = s.srt
      ∧ (removeMove m o s).roster = s.roster ∧ (removeMove m o s).bxu = s.bxu ∧ (removeMove m o s).pending = s.pending := by
  unfold removeMove; split <;> simp

@[simp] theorem returnToWaiting_rest (m : Nat) (s : State) :
    (returnToWaiting m s).board = s.board ∧ (returnToWaiting m s).layout = s.layout
      ∧ (returnToWaiting m s).srt = s.srt ∧ (returnToWaiting m s).roster = s.roster
      ∧ (returnToWaiting m s).bxu = s.bxu ∧ (returnToWaiting m s).pending = s.pending := by
  simp [returnToWaiting]

end Sys2Proof.Machine
end

