-- ==== Sys2Proof/Laws/Units.lean ====
section
/-! SUPPORT. Every shared operation of Machine/Ops.lean acts: reservations, vehicles, moves, due sets, entry to
HALTED. -/

namespace Sys2Proof.Machine

/-! ### Segment Reservation Table -/

theorem frames_srtMod (i : Nat) (f : SegRes → SegRes) (s : State)
    (hf : ∀ x : SegRes, x.waits.length ≤ Config.waitListMax → (f x).waits.length ≤ Config.waitListMax) :
    Frames s (s.updSrt (tmod i f)) :=
  frames_updSrt (tmod_keys _ _ _) fun h => h.tmod fun p hp _ => hf _ (h p hp)

theorem frames_setRes (i : Nat) (r : Res) (s : State) : Frames s (setRes i r s) := frames_srtMod _ _ _ fun _ h => h

theorem frames_modRes (i : Nat) (f : Res → Res) (s : State) : Frames s (modRes i f s) := frames_srtMod _ _ _ fun _ h => h

theorem resIn_modRes (i j : Nat) (g : Res → Res) (s : State) :
    resIn (modRes i g s).srt j = if j = i then (resIn s.srt j).map g else resIn s.srt j := by
  rw [modRes, State.updSrt_srt, resIn_tmod i j _ g _ fun _ => rfl]

theorem resIn_setRes (i j : Nat) (r : Res) (s : State) :
    resIn (setRes i r s).srt j = if j = i then (resIn s.srt j).map (fun _ => r) else resIn s.srt j := by
  rw [setRes, State.updSrt_srt, resIn_tmod i j _ (fun _ => r) _ fun _ => rfl]

/-- A change of state that names the same vehicles and leaves foreign BOUNDARY segments. -/
theorem acts_modRes (i : Nat) (g : Res → Res) (s : State)
    (hn : ∀ r : Res, r.plain → (g r).named = r.named ∧ (g r).plain)
    (hk : ∀ r, (g r).isForeignKind = r.isForeignKind ∧ (r.isForeignKind = true → g r = r)) : Acts s (modRes i g s) :=
  { frames_modRes i g s with
    agree := fun k => k.agree.renamed (resIn_modRes i · g s) hn (fun r => (hk r).1) fun r => (hk r).2 }

theorem acts_srtFilter (p : WaitEntry → Bool) (s : State) :
    Acts s (s.updSrt fun t => t.map fun q => (q.1, { q.2 with waits := q.2.waits.filter p })) :=
  acts_updSrt (by rw [List.map_map]; rfl)
    (fun h q hq => by
      obtain ⟨r, hr, rfl⟩ := List.mem_map.1 hq
      exact (List.length_filter_le _ _).trans (h r hr))
    fun i => resIn_map (fun x => { x with waits := x.waits.filter p }) i s.srt fun _ => rfl

theorem acts_leaveWaits (v : Nat) (s : State) : Acts s (leaveWaits v s) := acts_srtFilter _ s

theorem acts_leaveClaimWait (cell tag : Nat) (s : State) : Acts s (leaveClaimWait cell tag s) := acts_srtFilter _ s

/-- Something is appended to a wait list that has room (R33). -/
theorem acts_appendWait (i : Nat) (e : WaitEntry) (s : State) (h : (waitsOf s i).length < Config.waitListMax) :
    Acts s (modWaits i (fun l => l ++ [e]) s) :=
  { Frames.refl s with
    mc := .inl rfl
    alarm := AlarmOk.congr rfl rfl rfl
    segments := by rw [modWaits, State.updSrt_srt, tmod_keys]
    agree := fun k => k.agree.views (fun j => by
      rw [modWaits, State.updSrt_srt, resIn_tmod i j (fun x => { x with waits := x.waits ++ [e] }) id _ fun _ => rfl, Option.map_id]
      exact ite_self _) (fun _ => rfl) rfl
    stores := fun k =>
      { k with
        segments := by rw [modWaits, State.updSrt_srt, tmod_keys]; exact k.segments
        waits := by
          rw [modWaits, State.updSrt_srt]
          refine k.waits.tmod fun p hp hi => ?_
          have : resRec s i = some p.2 := tget_of_mem k.segments (by rw [← hi]; exact hp)
          unfold waitsOf at h
          rw [this] at h
          show (p.2.waits ++ [e]).length ≤ _
          rw [List.length_append]
          exact h } }

/-! ### Vehicles -/

theorem updVehicle_eq (v : Nat) (f : Vehicle → Vehicle) (s : State) :
    updVehicle v f s = s.updRoster fun t => t.map fun p => (p.1, if p.2.id = v then f p.2 else p.2) := by
  unfold updVehicle
  congr 1
  funext t
  refine List.map_congr_left fun p _ => ?_
  by_cases h : p.2.id = v <;> simp [h]

theorem vehicle_congr {s t : State} (h : t.roster = s.roster) (v : Nat) : vehicle t v = vehicle s v := by
  unfold vehicle findVehicle; rw [h]

theorem inRoster_congr {s t : State} (h : t.roster = s.roster) (v : Nat) : inRoster t v = inRoster s v := by
  unfold inRoster findVehicle; rw [h]

theorem inRoster_eq (s : State) (v : Nat) : inRoster s v = (vehicle s v).isSome := by
  unfold inRoster vehicle; cases findVehicle s v <;> rfl

/-- The record found under an id carries that id. -/
theorem vehicle_id {s : State} {v : Nat} {x : Vehicle} (h : vehicle s v = some x) : x.id = v := by
  unfold vehicle at h
  cases e : findVehicle s v with
  | none => rw [e] at h; cases h
  | some p =>
    rw [e] at h
    cases h
    unfold findVehicle at e
    simpa using List.find?_some e

/-- A changed record reads as changed, every other as before. -/
theorem vehicle_updVehicle (v u : Nat) (f : Vehicle → Vehicle) (s : State) (hid : ∀ x, x.id = v → (f x).id = v) :
    vehicle (updVehicle v f s) u = (vehicle s u).map fun x => if u = v then f x else x := by
  unfold vehicle findVehicle updVehicle
  rw [State.updRoster_roster]
  induction s.roster with
  | nil => rfl
  | cons p t ih =>
    have same : (if p.2.id = v then (p.1, f p.2) else p).2.id = p.2.id := by
      split
      · rename_i k; rw [hid _ k, k]
      · rfl
    rw [List.map_cons, List.find?_cons, List.find?_cons, same]
    by_cases e : p.2.id = u
    · subst e
      by_cases k : p.2.id = v <;> simp [k]
    · rw [beq_eq_false_iff_ne.2 e]
      exact ih

theorem vehicle_makeGrantDue (v u : Nat) (s : State) :
    vehicle (makeGrantDue v s) u = (vehicle s u).map fun x =>
      if u = v then (if x.state = .arriving then x else { x with due := { x.due with grant := some 0 } }) else x := by
  unfold makeGrantDue
  rw [vehicle_congr (relink_rest _ _ _).2.2.2.1]
  exact vehicle_updVehicle _ _ _ _ fun x e => by split <;> exact e

theorem frames_updVehicle (v : Nat) (f : Vehicle → Vehicle) (s : State) (hid : ∀ x, x.id = v → (f x).id = v)
    (hw : ∀ x : Vehicle, x.due.withdraw.length ≤ Config.withdrawMax → (f x).due.withdraw.length ≤ Config.withdrawMax) :
    Frames s (updVehicle v f s) := by
  rw [updVehicle_eq]
  refine frames_updRoster fun h => RosterOk.map (f := fun x => if x.id = v then f x else x) h (fun p _ => ?_) fun p _ hp => ?_
  · show (if p.2.id = v then f p.2 else p.2).id = p.2.id
    split
    · rename_i k; rw [hid _ k, k]
    · rfl
  · show (if p.2.id = v then f p.2 else p.2).due.withdraw.length ≤ _
    split
    · exact hw _ hp
    · exact hp

/-- The held list of a vehicle is that of its record. -/
theorem heldIn_eq (s : State) (v : Nat) : heldIn s.roster v = ((vehicle s v).map (·.held)).getD [] := by
  unfold heldIn vehicle findVehicle
  rw [Option.map_map]
  rfl

theorem heldIn_of {s : State} {v : Nat} {x : Vehicle} (h : vehicle s v = some x) : heldIn s.roster v = x.held := by
  rw [heldIn_eq, h]; rfl

theorem heldIn_updVehicle (v u : Nat) (f : Vehicle → Vehicle) (s : State) (hid : ∀ x, x.id = v → (f x).id = v) :
    heldIn (updVehicle v f s).roster u = ((vehicle s u).map fun x => (if u = v then f x else x).held).getD [] := by
  rw [heldIn_eq, vehicle_updVehicle _ _ _ _ hid, Option.map_map]
  rfl

theorem heldIn_other {v u : Nat} {f : Vehicle → Vehicle} {s : State} (hid : ∀ x, x.id = v → (f x).id = v) (h : u ≠ v) :
    heldIn (updVehicle v f s).roster u = heldIn s.roster u := by
  rw [heldIn_updVehicle _ _ _ _ hid, heldIn_eq]
  simp [h]

theorem heldIn_changed {v : Nat} {f : Vehicle → Vehicle} {s : State} {x : Vehicle} (hid : ∀ x, x.id = v → (f x).id = v)
    (h : vehicle s v = some x) : heldIn (updVehicle v f s).roster v = (f x).held := by
  rw [heldIn_updVehicle _ _ _ _ hid, h]
  simp

theorem acts_updVehicle (v : Nat) (f : Vehicle → Vehicle) (s : State) (hid : ∀ x, x.id = v → (f x).id = v)
    (hw : ∀ x : Vehicle, x.due.withdraw.length ≤ Config.withdrawMax → (f x).due.withdraw.length ≤ Config.withdrawMax)
    (hh : ∀ x : Vehicle, (f x).held = x.held) : Acts s (updVehicle v f s) :=
  { frames_updVehicle v f s hid hw with
    agree := fun h => h.agree.views (fun _ => rfl) (fun u => by
      rw [heldIn_updVehicle _ _ _ _ hid, heldIn_eq]
      cases vehicle s u with
      | none => rfl
      | some x =>
        simp only [Option.map_some, Option.getD_some]
        split
        · exact hh x
        · rfl) rfl }

/-- A change of a vehicle that keeps its id, its due set and its held list. -/
theorem acts_vehicle (v : Nat) (f : Vehicle → Vehicle) (s : State)
    (h : ∀ x, (f x).id = x.id ∧ (f x).due = x.due ∧ (f x).held = x.held) : Acts s (updVehicle v f s) :=
  acts_updVehicle v f s (fun x e => (h x).1.trans e) (fun x e => by rw [(h x).2.1]; exact e) fun x => (h x).2.2

theorem acts_updDue (v : Nat) (f : DueSet → DueSet) (s : State)
    (hw : ∀ d : DueSet, d.withdraw.length ≤ Config.withdrawMax → (f d).withdraw.length ≤ Config.withdrawMax) :
    Acts s (updDue v f s) :=
  acts_updVehicle v _ s (fun _ e => e) (fun x e => hw x.due e) fun _ => rfl

theorem frames_dropVehicle (v : Nat) (s : State) : Frames s (dropVehicle v s) :=
  frames_updRoster fun h => h.sublist List.filter_sublist

theorem vehicle_dropVehicle (v u : Nat) (s : State) :
    vehicle (dropVehicle v s) u = if u = v then none else vehicle s u := by
  unfold vehicle findVehicle dropVehicle
  rw [State.updRoster_roster]
  induction s.roster with
  | nil => simp
  | cons p t ih =>
    rw [List.filter_cons]
    by_cases e : p.2.id = v
    · rw [if_neg (by simpa using e), ih, List.find?_cons]
      split
      · rfl
      · rename_i k
        rw [beq_eq_false_iff_ne.2 (fun h => k (h.symm.trans e))]
    · rw [if_pos (by simpa using e), List.find?_cons, List.find?_cons]
      by_cases k : p.2.id = u
      · subst k; simp [e]
      · rw [beq_eq_false_iff_ne.2 k]; exact ih

/-- The record of a vehicle that holds nothing goes. -/
theorem acts_dropVehicle (v : Nat) (s : State) (hn : Sound s → heldIn s.roster v = []) : Acts s (dropVehicle v s) :=
  { frames_dropVehicle v s with
    agree := fun h => h.agree.views (fun _ => rfl) (fun u => by
      rw [heldIn_eq, vehicle_dropVehicle]
      split
      · rename_i e; rw [e, hn h]; rfl
      · rw [heldIn_eq]) rfl }

/-! ### Moves -/

theorem acts_prunePreempts (s : State) : Acts s (prunePreempts s) :=
  acts_updAsu rfl rfl (fun h => .inl h) fun h => .inl h

theorem setMove_ids (m : Nat) (f : Move → Move) (hid : ∀ x, x.id = m → (f x).id = m) (l : List Move) :
    (l.map fun x => if x.id = m then f x else x).map (·.id) = l.map (·.id) := by
  rw [List.map_map]
  refine List.map_congr_left fun x _ => ?_
  simp only [Function.comp_apply]
  split
  · rename_i h; rw [hid x h, h]
  · rfl

/-- A record of the Move Queue changes to one whose confirm deadline fits (R99). -/
theorem acts_setMove (m : Nat) (f : Move → Move) (s : State) (hid : ∀ x, x.id = m → (f x).id = m)
    (hc : (∀ x ∈ s.mq.moves, ConfirmFits s.mode x) → ∀ x ∈ s.mq.moves, x.id = m → ConfirmFits s.mode (f x)) :
    Acts s (setMove m f s) := by
  refine Acts.trans (acts_updMq rfl (fun h => ?_) fun h => ?_) (acts_prunePreempts _)
  · exact { size := by rw [List.length_map]; exact h.size
            ids := by rw [setMove_ids m f hid]; exact h.ids
            arrivals := h.arrivals }
  · intro y hy
    obtain ⟨x, hx, rfl⟩ := List.mem_map.1 hy
    split
    · rename_i k; exact hc h x hx k
    · exact h x hx

theorem acts_deleteMove (m : Nat) (s : State) : Acts s (deleteMove m s) := by
  refine Acts.trans (acts_updMq rfl (fun h => ?_) fun h => ?_) (acts_prunePreempts _)
  · exact { size := (List.length_filter_le _ _).trans h.size
            ids := h.ids.sublist (List.filter_sublist.map _)
            arrivals := h.arrivals }
  · exact fun x hx => h x (List.mem_of_mem_filter hx)

theorem acts_setPassDue (s : State) : Acts s (setPassDue s) := by
  unfold setPassDue
  split
  · rename_i h; exact acts_updAsu rfl rfl (fun _ => .inr h) fun h => .inl h
  · exact Acts.refl s

/-! ### Due sets -/

theorem acts_relink (item : LineItem) (l : Link) (s : State) : Acts s (relink item l s) :=
  acts_updTli (List.Sublist.refl _) id

theorem acts_uncarry (v m : Nat) (s : State) : Acts s (uncarry v m s) := acts_updTli (List.Sublist.refl _) id

theorem acts_makeGrantDue (v : Nat) (s : State) : Acts s (makeGrantDue v s) :=
  (acts_updVehicle v _ s (fun x e => by split <;> exact e) (fun x e => by split <;> exact e)
    fun x => by split <;> rfl).trans (acts_relink _ _ _)

theorem heldIn_makeGrantDue (v u : Nat) (s : State) : heldIn (makeGrantDue v s).roster u = heldIn s.roster u := by
  rw [heldIn_eq, heldIn_eq, vehicle_makeGrantDue, Option.map_map]
  cases vehicle s u with
  | none => rfl
  | some x =>
    simp only [Option.map_some, Option.getD_some, Function.comp_apply]
    split
    · split <;> rfl
    · rfl

theorem acts_makeHoldDue (v : Nat) (s : State) : Acts s (makeHoldDue v s) := by
  unfold makeHoldDue
  split
  · refine Acts.trans ?_ (acts_relink _ _ _)
    exact acts_updDue v _ s fun _ h => h
  · exact (acts_updTli (List.Sublist.refl _) tableWf_tput).trans (acts_relink _ _ _)

theorem addWithdraw_length (m : Nat) (l : List Nat) (h : l.length ≤ Config.withdrawMax) :
    (addWithdraw m l).length ≤ Config.withdrawMax := by
  unfold addWithdraw
  split
  · exact h
  · split
    · rename_i k; rw [List.length_append]; exact k
    · rw [List.length_append, List.length_tail]
      have : Config.withdrawMax = 6 := rfl
      simp only [List.length_singleton]
      omega

theorem acts_makeWithdrawDue (v m : Nat) (s : State) : Acts s (makeWithdrawDue v m s) :=
  ((acts_updDue v _ s fun _ h => addWithdraw_length m _ h).trans (acts_relink _ _ _)).trans (acts_uncarry _ _ _)

theorem acts_discardWithdraw (v m : Nat) (s : State) : Acts s (discardWithdraw v m s) :=
  (acts_updDue v _ s fun _ h => (List.length_filter_le _ _).trans h).trans (acts_uncarry _ _ _)

theorem acts_makeAssignDue (v m : Nat) (s : State) : Acts s (makeAssignDue v m s) := by
  refine Acts.trans ?_ (acts_relink _ _ _)
  refine Acts.trans (acts_discardWithdraw v m s) ?_
  exact acts_updDue v _ _ fun _ h => h

theorem acts_discardAssign (v : Nat) (s : State) : Acts s (discardAssign v s) := by
  refine Acts.trans ?_ (acts_relink _ _ _)
  exact acts_updDue v _ _ fun _ h => h

theorem acts_liftHold (v : Nat) (s : State) : Acts s (liftHold v s) := by
  refine Acts.trans ?_ (acts_relink _ _ _)
  exact acts_updDue v _ _ fun _ h => h

theorem acts_severVehicle (v : Nat) (s : State) : Acts s (severVehicle v s) := acts_updTli (List.Sublist.refl _) id

theorem acts_discardDue (v : Nat) (s : State) : Acts s (discardDue v s) :=
  (acts_updDue v _ _ fun _ _ => Nat.zero_le _).trans (acts_severVehicle _ _)

theorem frames_removeRecord (v : Nat) (s : State) : Frames s (removeRecord v s) :=
  (acts_severVehicle _ _).toFrames.trans (frames_dropVehicle _ _)

theorem acts_removeRecord (v : Nat) (s : State) (hn : heldIn s.roster v = []) : Acts s (removeRecord v s) :=
  (acts_severVehicle _ _).trans (acts_dropVehicle _ _ fun _ => hn)

theorem acts_claimStrayHold (v : Nat) (s : State) : Acts s (claimStrayHold v s) :=
  (acts_updTli (List.Sublist.refl _) tableWf_tdrop).trans (acts_relink _ _ _)

/-- Ids in the roster are those `inRoster` knows. -/
theorem id_notMem_of_not_inRoster {s : State} {v : Nat} (h : inRoster s v = false) : ∀ p ∈ s.roster, p.2.id ≠ v := by
  unfold inRoster findVehicle at h
  rw [Option.isSome_eq_false_iff, Option.isNone_iff_eq_none, List.find?_eq_none] at h
  exact fun p hp => by simpa using h p hp

theorem tput_new_perm {α : Type} {k : Nat} {a : α} : ∀ {t : Table α}, (∀ p ∈ t, p.1 ≠ k) → (tput k a t).Perm ((k, a) :: t)
  | [], _ => .refl _
  | (j, b) :: t, h => by
    unfold tput
    split
    · exact .refl _
    · split
      · rename_i e; exact absurd e.symm (h (j, b) List.mem_cons_self)
      · exact ((tput_new_perm fun p hp => h p (List.mem_cons_of_mem _ hp)).cons _).trans (.swap _ _ _)

theorem tget_none_notMem {α : Type} {k : Nat} : ∀ {t : Table α}, tget k t = none → ∀ p ∈ t, p.1 ≠ k
  | [], _, _, h => by cases h
  | (j, b) :: t, h, p, m => by
    unfold tget at h
    split at h
    · cases h
    · rename_i e
      rcases List.mem_cons.1 m with rfl | m
      · exact e
      · exact tget_none_notMem h p m

/-- A record for an id the roster does not hold (R65). -/
theorem frames_addRecord (x : Vehicle) (s : State) (h : inRoster s x.id = false)
    (hw : x.due.withdraw.length ≤ Config.withdrawMax) : Frames s (addRecord x s) := by
  unfold addRecord
  split
  · exact Frames.refl s
  · rename_i k hk
    obtain ⟨lt, free⟩ := lowestFree_spec hk
    have perm := tput_new_perm (a := x) (tget_none_notMem free)
    refine Frames.trans (frames_updRoster fun hr => ?_) (acts_claimStrayHold _ _).toFrames
    exact
      { sorted := tableWf_tput hr.sorted
        slots := fun p hp => (mem_tput hp).elim (fun e => e ▸ lt) (hr.slots p)
        ids := by
          refine ((perm.map (·.2.id)).nodup_iff).2 ?_
          rw [List.map_cons, List.nodup_cons]
          refine ⟨fun m => ?_, hr.ids⟩
          obtain ⟨p, hp, e⟩ := List.mem_map.1 m
          exact id_notMem_of_not_inRoster h p hp e
        withdraws := fun p hp => (mem_tput hp).elim (fun e => e ▸ hw) (hr.withdraws p) }

/-- The record found under an id in a table with one record more. -/
theorem find_tput {x : Vehicle} {k u : Nat} : ∀ {t : Table Vehicle}, (∀ p ∈ t, p.1 ≠ k) → (∀ p ∈ t, p.2.id ≠ x.id) →
    ((tput k x t).find? fun p => p.2.id == u).map (·.2) =
      if u = x.id then some x else (t.find? fun p => p.2.id == u).map (·.2)
  | [], _, _ => by
    unfold tput
    rw [List.find?_cons]
    by_cases e : u = x.id
    · simp [e]
    · rw [beq_eq_false_iff_ne.2 (Ne.symm e), if_neg e]
  | (j, y) :: t, hk, hi => by
    have ih := find_tput (u := u) (fun p hp => hk p (List.mem_cons_of_mem _ hp)) fun p hp => hi p (List.mem_cons_of_mem _ hp)
    have ne : y.id ≠ x.id := hi _ List.mem_cons_self
    unfold tput
    split
    · rw [List.find?_cons]
      by_cases e : u = x.id
      · simp [e]
      · rw [beq_eq_false_iff_ne.2 (Ne.symm e), if_neg e]
    · split
      · rename_i e; exact absurd e.symm (hk (j, y) List.mem_cons_self)
      · rw [List.find?_cons, List.find?_cons]
        by_cases e : y.id = u
        · subst e; simp [ne]
        · rw [beq_eq_false_iff_ne.2 e]; exact ih

/-- In a roster with room the record is made. -/
theorem vehicle_addRecord {x : Vehicle} {s : State} (hr : s.roster.length < Config.rosterMax)
    (hi : inRoster s x.id = false) (u : Nat) :
    vehicle (addRecord x s) u = if u = x.id then some x else vehicle s u := by
  obtain ⟨k, hk⟩ := Option.isSome_iff_exists.1 (lowestFree_isSome hr)
  unfold addRecord
  rw [hk]
  simp only
  rw [vehicle_congr (claimStrayHold_rest _ _).2.2.2.1]
  exact find_tput (tget_none_notMem (lowestFree_spec hk).2) (id_notMem_of_not_inRoster hi)

theorem acts_makeAllHoldDue (s : State) : Acts s (makeAllHoldDue s) :=
  (acts_updTli (List.Sublist.refl _) id).trans (acts_relink _ _ _)

theorem acts_makeResumeDue (s : State) : Acts s (makeResumeDue s) :=
  (acts_updTli (List.Sublist.refl _) id).trans (acts_relink _ _ _)

theorem acts_makeRollcallDue (s : State) : Acts s (makeRollcallDue s) :=
  (acts_updTli (List.Sublist.refl _) id).trans (acts_relink _ _ _)

theorem acts_discardResume (s : State) : Acts s (discardResume s) :=
  (acts_updTli (List.Sublist.refl _) id).trans (acts_relink _ _ _)

theorem acts_discardRollcall (s : State) : Acts s (discardRollcall s) :=
  (acts_updTli (List.Sublist.refl _) id).trans (acts_relink _ _ _)

/-! ### Entry to HALTED (R179) -/

theorem suspendConfirm_ids (s : State) : (suspendConfirm s).mq.moves.map (·.id) = s.mq.moves.map (·.id) := by
  show (s.mq.moves.map _).map _ = _
  rw [List.map_map]
  exact List.map_congr_left fun x _ => by simp only [Function.comp_apply]; split <;> rfl

@[simp] theorem enterHalted_asu (s : State) : (enterHalted s).asu = { s.asu with passDue := false } := by
  simp [enterHalted]
@[simp] theorem enterHalted_mq (s : State) : (enterHalted s).mq = (suspendConfirm s).mq := by
  simp [enterHalted, suspendConfirm]
@[simp] theorem enterHalted_mc (s : State) : (enterHalted s).mc = { s.mc with mode := .halted } := by
  simp [enterHalted]
@[simp] theorem enterHalted_mode (s : State) : (enterHalted s).mode = .halted := by simp [State.mode]
@[simp] theorem enterHalted_queue (s : State) :
    (enterHalted s).tli.queue = s.tli.queue ∧ (enterHalted s).tli.strayHolds = s.tli.strayHolds := by
  simp [enterHalted, suspendConfirm, discardResume, makeAllHoldDue, relink]

theorem confirmFits_suspended {md : Mode} {x : Move} (h : ConfirmFits md x) :
    ConfirmFits .halted (match x.confirm with | .at _ => { x with confirm := .suspended } | _ => x) := by
  unfold ConfirmFits at h ⊢
  cases e : x.confirm <;> simp only [e] at h ⊢
  · exact h
  · exact ⟨h.1, by simp⟩
  · exact ⟨h.1, by simp⟩

theorem running_congr {s t : State} (h : t.board = s.board) : t.running = s.running := by
  unfold State.running; rw [h]

theorem occupancy_congr {s t : State} (h : t.fli = s.fli) : occupancy t = occupancy s := by
  unfold occupancy; rw [h]

/-- The engine enters HALTED, outside a dispatch pass or at its end. -/
theorem frames_enterHalted (s : State) (hm : s.mode ≠ .parked) : Frames s (enterHalted s) where
  now := by simp
  power := by simp
  resetPin := by simp
  haltPin := by simp
  freeCount := by simp
  layout := by simp
  pending := by simp
  mc := by
    rw [enterHalted_mc]
    cases h : s.mode with
    | parked => exact absurd h hm
    | dispatching => exact .inr ⟨rfl, rfl⟩
    | halted => exact .inl (by rw [← h]; rfl)
  segments := by simp
  ageAt := by simp [suspendConfirm]
  dispatchAt := by simp
  passRunning := by simp
  queue := by simp
  inbound := by simp
  reservations := by simp
  sent := by simp
  outbound := by simp
  flags := by simp
  alarm := AlarmOk.congr (running_congr (by simp)) (by simp) (by simp)
  stores := fun h =>
    { segments := by simpa using h.segments
      flags := by simpa using h.flags
      strays := by simpa using h.strays
      roster := by simpa using h.roster
      waits := by simpa using h.waits
      outClaims := by simpa using h.outClaims
      inClaims := by simpa using h.inClaims
      claims := by simpa using h.claims
      occupancy := by rw [occupancy_congr (s := s) (by simp)]; exact h.occupancy
      moves :=
        { size := by
            rw [enterHalted_mq]
            show (List.map _ s.mq.moves).length ≤ _
            rw [List.length_map]; exact h.moves.size
          ids := by rw [enterHalted_mq, suspendConfirm_ids]; exact h.moves.ids
          arrivals := by rw [enterHalted_mq]; exact h.moves.arrivals }
      confirm := by
        rw [enterHalted_mq, enterHalted_mode]
        intro y hy
        obtain ⟨x, hx, rfl⟩ := List.mem_map.1 hy
        exact confirmFits_suspended (h.confirm x hx)
      passDue := by simp
      deferred := by simpa using h.deferred }

theorem acts_enterHalted (s : State) (hm : s.mode ≠ .parked) : Acts s (enterHalted s) :=
  { frames_enterHalted s hm with
    agree := fun h => by
      rw [(frames_enterHalted s hm).foreign]
      exact h.agree.views (by simp) (by simp) (by simp) }

end Sys2Proof.Machine
end

