-- ==== Sys2Proof/Laws/Events.lean ====
section
/-! SUPPORT. Occurrences, reports, peer frames and the changes of moves act (Machine/Flags.lean). -/

namespace Sys2Proof.Machine

/-! ### Occurrences (R169 to R171, R178) -/

theorem acts_haltOccurrence (s : State) : Acts s (haltOccurrence s) := by
  unfold haltOccurrence
  split
  · rename_i h
    split
    · rename_i k; exact acts_updAsu rfl rfl (fun e => .inl e) fun _ => .inr k
    · exact acts_enterHalted s (by rw [h]; decide)
  · exact Acts.refl s

/-- A set flag leaves the flags already set as they were. -/
theorem flags_tput {s : State} {k : EventKind} {d : Detail} (h : flagSet s k = false) (j : Nat) (e : Detail)
    (hj : tget j s.su.flags = some e) : tget j (tput k.code d s.su.flags) = some e := by
  rw [tget_tput]
  split
  · rename_i c
    subst c
    unfold flagSet at h
    rw [hj] at h
    cases h
  · exact hj

/-- The flag and first-occurrence record, before the ALARM output follows. -/
theorem acts_occur (notify : Detail → State → State) (hn : ∀ d s, Acts s (notify d s)) (k : EventKind) (d : Detail)
    (s : State) : Acts s (occur notify k d s) := by
  -- everything but the ALARM output, which `updateAlarm` sets afresh
  have step : ∀ (t : State), Acts s t ∨ (flagSet s k = false ∧
      Acts (s.updSu fun u => { u with flags := tput k.code { d with kind := k, severity := severityOf s k } u.flags }) t) →
      Acts s (updateAlarm t) := by
    intro t h
    have alarm : AlarmOk (updateAlarm t) := fun _ => by
      show alarmDue t = alarmDue (updateAlarm t)
      exact (alarmDue_congr rfl rfl).symm
    rcases h with a | ⟨free, a⟩
    · exact { a with
        alarm := fun _ => alarm
        stores := fun h => { a.stores h with }
        agree := fun h => a.agree h }
    · exact { a with
        flags := fun j e h => a.flags j e (flags_tput free j e h)
        alarm := fun _ => alarm
        stores := fun h => { a.stores { h with flags := tableWf_tput h.flags } with }
        agree := fun h => a.agree { h with flags := tableWf_tput h.flags } }
  unfold occur
  have main : Acts s (updateAlarm (if flagSet s k = true then s else
      if severityOf s k = .log then
        s.updSu fun u => { u with flags := tput k.code { d with kind := k, severity := severityOf s k } u.flags }
      else notify { d with kind := k, severity := severityOf s k }
        (s.updSu fun u => { u with flags := tput k.code { d with kind := k, severity := severityOf s k } u.flags }))) := by
    apply step
    by_cases f : flagSet s k = true
    · rw [if_pos f]; exact .inl (Acts.refl s)
    · rw [if_neg f]
      refine .inr ⟨by simpa using f, ?_⟩
      split
      · exact Acts.refl _
      · exact hn _ _
  simp only
  split
  · exact main.trans (acts_haltOccurrence _)
  · exact main

theorem reportLimit_lt : Config.reportLimit ≤ Config.outboundMax := by decide

theorem acts_notifyLost (d : Detail) (s : State) : Acts s (notifyLost d s) := by
  unfold notifyLost
  split
  · rename_i h; exact acts_pushOut (h.trans_le reportLimit_lt)
  · exact acts_occur _ (fun _ t => Acts.refl t) _ _ _

theorem acts_notify (d : Detail) (s : State) : Acts s (notify d s) := by
  unfold notify
  split
  · rename_i h; exact acts_pushOut (h.trans_le reportLimit_lt)
  · exact acts_occur _ acts_notifyLost _ _ _

theorem acts_raise (k : EventKind) (d : Detail) (s : State) : Acts s (raise k d s) := acts_occur _ acts_notify _ _ _

/-! ### Reports and peer frames (R161) -/

theorem acts_reportMove (m : Nat) (st : ReportState) (v a : Nat) (s : State) : Acts s (reportMove m st v a s) := by
  unfold reportMove
  split
  · rename_i h; exact acts_pushOut (h.trans_le reportLimit_lt)
  · exact acts_raise _ _ _

theorem acts_sendPeer (dst kind tag seg v : Nat) (extra : List Byte) (s : State) :
    Acts s (sendPeer dst kind tag seg v extra s) := by
  unfold sendPeer
  split
  · rename_i h; exact acts_pushOut h
  · exact acts_raise _ _ _

/-! ### Changes of moves (R92, R99) -/

/-- The record found under an id carries that id. -/
theorem findMove_id {s : State} {m : Nat} {x : Move} (h : findMove s m = some x) : x.id = m ∧ x ∈ s.mq.moves :=
  ⟨by simpa using List.find?_some h, List.mem_of_find?_eq_some h⟩

/-- A confirm deadline fits a change that leaves ASSIGNED, and one that enters it with a fitting deadline. -/
theorem acts_changeMove (m : Nat) (f : Move → Move) (s : State) (hid : ∀ x, x.id = m → (f x).id = m)
    (hc : ∀ x, x.id = m → (f x).state = .assigned → ConfirmFits s.mode x → ConfirmFits s.mode (f x)) :
    Acts s (changeMove m f s) := by
  unfold changeMove
  split
  · exact Acts.refl s
  · rename_i x hx
    obtain ⟨hxid, hmem⟩ := findMove_id hx
    refine Acts.trans ?_ (acts_reportMove _ _ _ _ _)
    -- the record found fits, so what replaces it fits
    have fits : (∀ y ∈ s.mq.moves, ConfirmFits s.mode y) →
        ConfirmFits s.mode (if (f x).state = .assigned then f x else { f x with confirm := .absent }) := by
      intro h
      split
      · rename_i e; exact hc x hxid e (h x hmem)
      · rename_i e; exact e
    refine Acts.trans (acts_updMq rfl (fun h => ?_) fun h => ?_) (acts_prunePreempts _)
    · exact { size := by rw [List.length_map]; exact h.size
              ids := by
                rw [setMove_ids m _ fun _ _ => by split <;> exact hid x hxid]; exact h.ids
              arrivals := h.arrivals }
    · intro y hy
      obtain ⟨z, hz, rfl⟩ := List.mem_map.1 hy
      split
      · exact fits h
      · exact h z hz

/-- A change to a state other than ASSIGNED. -/
theorem acts_changeMove_leaving (m : Nat) (f : Move → Move) (s : State) (hid : ∀ x, x.id = m → (f x).id = m)
    (hs : ∀ x, x.id = m → (f x).state ≠ .assigned) : Acts s (changeMove m f s) :=
  acts_changeMove m f s hid fun x e k => absurd k (hs x e)

theorem acts_removeMove (m : Nat) (out : ReportState) (s : State) : Acts s (removeMove m out s) := by
  unfold removeMove
  split
  · exact Acts.refl s
  · refine Acts.trans ?_ (acts_reportMove _ _ _ _ _)
    exact acts_deleteMove m s

theorem acts_returnToWaiting (m : Nat) (s : State) : Acts s (returnToWaiting m s) := by
  unfold returnToWaiting
  refine Acts.trans ?_ (acts_setPassDue _)
  exact acts_changeMove_leaving _ _ _ (fun _ e => e) fun _ _ => by simp

theorem acts_foldl {α : Type} (f : State → α → State) (h : ∀ s a, Acts s (f s a)) :
    ∀ (l : List α) (s : State), Acts s (l.foldl f s)
  | [], s => Acts.refl s
  | a :: l, s => (h s a).trans (acts_foldl f h l _)

theorem acts_returnAll (ms : List Nat) (s : State) : Acts s (returnAll ms s) :=
  acts_foldl _ (fun s m => acts_returnToWaiting m s) ms s

/-- A record whose id no record holds is appended where there is room (R88, R89). -/
theorem acts_appendMove (x : Move) (s : State) (hroom : s.mq.moves.length < Config.movesMax)
    (hnew : findMove s x.id = none) (hc : x.state ≠ .assigned ∧ x.confirm = .absent) : Acts s (appendMove x s) := by
  refine acts_updMq rfl (fun h => ?_) fun h => ?_
  · exact
      { size := by
          show (s.mq.moves ++ [_]).length ≤ _
          rw [List.length_append]; exact hroom
        ids := by
          show ((s.mq.moves ++ [{ x with seq := s.mq.arrivals }]).map fun y : Move => y.id).Nodup
          rw [List.map_append, List.nodup_append]
          refine ⟨h.ids, List.nodup_singleton _, ?_⟩
          intro a ha b hb
          obtain ⟨y, hy, rfl⟩ := List.mem_map.1 ha
          have e : b = x.id := by simpa using hb
          subst e
          unfold findMove at hnew
          rw [List.find?_eq_none] at hnew
          simpa using hnew y hy
        arrivals := by
          show (if s.mq.arrivals < Config.arrivalsTop then s.mq.arrivals + 1 else s.mq.arrivals) ≤ _
          have := h.arrivals
          split <;> omega }
  · intro y hy
    rcases List.mem_append.1 hy with k | k
    · exact h y k
    · have e : y = { x with seq := s.mq.arrivals } := by simpa using k
      subst e
      unfold ConfirmFits
      simp only [hc.2]
      exact hc.1

/-- At most 128 records leave an id from 65535 down free (R93). -/
theorem freshMoveId_free (s : State) (h : s.mq.moves.length ≤ Config.movesMax) : findMove s (freshMoveId s) = none := by
  unfold freshMoveId
  cases e : ((List.range 129).map (65535 - ·)).find? fun m => (findMove s m).isNone with
  | some m => simpa using List.find?_some e
  | none =>
    exfalso
    rw [List.find?_eq_none] at e
    have sub : ((List.range 129).map (65535 - ·)) ⊆ s.mq.moves.map (·.id) := by
      intro m hm
      have k := e m hm
      cases f : findMove s m with
      | none => rw [f] at k; exact absurd rfl k
      | some x => exact List.mem_map.2 ⟨x, (findMove_id f).2, (findMove_id f).1⟩
    have nd : ((List.range 129).map (65535 - ·)).Nodup :=
      List.nodup_range.map_on fun a ha b hb e => by
        have ha := List.mem_range.1 ha; have hb := List.mem_range.1 hb; omega
    have len := (nd.subperm sub).length_le
    simp only [List.length_map, List.length_range] at len
    have : Config.movesMax = 128 := rfl
    omega

theorem acts_createUnrouted (v c : Nat) (s : State) : Acts s (createUnrouted v c s) := by
  unfold createUnrouted
  split
  · rename_i h
    refine Acts.trans ?_ (acts_reportMove _ _ _ _ _)
    refine Acts.trans ?_ (acts_vehicle _ _ _ fun _ => ⟨rfl, rfl, rfl⟩)
    exact acts_appendMove _ _ h (freshMoveId_free s h.le) ⟨by simp, rfl⟩
  · exact acts_vehicle _ _ _ fun _ => ⟨rfl, rfl, rfl⟩

end Sys2Proof.Machine
end

