-- ==== Sys2Proof/Laws/Blocks.lean ====
section
/-! SUPPORT. Path builds, boundary claims and the chains of the Block Control Unit act (Machine/PathWalker.lean,
Claims.lean, Reservation.lean). -/

namespace Sys2Proof.Machine

theorem acts_buildPath (v : Nat) (s : State) : Acts s (buildPath v s) := by
  unfold buildPath
  split
  · exact Acts.refl s
  · split
    · simp only
      split
      · refine Acts.trans ?_ (acts_raise _ _ _)
        refine Acts.trans ?_ (acts_vehicle _ _ _ fun _ => ⟨rfl, rfl, rfl⟩)
        exact acts_vehicle _ _ _ fun _ => ⟨rfl, rfl, rfl⟩
      · refine Acts.trans ?_ (acts_vehicle _ _ _ fun _ => ⟨rfl, rfl, rfl⟩)
        exact acts_vehicle _ _ _ fun _ => ⟨rfl, rfl, rfl⟩
    · exact Acts.refl s

/-! ### Claims (R129, R130, R134, R139) -/

theorem frames_dropOutClaim (tag : Nat) (s : State) : Frames s (dropOutClaim tag s) :=
  frames_updBxu (fun h => (List.length_filter_le _ _).trans h) id fun k => k.out List.filter_sublist

/-- A GRANTED entry goes once its segment is no longer BORROWED under it. -/
theorem acts_dropOutClaim (tag : Nat) (s : State)
    (h : Sound s → ∀ e ∈ s.bxu.outClaims, e.tag = tag → e.phase = .granted ∧
      resIn s.srt e.segment ≠ some (.borrowed e.vehicle)) : Acts s (dropOutClaim tag s) :=
  (frames_dropOutClaim tag s).acts fun k =>
    { k.agree with
      claiming := fun v i => (k.agree.claiming v i).trans
        ⟨fun ⟨e, m, es, ev, ep⟩ => ⟨e, List.mem_filter.2 ⟨m, by simpa using fun t => ep.1 (h k e m t).1⟩, es, ev, ep⟩,
          fun ⟨e, m, x⟩ => ⟨e, (List.mem_filter.1 m).1, x⟩⟩
      borrowed := fun v i b => by
        obtain ⟨e, m, es, ev, ep⟩ := k.agree.borrowed v i b
        exact ⟨e, List.mem_filter.2 ⟨m, by simpa using fun t => (h k e m t).2 (by rw [es, ev]; exact b)⟩, es, ev, ep⟩
      claims := fun e m => k.agree.claims e (List.mem_filter.1 m).1 }

theorem acts_dropInClaim (cell tag : Nat) (s : State) : Acts s (dropInClaim cell tag s) :=
  acts_updBxu (fun h => (List.length_filter_le _ _).trans h) (fun k => k.inn List.filter_sublist) rfl

/-- A claim is made for a FOREIGN segment while the list has room (R129). -/
theorem acts_makeClaim (v i : Nat) (s : State) (h : outListHasRoom s = true) (hi : resOf s i = some .foreign) :
    Acts s (makeClaim v i s) := by
  unfold makeClaim
  split
  · split
    · exact Acts.refl s
    · rename_i free
      have room : s.bxu.outClaims.length < Config.outClaimsMax := of_decide_eq_true h
      obtain ⟨lo, hi', tagFree⟩ := nextTag_spec s.bxu (by have : Config.outClaimsMax = 8 := rfl; omega)
      have nf : ∀ c ∈ s.bxu.outClaims, ¬ (c.vehicle = v ∨ c.segment = i) := by simpa [claimNames] using free
      have hi : resIn s.srt i = some .foreign := hi
      refine Acts.trans ?_ (acts_sendPeer _ _ _ _ _ _ _)
      refine Frames.acts (Frames.trans (frames_updBxu (fun _ => ?_) id (fun k => k.addOut ⟨lo, hi'⟩ fun c hc =>
        ⟨tagFree c hc, fun e => nf c hc (.inr e), fun e => nf c hc (.inl e)⟩)) (frames_setRes _ _ _)) fun k => ?_
      · rw [List.length_append]; exact room
      · refine k.agree.segment (i := i) (p := .claiming v) hi ?_ ?_ rfl (by simp [Res.plain]) List.nodup_nil ?_ k.agree.listed ?_ ?_ (by simp) fun _ _ _ => rfl
        · rw [resIn_setRes, if_pos rfl]; exact congrArg _ hi
        · intro j e; rw [resIn_setRes, if_neg e]; rfl
        · intro u j
          split
          · rename_i e
            subst e
            rw [show u ∈ (Res.claiming v).named ↔ False by simp [Res.named]]
            exact (k.agree.holds u j).trans (by rw [namedIn_of hi]; simp [Res.named])
          · exact Iff.rfl
        · intro e es
          refine ⟨fun m => (List.mem_append.1 m).resolve_right fun l => ?_, fun m => List.mem_append_left _ m⟩
          exact es (by rw [List.mem_singleton.1 l])
        · intro u
          constructor
          · intro e
            cases e
            exact ⟨_, List.mem_append_right _ (List.mem_singleton.2 rfl), rfl, rfl, by simp⟩
          · rintro ⟨e, m, es, ev, ep⟩
            rcases List.mem_append.1 m with m | m
            · exact absurd (.inr es) (nf e m)
            · rw [List.mem_singleton.1 m] at ev; rw [← ev]
  · exact Acts.refl s

/-- The segment of a claim is named by no vehicle but the claimant. -/
theorem Sound.claimNamed {s : State} {e : OutClaim} (h : Sound s) (he : e ∈ s.bxu.outClaims) {u : Nat}
    (hu : e.segment ∈ heldIn s.roster u) : u = e.vehicle ∧ e.phase = .granted := by
  obtain ⟨q, hq, kq⟩ := h.agree.claims e he
  have m := (h.agree.holds u e.segment).1 hu
  rw [namedIn_of hq] at m
  cases q <;> simp [Res.named] at m <;> simp [Res.isForeignKind] at kq
  subst m
  obtain ⟨c, hc, es, ev, ep⟩ := h.agree.borrowed u e.segment hq
  have : c = e := List.inj_on_of_nodup_map h.claims.segments hc he es
  exact ⟨this ▸ ev.symm, this ▸ ep.2 trivial⟩

/-- An entry of the list ends (R129, R134). -/
theorem acts_endOutClaim (e : OutClaim) (s : State) (he : e ∈ s.bxu.outClaims) : Acts s (endOutClaim e s) := by
  have frames : Frames s (endOutClaim e s) := by
    have base := (frames_setRes e.segment .foreign s).trans (frames_dropOutClaim e.tag _)
    unfold endOutClaim
    simp only
    split
    · exact base
    · exact (base.trans (frames_updVehicle _ _ _ (by exact fun _ h => h) (by exact fun _ h => h))).trans (acts_makeGrantDue _ _).toFrames
  refine frames.acts fun k => ?_
  have unique : ∀ c ∈ s.bxu.outClaims, c.tag = e.tag ∨ c.segment = e.segment → c = e := fun c hc h =>
    h.elim (fun t => List.inj_on_of_nodup_map k.claims.outTags hc he t)
      fun t => List.inj_on_of_nodup_map k.claims.segments hc he t
  have srt : (endOutClaim e s).srt = (setRes e.segment .foreign s).srt := by
    unfold endOutClaim; simp only; split <;> simp
  have out : (endOutClaim e s).bxu.outClaims = s.bxu.outClaims.filter fun c => c.tag ≠ e.tag := by
    unfold endOutClaim; simp only; split <;> simp [dropOutClaim]
  have held : ∀ u, heldIn (endOutClaim e s).roster u = (heldIn s.roster u).filter (· ≠ e.segment) := by
    have gone : ∀ u, e.segment ∉ heldIn s.roster u →
        heldIn s.roster u = (heldIn s.roster u).filter (· ≠ e.segment) := fun u n => by
      rw [eq_comm, List.filter_eq_self]
      intro j m
      simpa using fun h : j = e.segment => n (h ▸ m)
    intro u
    unfold endOutClaim
    simp only
    split
    · rename_i t ph
      exact gone u fun m => by have := (k.claimNamed he m).2; rw [ph] at this; cases this
    · rw [heldIn_makeGrantDue, heldIn_updVehicle _ _ _ _ (by exact fun _ h => h), vehicle_congr (s := s) (by simp)]
      by_cases eu : u = e.vehicle
      · rw [heldIn_eq]
        cases vehicle s u with
        | none => rfl
        | some x => simp [eu]
      · rw [← gone u fun m => eu (k.claimNamed he m).1, heldIn_eq]
        simp [eu]
  obtain ⟨q, hq, kq⟩ := k.agree.claims e he
  refine k.agree.segment (i := e.segment) (p := .foreign) hq ?_ ?_ kq.symm (by simp [Res.plain]) List.nodup_nil ?_ ?_ ?_ ?_ (by simp) fun _ _ _ => rfl
  · rw [srt, resIn_setRes, if_pos rfl, hq]; rfl
  · intro j h; rw [srt, resIn_setRes, if_neg h]
  · intro u j
    rw [held, List.mem_filter]
    split
    · rename_i h; simp [h, Res.named]
    · rename_i h; simp [h]
  · intro u; rw [held]; exact (k.agree.listed u).filter _
  · intro c hs
    rw [out, List.mem_filter]
    refine ⟨fun m => m.1, fun m => ⟨m, ?_⟩⟩
    simpa using fun t => hs (by rw [unique c m (.inl t)])
  · intro v
    refine ⟨(by cases ·), fun ⟨c, m, es, _⟩ => ?_⟩
    rw [out, List.mem_filter] at m
    rw [unique c m.1 (.inr es)] at m
    simp at m

theorem outClaimOf_mem {s : State} {v : Nat} {e : OutClaim} (h : outClaimOf s v = some e) :
    e ∈ s.bxu.outClaims ∧ e.vehicle = v :=
  ⟨List.mem_of_find?_eq_some h, by simpa using List.find?_some h⟩

theorem acts_withdrawClaim (v : Nat) (s : State) : Acts s (withdrawClaim v s).2 := by
  unfold withdrawClaim
  split
  · exact Acts.refl s
  · rename_i e h
    exact (acts_sendPeer _ _ _ _ _ _ s).trans (acts_endOutClaim _ _ (by simpa using (outClaimOf_mem h).1))

theorem acts_withdrawClaiming (v : Nat) (s : State) : Acts s (withdrawClaiming v s).2 := by
  unfold withdrawClaiming
  split
  · exact acts_withdrawClaim v s
  · exact Acts.refl s

theorem acts_sendRefuse (cell tag seg v : Nat) (why : RefuseReason) (s : State) :
    Acts s (sendRefuse cell tag seg v why s) := acts_sendPeer _ _ _ _ _ _ _

/-- A claim is granted for a FREE segment and a vehicle without a record, in a roster with room (R139). -/
theorem acts_grantClaim (e : InClaim) (s : State) (h : inRoster s e.vehicle = false) (hr : rosterHasRoom s = true)
    (hf : resOf s e.segment = some .free) : Acts s (grantClaim e s) := by
  unfold grantClaim
  simp only
  refine Acts.trans ?_ (acts_sendPeer _ _ _ _ _ _ _)
  refine Acts.trans ?_ (acts_updBxu (fun k => by rw [List.length_map]; exact k)
    (fun k => k.inPhases fun c => by split <;> exact ⟨rfl, rfl⟩) rfl)
  refine Frames.acts ((frames_addRecord (arrivingRecord e.vehicle e.segment) s h (Nat.zero_le _)).trans
    (frames_setRes _ _ _)) fun k => ?_
  have hf : resIn s.srt e.segment = some .free := hf
  have held : ∀ u, heldIn (addRecord (arrivingRecord e.vehicle e.segment) s).roster u =
      if u = e.vehicle then [e.segment] else heldIn s.roster u := fun u => by
    rw [heldIn_eq, vehicle_addRecord (of_decide_eq_true hr) h, heldIn_eq]
    show Option.getD (Option.map _ (if u = e.vehicle then _ else _)) _ = _
    split <;> rfl
  have none : heldIn s.roster e.vehicle = [] := by
    rw [inRoster_eq] at h
    rw [heldIn_eq, Option.isNone_iff_eq_none.1 (Option.isSome_eq_false_iff.1 h)]
    rfl
  refine k.agree.own (i := e.segment) (p := .reserved e.vehicle) hf ?_ ?_ rfl rfl (by simp [Res.plain]) (List.nodup_singleton _) ?_ ?_ (by simp)
  · rw [resIn_setRes, if_pos rfl, (addRecord_rest _ _).2.2.1, hf]; rfl
  · intro j n; rw [resIn_setRes, if_neg n, (addRecord_rest _ _).2.2.1]
  · intro u j
    rw [(setRes_rest _ _ _).2.2.1, held]
    by_cases eu : u = e.vehicle
    · subst eu
      rw [if_pos rfl, none]
      split
      · rename_i n; simp [n, Res.named]
      · rename_i n; simp [n]
    · rw [if_neg eu]
      split
      · rename_i n; rw [n, k.agree.holds, namedIn_of hf]; simp [Res.named, eu]
      · exact Iff.rfl
  · intro u
    rw [(setRes_rest _ _ _).2.2.1, held]
    split
    · exact List.nodup_singleton _
    · exact k.agree.listed u

/-! ### Release, wait lists, holdings (R26, R33) -/

theorem frames_releaseSegs (v : Nat) : ∀ (is : List Nat) (s : State), Frames s (releaseSegs v is s)
  | [], s => Frames.refl s
  | i :: is, s => (frames_modRes i (releasedRes v) s).trans (frames_releaseSegs v is _)

@[simp] theorem releaseSegs_roster (v : Nat) : ∀ (is : List Nat) (s : State), (releaseSegs v is s).roster = s.roster
  | [], _ => rfl
  | i :: is, s => (releaseSegs_roster v is _).trans (by simp)

@[simp] theorem releaseSegs_bxu (v : Nat) : ∀ (is : List Nat) (s : State), (releaseSegs v is s).bxu = s.bxu
  | [], _ => rfl
  | i :: is, s => (releaseSegs_bxu v is _).trans (by simp)

theorem resIn_releaseSegs (v j : Nat) : ∀ (is : List Nat) (s : State), is.Nodup →
    resIn (releaseSegs v is s).srt j = if j ∈ is then (resIn s.srt j).map (releasedRes v) else resIn s.srt j
  | [], _, _ => by simp [releaseSegs]
  | i :: is, s, h => by
    obtain ⟨n, h⟩ := List.nodup_cons.1 h
    refine (resIn_releaseSegs v j is (releaseSeg v i s) h).trans ?_
    rw [releaseSeg, resIn_modRes]
    by_cases e : j = i
    · subst e; simp [n]
    · simp [e]

/-- The record of an id, by distinct ids. -/
theorem vehicle_of_mem {s : State} (h : RosterOk s.roster) {q : Nat × Vehicle} (hq : q ∈ s.roster) :
    vehicle s q.2.id = some q.2 := by
  unfold vehicle findVehicle
  cases e : s.roster.find? (fun p => p.2.id == q.2.id) with
  | none => exact absurd (BEq.rfl : (q.2.id == q.2.id) = true) (List.find?_eq_none.1 e q hq)
  | some p =>
    have m := List.mem_of_find?_eq_some e
    have i : p.2.id = q.2.id := by simpa using List.find?_some e
    have : p = q := List.inj_on_of_nodup_map h.ids m hq i
    rw [this]; rfl

/-- Entries leave a held list as they are released (R26, R44). -/
theorem acts_releaseTo (v : Nat) (is : List Nat) (f : Vehicle → Vehicle) (s : State)
    (hf : ∀ x, (f x).id = x.id ∧ (f x).due = x.due)
    (hs : Sound s → ∀ x, vehicle s v = some x → is.Nodup ∧ (f x).held.Nodup ∧
      ∀ i, i ∈ (f x).held ↔ i ∈ x.held ∧ i ∉ is) (hv : (vehicle s v).isSome = true) :
    Acts s (updVehicle v f (releaseSegs v is s)) := by
  have hid : ∀ x, x.id = v → (f x).id = v := fun x e => (hf x).1.trans e
  obtain ⟨x, hx⟩ := Option.isSome_iff_exists.1 hv
  refine ((frames_releaseSegs v is s).trans (frames_updVehicle v f _ hid fun x w => by rw [(hf x).2]; exact w)).acts fun k => ?_
  obtain ⟨nd, nd', iff⟩ := hs k x hx
  have changed : heldIn (updVehicle v f (releaseSegs v is s)).roster v = (f x).held :=
    heldIn_changed hid (by rw [vehicle_congr (releaseSegs_roster _ _ _)]; exact hx)
  have ag := k.agree.release (v := v) (is := is) (t' := (updVehicle v f (releaseSegs v is s)).srt)
    (r' := (updVehicle v f (releaseSegs v is s)).roster)
    (fun j => by rw [(updVehicle_rest _ _ _).2.2.1]; exact resIn_releaseSegs v j is s nd)
    (fun u e => by rw [heldIn_other hid e, releaseSegs_roster]) (by rw [changed]; exact nd')
    fun j => by rw [changed, heldIn_of hx]; exact iff j
  exact ag.views (fun _ => rfl) (fun _ => rfl) (by simp)

theorem acts_enterWait (v i : Nat) (s : State) : Acts s (enterWait v i s) := by
  unfold enterWait
  split
  · exact Acts.refl s
  · simp only
    split
    · rename_i h
      have base := (acts_leaveWaits v s).trans
        (acts_appendWait i ⟨.vehicle v (((vehicle (leaveWaits v s) v).bind Vehicle.lastHeld).getD 0), s.now⟩ _ h)
      split
      · exact base.trans (acts_raise _ _ _)
      · exact base
    · exact acts_leaveWaits v s

theorem frames_appendHeld (v i : Nat) (s : State) : Frames s (appendHeld v i s) :=
  (frames_updVehicle _ _ _ (by exact fun _ h => h) (by exact fun _ h => h)).trans (acts_makeGrantDue _ _).toFrames

theorem heldIn_appendHeld {v i : Nat} {s : State} {x : Vehicle} (hx : vehicle s v = some x) (u : Nat) :
    heldIn (appendHeld v i s).roster u = if u = v then x.held ++ [i] else heldIn s.roster u := by
  unfold appendHeld
  rw [heldIn_makeGrantDue]
  split
  · rename_i e; subst e; exact heldIn_changed (by exact fun _ h => h) hx
  · rename_i e; exact heldIn_other (by exact fun _ h => h) e

/-- A FREE segment is reserved for a vehicle of the roster (R28, R37). -/
theorem acts_reserveFor (v i : Nat) (s : State) (hv : (vehicle s v).isSome = true) (hi : resOf s i = some .free) :
    Acts s (reserveFor v i s) := by
  obtain ⟨x, hx⟩ := Option.isSome_iff_exists.1 hv
  refine ((frames_appendHeld v i s).trans (frames_setRes _ _ _)).acts fun k => ?_
  have hi : resIn s.srt i = some .free := hi
  have srt : (appendHeld v i s).srt = s.srt := by simp [appendHeld]
  have nobody : ∀ u, i ∉ heldIn s.roster u := fun u m => by
    rw [k.agree.holds, namedIn_of hi] at m; cases m
  refine k.agree.own (i := i) (p := .reserved v) hi ?_ ?_ rfl rfl (by simp [Res.plain]) (List.nodup_singleton _) ?_ ?_ (by simp [appendHeld])
  · rw [resIn_setRes, if_pos rfl, srt, hi]; rfl
  · intro j n; rw [resIn_setRes, if_neg n, srt]
  · intro u j
    rw [(setRes_rest _ _ _).2.2.1, heldIn_appendHeld hx]
    by_cases eu : u = v
    · subst eu
      rw [if_pos rfl, ← heldIn_of hx, List.mem_append, List.mem_singleton]
      split
      · rename_i n; simp [n, Res.named]
      · rename_i n; simp [n]
    · rw [if_neg eu]
      split
      · rename_i n; rw [n]; simp [nobody u, Res.named, eu]
      · exact Iff.rfl
  · intro u
    rw [(setRes_rest _ _ _).2.2.1, heldIn_appendHeld hx]
    split
    · rw [← heldIn_of hx]; exact nodup_concat (k.agree.listed v) (nobody v)
    · exact k.agree.listed u

theorem resOf_leaveWaits (v i : Nat) (s : State) : resOf (leaveWaits v s) i = resOf s i :=
  resIn_map (fun x => { x with waits := x.waits.filter fun e => !e.isVehicle v }) i s.srt fun _ => rfl

theorem resOf_leaveClaimWait (c t i : Nat) (s : State) : resOf (leaveClaimWait c t s) i = resOf s i :=
  resIn_map (fun x => { x with waits := x.waits.filter fun e => !e.isClaim c t }) i s.srt fun _ => rfl

theorem admits_vehicle {s : State} {v i : Nat} (h : admits s v i = true) : (vehicle s v).isSome = true := by
  unfold admits at h
  split at h
  · cases h
  · rename_i x e; rw [e]; rfl

/-! ### Tasks -/

theorem acts_claimWins (i v tag cell : Nat) (s : State) (hr : rosterHasRoom s = true) (hi : resOf s i = some .free) :
    Acts s (claimWins i v tag cell s).2 := by
  unfold claimWins
  simp only
  refine Acts.trans (acts_leaveClaimWait cell tag s) ?_
  split
  · exact Acts.refl _
  · rename_i e he
    have es : e.segment = i := by simpa using (Option.filter_eq_some_iff.1 he).2
    split
    · refine Acts.trans ?_ (acts_sendRefuse _ _ _ _ _ _)
      exact acts_dropInClaim _ _ _
    · rename_i h
      exact acts_grantClaim _ _ (by simpa using h) (by simpa [rosterHasRoom] using hr)
        (by rw [es, resOf_leaveClaimWait]; exact hi)

/-- The winner waits for the segment and is admissible there. -/
theorem winner_admissible {s : State} {i : Nat} {e : WaitEntry} (h : winner s i = some e) :
    e ∈ waitsOf s i ∧ admissible s i e = true := by
  unfold winner at h
  exact List.mem_filter.1 (leastBy_mem h)

theorem outListHasRoom_leaveWaits (v : Nat) (s : State) : outListHasRoom (leaveWaits v s) = outListHasRoom s := by
  unfold outListHasRoom; simp

theorem acts_arbitrate (i : Nat) (s : State) : Acts s (arbitrate i s).2 := by
  unfold arbitrate
  split
  · rename_i hf
    split
    · exact Acts.refl s
    · rename_i e he
      have h := (winner_admissible he).2
      unfold admissible at h
      rw [if_neg (by rw [hf]; simp)] at h
      split
      · rename_i v f hw
        rw [hw] at h
        refine (acts_leaveWaits _ s).trans (acts_reserveFor _ _ _ ?_ (by rw [resOf_leaveWaits]; exact hf))
        rw [vehicle_congr (leaveWaits_rest v s).2.2.1]
        exact admits_vehicle h
      · rename_i v tag cell cls hw
        rw [hw, Bool.and_eq_true] at h
        exact acts_claimWins _ _ _ _ _ h.2 hf
  · rename_i hf
    split
    · exact Acts.refl s
    · rename_i e he
      split
      · rename_i v f hw
        have room : outListHasRoom s = true := by
          have h := (winner_admissible he).2
          unfold admissible at h
          rw [if_pos hf, hw] at h
          exact h
        refine (acts_leaveWaits v s).trans (acts_makeClaim v i _ ?_ (by rw [resOf_leaveWaits]; exact hf))
        rw [outListHasRoom_leaveWaits]; exact room
      · exact Acts.refl s
  · exact Acts.refl s

theorem acts_withdrawAmong (v : Nat) (is : List Nat) (s : State) : Acts s (withdrawAmong v is s) := by
  unfold withdrawAmong
  split
  · exact Acts.refl s
  · split
    · exact acts_withdrawClaim v s
    · exact Acts.refl s

/-- The end of a claim takes at most its segment from the held list. -/
theorem withdrawClaim_held {s : State} {v : Nat} {x : Vehicle} (hx : vehicle s v = some x) :
    ∃ y, vehicle (withdrawClaim v s).2 v = some y ∧ (y.held = x.held ∨ ∃ e, outClaimOf s v = some e ∧
      e.phase = .granted ∧ y.held = x.held.filter (· ≠ e.segment)) := by
  unfold withdrawClaim
  split
  · exact ⟨x, hx, .inl rfl⟩
  · rename_i e he
    have ev := (outClaimOf_mem he).2
    unfold endOutClaim
    simp only
    split
    · exact ⟨x, by rw [vehicle_congr (s := s) (by simp)]; exact hx, .inl rfl⟩
    · rename_i ph
      rw [vehicle_makeGrantDue, vehicle_updVehicle _ _ _ _ (by exact fun _ h => h), vehicle_congr (s := s) (by simp), hx]
      refine ⟨_, rfl, .inr ⟨e, he, ph, ?_⟩⟩
      simp only [ev, if_true]
      split <;> rfl

theorem withdrawAmong_held {s : State} {v : Nat} {is : List Nat} {x : Vehicle} (hx : vehicle s v = some x) :
    ∃ y, vehicle (withdrawAmong v is s) v = some y ∧ (y.held = x.held ∨ ∃ j ∈ is, y.held = x.held.filter (· ≠ j)) := by
  unfold withdrawAmong
  split
  · exact ⟨x, hx, .inl rfl⟩
  · rename_i e he
    split
    · rename_i h
      obtain ⟨y, hy, k | ⟨c, hc, _, k⟩⟩ := withdrawClaim_held hx
      · exact ⟨y, hy, .inl k⟩
      · rw [he] at hc
        cases hc
        exact ⟨y, hy, .inr ⟨_, h.1, k⟩⟩
    · exact ⟨x, hx, .inl rfl⟩

/-- Entries leave a held list at a report or an alignment (R26, R46). -/
theorem acts_releaseEntries (v : Nat) (is held : List Nat) (f : Vehicle → Vehicle) (s : State) (x : Vehicle)
    (hx : vehicle s v = some x) (hf : ∀ y, (f y).id = y.id ∧ (f y).due = y.due ∧ (f y).held = held)
    (hs : x.held.Nodup → is.Nodup ∧ held.Nodup ∧ ∀ i, i ∈ held ↔ i ∈ x.held ∧ i ∉ is) :
    Acts s (updVehicle v f (releaseEntries v is s)) := by
  obtain ⟨y, hy, hheld⟩ := withdrawAmong_held (is := is) hx
  refine (acts_withdrawAmong v is s).afterActs ((frames_releaseSegs _ _ _).trans
    (frames_updVehicle _ _ _ (fun z e => (hf z).1.trans e) fun z w => by rw [(hf z).2.1]; exact w)) fun k =>
    acts_releaseTo _ _ _ _ (fun z => ⟨(hf z).1, (hf z).2.1⟩) (fun _ z hz => ?_) (by rw [hy]; rfl)
  obtain ⟨nd, nd', iff⟩ := hs (heldIn_of hx ▸ k.agree.listed v)
  rw [hy] at hz
  cases hz
  have same : ∀ i, i ∉ is → (i ∈ y.held ↔ i ∈ x.held) := fun i n => by
    rcases hheld with e | ⟨j, hj, e⟩
    · rw [e]
    · rw [e, List.mem_filter]
      exact ⟨And.left, fun k => ⟨k, by simpa using fun h : i = j => n (h ▸ hj)⟩⟩
  rw [(hf y).2.2]
  exact ⟨nd, nd', fun i => (iff i).trans
    ⟨fun ⟨m, n⟩ => ⟨(same i n).2 m, n⟩, fun ⟨m, n⟩ => ⟨(same i n).1 m, n⟩⟩⟩

/-- The run kept is the front of the list. -/
theorem alignRun_take (s : State) : ∀ (p : Path) (l : List Nat), (alignRun s p l).1 = l.take (alignRun s p l).1.length
  | _, [] => rfl
  | p, i :: t => by
    unfold alignRun
    split
    · simp only [List.length_cons, List.take_succ_cons]
      exact congrArg _ (alignRun_take s _ t)
    · rfl

theorem acts_alignHeld (v : Nat) (s : State) : Acts s (alignHeld v s).2 := by
  unfold alignHeld
  split
  · exact Acts.refl s
  · rename_i x hx
    split
    · exact Acts.refl s
    · rename_i first ahead hh
      simp only
      -- the matching run is kept, the rest released
      have b : Acts s
          (updVehicle v (fun y => { y with held := first :: (alignRun s x.path ahead).1
                                           path := (alignRun s x.path ahead).2 })
            (releaseEntries v ((ahead.drop (alignRun s x.path ahead).1.length).reverse) s)) := by
        refine acts_releaseEntries v _ _ _ s x hx (fun _ => ⟨rfl, rfl, rfl⟩) fun nd => ?_
        rw [hh] at nd ⊢
        generalize hm : (alignRun s x.path ahead).1.length = m
        rw [show (alignRun s x.path ahead).1 = ahead.take m from hm ▸ alignRun_take s x.path ahead]
        have parts : (first :: ahead.take m) ++ ahead.drop m = first :: ahead := by
          rw [List.cons_append, List.take_append_drop]
        rw [← parts] at nd ⊢
        obtain ⟨kept, rest, apart⟩ := List.nodup_append.1 nd
        refine ⟨List.nodup_reverse.2 rest, kept, fun i => ?_⟩
        rw [List.mem_append, List.mem_reverse]
        exact ⟨fun k => ⟨.inl k, fun d => apart i k i d rfl⟩, fun ⟨k, n⟩ => k.resolve_right n⟩
      split
      · split
        · exact b
        · exact b.trans (acts_leaveWaits _ _)
      · split
        · exact b.trans (acts_makeGrantDue _ _)
        · exact (b.trans (acts_makeGrantDue _ _)).trans (acts_leaveWaits _ _)

theorem resOf_of {s : State} {i : Nat} {x : SegRes} {q : Res} (h : resRec s i = some x) (hq : x.res = q) :
    resOf s i = some q := by
  unfold resOf; rw [h, ← hq]; rfl

theorem acts_reachSegment (v i : Nat) (s : State) : Acts s (reachSegment v i s).2 := by
  unfold reachSegment
  split
  · exact Acts.refl s
  · split
    · split
      · split
        · rename_i hf _ h; exact acts_reserveFor _ _ _ (admits_vehicle h) (resOf_of ‹_› hf)
        · exact acts_enterWait _ _ _
      · exact acts_enterWait _ _ _
    · split
      · split
        · rename_i hf _ h; exact acts_makeClaim _ _ _ h (resOf_of ‹_› hf)
        · exact acts_enterWait _ _ _
      · exact acts_enterWait _ _ _
    · split
      · exact Acts.refl s
      · exact acts_enterWait _ _ _
    · exact acts_enterWait _ _ _

theorem acts_extendRound (v : Nat) (s : State) : Acts s (extendRound v s).2 := by
  unfold extendRound
  split
  · exact Acts.refl s
  · exact acts_reachSegment _ _ _

theorem acts_regainRound (v : Nat) (s : State) : Acts s (regainRound v s).2 := by
  unfold regainRound
  split
  · exact Acts.refl s
  · split
    · rename_i h; exact acts_reserveFor _ _ _ (admits_vehicle h.2.2) h.1
    · exact Acts.refl s

theorem acts_retryPath (v : Nat) (s : State) : Acts s (retryPath v s).2 := by
  unfold retryPath
  simp only
  have h := (acts_buildPath v s).trans (acts_alignHeld v _)
  split <;> exact h

theorem acts_extendStart (v : Nat) (s : State) : Acts s (extendStart v s).2 := by
  unfold extendStart
  split
  · exact Acts.refl s
  · split
    · split
      · exact acts_retryPath _ _
      · split
        · exact acts_retryPath _ _
        · exact Acts.refl s
      · exact Acts.refl s
    · exact Acts.refl s

theorem acts_taskStep (t : Task) (s : State) : Acts s (taskStep t s).2 := by
  unfold taskStep
  split
  · split
    · exact acts_arbitrate _ _
    · split <;> exact Acts.refl s
    · split <;> exact Acts.refl s
    · exact acts_extendStart _ _
    · exact acts_extendRound _ _
    · exact acts_regainRound _ _
  · exact Acts.refl s

theorem acts_runTasks : ∀ (n : Nat) (ts : List Task) (s : State), Acts s (runTasks n ts s)
  | 0, _, s => Acts.refl s
  | _ + 1, [], s => Acts.refl s
  | n + 1, t :: _, s => (acts_taskStep t s).trans (acts_runTasks n _ _)

theorem acts_run (ts : List Task) (s : State) : Acts s (run ts s) := acts_runTasks _ ts s

theorem acts_settle (before : State) (freed : List Nat) (s : State) : Acts s (settle before freed s) := acts_run _ _

theorem acts_rebuildWith (ts : List Task) (v : Nat) (s : State) : Acts s (rebuildWith ts v s) := by
  unfold rebuildWith
  split
  · exact Acts.refl s
  · split
    · exact ((acts_buildPath v s).trans (acts_alignHeld v _)).trans (acts_run _ _)
    · exact Acts.refl s

theorem acts_rebuild (v : Nat) (s : State) : Acts s (rebuild v s) := acts_rebuildWith _ v s

theorem acts_rebuildReturned (v : Nat) (s : State) : Acts s (rebuildReturned v s) := acts_rebuildWith _ v s

theorem acts_realign (v : Nat) (s : State) : Acts s (realign v s) := acts_rebuildWith _ v s

theorem acts_dropHoldings (v : Nat) (s : State) : Acts s (dropHoldings v s).2 := by
  unfold dropHoldings
  split
  · exact Acts.refl s
  · rename_i x hx
    refine Acts.trans ?_ (acts_leaveWaits v (setHeld v [] (releaseSegs v x.held s)))
    refine acts_releaseTo _ _ _ s (fun _ => ⟨rfl, rfl⟩) (fun k y hy => ?_) (by rw [hx]; rfl)
    rw [hx] at hy
    cases hy
    exact ⟨heldIn_of hx ▸ k.agree.listed v, List.nodup_nil, fun i => by simp⟩

/-- A vehicle that has dropped its holdings holds nothing (R44). -/
theorem heldIn_dropHoldings (v : Nat) (s : State) : heldIn (dropHoldings v s).2.roster v = [] := by
  unfold dropHoldings
  split
  · rename_i h; rw [heldIn_eq, h]; rfl
  · rename_i x hx
    rw [(leaveWaits_rest _ _).2.2.1]
    exact heldIn_changed (f := fun x => { x with held := [] }) (fun _ h => h)
      ((vehicle_congr (releaseSegs_roster _ _ _) v).trans hx)

end Sys2Proof.Machine
end

