-- ==== Sys2Proof/Laws/Handlers.lean ====
section
/-! SUPPORT. The handling of vehicle events, moves and vehicles acts (Machine/Service.lean, MoveQueue.lean, Roster.lean). -/

namespace Sys2Proof.Machine

/-! ### Service.lean -/

theorem setWork_keeps (w : WorkState) (x : Vehicle) :
    (x.setWork w).id = x.id ∧ (x.setWork w).due = x.due ∧ (x.setWork w).held = x.held := by
  unfold Vehicle.setWork; split <;> exact ⟨rfl, rfl, rfl⟩

theorem acts_noteEligible (v : Nat) (s : State) : Acts s (noteEligible v s) := by
  unfold noteEligible
  split
  · exact acts_setPassDue s
  · exact Acts.refl s

theorem acts_enterWork (v : Nat) (w : WorkState) (s : State) : Acts s (enterWork v w s) := by
  unfold enterWork
  refine Acts.trans ?_ (acts_noteEligible _ _)
  exact acts_vehicle _ _ _ (setWork_keeps w)

theorem acts_setMoveField (v : Nat) (m : Option Nat) (s : State) : Acts s (setMoveField v m s) :=
  acts_vehicle _ _ _ fun _ => ⟨rfl, rfl, rfl⟩

theorem acts_setNextMove (v : Nat) (m : Option Nat) (s : State) : Acts s (setNextMove v m s) :=
  acts_vehicle _ _ _ fun _ => ⟨rfl, rfl, rfl⟩

theorem acts_setCarrier (v : Nat) (c : Option Nat) (s : State) : Acts s (setCarrier v c s) :=
  acts_vehicle _ _ _ fun _ => ⟨rfl, rfl, rfl⟩

theorem acts_giveUpNext (v : Nat) (s : State) : Acts s (giveUpNext v s) := by
  unfold giveUpNext
  split
  · exact Acts.refl s
  · split
    · exact Acts.refl s
    · exact (acts_setNextMove _ _ s).trans (acts_returnToWaiting _ _)

theorem acts_outOfService (v : Nat) (st : VState) (hb : Option Nat) (s : State) : Acts s (outOfService v st hb s) := by
  unfold outOfService
  simp only
  refine Acts.trans ?_ (acts_run _ _)
  refine Acts.trans ?_ (acts_makeHoldDue _ _)
  refine Acts.trans ?_ (acts_withdrawClaiming _ _)
  refine Acts.trans ?_ (acts_leaveWaits _ _)
  refine Acts.trans ?_ (acts_giveUpNext _ _)
  exact acts_vehicle _ _ _ fun _ => ⟨rfl, rfl, rfl⟩

theorem acts_returnToService (v : Nat) (w : WorkState) (s : State) : Acts s (returnToService v w s) := by
  unfold returnToService
  refine Acts.trans ?_ (acts_rebuildReturned _ _)
  refine Acts.trans ?_ (acts_noteEligible _ _)
  refine Acts.trans ?_ (acts_makeGrantDue _ _)
  refine Acts.trans ?_ (acts_liftHold _ _)
  exact acts_vehicle _ _ _ fun _ => ⟨rfl, rfl, rfl⟩

/-! ### Position conflicts (R41, R42) -/

/-- A marked segment names the vehicles it named, and the new one. -/
theorem markFor_named {v : Nat} {q r : Res} (h : markFor v q = some r) :
    (q.named.Nodup → v ∉ q.named → r.named.Nodup) ∧ (∀ u, u ∈ r.named ↔ u = v ∨ u ∈ q.named) ∧
      q.isForeignKind = false ∧ r.isForeignKind = false ∧ r.plain := by
  unfold markFor at h
  split at h <;> cases h <;> simp_all [Res.named, Res.isForeignKind, Res.plain, eq_comm, or_comm]

/-- A vehicle that holds nothing takes a marked segment: from `s`, with the record it gets and the segment as marked. -/
theorem Agree.take {t t' : Table SegRes} {r r' : Table Vehicle} {b b' : Bxu} {f : Nat → Bool} {v i : Nat} {q p : Res}
    (h : Agree t r b f) (hq : resIn t i = some q) (hm : markFor v q = some p) (h0 : heldIn r v = [])
    (ht : ∀ j, resIn t' j = if j = i then (resIn t j).map (fun _ => p) else resIn t j)
    (hh : ∀ u, heldIn r' u = if u = v then [i] else heldIn r u) (hb : b'.outClaims = b.outClaims) : Agree t' r' b' f := by
  obtain ⟨nd, names, kq, kp, pl⟩ := markFor_named hm
  have free : v ∉ q.named := fun m => by
    have := (h.holds v i).2 (namedIn_of hq ▸ m)
    rw [h0] at this
    cases this
  refine h.own (i := i) (p := p) hq ?_ ?_ kq kp pl (nd (namedIn_of hq ▸ h.once i) free) ?_ ?_ hb
  · rw [ht, if_pos rfl, hq]; rfl
  · intro j e; rw [ht, if_neg e]
  · intro u j
    rw [hh, names]
    by_cases e : u = v
    · subst e
      rw [if_pos rfl, h0]
      split
      · rename_i k; simp [k]
      · rename_i k; simp [k]
    · rw [if_neg e]
      split
      · rename_i k; rw [k, h.holds, namedIn_of hq]; simp [e]
      · exact Iff.rfl
  · intro u
    rw [hh]
    split
    · exact List.nodup_singleton _
    · exact h.listed u

/-- The end of a claim leaves the records of vehicles. -/
theorem withdrawClaim_known (v u : Nat) (s : State) :
    (vehicle (withdrawClaim v s).2 u).isSome = (vehicle s u).isSome := by
  unfold withdrawClaim
  split
  · rfl
  · unfold endOutClaim
    simp only
    split
    · rw [vehicle_congr (s := s) (by simp)]
    · rw [vehicle_makeGrantDue, Option.isSome_map, vehicle_updVehicle, Option.isSome_map, vehicle_congr (s := s) (by simp)]
      exact fun _ e => e

/-- An own segment keeps its state when a claim ends. -/
theorem resIn_withdrawClaim {s : State} {v i : Nat} {q : Res} (h : Sound s) (hq : resIn s.srt i = some q)
    (kq : q.isForeignKind = false) : resIn (withdrawClaim v s).2.srt i = some q := by
  unfold withdrawClaim
  split
  · exact hq
  · rename_i e he
    obtain ⟨p, hp, kp⟩ := h.agree.claims e (outClaimOf_mem he).1
    have ne : i ≠ e.segment := fun k => by
      rw [← k, hq] at hp; cases hp
      rw [kq] at kp; cases kp
    have srt : (endOutClaim e (sendPeer ((ownerOf s e.segment).getD anyAddress) kindClaimWithdraw e.tag e.segment v [] s)).srt =
        (setRes e.segment .foreign (sendPeer ((ownerOf s e.segment).getD anyAddress) kindClaimWithdraw e.tag e.segment v [] s)).srt := by
      unfold endOutClaim; simp only; split <;> simp
    rw [srt, resIn_setRes, if_neg ne, (sendPeer_rest _ _ _ _ _ _ _).2.2.1]
    exact hq

theorem acts_conflictMark (v i : Nat) (s : State) (hi : ∀ x, vehicle s v = some x → i ∉ x.held) :
    Acts s (conflictMark v i s) := by
  have ended := acts_withdrawClaim v s
  unfold conflictMark
  simp only
  split
  · exact ended
  · rename_i r hr
    obtain ⟨q, hq, hm⟩ := Option.bind_eq_some_iff.1 hr
    unfold replaceHeld
    split
    · exact ended
    · rename_i y hy
      refine Acts.trans ?_ (acts_makeGrantDue _ _)
      refine ended.after (((frames_releaseSegs _ _ _).trans (frames_updVehicle _ _ _ (by exact fun _ h => h)
        (by exact fun _ h => h))).trans (frames_setRes _ _ _)) fun h k => ?_
      -- first nothing is held, then the marked segment alone
      have a := acts_releaseTo v y.held (fun x => { x with held := [] }) (withdrawClaim v s).2 (fun _ => ⟨rfl, rfl⟩)
        (fun k x hx => by
          rw [hy] at hx; cases hx
          exact ⟨heldIn_of hy ▸ k.agree.listed v, List.nodup_nil, fun i => by simp⟩) (by rw [hy]; rfl)
      have empty := a.agree k
      rw [a.foreign] at empty
      have nd : y.held.Nodup := heldIn_of hy ▸ k.agree.listed v
      have hn : i ∉ y.held := by
        cases hx : vehicle s v with
        | none =>
          have := withdrawClaim_known v v s
          rw [hy, hx] at this; cases this
        | some x =>
          obtain ⟨z, hz, e | ⟨c, _, _, e⟩⟩ := withdrawClaim_held hx <;> rw [hy] at hz <;> cases hz <;> rw [e]
          · exact hi x hx
          · exact fun m => hi x hx (List.mem_filter.1 m).1
      have res : ∀ f : Vehicle → Vehicle, ∀ j, resIn (updVehicle v f (releaseSegs v y.held (withdrawClaim v s).2)).srt j =
          resIn (releaseSegs v y.held (withdrawClaim v s).2).srt j := fun f j => by rw [(updVehicle_rest _ _ _).2.2.1]
      refine empty.take (v := v) (i := i) (q := q) (p := r) ?_ hm ?_ ?_ ?_ (by simp)
      · rw [res, resIn_releaseSegs _ _ _ _ nd, if_neg hn]
        exact resIn_withdrawClaim h hq (markFor_named hm).2.2.1
      · exact heldIn_changed (f := fun x => { x with held := [] }) (by exact fun _ h => h)
          ((vehicle_congr (releaseSegs_roster _ _ _) v).trans hy)
      · intro j
        rw [resIn_setRes, setHeld, res, res]
      · intro u
        rw [(setRes_rest _ _ _).2.2.1, setHeld]
        split
        · rename_i e
          subst e
          exact heldIn_changed (f := fun x => { x with held := [i] }) (by exact fun _ h => h)
            ((vehicle_congr (releaseSegs_roster _ _ _) u).trans hy)
        · rename_i e
          rw [heldIn_other (by exact fun _ h => h) e, heldIn_other (by exact fun _ h => h) e]

/-- A conflicting report names a segment the vehicle does not hold. -/
theorem acts_positionConflict (v i : Nat) (s : State) (hi : ∀ x, vehicle s v = some x → i ∉ x.held) :
    Acts s (positionConflict v i s) := by
  unfold positionConflict
  split
  · exact Acts.refl s
  · refine Acts.trans ?_ (acts_outOfService _ _ _ _)
    exact (acts_conflictMark v i s hi).trans (acts_raise _ _ _)

theorem acts_updatePacing (s : State) : Acts s (updatePacing s) := acts_updTli (List.Sublist.refl _) id

/-- The front entry leaves the receive queue. -/
theorem acts_popTrack (e : TrackEntry) (rest : List TrackEntry) (s : State) (h : s.tli.queue = e :: rest) :
    Acts s (popTrack rest s) := by
  unfold popTrack
  refine Acts.trans ?_ (acts_updatePacing _)
  exact acts_updTli (by rw [h]; exact List.sublist_cons_self _ _) id

/-! ### MoveQueue.lean -/

/-- A move becomes ASSIGNED with the deadline of the present mode (R99). -/
theorem confirmFits_fromNow (s : State) (x : Move) (h : x.state = .assigned) (hc : x.confirm = confirmFromNow s) :
    ConfirmFits s.mode x := by
  unfold ConfirmFits
  rw [hc]
  unfold confirmFromNow
  split
  · rename_i e; split at e <;> cases e
  · rename_i e
    split at e
    · cases e
    · rename_i k; exact ⟨h, k⟩
  · rename_i e
    split at e
    · rename_i k; exact ⟨h, k⟩
    · cases e

theorem acts_enterAndBuild (v : Nat) (w : WorkState) (s : State) : Acts s (enterAndBuild v w s) :=
  (acts_enterWork v w s).trans (acts_rebuild _ _)

theorem acts_releaseVehicle (v : Nat) (s : State) : Acts s (releaseVehicle v s) :=
  (acts_setMoveField v none s).trans (acts_enterAndBuild _ _ _)

theorem acts_withdrawNamed (v m : Nat) (s : State) : Acts s (withdrawNamed v m s) := by
  unfold withdrawNamed
  split
  · exact Acts.refl s
  · exact acts_makeWithdrawDue _ _ _

theorem acts_toMoveState (m : Nat) (st : MState) (s : State) (h : st ≠ .assigned) : Acts s (toMoveState m st s) := by
  unfold toMoveState
  exact acts_changeMove_leaving _ _ _ (fun _ e => e) fun _ _ => h

theorem acts_adoptMove (q : MoveRequest) (x : Move) (s : State) : Acts s (adoptMove q x s).1 := by
  unfold adoptMove
  split
  · have h := acts_changeMove_leaving q.move (fun y =>
      { y with source := some q.source, dest := some q.dest, cls := q.cls, returnFlag := false, state := .carrying }) s
      (fun _ e => e) fun _ _ => by simp
    unfold done
    simp only
    split
    · exact h.trans (acts_rebuild _ _)
    · exact h
  · exact Acts.refl s

theorem acts_cancelMove (x : Move) (s t : State) (h : cancelMove x s = some t) : Acts s t := by
  have freed : ∀ u, Acts s (removeMove x.id .cancelled (releaseVehicle u (discardAssign u (makeWithdrawDue u x.id s)))) := by
    intro u
    refine Acts.trans ?_ (acts_removeMove _ _ _)
    refine Acts.trans ?_ (acts_releaseVehicle _ _)
    exact (acts_makeWithdrawDue _ _ s).trans (acts_discardAssign _ _)
  have away : Acts s (match x.vehicle with
      | some u => removeMove x.id .cancelled (releaseVehicle u (discardAssign u (makeWithdrawDue u x.id s)))
      | none => removeMove x.id .cancelled s) := by
    split
    · exact freed _
    · exact acts_removeMove _ _ _
  unfold cancelMove at h
  split at h
  · cases h; exact acts_removeMove _ _ _
  · cases h
    split
    · refine Acts.trans ?_ (acts_noteEligible _ _)
      refine Acts.trans ?_ (acts_setNextMove _ _ _)
      exact acts_removeMove _ _ _
    · exact acts_removeMove _ _ _
  · cases h; exact away
  · cases h; exact away
  · cases h; exact acts_changeMove_leaving _ _ _ (fun _ e => e) fun _ _ => by simp
  all_goals cases h

theorem acts_assignTo (m v : Nat) (s : State) : Acts s (assignTo m v s) := by
  unfold assignTo
  simp only
  refine Acts.trans ?_ (acts_enterAndBuild _ _ _)
  refine Acts.trans ?_ (acts_makeAssignDue _ _ _)
  refine Acts.trans ?_ (acts_setMoveField _ _ _)
  exact acts_changeMove _ _ _ (fun _ e => e) fun _ _ _ _ => confirmFits_fromNow s _ rfl rfl

theorem acts_assignNext (m v : Nat) (s : State) : Acts s (assignNext m v s) := by
  unfold assignNext
  refine Acts.trans ?_ (acts_setNextMove _ _ _)
  exact acts_changeMove_leaving _ _ _ (fun _ e => e) fun _ _ => by simp

theorem acts_assignByPreemption (m v p : Nat) (s : State) : Acts s (assignByPreemption m v p s) := by
  unfold assignByPreemption
  simp only
  refine Acts.trans ?_ (acts_updAsu rfl rfl (fun h => .inl h) fun h => .inl h)
  refine Acts.trans ?_ (acts_assignTo _ _ _)
  exact (acts_returnToWaiting _ s).trans (acts_makeWithdrawDue _ _ _)

theorem acts_takeConfirm (v m : Nat) (s : State) : Acts s (takeConfirm v m s) := by
  unfold takeConfirm
  split
  · exact acts_withdrawNamed _ _ _
  · split
    · exact acts_toMoveState _ _ _ (by simp)
    · exact Acts.refl s

theorem acts_dropPreemption (v : Nat) (s : State) : Acts s (dropPreemption v s) :=
  acts_updAsu rfl rfl (fun h => .inl h) fun h => .inl h

theorem acts_undoPreemption (v p n : Nat) (s : State) : Acts s (undoPreemption v p n s) := by
  unfold undoPreemption
  simp only
  refine Acts.trans ?_ (acts_dropPreemption _ _)
  refine Acts.trans ?_ (acts_raise _ _ _)
  refine Acts.trans ?_ (acts_enterAndBuild _ _ _)
  refine Acts.trans ?_ (acts_setMoveField _ _ _)
  refine Acts.trans ?_ (acts_changeMove_leaving _ _ _ (fun _ e => e) fun _ _ => by simp)
  refine Acts.trans ?_ (acts_makeWithdrawDue _ _ _)
  refine Acts.trans ?_ (acts_discardWithdraw _ _ _)
  exact (acts_returnToWaiting _ s).trans (acts_discardAssign _ _)

theorem acts_takeBack (p u : Nat) (s : State) : Acts s (takeBack p u s) := by
  unfold takeBack
  simp only
  refine Acts.trans ?_ (acts_releaseVehicle _ _)
  refine Acts.trans ?_ (acts_makeWithdrawDue _ _ _)
  refine Acts.trans ?_ (acts_discardAssign _ _)
  exact acts_setMove _ _ _ (fun _ e => e) fun _ _ _ _ => by unfold ConfirmFits; simp

theorem acts_preemptedStart (v p seg : Nat) (e : Preemption) (s : State) : Acts s (preemptedStart v p seg e s).1 := by
  have told : Acts s (dropPreemption v (makeWithdrawDue v p s)) :=
    (acts_makeWithdrawDue _ _ s).trans (acts_dropPreemption _ _)
  unfold preemptedStart
  split
  · exact told
  · split
    · exact acts_withdrawNamed _ _ _
    · split
      · exact acts_undoPreemption _ _ _ _
      · exact (acts_setNextMove _ _ s).trans (acts_undoPreemption _ _ _ _)
      · exact (acts_takeBack _ _ s).trans (acts_undoPreemption _ _ _ _)
      · exact (acts_takeBack _ _ s).trans (acts_undoPreemption _ _ _ _)
      · exact told

theorem acts_startHoist (v : Nat) (y : Move) (s : State) : Acts s (startHoist v y s) := by
  unfold startHoist
  split
  · exact (acts_toMoveState _ _ s (by simp)).trans (acts_enterWork _ _ _)
  · exact (acts_toMoveState _ _ s (by simp)).trans (acts_enterWork _ _ _)
  · exact (acts_toMoveState _ _ s (by simp)).trans (acts_enterWork _ _ _)
  · exact Acts.refl s

theorem acts_takeHoistStart (v seg m : Nat) (s : State) : Acts s (takeHoistStart v seg m s) := by
  unfold takeHoistStart
  split
  · split
    · exact acts_startHoist _ _ _
    · exact Acts.refl s
  · split
    · exact acts_preemptedStart _ _ _ _ _
    · exact acts_withdrawNamed _ _ _

theorem acts_mismatch (v : Nat) (y : Move) (r : Nat) (s : State) : Acts s (mismatch v y r s) := by
  unfold mismatch
  simp only
  refine Acts.trans ?_ (acts_raise _ _ _)
  refine Acts.trans ?_ (acts_enterAndBuild _ _ _)
  refine Acts.trans ?_ (acts_setCarrier _ _ _)
  exact acts_changeMove_leaving _ _ _ (fun _ e => e) fun _ _ => by simp

theorem acts_emptied (v : Nat) (s : State) : Acts s (emptied v s) :=
  (acts_setCarrier v none s).trans (acts_releaseVehicle _ _)

theorem acts_endPick (v : Nat) (y : Move) (g : Gripper) (s : State) : Acts s (endPick v y g s) := by
  unfold endPick
  split
  · split
    · refine Acts.trans ?_ (acts_enterAndBuild _ _ _)
      exact (acts_toMoveState _ _ s (by simp)).trans (acts_setCarrier _ _ _)
    · exact acts_mismatch _ _ _ _
  · refine Acts.trans ?_ (acts_raise _ _ _)
    exact (acts_removeMove _ _ s).trans (acts_emptied _ _)

theorem acts_endCancelling (v : Nat) (y : Move) (g : Gripper) (s : State) : Acts s (endCancelling v y g s) := by
  unfold endCancelling
  split
  · split
    · refine Acts.trans ?_ (acts_enterAndBuild _ _ _)
      refine Acts.trans ?_ (acts_setCarrier _ _ _)
      exact acts_changeMove_leaving _ _ _ (fun _ e => e) fun _ _ => by simp [returnDelivery]
    · exact acts_mismatch _ _ _ _
  · exact (acts_removeMove _ _ s).trans (acts_emptied _ _)

theorem acts_handOver (v n : Nat) (s : State) : Acts s (handOver v n s) :=
  (acts_setNextMove v none s).trans (acts_assignTo _ _ _)

theorem acts_endDeposit (v : Nat) (y : Move) (g : Gripper) (s : State) : Acts s (endDeposit v y g s) := by
  unfold endDeposit
  split
  · refine Acts.trans ?_ (acts_giveUpNext _ _)
    refine Acts.trans ?_ (acts_enterWork _ _ _)
    exact (acts_toMoveState _ _ s (by simp)).trans (acts_setCarrier _ _ _)
  · simp only
    have h : Acts s (setMoveField v none
        (setCarrier v none (removeMove y.id (if y.returnFlag then .cancelled else .delivered) s))) :=
      ((acts_removeMove _ _ s).trans (acts_setCarrier _ _ _)).trans (acts_setMoveField _ _ _)
    split
    · exact h.trans (acts_handOver _ _ _)
    · exact h.trans (acts_enterAndBuild _ _ _)

theorem acts_endHoist (v : Nat) (y : Move) (g : Gripper) (s : State) : Acts s (endHoist v y g s) := by
  unfold endHoist
  split
  · exact (acts_startHoist _ _ s).trans (acts_endPick _ _ _ _)
  · exact (acts_startHoist _ _ s).trans (acts_endPick _ _ _ _)
  · exact acts_endPick _ _ _ _
  · exact acts_endCancelling _ _ _ _
  · exact (acts_startHoist _ _ s).trans (acts_endDeposit _ _ _ _)
  · exact acts_endDeposit _ _ _ _
  all_goals exact Acts.refl s

theorem acts_strayPick (v c : Nat) (s : State) : Acts s (strayPick v c s) := by
  unfold strayPick
  simp only
  refine Acts.trans ?_ (acts_raise _ _ _)
  exact (acts_createUnrouted _ _ s).trans (acts_enterAndBuild _ _ _)

theorem acts_strayDone (v m : Nat) (g : Gripper) (s : State) : Acts s (strayDone v m g s) := by
  unfold strayDone
  split
  · exact (acts_strayPick _ _ s).trans (acts_withdrawNamed _ _ _)
  · exact acts_withdrawNamed _ _ _

theorem acts_takeHoistDone (v seg m : Nat) (g : Gripper) (s : State) : Acts s (takeHoistDone v seg m g s) := by
  unfold takeHoistDone
  split
  · split
    · exact acts_endHoist _ _ _ _
    · exact Acts.refl s
  · split
    · simp only
      have h := fun e => acts_preemptedStart v m seg e s
      split
      · exact (h _).trans (acts_endPick _ _ _ _)
      · exact (h _).trans (acts_withdrawNamed _ _ _)
    · exact acts_strayDone _ _ _ _

theorem acts_takeHoistFault (v : Nat) (s : State) : Acts s (takeHoistFault v s) := by
  unfold takeHoistFault
  split
  · exact Acts.refl s
  · split
    · exact (acts_raise _ _ s).trans (acts_makeHoldDue _ _)
    · simp only
      refine Acts.trans ?_ (acts_raise _ _ _)
      refine Acts.trans ?_ (acts_outOfService _ _ _ _)
      refine Acts.trans ?_ (acts_setCarrier _ _ _)
      refine Acts.trans ?_ (acts_setMoveField _ _ _)
      split
      · exact acts_removeMove _ _ _
      · exact Acts.refl s

theorem acts_confirmTimeout (m v : Nat) (s : State) : Acts s (confirmTimeout m v s) := by
  unfold confirmTimeout
  simp only
  refine Acts.trans ?_ (acts_releaseVehicle _ _)
  refine Acts.trans ?_ (acts_makeWithdrawDue _ _ _)
  refine Acts.trans ?_ (acts_discardAssign _ _)
  exact (acts_raise _ _ s).trans (acts_returnToWaiting _ _)

theorem acts_confirmFalls (m : Nat) (s : State) : Acts s (confirmFalls m s) := by
  unfold confirmFalls
  split
  · exact (acts_reachTime _ s).trans (acts_confirmTimeout _ _ _)
  · exact Acts.refl s

end Sys2Proof.Machine
end

