-- ==== Sys2Proof/Laws/Quiet.lean ====
section
/-! SUPPORT. A vehicle that holds nothing and waits nowhere stays so through the tasks of other vehicles (R25, R35,
R44), so its record may then be removed or made afresh. -/

namespace Sys2Proof.Machine

/-- Vehicle `v` has a record, no segment names it and no wait list has it. -/
structure Quiet (v : Nat) (s : State) : Prop where
  known : (vehicle s v).isSome = true
  unnamed : ∀ p ∈ s.srt, v ∉ p.2.res.named
  unwaiting : ∀ p ∈ s.srt, ∀ e ∈ p.2.waits, e.isVehicle v = false

/-- A change of the stores that names `v` nowhere new. -/
theorem Quiet.change {v : Nat} {s t : State} (h : Quiet v s) (hk : (vehicle t v).isSome = (vehicle s v).isSome)
    (ht : ∀ p ∈ t.srt, ∃ q ∈ s.srt, (v ∈ p.2.res.named → v ∈ q.2.res.named) ∧
      ∀ e ∈ p.2.waits, e ∈ q.2.waits ∨ e.isVehicle v = false) : Quiet v t where
  known := hk.trans h.known
  unnamed := fun p hp m => by
    obtain ⟨q, hq, k, _⟩ := ht p hp
    exact h.unnamed q hq (k m)
  unwaiting := fun p hp e he => by
    obtain ⟨q, hq, _, k⟩ := ht p hp
    exact (k e he).elim (h.unwaiting q hq e) id

theorem Quiet.same {v : Nat} {s t : State} (h : Quiet v s) (hr : t.roster = s.roster) (hs : t.srt = s.srt) :
    Quiet v t :=
  h.change (by rw [vehicle_congr hr]) fun p hp => ⟨p, hs ▸ hp, id, fun _ => .inl⟩

theorem Quiet.srtMod {v i : Nat} {f : SegRes → SegRes} {s : State} (h : Quiet v s)
    (hf : ∀ x : SegRes, (v ∈ (f x).res.named → v ∈ x.res.named) ∧
      ∀ e ∈ (f x).waits, e ∈ x.waits ∨ e.isVehicle v = false) : Quiet v (s.updSrt (tmod i f)) :=
  h.change rfl fun p hp => by
    obtain ⟨q, hq, _, ⟨k, _⟩ | ⟨k, _⟩⟩ := tmod_mem hp
    · exact ⟨q, hq, by rw [k]; exact id, fun e he => .inl (k ▸ he)⟩
    · exact ⟨q, hq, by rw [k]; exact (hf _).1, fun e he => (hf _).2 e (k ▸ he)⟩

theorem quiet_setRes {v i : Nat} {r : Res} {s : State} (h : Quiet v s) (hr : v ∉ r.named) : Quiet v (setRes i r s) :=
  h.srtMod fun _ => ⟨fun m => absurd m hr, fun _ => .inl⟩

theorem quiet_srtFilter {v : Nat} {k : WaitEntry → Bool} {s : State} (h : Quiet v s) :
    Quiet v (s.updSrt fun t => t.map fun q => (q.1, { q.2 with waits := q.2.waits.filter k })) :=
  h.change rfl fun p hp => by
    obtain ⟨q, hq, rfl⟩ := List.mem_map.1 hp
    exact ⟨q, hq, id, fun e he => .inl (List.mem_filter.1 he).1⟩

theorem quiet_leaveWaits {v : Nat} (u : Nat) {s : State} (h : Quiet v s) : Quiet v (leaveWaits u s) :=
  quiet_srtFilter h

theorem quiet_updVehicle {v u : Nat} {f : Vehicle → Vehicle} {s : State} (h : Quiet v s)
    (hid : ∀ x, x.id = u → (f x).id = u) : Quiet v (updVehicle u f s) :=
  h.change (by rw [vehicle_updVehicle _ _ _ _ hid, Option.isSome_map]) fun p hp => ⟨p, hp, id, fun _ => .inl⟩

theorem quiet_makeGrantDue {v : Nat} (u : Nat) {s : State} (h : Quiet v s) : Quiet v (makeGrantDue u s) :=
  h.change (by rw [vehicle_makeGrantDue, Option.isSome_map]) fun p hp =>
    ⟨p, by simpa [makeGrantDue, updVehicle] using hp, id, fun _ => .inl⟩

theorem quiet_addRecord {v : Nat} (x : Vehicle) {s : State} (h : Quiet v s) : Quiet v (addRecord x s) := by
  unfold addRecord
  split
  · exact h
  · rename_i k hk
    refine h.change ?_ fun p hp => ⟨p, by simpa using hp, id, fun _ => .inl⟩
    have perm := tput_new_perm (a := x) (tget_none_notMem (lowestFree_spec hk).2)
    have known := h.known
    rw [known, ← inRoster_eq, inRoster_congr (s := s.updRoster (tput k x)) (by simp)]
    rw [← inRoster_eq] at known
    unfold inRoster findVehicle at known ⊢
    rw [List.find?_isSome] at known ⊢
    obtain ⟨q, hq, e⟩ := known
    exact ⟨q, perm.mem_iff.2 (List.mem_cons_of_mem _ hq), e⟩

theorem quiet_releaseSegs {v : Nat} (u : Nat) : ∀ (is : List Nat) {s : State}, Quiet v s → Quiet v (releaseSegs u is s)
  | [], _, h => h
  | _ :: is, _, h => quiet_releaseSegs u is
      (h.srtMod fun _ => ⟨fun m => (releasedRes_sublist u _).subset m, fun _ => .inl⟩)

theorem quiet_endOutClaim {v : Nat} (e : OutClaim) {s : State} (h : Quiet v s) : Quiet v (endOutClaim e s) := by
  have base : Quiet v (dropOutClaim e.tag (setRes e.segment .foreign s)) :=
    (quiet_setRes (i := e.segment) (r := .foreign) h (by simp [Res.named])).same (by simp) (by simp)
  unfold endOutClaim
  simp only
  split
  · exact base
  · exact quiet_makeGrantDue _ (quiet_updVehicle base fun _ e => e)

theorem quiet_withdrawAmong {v : Nat} (u : Nat) (is : List Nat) {s : State} (h : Quiet v s) :
    Quiet v (withdrawAmong u is s) := by
  unfold withdrawAmong
  split
  · exact h
  · split
    · unfold withdrawClaim
      split
      · exact h
      · exact quiet_endOutClaim _ (h.same (sendPeer_rest _ _ _ _ _ _ _).2.2.2.1 (sendPeer_rest _ _ _ _ _ _ _).2.2.1)
    · exact h

theorem quiet_releaseEntries {v : Nat} (u : Nat) (is : List Nat) {s : State} (h : Quiet v s) :
    Quiet v (releaseEntries u is s) := quiet_releaseSegs u is (quiet_withdrawAmong u is h)

theorem quiet_buildPath {v : Nat} (u : Nat) {s : State} (h : Quiet v s) : Quiet v (buildPath u s) := by
  unfold buildPath
  split
  · exact h
  · split
    · simp only
      split
      · refine Quiet.same ?_ (raise_rest _ _ _).2.2.2.1 (raise_rest _ _ _).2.2.1
        exact quiet_updVehicle (quiet_updVehicle h fun _ e => e) fun _ e => e
      · exact quiet_updVehicle (quiet_updVehicle h fun _ e => e) fun _ e => e
    · exact h

theorem quiet_alignHeld {v : Nat} (u : Nat) {s : State} (h : Quiet v s) : Quiet v (alignHeld u s).2 := by
  unfold alignHeld
  split
  · exact h
  · split
    · exact h
    · rename_i first ahead _
      simp only
      have b := fun is => quiet_releaseEntries u is h
      split <;> split
      · exact quiet_updVehicle (b _) fun _ e => e
      · exact quiet_leaveWaits _ (quiet_updVehicle (b _) fun _ e => e)
      · exact quiet_makeGrantDue _ (quiet_updVehicle (b _) fun _ e => e)
      · exact quiet_leaveWaits _ (quiet_makeGrantDue _ (quiet_updVehicle (b _) fun _ e => e))

theorem quiet_makeClaim {v : Nat} (u i : Nat) {s : State} (h : Quiet v s) : Quiet v (makeClaim u i s) := by
  unfold makeClaim
  split
  · split
    · exact h
    · refine Quiet.same ?_ (sendPeer_rest _ _ _ _ _ _ _).2.2.2.1 (sendPeer_rest _ _ _ _ _ _ _).2.2.1
      exact quiet_setRes (h.same rfl rfl) (by simp [Res.named])
  · exact h

/-! ### Tasks of other vehicles -/

theorem quiet_reserveFor {u v : Nat} (i : Nat) {s : State} (h : Quiet v s) (huv : u ≠ v) : Quiet v (reserveFor u i s) :=
  quiet_setRes (quiet_makeGrantDue _ (quiet_updVehicle h fun _ e => e)) (by simpa [Res.named] using huv.symm)

theorem quiet_enterWait {u v : Nat} (i : Nat) {s : State} (h : Quiet v s) (huv : u ≠ v) : Quiet v (enterWait u i s) := by
  unfold enterWait
  split
  · exact h
  · have b := quiet_leaveWaits u h
    simp only
    split
    · have k : ∀ f t, Quiet v (modWaits i (fun l => l ++ [⟨.vehicle u f, t⟩]) (leaveWaits u s)) := fun f t =>
        b.srtMod fun _ => ⟨id, fun e he => (List.mem_append.1 he).imp_right fun m => by
          rw [List.mem_singleton.1 m]; simpa [WaitEntry.isVehicle] using huv⟩
      split
      · exact (k _ _).same (raise_rest _ _ _).2.2.2.1 (raise_rest _ _ _).2.2.1
      · exact k _ _
    · exact b

theorem quiet_claimWins {v : Nat} (i u tag cell : Nat) {s : State} (h : Quiet v s) :
    Quiet v (claimWins i u tag cell s).2 := by
  have b : Quiet v (leaveClaimWait cell tag s) := quiet_srtFilter h
  unfold claimWins
  simp only
  split
  · exact b
  · split
    · exact b.same (by simp [sendRefuse]) (by simp [sendRefuse])
    · rename_i e _ k
      unfold grantClaim
      simp only
      refine Quiet.same (s := setRes e.segment (.reserved e.vehicle)
        (addRecord (arrivingRecord e.vehicle e.segment) (leaveClaimWait cell tag s))) ?_ (by simp) (by simp)
      refine quiet_setRes (quiet_addRecord _ b) ?_
      rw [inRoster_eq] at k
      have : v ≠ e.vehicle := fun j => k (j ▸ b.known)
      simpa [Res.named] using this

/-- The tasks another vehicle's handling starts are about other vehicles. -/
def Task.spares (v : Nat) : Task → Prop
  | .extend u => u ≠ v
  | .rounds u => u ≠ v
  | .regain u => u ≠ v
  | _ => True

theorem winner_spares {v i : Nat} {s : State} {e : WaitEntry} (h : Quiet v s) (hw : winner s i = some e) :
    e.isVehicle v = false := by
  have m := (winner_admissible hw).1
  unfold waitsOf at m
  cases k : resRec s i with
  | none => rw [k] at m; cases m
  | some r => rw [k] at m; exact h.unwaiting _ (mem_of_tget k) e m

theorem quiet_arbitrate {v : Nat} (i : Nat) {s : State} (h : Quiet v s) :
    Quiet v (arbitrate i s).2 ∧ ∀ t ∈ (arbitrate i s).1, t.spares v := by
  unfold arbitrate
  split
  · split
    · exact ⟨h, by simp⟩
    · rename_i e he
      split
      · rename_i u f hu
        have huv : u ≠ v := by simpa [WaitEntry.isVehicle, hu] using winner_spares h he
        exact ⟨quiet_reserveFor _ (quiet_leaveWaits _ h) huv, by simpa [Task.spares] using huv⟩
      · refine ⟨quiet_claimWins _ _ _ _ h, ?_⟩
        unfold claimWins
        simp only
        split
        · simp [Task.spares]
        · split <;> simp [Task.spares]
  · split
    · exact ⟨h, by simp⟩
    · split
      · exact ⟨quiet_makeClaim _ _ (quiet_leaveWaits _ h), by simp⟩
      · exact ⟨h, by simp⟩
  · exact ⟨h, by simp⟩

theorem settleTasks_spare {v : Nat} (a b : State) (is : List Nat) : ∀ t ∈ settleTasks a b is, t.spares v := by
  intro t ht
  unfold settleTasks at ht
  rcases List.mem_append.1 ht with k | k <;> obtain ⟨_, _, rfl⟩ := List.mem_map.1 k <;> trivial

theorem alignHeld_spares {v : Nat} (u : Nat) (s : State) : ∀ t ∈ (alignHeld u s).1, t.spares v := by
  unfold alignHeld
  split
  · simp
  · split
    · simp
    · exact settleTasks_spare _ _ _

theorem quiet_retryPath {u v : Nat} {s : State} (h : Quiet v s) (huv : u ≠ v) :
    Quiet v (retryPath u s).2 ∧ ∀ t ∈ (retryPath u s).1, t.spares v := by
  have a := alignHeld_spares (v := v) u (buildPath u s)
  have b := quiet_alignHeld u (quiet_buildPath u h)
  unfold retryPath
  simp only
  split
  · exact ⟨b, a⟩
  · refine ⟨b, fun t ht => (List.mem_append.1 ht).elim (a t) fun m => ?_⟩
    rw [List.mem_singleton.1 m]; exact huv

theorem quiet_extendStart {u v : Nat} {s : State} (h : Quiet v s) (huv : u ≠ v) :
    Quiet v (extendStart u s).2 ∧ ∀ t ∈ (extendStart u s).1, t.spares v := by
  unfold extendStart
  split
  · exact ⟨h, by simp⟩
  · split
    · split
      · exact quiet_retryPath h huv
      · split
        · exact quiet_retryPath h huv
        · exact ⟨h, by simp⟩
      · exact ⟨h, by simpa [Task.spares] using huv⟩
    · exact ⟨h, by simp⟩

theorem quiet_extendRound {u v : Nat} {s : State} (h : Quiet v s) (huv : u ≠ v) :
    Quiet v (extendRound u s).2 ∧ ∀ t ∈ (extendRound u s).1, t.spares v := by
  have wait := fun i => quiet_enterWait i h huv
  unfold extendRound
  split
  · exact ⟨h, by simp⟩
  · unfold reachSegment
    split
    · exact ⟨h, by simp⟩
    · split <;> (try split) <;> (try split) <;>
        first
        | exact ⟨quiet_reserveFor _ h huv, by simpa [Task.spares] using huv⟩
        | exact ⟨wait _, by simp [Task.spares]⟩
        | exact ⟨quiet_makeClaim _ _ h, by simp⟩
        | exact ⟨h, by simp⟩

theorem quiet_regainRound {u v : Nat} {s : State} (h : Quiet v s) (huv : u ≠ v) :
    Quiet v (regainRound u s).2 ∧ ∀ t ∈ (regainRound u s).1, t.spares v := by
  unfold regainRound
  split
  · exact ⟨h, by simp⟩
  · split
    · exact ⟨quiet_reserveFor _ h huv, by simpa [Task.spares] using huv⟩
    · exact ⟨h, by simp⟩

theorem quiet_taskStep {v : Nat} {t : Task} {s : State} (h : Quiet v s) (ht : t.spares v) :
    Quiet v (taskStep t s).2 ∧ ∀ u ∈ (taskStep t s).1, u.spares v := by
  unfold taskStep
  split
  · split
    · exact quiet_arbitrate _ h
    · split <;> exact ⟨h, by simp [Task.spares]⟩
    · split <;> exact ⟨h, by simp [Task.spares]⟩
    · exact quiet_extendStart h ht
    · exact quiet_extendRound h ht
    · exact quiet_regainRound h ht
  · exact ⟨h, by simp⟩

theorem quiet_runTasks {v : Nat} : ∀ (n : Nat) (ts : List Task) {s : State}, Quiet v s → (∀ t ∈ ts, t.spares v) →
    Quiet v (runTasks n ts s)
  | 0, _, _, h, _ => h
  | _ + 1, [], _, h, _ => h
  | n + 1, t :: ts, _, h, ht => by
    have k := quiet_taskStep h (ht t List.mem_cons_self)
    exact quiet_runTasks n _ k.1 fun u hu =>
      (List.mem_append.1 hu).elim (k.2 u) fun m => ht u (List.mem_cons_of_mem _ m)

theorem quiet_settle {v : Nat} (before : State) (is : List Nat) {s : State} (h : Quiet v s) :
    Quiet v (settle before is s) := quiet_runTasks _ _ h (settleTasks_spare _ _ _)

/-- A vehicle that holds nothing is named by no segment (R21). -/
theorem Sound.unnamed {v : Nat} {s : State} (h : Sound s) (hv : heldIn s.roster v = []) :
    ∀ p ∈ s.srt, v ∉ p.2.res.named := by
  intro p hp m
  have := (h.agree.holds v p.1).2 (mem_namedIn.2 ⟨_, resIn_of_mem h.segments hp, m⟩)
  rw [hv] at this
  cases this

/-- A vehicle named by no segment holds nothing. -/
theorem Sound.holdsNothing {v : Nat} {s : State} (h : Sound s) (hv : ∀ p ∈ s.srt, v ∉ p.2.res.named) :
    heldIn s.roster v = [] := by
  rw [List.eq_nil_iff_forall_not_mem]
  intro i m
  obtain ⟨q, hq, k⟩ := mem_namedIn.1 ((h.agree.holds v i).1 m)
  obtain ⟨w, hw⟩ := resIn_mem hq
  exact hv _ hw k

/-- A vehicle of the roster that has dropped its holdings is named nowhere and waits nowhere (R44). -/
theorem quiet_dropHoldings {v : Nat} {s : State} (h : Sound s) (hv : (vehicle s v).isSome = true) :
    Quiet v (dropHoldings v s).2 := by
  refine ⟨?_, ((acts_dropHoldings v s).sound h).unnamed (heldIn_dropHoldings v s), fun p hp e he => ?_⟩
  · obtain ⟨x, hx⟩ := Option.isSome_iff_exists.1 hv
    unfold dropHoldings
    rw [hx]
    simp only
    rw [vehicle_congr (leaveWaits_rest _ _).2.2.1, setHeld, vehicle_updVehicle, Option.isSome_map,
      vehicle_congr (releaseSegs_roster _ _ _)]
    · exact hv
    · exact fun _ e => e
  · obtain ⟨x, hx⟩ := Option.isSome_iff_exists.1 hv
    unfold dropHoldings at hp
    rw [hx] at hp
    simp only at hp
    unfold leaveWaits at hp
    obtain ⟨q, hq, rfl⟩ := List.mem_map.1 hp
    simpa using (List.mem_filter.1 he).2

end Sys2Proof.Machine
end

