-- ==== Sys2Proof/Laws/Vehicles.lean ====
section
/-! SUPPORT. The handling of vehicle frames, silence, FORGET, dispatch passes and peer frames acts
(Machine/Roster.lean, Assignment.lean, Boundary.lean). -/

namespace Sys2Proof.Machine

/-! ### Roster.lean -/

/-- The reported entry becomes OCCUPIED (R26). -/
theorem acts_occupy (i : Nat) (s : State) : Acts s (modRes i occupiedRes s) :=
  acts_modRes _ _ _ occupiedRes_keeps occupiedRes_kind

theorem acts_noteFrame (e : TrackEntry) (s : State) : Acts s (noteFrame e s) := by
  unfold noteFrame
  exact acts_vehicle _ _ _ fun _ => ⟨rfl, rfl, rfl⟩

theorem acts_restoreLost (j : Bool) (v seg : Nat) (s : State) : Acts s (restoreLost j v seg s).1 := by
  unfold restoreLost
  split
  · exact Acts.refl s
  · rename_i x hx
    split
    · split
      · split
        · simp only; exact acts_vehicle _ _ _ fun _ => ⟨rfl, rfl, rfl⟩
        · exact acts_returnToService _ _ _
      · rename_i k
        split
        · exact Acts.refl s
        · exact acts_positionConflict _ _ _ fun y hy => by rw [hx] at hy; cases hy; exact k
    · exact Acts.refl s

/-- The list is the released entries, then those kept (R26). -/
theorem splitHeld_parts (x : Vehicle) (i : Nat) : (splitHeld x i).1 ++ (splitHeld x i).2 = x.held := by
  unfold splitHeld
  exact List.take_append_drop _ _

theorem acts_releaseBehind (v i : Nat) (x : Vehicle) (s : State) (hx : vehicle s v = some x) :
    Acts s (releaseBehind v i x s).2 := by
  have h : Acts s (setHeld v (splitHeld x i).2 (releaseEntries v (splitHeld x i).1 s)) := by
    refine acts_releaseEntries v (splitHeld x i).1 (splitHeld x i).2 _ s x hx (fun _ => ⟨rfl, rfl, rfl⟩) fun nd => ?_
    have parts := splitHeld_parts x i
    generalize splitHeld x i = p at parts ⊢
    rw [← parts] at nd ⊢
    obtain ⟨n1, n2, apart⟩ := List.nodup_append.1 nd
    refine ⟨n1, n2, fun j => ?_⟩
    rw [List.mem_append]
    exact ⟨fun m => ⟨.inr m, fun n => apart j n j m rfl⟩, fun ⟨m, n⟩ => m.resolve_left n⟩
  have k : Acts s (match (splitHeld x i).2 with
      | first :: _ => modRes first occupiedRes (setHeld v (splitHeld x i).2 (releaseEntries v (splitHeld x i).1 s))
      | [] => setHeld v (splitHeld x i).2 (releaseEntries v (splitHeld x i).1 s)) := by
    split
    · exact h.trans (acts_occupy _ _)
    · exact h
  unfold releaseBehind
  simp only
  split
  · exact k
  · exact k.trans (acts_makeGrantDue _ _)

theorem acts_takePosition (v i : Nat) (s : State) : Acts s (takePosition v i s) := by
  unfold takePosition
  split
  · exact Acts.refl s
  · rename_i x hx
    split
    · exact (acts_releaseBehind _ _ _ s hx).trans (acts_run _ _)
    · rename_i k
      exact acts_positionConflict _ _ _ fun y hy => by rw [hx] at hy; cases hy; exact k

theorem acts_createCarried (v : Nat) (c : Summary) (s : State) : Acts s (createCarried v c s) := by
  unfold createCarried
  split
  · rename_i h
    refine Acts.trans ?_ (acts_reportMove _ _ _ _ _)
    refine Acts.trans ?_ (acts_vehicle _ _ _ fun _ => ⟨rfl, rfl, rfl⟩)
    exact acts_appendMove _ _ h.1 (by simpa using h.2) ⟨by simp, rfl⟩
  · exact acts_createUnrouted _ _ _

theorem acts_completeArrival (x : Vehicle) (c : InClaim) (s : State) : Acts s (completeArrival x c s) := by
  unfold completeArrival
  simp only
  refine Acts.trans ?_ (acts_dropInClaim _ _ _)
  refine Acts.trans ?_ (acts_sendPeer _ _ _ _ _ _ _)
  refine Acts.trans ?_ (acts_realign _ _)
  refine Acts.trans ?_ (acts_vehicle _ _ _ fun _ => ⟨rfl, rfl, rfl⟩)
  exact (acts_occupy _ s).trans (acts_createCarried _ _ _)

theorem acts_arrivingFrame (e : TrackEntry) (x : Vehicle) (s : State) : Acts s (arrivingFrame e x s) := by
  unfold arrivingFrame
  split
  · split
    · split
      · exact acts_completeArrival _ _ _
      · exact Acts.refl s
    · exact Acts.refl s
  · split
    · split
      · refine Acts.trans ?_ (acts_takePosition _ _ _)
        refine Acts.trans ?_ (acts_vehicle _ _ _ fun _ => ⟨rfl, rfl, rfl⟩)
        exact acts_completeArrival _ _ _
      · exact Acts.refl s
    · exact Acts.refl s
  · exact (acts_raise _ _ s).trans (acts_makeHoldDue _ _)
  · exact (acts_raise _ _ s).trans (acts_makeHoldDue _ _)
  · exact Acts.refl s

/-- Setting a move's vehicle field leaves its confirm deadline fitting. -/
theorem acts_detach (x : Vehicle) (s : State) : Acts s (detach x s).2 := by
  have h : Acts s (setNextMove x.id none (setMoveField x.id none s)) :=
    (acts_setMoveField _ _ s).trans (acts_setNextMove _ _ _)
  unfold detach
  simp only
  refine Acts.trans ?_ (acts_returnAll _ _)
  split
  · refine h.trans ?_
    exact acts_setMove _ _ _ (fun _ e => e) fun k x hx _ => k x hx
  · exact h

theorem acts_stripHoldings (v : Nat) (s : State) : Acts s (stripHoldings v s) := by
  unfold stripHoldings
  exact ((acts_withdrawClaim _ s).trans (acts_dropHoldings _ _)).trans (acts_settle _ _ _)

/-- Where a JOIN marks nothing, the examination only raises the event. -/
theorem examineJoin_unmarked {v i : Nat} {s : State} (h : joinMarks v i s = false) :
    examineJoin v i s = raiseConflict v i s := by
  unfold joinMarks at h
  unfold examineJoin
  split
  · rename_i k; rw [k] at h; cases h
  · rename_i k; rw [k] at h; cases h
  · rename_i r _ _ k
    rw [k] at h
    cases m : markFor v r with
    | none => rfl
    | some q => rw [Option.bind_some, m] at h; cases h
  · rfl

theorem frames_examineJoin (v i : Nat) (s : State) : Frames s (examineJoin v i s) := by
  unfold examineJoin
  split
  · exact frames_setRes _ _ _
  · exact frames_setRes _ _ _
  · split
    · exact (frames_setRes _ _ s).trans (acts_raise _ _ _).toFrames
    · exact (acts_raise _ _ _).toFrames
  · exact (acts_raise _ _ _).toFrames

/-- The vehicle that takes the segment held nothing before: from `s`, with the record it has at the examination. -/
theorem agree_examineJoin {v i : Nat} {s t : State} {f : Nat → Bool} (h : Agree s.srt s.roster s.bxu f)
    (h0 : heldIn s.roster v = []) (hm : joinMarks v i t = true) (hs : t.srt = s.srt) (hb : t.bxu.outClaims = s.bxu.outClaims)
    (hh : ∀ u, heldIn t.roster u = if u = v then [i] else heldIn s.roster u) :
    Agree (examineJoin v i t).srt (examineJoin v i t).roster (examineJoin v i t).bxu f := by
  obtain ⟨r, hr⟩ := Option.isSome_iff_exists.1 hm
  obtain ⟨q, hq, hm⟩ := Option.bind_eq_some_iff.1 hr
  have hq' : resIn s.srt i = some q := by rw [← hs]; exact hq
  have marked := h.take (t' := (setRes i r t).srt) (r' := (setRes i r t).roster) (b' := (setRes i r t).bxu) hq' hm h0
    (fun j => by rw [resIn_setRes, hs]) (by simpa using hh) (by simpa using hb)
  unfold examineJoin
  rw [hq]
  split
  · rename_i k; cases k; cases hm; exact marked
  · rename_i k; cases k; cases hm; exact marked
  · rename_i k
    cases k
    rw [hm]
    simpa [raiseConflict] using marked
  · rename_i k; cases k

/-- A rejoined move is in none of the states that carry a confirm deadline. -/
theorem rejoined_state (s : State) (v : Nat) (y : Move) :
    (rejoined s v y).id = y.id ∧ (rejoined s v y).confirm = y.confirm ∧ (rejoined s v y).state ≠ .assigned := by
  unfold rejoined returnDelivery
  cases h : y.state <;> simp

theorem acts_linkMove (v : Nat) (y : Move) (s : State) (hy : findMove s y.id = some y) : Acts s (linkMove v y s) := by
  obtain ⟨hid, hconf, hst⟩ := rejoined_state s v y
  unfold linkMove
  simp only
  refine Acts.trans ?_ (acts_vehicle _ _ _ fun _ => ⟨rfl, rfl, rfl⟩)
  split
  · rename_i same
    refine acts_setMove _ _ _ (fun _ _ => hid.trans rfl) fun h _ _ _ => ?_
    have k := h y (findMove_id hy).2
    unfold ConfirmFits at k ⊢
    rw [hconf, same]
    exact k
  · exact acts_changeMove_leaving _ _ _ (fun _ _ => hid) fun _ _ => hst

theorem acts_reconcile (v : Nat) (j : JoinData) (d : Detached) (s : State) : Acts s (reconcile v j d s).2 := by
  unfold reconcile
  split
  · split
    · rename_i y hy
      refine acts_linkMove _ _ _ ?_
      unfold claimable at hy
      split at hy
      · rename_i z hz
        split at hy
        · cases hy
          rw [(findMove_id hz).1]; exact hz
        · cases hy
      · cases hy
    · exact acts_createUnrouted _ _ _
  · exact Acts.refl s

theorem acts_withdrawReturned (v : Nat) (ms : List Nat) (s : State) : Acts s (withdrawReturned v ms s) := by
  unfold withdrawReturned
  refine acts_foldl _ (fun t m => ?_) ms s
  split
  · exact acts_makeWithdrawDue _ _ _
  · exact Acts.refl t

theorem acts_failAside (d : Detached) (s : State) : Acts s (failAside d s) := by
  unfold failAside
  split
  · exact Acts.refl s
  · split
    · exact acts_removeMove _ _ _
    · exact Acts.refl s

theorem acts_settleJoin (v : Nat) (j : JoinData) (d : Detached) (conflict : Bool) (s : State) :
    Acts s (settleJoin v j d conflict s) := by
  unfold settleJoin
  simp only
  refine Acts.trans ?_ (acts_failAside _ _)
  refine Acts.trans ?_ (acts_withdrawReturned _ _ _)
  refine Acts.trans ?_ (acts_rebuild _ _)
  have h : ∀ st : VState, Acts s (noteEligible v
      (updVehicle v (fun x => { x with state := st }) (reconcile v j d (makeGrantDue v s)).2)) := by
    intro st
    refine Acts.trans ?_ (acts_noteEligible _ _)
    refine Acts.trans ?_ (acts_vehicle _ _ _ fun _ => ⟨rfl, rfl, rfl⟩)
    exact (acts_makeGrantDue v s).trans (acts_reconcile _ _ _ _)
  split
  · exact (h _).trans (acts_makeHoldDue _ _)
  · exact h _

theorem acts_joinUnknown (v : Nat) (j : JoinData) (s : State) (hv : vehicle s v = none) :
    Acts s (joinUnknown v j s) := by
  unfold joinUnknown
  split
  · rename_i room
    split
    · refine Acts.trans ?_ (acts_settleJoin _ _ _ _ _)
      rename_i m
      have new : inRoster s (joinRecord v j s).id = false := by rw [inRoster_eq]; exact congrArg Option.isSome hv
      refine ((frames_addRecord _ s new (Nat.zero_le _)).trans (frames_examineJoin _ _ _)).acts fun k =>
        agree_examineJoin k.agree (by rw [heldIn_eq, hv]; rfl) ?_ (by simp) (by simp) fun u => ?_
      · unfold joinMarks resOf resRec at m ⊢
        rw [(addRecord_rest _ _).2.2.1]
        exact m
      · rw [heldIn_eq, vehicle_addRecord (of_decide_eq_true room) new, heldIn_eq]
        show Option.getD (Option.map _ (if u = v then _ else _)) _ = _
        split <;> rfl
    · rename_i m
      rw [examineJoin_unmarked (by simpa using m)]
      exact (acts_raise _ _ s).trans (acts_makeHoldDue _ _)
  · exact (acts_raise _ _ s).trans (acts_makeHoldDue _ _)

/-- The moves of a vehicle are detached, the records of vehicles stay. -/
theorem detach_known (x : Vehicle) (u : Nat) (s : State) : (vehicle (detach x s).2 u).isSome = (vehicle s u).isSome := by
  have all : ∀ (ms : List Nat) (t : State), (returnAll ms t).roster = t.roster := by
    intro ms
    induction ms with
    | nil => intro t; rfl
    | cons m ms ih => intro t; exact (ih _).trans (returnToWaiting_rest m t).2.2.2.1
  have two : (vehicle (setNextMove x.id none (setMoveField x.id none s)) u).isSome = (vehicle s u).isSome := by
    unfold setNextMove setMoveField
    rw [vehicle_updVehicle, Option.isSome_map, vehicle_updVehicle, Option.isSome_map]
    · exact fun _ e => e
    · exact fun _ e => e
  unfold detach
  simp only
  rw [vehicle_congr (all _ _)]
  split
  · rw [vehicle_congr (s := setNextMove x.id none (setMoveField x.id none s)) (by simp)]; exact two
  · exact two

/-- A vehicle without its holdings is named nowhere (R44). -/
theorem quiet_stripHoldings {v : Nat} {s : State} (h : Sound s) (hv : (vehicle s v).isSome = true) :
    Quiet v (stripHoldings v s) :=
  quiet_settle _ _ (quiet_dropHoldings ((acts_withdrawClaim v s).sound h) ((withdrawClaim_known v v s).trans hv))

theorem discardDue_known (v u : Nat) (s : State) : (vehicle (discardDue v s) u).isSome = (vehicle s u).isSome := by
  rw [discardDue, vehicle_congr (t := severVehicle v _) (s := updDue v (fun _ => DueSet.empty) s) rfl, updDue, vehicle_updVehicle,
    Option.isSome_map]
  exact fun _ e => e

/-- A known vehicle's JOIN keeps the stores and their agreement. -/
theorem acts_joinKnown (x : Vehicle) (j : JoinData) (s : State) (hx : (vehicle s x.id).isSome = true) :
    Acts s (joinKnown x j s) := by
  have stripped := (acts_detach x s).trans (acts_stripHoldings x.id _)
  have quiet : Sound s → Quiet x.id (stripHoldings x.id (detach x s).2) := fun h =>
    quiet_stripHoldings ((acts_detach x s).sound h) ((detach_known x x.id s).trans hx)
  unfold joinKnown
  simp only
  split
  · refine Acts.trans ?_ (acts_settleJoin _ _ _ _ _)
    rename_i m
    -- the record is set afresh while the vehicle holds nothing, then takes the segment
    have cleared := stripped.trans (acts_discardDue x.id _)
    refine cleared.after ((frames_updVehicle x.id (rejoinRecord j s) _ (by exact fun _ e => e)
      (by exact fun _ _ => Nat.zero_le _)).trans (frames_examineJoin _ _ _)) fun h k => ?_
    have q := quiet h
    have known := (discardDue_known x.id x.id _).trans q.known
    obtain ⟨y, hy⟩ := Option.isSome_iff_exists.1 known
    refine agree_examineJoin k.agree (k.holdsNothing fun p hp => q.unnamed p (by simpa using hp)) ?_ rfl rfl fun u => ?_
    · unfold joinMarks resOf resRec at m ⊢
      simpa using m
    · split
      · rename_i e
        subst e
        exact heldIn_changed (by exact fun _ e => e) hy
      · rename_i e; exact heldIn_other (by exact fun _ e => e) e
  · rename_i m
    refine Acts.trans ?_ (acts_failAside _ _)
    refine Acts.trans ?_ (acts_makeHoldDue _ _)
    rw [examineJoin_unmarked (by simpa using m)]
    refine (stripped.trans (acts_raise _ _ _)).afterActs (frames_removeRecord _ _) fun h => acts_removeRecord _ _ ?_
    rw [(raise_rest _ _ _).2.2.2.1]
    exact (stripped.sound h).holdsNothing (quiet h).unnamed

theorem acts_takeJoin (e : TrackEntry) (s : State) : Acts s (takeJoin e s) := by
  unfold takeJoin
  split
  · simp only
    split
    · rename_i h; exact acts_joinUnknown _ _ _ h
    · split
      · exact (acts_noteFrame _ s).trans (acts_arrivingFrame _ _ _)
      · have h := fun seg => (acts_noteFrame e s).trans (acts_restoreLost true e.src seg _)
        split
        · exact h _
        · rename_i hy
          exact (h _).trans (acts_joinKnown _ _ _ (by rw [vehicle_id hy, hy]; rfl))
  · exact Acts.refl s

theorem acts_takePositionFrame (e : TrackEntry) (s : State) : Acts s (takePositionFrame e s) := by
  unfold takePositionFrame
  split
  · split
    · rename_i h; exact acts_joinUnknown _ _ _ h
    · simp only
      split
      · exact (acts_noteFrame _ s).trans (acts_arrivingFrame _ _ _)
      · have h := fun seg => (acts_noteFrame e s).trans (acts_restoreLost false e.src seg _)
        split
        · refine Acts.trans ?_ (acts_takePosition _ _ _)
          refine Acts.trans ?_ (acts_vehicle _ _ _ fun _ => ⟨rfl, rfl, rfl⟩)
          exact h _
        · exact h _
  · exact Acts.refl s

theorem acts_takeStatus (h : Nat → StatusData → State → State) (hh : ∀ v d s, Acts s (h v d s)) (e : TrackEntry)
    (s : State) : Acts s (takeStatus h e s) := by
  unfold takeStatus
  split
  · split
    · exact acts_makeHoldDue _ _
    · simp only
      split
      · exact (acts_noteFrame _ s).trans (acts_arrivingFrame _ _ _)
      · have k := fun seg => (acts_noteFrame e s).trans (acts_restoreLost false e.src seg _)
        split
        · exact (k _).trans (hh _ _ _)
        · exact k _
  · exact Acts.refl s

theorem acts_takeFault (v : Nat) (d : StatusData) (s : State) : Acts s (takeFault v d s) := by
  unfold takeFault
  simp only
  split
  · exact acts_raise _ _ _
  · split
    · exact (acts_raise _ _ s).trans (acts_outOfService _ _ _ _)
    · exact (acts_raise _ _ s).trans (acts_makeHoldDue _ _)

theorem acts_takeCleared (v : Nat) (d : StatusData) (s : State) : Acts s (takeCleared v d s) := by
  unfold takeCleared
  split
  · exact Acts.refl s
  · split
    · split
      · exact (acts_createUnrouted _ _ s).trans (acts_returnToService _ _ _)
      · exact acts_returnToService _ _ _
    · exact acts_returnToService _ _ _
    · exact Acts.refl s

/-- A vehicle frame taken from the receive queue acts (R68). -/
theorem acts_takeTrack (p : VehicleFrame → Bool) (h : TrackEntry → State → State) (hh : ∀ e s, Acts s (h e s))
    (s : State) : Acts s (takeTrack p h s) := by
  unfold takeTrack
  split
  · split
    · exact Acts.refl s
    · rename_i e rest hq
      split
      · split
        · exact acts_popTrack e rest s hq
        · exact (acts_popTrack e rest s hq).trans (hh _ _)
      · exact Acts.refl s
  · exact Acts.refl s

theorem acts_loseVehicle (v : Nat) (x : Vehicle) (s : State) : Acts s (loseVehicle v x s) := by
  unfold loseVehicle
  exact (acts_raise _ _ s).trans (acts_outOfService _ _ _ _)

theorem acts_silenceFalls (v : Nat) (s : State) : Acts s (silenceFalls v s) := by
  unfold silenceFalls
  split
  · exact Acts.refl s
  · split
    · exact Acts.refl s
    · exact (acts_reachTime _ s).trans (acts_loseVehicle _ _ _)

/-- A record goes with its holdings (R44). -/
theorem acts_removeHolder (v : Nat) (s : State) : Acts s (removeRecord v (dropHoldings v s).2) :=
  (acts_dropHoldings v s).trans (acts_removeRecord v _ (heldIn_dropHoldings v s))

theorem acts_endArriving (c : InClaim) (s : State) : Acts s (endArriving c s).2 := by
  unfold endArriving
  exact (acts_removeHolder _ s).trans (acts_dropInClaim _ _ _)

theorem acts_abandonArrival (c : InClaim) (s : State) : Acts s (abandonArrival c s) := by
  unfold abandonArrival
  exact (((acts_endArriving c s).trans (acts_sendPeer _ _ _ _ _ _ _)).trans (acts_raise _ _ _)).trans (acts_run _ _)

theorem acts_forgetRecord (v : Nat) (s : State) : Acts s (forgetRecord v s) := by
  unfold forgetRecord
  exact ((acts_withdrawClaim v s).trans (acts_removeHolder _ _)).trans (acts_settle _ _ _)

theorem acts_forgetVehicle (x : Vehicle) (s : State) : Acts s (forgetVehicle x s) := by
  unfold forgetVehicle
  split
  · exact acts_abandonArrival _ _
  · simp only
    refine Acts.trans ?_ (acts_forgetRecord _ _)
    refine Acts.trans ?_ (acts_giveUpNext _ _)
    split
    · exact acts_removeMove _ _ _
    · exact Acts.refl s

/-! ### Assignment.lean -/

theorem acts_applyChoice (m : Nat) (c : Choice) (s : State) : Acts s (applyChoice m c s) := by
  unfold applyChoice
  split
  · exact Acts.refl s
  · split
    · exact acts_assignTo _ _ _
    · exact acts_assignNext _ _ _
  · split
    · exact acts_assignByPreemption _ _ _ _
    · exact Acts.refl s

theorem acts_passMoves (s₀ : State) :
    ∀ (xs : List Move) (chosen : List Nat) (s : State), Acts s (passMoves s₀ xs chosen s)
  | [], _, s => Acts.refl s
  | x :: xs, chosen, s => (acts_applyChoice x.id (choose s₀ chosen x) s).trans (acts_passMoves s₀ xs _ _)

theorem acts_writeUrgencies (s : State) : Acts s (writeUrgencies s) := by
  unfold writeUrgencies
  refine acts_updMq rfl (fun h => ?_) fun h y hy => ?_
  · exact
      { size := by rw [List.length_map]; exact h.size
        ids := by
          rw [List.map_map, List.map_congr_left (g := fun x : Move => x.id)]
          · exact h.ids
          · intro x _; simp only [Function.comp_apply]; split <;> rfl
        arrivals := h.arrivals }
  · obtain ⟨x, hx, rfl⟩ := List.mem_map.1 hy
    split
    · exact h x hx
    · exact h x hx

/-! ### Boundary.lean -/

theorem acts_arbitrateSeg (i : Nat) (s : State) : Acts s (arbitrateSeg i s) := acts_run _ _

/-- The entry an answer matches is in the list (R128). -/
theorem matchOut_mem {s : State} {cell : Nat} {p : PeerHead} {e : OutClaim} (h : matchOut s cell p = some e) :
    e ∈ s.bxu.outClaims := List.mem_of_find?_eq_some h

theorem acts_grantTaken (e : OutClaim) (s : State) (he : e ∈ s.bxu.outClaims) (hp : e.phase ≠ .granted) :
    Acts s (grantTaken e s) := by
  unfold grantTaken
  split
  · rename_i known
    obtain ⟨x, hx⟩ := Option.isSome_iff_exists.1 (inRoster_eq s e.vehicle ▸ known)
    simp only
    refine Acts.trans ?_ (acts_vehicle _ _ _ fun _ => ⟨rfl, rfl, rfl⟩)
    refine (((frames_setRes _ _ s).trans (frames_updBxu (fun h => by rw [List.length_map]; exact h) id fun k =>
      k.outPhases fun c => by split <;> exact ⟨rfl, rfl, rfl⟩)).trans (frames_appendHeld _ _ _)).acts fun k => ?_
    generalize ht : ((setRes e.segment (.borrowed e.vehicle) s).updBxu fun b =>
      { b with outClaims := b.outClaims.map fun c => if c.tag = e.tag then { c with phase := .granted } else c }) = t
    have hq : resIn s.srt e.segment = some (.claiming e.vehicle) :=
      (k.agree.claiming _ _).2 ⟨e, he, rfl, rfl, iff_false_intro hp⟩
    have unique : ∀ c ∈ s.bxu.outClaims, c.tag = e.tag ∨ c.segment = e.segment → c = e := fun c hc h =>
      h.elim (fun t => List.inj_on_of_nodup_map k.claims.outTags hc he t)
        fun t => List.inj_on_of_nodup_map k.claims.segments hc he t
    have nobody : ∀ u, e.segment ∉ heldIn s.roster u := fun u m => by
      rw [k.agree.holds, namedIn_of hq] at m; cases m
    have srt : (appendHeld e.vehicle e.segment t).srt = (setRes e.segment (.borrowed e.vehicle) s).srt := by
      subst ht; simp [appendHeld]
    have ros : t.roster = s.roster := by subst ht; simp
    have out : (appendHeld e.vehicle e.segment t).bxu.outClaims =
        s.bxu.outClaims.map fun c => if c.tag = e.tag then { c with phase := .granted } else c := by
      subst ht; simp [appendHeld]
    have held : ∀ u, heldIn (appendHeld e.vehicle e.segment t).roster u =
        if u = e.vehicle then x.held ++ [e.segment] else heldIn s.roster u := fun u => by
      rw [heldIn_appendHeld (by rw [vehicle_congr ros]; exact hx), ros]
    have entry : { e with phase := .granted } ∈ (appendHeld e.vehicle e.segment t).bxu.outClaims := by
      rw [out]; exact List.mem_map.2 ⟨e, he, if_pos rfl⟩
    refine k.agree.segment (i := e.segment) (p := .borrowed e.vehicle) hq ?_ ?_ rfl (by simp [Res.plain]) (List.nodup_singleton _) ?_ ?_ ?_ ?_ ?_
      fun _ _ _ => rfl
    · rw [srt, resIn_setRes, if_pos rfl, hq]; rfl
    · intro j n; rw [srt, resIn_setRes, if_neg n]
    · intro u j
      rw [held]
      by_cases eu : u = e.vehicle
      · rw [if_pos eu, eu, ← heldIn_of hx, List.mem_append, List.mem_singleton]
        split
        · rename_i n; simp [n, Res.named]
        · rename_i n; simp [n]
      · rw [if_neg eu]
        split
        · rename_i n; rw [n]; simp [nobody u, Res.named, eu]
        · exact Iff.rfl
    · intro u
      rw [held]
      split
      · rw [← heldIn_of hx]; exact nodup_concat (k.agree.listed _) (nobody _)
      · exact k.agree.listed u
    · intro c hs
      rw [out, List.mem_map]
      constructor
      · rintro ⟨d, hd, rfl⟩
        split at hs
        · rename_i et; exact absurd (by rw [unique d hd (.inl et)]) hs
        · rename_i et; rw [if_neg et]; exact hd
      · exact fun hc => ⟨c, hc, if_neg fun et => hs (by rw [unique c hc (.inl et)])⟩
    · intro u
      refine ⟨fun h => by simp at h, fun ⟨c, hc, es, _, ep⟩ => ?_⟩
      rw [out, List.mem_map] at hc
      obtain ⟨d, hd, rfl⟩ := hc
      split at es
      · rename_i et; rw [if_pos et] at ep; exact absurd rfl ep.1
      · rename_i et; exact absurd (by rw [unique d hd (.inr es)]) et
    · intro u h
      cases h
      exact ⟨_, entry, rfl, rfl, iff_true_intro rfl⟩
  · exact acts_endOutClaim e s he

/-- Every entry of the tag is then GRANTED, and it is this vehicle's. -/
theorem grantTaken_entries {e : OutClaim} {s : State} (h : Sound s) (he : e ∈ s.bxu.outClaims) :
    ∀ c ∈ (grantTaken e s).bxu.outClaims, c.tag = e.tag → c.phase = .granted ∧ c.vehicle = e.vehicle := by
  intro c hc
  unfold grantTaken at hc
  split at hc
  · have : ((setRes e.segment (.borrowed e.vehicle) s).updBxu fun b =>
        { b with outClaims := b.outClaims.map fun c => if c.tag = e.tag then { c with phase := .granted } else c }).bxu.outClaims =
        s.bxu.outClaims.map fun c => if c.tag = e.tag then { c with phase := .granted } else c := by simp
    simp only [appendHeld, updVehicle_rest, makeGrantDue_rest, this] at hc
    obtain ⟨d, hd, rfl⟩ := List.mem_map.1 hc
    split
    · rename_i t
      rw [List.inj_on_of_nodup_map h.claims.outTags hd he t]
      exact fun _ => ⟨rfl, rfl⟩
    · rename_i k; exact fun t => absurd t k
  · have : (endOutClaim e s).bxu.outClaims = s.bxu.outClaims.filter fun c => c.tag ≠ e.tag := by
      unfold endOutClaim; simp only; split <;> simp [dropOutClaim]
    rw [this] at hc
    exact fun t => absurd t (by simpa using (List.mem_filter.1 hc).2)

theorem OutClaim.notGranted {e : OutClaim} (h : e.isClaiming = true) : e.phase ≠ .granted := by
  intro k; unfold OutClaim.isClaiming at h; rw [k] at h; cases h

theorem acts_takeGrant (cell : Nat) (p : PeerHead) (s : State) : Acts s (takeGrant cell p s) := by
  unfold takeGrant
  split
  · rename_i h
    split
    · rename_i c; exact acts_grantTaken _ _ (matchOut_mem h) (OutClaim.notGranted c)
    · exact Acts.refl s
  · exact Acts.refl s

theorem acts_takeRefuse (cell : Nat) (p : PeerHead) (s : State) : Acts s (takeRefuse cell p s) := by
  unfold takeRefuse
  split
  · rename_i h
    split
    · exact (acts_endOutClaim _ s (matchOut_mem h)).trans (acts_arbitrateSeg _ _)
    · exact Acts.refl s
  · exact Acts.refl s

theorem acts_discardFrames (v : Nat) (s : State) : Acts s (discardFrames v s) := by
  unfold discardFrames
  refine Acts.trans ?_ (acts_updatePacing _)
  exact acts_updTli List.filter_sublist id

theorem frames_crossingEnds (e : OutClaim) (s : State) : Frames s (crossingEnds e s) := by
  have away : ∀ t, Acts s t → Frames s (dropOutClaim e.tag (removeRecord e.vehicle (dropHoldings e.vehicle t).2)) :=
    fun t a => (a.trans (acts_removeHolder e.vehicle t)).toFrames.trans (frames_dropOutClaim _ _)
  unfold crossingEnds
  simp only
  refine Frames.trans ?_ (acts_settle _ _ _).toFrames
  split
  · split
    · exact away _ ((acts_removeMove _ _ s).trans (acts_discardFrames _ _))
    · exact away _ (acts_removeMove _ _ s)
  · split
    · exact away _ (acts_discardFrames _ s)
    · exact away _ (Acts.refl s)

/-- A crossing ends for a GRANTED entry (R135). -/
theorem acts_crossingEnds (e : OutClaim) (s : State)
    (h : Sound s → ∀ c ∈ s.bxu.outClaims, c.tag = e.tag → c.phase = .granted ∧ c.vehicle = e.vehicle) :
    Acts s (crossingEnds e s) := by
  have away : ∀ t, t.bxu = s.bxu → Acts s t → Acts s (dropOutClaim e.tag (removeRecord e.vehicle (dropHoldings e.vehicle t).2)) := by
    intro t ht a
    have b := a.trans (acts_removeHolder e.vehicle t)
    refine b.afterActs (frames_dropOutClaim _ _) fun k => acts_dropOutClaim _ _ fun k' c hc et => ?_
    have hc : c ∈ s.bxu.outClaims := by
      have : (removeRecord e.vehicle (dropHoldings e.vehicle t).2).bxu = t.bxu := by
        unfold dropHoldings; split <;> simp [removeRecord, dropVehicle, severVehicle]
      rw [this, ht] at hc; exact hc
    refine ⟨(h k c hc et).1, fun r => ?_⟩
    rw [(h k c hc et).2] at r
    have m := (k'.agree.holds e.vehicle c.segment).2 (by rw [namedIn_of r]; exact List.mem_singleton.2 rfl)
    rw [heldIn_eq, removeRecord, vehicle_dropVehicle, if_pos rfl] at m
    cases m
  unfold crossingEnds
  simp only
  refine Acts.trans ?_ (acts_settle _ _ _)
  split
  · split
    · exact away _ (by simp [discardFrames]) ((acts_removeMove _ _ s).trans (acts_discardFrames _ _))
    · exact away _ (by simp) (acts_removeMove _ _ s)
  · split
    · exact away _ (by simp [discardFrames]) (acts_discardFrames _ s)
    · exact away _ rfl (Acts.refl s)

theorem acts_takeArrived (cell : Nat) (p : PeerHead) (s : State) : Acts s (takeArrived cell p s) := by
  unfold takeArrived
  split
  · rename_i e h
    split
    · rename_i c
      have a := acts_grantTaken _ s (matchOut_mem h) (OutClaim.notGranted c)
      refine a.afterActs (frames_crossingEnds _ _) fun k => acts_crossingEnds _ _ fun _ =>
        grantTaken_entries k (matchOut_mem h)
    · rename_i k
      refine acts_crossingEnds _ _ fun hs c hc et => ?_
      have : c = e := List.inj_on_of_nodup_map (by simpa using hs.claims.outTags) hc (matchOut_mem h) et
      rw [this]
      unfold OutClaim.isClaiming at k
      split at k
      · exact absurd rfl k
      · exact ⟨by assumption, rfl⟩
  · exact Acts.refl s

theorem acts_takeAbandon (cell : Nat) (p : PeerHead) (s : State) : Acts s (takeAbandon cell p s) := by
  unfold takeAbandon
  split
  · rename_i h
    simp only
    refine Acts.trans ?_ (acts_arbitrateSeg _ _)
    refine Acts.trans ?_ (acts_raise _ _ _)
    have ended := acts_endOutClaim _ s (matchOut_mem h)
    split
    · exact ended
    · exact ended.trans (acts_outOfService _ _ _ _)
  · exact Acts.refl s

theorem acts_claimTimeout (e : OutClaim) (s : State) (he : e ∈ s.bxu.outClaims) : Acts s (claimTimeout e s) := by
  unfold claimTimeout
  simp only
  refine Acts.trans ?_ (acts_raise _ _ _)
  refine Acts.trans ?_ (acts_arbitrateSeg _ _)
  exact (acts_sendPeer _ _ _ _ _ _ s).trans (acts_endOutClaim _ _ (by simpa using he))

theorem acts_claimFalls (t : Nat) (s : State) : Acts s (claimFalls t s) := by
  unfold claimFalls
  split
  · rename_i h
    split
    · exact (acts_reachTime _ s).trans (acts_claimTimeout _ _ (List.mem_of_find?_eq_some h))
    · exact Acts.refl s
  · exact Acts.refl s

theorem acts_endInClaim (c : InClaim) (s : State) : Acts s (endInClaim c s) := by
  unfold endInClaim
  split
  · exact (acts_leaveClaimWait _ _ s).trans (acts_dropInClaim _ _ _)
  · exact (acts_endArriving c s).trans (acts_settle _ _ _)

theorem acts_takeWithdraw (cell : Nat) (p : PeerHead) (s : State) : Acts s (takeWithdraw cell p s) := by
  unfold takeWithdraw
  split
  · split
    · exact acts_endInClaim _ _
    · exact Acts.refl s
  · exact Acts.refl s

theorem acts_endStale (cell : Nat) (p : PeerHead) (s : State) : Acts s (endStale cell p s) := by
  have h : Acts s (match inClaim s cell p.tag with | some c => endInClaim c s | none => s) := by
    split
    · exact acts_endInClaim _ _
    · exact Acts.refl s
  unfold endStale
  simp only
  split
  · exact h.trans (acts_endInClaim _ _)
  · exact h

theorem acts_addInClaim (c : InClaim) (s : State) (h : s.bxu.inClaims.length < Config.inClaimsMax)
    (hv : ∀ d ∈ s.bxu.inClaims, d.vehicle ≠ c.vehicle) : Acts s (addInClaim c s) := by
  unfold addInClaim
  refine (acts_dropInClaim c.cell c.tag s).trans (acts_updBxu (fun _ => ?_) (fun k => k.addIn fun d hd => ?_) rfl)
  · rw [List.length_append]
    exact (Nat.succ_le_succ (List.length_filter_le _ _)).trans h
  · obtain ⟨m, k⟩ := List.mem_filter.1 hd
    exact ⟨fun ⟨a, b⟩ => by simp [a, b] at k, hv d m⟩

theorem acts_admitClaim (cell : Nat) (p : PeerHead) (m : Summary) (s : State) : Acts s (admitClaim cell p m s) := by
  unfold admitClaim
  simp only
  split
  · exact acts_sendRefuse _ _ _ _ _ _
  · rename_i dup
    rw [Bool.or_eq_true, not_or] at dup
    split
    · exact acts_sendRefuse _ _ _ _ _ _
    · rename_i room
      split
      · exact acts_sendRefuse _ _ _ _ _ _
      · rename_i short
        have add := fun c (hc : InClaim.vehicle c = p.vehicle) => acts_addInClaim c s (not_le.1 short) fun d hd e =>
          dup.1 (List.any_eq_true.2 ⟨d, hd, by simpa using e.trans hc⟩)
        split
        · rename_i clear
          refine (add _ rfl).trans (acts_grantClaim _ _ ?_ ?_ clear.1)
          · exact (inRoster_congr (s := s) rfl p.vehicle).trans (by simpa using dup.2)
          · exact (show rosterHasRoom s = true by simpa using room)
        · split
          · exact acts_sendRefuse _ _ _ _ _ _
          · rename_i full
            have wait : ∀ c : InClaim, c.segment = p.segment → c.vehicle = p.vehicle →
                Acts s (enterClaimWait c (addInClaim c s)) := by
              intro c hc hv
              refine (add c hv).trans (acts_appendWait _ _ _ ?_)
              rw [hc]
              exact not_le.1 full
            split
            · exact (wait _ rfl rfl).trans (acts_arbitrateSeg _ _)
            · exact wait _ rfl rfl

theorem acts_takeClaim (cell : Nat) (q : PeerHead × Summary) (s : State) : Acts s (takeClaim cell q s) := by
  unfold takeClaim
  simp only
  split
  · exact acts_sendRefuse _ _ _ _ _ _
  · split
    · exact acts_sendRefuse _ _ _ _ _ _
    · split
      · exact acts_sendRefuse _ _ _ _ _ _
      · split
        · split
          · exact acts_sendPeer _ _ _ _ _ _ _
          · exact Acts.refl s
        · exact (acts_endStale _ _ s).trans (acts_admitClaim _ _ _ _)

theorem acts_arrivalFalls (c t : Nat) (s : State) : Acts s (arrivalFalls c t s) := by
  unfold arrivalFalls
  split
  · split
    · exact (acts_reachTime _ s).trans (acts_abandonArrival _ _)
    · exact Acts.refl s
  · exact Acts.refl s

/-- A peer frame taken from the inbound queue acts (R128). -/
theorem acts_servePeer {α : Type} (kind : Nat) (read : List Byte → Option α) (h : Nat → α → State → State)
    (hh : ∀ c a s, Acts s (h c a s)) (s : State) : Acts s (servePeer kind read h s) := by
  unfold servePeer
  split
  · split
    · exact Acts.refl s
    · rename_i f rest hq
      split
      · have pop : Acts s (s.updFli fun l => { l with inbound := rest }) :=
          { Acts.refl s with
            mc := .inl rfl
            alarm := AlarmOk.congr rfl rfl rfl
            inbound := by
              show rest.Sublist _
              rw [hq]; exact List.sublist_cons_self _ _
            stores := fun k => { k with }
            agree := fun k => k.agree }
        simp only
        split
        · exact pop
        · split
          · exact pop.trans (hh _ _ _)
          · exact pop.trans (acts_raise _ _ _)
      · exact Acts.refl s
  · exact Acts.refl s

end Sys2Proof.Machine
end

