-- ==== Sys2Proof/Laws/Invariant.lean ====
section
/-! SUPPORT. The invariant through the operations: `InvAt n` is the invariant with `n` reply reservations more than
the waiting answers need, so that `InvAt 1` holds while a request is handled. -/

namespace Sys2Proof.Machine

/-- `Settled` with `n` further reply reservations open. -/
structure SettledAt (n : Nat) (s : State) : Prop where
  parked : s.mode = .parked → ParkedClear s
  halt : s.mode = .dispatching → s.effectiveHalt = false
  checkParked : s.mc.check.isSome = true → s.mode = .parked
  writeParked : s.mc.write.isSome = true → s.mode = .parked
  oneAnswer : s.mc.check = none ∨ s.mc.write = none
  noPass : s.asu.passRunning = false
  reservations : s.running = true → s.fli.reservations = openAnswers s + n
  queue : s.tli.queue.length ≤ Config.trackQueueMax
  inbound : s.fli.inbound.length ≤ Config.inboundMax
  segments : s.srt.map (·.1) = s.layout.segs.map (·.1)
  layout : LayoutOk s.layout

structure InvAt (n : Nat) (s : State) : Prop where
  sound : Sound s
  alarm : AlarmOk s
  settled : SettledAt n s

theorem inv_iff (s : State) : Inv s ↔ InvAt 0 s :=
  ⟨fun h => ⟨h.sound, h.alarm, { h.settled with }⟩, fun h => ⟨h.sound, h.alarm, { h.settled with }⟩⟩

/-! ### What PARKED rests on -/

/-- Only the status unit and the floor queues differ. -/
def Reported (s t : State) : Prop := t = { s with su := t.su, fli := t.fli }

theorem Reported.refl (s : State) : Reported s s := rfl

theorem Reported.trans {s t u : State} (h : Reported s t) (k : Reported t u) : Reported s u := by
  unfold Reported at *
  rw [k, h]

theorem reported_pushOut (f : FloorFrame) (s : State) : Reported s (pushOut f s) := rfl

theorem haltOccurrence_idle {s : State} (h : s.mode ≠ .dispatching) : haltOccurrence s = s := by
  unfold haltOccurrence; rw [if_neg h]

theorem Reported.mode {s t : State} (h : Reported s t) : t.mode = s.mode := by
  unfold Reported at h; rw [h]; rfl

theorem reported_occur (notify : Detail → State → State)
    (hn : ∀ d s, s.mode ≠ .dispatching → Reported s (notify d s)) (k : EventKind) (d : Detail) (s : State)
    (h : s.mode ≠ .dispatching) : Reported s (occur notify k d s) := by
  have step : ∀ t : State, Reported s t → Reported s (if severityOf s k = .halt then haltOccurrence (updateAlarm t) else updateAlarm t) := by
    intro t ht
    have hu : Reported s (updateAlarm t) := ht.trans (by unfold Reported updateAlarm; rfl)
    split
    · rw [haltOccurrence_idle (by rw [hu.mode]; exact h)]; exact hu
    · exact hu
  unfold occur
  simp only
  apply step
  split
  · exact Reported.refl s
  · split
    · unfold Reported; rfl
    · refine Reported.trans (t := s.updSu _) (by unfold Reported; rfl) (hn _ _ h)

theorem reported_notifyLost (d : Detail) (s : State) (h : s.mode ≠ .dispatching) : Reported s (notifyLost d s) := by
  unfold notifyLost
  split
  · exact reported_pushOut _ s
  · exact reported_occur _ (fun _ t _ => Reported.refl t) _ _ s h

theorem reported_notify (d : Detail) (s : State) (h : s.mode ≠ .dispatching) : Reported s (notify d s) := by
  unfold notify
  split
  · exact reported_pushOut _ s
  · exact reported_occur _ (fun _ t ht => reported_notifyLost _ t ht) _ _ s h

/-- Outside DISPATCHING an occurrence changes the status unit and the floor queues only (R169, R178). -/
theorem reported_raise (k : EventKind) (d : Detail) (s : State) (h : s.mode ≠ .dispatching) :
    Reported s (raise k d s) := reported_occur _ reported_notify _ _ s h

theorem reported_sendPeer (dst kind tag seg v : Nat) (extra : List Byte) (s : State) (h : s.mode ≠ .dispatching) :
    Reported s (sendPeer dst kind tag seg v extra s) := by
  unfold sendPeer
  split
  · exact reported_pushOut _ s
  · exact reported_raise _ _ s h

theorem ParkedClear.reported {s t : State} (h : ParkedClear s) (r : Reported s t) : ParkedClear t := by
  unfold Reported at r
  rw [r]
  exact { h with srt := h.srt }

/-- The receive queue, its answers and pacing aside, the track line keeps its strays. -/
theorem ParkedClear.line {s : State} {f : Tli → Tli} (h : ParkedClear s)
    (hs : (f s.tli).strayHolds = s.tli.strayHolds) : ParkedClear (s.updTli f) :=
  { h with strayHolds := hs.trans h.strayHolds, srt := h.srt }

/-! ### Acting keeps the invariant -/

theorem openAnswers_congr {s t : State} (hc : t.mc.check = s.mc.check) (hw : t.mc.write = s.mc.write) :
    openAnswers t = openAnswers s := by
  unfold openAnswers; rw [hc, hw]

theorem Acts.running {s t : State} (a : Acts s t) : t.running = s.running := by
  unfold State.running; rw [a.power, a.resetPin]

theorem InvAt.acts {n : Nat} {s t : State} (h : InvAt n s) (a : Acts s t) (hp : s.mode = .parked → ParkedClear t) :
    InvAt n t where
  sound := a.sound h.sound
  alarm := a.alarm h.alarm
  settled := by
    have hs := h.settled
    have hmc : t.mc.check = s.mc.check ∧ t.mc.write = s.mc.write := by
      rcases a.mc with e | ⟨_, e⟩ <;> rw [e] <;> exact ⟨rfl, rfl⟩
    have hpk : s.mode = .parked → t.mode = .parked := fun e => by
      rcases a.mc with k | ⟨k, _⟩
      · unfold State.mode at *; rw [k]; exact e
      · rw [e] at k; exact absurd k (by decide)
    exact
      { parked := fun e => hp (by
          rcases a.mc with k | ⟨_, k⟩
          · unfold State.mode at *; rw [← k]; exact e
          · unfold State.mode at e; rw [k] at e; exact absurd e (by simp))
        halt := fun e => by
          rcases a.mc with k | ⟨_, k⟩
          · have : t.effectiveHalt = s.effectiveHalt := by unfold State.effectiveHalt State.haltLine; rw [k]
            rw [this]; apply hs.halt; unfold State.mode at *; rw [← k]; exact e
          · unfold State.mode at e; rw [k] at e; exact absurd e (by simp)
        checkParked := fun e => hpk (hs.checkParked (by rw [← hmc.1]; exact e))
        writeParked := fun e => hpk (hs.writeParked (by rw [← hmc.2]; exact e))
        oneAnswer := by rw [hmc.1, hmc.2]; exact hs.oneAnswer
        noPass := a.passRunning.trans hs.noPass
        reservations := fun e => by
          rw [a.reservations, openAnswers_congr hmc.1 hmc.2]; exact hs.reservations (a.running ▸ e)
        queue := a.queue.length_le.trans hs.queue
        inbound := a.inbound.length_le.trans hs.inbound
        segments := by rw [a.segments, a.layout]; exact hs.segments
        layout := by rw [a.layout]; exact hs.layout }

/-! ### Requests (R160 to R163) -/

theorem takesFront_room {s : State} (h : takesFront s = true) : occupancy s < Config.outboundMax ∧ s.mc.write = none := by
  unfold takesFront at h
  simp only [Bool.and_eq_true, decide_eq_true_eq, Option.isNone_iff_eq_none] at h
  exact h

theorem invAt_openRequest {s : State} {f : FloorFrame} {rest : List FloorFrame} (h : InvAt 0 s)
    (hq : s.fli.inbound = f :: rest) (ho : occupancy s < Config.outboundMax) : InvAt 1 (openRequest rest s) where
  sound :=
    { h.sound with
      occupancy := by
        show s.fli.outbound.length + (s.fli.reservations + 1) ≤ _
        unfold occupancy at ho; omega }
  alarm := AlarmOk.congr rfl rfl rfl h.alarm
  settled :=
    { h.settled with
      parked := fun e => { h.settled.parked e with srt := (h.settled.parked e).srt }
      reservations := fun e => by
        show s.fli.reservations + 1 = _
        rw [h.settled.reservations e]; rfl
      inbound := by
        have := h.settled.inbound
        rw [hq] at this
        exact Nat.le_of_succ_le this }

theorem invAt_appendReply {n : Nat} {s : State} (asker : ReplyTo) (kind : Nat) (r : Reply) (h : InvAt (n + 1) s)
    (hr : s.running = true) : InvAt n (appendReply asker kind r s) where
  sound :=
    { h.sound with
      occupancy := by
        have := h.sound.occupancy
        have e := h.settled.reservations hr
        show (s.fli.outbound ++ [_]).length + (s.fli.reservations - 1) ≤ _
        unfold occupancy at this
        simp only [List.length_append, List.length_singleton]
        omega }
  alarm := AlarmOk.congr rfl rfl rfl h.alarm
  settled :=
    { h.settled with
      parked := fun e => { h.settled.parked e with srt := (h.settled.parked e).srt }
      reservations := fun e => by
        show s.fli.reservations - 1 = _
        rw [h.settled.reservations e]; rfl }

/-- A request handled keeps the invariant if its handling keeps `InvAt 1`, or ends in `InvAt 0` where it leaves the
answer open. -/
theorem inv_serveRequest {p : FloorFrame → Bool} {h : FloorFrame → State → State × Option Reply} {s : State} (hs : Inv s)
    (hh : ∀ f t, InvAt 1 t → t.running = true → t.mc.write = none → (h f t).1.running = true ∧
      ((h f t).2 = none → InvAt 0 (h f t).1) ∧ ∀ r, (h f t).2 = some r → InvAt 1 (h f t).1) :
    Inv (serveRequest p h s) := by
  unfold serveRequest
  split
  · rename_i hr
    split
    · exact hs
    · rename_i f rest hq
      split
      · rename_i hp
        simp only [Bool.and_eq_true] at hp
        obtain ⟨ho, hw⟩ := takesFront_room hp.1
        have hi := hh f _ (invAt_openRequest ((inv_iff s).1 hs) hq ho) hr hw
        simp only
        split
        · rename_i e; exact (inv_iff _).2 (hi.2.1 e)
        · rename_i r e; exact (inv_iff _).2 (invAt_appendReply _ _ r (hi.2.2 r e) hi.1)
      · exact hs
  · exact hs

/-- The same for a handling that always answers. -/
theorem inv_serveAnswered {p : FloorFrame → Bool} {h : FloorFrame → State → State × Option Reply} {s : State} (hs : Inv s)
    (hh : ∀ f t, InvAt 1 t → t.running = true → (h f t).1.running = true ∧ InvAt 1 (h f t).1 ∧ (h f t).2 ≠ none) :
    Inv (serveRequest p h s) :=
  inv_serveRequest hs fun f t ht hr _ => ⟨(hh f t ht hr).1, fun e => absurd e (hh f t ht hr).2.2, fun _ _ => (hh f t ht hr).2.1⟩

/-- A handler that answers, acts, and changes nothing in PARKED but what is reported. -/
theorem answered_acts {h : State → State × Option Reply} {t : State} (ht : InvAt 1 t) (hr : t.running = true)
    (ha : Acts t (h t).1) (hp : t.mode = .parked → ParkedClear (h t).1) (hn : (h t).2 ≠ none) :
    (h t).1.running = true ∧ InvAt 1 (h t).1 ∧ (h t).2 ≠ none :=
  ⟨ha.running.trans hr, ht.acts ha hp, hn⟩

/-- What a handling that always answers must show. -/
def Answers (r : State × Option Reply) : Prop :=
  r.1.running = true ∧ InvAt 1 r.1 ∧ r.2 ≠ none

theorem answers_same {t : State} (ht : InvAt 1 t) (hr : t.running = true) (o : Option Reply) (h : o ≠ none) :
    Answers (t, o) := ⟨hr, ht, h⟩

theorem answers_refuse {t : State} (ht : InvAt 1 t) (hr : t.running = true) (c : Code) : Answers (refuse c t) :=
  answers_same ht hr _ (by simp)

theorem answers_done {t u : State} (ht : InvAt 1 t) (hr : t.running = true) (ha : Acts t u)
    (hp : t.mode ≠ .parked) : Answers (done u) :=
  ⟨ha.running.trans hr, ht.acts ha fun e => absurd e hp, by simp [done]⟩

theorem answers_withPayload {α : Type} {read : List Byte → Option α} {h : FloorFrame → α → State → State × Option Reply}
    {f : FloorFrame} {t : State} (ht : InvAt 1 t) (hr : t.running = true) (hh : ∀ a, Answers (h f a t)) :
    Answers (withPayload read h f t) := by
  unfold withPayload
  split
  · exact answers_refuse ht hr _
  · exact hh _

theorem notParked {s : State} (h : ¬ dispatchRefused s = true) : s.mode ≠ .parked := by
  unfold dispatchRefused at h
  simp only [Bool.or_eq_true, not_or, beq_iff_eq] at h
  exact h.2

theorem inv_move {s : State} (hs : Inv s) :
    Inv (serveRequest (isKind kindMove) (withPayload readMove serveMove) s) := by
  refine inv_serveAnswered hs fun f t ht hr => answers_withPayload ht hr fun q => ?_
  unfold serveMove
  split
  · exact answers_refuse ht hr _
  rename_i hd
  have hp := notParked hd
  split
  · exact answers_refuse ht hr _
  split
  · exact answers_refuse ht hr _
  split
  · exact answers_refuse ht hr _
  split
  · rename_i x hx
    have ha := acts_adoptMove q x t
    refine ⟨ha.running.trans hr, ht.acts ha fun e => absurd e hp, ?_⟩
    unfold adoptMove
    split <;> simp [done, refuse]
  · rename_i hx
    split
    · exact answers_refuse ht hr _
    split
    · exact answers_refuse ht hr _
    · rename_i hroom
      refine answers_done ht hr ((acts_appendMove _ _ (by omega) hx ⟨?_, rfl⟩).trans (acts_setPassDue _)) hp
      simp [MoveRequest.record]

theorem inv_cancel {s : State} (hs : Inv s) :
    Inv (serveRequest (isKind kindCancel) (withPayload readNum2 serveCancel) s) := by
  refine inv_serveAnswered hs fun f t ht hr => answers_withPayload ht hr fun m => ?_
  unfold serveCancel
  split
  · exact answers_refuse ht hr _
  rename_i hd
  split
  · exact answers_refuse ht hr _
  split
  · exact answers_refuse ht hr _
  · split
    · rename_i u hu
      exact answers_done ht hr (acts_cancelMove _ _ _ hu) (notParked hd)
    · exact answers_refuse ht hr _

theorem inv_forget {s : State} (hs : Inv s) :
    Inv (serveRequest (isKind kindForget) (withPayload readNum1 serveForget) s) := by
  refine inv_serveAnswered hs fun f t ht hr => answers_withPayload ht hr fun v => ?_
  unfold serveForget
  split
  · exact answers_refuse ht hr _
  rename_i hd
  split
  · exact answers_refuse ht hr _
  split
  · exact answers_refuse ht hr _
  · exact answers_done ht hr (acts_forgetVehicle _ _) (notParked hd)

theorem inv_closure {s : State} (hs : Inv s) (kind : Nat) (h : Nat → State → State) (hh : ∀ i t, Acts t (h i t)) :
    Inv (serveRequest (isKind kind) (withPayload readNum2 (serveClosure h)) s) := by
  refine inv_serveAnswered hs fun f t ht hr => answers_withPayload ht hr fun i => ?_
  unfold serveClosure
  split
  · exact answers_refuse ht hr _
  rename_i hd
  split
  · exact answers_refuse ht hr _
  split
  · exact answers_refuse ht hr _
  · exact answers_done ht hr (hh _ _) (notParked hd)

/-- A closure names nobody new (R39, R40). -/
theorem acts_block (i : Nat) (s : State) : Acts s (modRes i blockRes s) :=
  acts_modRes _ _ _ (fun r h => by cases r <;> first | exact ⟨rfl, h⟩ | exact ⟨rfl, by simp [blockRes, Res.plain]⟩)
    fun r => by cases r <;> simp [blockRes, Res.isForeignKind]

theorem acts_unblocked (i : Nat) (s : State) : Acts s (modRes i unblockRes s) :=
  acts_modRes _ _ _ (fun r h => by
    unfold unblockRes
    split
    · simp [Res.named, Res.plain]
    · rename_i v n
      cases n with
      | none => simp [Res.named, Res.plain]
      | some w => exact absurd rfl (h v w)
    · simp [Res.named, Res.plain]
    · exact ⟨rfl, h⟩) fun r => by unfold unblockRes; split <;> simp [Res.isForeignKind]

theorem acts_unblock (i : Nat) (s : State) : Acts s (unblock i s) := by
  unfold unblock
  simp only
  split
  · exact (acts_unblocked _ s).trans (acts_arbitrateSeg _ _)
  · exact acts_unblocked _ s

theorem inv_query {s : State} (hs : Inv s) (k : Nat) (h : FloorFrame → Nat → State → State × Option Reply)
    (hh : ∀ f n t, (h f n t).1 = t ∧ (h f n t).2 ≠ none) : Inv (serveQuery k h s) := by
  refine inv_serveAnswered hs fun f t ht hr => answers_withPayload ht hr fun n => ?_
  obtain ⟨h1, h2⟩ := hh f n t
  refine ⟨by rw [h1]; exact hr, by rw [h1]; exact ht, h2⟩

theorem inv_unknown {s : State} (hs : Inv s) : Inv (serveRequest isUnknownRequest serveUnknown s) := by
  refine inv_serveAnswered hs fun f t ht hr => ?_
  unfold serveUnknown
  split
  · split
    · exact answers_refuse ht hr _
    split
    · exact answers_refuse ht hr _
    · exact answers_refuse ht hr _
  · exact answers_refuse ht hr _

/-! ### CLEAR and the severities -/

theorem AlarmOk.updated (s : State) : AlarmOk (updateAlarm s) := fun _ => by
  show alarmDue s = alarmDue (updateAlarm s)
  exact (alarmDue_congr rfl rfl).symm

theorem invAt_su {n : Nat} {s : State} (h : InvAt n s) (f : Su → Su) (hf : TableWf (f s.su).flags) :
    InvAt n (updateAlarm (s.updSu f)) where
  sound := { h.sound with flags := hf }
  alarm := AlarmOk.updated _
  settled := { h.settled with parked := fun e => { h.settled.parked e with srt := (h.settled.parked e).srt } }

theorem inv_clear {s : State} (hs : Inv s) :
    Inv (serveRequest (isKind kindClear) (withPayload readClear serveClear) s) := by
  refine inv_serveAnswered hs fun f t ht hr => answers_withPayload ht hr fun codes => ?_
  unfold serveClear
  split
  · exact answers_refuse ht hr _
  split
  · exact answers_refuse ht hr _
  · exact ⟨hr, invAt_su ht _ (ht.sound.flags.filter _), by simp [done]⟩

/-! ### LOAD -/

theorem answers_serveLoad {size bound : Nat} {b : Bool} {h : Nat → List Byte → State → State × Option Reply}
    {f : FloorFrame} {t : State} (ht : InvAt 1 t) (hr : t.running = true)
    (hh : ∀ i record, (b = true → t.mode = .parked) → t.mc.check = none → i < bound → Answers (h i record t)) :
    Answers (serveLoad size b bound h f t) := by
  unfold serveLoad
  split
  · exact answers_refuse ht hr _
  · split
    · exact answers_refuse ht hr _
    split
    · exact answers_refuse ht hr _
    rename_i hc
    split
    · exact answers_refuse ht hr _
    rename_i hm
    split
    · exact answers_refuse ht hr _
    · rename_i hb
      refine hh _ _ (fun e => ?_) (by simpa [checkRunning] using hc) (by omega)
      subst e
      simpa using hm

/-- The layout changes in PARKED, the reservations of the loaded segments staying at rest. -/
theorem invAt_layout {n : Nat} {s : State} (h : InvAt n s) (f : Layout → Layout)
    (hs : (f s.layout).severity = s.layout.severity) (hk : (f s.layout).segs = s.layout.segs)
    (hl : LayoutOk (f s.layout)) : InvAt n (s.updLayout f) where
  sound :=
    { h.sound with
      agree := by
        have e : isForeign (s.updLayout f) = isForeign s := by
          unfold isForeign segment isForeignRec
          rw [State.updLayout_layout, hk, State.updLayout_mc]
        rw [e]; exact h.sound.agree }
  alarm := AlarmOk.congr (s := s) rfl hs rfl h.alarm
  settled :=
    { h.settled with
      parked := fun e =>
        { h.settled.parked e with
          srt := by
            have := (h.settled.parked e).srt
            rw [State.updLayout_srt, this]
            show List.map _ _ = List.map _ (f s.layout).segs
            rw [hk]; rfl }
      segments := by show _ = (f s.layout).segs.map (·.1); rw [hk]; exact h.settled.segments
      layout := hl }

theorem tableWf_putOrDrop {α : Type} {i : Nat} {o : Option α} {t : Table α} (h : TableWf t) : TableWf (putOrDrop i o t) := by
  unfold putOrDrop
  split
  · exact tableWf_tput h
  · exact tableWf_tdrop h

theorem answers_storeLayout {α : Type} {read : List Byte → Option α} {put : Nat → α → Layout → Layout} {i : Nat}
    {record : List Byte} {t : State} (ht : InvAt 1 t) (hr : t.running = true)
    (hs : ∀ a l, (put i a l).severity = l.severity) (hk : ∀ a l, (put i a l).segs = l.segs)
    (hl : ∀ a l, LayoutOk l → LayoutOk { put i a l with validated := false }) :
    Answers (storeLayout read put i record t) := by
  unfold storeLayout
  split
  · exact answers_refuse ht hr _
  · rename_i a _
    refine ⟨hr, ?_, by simp [done]⟩
    show InvAt 1 (t.updLayout fun l => { put i a l with validated := false })
    exact invAt_layout ht _ (hs _ _) (hk _ _) (hl _ _ ht.settled.layout)

theorem inv_loadZone {s : State} (hs : Inv s) :
    Inv (loadRow 1 32 (storeLayout readZone fun i o l => { l with zones := putOrDrop i o l.zones }) s) :=
  inv_serveAnswered hs fun _ _ ht hr => answers_serveLoad ht hr fun _ _ _ _ _ =>
    answers_storeLayout ht hr (fun _ _ => rfl) (fun _ _ => rfl) fun _ _ k => { k with zones := tableWf_putOrDrop k.zones }

theorem inv_loadPort {s : State} (hs : Inv s) :
    Inv (loadRow 2 256 (storeLayout readPort fun i o l => { l with ports := putOrDrop i o l.ports }) s) :=
  inv_serveAnswered hs fun _ _ ht hr => answers_serveLoad ht hr fun _ _ _ _ _ =>
    answers_storeLayout ht hr (fun _ _ => rfl) (fun _ _ => rfl) fun _ _ k => { k with ports := tableWf_putOrDrop k.ports }

theorem inv_loadExit {s : State} (hs : Inv s) :
    Inv (loadRow 4 64 (storeLayout readExit fun i o l => { l with exits := putOrDrop i o l.exits }) s) :=
  inv_serveAnswered hs fun _ _ ht hr => answers_serveLoad ht hr fun _ _ _ _ _ =>
    answers_storeLayout ht hr (fun _ _ => rfl) (fun _ _ => rfl) fun _ _ k => { k with exits := tableWf_putOrDrop k.exits }

/-- A table without its default values keeps none when one is written. -/
theorem tputD_noDefault {α : Type} [DecidableEq α] {d a : α} {k : Nat} {t : Table α} (h : ∀ p ∈ t, p.2 ≠ d) :
    ∀ p ∈ tputD d k a t, p.2 ≠ d := by
  unfold tputD
  split
  · exact fun p hp => h p (List.mem_filter.1 hp).1
  · rename_i e
    intro p hp
    rcases mem_tput hp with rfl | hq
    · exact e
    · exact h p hq

theorem inv_loadRoute {s : State} (hs : Inv s) : Inv (loadRow 3 1024 loadRouteRecord s) :=
  inv_serveAnswered hs fun _ _ ht hr => answers_serveLoad ht hr fun _ _ _ _ _ =>
    answers_storeLayout ht hr (fun _ _ => rfl) (fun _ _ => rfl) fun _ _ k =>
      { k with routes := ⟨tableWf_tputD k.routes.1, tputD_noDefault k.routes.2⟩ }

theorem putOrDrop_map {α β : Type} (g : Nat × α → β) (i : Nat) (o : Option α) (t : Table α) :
    (putOrDrop i o t).map (fun p => (p.1, g p)) = putOrDrop i (o.map fun a => g (i, a)) (t.map fun p => (p.1, g p)) := by
  cases o with
  | none =>
    simp only [putOrDrop, Option.map_none, tdrop, List.filter_map]
    rfl
  | some a =>
    simp only [putOrDrop, Option.map_some]
    induction t with
    | nil => rfl
    | cons p t ih =>
      obtain ⟨j, b⟩ := p
      simp only [tput, List.map_cons]
      split
      · rfl
      · split
        · rename_i e; subst e; rfl
        · rw [List.map_cons, ih]

theorem inv_loadSegment {s : State} (hs : Inv s) : Inv (loadRow 0 1024 loadSegmentRecord s) := by
  refine inv_serveAnswered hs fun f t ht hr => answers_serveLoad ht hr fun i record hb _ _ => ?_
  have hp : t.mode = .parked := hb rfl
  have hk := ht.settled.parked hp
  unfold loadSegmentRecord
  split
  · exact answers_refuse ht hr _
  · rename_i o _
    refine ⟨hr, ?_, by simp [done]⟩
    have e : (putOrDrop i (o.map (parkedRes t)) t.srt) =
        (putOrDrop i o t.layout.segs).map fun p => (p.1, parkedRes t p.2) := by
      rw [putOrDrop_map (fun p => parkedRes t p.2), hk.srt]
      rfl
    have wf : TableWf (putOrDrop i o t.layout.segs) := tableWf_putOrDrop ht.settled.layout.segs
    have keys : (putOrDrop i (o.map (parkedRes t)) t.srt).map (·.1) = (putOrDrop i o t.layout.segs).map (·.1) := by
      rw [e, List.map_map]; rfl
    exact
      { sound :=
          { ht.sound with
            segments := by
              show ((putOrDrop i (o.map (parkedRes t)) t.srt).map (·.1)).Pairwise _
              rw [keys]; exact tableWf_iff.1 wf
            waits := by
              intro p hq
              have hq : p ∈ putOrDrop i (o.map (parkedRes t)) t.srt := hq
              rw [e] at hq
              obtain ⟨q, _, rfl⟩ := List.mem_map.1 hq
              exact Nat.zero_le _
            agree := by
              show Agree (putOrDrop i (o.map (parkedRes t)) t.srt) t.roster _ _
              rw [e, hk.roster]
              refine agree_parked t _ _ _ hk.outClaims fun j x hx => ?_
              show (match tget j (putOrDrop i o t.layout.segs) with
                | some r => isForeignRec t r
                | none => false) = _
              rw [hx] }
        alarm := AlarmOk.congr rfl rfl rfl ht.alarm
        settled :=
          { ht.settled with
            parked := fun _ => { hk with srt := e }
            segments := keys
            layout := { ht.settled.layout with segs := wf } } }

theorem clamp_idem (lo hi n : Nat) (h : lo ≤ hi) : clamp lo hi (clamp lo hi n) = clamp lo hi n := by
  unfold clamp; omega

theorem clamped_idem (t : Tuning) : t.clamped.clamped = t.clamped := by
  unfold Tuning.clamped
  simp only [clamp_idem _ _ _ (show (0 : Nat) ≤ 32767 by omega), clamp_idem _ _ _ (show (0 : Nat) ≤ 255 by omega),
    clamp_idem _ _ _ (show (0 : Nat) ≤ 1023 by omega), clamp_idem _ _ _ (show (0 : Nat) ≤ 65535 by omega),
    clamp_idem _ _ _ (show (0 : Nat) ≤ 4095 by omega), clamp_idem _ _ _ (show (1 : Nat) ≤ 4 by omega),
    clamp_idem _ _ _ (show (5 : Nat) ≤ 255 by omega), clamp_idem _ _ _ (show (20 : Nat) ≤ 255 by omega),
    clamp_idem _ _ _ (show (8 : Nat) ≤ 31 by omega)]
  have : 1 ≤ clamp 8 31 t.lpace - 1 := by unfold clamp; omega
  rw [clamp_idem _ _ _ this]

theorem inv_loadTuning {s : State} (hs : Inv s) : Inv (loadRow 5 65536 loadTuningRecord s) := by
  refine inv_serveAnswered hs fun f t ht hr => answers_serveLoad ht hr fun i record _ _ _ => ?_
  unfold loadTuningRecord
  split
  · exact answers_refuse ht hr _
  · rename_i q _
    refine ⟨hr, ?_, by simp [doneWith]⟩
    show InvAt 1 (t.updLayout fun l => { l with tuning := q.clamped })
    exact invAt_layout ht _ rfl rfl { ht.settled.layout with tuning := clamped_idem q }

theorem acts_grantAll (p : Vehicle → Bool) (s : State) : Acts s (grantAll p s) :=
  acts_foldl _ (fun t e => by split; exact acts_makeGrantDue _ _; exact Acts.refl t) _ s

theorem grantAll_parked {p : Vehicle → Bool} {s : State} (h : s.roster = []) : grantAll p s = s := by
  unfold grantAll; rw [h]; rfl

theorem inv_loadCap {s : State} (hs : Inv s) : Inv (loadRow 6 32 loadCapRecord s) := by
  refine inv_serveAnswered hs fun f t ht hr => answers_serveLoad ht hr fun i record _ _ _ => ?_
  unfold loadCapRecord
  split
  · exact answers_refuse ht hr _
  · rename_i n _
    have k : InvAt 1 (t.updLayout fun l => { l with caps := tputD 7 i (min 7 n) l.caps }) := by
      refine invAt_layout ht _ rfl rfl { ht.settled.layout with caps := ⟨tableWf_tputD ht.settled.layout.caps.1, ?_⟩ }
      intro p hp
      have h := ht.settled.layout.caps.2
      have h' : p ∈ tputD 7 i (min 7 n) t.layout.caps := hp
      unfold tputD at h'
      split at h'
      · exact h p (List.mem_filter.1 h').1
      · rcases mem_tput h' with rfl | hq
        · show min 7 n < 7; omega
        · exact h p hq
    have ha := acts_grantAll (holdsIn t i) (t.updLayout fun l => { l with caps := tputD 7 i (min 7 n) l.caps })
    refine ⟨ha.running.trans hr, k.acts ha fun e => ?_, by simp [doneWith]⟩
    rw [grantAll_parked (k.settled.parked e).roster]
    exact k.settled.parked e

theorem tget_tputD_ne {α : Type} [DecidableEq α] {d a : α} {k j : Nat} {t : Table α} (h : j ≠ k) :
    tget j (tputD d k a t) = tget j t := by
  unfold tputD
  split
  · rw [tget_tdrop, if_neg h]
  · rw [tget_tput, if_neg h]

theorem inv_loadSeverity {s : State} (hs : Inv s) : Inv (loadRow 7 17 loadSeverityRecord s) := by
  refine inv_serveAnswered hs fun f t ht hr => answers_serveLoad ht hr fun i record _ _ _ => ?_
  unfold loadSeverityRecord
  split
  · rename_i k code _ _
    refine ⟨hr, ?_, by simp [doneWith]⟩
    have hl := ht.settled.layout
    exact
      { sound := { ht.sound with }
        alarm := AlarmOk.updated _
        settled :=
          { ht.settled with
            parked := fun e => { ht.settled.parked e with srt := (ht.settled.parked e).srt }
            layout :=
              { hl with
                severity := tableWf_tputD hl.severity
                conflictLevel := by
                  show tget EventKind.positionConflict.code (tputD k.defaultSeverity k.code _ t.layout.severity) = none
                  by_cases e : k = .positionConflict
                  · subst e
                    have : storedLevel .positionConflict code = EventKind.positionConflict.defaultSeverity := by
                      unfold storedLevel
                      cases Severity.ofCode code <;> rfl
                    rw [this]
                    simp only [tputD, if_true]
                    rw [tget_tdrop, if_pos rfl]
                  · rw [tget_tputD_ne (by cases k <;> simp_all [EventKind.code])]
                    exact hl.conflictLevel } } }
  · exact answers_refuse ht hr _

end Sys2Proof.Machine
end

