-- ==== Sys2Proof/Laws/Commands.lean ====
section
/-! SUPPORT. ACTIVATE, the completion of its check and the MODE requests keep the invariant; entry to PARKED. -/

namespace Sys2Proof.Machine

/-! ### ACTIVATE (R10, R16) -/

theorem openAnswers_check {s t : State} {a : ReplyTo} (hc : s.mc.check = none) (ht : t.mc.check = some a)
    (hw : t.mc.write = s.mc.write) : openAnswers t = openAnswers s + 1 := by
  unfold openAnswers
  rw [hc, ht, hw]
  simp [Nat.add_comm]

theorem inv_activate {s : State} (hs : Inv s) :
    Inv (serveRequest (isKind kindActivate) (withPayload readNone serveActivate) s) := by
  refine inv_serveRequest hs fun f t ht hr hw => ?_
  have ans : ∀ c, ((refuse c t).1.running = true ∧ ((refuse c t).2 = none → InvAt 0 (refuse c t).1) ∧
      ∀ r, (refuse c t).2 = some r → InvAt 1 (refuse c t).1) := fun c =>
    ⟨hr, fun e => by simp [refuse] at e, fun _ _ => ht⟩
  unfold withPayload
  split
  · exact ans _
  unfold serveActivate
  split
  · exact ans _
  split
  · exact ans _
  rename_i hc
  split
  · exact ans _
  rename_i hm
  split
  · exact ans _
  have hm : t.mode = .parked := by simpa using hm
  have hc : t.mc.check = none := by simpa [checkRunning] using hc
  refine ⟨hr, fun _ => ?_, fun r e => by simp at e⟩
  exact
    { sound := { ht.sound with }
      alarm := AlarmOk.congr rfl rfl rfl ht.alarm
      settled :=
        { ht.settled with
          parked := fun _ => { ht.settled.parked hm with srt := (ht.settled.parked hm).srt }
          checkParked := fun _ => hm
          reservations := fun e => by
            show t.fli.reservations = _
            rw [ht.settled.reservations e]
            exact (openAnswers_check (s := t) (t := t.updMc fun m => { m with check := some { src := f.src, tag := f.tag } })
              hc rfl rfl).symm
          oneAnswer := .inr hw } }

/-- The reply reservation of the ACTIVATE is open while its check runs. -/
theorem invAt_endCheck {s : State} {a : ReplyTo} (hs : Inv s) (hc : s.mc.check = some a) :
    InvAt 1 (s.updMc fun m => { m with check := none }) :=
  { sound := { hs.sound with }
    alarm := AlarmOk.congr rfl rfl rfl hs.alarm
    settled :=
      { hs.settled with
        parked := fun e => { hs.settled.parked e with srt := (hs.settled.parked e).srt }
        checkParked := fun e => by simp at e
        reservations := fun e => by
          show s.fli.reservations = _
          rw [hs.settled.reservations e]
          exact openAnswers_check rfl hc rfl
        oneAnswer := .inl rfl } }

theorem clearReservations_keys (s : State) : (clearReservations s).srt.map (·.1) = s.layout.segs.map (·.1) := by
  show (s.layout.segs.map _).map _ = _
  rw [List.map_map]
  rfl

theorem waitsOk_clear (s : State) : WaitsOk (clearReservations s).srt := by
  intro p hp
  have hp : p ∈ s.layout.segs.map fun p => (p.1, parkedRes s p.2) := hp
  obtain ⟨q, _, rfl⟩ := List.mem_map.1 hp
  exact Nat.zero_le _

/-- With no vehicle and no claim, cleared reservations agree. -/
theorem agree_clear (s : State) (hr : s.roster = []) (hb : s.bxu.outClaims = []) :
    Agree (clearReservations s).srt s.roster s.bxu (isForeign s) := by
  rw [hr]
  exact agree_parked s _ _ _ hb fun i x hx => by unfold isForeign segment; rw [hx]

theorem invAt_clearReservations {n : Nat} {s : State} (h : InvAt n s) (hr : s.roster = []) (hb : s.bxu.outClaims = []) : InvAt n (clearReservations s) where
  sound :=
    { h.sound with
      segments := by rw [clearReservations_keys]; exact tableWf_iff.1 h.settled.layout.segs
      waits := waitsOk_clear s
      agree := agree_clear s hr hb }
  alarm := AlarmOk.congr rfl rfl rfl h.alarm
  settled :=
    { h.settled with
      parked := fun e => { h.settled.parked e with srt := rfl }
      segments := clearReservations_keys s }

/-- Successful activation (R16). -/
theorem invAt_activated {n : Nat} {s : State} (h : InvAt n s) (hm : s.mode = .parked) (hl : s.haltLine = false)
    (hc : s.mc.check = none) (hw : s.mc.write = none) : InvAt n (activate s) := by
  have h1 : InvAt n (clearReservations (s.updLayout fun l => { l with validated := true, grantWindow := l.tuning.w })) :=
    invAt_clearReservations (invAt_layout h _ rfl rfl { h.settled.layout with }) (h.settled.parked hm).roster
      (h.settled.parked hm).outClaims
  have k := h.settled.parked hm
  have h2 : InvAt n ((clearReservations (s.updLayout fun l =>
      { l with validated := true, grantWindow := l.tuning.w })).updMc fun m => { m with mode := .dispatching }) :=
    { sound :=
        { h1.sound with
          confirm := fun x hx => by
            have hx : x ∈ s.mq.moves := hx
            rw [k.moves] at hx; cases hx
          passDue := fun _ => rfl }
      alarm := AlarmOk.congr (s := clearReservations (s.updLayout fun l => { l with validated := true, grantWindow := l.tuning.w })) rfl rfl rfl h1.alarm
      settled :=
        { h1.settled with
          parked := fun e => by cases e
          halt := fun _ => by
            show (s.haltLine || s.mc.haltPending) = false
            rw [hl, k.haltPending]; rfl
          checkParked := fun e => by
            have e : s.mc.check.isSome = true := e
            rw [hc] at e; cases e
          writeParked := fun e => by
            have e : s.mc.write.isSome = true := e
            rw [hw] at e; cases e } }
  unfold activate
  exact h2.acts ((acts_makeRollcallDue _).trans (acts_setPassDue _)) fun e => by cases e

theorem inv_checkCompletes {s : State} (hs : Inv s) (hr : s.running = true) : Inv (checkCompletes s) := by
  unfold checkCompletes
  split
  · exact hs
  · rename_i a hc
    have hm := hs.settled.checkParked (by rw [hc]; rfl)
    have h1 := invAt_endCheck hs hc
    have main : InvAt 1 (checkOutcome (s.updMc fun m => { m with check := none })).2 ∧
        (checkOutcome (s.updMc fun m => { m with check := none })).2.running = true := by
      unfold checkOutcome
      split
      · refine ⟨?_, hr⟩
        show InvAt 1 ((s.updMc _).updLayout fun l => { l with validated := false })
        exact invAt_layout h1 _ rfl rfl { h1.settled.layout with }
      · split
        · exact ⟨h1, hr⟩
        · rename_i hl
          have hw : s.mc.write = none := hs.settled.oneAnswer.resolve_left (by rw [hc]; simp)
          refine ⟨invAt_activated h1 hm (by simpa using hl) rfl hw, ?_⟩
          show (activate _).running = true
          unfold activate
          exact ((acts_makeRollcallDue _).trans (acts_setPassDue _)).running.trans hr
    exact (inv_iff _).2 (invAt_appendReply _ _ _ main.1 main.2)

/-! ### MODE (R176 to R181) -/

theorem confirmFits_resumed {x : Move} (h : ConfirmFits .halted x) (t : Nat) :
    ConfirmFits .dispatching (if x.confirm = .suspended then { x with confirm := .at t } else x) := by
  unfold ConfirmFits at h
  match e : x.confirm with
  | .absent => simp only [e] at h; simp [ConfirmFits, e]; exact h
  | .suspended => simp only [e] at h; simp [ConfirmFits]; exact h.1
  | .at _ => simp only [e] at h; exact absurd h.2 (by decide)

/-- HALTED left while the HALT line is inactive, before what the BCU and the ASU then do (R180). -/
theorem invAt_leaving {n : Nat} {s : State} (h : InvAt n s) (hm : s.mode = .halted) (hl : s.haltLine = false) :
    InvAt n (resumeConfirm (s.updMc fun m => { m with mode := .dispatching, haltPending := false })) where
  sound :=
    { h.sound with
      moves :=
        { size := by
            show (List.map _ s.mq.moves).length ≤ _
            rw [List.length_map]; exact h.sound.moves.size
          ids := by
            show ((List.map _ s.mq.moves).map fun x : Move => x.id).Nodup
            rw [List.map_map]
            have e : List.map ((fun x : Move => x.id) ∘ fun x : Move => if x.confirm = .suspended then { x with confirm := .at (s.now + s.tuning.tConf) } else x) s.mq.moves
                = s.mq.moves.map (·.id) := List.map_congr_left fun x _ => by simp only [Function.comp_apply]; split <;> rfl
            exact e ▸ h.sound.moves.ids
          arrivals := h.sound.moves.arrivals }
      confirm := fun y hy => by
        have hy : y ∈ List.map _ s.mq.moves := hy
        obtain ⟨x, hx, rfl⟩ := List.mem_map.1 hy
        exact confirmFits_resumed (hm ▸ h.sound.confirm x hx) _
      passDue := fun _ => rfl }
  alarm := AlarmOk.congr (s := s) rfl rfl rfl h.alarm
  settled :=
    { h.settled with
      parked := fun e => by cases e
      halt := fun _ => by
        show (s.haltLine || false) = false
        rw [hl]; rfl
      checkParked := fun e => by
        have := h.settled.checkParked e
        rw [hm] at this; cases this
      writeParked := fun e => by
        have := h.settled.writeParked e
        rw [hm] at this; cases this }

theorem invAt_leaveHalted {n : Nat} {s : State} (h : InvAt n s) (hm : s.mode = .halted) (hl : s.haltLine = false) :
    InvAt n (leaveHalted s) ∧ (leaveHalted s).running = s.running := by
  have h1 := invAt_leaving h hm hl
  have a : Acts (resumeConfirm (s.updMc fun m => { m with mode := .dispatching, haltPending := false })) (leaveHalted s) := by
    unfold leaveHalted
    exact (((acts_makeResumeDue _).trans (acts_grantAll _ _)).trans (acts_run _ _)).trans (acts_setPassDue _)
  exact ⟨h1.acts a (fun e => by cases e), a.running⟩

/-- Halt pending is set in HALTED (R176). -/
theorem invAt_haltPending {n : Nat} {s : State} (h : InvAt n s) (hm : s.mode = .halted) :
    InvAt n (s.updMc fun m => { m with haltPending := true }) where
  sound := { h.sound with }
  alarm := AlarmOk.congr (s := s) rfl rfl rfl h.alarm
  settled :=
    { h.settled with
      parked := fun e => by
        have e : s.mode = .parked := e
        rw [hm] at e; cases e
      halt := fun e => by
        have e : s.mode = .dispatching := e
        rw [hm] at e; cases e }

/-- Entry to HALTED does not read halt pending or the HALT input. -/
theorem enterHalted_updMc (f : Mc → Mc) (s : State) (hf : ∀ m : Mc, f { m with mode := .halted } = { f m with mode := .halted }) :
    enterHalted (s.updMc f) = (enterHalted s).updMc f := by
  unfold enterHalted suspendConfirm discardResume makeAllHoldDue relink
  simp only [State.updMc, State.updTli, State.updMq, State.updAsu, hf]

theorem invAt_enterHalted {n : Nat} {s : State} (h : InvAt n s) (hm : s.mode ≠ .parked) : InvAt n (enterHalted s) :=
  h.acts (acts_enterHalted s hm) fun e => absurd e hm

theorem inv_modeRow {s : State} (hs : Inv s) (code : Nat) (h : State → State × Option Reply)
    (hh : ∀ t, InvAt 1 t → t.running = true → t.mc.check = none → t.mc.write = none → Answers (h t)) :
    Inv (modeRow code h s) := by
  unfold modeRow
  refine inv_serveRequest hs fun f t ht hr hw => ?_
  have ans : ∀ r : State × Option Reply, Answers r →
      (r.1.running = true ∧ (r.2 = none → InvAt 0 r.1) ∧ ∀ q, r.2 = some q → InvAt 1 r.1) :=
    fun r hr => ⟨hr.1, fun e => absurd e hr.2.2, fun _ _ => hr.2.1⟩
  apply ans
  refine answers_withPayload ht hr fun _ => ?_
  unfold serveMode
  split
  · exact answers_refuse ht hr _
  split
  · exact answers_refuse ht hr _
  · rename_i hc
    exact hh t ht hr (by simpa [checkRunning] using hc) hw

theorem inv_modeDispatching {s : State} (hs : Inv s) : Inv (modeRow 1 askDispatching s) := by
  refine inv_modeRow hs 1 _ fun t ht hr _ _ => ?_
  unfold askDispatching
  split
  · exact answers_refuse ht hr _
  · exact answers_same ht hr _ (by simp)
  · rename_i hm
    split
    · exact answers_refuse ht hr _
    · rename_i hl
      have k := invAt_leaveHalted ht hm (by simpa using hl)
      exact ⟨k.2.trans hr, k.1, by simp [done]⟩

theorem inv_modeHalted {s : State} (hs : Inv s) : Inv (modeRow 2 askHalted s) := by
  refine inv_modeRow hs 2 _ fun t ht hr _ _ => ?_
  unfold askHalted
  split
  · exact answers_refuse ht hr _
  · rename_i hm
    rw [enterHalted_updMc _ _ (fun _ => rfl)]
    have hp : t.mode ≠ .parked := by rw [hm]; decide
    exact ⟨((acts_enterHalted t hp).running.trans hr : (enterHalted t).running = true),
      invAt_haltPending (invAt_enterHalted ht hp) (enterHalted_mode t), by simp [done]⟩
  · rename_i hm
    exact ⟨hr, invAt_haltPending ht hm, by simp [done]⟩

/-! ### Entry to PARKED (R181) -/

/-- What reports and frames keep whatever the moves are. -/
structure Bounded (s : State) : Prop where
  flags : TableWf s.su.flags
  occupancy : occupancy s ≤ Config.outboundMax

theorem bounded_pushOut {s : State} (f : FloorFrame) (h : Bounded s) (ho : occupancy s < Config.outboundMax) :
    Bounded (pushOut f s) where
  flags := h.flags
  occupancy := by
    show (s.fli.outbound ++ [f]).length + s.fli.reservations ≤ _
    unfold Machine.occupancy at ho
    simp only [List.length_append, List.length_singleton]
    omega

theorem bounded_occur (notify : Detail → State → State) (hn : ∀ d s, Bounded s → Bounded (notify d s)) (k : EventKind)
    (d : Detail) (s : State) (h : Bounded s) : Bounded (occur notify k d s) := by
  have up : ∀ t, Bounded t → Bounded (updateAlarm t) := fun t ht => ⟨ht.flags, ht.occupancy⟩
  have halt : ∀ t, Bounded t → Bounded (haltOccurrence t) := fun t ht => by
    unfold haltOccurrence
    split
    · split
      · exact ⟨ht.flags, ht.occupancy⟩
      · exact ⟨by simpa using ht.flags, by rw [occupancy_congr (s := t) (by simp)]; exact ht.occupancy⟩
    · exact ht
  unfold occur
  simp only
  have main : Bounded (if flagSet s k = true then s else
      if severityOf s k = .log then
        s.updSu fun u => { u with flags := tput k.code { d with kind := k, severity := severityOf s k } u.flags }
      else notify { d with kind := k, severity := severityOf s k }
        (s.updSu fun u => { u with flags := tput k.code { d with kind := k, severity := severityOf s k } u.flags })) := by
    split
    · exact h
    · split
      · exact ⟨tableWf_tput h.flags, h.occupancy⟩
      · exact hn _ _ ⟨tableWf_tput h.flags, h.occupancy⟩
  split
  · exact halt _ (up _ main)
  · exact up _ main

theorem bounded_raise (k : EventKind) (d : Detail) (s : State) (h : Bounded s) : Bounded (raise k d s) := by
  refine bounded_occur _ (fun d s h => ?_) k d s h
  unfold notify
  split
  · rename_i o; exact bounded_pushOut _ h (lt_of_lt_of_le o reportLimit_lt)
  · refine bounded_occur _ (fun d s h => ?_) _ _ s h
    unfold notifyLost
    split
    · rename_i o; exact bounded_pushOut _ h (lt_of_lt_of_le o reportLimit_lt)
    · exact bounded_occur _ (fun _ _ h => h) _ _ s h

theorem bounded_reportMove (m : Nat) (st : ReportState) (v a : Nat) (s : State) (h : Bounded s) :
    Bounded (reportMove m st v a s) := by
  unfold reportMove
  split
  · rename_i o; exact bounded_pushOut _ h (lt_of_lt_of_le o reportLimit_lt)
  · exact bounded_raise _ _ _ h

theorem bounded_sendPeer (dst kind tag seg v : Nat) (extra : List Byte) (s : State) (h : Bounded s) :
    Bounded (sendPeer dst kind tag seg v extra s) := by
  unfold sendPeer
  split
  · rename_i o; exact bounded_pushOut _ h o
  · exact bounded_raise _ _ _ h

/-- Reports, moves and the preemption list aside nothing has changed, and no move was added. -/
structure Shed (s t : State) : Prop where
  rest : t = { s with su := t.su, fli := t.fli, mq := { s.mq with moves := t.mq.moves }
                      asu := { s.asu with preempts := t.asu.preempts } }
  moves : t.mq.moves.Sublist s.mq.moves

theorem Shed.refl (s : State) : Shed s s := ⟨rfl, List.Sublist.refl _⟩

theorem Shed.trans {s t u : State} (h : Shed s t) (k : Shed t u) : Shed s u :=
  ⟨by rw [k.rest, h.rest], k.moves.trans h.moves⟩

theorem shed_reported {s t : State} (h : Reported s t) : Shed s t := by
  unfold Reported at h
  exact ⟨by rw [h], by rw [h]⟩

theorem reported_reportMove (m : Nat) (st : ReportState) (v a : Nat) (s : State) (h : s.mode ≠ .dispatching) :
    Reported s (reportMove m st v a s) := by
  unfold reportMove
  split
  · exact reported_pushOut _ s
  · exact reported_raise _ _ s h

theorem Shed.mode {s t : State} (h : Shed s t) : t.mode = s.mode := by rw [h.rest]; rfl

theorem shed_removeMove (m : Nat) (out : ReportState) (s : State) (h : s.mode ≠ .dispatching) :
    Shed s (removeMove m out s) := by
  unfold removeMove
  split
  · exact Shed.refl s
  · refine Shed.trans (t := deleteMove m s) ⟨rfl, List.filter_sublist⟩ (shed_reported (reported_reportMove _ _ _ _ _ ?_))
    exact h

theorem removeMove_moves (m : Nat) (out : ReportState) (s : State) (h : s.mode ≠ .dispatching) :
    ∀ x ∈ (removeMove m out s).mq.moves, x ∈ s.mq.moves ∧ x.id ≠ m := by
  intro x hx
  refine ⟨(shed_removeMove m out s h).moves.subset hx, ?_⟩
  unfold removeMove at hx
  split at hx
  · rename_i e
    unfold findMove at e
    rw [List.find?_eq_none] at e
    simpa using e x hx
  · rename_i y _
    have r := reported_reportMove m out (y.vehicle.getD 0) y.age (deleteMove m s) h
    unfold Reported at r
    rw [r] at hx
    have hx : x ∈ s.mq.moves.filter fun x => x.id ≠ m := hx
    simpa using (List.mem_filter.1 hx).2

theorem shed_failMoves (ms : List Nat) (s : State) (h : s.mode ≠ .dispatching) :
    Shed s (ms.foldl (fun t m => removeMove m .failed t) s) ∧
      ∀ x ∈ (ms.foldl (fun t m => removeMove m .failed t) s).mq.moves, x.id ∉ ms := by
  induction ms generalizing s with
  | nil => exact ⟨Shed.refl s, fun _ _ => List.not_mem_nil⟩
  | cons m ms ih =>
    have k := shed_removeMove m .failed s h
    have g := ih (removeMove m .failed s) (by rw [k.mode]; exact h)
    refine ⟨k.trans g.1, fun x hx => ?_⟩
    rw [List.mem_cons, not_or]
    exact ⟨(removeMove_moves m .failed s h x (g.1.moves.subset hx)).2, g.2 x hx⟩

/-- Every move is removed as FAILED (R94). -/
theorem failAllMoves_moves (s : State) (h : s.mode ≠ .dispatching) : (failAllMoves s).mq.moves = [] := by
  have k := shed_failMoves (s.mq.moves.map (·.id)) s h
  refine List.eq_nil_iff_forall_not_mem.2 fun x hx => ?_
  exact k.2 x hx (List.mem_map.2 ⟨x, k.1.moves.subset hx, rfl⟩)

theorem foldl_keeps {α : Type} (P : State → Prop) (f : State → α → State) (hf : ∀ s a, P s → P (f s a)) (l : List α)
    (s : State) (h : P s) : P (l.foldl f s) := by
  induction l generalizing s with
  | nil => exact h
  | cons a l ih => exact ih _ (hf s a h)

theorem bounded_failAllMoves (s : State) (h : Bounded s) : Bounded (failAllMoves s) := by
  refine foldl_keeps Bounded _ (fun t m ht => ?_) _ s h
  unfold removeMove
  split
  · exact ht
  · exact bounded_reportMove _ _ _ _ _ ⟨ht.flags, ht.occupancy⟩

/-- What the frames of entry to PARKED keep: `P` if a frame to a peer keeps it. -/
theorem withdrawAllClaims_keeps (P : State → Prop)
    (hf : ∀ dst kind tag seg v extra s, P s → P (sendPeer dst kind tag seg v extra s)) (s : State) (h : P s) :
    ∃ t, P t ∧ withdrawAllClaims s = t.updBxu fun b => { b with outClaims := [], inClaims := [] } :=
  ⟨_, foldl_keeps P _ (fun _ _ ht => hf _ _ _ _ _ _ _ ht) _ _
    (foldl_keeps P _ (fun _ _ ht => hf _ _ _ _ _ _ _ ht) _ _
      (foldl_keeps P _ (fun _ _ ht => hf _ _ _ _ _ _ _ ht) _ _ h)), rfl⟩

theorem invAt_enterParked {n : Nat} {s : State} (hs : InvAt n s) (hc : s.mc.check = none) :
    InvAt n (enterParked s) ∧ (enterParked s).running = s.running := by
  have hm : (s.updMc fun m => { m with mode := .parked, haltPending := false }).mode ≠ .dispatching := by
    show Mode.parked ≠ _; decide
  generalize h0 : (s.updMc fun m => { m with mode := .parked, haltPending := false }) = s0 at hm
  have k0 : Bounded s0 := by rw [← h0]; exact ⟨hs.sound.flags, hs.sound.occupancy⟩
  have k1 : Shed s0 (failAllMoves s0) := (shed_failMoves (s0.mq.moves.map fun x : Move => x.id) s0 hm).1
  have e1 := failAllMoves_moves s0 hm
  have b1 := bounded_failAllMoves s0 k0
  have a1 : Acts s0 (failAllMoves s0) := acts_foldl _ (fun t m => acts_removeMove _ _ _) _ _
  obtain ⟨t, ⟨hr, hb, ha⟩, ht⟩ := withdrawAllClaims_keeps
    (fun t => Reported (failAllMoves s0) t ∧ Bounded t ∧ Acts s0 t)
    (fun dst kind tag seg v extra u hu => by
      have e : u.mode ≠ .dispatching := by rw [hu.1.mode, k1.mode]; exact hm
      exact ⟨hu.1.trans (reported_sendPeer _ _ _ _ _ _ _ e), bounded_sendPeer _ _ _ _ _ _ _ hu.2.1,
        hu.2.2.trans (acts_sendPeer _ _ _ _ _ _ _)⟩)
    (failAllMoves s0) ⟨Reported.refl _, b1, a1⟩
  have hk : Shed s0 t := k1.trans (shed_reported hr)
  have em : t.mq.moves = [] := by
    have hr : t = { failAllMoves s0 with su := t.su, fli := t.fli } := hr
    rw [hr]; exact e1
  have hrest := hk.rest
  have eb : t.board = s.board := by rw [hrest, ← h0]; rfl
  have el : t.layout = s.layout := by rw [hrest, ← h0]; rfl
  have emc : t.mc = { s.mc with mode := .parked, haltPending := false } := by rw [hrest, ← h0]; rfl
  have ear : t.mq.arrivals = s.mq.arrivals := by rw [hrest, ← h0]; rfl
  have ehd : t.asu.haltDeferred = s.asu.haltDeferred := by rw [hrest, ← h0]; rfl
  have epr : t.asu.passRunning = s.asu.passRunning := by rw [hrest, ← h0]; rfl
  have eq : t.tli.queue = s.tli.queue := by rw [hrest, ← h0]; rfl
  have al : AlarmOk t := ha.alarm (by rw [← h0]; exact AlarmOk.congr rfl rfl rfl hs.alarm)
  have ei : t.fli.inbound.length ≤ Config.inboundMax := by
    have := ha.inbound.length_le
    rw [← h0] at this
    exact this.trans hs.settled.inbound
  have ev : t.fli.reservations = s.fli.reservations := by rw [ha.reservations, ← h0]; rfl
  have er : t.running = s.running := running_congr eb
  unfold enterParked
  rw [h0, ht]
  refine ⟨?_, er⟩
  exact
    { sound :=
        { segments := by
            show ((clearReservations t).srt.map (·.1)).Pairwise _
            rw [clearReservations_keys, el]; exact tableWf_iff.1 hs.settled.layout.segs
          flags := hb.flags
          strays := List.Pairwise.nil
          roster :=
            { sorted := List.Pairwise.nil, slots := fun _ h => absurd h List.not_mem_nil, ids := List.Pairwise.nil
              withdraws := fun _ h => absurd h List.not_mem_nil }
          moves :=
            { size := by show t.mq.moves.length ≤ _; rw [em]; decide
              ids := by show (t.mq.moves.map (·.id)).Nodup; rw [em]; exact List.Pairwise.nil
              arrivals := by show t.mq.arrivals ≤ _; rw [ear]; exact hs.sound.moves.arrivals }
          confirm := fun x hx => by
            have hx : x ∈ t.mq.moves := hx
            rw [em] at hx; cases hx
          waits := waitsOk_clear t
          claims := claimsOk_none ⟨rfl, rfl⟩
          agree := agree_parked t _ _ _ rfl fun i x hx => by
            show (match tget i t.layout.segs with | some r => isForeignRec t r | none => false) = _
            exact hx ▸ rfl
          outClaims := by show 0 ≤ _; omega
          inClaims := by show 0 ≤ _; omega
          occupancy := hb.occupancy
          passDue := fun h => by cases h
          deferred := fun h => by
            show t.asu.passRunning = true
            rw [epr]; exact hs.sound.deferred (ehd ▸ h) }
      alarm := AlarmOk.congr (s := t) rfl rfl rfl al
      settled :=
        { parked := fun _ =>
            { roster := rfl, moves := em, outClaims := rfl, inClaims := rfl, preempts := rfl, strayHolds := rfl
              haltPending := by show t.mc.haltPending = false; rw [emc]
              srt := rfl }
          halt := fun e => by
            have e : t.mc.mode = .dispatching := e
            rw [emc] at e; cases e
          checkParked := fun _ => by show t.mc.mode = .parked; rw [emc]
          writeParked := fun _ => by show t.mc.mode = .parked; rw [emc]
          oneAnswer := .inl (by show t.mc.check = none; rw [emc]; exact hc)
          noPass := epr.trans hs.settled.noPass
          reservations := fun e => by
            have e : t.running = true := e
            show t.fli.reservations = openAnswers t + n
            rw [ev, openAnswers_congr (s := s) (by rw [emc]) (by rw [emc])]
            exact hs.settled.reservations (er ▸ e)
          queue := by show t.tli.queue.length ≤ _; rw [eq]; exact hs.settled.queue
          inbound := ei
          segments := clearReservations_keys t
          layout := by show LayoutOk t.layout; rw [el]; exact hs.settled.layout } }

theorem inv_modeParked {s : State} (hs : Inv s) : Inv (modeRow 0 askParked s) := by
  refine inv_modeRow hs 0 _ fun t ht hr hc _ => ?_
  have k := invAt_enterParked ht hc
  unfold askParked
  split
  · exact answers_same ht hr _ (by simp)
  · exact ⟨k.2.trans hr, k.1, by simp [done]⟩
  · exact ⟨k.2.trans hr, k.1, by simp [done]⟩

end Sys2Proof.Machine
end

