-- ==== Sys2Proof/Laws/Board.lean ====
section
/-! SUPPORT. IDENTIFY, the nonvolatile copy, RESTART, the pins and the supply keep the invariant. -/

namespace Sys2Proof.Machine

/-! ### IDENTIFY (R183) -/

theorem invAt_takeIdentity {n : Nat} {s : State} (h : InvAt n s) (hm : s.mode = .parked) (q : IdentifyRequest) :
    InvAt n (takeIdentity q s) :=
  have k := h.settled.parked hm
  { sound :=
      { h.sound with
        segments := by
          unfold takeIdentity
          rw [clearReservations_keys]; exact tableWf_iff.1 h.settled.layout.segs
        waits := waitsOk_clear (s.updMc _)
        agree := agree_clear (s.updMc fun m => { m with identity := q.identity, windowClosed := true }) k.roster k.outClaims }
    alarm := AlarmOk.congr rfl rfl rfl h.alarm
    settled :=
      { h.settled with
        parked := fun _ => { k with srt := rfl }
        halt := fun e => by
          have e : s.mode = .dispatching := e
          rw [hm] at e; cases e
        segments := clearReservations_keys (s.updMc fun m => { m with identity := q.identity, windowClosed := true }) } }

theorem inv_identify {s : State} (hs : Inv s) :
    Inv (serveRequest (isKind kindIdentify) (withPayload readIdentify serveIdentify) s) := by
  refine inv_serveRequest hs fun f t ht hr hw => ?_
  have ans : ∀ c, ((refuse c t).1.running = true ∧ ((refuse c t).2 = none → InvAt 0 (refuse c t).1) ∧
      ∀ r, (refuse c t).2 = some r → InvAt 1 (refuse c t).1) := fun c =>
    ⟨hr, fun e => by simp [refuse] at e, fun _ _ => ht⟩
  unfold withPayload
  split
  · exact ans _
  rename_i q _
  unfold serveIdentify
  split
  · exact ans _
  rename_i hc
  have hc : t.mc.check = none := by simpa [checkRunning] using hc
  split
  · exact ans _
  rename_i hm
  have hm : t.mode = .parked := by simpa using hm
  split
  · exact ans _
  split
  · exact ans _
  have k := invAt_takeIdentity ht hm q
  split
  · refine ⟨hr, fun _ => ?_, fun r e => by simp at e⟩
    exact
      { sound := { k.sound with }
        alarm := AlarmOk.congr (s := takeIdentity q t) rfl rfl rfl k.alarm
        settled :=
          { k.settled with
            parked := fun _ => { k.settled.parked hm with srt := (k.settled.parked hm).srt }
            writeParked := fun _ => hm
            oneAnswer := .inl hc
            reservations := fun e => by
              show t.fli.reservations = _
              rw [ht.settled.reservations e]
              unfold openAnswers
              show _ = (if t.mc.check.isSome then 1 else 0) + 1 + 0
              rw [hw]; simp } }
  · exact ⟨hr, fun e => by simp [done] at e, fun _ _ => k⟩

/-- The reply reservation of the IDENTIFY is open while its write runs. -/
theorem invAt_endWrite {s : State} {w : Image × ReplyTo} (c : Option Image) (hs : Inv s) (hw : s.mc.write = some w) :
    InvAt 1 (s.updMc fun m => { m with copy := c, write := none }) :=
  { sound := { hs.sound with }
    alarm := AlarmOk.congr rfl rfl rfl hs.alarm
    settled :=
      { hs.settled with
        parked := fun e => { hs.settled.parked e with srt := (hs.settled.parked e).srt }
        writeParked := fun e => by simp at e
        oneAnswer := .inr rfl
        reservations := fun e => by
          show s.fli.reservations = _
          rw [hs.settled.reservations e]
          unfold openAnswers
          rw [hw]; rfl } }

theorem inv_writeCompletes {s : State} (hs : Inv s) (hr : s.running = true) : Inv (writeCompletes s) := by
  unfold writeCompletes
  split
  · exact hs
  · rename_i i a hw
    exact (inv_iff _).2 (invAt_appendReply _ _ _ (invAt_endWrite _ hs hw) hr)

/-! ### RESTART (R184) -/

theorem layoutOk_initial : LayoutOk Layout.initial where
  segs := List.Pairwise.nil
  zones := List.Pairwise.nil
  ports := List.Pairwise.nil
  routes := ⟨List.Pairwise.nil, fun _ h => absurd h List.not_mem_nil⟩
  exits := List.Pairwise.nil
  tuning := by decide
  caps := ⟨List.Pairwise.nil, fun _ h => absurd h List.not_mem_nil⟩
  severity := List.Pairwise.nil
  conflictLevel := rfl

theorem alarmDue_none {s : State} (h : s.su.flags = []) : alarmDue s = false := by
  have : ∀ k, flagSet s k = false := fun k => by unfold flagSet; rw [h]; rfl
  unfold alarmDue
  simp [this]

/-- What a RESTART and power-on leave: nothing of the units but the layout, the Identity record and the copy. -/
theorem inv_fresh {s : State} (hf : s.fli.inbound = [] ∧ s.fli.reservations = 0 ∧ s.fli.outbound.length ≤ Config.outboundMax)
    (hseg : s.srt = (clearReservations s).srt) (hr : s.roster = []) (hq : s.mq.moves = [] ∧ s.mq.arrivals ≤ Config.arrivalsTop)
    (ha : s.asu.passDue = false ∧ s.asu.preempts = [] ∧ s.asu.passRunning = false ∧ s.asu.haltDeferred = false)
    (hb : s.bxu.outClaims = [] ∧ s.bxu.inClaims = []) (ht : s.tli.queue = [] ∧ s.tli.strayHolds = [])
    (hu : s.su = Su.initial) (hm : s.mc.mode = .parked ∧ s.mc.haltPending = false ∧ s.mc.write = none ∧ s.mc.check = none)
    (hl : LayoutOk s.layout) : Inv s where
  sound :=
    { segments := by rw [hseg, clearReservations_keys]; exact tableWf_iff.1 hl.segs
      flags := by rw [hu]; exact List.Pairwise.nil
      strays := by rw [ht.2]; exact List.Pairwise.nil
      roster := by
        rw [hr]
        exact
          { sorted := List.Pairwise.nil, slots := fun _ h => absurd h List.not_mem_nil, ids := List.Pairwise.nil
            withdraws := fun _ h => absurd h List.not_mem_nil }
      moves := { size := by rw [hq.1]; decide, ids := by rw [hq.1]; exact List.Pairwise.nil, arrivals := hq.2 }
      confirm := fun x hx => by rw [hq.1] at hx; cases hx
      waits := by rw [hseg]; exact waitsOk_clear s
      claims := claimsOk_none hb
      agree := by rw [hseg]; exact agree_clear s hr hb.1
      outClaims := by rw [hb.1]; exact Nat.zero_le _
      inClaims := by rw [hb.2]; exact Nat.zero_le _
      occupancy := by unfold occupancy; rw [hf.2.1]; exact hf.2.2
      passDue := fun h => by rw [ha.1] at h; cases h
      deferred := fun h => by rw [ha.2.2.2] at h; cases h }
  alarm := fun _ => by rw [hu, alarmDue_none (by rw [hu]; rfl)]; rfl
  settled :=
    { parked := fun _ =>
        { roster := hr, moves := hq.1, outClaims := hb.1, inClaims := hb.2, preempts := ha.2.1, strayHolds := ht.2
          haltPending := hm.2.1, srt := hseg }
      halt := fun e => by unfold State.mode at e; rw [hm.1] at e; cases e
      checkParked := fun _ => hm.1
      writeParked := fun _ => hm.1
      oneAnswer := .inl hm.2.2.2
      noPass := ha.2.2.1
      reservations := fun _ => by unfold openAnswers; rw [hm.2.2.1, hm.2.2.2, hf.2.1]; rfl
      queue := by rw [ht.1]; exact Nat.zero_le _
      inbound := by rw [hf.1]; exact Nat.zero_le _
      segments := by rw [hseg]; exact clearReservations_keys s
      layout := hl }

theorem inv_restarted {u : State} (full b : Bool) (asker : ReplyTo) (kind : Nat) (hr : u.asu.passRunning = false)
    (hd : u.asu.haltDeferred = false) (hl : LayoutOk u.layout) :
    Inv (appendReply asker kind (Reply.bare .done) (restart full b u)) := by
  refine inv_fresh ⟨rfl, rfl, by show 1 ≤ Config.outboundMax; decide⟩ rfl rfl ⟨rfl, by show 0 ≤ Config.arrivalsTop; omega⟩
    ⟨rfl, rfl, hr, hd⟩ ⟨rfl, rfl⟩ ⟨rfl, rfl⟩ rfl ⟨rfl, rfl, rfl, rfl⟩ ?_
  show LayoutOk (if full then Layout.initial else u.layout)
  split
  · exact layoutOk_initial
  · exact { hl with }

theorem inv_restart {s : State} (hs : Inv s) (code : Nat) (full : Bool) : Inv (restartRow code full s) := by
  have hdf : s.asu.haltDeferred = false := by
    cases e : s.asu.haltDeferred with
    | false => rfl
    | true =>
      have h1 := hs.sound.deferred e
      rw [hs.settled.noPass] at h1; cases h1
  unfold restartRow serveRequest
  split
  · rename_i hr
    split
    · exact hs
    · rename_i f rest hq
      split
      · rename_i hp
        simp only [Bool.and_eq_true] at hp
        cases hd : readRestart f.payload with
        | none =>
          simp only [withPayload, hd, refuse]
          exact (inv_iff _).2 (invAt_appendReply _ _ _
            (invAt_openRequest ((inv_iff s).1 hs) hq (takesFront_room hp.1).1) hr)
        | some b =>
          simp only [withPayload, hd, serveRestart, done]
          exact inv_restarted full b _ _ hs.settled.noPass hdf hs.settled.layout
      · exact hs
  · exact hs

/-! ### Pins and supply (R177, R182, R185) -/

/-- The state of R185 on any board. -/
theorem inv_startUp (s : State) : Inv (startUp s) :=
  inv_fresh ⟨rfl, rfl, Nat.zero_le _⟩ rfl rfl ⟨rfl, Nat.zero_le _⟩ ⟨rfl, rfl, rfl, rfl⟩ ⟨rfl, rfl⟩ ⟨rfl, rfl⟩ rfl
    ⟨rfl, rfl, rfl, rfl⟩ layoutOk_initial

/-- Pins and time change without the engine running any differently. -/
theorem inv_board {s : State} (hs : Inv s) (f : Board → Board)
    (hr : (s.updBoard f).running = true → s.running = true) : Inv (s.updBoard f) where
  sound := { hs.sound with }
  alarm := fun e => hs.alarm (hr e)
  settled :=
    { hs.settled with
      parked := fun e => { hs.settled.parked e with srt := (hs.settled.parked e).srt }
      reservations := fun e => hs.settled.reservations (hr e) }

theorem inv_stopped {s : State} (hs : Inv s) (b : Board) (m : Mc) (l : Option LineFrame)
    (hb : (b.power && !b.resetPin) = false) (hm : m = { s.mc with copy := m.copy, write := m.write })
    (hw : m.write = none) :
    Inv { s with board := b, mc := m, su := { s.su with alarm := false }, tli := { s.tli with line := l } } := by
  have hk : ∀ {α : Type} (p : Mc → α), (∀ m c w, p { m with copy := c, write := w } = p m) → p m = p s.mc :=
    fun p hp => by rw [hm]; exact hp _ _ _
  have hmode : m.mode = s.mc.mode := hk _ fun _ _ _ => rfl
  have off : State.running { s with board := b, mc := m, su := { s.su with alarm := false }, tli := { s.tli with line := l } } = false := hb
  exact
    { sound :=
        { hs.sound with
          confirm := fun x hx => by
            show ConfirmFits m.mode x
            rw [hmode]; exact hs.sound.confirm x hx
          passDue := fun h => by
            show m.mode = _
            rw [hmode]; exact hs.sound.passDue h
          agree := by
            have e : isForeign { s with board := b, mc := m, su := { s.su with alarm := false }, tli := { s.tli with line := l } } =
                isForeign s := by
              unfold isForeign segment isForeignRec
              simp only [hk (·.identity) fun _ _ _ => rfl]
            rw [e]; exact hs.sound.agree }
      alarm := fun e => by rw [off] at e; cases e
      settled :=
        { hs.settled with
          parked := fun e => by
            have k := hs.settled.parked (by unfold State.mode at e ⊢; rw [← hmode]; exact e)
            exact
              { k with
                haltPending := by show m.haltPending = false; rw [hk (·.haltPending) fun _ _ _ => rfl]; exact k.haltPending
                srt := by
                  refine Eq.trans (show s.srt = _ from k.srt) ?_
                  unfold clearReservations parkedRes isForeignRec
                  simp only [State.updSrt_srt, hk (·.identity) fun _ _ _ => rfl] }
          halt := fun e => by
            have k := hs.settled.halt (by unfold State.mode at e ⊢; rw [← hmode]; exact e)
            unfold State.effectiveHalt State.haltLine at k ⊢
            show ((m.haltInput && m.identity.haltEnable) || m.haltPending) = false
            rw [hk (·.haltInput) fun _ _ _ => rfl, hk (·.identity) fun _ _ _ => rfl, hk (·.haltPending) fun _ _ _ => rfl]
            exact k
          checkParked := fun e => by
            show m.mode = _
            rw [hmode]; exact hs.settled.checkParked (by rw [← hk (·.check) fun _ _ _ => rfl]; exact e)
          writeParked := fun e => by
            have e : m.write.isSome = true := e
            rw [hw] at e; cases e
          oneAnswer := .inr hw
          reservations := fun e => by rw [off] at e; cases e } }

theorem cutWrite_eq (s : State) : ∃ n m, cutWrite s = { s with board := { s.board with freeCount := n }, mc := m } ∧
    m = { s.mc with copy := m.copy, write := m.write } ∧ m.write = none := by
  unfold cutWrite
  split
  · rename_i h
    exact ⟨s.board.freeCount, s.mc, rfl, rfl, h⟩
  · exact ⟨_, _, rfl, rfl, rfl⟩

theorem inv_resetAsserted {s : State} (hs : Inv s) : Inv (resetAsserted s) := by
  obtain ⟨n, m, e, hm, hw⟩ := cutWrite_eq s
  unfold resetAsserted
  rw [e]
  exact inv_stopped hs _ m none (by simp) hm hw

theorem inv_powerLost {s : State} (hs : Inv s) : Inv (powerLost s) := by
  obtain ⟨n, m, e, hm, hw⟩ := cutWrite_eq s
  unfold powerLost
  rw [e]
  exact inv_stopped hs _ m none (by simp) hm hw

/-- A change of halt input and nothing else of Mode Control, in a mode that allows it. -/
theorem invAt_haltInput {n : Nat} {s : State} (h : InvAt n s) (b : Bool)
    (hk : s.mode = .dispatching → ((b && s.mc.identity.haltEnable) || s.mc.haltPending) = false) :
    InvAt n (s.updMc fun m => { m with haltInput := b }) where
  sound := { h.sound with }
  alarm := AlarmOk.congr (s := s) rfl rfl rfl h.alarm
  settled :=
    { h.settled with
      parked := fun e => { h.settled.parked e with srt := (h.settled.parked e).srt }
      halt := hk }

theorem inv_haltAsserted {s : State} (hs : Inv s) : Inv (haltAsserted s) := by
  have h0 := (inv_iff s).1 hs
  refine (inv_iff _).2 ?_
  unfold haltAsserted
  split
  · exact h0
  simp only
  split
  · rename_i he
    split
    · rename_i hm
      exact invAt_haltInput h0 true fun e => by rw [show s.mode = .parked from hm] at e; cases e
    · rename_i hm
      have hp : s.mode ≠ .parked := by rw [show s.mode = .dispatching from hm]; decide
      have k : InvAt 0 (enterHalted (s.updMc fun m => { m with haltInput := true })) := by
        rw [enterHalted_updMc _ _ (fun _ => rfl)]
        refine invAt_haltInput (invAt_enterHalted h0 hp) true fun e => ?_
        rw [enterHalted_mode] at e; cases e
      exact k.acts (acts_raise _ _ _) fun e => by rw [enterHalted_mode] at e; cases e
    · rename_i hm
      have hm : s.mode = .halted := hm
      have k := invAt_haltInput h0 true fun e => by rw [hm] at e; cases e
      exact k.acts (acts_raise _ _ _) fun e => by
        have e : s.mode = .parked := e
        rw [hm] at e; cases e
  · rename_i he
    have he : s.mc.identity.haltEnable = false := by simpa using he
    refine invAt_haltInput h0 true fun e => ?_
    have := hs.settled.halt e
    unfold State.effectiveHalt at this
    simp only [Bool.or_eq_false_iff] at this
    rw [he, this.2]; rfl

theorem inv_haltReleased {s : State} (hs : Inv s) : Inv (s.updMc fun m => { m with haltInput := false }) :=
  (inv_iff _).2 (invAt_haltInput ((inv_iff s).1 hs) false fun e => by
    have := hs.settled.halt e
    unfold State.effectiveHalt at this
    simp only [Bool.or_eq_false_iff] at this
    rw [this.2]; rfl)

theorem inv_whenRunning {f : State → State} {s : State} (hs : Inv s) (hf : s.running = true → Inv (f s)) :
    Inv (whenRunning f s) := by
  unfold whenRunning
  split
  · rename_i h; exact hf h
  · exact hs

theorem inv_haltPinAsserted {s : State} (hs : Inv s) : Inv (whenRunning haltAsserted (setHaltPin true s)) :=
  have k := inv_board hs (fun x => { x with haltPin := true }) id
  inv_whenRunning k fun _ => inv_haltAsserted k

theorem inv_haltPinReleased {s : State} (hs : Inv s) :
    Inv (whenRunning (fun t => t.updMc fun m => { m with haltInput := false }) (setHaltPin false s)) :=
  have k := inv_board hs (fun x => { x with haltPin := false }) id
  inv_whenRunning k fun _ => inv_haltReleased k

theorem inv_resetPinAsserted {s : State} (hs : Inv s) :
    Inv (if s.running then resetAsserted s else s.updBoard fun b => { b with resetPin := true }) := by
  split
  · exact inv_resetAsserted hs
  · refine inv_board hs _ fun e => ?_
    simp [State.running] at e

theorem inv_resetPinReleased {s : State} (hs : Inv s) :
    Inv (if s.board.power && s.board.resetPin then startUp (s.updBoard fun b => { b with resetPin := false })
      else s.updBoard fun b => { b with resetPin := false }) := by
  split
  · exact inv_startUp _
  · rename_i h
    refine inv_board hs _ fun e => ?_
    simp only [Bool.and_eq_true, not_and, Bool.not_eq_true] at h
    have e : (s.board.power && !false) = true := e
    have e : s.board.power = true := by simpa using e
    simp [State.running, e, h e]

theorem inv_powerOn {s : State} (hs : Inv s) :
    Inv (if s.board.power then s else startUp (s.updBoard fun b => { b with power := true })) := by
  split
  · exact hs
  · exact inv_startUp _

theorem inv_lossOfPower {s : State} (hs : Inv s) : Inv (if s.board.power then powerLost s else s) := by
  split
  · exact inv_powerLost hs
  · exact hs

end Sys2Proof.Machine
end

