-- ==== Sys2Proof/Laws/Lines.lean ====
section
/-! SUPPORT. The peer and vehicle rows, the deadlines, the lines, the timers and the dispatch pass keep the
invariant. -/

namespace Sys2Proof.Machine

/-- What acts keeps the invariant, if PARKED stays clear. -/
theorem inv_acts {s t : State} (hs : Inv s) (a : Acts s t) (hp : s.mode = .parked → ParkedClear t) : Inv t :=
  (inv_iff t).2 (((inv_iff s).1 hs).acts a hp)

/-- The same where PARKED changes only what is reported. -/
theorem inv_reported {s t : State} (hs : Inv s) (a : Acts s t) (hp : s.mode = .parked → Reported s t) : Inv t :=
  inv_acts hs a fun e => (hs.settled.parked e).reported (hp e)

/-- The queue of commands is no part of the engine. -/
theorem inv_pending {s : State} (hs : Inv s) (l : List Instr) : Inv { s with pending := l } where
  sound := { hs.sound with }
  alarm := AlarmOk.congr (s := s) rfl rfl rfl hs.alarm
  settled := { hs.settled with parked := fun e => { hs.settled.parked e with srt := (hs.settled.parked e).srt } }

/-! ### Peer rows (R128): no claim stands in PARKED -/

theorem matchOut_parked {s : State} (h : ParkedClear s) (c : Nat) (p : PeerHead) : matchOut s c p = none := by
  unfold matchOut; rw [h.outClaims]; rfl

theorem inClaim_parked {s : State} (h : ParkedClear s) (c t : Nat) : inClaim s c t = none := by
  unfold inClaim; rw [h.inClaims]; rfl

theorem inv_servePeer {α : Type} {kind : Nat} {read : List Byte → Option α} {h : Nat → α → State → State} {s : State}
    (hs : Inv s) (ha : ∀ c a s, Acts s (h c a s))
    (hp : ∀ c a t, ParkedClear t → t.mode = .parked → Reported t (h c a t)) : Inv (servePeer kind read h s) := by
  refine inv_reported hs (acts_servePeer kind read h ha s) fun e => ?_
  have e' : s.mode ≠ .dispatching := by rw [e]; decide
  unfold servePeer
  split
  · split
    · exact Reported.refl s
    · rename_i f rest _
      split
      · simp only
        have pop : Reported s (s.updFli fun l => { l with inbound := rest }) := rfl
        split
        · exact pop
        · split
          · exact pop.trans (hp _ _ _ ((hs.settled.parked e).reported pop) e)
          · exact pop.trans (reported_raise _ _ _ e')
      · exact Reported.refl s
  · exact Reported.refl s

theorem inv_claimGrant {s : State} (hs : Inv s) : Inv (servePeer kindClaimGrant readPeer takeGrant s) :=
  inv_servePeer hs acts_takeGrant fun c p t k _ => by
    unfold takeGrant; rw [matchOut_parked k]; exact Reported.refl t

theorem inv_claimRefuse {s : State} (hs : Inv s) : Inv (servePeer kindClaimRefuse readRefuse takeRefuse s) :=
  inv_servePeer hs acts_takeRefuse fun c p t k _ => by
    unfold takeRefuse; rw [matchOut_parked k]; exact Reported.refl t

theorem inv_arrived {s : State} (hs : Inv s) : Inv (servePeer kindArrived readPeer takeArrived s) :=
  inv_servePeer hs acts_takeArrived fun c p t k _ => by
    unfold takeArrived; rw [matchOut_parked k]; exact Reported.refl t

theorem inv_abandon {s : State} (hs : Inv s) : Inv (servePeer kindAbandon readPeer takeAbandon s) :=
  inv_servePeer hs acts_takeAbandon fun c p t k _ => by
    unfold takeAbandon; rw [matchOut_parked k]; exact Reported.refl t

theorem inv_claimWithdraw {s : State} (hs : Inv s) : Inv (servePeer kindClaimWithdraw readPeer takeWithdraw s) :=
  inv_servePeer hs acts_takeWithdraw fun c p t k _ => by
    unfold takeWithdraw; rw [inClaim_parked k]; exact Reported.refl t

theorem inv_claim {s : State} (hs : Inv s) : Inv (servePeer kindClaim readClaim takeClaim s) :=
  inv_servePeer hs acts_takeClaim fun c q t _ e => by
    have e' : t.mode ≠ .dispatching := by rw [e]; decide
    unfold takeClaim
    simp only
    rw [if_pos e']
    exact reported_sendPeer _ _ _ _ _ _ _ e'

/-! ### Vehicle rows (R68): PARKED discards the frame -/

theorem inv_takeTrack {p : VehicleFrame → Bool} {h : TrackEntry → State → State} {s : State} (hs : Inv s)
    (ha : ∀ e s, Acts s (h e s)) : Inv (takeTrack p h s) := by
  refine inv_acts hs (acts_takeTrack p h ha s) fun e => ?_
  have k := hs.settled.parked e
  unfold takeTrack
  split
  · split
    · exact k
    · split
      · exact { k with strayHolds := k.strayHolds, srt := k.srt }
      · exact k
  · exact k

/-! ### Deadlines: none runs in PARKED -/

theorem inv_silence {s : State} (hs : Inv s) (v : Nat) : Inv (whenRunning (silenceFalls v) s) :=
  inv_whenRunning hs fun _ => inv_reported hs (acts_silenceFalls v s) fun e => by
    have hv : vehicle s v = none := by unfold vehicle findVehicle; rw [(hs.settled.parked e).roster]; rfl
    unfold silenceFalls; rw [hv]; exact Reported.refl s

theorem inv_confirm {s : State} (hs : Inv s) (m : Nat) : Inv (whenRunning (confirmFalls m) s) :=
  inv_whenRunning hs fun _ => inv_reported hs (acts_confirmFalls m s) fun e => by
    have hm : findMove s m = none := by unfold findMove; rw [(hs.settled.parked e).moves]; rfl
    unfold confirmFalls; rw [hm]; exact Reported.refl s

theorem inv_claimDeadline {s : State} (hs : Inv s) (t : Nat) : Inv (whenRunning (claimFalls t) s) :=
  inv_whenRunning hs fun _ => inv_reported hs (acts_claimFalls t s) fun e => by
    unfold claimFalls; rw [(hs.settled.parked e).outClaims]; exact Reported.refl s

theorem inv_arrivalDeadline {s : State} (hs : Inv s) (c t : Nat) : Inv (whenRunning (arrivalFalls c t) s) :=
  inv_whenRunning hs fun _ => inv_reported hs (acts_arrivalFalls c t s) fun e => by
    unfold arrivalFalls; rw [inClaim_parked (hs.settled.parked e)]; exact Reported.refl s

/-! ### The timers (R90, R113) -/

theorem inv_time {s : State} (hs : Inv s) (n : Nat) : Inv (s.updBoard fun b => { b with now := n }) :=
  inv_board hs _ id

theorem confirmFits_age {md : Mode} {x : Move} (h : ConfirmFits md x) : ConfirmFits md (ageOne x) := h

theorem inv_ageExpiry {s : State} (hs : Inv s) : Inv (ageExpiry s) := by
  have k : Inv (reachTime s.mq.ageAt s) := inv_board hs _ id
  exact
    { sound :=
        { k.sound with
          moves :=
            { size := by
                show (s.mq.moves.map ageOne).length ≤ _
                rw [List.length_map]; exact hs.sound.moves.size
              ids := by
                show ((s.mq.moves.map ageOne).map (·.id)).Nodup
                rw [List.map_map]; exact hs.sound.moves.ids
              arrivals := hs.sound.moves.arrivals }
          confirm := fun y hy => by
            have hy : y ∈ s.mq.moves.map ageOne := hy
            obtain ⟨x, hx, rfl⟩ := List.mem_map.1 hy
            exact confirmFits_age (hs.sound.confirm x hx) }
      alarm := AlarmOk.congr (s := s) rfl rfl rfl hs.alarm
      settled :=
        { k.settled with
          parked := fun e =>
            { hs.settled.parked e with
              moves := by
                show s.mq.moves.map ageOne = []
                rw [(hs.settled.parked e).moves]; rfl
              srt := (hs.settled.parked e).srt } } }

theorem inv_dispatchExpiry {s : State} (hs : Inv s) : Inv (dispatchExpiry s) := by
  have k : Inv ((reachTime s.asu.dispatchAt s).updAsu fun a => { a with dispatchAt := a.dispatchAt + 10 }) :=
    { sound := { hs.sound with }
      alarm := AlarmOk.congr (s := s) rfl rfl rfl hs.alarm
      settled := { hs.settled with parked := fun e => { hs.settled.parked e with srt := (hs.settled.parked e).srt } } }
  unfold dispatchExpiry
  refine inv_acts k (acts_setPassDue _) fun e => ?_
  have h : ∀ t : State, t.mode = .parked → ParkedClear t → ParkedClear (setPassDue t) := fun t ht c => by
    unfold setPassDue; rw [if_neg (by rw [ht]; decide)]; exact c
  exact h _ e (k.settled.parked e)

/-! ### The dispatch pass (R112) -/

/-- The pass as a whole acts. -/
theorem acts_dispatchPass {s : State} (hr : s.asu.passRunning = false) (hm : s.mode = .dispatching) :
    Acts s (dispatchPass s) := by
  have a : Acts (beginPass s) (passMoves (writeUrgencies (beginPass s)) (passOrder s) []
      (writeUrgencies (beginPass s))) := (acts_writeUrgencies _).trans (acts_passMoves _ _ _ _)
  unfold dispatchPass
  simp only
  generalize passMoves _ _ _ _ = p at a
  have c : Acts s (p.updAsu fun x => { x with passRunning := false, haltDeferred := false }) :=
    { a with
      mc := a.mc
      passRunning := hr.symm
      alarm := fun h => AlarmOk.congr (s := p) rfl rfl rfl (a.alarm (AlarmOk.congr (s := s) rfl rfl rfl h))
      agree := fun h => a.agree { h with deferred := fun _ => rfl, passDue := fun e => Bool.noConfusion e }
      stores := fun h =>
        { a.stores { h with deferred := fun _ => rfl, passDue := fun e => Bool.noConfusion e } with
          deferred := fun e => by cases e } }
  unfold endPass
  simp only
  split
  · refine c.trans (acts_enterHalted _ ?_)
    rcases c.mc with k | ⟨_, k⟩ <;> unfold State.mode at hm ⊢ <;> rw [k]
    · rw [hm]; decide
    · exact fun e => Mode.noConfusion e
  · exact c

theorem inv_dispatchPass {s : State} (hs : Inv s) :
    Inv (if s.mode = .dispatching ∧ s.asu.passDue = true then dispatchPass s else s) := by
  split
  · rename_i h
    exact inv_acts hs (acts_dispatchPass hs.settled.noPass h.1) fun e => by rw [h.1] at e; cases e
  · exact hs

/-! ### The floor link's queues (R160, R161) -/

theorem inv_floorArrival {s : State} (hs : Inv s) (bs : List Byte) : Inv (floorArrival bs s) := by
  unfold floorArrival
  split
  · exact hs
  · split
    · exact hs
    · split
      · exact inv_reported hs (acts_raise _ _ _) fun e => reported_raise _ _ _ (by rw [e]; decide)
      · rename_i h
        exact
          { sound := { hs.sound with }
            alarm := AlarmOk.congr (s := s) rfl rfl rfl hs.alarm
            settled :=
              { hs.settled with
                parked := fun e => { hs.settled.parked e with srt := (hs.settled.parked e).srt }
                inbound := by
                  show (s.fli.inbound ++ [_]).length ≤ _
                  rw [List.length_append, List.length_singleton]
                  omega } }

theorem inv_floorSent {s : State} (hs : Inv s) : Inv (floorSent s) := by
  unfold floorSent
  split
  · exact hs
  · rename_i f rest h
    exact
      { sound :=
          { hs.sound with
            occupancy := by
              have := hs.sound.occupancy
              unfold occupancy at this
              rw [h, List.length_cons] at this
              show rest.length + s.fli.reservations ≤ _
              omega }
        alarm := AlarmOk.congr (s := s) rfl rfl rfl hs.alarm
        settled := { hs.settled with parked := fun e => { hs.settled.parked e with srt := (hs.settled.parked e).srt } } }

/-! ### The track line: receiving (R146, R147) -/

/-- The track line changes but for its unrecorded HOLDs, the queue staying within its bound. -/
theorem inv_line {s : State} (hs : Inv s) (f : Tli → Tli) (hq : (f s.tli).queue.length ≤ Config.trackQueueMax)
    (hh : (f s.tli).strayHolds = s.tli.strayHolds) : Inv (s.updTli f) where
  sound := { hs.sound with strays := by show TableWf (f s.tli).strayHolds; rw [hh]; exact hs.sound.strays }
  alarm := AlarmOk.congr (s := s) rfl rfl rfl hs.alarm
  settled := { hs.settled with parked := fun e => (hs.settled.parked e).line hh, queue := hq }

theorem inv_setAnswer {s : State} (hs : Inv s) (a : Answer) : Inv (setAnswer a s) := inv_line hs _ hs.settled.queue rfl

theorem inv_raiseTrackCheck {s : State} (hs : Inv s) : Inv (raiseTrackCheck s) :=
  inv_reported hs (acts_raise _ _ _) fun e => reported_raise _ _ _ (by rw [e]; decide)

theorem inv_enqueueFrame {s : State} (hs : Inv s) (src : Nat) (b : VehicleFrame) : Inv (enqueueFrame src b s) := by
  unfold enqueueFrame
  split
  · refine inv_setAnswer (inv_line hs _ ?_ rfl) _
    show (s.tli.queue.map _).length ≤ _
    rw [List.length_map]; exact hs.settled.queue
  split
  · exact inv_setAnswer hs _
  · rename_i h
    have k : (s.tli.queue ++ [({ src := src, body := b
                                 paced := nextPacing s.tuning s.tli.pacing (s.tli.queue.length + 1) } : TrackEntry)]).length
        ≤ Config.trackQueueMax := by
      rw [List.length_append, List.length_singleton]; omega
    exact inv_setAnswer (inv_line (inv_line hs _ k rfl) _ k rfl) _

theorem inv_receiveFrame {s : State} (hs : Inv s) (f : TrackFrame) : Inv (receiveFrame f s) := by
  unfold receiveFrame
  split
  · exact inv_raiseTrackCheck (inv_setAnswer hs _)
  split
  · exact inv_setAnswer hs _
  split
  · exact inv_raiseTrackCheck (inv_setAnswer hs _)
  · split
    · exact inv_setAnswer hs _
    · exact inv_enqueueFrame hs _ _

theorem inv_trackReceived {s : State} (hs : Inv s) (r : TrackReception) : Inv (trackReceived r s) := by
  have k : ∀ t, contend r s = some t → Inv t := by
    intro t h
    unfold contend at h
    split at h
    · cases h; exact hs
    · cases h
    · split at h
      · cases h; exact inv_line hs _ hs.settled.queue rfl
      · cases h
  unfold trackReceived
  split
  · exact hs
  · rename_i t h
    split
    · exact inv_raiseTrackCheck (inv_setAnswer (k t h) _)
    · exact inv_receiveFrame (k t h) _

/-! ### The track line: sending (R153 to R155) -/

/-- What the sending of engine frames changes: it acts, and PARKED has no vehicle and no unrecorded HOLD to change. -/
structure Sends (s t : State) : Prop where
  acts : Acts s t
  parked : ParkedClear s → ParkedClear t

theorem Sends.refl (s : State) : Sends s s := ⟨Acts.refl s, id⟩
theorem Sends.trans {s t u : State} (a : Sends s t) (b : Sends t u) : Sends s u :=
  ⟨a.acts.trans b.acts, fun h => b.parked (a.parked h)⟩

theorem inv_sends {s t : State} (hs : Inv s) (a : Sends s t) : Inv t :=
  inv_acts hs a.acts fun e => a.parked (hs.settled.parked e)

theorem sends_updDue (v : Nat) (f : DueSet → DueSet) (s : State)
    (hw : ∀ d, d.withdraw.length ≤ Config.withdrawMax → (f d).withdraw.length ≤ Config.withdrawMax) :
    Sends s (updDue v f s) where
  acts := acts_updDue v f s hw
  parked := fun h =>
    { h with
      roster := by
        show List.map _ s.roster = []
        rw [h.roster]; rfl
      srt := h.srt }

theorem sends_line (f : Tli → Tli) (s : State) (hq : (f s.tli).queue = s.tli.queue)
    (hh : (f s.tli).strayHolds = s.tli.strayHolds) : Sends s (s.updTli f) where
  acts := acts_updTli (by rw [hq]) (by rw [hh]; exact id)
  parked := fun h => h.line hh

theorem sends_clearUnsent (i : LineItem) (s : State) : Sends s (clearUnsent i s) := by
  unfold clearUnsent
  split
  · exact sends_updDue _ _ _ fun _ h => h
  · exact Sends.refl s

theorem sends_sendPicked (p : LineItem → Bool) (n : Nat) (s : State) : Sends s (sendPicked p n s) := by
  induction n generalizing s with
  | zero => exact Sends.refl s
  | succ n ih =>
    unfold sendPicked
    split
    · exact Sends.refl s
    · split
      · split
        · exact sends_line _ _ rfl rfl
        · exact (sends_clearUnsent _ s).trans (ih _)
      · exact Sends.refl s

theorem inv_sendRow {s : State} (hs : Inv s) (p : LineItem → Bool) : Inv (sendRow p s) := by
  unfold sendRow
  split
  · exact inv_sends hs (sends_sendPicked p _ s)
  · exact hs

theorem strays_filterMap_sublist (v : Nat) (f : Nat → Option Nat) (t : Table Nat) :
    ((t.filterMap fun e => if e.1 = v then (f e.2).map (fun n => (e.1, n)) else some e).map (·.1)).Sublist (t.map (·.1)) := by
  induction t with
  | nil => exact List.Sublist.refl _
  | cons e t ih =>
    rw [List.filterMap_cons]
    split
    · exact ih.cons _
    · rename_i b hb
      have : b.1 = e.1 := by
        split at hb
        · obtain ⟨n, _, rfl⟩ := Option.map_eq_some_iff.1 hb; rfl
        · cases hb; rfl
      rw [List.map_cons, List.map_cons, this]
      exact ih.cons_cons _

theorem sends_modItem (f : Nat → Option Nat) (i : LineItem) (s : State) : Sends s (modItem f i s) := by
  unfold modItem
  split
  · exact sends_line _ _ rfl rfl
  · exact sends_line _ _ rfl rfl
  · exact sends_line _ _ rfl rfl
  · rename_i v
    refine ⟨acts_updTli (List.Sublist.refl _) fun h => ?_, fun h => ?_⟩
    · rw [tableWf_iff] at h ⊢
      exact h.sublist (strays_filterMap_sublist v f _)
    · refine { h with strayHolds := ?_, srt := h.srt }
      show List.filterMap _ s.tli.strayHolds = []
      rw [h.strayHolds]; rfl
  all_goals exact sends_updDue _ _ _ fun _ h => h

theorem sends_clearItem (fr : LineFrame) (s : State) : Sends s (clearItem fr s) := by
  unfold clearItem
  split
  · exact sends_updDue _ _ _ fun _ h => (List.length_filter_le _ _).trans h
  · split <;> exact sends_modItem _ _ _

theorem sends_settleItem (fr : LineFrame) (a : Option Answer) (s : State) : Sends s (settleItem fr a s) := by
  unfold settleItem
  split
  · exact sends_clearItem _ _
  · exact sends_clearItem _ _
  · exact sends_modItem _ _ _
  · exact sends_modItem _ _ _
  · unfold unanswered
    split
    · exact Sends.refl s
    · split
      · exact sends_clearItem _ _
      · exact sends_modItem _ _ _

theorem sends_movePointer (i : LineItem) (s : State) : Sends s (movePointer i s) := by
  unfold movePointer
  split
  · exact sends_line _ _ rfl rfl
  · exact Sends.refl s

theorem inv_frameEnds {s : State} (hs : Inv s) (o : FrameOutcome) : Inv (frameEnds o s) := by
  refine inv_sends hs ?_
  unfold frameEnds
  split
  · exact Sends.refl s
  · rename_i fr _
    simp only
    have k : Sends s (s.updTli fun t => { t with line := none }) := sends_line _ _ rfl rfl
    split
    · exact k
    · have k := k.trans (sends_movePointer fr.item _)
      split
      · exact k
      · exact k.trans (sends_settleItem _ _ _)

end Sys2Proof.Machine
end

