-- ==== Sys2Proof/WellFormed.lean ====
section
/-! DEFINITION. Which commands are well formed: their operands lie in the ranges the spec gives. -/

namespace Sys2Proof

/-- A received frame has a 2-bit priority (R187) and fewer than eight left-over bits. -/
def TrackFrame.wf (f : TrackFrame) : Bool := f.prio < 4 && f.stray < 8

def TrackReception.wf : TrackReception → Bool
  | .short => true
  | .frame f => f.wf

/-- Vehicle ids 1..254, move ids 1..65535, cells 0..63 (section 5 of 00_scope.md), claim tags 1..255 (R129). -/
def Instr.wf : Instr → Bool
  | .trackFrameReceived r => r.wf
  | .lastHeardDeadline v => 1 ≤ v && v ≤ 254
  | .confirmDeadline m => 1 ≤ m && m ≤ 65535
  | .claimDeadline t => 1 ≤ t && t ≤ 255
  | .arrivalDeadline c t => c ≤ 63 && 1 ≤ t && t ≤ 255
  | _ => true

end Sys2Proof
end

