-- ==== Sys2Proof/Tests/Slice0.lean ====
section
/-! SUPPORT. The model's own tests: ill-formed commands, one small case or two for each command, and for every
obligation with hypotheses a state and operands that meet them. -/

open Sys2Proof Sys2Proof.Machine Sys2Proof.Says

set_option Elab.async false

namespace Sys2Proof.Tests

/-! ### Well-formed and ill-formed commands -/

def aFrame : TrackFrame := { prio := 3, src := 7, kind := 1, len := 0, payload := [], stray := 0, check := 0 }

theorem test_wf_frame : Instr.wf (.trackFrameReceived (.frame aFrame)) = true := by decide
theorem test_wf_short : Instr.wf (.trackFrameReceived .short) = true := by decide
theorem test_illformed_priority : Instr.wf (.trackFrameReceived (.frame { aFrame with prio := 4 })) = false := by decide
theorem test_illformed_stray : Instr.wf (.trackFrameReceived (.frame { aFrame with stray := 8 })) = false := by decide
theorem test_wf_lastHeard : Instr.wf (.lastHeardDeadline 254) = true := by decide
theorem test_illformed_vehicle_zero : Instr.wf (.lastHeardDeadline 0) = false := by decide
theorem test_illformed_vehicle_high : Instr.wf (.lastHeardDeadline 255) = false := by decide
theorem test_wf_confirm : Instr.wf (.confirmDeadline 65535) = true := by decide
theorem test_illformed_move_zero : Instr.wf (.confirmDeadline 0) = false := by decide
theorem test_illformed_move_high : Instr.wf (.confirmDeadline 65536) = false := by decide
theorem test_wf_claim : Instr.wf (.claimDeadline 255) = true := by decide
theorem test_illformed_tag_zero : Instr.wf (.claimDeadline 0) = false := by decide
theorem test_illformed_tag_high : Instr.wf (.claimDeadline 256) = false := by decide
theorem test_wf_arrival : Instr.wf (.arrivalDeadline 63 1) = true := by decide
theorem test_illformed_cell : Instr.wf (.arrivalDeadline 64 1) = false := by decide
theorem test_illformed_arrival_tag : Instr.wf (.arrivalDeadline 0 0) = false := by decide

/-! ### A small cell: 20 (own boundary) → 10 → 11 → 12 → 13 (boundary of cell 6) -/

def plainSeg (next : Nat) : SegmentRec := { form := .plain, zone := 0, succ0 := next, speed := 5 }

def smallLayout : Layout :=
  { Layout.initial with
    segs := [(10, plainSeg 11), (11, plainSeg 12), (12, plainSeg 13),
      (13, { form := .boundary 6, zone := 0, succ0 := 99, speed := 5 }),
      (20, { form := .boundary 5, zone := 0, succ0 := 10, speed := 3 })]
    zones := [(0, { capacity := 4, entrySeg := 10, anchor := 12, park := [10, 11], overflow := none })]
    ports := [(1, { segment := 11, kind := .load }), (2, { segment := 12, kind := .buffer })]
    routes := [(0, { time := 10, desc := none })]
    exits := [(6, 13)], validated := true }

def base : State :=
  { State.reset with
    layout := smallLayout
    srt := restingTable (some 5) smallLayout.segs
    mc := { State.reset.mc with
      mode := .dispatching, identity := { cell := some 5, haltEnable := true, neighbours := [6] } } }

def inMode (m : Mode) (s : State) : State := { s with mc := { s.mc with mode := m } }
def parked : State := inMode .parked base
def halted : State := inMode .halted base

/-- A request of the server, or a peer frame of cell 6. -/
def ask (kind : Nat) (payload : List Byte) : FloorFrame := { dst := 5, src := 64, kind := kind, tag := 9, payload := payload }
def peer (kind : Nat) (payload : List Byte) : FloorFrame := { dst := 5, src := 6, kind := kind, tag := 0, payload := payload }
def asks (f : FloorFrame) (s : State) : State := { s with fli := { s.fli with inbound := [f] } }

/-- A vehicle frame waits. -/
def entry (v : Nat) (b : VehicleFrame) : TrackEntry := { src := v, body := b, paced := false }
def hears (e : TrackEntry) (s : State) : State := { s with tli := { s.tli with queue := [e] } }

/-- Vehicle 7 in a state, with what it holds. -/
def veh (st : VState) (held : List Nat) (move carrier : Option Nat) : Vehicle :=
  { id := 7, state := st, held := held, move := move, nextMove := none, carrier := carrier, need := 2
    heardBy := some 30, pacing := false, path := Path.empty, parkMark := none, due := DueSet.empty }

/-- Vehicle 7 in slot 0; its first held segment OCCUPIED, the others RESERVED. -/
def having (x : Vehicle) (s : State) : State :=
  { s with
    roster := [(0, x)]
    srt := s.srt.map fun p =>
      if x.held.head? = some p.1 then (p.1, { p.2 with res := .occupied 7 none })
      else if p.1 ∈ x.held then (p.1, { p.2 with res := if p.1 = 13 then .borrowed 7 else .reserved 7 })
      else p }

def moveRec (id : Nat) (st : MState) (v : Option Nat) (dest : Nat) : Move :=
  { id := id, carrier := 77, source := some 1, dest := some dest, cls := 2, age := 4, seq := 0, state := st, vehicle := v
    confirm := if st = .assigned then .at 20 else .absent, returnFlag := false, urgency := 0 }
def holding (l : List Move) (s : State) : State := { s with mq := { s.mq with moves := l } }

def marked (i : Nat) (r : Res) (s : State) : State := setRes i r s
def after (c : Instr) (s : State) : State := match exec c s with | .next t => t | _ => s

def stepped (s : State) : State := match step s with | .next t => t | _ => s

/-- Own port 2 as a global port, and a port of cell 6. -/
def own2 : Nat := 5 * 256 + 2
def far : Nat := 6 * 256 + 1

/-! ### The queue, reset and the layouts -/

theorem test_wit_StepRunsFrontCommand : ({ base with pending := [.ageTimer, .powerOn] } : State).pending = [.ageTimer, .powerOn] := by
  decide
theorem test_step_front : (stepped { base with pending := [.ageTimer, .powerOn] }).pending = [.powerOn]
    ∧ (stepped { base with pending := [.ageTimer, .powerOn] }).mq.ageAt = 20 := by decide +kernel
theorem test_wit_StepIdlesOneTick : base.pending = [] := by decide
theorem test_tick : (stepped base).board.now = 1 := by decide +kernel

/-! ### MOVE, CANCEL, FORGET, BLOCK, UNBLOCK -/

def fMove (dest : Nat) : FloorFrame := ask 0x20 (movePayload 9 77 1 dest 3)

theorem test_wit_MoveTakenAsNew :
    (Takes (asks (fMove own2) base) (fMove own2) [] ∧ MoveFields 9 77 1 own2 3 ∧ base.mc.identity.cell = some 5
      ∧ portRec base 1 ≠ none ∧ Reachable base 5 own2 ∧ Reachable base 5 far ∧ findMove base 9 = none
      ∧ base.mq.moves.length < 128) := by decide +kernel
theorem test_move : (after .move (asks (fMove own2) base)).fli.outbound = [reply base (fMove own2) .done []]
    ∧ (after .move (asks (fMove own2) base)).mq.moves.map (·.id) = [9] := by decide +kernel

/-- Every refusal of R95 in turn, with the state and fields that give it. -/
theorem test_wit_MoveRefusedInOrder :
    moveRefusal parked 9 77 1 own2 3 = some .refusedState ∧ moveRefusal base 0 77 1 own2 3 = some .refusedRange
    ∧ moveRefusal base 9 77 1 own2 4 = some .refusedRange ∧ moveRefusal base 9 77 3 own2 3 = some .refusedRange
    ∧ moveRefusal base 9 77 1 16384 3 = some .refusedRange ∧ moveRefusal base 9 77 1 (7 * 256) 3 = some .refusedRange
    ∧ moveRefusal base 9 0 1 own2 3 = some .refusedRange
    ∧ moveRefusal (holding [moveRec 9 .carrying none own2] base) 9 77 1 own2 3 = some .refusedDuplicate
    ∧ moveRefusal (holding (List.replicate 128 (moveRec 8 .waiting none own2)) base) 9 77 1 own2 3 = some .refusedFull
    ∧ moveRefusal base 9 77 1 own2 3 = none ∧ Takes (asks (fMove own2) parked) (fMove own2) [] := by decide +kernel

def adoptable : State :=
  asks (fMove own2) (holding [moveRec 9 .unrouted (some 7) own2] (having (veh (.work .laden) [10] (some 9) (some 77)) base))

theorem test_wit_MoveAdoptsUnrouted :
    Takes adoptable (fMove own2) [] ∧ findMove adoptable 9 = some (moveRec 9 .unrouted (some 7) own2)
      ∧ (moveRec 9 .unrouted (some 7) own2).carrier = 77 := by decide +kernel
theorem test_adopt : (findMove (after .move adoptable) 9).map (·.state) = some .carrying
    ∧ (vehicle (after .move adoptable) 7).map (·.held) = some [10, 11, 12] := by decide +kernel

/-- The zones of segments 11, 12 and 13 changed to 1, and a route from 10 to 11. -/
def twoZones (d : Option Descriptor) (s : State) : State :=
  { s with layout := { s.layout with
      segs := s.layout.segs.map fun p => if p.1 ∈ [11, 12, 13] then (p.1, { p.2 with zone := 1 }) else p
      zones := [(0, { capacity := 4, entrySeg := 10, anchor := 10, park := [], overflow := none }),
        (1, { capacity := 4, entrySeg := 11, anchor := 12, park := [], overflow := none })]
      routes := [(1, { time := 5, desc := d })] } }
def oneStep : Descriptor := { first := 11, runLen := 1, runs := 1, legs := 1, runStep := 0, legStep := 0 }

/-- Vehicle 7 LADEN at `i` in HALTED, its UNROUTED move adopted for `dest`. -/
def adopted (i dest : Nat) (s : State) : State :=
  asks (fMove dest) (holding [moveRec 9 .unrouted (some 7) own2] (having (veh (.work .laden) [i] (some 9) (some 77))
    (inMode .halted s)))
def pathOf (s : State) : Option Path := (vehicle (after .move s) 7).map (·.path)

theorem test_wit_AdoptsAt (i dest : Nat) (s : State) (h : s = base ∨ s = twoZones none base ∨ s = twoZones (some oneStep) base)
    (hd : dest = own2 ∨ dest = far) (hi : i = 10 ∨ i = 13) : AdoptsAt (adopted i dest s) (fMove dest) [] 5 dest 7 i := by
  refine ⟨9, 77, 1, 3, moveRec 9 .unrouted (some 7) own2, veh (.work .laden) [i] (some 9) (some 77), ?_⟩
  rcases h with rfl | rfl | rfl <;> rcases hd with rfl | rfl <;> rcases hi with rfl | rfl <;> decide +kernel
theorem test_wit_walks : Walks base 10 12 2 ∧ WalksForeign base 10 99 3 ∧ Walks base 10 10 0 := by
  refine ⟨⟨by decide, ?_, by decide +kernel, by decide +kernel⟩, ⟨by decide, by decide, ?_, 13, by decide +kernel⟩,
    ⟨by decide, ?_, by decide +kernel, by decide +kernel⟩⟩
  · intro j hj; exact ⟨10 + j, by revert hj; revert j; decide +kernel⟩
  · intro j hj; exact ⟨10 + j, by revert hj; revert j; decide +kernel⟩
  · exact fun j hj => absurd hj (Nat.not_lt_zero j)

/-- A ring of 10 and 11, whose walk never reaches 12. -/
def ringed : State :=
  { base with layout := { smallLayout with segs := tput 11 (plainSeg 10) smallLayout.segs } }
theorem test_wit_WalksOn : WalksOn ringed 10 12 := by
  intro j hj; exact ⟨if j % 2 = 0 then 10 else 11, by revert hj; revert j; decide +kernel⟩
theorem test_adopted_paths :
    pathOf (adopted 10 own2 base) = some (walkPath .destination 12 10 2)
    ∧ pathOf (adopted 10 own2 (twoZones (some oneStep) base)) = some (routePath .destination 12 10 0 1 0 1 1)
    ∧ pathOf (adopted 10 own2 (twoZones none base)) = some
        { begunPath .destination 12 10 12 none (some (0, 1)) with condition := .broken .noRoute }
    ∧ pathOf (adopted 10 far base) = some (exitPath 13 10 12 2)
    ∧ pathOf (adopted 12 own2 { base with layout := { smallLayout with ports := [(1, ⟨11, .load⟩), (2, ⟨11, .load⟩)] } })
      = some { begunPath .destination 11 12 11 none none with condition := .broken .walkForeign }
    ∧ pathOf (adopted 10 own2 ringed) = some { begunPath .destination 12 10 12 none none with condition := .broken .walkLimit }
    := by decide +kernel

def fCancel : FloorFrame := ask 0x21 (bytes2 9)
def cancelling (st : MState) (ws : WorkState) : State :=
  asks fCancel (holding [moveRec 9 st (some 7) own2] (having (veh (.work ws) [10] (some 9) none) base))

theorem test_wit_CancelByState :
    Takes (cancelling .picking .acquiring) fCancel [] ∧ InService (cancelling .picking .acquiring)
    ∧ findMove (cancelling .assigned .toSource) 9 = some (moveRec 9 .assigned (some 7) own2)
    ∧ findMove base 9 = none ∧ Takes (asks (ask 0x21 (bytes2 0)) base) (ask 0x21 (bytes2 0)) [] := by decide +kernel
theorem test_cancel_states :
    ([(MState.waiting, WorkState.idle), (.assignedNext, .depositing), (.assigned, .toSource), (.enroute, .toSource),
      (.picking, .acquiring), (.carrying, .laden)].map fun p => (after .cancel (cancelling p.1 p.2)).mq.moves.map (·.state))
    = [[], [], [], [], [.cancelling], [.carrying]] := by decide +kernel

theorem test_wit_DispatchRequestsRefused :
    Takes (asks (ask 0x23 (bytes2 10)) parked) (ask 0x23 (bytes2 10)) [] ∧ parked.mode = .parked := by decide +kernel

def fForget : FloorFrame := ask 0x22 [7]
def forgettable : State :=
  asks fForget (holding [moveRec 9 .delivering (some 7) own2, moveRec 8 .assignedNext (some 7) own2]
    (having { veh (.work .depositing) [12] (some 9) (some 77) with nextMove := some 8 } base))

theorem test_wit_ForgetRemovesVehicle :
    Takes forgettable fForget [] ∧ InService forgettable ∧ (vehicle forgettable 7).map (·.nextMove) = some (some 8)
    ∧ findMove forgettable 8 ≠ none ∧ vehicle (asks fForget base) 7 = none
    ∧ Takes (asks (ask 0x22 [0]) base) (ask 0x22 [0]) [] := by decide +kernel
theorem test_forget : (after .forget forgettable).roster = [] ∧ resOf (after .forget forgettable) 12 = some .free
    ∧ (after .forget forgettable).mq.moves.map (fun x => (x.id, x.state)) = [(8, .waiting)] := by decide +kernel

def fBlock (kind : Nat) : FloorFrame := ask kind (bytes2 10)

theorem test_wit_BlockAndUnblock :
    Takes (asks (fBlock 0x24) (marked 10 .blocked base)) (fBlock 0x24) [] ∧ isOwn base 10 = true
    ∧ resRec (marked 10 .blocked base) 10 = some { res := .blocked, waits := [] }
    ∧ (base.srt.map (·.1)).Pairwise (· < ·) ∧ Takes (asks (fBlock 0x23) base) (fBlock 0x23) [] := by decide +kernel
theorem test_block_unblock :
    resOf (after .block (asks (fBlock 0x23) base)) 10 = some .blocked
    ∧ resOf (after .block (asks (fBlock 0x23) (marked 10 (.reserved 7) base))) 10 = some (.blockPending 7 .reserved none)
    ∧ resOf (after .unblock (asks (fBlock 0x24) (marked 10 .blocked base))) 10 = some .free
    ∧ resOf (after .unblock (asks (fBlock 0x24) (marked 10 (.blockPending 7 .occupied (some 8)) base))) 10
        = some (.occupied 7 (some 8)) := by decide +kernel
theorem test_wit_ClosuresRefused :
    Takes (asks (ask 0x23 (bytes2 1024)) base) (ask 0x23 (bytes2 1024)) [] ∧ segment base 1023 = none
    ∧ isForeign base 13 = true ∧ InService (asks (ask 0x24 (bytes2 13)) base)
    ∧ ([(Instr.block, 0x23, 1024), (.unblock, 0x24, 1023), (.block, 0x23, 13), (.unblock, 0x24, 13)].map fun c =>
        ((after c.1 (asks (ask c.2.1 (bytes2 c.2.2)) base)).fli.outbound.map (·.payload)))
      = [[[0x23, 4]], [[0x24, 4]], [[0x23, 3]], [[0x24, 3]]] := by decide +kernel

/-! ### LOAD -/

def fLoad (sel i : Nat) (record : List Byte) : FloorFrame := ask 0x25 (loadPayload sel i record)
def loading (sel i : Nat) (record : List Byte) : State := asks (fLoad sel i record) parked

def segA : SegFields := { kind := 4, zone := 0, succ0 := 99, succ1 := 0, mainPred := 0, speed := 7, owner := 6 }
def segB : SegFields := { segA with kind := 0 }
def segC : SegFields := { segA with kind := 5 }

theorem test_wit_LoadSegmentStores :
    TakesLayout (loading 0 1023 segA.bytes) (fLoad 0 1023 segA.bytes) [] 0 1023 segA.bytes ∧ segA.Fits
    ∧ segB.kind = 0 ∧ 5 ≤ segC.kind
    ∧ TakesLayout (loading 0 0 segB.bytes) (fLoad 0 0 segB.bytes) [] 0 0 segB.bytes := by decide +kernel
theorem test_wit_segment_form : segA.HasForm (.boundary 6) ∧ { segA with kind := 1 }.HasForm .plain
    ∧ { segA with kind := 2, succ1 := 1023 }.HasForm (.diverge 1023) ∧ { segA with kind := 3 }.HasForm (.merge 0) := by
  refine ⟨.inr (.inr (.inr ⟨rfl, by decide, rfl⟩)), .inl ⟨rfl, rfl⟩, .inr (.inl ⟨rfl, by decide, rfl⟩), ?_⟩
  exact .inr (.inr (.inl ⟨rfl, by decide, rfl⟩))
theorem test_wit_segment_out_of_range : { segA with zone := 32 }.Carried ∧ ¬ { segA with zone := 32 }.Fits
    ∧ { segA with owner := 64 }.Carried ∧ ∀ form, ¬ { segA with owner := 64 }.HasForm form := by
  refine ⟨by decide, by decide, by decide, ?_⟩
  rintro form (⟨h, -⟩ | ⟨h, -⟩ | ⟨h, -⟩ | ⟨-, h, -⟩) <;> exact absurd h (by decide)
theorem test_segment_refused : ([{ segA with zone := 32 }, { segA with owner := 64 }].map fun x =>
      (after .loadSegment (loading 0 10 x.bytes)).fli.outbound.map (·.payload)) = [[[0x25, 4]], [[0x25, 4]]] := by
  decide +kernel
theorem test_load_segment : segment (after .loadSegment (loading 0 1023 segA.bytes)) 1023
      = some { form := .boundary 6, zone := 0, succ0 := 99, speed := 7 }
    ∧ resOf (after .loadSegment (loading 0 1023 segA.bytes)) 1023 = some .foreign
    ∧ segment (after .loadSegment (loading 0 10 segB.bytes)) 10 = none := by decide +kernel

def zoneBytesA (p : Byte) : List Byte :=
  [p, 64] ++ bytes2 10 ++ bytes2 12 ++ [2] ++ bytes2 10 ++ bytes2 11 ++ bytes2 65535 ++ bytes2 65535 ++ [255]

theorem test_wit_LayoutTablesStore :
    TakesLayout (loading 1 31 (zoneBytesA 1)) (fLoad 1 31 (zoneBytesA 1)) [] 1 31 (zoneBytesA 1)
    ∧ TakesLayout (loading 2 255 ([1] ++ bytes2 1023 ++ [1])) (fLoad 2 255 ([1] ++ bytes2 1023 ++ [1])) [] 2 255
        ([1] ++ bytes2 1023 ++ [1])
    ∧ TakesLayout (loading 4 63 (bytes2 65535)) (fLoad 4 63 (bytes2 65535)) [] 4 63 (bytes2 65535) := by decide +kernel

def descA : Descriptor := { first := 41, runLen := 4, runs := 2, legs := 1, runStep := 16, legStep := -512 }
def routeBytesA : List Byte :=
  bytes2 85 ++ bytes2 descA.first ++ [byte descA.runLen, byte descA.runs, byte descA.legs] ++ signed2 descA.runStep
    ++ signed2 descA.legStep

theorem test_wit_LoadRouteStores : TakesLayout (loading 3 1 routeBytesA) (fLoad 3 1 routeBytesA) [] 3 (0 * 32 + 1) routeBytesA
    ∧ Carried descA ∧ InRange descA ∧ ¬ InRange { descA with first := 1024 } := by decide +kernel
theorem test_load_tables :
    (route (after .loadRoute (loading 3 1 routeBytesA)) 0 1) = { time := 85, desc := some descA }
    ∧ (zoneRec (after .loadZone (loading 1 31 (zoneBytesA 1))) 31).map (·.park) = some [10, 11]
    ∧ (after .loadZone (loading 1 0 (zoneBytesA 0))).layout.zones = []
    ∧ (portRec (after .loadPort (loading 2 255 ([1] ++ bytes2 1023 ++ [1]))) 255).map (·.kind) = some .buffer
    ∧ exitSeg (after .loadExit (loading 4 6 (bytes2 65535))) 6 = none := by decide +kernel

/-- The example of R18: W 6, T_conf 2, Lpace 40, Lresume 35. -/
def tuningA : Tuning := { Tuning.defaults with w := 6, tConf := 2, lpace := 40, lresume := 35 }
def tables (sel i : Nat) (record : List Byte) (s : State) : State := asks (fLoad sel i record) s

theorem test_wit_TuningTablesStore :
    TakesTable (tables 5 0 (tuningBytes tuningA) halted) (fLoad 5 0 (tuningBytes tuningA)) [] 5 0 (tuningBytes tuningA)
    ∧ Says.Tuning.Carried tuningA
    ∧ TakesTable (tables 6 31 [8] base) (fLoad 6 31 [8]) [] 6 31 [8]
    ∧ TakesTable (tables 7 10 [0] base) (fLoad 7 10 [0]) [] 7 EventKind.positionConflict.code [0] := by decide +kernel

theorem rosterOk_having (x : Vehicle) (s : State) (h : x.due.withdraw.length ≤ 6) : RosterOk (having x s).roster where
  sorted := by simp [having, TableWf]
  slots := by simp [having, Config.rosterMax]
  ids := by simp [having]
  withdraws := by simpa [having, Config.withdrawMax] using h

theorem test_wit_LoadCapGrants : RosterOk (having (veh (.work .idle) [10] none none) base).roster :=
  rosterOk_having _ _ (by decide)
theorem test_load_tuning :
    (let t := (after .loadTuning (tables 5 0 (tuningBytes tuningA) halted)).layout.tuning
     (t.w, t.tConf, t.lpace, t.lresume)) = (4, 5, 31, 30) := by decide +kernel
theorem test_load_cap_severity :
    capOf (after .loadCap (tables 6 0 [2] base)) 0 = 2
    ∧ (vehicle (after .loadCap (tables 6 0 [2] (having (veh (.work .idle) [10] none none) base))) 7).map (·.due.grant)
        = some (some 0)
    ∧ severityOf (after .loadSeverity (tables 7 10 [0] base)) .positionConflict = .halt
    ∧ severityOf (after .loadSeverity (tables 7 0 [9] base)) .trackCheck = .halt := by decide +kernel

theorem test_wit_LoadsRefusedInOrder :
    Takes (tables 0 1024 segA.bytes parked) (fLoad 0 1024 segA.bytes) [] ∧ segA.bytes.length = 10
    ∧ (tables 0 1024 segA.bytes parked).mc.identity.cell ≠ none ∧ State.reset.mc.identity.cell = none
    ∧ (after .loadSegment (tables 0 1024 segA.bytes parked)).fli.outbound
        = [reply parked (fLoad 0 1024 segA.bytes) .refusedRange []] := by decide +kernel

/-! ### ACTIVATE and MODE -/

def fActivate : FloorFrame := ask 0x26 []
def checking : State := { parked with mc := { parked.mc with check := some { src := 64, tag := 9 } } }

theorem test_wit_ActivateStartsCheck : Takes (asks fActivate parked) fActivate []
    ∧ (after .activate (asks fActivate parked)).mc.check = some { src := 64, tag := 9 } := by decide +kernel
theorem test_wit_ActivationCheckOutcome : checking.running = true ∧ checking.mc.check = some { src := 64, tag := 9 }
    ∧ layoutFault checking = none ∧ base.mc.check = none
    ∧ layoutFault { checking with layout := { smallLayout with ports := [(1, { segment := 13, kind := .load })] } }
        = some (.portPlace, 1) := by decide +kernel
theorem test_check_completes : (after .activationCheckComplete checking).mode = .dispatching
    ∧ (after .activationCheckComplete checking).tli.rollcall = some 0 := by decide +kernel

theorem test_wit_layoutOk : LayoutOk smallLayout where
  segs := by decide
  zones := by decide
  ports := by decide
  routes := by decide
  exits := by decide
  tuning := by decide
  caps := by decide
  severity := by decide
  conflictLevel := by decide

/-- One table broken at a time: an absent successor, a zone with a foreign anchor, a port at a boundary, an exit of an own
segment. -/
def faultOf (f : Layout → Layout) : Option (LayoutFault × Nat) := layoutFault { parked with layout := f smallLayout }
def routed (d : Descriptor) (s : State) : Option (LayoutFault × Nat) := layoutFault (inMode .parked (twoZones (some d) s))

theorem test_first_faults :
    faultOf (fun l => { l with segs := tput 11 (plainSeg 9) l.segs }) = some (.segmentLink, 11)
    ∧ faultOf (fun l => { l with segs := tput 11 (plainSeg 9) l.segs, zones := [] }) = some (.segmentLink, 11)
    ∧ faultOf (fun l => { l with zones := tput 31 { capacity := 1, entrySeg := 10, anchor := 13, park := [], overflow := none } l.zones })
      = some (.zoneShape, 31)
    ∧ faultOf (fun l => { l with ports := tput 255 { segment := 13, kind := .load } l.ports, exits := [(63, 10)] })
      = some (.portPlace, 255)
    ∧ faultOf (fun l => { l with exits := [(63, 10)] }) = some (.exitShape, 63) := by decide +kernel
theorem test_route_faults :
    [routed oneStep base, routed { oneStep with first := 1023 } base, routed { oneStep with first := 13 } base,
      routed { oneStep with first := 12 } base, routed { oneStep with runs := 2, runStep := 0 } base,
      routed { oneStep with runs := 2, runStep := 1 } base]
    = [none, some (.routeRange, 1), some (.routeForeign, 1), some (.routeEnds, 1), some (.routeBreak, 1),
      some (.routeEnds, 1)] := by decide +kernel
theorem test_wit_PlaceFails : PlaceFails base 12 [1024] 0 .routeRange ∧ PlaceFails base 12 [13] 0 .routeForeign
    ∧ PlaceFails base 12 [11] 0 .routeEnds ∧ PlaceFails base 10 [11, 10] 1 .routeBreak := by
  refine ⟨⟨1024, rfl, .inl ⟨rfl, by decide⟩⟩, ⟨13, rfl, .inr (.inl ⟨rfl, by decide +kernel, by decide +kernel⟩)⟩,
    ⟨11, rfl, .inr (.inr ⟨rfl, by decide +kernel, by decide +kernel, by decide +kernel⟩)⟩,
    ⟨10, rfl, .inr (.inr ⟨rfl, by decide +kernel, by decide +kernel, ?_⟩)⟩⟩
  rintro ⟨y, hy, h⟩
  cases hy
  exact absurd h (by decide +kernel)

def fMode (n : Nat) : FloorFrame := ask 0x27 [byte n]

theorem test_wit_ModeRequests :
    TakesMode (asks (fMode 1) halted) (fMode 1) [] 1 ∧ (asks (fMode 1) halted).haltLine = false ∧ Quiet (asks (fMode 1) halted)
    ∧ TakesMode (asks (fMode 2) base) (fMode 2) [] 2 ∧ TakesMode (asks (fMode 0) base) (fMode 0) [] 0
    ∧ TakesMode (asks (fMode 0) parked) (fMode 0) [] 0 ∧ TakesMode (asks (fMode 2) halted) (fMode 2) [] 2
    ∧ ({ halted with mc := { halted.mc with haltInput := true } } : State).haltLine = true := by decide +kernel
theorem test_wit_ModeParkedClears :
    MovesOk (holding [moveRec 9 .waiting none own2] base).mq ∧ occupancy base + 1 < 56 :=
  ⟨⟨by decide, by decide, by decide⟩, by decide⟩
theorem test_modes :
    (after .modeDispatching (asks (fMode 1) halted)).mode = .dispatching
    ∧ (after .modeHalted (asks (fMode 2) base)).mode = .halted
    ∧ (after .modeParked (asks (fMode 0) (holding [moveRec 9 .waiting none own2] base))).mode = .parked
    ∧ (after .modeParked (asks (fMode 0) (holding [moveRec 9 .waiting none own2] base))).fli.outbound.map (·.kind)
        = [0x61, 0x60] := by decide +kernel

/-! ### QUERY, CLEAR, RESTART, IDENTIFY, unknown requests -/

def fQuery (k n : Nat) : FloorFrame := ask 0x28 (byte k :: bytes2 n)
def busyCell : State := holding [moveRec 9 .carrying (some 7) far] (having (veh (.work .laden) [12, 13] (some 9) (some 77)) base)
def queried (c : Instr) (k n : Nat) : List Byte :=
  ((after c (asks (fQuery k n) busyCell)).fli.outbound.map (·.payload)).flatten

theorem test_wit_QueriesAnswer : TakesQuery (asks (fQuery 0 7) busyCell) (fQuery 0 7) [] 0 7
    ∧ (findVehicle busyCell 7).isSome = true ∧ (findMove busyCell 9).isSome = true
    ∧ (segment busyCell 13).isSome = true ∧ (resRec busyCell 13).isSome = true
    ∧ TakesQuery (asks (fQuery 8 0) busyCell) (fQuery 8 0) [] 8 0 := by decide +kernel
theorem test_queries :
    (queried .queryVehicle 0 7).take 4 = [0x28, 0, 0, 7] ∧ queried .queryVehicle 0 255 = [0x28, 4]
    ∧ queried .queryVehicle 0 8 = [0x28, 8] ∧ (queried .queryMove 1 9).take 4 = [0x28, 0, 0, 9]
    ∧ queried .querySegment 2 1023 = [0x28, 0, 0] ++ List.replicate 9 0xFF ∧ (queried .queryZone 3 0).getLast? = some 7 := by decide +kernel
theorem test_list_queries :
    queried .queryRosterList 4 0 = [0x28, 0, 1, 7] ∧ queried .queryMoveList 5 0 = [0x28, 0, 1, 1, 0, 9]
    ∧ (queried .queryStatusFlags 6 0).length = 3 + 17 * 2 ∧ queried .queryIdentity 7 0 = [0x28, 0, 5, 1, 1, 6, 0]
    ∧ queried .queryMode 8 0 = [0x28, 0, 1, 0, 1, 0, 0, 3, 3, 0, 0, 0, 0, 1] := by decide +kernel

def flagged (k : EventKind) (s : State) : State := { s with su := { s.su with flags := tput k.code noDetail s.su.flags } }
def fClear (codes : List Nat) : FloorFrame := ask 0x29 (byte codes.length :: codes.map byte)

theorem test_wit_ClearRemovesFlags : Takes (asks (fClear [11, 16]) base) (fClear [11, 16]) []
    ∧ base.mc.identity.cell ≠ none ∧ Takes (asks (fClear [17]) base) (fClear [17]) []
    ∧ Takes (asks (fClear []) base) (fClear []) [] := by decide +kernel
theorem test_clear : (after .clear (asks (fClear [11]) (flagged .pathFault (flagged .trackCheck base)))).su
    = { flags := [(0, noDetail)], alarm := false } := by decide +kernel

theorem test_wit_RestartReturnsToParked : Takes (asks (ask 0x2A [0, 1]) busyCell) (ask 0x2A [0, 1]) []
    ∧ Takes (asks (ask 0x2A [1, 0]) busyCell) (ask 0x2A [1, 0]) []
    ∧ (after .restartKeepLayout (asks (ask 0x2A [0, 0]) busyCell)).mc.identity = busyCell.mc.identity
    ∧ (after .restartKeepLayout (asks (ask 0x2A [0, 1]) busyCell)).mc.identity = Identity.blank
    ∧ (after .restartFull (asks (ask 0x2A [1, 0]) busyCell)).layout.segs = []
    ∧ ([(Instr.restartKeepLayout, 0), (.restartFull, 1)].map fun c => (after c.1 (asks (ask 0x2A [c.2, 0])
        (busyCell.updLayout fun l => { l with grantWindow := 4 }))).layout.grantWindow) = [4, 3] := by decide +kernel

def idA : IdFields := { cell := 63, haltEnable := true, persist := true, neighbours := [0, 1, 2, 3, 4, 5] }
def fIdentify (q : IdFields) : FloorFrame := ask 0x2B q.bytes

theorem test_wit_IdentityIsSet : Takes (asks (fIdentify idA) parked) (fIdentify idA) [] ∧ parked.mc.check = none
    ∧ parked.mc.windowClosed = false ∧ checking.mc.check ≠ none := by decide +kernel
theorem test_wit_good : idA.Good ∧ ¬ { idA with cell := 64 }.Good ∧ { idA with persist := false }.Good := by
  unfold IdFields.Good; decide
theorem test_identify :
    (after .identify (asks (fIdentify idA) parked)).mc.write.isSome = true
    ∧ (after .nonvolatileWriteComplete (after .identify (asks (fIdentify idA) parked))).mc.copy = some (imageOf idA)
    ∧ (after .identify (asks (fIdentify { idA with persist := false }) parked)).mc.identity.cell = some 63
    ∧ (after .nonvolatileWriteComplete base) = base := by decide +kernel

theorem test_wit_UnknownRequestRefused : Takes (asks (ask 0x30 []) base) (ask 0x30 []) []
    ∧ Takes (asks (ask 0x25 [8]) base) (ask 0x25 [8]) [] ∧ Takes (asks (ask 0x27 [3]) checking) (ask 0x27 [3]) []
    ∧ (after .unknownRequestKind (asks (ask 0x27 [3]) checking)).fli.outbound
        = [reply checking (ask 0x27 [3]) .busy []] := by decide +kernel

/-! ### Peer frames -/

def sumA : Summary := { move := 9, carrier := 77, dest := own2, cls := 3, age := 65535 }
def fClaim (tag : Nat) : FloorFrame := peer 0x40 (claimPayload tag 20 8 sumA)
def claimed (s : State) : State := asks (fClaim 255) s
def waitingAt20 (n : Nat) (s : State) : State :=
  { s with srt := tmod 20 (fun r => { r with
      waits := List.replicate n { who := .claim 200 1 6 3, enteredAt := 0 } }) s.srt }
def incoming (ph : InPhase) : InClaim := { cell := 6, tag := 255, segment := 20, vehicle := 8, summary := sumA, phase := ph }
def expecting (l : List InClaim) (s : State) : State := { s with bxu := { s.bxu with inClaims := l } }

theorem test_wit_ClaimGrantedAtOnce :
    TakesClaim (claimed base) (fClaim 255) [] 255 20 8 sumA ∧ Says.Dispatching (claimed base) 5
    ∧ Claimable (claimed base) 5 255 20 8 sumA ∧ Unclaimed (claimed base) 6 255 8 ∧ Receivable (claimed base) 8
    ∧ resOf base 20 = some .free ∧ waitsOf base 20 = [] ∧ zoneHasRoom base 20 = true := by decide +kernel
theorem test_claim_granted : resOf (after .claim (claimed base)) 20 = some (.reserved 8)
    ∧ (after .claim (claimed base)).fli.outbound = [frameOf base 6 0x41 0 (peerBytes 255 20 8)] := by decide +kernel

theorem test_wit_ClaimWaits :
    ¬ (resOf (marked 20 .blocked base) 20 = some .free) ∧ (waitsOf (waitingAt20 3 base) 20).length < 4
    ∧ 4 ≤ (waitsOf (waitingAt20 4 base) 20).length ∧ Receivable (claimed (waitingAt20 4 base)) 8
    ∧ TakesClaim (claimed (waitingAt20 4 base)) (fClaim 255) [] 255 20 8 sumA := by decide +kernel
theorem test_claim_waits : (after .claim (claimed (marked 20 .blocked base))).bxu.inClaims = [incoming .waiting]
    ∧ (waitsOf (after .claim (claimed (marked 20 .blocked base))) 20).length = 1 := by decide +kernel

/-- Vehicle 7 LADEN at 10 with a class-2 move, and entries in the wait list of segment `i`. -/
def contested (i : Nat) (l : List WaitEntry) : State :=
  let s := holding [moveRec 9 .carrying (some 7) far] (having (veh (.work .laden) [10] (some 9) (some 77)) base)
  { s with
    srt := tmod i (fun r => { r with waits := l }) s.srt
    bxu := { s.bxu with inClaims := [incoming .waiting], lastTag := 255 } }
def localEntry (v : Nat) : WaitEntry := { who := .vehicle v 10, enteredAt := 0 }
def claimEntry8 (cls : Nat) : WaitEntry := { who := .claim 8 255 6 cls, enteredAt := 0 }

theorem admitted (v : Nat) (l : List WaitEntry) (h : v = 7) : Admits (contested 11 l) v 11 :=
  h ▸ ⟨veh (.work .laden) [10] (some 9) (some 77), 0, rfl, rfl, .inl ⟨10, rfl, rfl⟩⟩
theorem unadmitted {v : Nat} (l : List WaitEntry) (h : v = 9) : ¬ Admits (contested 11 l) v 11 := by
  rintro ⟨x, z, hx, -⟩
  subst h
  cases hx
theorem test_wit_admissible : Admissible (contested 11 [localEntry 7]) 11 (localEntry 7)
    ∧ Admissible (contested 13 [localEntry 7]) 13 (localEntry 7)
    ∧ Admissible (contested 20 [claimEntry8 3]) 20 (claimEntry8 3)
    ∧ ¬ Admissible (contested 11 [localEntry 9]) 11 (localEntry 9) := by
  refine ⟨admitted 7 _ rfl, show 0 < 8 by decide, ⟨⟨0, rfl, _, rfl, by decide +kernel⟩, by decide⟩, unadmitted _ rfl⟩
theorem test_wit_Wins : Wins (contested 11 [localEntry 9, localEntry 7]) 11 (localEntry 7) := by
  refine ⟨[localEntry 9], [], rfl, ?_, ?_, fun u hu => absurd hu List.not_mem_nil⟩
  · exact admitted 7 _ rfl
  · intro u hu h
    cases List.mem_singleton.mp hu
    exact absurd h (unadmitted _ rfl)
theorem test_arbiter_keys :
    winner (contested 20 [localEntry 7, claimEntry8 3]) 20 = some (localEntry 7)
    ∧ winner (contested 20 [localEntry 7, claimEntry8 0]) 20 = some (claimEntry8 0)
    ∧ winner { contested 20 [localEntry 7, claimEntry8 3] with board := { base.board with now := 40 } } 20
      = some (claimEntry8 3) := by decide +kernel
theorem test_arbiter_outcomes :
    (taskStep (.arb 11) (contested 11 [localEntry 7])).1 = [.rounds 7]
    ∧ (taskStep (.arb 13) (contested 13 [localEntry 7])).2.bxu.outClaims
      = [{ tag := 1, segment := 13, vehicle := 7, phase := .claiming 20 }]
    ∧ resOf (taskStep (.arb 20) (contested 20 [claimEntry8 3])).2 20 = some (.reserved 8)
    ∧ (taskStep (.arb 11) (contested 11 [localEntry 9])) = ([], contested 11 [localEntry 9]) := by decide +kernel
theorem test_wit_IssuedNext : IssuedNext (contested 13 []).bxu 1 ∧ ownerOf (contested 13 []) 13 = some 6
    ∧ inClaim (contested 20 []) 6 255 = some (incoming .waiting) ∧ vehicle (contested 20 []) 8 = none :=
  ⟨⟨0, by decide, by decide, by decide, fun j hj => absurd hj (Nat.not_lt_zero j)⟩, by decide +kernel⟩

theorem test_wit_ClaimRefusedInOrder :
    TakesClaim (asks (fClaim 0) base) (fClaim 0) [] 0 20 8 sumA ∧ ¬ Claimable base 5 0 20 8 sumA ∧ halted.mode ≠ .dispatching
    ∧ inClaim (expecting [incoming .waiting] base) 6 255 = some (incoming .waiting)
    ∧ inClaim (expecting [incoming (.granted 90)] base) 6 255 = some (incoming (.granted 90))
    ∧ Unclaimed (expecting [{ incoming .waiting with cell := 7 }] base) 6 255 8
    ∧ Unclaimed (expecting (List.replicate 32 { incoming .waiting with cell := 7, vehicle := 9 }) base) 6 255 8
    ∧ (after .claim (claimed halted)).fli.outbound = [frameOf base 6 0x42 0 (peerBytes 255 20 8 ++ [0])] := by decide +kernel

/-- A waiting entry of tag 254 for the same vehicle, and one of the same tag for vehicle 9. -/
def staleCase5 : InClaim := { incoming .waiting with tag := 254 }
def staleCase4 : InClaim := { incoming .waiting with vehicle := 9 }
def withdrawn (e : InClaim) (s : State) : State :=
  after .claimWithdraw (asks (peer 0x43 (peerBytes e.tag e.segment e.vehicle)) s)

theorem test_wit_StaleClaims : inClaim (expecting [staleCase5] base) 6 255 = none
    ∧ inClaim (expecting [staleCase5] base) 6 254 = some staleCase5 ∧ staleCase5.vehicle = 8
    ∧ inClaim (expecting [staleCase4] base) 6 255 = some staleCase4 ∧ staleCase4.vehicle ≠ 8
    ∧ TakesClaim (claimed (expecting [staleCase5] base)) (fClaim 255) [] 255 20 8 sumA
    ∧ Claimable (claimed (expecting [staleCase4] base)) 5 255 20 8 sumA := by decide +kernel
theorem test_stale_claims : ([staleCase4, staleCase5].map fun e =>
      decide (after .claim (claimed (expecting [e] base)) = after .claim (claimed (withdrawn e (expecting [e] base)))))
      = [true, true]
    ∧ (after .claim (claimed (expecting [staleCase4] base))).bxu.inClaims = [incoming (.granted 100)] := by decide +kernel

/-- Vehicle 7 at 12 with its claim of 13. -/
def outgoing (ph : OutPhase) : OutClaim := { tag := 3, segment := 13, vehicle := 7, phase := ph }
def crossing (ph : OutPhase) : State :=
  let granted := ph = .granted
  let s := holding [moveRec 9 .carrying (some 7) far]
    (having (veh (if granted then .departing else .work .laden) (if granted then [12, 13] else [12]) (some 9) (some 77)) base)
  { (if granted then s else marked 13 (.claiming 7) s) with bxu := { s.bxu with outClaims := [outgoing ph], lastTag := 3 } }
def fAnswer (kind : Nat) (extra : List Byte) : FloorFrame := peer kind (peerBytes 3 13 7 ++ extra)

theorem test_wit_answer_grant :
    TakesAnswer (asks (fAnswer 0x41 []) (crossing (.claiming 20))) (fAnswer 0x41 []) [] 0x41 (outgoing (.claiming 20)) [] := by
  unfold TakesAnswer; decide +kernel
theorem test_wit_answer_refuse :
    TakesAnswer (asks (fAnswer 0x42 [0]) (crossing (.claiming 20))) (fAnswer 0x42 [0]) [] 0x42 (outgoing (.claiming 20)) [0] := by
  unfold TakesAnswer; decide +kernel
theorem test_wit_answer_arrived :
    TakesAnswer (asks (fAnswer 0x44 []) (crossing .granted)) (fAnswer 0x44 []) [] 0x44 (outgoing .granted) [] := by
  unfold TakesAnswer; decide +kernel
theorem test_wit_answer_abandon :
    TakesAnswer (asks (fAnswer 0x45 []) (crossing .granted)) (fAnswer 0x45 []) [] 0x45 (outgoing .granted) [] := by
  unfold TakesAnswer; decide +kernel
theorem test_wit_answers : (vehicle (crossing .granted) 7).map (·.state) = some .departing
    ∧ waitsOf (crossing (.claiming 20)) 13 = [] := by decide +kernel
theorem test_wit_claiming : claiming (outgoing (.claiming 20)) ∧ ¬ claiming (outgoing .granted) :=
  ⟨⟨20, rfl⟩, fun ⟨_, h⟩ => by cases h⟩
theorem test_wit_ArrivedEnds : Unarbitrated (asks (fAnswer 0x44 []) (crossing .granted))
    ∧ vehicle (crossing .granted) 7 = some (veh .departing [12, 13] (some 9) (some 77))
    ∧ findMove (crossing .granted) 9 = some (moveRec 9 .carrying (some 7) far)
    ∧ resOf (crossing .granted) 13 = some (.borrowed 7) ∧ resOf (crossing .granted) 12 = some (.occupied 7 none)
    ∧ resOf (crossing (.claiming 20)) 13 ≠ none ∧ occupancy (crossing .granted) < 56
    ∧ ∀ c ∈ (crossing .granted).bxu.outClaims, c.vehicle = 7 → c = outgoing .granted := by decide +kernel
theorem test_grant_without_record :
    (let s := asks (fAnswer 0x41 []) { crossing (.claiming 20) with roster := [] }
     (vehicle s 7, (after .claimGrant s).bxu.outClaims, resOf (after .claimGrant s) 13)) = (none, [], some .foreign) := by
  decide +kernel
theorem test_claim_grant :
    (vehicle (after .claimGrant (asks (fAnswer 0x41 []) (crossing (.claiming 20)))) 7).map (fun x => (x.state, x.held))
      = some (.departing, [12, 13])
    ∧ resOf (after .claimRefuse (asks (fAnswer 0x42 [0]) (crossing (.claiming 20)))) 13 = some .foreign := by decide +kernel
theorem test_arrived_abandon :
    (after .arrived (asks (fAnswer 0x44 []) (crossing .granted))).roster = []
    ∧ resOf (after .arrived (asks (fAnswer 0x44 []) (crossing .granted))) 12 = some .free
    ∧ resOf (after .arrived (asks (fAnswer 0x44 []) (crossing .granted))) 13 = some .foreign
    ∧ resOf (after .arrived (asks (fAnswer 0x44 []) (crossing (.claiming 20)))) 13 = some .foreign
    ∧ (after .arrived (asks (fAnswer 0x44 []) (crossing (.claiming 20)))).bxu.outClaims = []
    ∧ (after .arrived (asks (fAnswer 0x44 []) (crossing (.claiming 20)))).mq.moves = []
    ∧ (vehicle (after .abandon (asks (fAnswer 0x45 []) (crossing .granted))) 7).map (fun x => (x.state, x.held))
      = some (.lost .laden false, [12])
    ∧ (vehicle (after .abandon (asks (fAnswer 0x45 []) (crossing (.claiming 20)))) 7).map (·.state)
      = some (.work .laden) := by decide +kernel

/-- The flag of CLAIM-TIMEOUT set, ALARM as it should be. -/
def timedOut : State := flagged .claimTimeout (crossing (.claiming 20))

theorem test_wit_ClaimDeadline : timedOut.running = true ∧ flagSet timedOut .claimTimeout = true
    ∧ severityOf timedOut .claimTimeout ≠ .halt ∧ timedOut.su.alarm = alarmDue timedOut ∧ occupancy timedOut < 64
    ∧ ownerOf timedOut 13 = some 6 ∧ (∀ e ∈ base.bxu.outClaims, e.tag = 3 → False)
    ∧ (after (.claimDeadline 3) timedOut).bxu.outClaims = [] := by decide +kernel

def arriving (ph : InPhase) : State :=
  let s : State := { base with roster := [(0, arrivingRecord 8 20)] }
  expecting [incoming ph] (marked 20 (.reserved 8) s)
def fWithdraw : FloorFrame := peer 0x43 (peerBytes 255 20 8)

theorem test_wit_IncomingClaimEnds :
    TakesPeer (asks fWithdraw (arriving (.granted 90))) fWithdraw [] 0x43
    ∧ inClaim (arriving (.granted 90)) 6 255 = some (incoming (.granted 90))
    ∧ inClaim (expecting [incoming .waiting] base) 6 255 = some (incoming .waiting)
    ∧ inClaim base 6 255 = none ∧ occupancy (arriving (.granted 90)) < 64
    ∧ Unarbitrated (asks fWithdraw (arriving (.granted 90))) ∧ Unarbitrated (arriving (.granted 90))
    ∧ vehicle (arriving (.granted 90)) 8 = some (arrivingRecord 8 20) := by decide +kernel
theorem test_withdraw : resOf (after .claimWithdraw (asks fWithdraw (arriving (.granted 90)))) 20 = some .free
    ∧ resOf (after .claimWithdraw (asks fWithdraw (marked 20 (.blockPending 8 .reserved none) (arriving (.granted 90))))) 20
      = some .blocked
    ∧ (after .claimWithdraw (asks fWithdraw (arriving (.granted 90)))).roster = [] := by decide +kernel
theorem test_arrival_deadline : (after (.arrivalDeadline 6 255) (arriving (.granted 90))).board.now = 90
    ∧ (after (.arrivalDeadline 6 255) (arriving (.granted 90))).fli.outbound.map (·.kind) = [0x45, 0x62] := by decide +kernel

theorem test_wit_PeerFramesDiscarded : Takes (asks (peer 0x41 [1]) base) (peer 0x41 [1]) []
    ∧ 7 ∉ base.mc.identity.neighbours ∧ (peer 0x41 (peerBytes 1 13 7)).payload.length = 4
    ∧ Takes (asks (peer 0x41 (peerBytes 1 13 7)) base) (peer 0x41 (peerBytes 1 13 7)) []
    ∧ after .claimGrant (asks (peer 0x41 [1]) base) = base := by decide +kernel

/-! ### The lines -/

def bytesA : List Byte := [5, 64, 0x26, 0, 9, 0, 0]
def checkA : List Byte := bytes2 (crc16 bytesA).toNat

theorem test_wit_FloorFrames : base.running = true
    ∧ (after (.floorFrameArrival (bytesA ++ checkA)) base).fli.inbound = [ask 0x26 []]
    ∧ (after (.floorFrameArrival (bytesA ++ [0, 0])) base) = base
    ∧ (after .floorFrameSent (after .queryMode (asks (fQuery 8 0) base))).fli.outbound = [] := by decide +kernel

def joinA : VehicleFrame := .join 10 false 0 0
def frameA : TrackFrame :=
  { prio := 3, src := byte 7, kind := kindOf joinA, len := byte (payloadOf joinA).length, payload := payloadOf joinA
    stray := 0, check := crc16 ([byte 3, byte 7, kindOf joinA, byte (payloadOf joinA).length] ++ payloadOf joinA) }
def positionA : VehicleFrame := .position 1023 4 true
def frameP : TrackFrame :=
  { prio := 1, src := byte 7, kind := kindOf positionA, len := byte (payloadOf positionA).length
    payload := payloadOf positionA, stray := 0
    check := crc16 ([byte 1, byte 7, kindOf positionA, byte (payloadOf positionA).length] ++ payloadOf positionA) }

theorem test_wit_TrackFrames : Intact frameA ∧ Intact frameP ∧ ¬ Intact { frameA with stray := 1 }
    ∧ Fits (.join 65535 true 4294967295 65535) ∧ Fits positionA ∧ Intact { frameA with
        payload := [], len := 0, check := crc16 [3, 7, 1, 0] } := by
  unfold Intact Fits positionA; decide +kernel
theorem test_wit_heard : Heard base 3 ∧ ¬ Heard { base with tli := { base.tli with
    line := some { item := .allHold, prio := 0, kind := 0x15, payload := [255], carried := [], link := .live } } } 3 := by
  simp [Heard, base, State.reset, Tli.initial]
theorem test_wit_coalesce : WaitsFor 7 (entry 7 positionA) ∧ IsPosition positionA ∧ ¬ IsPosition joinA :=
  ⟨⟨rfl, _, _, _, rfl⟩, ⟨_, _, _, rfl⟩, fun ⟨_, _, _, h⟩ => by cases h⟩
theorem test_track_frame :
    (after (.trackFrameReceived (.frame frameA)) base).tli.queue = [entry 7 joinA]
    ∧ (after (.trackFrameReceived (.frame frameA)) base).tli.answer = some .accept
    ∧ (after (.trackFrameReceived (.frame frameP)) (hears (entry 7 (.position 3 0 false)) base)).tli.queue
        = [entry 7 positionA] := by decide +kernel
theorem test_track_refused :
    (after (.trackFrameReceived .short) base).tli.answer = some .refuseCheck
    ∧ flagSet (after (.trackFrameReceived (.frame { frameA with stray := 1 })) base) .trackCheck = true := by decide +kernel

/-! ### Vehicle frames -/

theorem test_wit_FramesWithoutRecord : (hears (entry 7 joinA) parked).tli.queue = [entry 7 joinA]
    ∧ vehicle base 7 = none ∧ kindOf (.status .confirm 0 0 false 0) = 3
    ∧ (after .join (hears (entry 7 joinA) parked)) = parked
    ∧ (after .statusConfirm (hears (entry 7 (.status .confirm 0 0 false 0)) base)).tli.strayHolds = [(7, 0)] := by decide +kernel

theorem test_wit_UnknownJoins :
    TakesEntry (hears (entry 7 joinA) base) (entry 7 joinA) [] ∧ vehicle base 7 = none ∧ resOf base 10 = some .free
    ∧ resOf (marked 10 .blocked base) 10 = some .blocked
    ∧ (findMove (holding [moveRec 9 .waiting none own2] base) 9).map (fun x => (x.state, x.carrier)) = some (.waiting, 77)
    ∧ resOf (marked 10 (.occupied 8 none) base) 10 = some (.occupied 8 none)
    ∧ (resOf base 13).bind (markFor 7) = none ∧ (resOf base 1024).bind (markFor 7) = none := by decide +kernel
theorem test_wit_joins : Joins .join joinA 10 false 0 0 ∧ Joins .position positionA 1023 true 0 0 :=
  ⟨.inl ⟨rfl, rfl⟩, .inr ⟨rfl, ⟨4, rfl⟩, rfl, rfl⟩⟩
theorem test_join :
    (vehicle (after .join (hears (entry 7 joinA) base)) 7).map (fun x => (x.state, x.held)) = some (.work .idle, [10])
    ∧ (vehicle (after .join (hears (entry 7 (.join 10 true 77 9)) (holding [moveRec 9 .waiting none own2] base))) 7).map
        (fun x => (x.state, x.move)) = some (.work .laden, some 9)
    ∧ (vehicle (after .join (hears (entry 7 (.join 13 false 0 0)) base)) 7) = none := by decide +kernel

def rejoining (st : MState) : State :=
  hears (entry 7 (.join 11 false 0 0)) (holding [moveRec 9 st (some 7) own2]
    (having (veh (.work .toSource) [10] (some 9) none) halted))

theorem test_wit_KnownJoins : TakesEntry (rejoining .assigned) (entry 7 (.join 11 false 0 0)) []
    ∧ Unarbitrated (rejoining .assigned) ∧ resOf (rejoining .assigned) 11 = some .free
    ∧ (∀ d ∈ (rejoining .assigned).bxu.outClaims, d.vehicle ≠ 7)
    ∧ vehicle (rejoining .carrying) 7 = some (veh (.work .toSource) [10] (some 9) none)
    ∧ findMove (rejoining .carrying) 9 = some (moveRec 9 .carrying (some 7) own2) := by decide +kernel

/-- The same in DISPATCHING, with no wait list in use, at segment `i` with carrier 77. -/
def rejoinsLaden (st : MState) (i : Nat) (s : State) : State :=
  hears (entry 7 (.join i true 77 9)) (holding [moveRec 9 st (some 7) own2]
    (having (veh (.work .laden) [10] (some 9) (some 77)) s))

theorem test_wit_KnownJoins_others : Unarbitrated (rejoinsLaden .carrying 11 base)
    ∧ TakesEntry (rejoinsLaden .carrying 11 base) (entry 7 (.join 11 true 77 9)) []
    ∧ (moveRec 9 .cancelling (some 7) own2).carrier = 77 ∧ (moveRec 9 .cancelling (some 7) own2).source = some 1
    ∧ resOf (rejoinsLaden .carrying 11 (marked 11 (.occupied 8 none) base)) 11 = some (.occupied 8 none)
    ∧ (resOf (rejoinsLaden .carrying 13 base) 13).bind (markFor 7) = none ∧ 11 ∉ [10] ∧ 13 ∉ [10] := by decide +kernel
theorem test_known_joins :
    ([(MState.picking, 11, base), (.cancelling, 11, base), (.unrouted, 11, base), (.carrying, 13, base),
        (.enroute, 11, marked 11 (.occupied 8 none) base)].map fun c =>
      let t := after .join (rejoinsLaden c.1 c.2.1 c.2.2)
      (t.mq.moves.map (·.state), (vehicle t 7).map fun x => (x.state, x.held)))
    = [([.carrying], some (.work .laden, [11])), ([.carrying], some (.work .laden, [11])),
        ([.unrouted], some (.work .laden, [11])), ([], none),
        ([.carrying], some (.faulted .laden, [11]))] := by decide +kernel
theorem test_wit_present : Present (veh (.work .toSource) [10] (some 9) none) ∧ Present (veh .departing [12, 13] none none)
    ∧ ¬ Present (veh .arriving [20] none none) := by simp [Present, veh]
theorem test_rejoin : (after .join (rejoining .assigned)).mq.moves.map (·.state) = [.waiting]
    ∧ (after .join (rejoining .carrying)).mq.moves = [] := by decide +kernel

/-- The same with a move of id `m`, which the JOIN names or not; the preemption list names it too. -/
def rejoinsAs (st : MState) (m named carrier : Nat) : State :=
  let s := hears (entry 7 (.join 11 true carrier named)) (holding [moveRec m st (some 7) own2]
    (having (veh (.work .laden) [10] (some m) (some 77)) base))
  { s with asu := { s.asu with preempts := [{ vehicle := 7, newMove := m, oldMove := 5 }] } }

theorem test_wit_KnownJoinsUnrouted : Unarbitrated (rejoinsAs .carrying 0 0 77)
    ∧ TakesEntry (rejoinsAs .carrying 0 0 77) (entry 7 (.join 11 true 77 0)) []
    ∧ findMove (rejoinsAs .carrying 0 0 77) 0 = some (moveRec 0 .carrying (some 7) own2)
    ∧ (rejoinsAs .carrying 0 0 77).mq.moves.length < 128 ∧ findMove (rejoinsAs .carrying 9 8 77) 8 = none
    ∧ resOf (rejoinsAs .assigned 9 9 78) 11 = some .free ∧ (moveRec 9 .assigned (some 7) own2).carrier ≠ 78 := by decide +kernel
theorem test_joins_unrouted :
    ([rejoinsAs .carrying 0 0 77, rejoinsAs .carrying 9 8 77, rejoinsAs .assigned 9 9 78, rejoinsAs .assigned 9 9 77].map
      fun s => let t := after .join s
        (t.mq.moves.map fun x => (x.id, x.state), (vehicle t 7).map fun x => (x.move, x.carrier), t.asu.preempts))
    = [([(65535, .unrouted)], some (some 65535, some 77), []), ([(65535, .unrouted)], some (some 65535, some 77), []),
        ([(9, .waiting), (65535, .unrouted)], some (some 65535, some 78), []),
        ([(9, .carrying)], some (some 9, some 77), [])] := by decide +kernel

def arrives (b : VehicleFrame) : State := hears (entry 8 b) (arriving (.granted 90))

theorem test_wit_ArrivalCompletes : TakesEntry (arrives (.position 20 4 true)) (entry 8 (.position 20 4 true)) []
    ∧ vehicle (arrives (.position 20 4 true)) 8 = some (arrivingRecord 8 20)
    ∧ grantedClaimOf (arrives (.position 20 4 true)) 8 = some (incoming (.granted 90))
    ∧ (arrivingRecord 8 20).held = [20] ∧ findMove (arrives (.position 20 4 true)) 9 = none := by decide +kernel
theorem test_wit_ArrivalInOrder : RosterOk (arrives (.position 20 4 true)).roster where
  sorted := by decide +kernel
  slots := by decide +kernel
  ids := by decide +kernel
  withdraws := by decide +kernel
theorem test_arrival_order : (after .position (arrives (.position 20 4 true))).fli.outbound.map (·.kind) = [0x61, 0x44]
    ∧ ((after .position (hears (entry 8 (.position 20 4 true)) (arriving (.granted 90) |> fun s => { s with
        layout := { smallLayout with grantWindow := 4 }
        bxu := { s.bxu with inClaims := [{ incoming (.granted 90) with summary := { sumA with dest := far } }] } }))).fli.outbound.map
        (·.kind)) = [0x61, 0x44, 0x40] := by decide +kernel
theorem test_arrival :
    (vehicle (after .position (arrives (.position 20 4 true))) 8).map (fun x => (x.state, x.held, x.move))
      = some (.work .laden, [20, 10, 11, 12], some 9)
    ∧ (after .position (arrives (.position 20 4 true))).bxu.inClaims = []
    ∧ (vehicle (after .statusFault (arrives (.status .fault 20 0 false 0))) 8).map (·.due.stopMark) = some true := by decide +kernel

def moving (st : VState) (held : List Nat) (b : VehicleFrame) (s : State) : State :=
  hears (entry 7 b) (having (veh st held none none) s)

theorem test_wit_PositionReleasesBehind :
    vehicle (moving (.work .idle) [10, 11, 12] (.position 11 9 false) halted) 7
      = some (veh (.work .idle) [10, 11, 12] none none)
    ∧ resOf (moving (.work .idle) [10, 11, 12] (.position 11 9 false) halted) 11 = some (.reserved 7)
    ∧ [12, 13] = [] ++ [12, 13] ∧ 13 ∉ [] ++ [12] ∧ 12 ∉ ([] : List Nat)
    ∧ TakesEntry (moving .departing [11, 12, 13] (.position 13 0 true) halted) (entry 7 (.position 13 0 true)) [] := by decide +kernel
theorem test_position :
    (vehicle (after .position (moving (.work .idle) [10, 11, 12] (.position 11 9 false) halted)) 7).map
        (fun x => (x.held, x.need)) = some ([11, 12], 4)
    ∧ (vehicle (after .position (moving .departing [11, 12, 13] (.position 13 0 true) base)) 7).map (·.held)
      = some [12, 13]
    ∧ resOf (after .position (moving .departing [11, 12, 13] (.position 13 0 true) base)) 12
      = some (.occupied 7 none) := by decide +kernel

/-- Vehicle 8 at 20 waits at 10, which vehicle 7, reporting 11, leaves. -/
def followed (m : Mode) : State :=
  let s := moving (.work .idle) [10, 11] (.position 11 0 false) (inMode m base)
  { s with
    roster := s.roster ++ [(1, { veh (.work .idle) [20] none none with id := 8 })]
    srt := tmod 20 (fun r => { r with res := .occupied 8 none })
      (tmod 10 (fun r => { r with waits := [{ who := .vehicle 8 20, enteredAt := 0 }] }) s.srt) }

theorem test_wit_ReleasedArbitrated :
    TakesEntry (followed .dispatching) (entry 7 (.position 11 0 false)) [] ∧ (followed .dispatching).mode = .dispatching
    ∧ vehicle (followed .dispatching) 7 = some (veh (.work .idle) [10, 11] none none) ∧ 11 ∈ [10, 11]
    ∧ { followed .dispatching with mc := { (followed .dispatching).mc with mode := .halted } } = followed .halted := by
  decide +kernel
theorem test_wit_rosterOk_followed : RosterOk (followed .dispatching).roster where
  sorted := by decide +kernel
  slots := by decide +kernel
  ids := by decide +kernel
  withdraws := by decide +kernel
theorem test_released_arbitrated :
    (resOf (after .position (followed .halted)) 10, resOf (after .position (followed .dispatching)) 10,
      decide (after .position (followed .dispatching) = run [.arb 10, .extend 7] (inMode .dispatching (after .position (followed .halted)))))
    = (some .free, some (.reserved 8), true) := by decide +kernel
theorem test_leaves_halted :
    (let s := after .position (followed .halted)
     (resOf (after .modeDispatching (asks (fMode 1) s)) 10, (after .modeDispatching (asks (fMode 1) s)).asu.passDue))
    = (some (.reserved 8), true) := by decide +kernel
theorem test_wit_WaitersArbitrated : TakesMode (asks (fMode 1) (followed .halted)) (fMode 1) [] 1
    ∧ (asks (fMode 1) (followed .halted)).haltLine = false := by decide +kernel

/-- Vehicle 7 LADEN at `i`, its path BUILT to the exit, reports there asking for one segment. -/
def extending (i k : Nat) (s : State) : State :=
  hears (entry 7 (.position i 1 true)) (holding [moveRec 9 .carrying (some 7) far]
    (having { veh (.work .laden) [i] (some 9) (some 77) with path := exitPath 13 i 12 k } s))
def waitsAt (i : Nat) (l : List WaitEntry) (s : State) : State := { s with srt := tmod i (fun r => { r with waits := l }) s.srt }

theorem test_wit_Extends : Extends (extending 10 2 base) (entry 7 (.position 10 1 true)) [] 10 1 11
      { veh (.work .laden) [10] (some 9) (some 77) with path := exitPath 13 10 12 2 }
    ∧ resOf (extending 10 2 base) 11 = some .free ∧ waitsOf (extending 10 2 base) 11 = []
    ∧ Admits (extending 10 2 base) 7 11 ∧ min 1 (extending 10 2 base).layout.grantWindow = 1 :=
  ⟨⟨⟨by decide +kernel, ⟨true, rfl⟩, by decide +kernel, by simp [Present, veh]⟩, by decide,
      rosterOk_having { veh (.work .laden) [10] (some 9) (some 77) with path := exitPath 13 10 12 2 } base (by decide),
      by decide, rfl, rfl, by decide, by decide, by decide +kernel, by decide⟩, by decide +kernel, by decide +kernel,
    ⟨{ veh (.work .laden) [10] (some 9) (some 77) with path := exitPath 13 10 12 2 }, 0, by decide +kernel, by decide +kernel,
      .inl ⟨10, rfl, by decide +kernel⟩⟩, by decide⟩
theorem test_wit_Extends_claim : nextPathSegment (extending 12 0 base) (exitPath 13 12 12 0) = some 13
    ∧ resOf (extending 12 0 base) 13 = some .foreign ∧ (extending 12 0 base).bxu.outClaims.length < 8
    ∧ resOf (extending 10 2 (marked 11 .blocked base)) 11 = some .blocked
    ∧ (waitsOf (extending 10 2 (marked 11 .blocked base)) 11).length < 4
    ∧ resOf (extending 12 0 (marked 13 (.claiming 7) base)) 13 = some (.claiming 7)
    ∧ waitsOf (waitsAt 11 [localEntry 7] base) 11 = [localEntry 7]
    ∧ nextPathSegment base (walkPath .destination 12 12 0) = none ∧ (walkPath .destination 12 12 0).condition = .built := by decide +kernel
theorem test_wit_RoundWaits : RoundWaits (extending 10 2 (marked 11 .blocked base)) 7 11 .blocked
    ∧ WaitsNowhere (extending 10 2 (marked 11 .blocked base)) 7 :=
  ⟨.inr (.inr ⟨by decide, by decide, by decide⟩), by unfold WaitsNowhere; decide +kernel⟩
theorem test_extension_round :
    ([extending 10 2 base, extending 12 0 base, extending 10 2 (marked 11 .blocked base),
        extending 10 2 (waitsAt 11 [localEntry 7] (marked 11 .blocked base)), extending 12 0 (marked 13 (.claiming 7) base)].map
      fun s => let t := after .position s
        ((vehicle t 7).map (·.held), t.bxu.outClaims.length, (waitsOf t 11).length, flagSet t .pathBlocked))
    = [(some [10, 11], 0, 0, false), (some [12], 1, 0, false), (some [10], 0, 1, true), (some [10], 0, 1, false),
        (some [12], 0, 0, false)] := by decide +kernel
/-- Entries of claims the engine cannot take, `n` of them. -/
def strangers (n : Nat) : List WaitEntry := List.replicate n (claimEntry8 3)
def crowded (n : Nat) (q : Res) : State := waitsAt 11 (strangers n) (marked 11 q (extending 10 2 base))

theorem test_wit_ExtensionRounds :
    (let x : Vehicle := { veh (.work .laden) [10] (some 9) (some 77) with path := exitPath 13 10 12 2 }
     Wants (crowded 1 .free) 7 11 x ∧ Wants (crowded 4 .blocked) 7 11 x ∧ x.path.condition = .built)
    ∧ resOf (crowded 4 .free) 11 = some .free ∧ (waitsOf (crowded 3 .free) 11).length < 4
    ∧ 4 ≤ (waitsOf (crowded 4 .blocked) 11).length := by decide +kernel
theorem test_wit_rounds_wait : RoundWaits (crowded 4 .blocked) 7 11 .blocked ∧ WaitsNowhere (crowded 4 .blocked) 7
    ∧ WaitsNowhere (crowded 1 .free) 7 :=
  ⟨.inr (.inr ⟨by decide, by decide, by decide⟩), by unfold WaitsNowhere; decide +kernel, by unfold WaitsNowhere; decide +kernel⟩
theorem test_rounds :
    ([crowded 0 .free, crowded 1 .free, crowded 4 .free, crowded 0 .blocked, crowded 4 .blocked].map fun s =>
      let r := taskStep (.rounds 7) s
      (r.1, (waitsOf r.2 11).length, resOf r.2 11, flagSet r.2 .pathBlocked))
    = [([.rounds 7], 0, some (.reserved 7), false), ([.arb 11], 2, some .free, false), ([.arb 11], 4, some .free, false),
        ([], 1, some .blocked, true), ([], 4, some .blocked, false)] := by decide +kernel

/-- No room for an ARRIVING record, so that the strangers are not admissible. -/
def fullRoster (s : State) : State :=
  { s with roster := s.roster ++ (List.range 63).map fun k => (k + 1, { veh .arriving [] none none with id := k + 8 }) }
def narrow (s : State) : State :=
  { s with layout := { s.layout with zones := [(0, { capacity := 1, entrySeg := 10, anchor := 12, park := [], overflow := none })] } }

theorem test_wit_inadmissible (w : WaitEntry) (h : w ∈ waitsOf (fullRoster (crowded 1 .free)) 11) :
    ¬ Admissible (fullRoster (crowded 1 .free)) 11 w := by
  rw [show waitsOf (fullRoster (crowded 1 .free)) 11 = [claimEntry8 3] by decide +kernel] at h
  rw [List.mem_singleton.1 h]
  exact fun k => absurd k.2 (by decide)
theorem test_extension_entered :
    (let t := after .position (fullRoster (crowded 1 .free))
     ((vehicle t 7).map (·.held), waitsOf t 11)) = (some [10, 11], [claimEntry8 3])
    ∧ (let t := after .position (narrow (fullRoster (extending 20 3 (waitsAt 10 (strangers 1) base))))
       (vehicle t 7).map (·.held)) = some [20, 10] := by decide +kernel
theorem test_extension_full :
    (let t := after .position (crowded 4 .blocked)
     ((vehicle t 7).map (·.held), (waitsOf t 11).length, flagSet t .pathBlocked)) = (some [10], 4, false) := by decide +kernel

theorem test_wit_Found : Found (contested 11 [localEntry 7]) 0 (FreeIn (contested 11 [localEntry 7]) 0) 11
    ∧ Found (contested 13 [localEntry 7]) 11 FreeOrForeign 13 ∧ base.mode = .dispatching := by
  refine ⟨⟨by decide, ⟨.free, [localEntry 7]⟩, by decide +kernel, by decide, rfl, by decide +kernel⟩,
    ⟨by decide, ⟨.foreign, [localEntry 7]⟩, by decide +kernel, by decide, .inr rfl⟩, rfl⟩
theorem test_scans :
    (taskStep (.scanZone 0 0) (contested 11 [localEntry 7])).1 = [.arb 11, .scanZone 0 12]
    ∧ (taskStep (.scanZone 0 12) (contested 11 [localEntry 7])).1 = []
    ∧ (taskStep (.scanZone 1 0) (contested 11 [localEntry 7])).1 = []
    ∧ (taskStep (.scanAll 0) (contested 13 [localEntry 7])).1 = [.arb 13, .scanAll 14]
    ∧ (taskStep (.scanAll 0) (inMode .halted (contested 13 [localEntry 7]))).1 = [] := by decide +kernel

theorem test_path_steps :
    ((List.range 4).map (cursorAt base (walkPath .destination 12 10 2)), (List.range 4).map (cursorAt (twoZones (some oneStep) base)
      (routePath .destination 12 10 0 1 0 1 1))) = ([some 10, some 11, some 12, none], [some 10, some 11, some 12, none]) := by decide +kernel

theorem test_wit_PositionConflictHalts :
    severityOf base .positionConflict = .halt ∧ base.asu.passRunning = false ∧ 12 ∉ [10, 11]
    ∧ vehicle (moving (.work .laden) [10, 11] (.position 12 0 false) base) 7 = some (veh (.work .laden) [10, 11] none none)
    ∧ resOf (moving (.work .laden) [10, 11] (.position 12 0 false) base) 12 = some .free := by decide +kernel
theorem test_conflict :
    (after .position (moving (.work .laden) [10, 11] (.position 12 0 false) base)).mode = .halted
    ∧ (vehicle (after .position (moving (.work .laden) [10, 11] (.position 12 0 false) base)) 7).map
        (fun x => (x.state, x.held)) = some (.faulted .laden, [12])
    ∧ resOf (after .position (moving (.work .laden) [10, 11] (.position 12 0 false)
        (marked 12 (.reserved 8) base))) 12 = some (.occupied 8 (some 7)) := by decide +kernel

/-- Vehicle 7 with its claim of 13 reports 10, a segment without a record, or 13 itself, in HALTED. -/
def strays (seg : Nat) (ph : OutPhase) : State := inMode .halted (hears (entry 7 (.position seg 0 true)) (crossing ph))

theorem test_wit_ConflictAndClaim : TakesEntry (strays 10 .granted) (entry 7 (.position 10 0 true)) []
    ∧ vehicle (strays 10 .granted) 7 = some (veh .departing [12, 13] (some 9) (some 77))
    ∧ outgoing .granted ∈ (strays 10 .granted).bxu.outClaims ∧ resOf (strays 10 .granted) 13 ≠ none ∧ 10 ∉ [12, 13]
    ∧ ownerOf (strays 10 .granted) 13 = some 6 ∧ resOf (strays 1023 .granted) 1023 = none
    ∧ (vehicle (strays 13 (.claiming 20)) 7).map (·.held) = some [12]
    ∧ (crossing .granted).mode = .dispatching ∧ (crossing .granted).asu.passRunning = false
    ∧ severityOf (crossing .granted) .positionConflict = .halt := by decide +kernel
theorem test_wit_Markable : Markable (strays 10 .granted) 10 ∧ ¬ Markable (strays 1023 .granted) 1023
    ∧ ¬ Markable (strays 13 (.claiming 20)) 13 := by
  refine ⟨⟨.free, by decide +kernel, .inl rfl⟩, fun ⟨r, h, _⟩ => ?_, fun ⟨r, h, k⟩ => ?_⟩
  · rw [show resOf (strays 1023 .granted) 1023 = none by decide +kernel] at h
    cases h
  · rw [show resOf (strays 13 (.claiming 20)) 13 = some (.claiming 7) by decide +kernel] at h
    cases h
    simp at k
theorem test_wit_foreign_claims : ∀ c ∈ (strays 12 (.claiming 20)).bxu.outClaims,
    ∃ q, resOf (strays 12 (.claiming 20)) c.segment = some q ∧ q.isForeignKind = true := by
  intro c h
  rw [List.mem_singleton.1 h]
  exact ⟨.claiming 7, by decide +kernel, rfl⟩
theorem test_conflict_and_claim :
    ([strays 10 .granted, strays 10 (.claiming 20), strays 1023 .granted, strays 13 (.claiming 20)].map fun s =>
      let t := after .position s
      (t.bxu.outClaims.length, resOf t 13, (vehicle t 7).map (·.held), (t.fli.outbound.map (·.kind)).head?))
    = [(0, some .foreign, some [10], some 0x43), (0, some .foreign, some [10], some 0x43),
        (0, some .foreign, some [12], some 0x43), (0, some .foreign, some [12], some 0x43)] := by decide +kernel

/-- LOST vehicle 7 holding 10 and 11, heard again. -/
def found (mark : Bool) (b : VehicleFrame) (s : State) : State :=
  hears (entry 7 b) (having { veh (.lost .laden mark) [10, 11] none none with
    due := { DueSet.empty with hold := some 1, stopMark := true } } s)

theorem test_wit_LostConflict : TakesEntry (found true (.status .confirm 12 0 false 0) halted)
      (entry 7 (.status .confirm 12 0 false 0)) [] ∧ 12 ∉ [10, 11]
    ∧ (vehicle (found true (.position 12 0 false) halted) 7).map (fun x => (x.state, x.held, x.nextMove))
      = some (.lost .laden true, [10, 11], none) := by decide +kernel
theorem test_lost_conflict : ([rowOf (.position 12 0 false), rowOf (.status .confirm 12 0 false 0)].zip
      [found true (.position 12 0 false) halted, found false (.status .confirm 12 0 false 0) halted]).map (fun c =>
        let t := after c.1 c.2
        ((vehicle t 7).map fun x => (x.state, x.held, x.heardBy), resOf t 12, resOf t 10))
    = [(some (.faulted .laden, [12], some 30), some (.occupied 7 none), some .free),
        (some (.faulted .laden, [12], some 30), some (.occupied 7 none), some .free)] := by decide +kernel

/-! ### STATUS -/

def saying (ev : StatusEvent) (d : Said) (ws : VState) (l : List Move) : State :=
  hears (entry 7 (.status ev d.seg d.move d.present d.carrier)) (holding l (having
    { veh ws [11] (some 9) none with due := { DueSet.empty with assign := some 0 } } base))
def d9 (present : Bool) (carrier seg : Nat) : Said := { seg := seg, move := 9, present := present, carrier := carrier }
def said (ev : StatusEvent) (c : Instr) (d : Said) (ws : VState) (st : MState) : State :=
  after c (saying ev d ws [moveRec 9 st (some 7) own2])
def shown (s : State) : List MState × Option (VState × Option Nat) :=
  (s.mq.moves.map (·.state), (vehicle s 7).map fun x => (x.state, x.carrier))

theorem test_wit_status :
    TakesEntry (saying .confirm (d9 false 0 10) (.work .toSource) [moveRec 9 .assigned (some 7) own2])
      (entry 7 (.status .confirm 10 9 false 0)) []
    ∧ findMove (saying .confirm (d9 false 0 10) (.work .toSource) [moveRec 9 .assigned (some 7) own2]) 9
      = some (moveRec 9 .assigned (some 7) own2)
    ∧ (vehicle (saying .confirm (d9 false 0 10) (.work .toSource) []) 7).map (·.move) = some (some 9) := by decide +kernel
theorem test_wit_places :
    AtSource base (d9 false 0 11) (moveRec 9 .enroute (some 7) own2) ∧
    AtDestination base (d9 false 0 12) (moveRec 9 .carrying (some 7) own2) ∧
    ¬ AtSource base (d9 false 0 12) (moveRec 9 .enroute (some 7) own2) := by
  refine ⟨⟨1, { segment := 11, kind := .load }, rfl, rfl, rfl⟩,
    ⟨5, own2, { segment := 12, kind := .buffer }, rfl, rfl, rfl, rfl, rfl⟩, ?_⟩
  rintro ⟨p, r, hp, hr, hs⟩
  cases hp; cases hr; exact absurd hs (by decide)
theorem test_confirm :
    shown (said .confirm .statusConfirm (d9 false 0 10) (.work .toSource) .assigned) = ([.enroute], some (.work .toSource, none))
    ∧ shown (said .confirm .statusConfirm (d9 false 0 10) (.work .toSource) .enroute)
      = ([.enroute], some (.work .toSource, none)) := by decide +kernel
theorem test_hoistStart :
    shown (said .hoistStart .statusHoistStart (d9 false 0 11) (.work .toSource) .enroute)
      = ([.picking], some (.work .acquiring, none))
    ∧ shown (said .hoistStart .statusHoistStart (d9 false 0 12) (.work .laden) .carrying)
      = ([.delivering], some (.work .depositing, none))
    ∧ shown (said .hoistStart .statusHoistStart (d9 false 0 12) (.work .toSource) .enroute)
      = ([.enroute], some (.work .toSource, none)) := by decide +kernel
theorem test_hoistDone_pick :
    shown (said .hoistDone .statusHoistDone (d9 true 77 11) (.work .acquiring) .picking)
      = ([.carrying], some (.work .laden, some 77))
    ∧ shown (said .hoistDone .statusHoistDone (d9 true 78 11) (.work .acquiring) .picking)
      = ([.unrouted], some (.work .laden, some 78))
    ∧ shown (said .hoistDone .statusHoistDone (d9 false 0 11) (.faulted .acquiring) .picking)
      = ([], some (.faulted .idle, none)) := by decide +kernel
theorem test_hoistDone_deposit :
    shown (said .hoistDone .statusHoistDone (d9 false 0 12) (.work .depositing) .delivering) = ([], some (.work .idle, none))
    ∧ shown (said .hoistDone .statusHoistDone (d9 true 77 12) (.work .depositing) .delivering)
      = ([.carrying], some (.work .laden, some 77))
    ∧ shown (said .hoistDone .statusHoistDone (d9 true 77 11) (.work .acquiring) .cancelling)
      = ([.carrying], some (.work .laden, some 77)) := by decide +kernel

/-- Vehicle 7 preempted from 9 for 8, and depositing 9 with 8 next. -/
def raced : State :=
  let s := hears (entry 7 (.status .hoistStart 11 9 false 0)) (holding [moveRec 9 .waiting none own2,
    { moveRec 8 .assigned (some 7) own2 with cls := 0 }] (having (veh (.work .toSource) [11] (some 8) none) base))
  { s with asu := { s.asu with preempts := [{ vehicle := 7, newMove := 8, oldMove := 9 }] } }
def chained : State :=
  hears (entry 7 (.status .hoistDone 12 9 false 0)) (holding [moveRec 9 .delivering (some 7) own2,
    moveRec 8 .assignedNext (some 7) own2]
    (having { veh (.work .depositing) [12] (some 9) (some 77) with nextMove := some 8 } base))

theorem test_wit_preemption :
    (raced.asu.preempts.find? fun q => q.vehicle == 7 && q.oldMove == 9) = some { vehicle := 7, newMove := 8, oldMove := 9 }
    ∧ findMove raced 9 = some (moveRec 9 .waiting none own2) ∧ (findMove raced 8).isSome = true
    ∧ (vehicle raced 7).map (fun x => (x.move, x.isWorking)) = some (some 8, true)
    ∧ (vehicle chained 7).map (·.nextMove) = some (some 8) ∧ (findMove chained 8).isSome = true := by decide +kernel

/-- The race of `raced` ending in a HOIST-DONE. -/
def racedDone (present : Bool) (carrier : Nat) : State := hears (entry 7 (.status .hoistDone 11 9 present carrier)) raced
def codes (s : State) : List Nat :=
  (s.fli.outbound.filter (·.kind == 0x61)).map fun f => (f.payload.getD 2 0).toNat

theorem test_wit_missed_starts : TakesEntry (racedDone true 77) (entry 7 (.status .hoistDone 11 9 true 77)) []
    ∧ findMove (racedDone true 77) 9 = some (moveRec 9 .waiting none own2)
    ∧ vehicle (racedDone true 77) 7 = some (veh (.work .toSource) [11] (some 8) none)
    ∧ occupancy (racedDone true 77) < 55
    ∧ TakesEntry (saying .hoistDone (d9 true 78 11) (.work .toSource) [moveRec 9 .assigned (some 7) own2])
      (entry 7 (.status .hoistDone 11 9 true 78)) [] := by decide +kernel
theorem test_missed_starts :
    (([(d9 true 77 11, WorkState.toSource, MState.assigned), (d9 true 78 11, .toSource, .enroute),
        (d9 false 0 11, .toSource, .enroute), (d9 true 77 12, .laden, .carrying), (d9 false 0 12, .laden, .carrying)].map
      fun c => codes (said .hoistDone .statusHoistDone c.1 (.work c.2.1) c.2.2))
      = [[4, 5], [4, 8], [4, 11], [6, 5], [6, 9]])
    ∧ shown (said .hoistDone .statusHoistDone (d9 true 78 11) (.work .acquiring) .cancelling)
      = ([.unrouted], some (.work .laden, some 78)) := by decide +kernel
theorem test_preempted_done :
    shown (after .statusHoistDone (racedDone true 77)) = ([.carrying, .waiting], some (.work .laden, some 77))
    ∧ shown (after .statusHoistDone (racedDone true 78)) = ([.unrouted, .waiting], some (.work .laden, some 78))
    ∧ shown (after .statusHoistDone (racedDone false 0)) = ([.waiting], some (.work .idle, none))
    ∧ (vehicle (after .statusHoistDone (racedDone true 77)) 7).map (fun x => (x.move, x.due.withdraw)) = some (some 9, [8])
    ∧ flagSet (after .statusHoistDone (racedDone true 77)) .preemptLost = true := by decide +kernel
theorem test_preempt_undone :
    (after .statusHoistStart raced).mq.moves.map (fun x => (x.id, x.state)) = [(9, .picking), (8, .waiting)]
    ∧ (after .statusHoistDone chained).mq.moves.map (fun x => (x.id, x.state)) = [(8, .assigned)] := by decide +kernel
/-- The race of `raced` with move 9 in state `st` on vehicle 8 in state `ws`; the hoist starts at `i`. -/
def racedFor (i : Nat) (st : MState) (ws : WorkState) : State :=
  let s := hears (entry 7 (.status .hoistStart i 9 false 0)) (holding [{ moveRec 9 st (some 8) own2 with confirm := .absent },
    { moveRec 8 .assigned (some 7) own2 with cls := 0 }] raced)
  let y : Vehicle := { veh (.work ws) [10] (if st = .assignedNext then some 6 else some 9) none with id := 8 }
  { s with
    asu := { s.asu with preempts := [{ vehicle := 7, newMove := 8, oldMove := 9 }] }
    roster := s.roster ++ [(1, { y with nextMove := if st = .assignedNext then some 9 else none })]
    srt := tmod 10 (fun r => { r with res := .occupied 8 none }) s.srt }

theorem test_wit_StartsOldHoist : StartsOldHoist (racedFor 11 .enroute .toSource) (entry 7 (.status .hoistStart 11 9 false 0)) []
      (d9 false 0 11) (veh (.work .toSource) [11] (some 8) none) 8
    ∧ (findMove (racedFor 11 .enroute .toSource) 9).map (fun y => (y.state, y.vehicle)) = some (.enroute, some 8)
    ∧ (vehicle (racedFor 11 .assignedNext .depositing) 8).map (·.nextMove) = some (some 9)
    ∧ findMove (holding [] (racedFor 11 .enroute .toSource)) 9 = none :=
  ⟨⟨⟨by decide +kernel, rfl, by decide +kernel, by simp [Present, veh]⟩, rfl, by decide, by decide +kernel⟩, by decide +kernel,
    by decide +kernel, by decide +kernel⟩
def takenBack : List State :=
  [(MState.assignedNext, WorkState.depositing), (.assigned, .toSource), (.enroute, .toSource)].map fun c =>
    after .statusHoistStart (racedFor 11 c.1 c.2)

theorem test_taken_back :
    (takenBack.map fun t => (vehicle t 7).map fun x => (x.state, x.move, x.due.withdraw))
      = List.replicate 3 (some (.work .acquiring, some 9, [8]))
    ∧ (takenBack.map fun t => (vehicle t 8).map fun x => (x.state, x.move, x.nextMove))
      = [some (.work .depositing, some 6, none), some (.work .idle, none, none), some (.work .idle, none, none)] := by
  decide +kernel
theorem test_taken_back_moves :
    (takenBack.map fun t => (t.mq.moves.map fun x => (x.state, x.vehicle), codes t, t.asu.preempts.length))
    = List.replicate 3 ([(.picking, some 7), (.waiting, none)], [0, 4], 0) := by decide +kernel
theorem test_preemption_kept :
    ([racedFor 11 .picking .acquiring, racedFor 11 .carrying .laden, racedFor 12 .enroute .toSource,
        holding [{ moveRec 8 .assigned (some 7) own2 with cls := 0 }] (racedFor 11 .enroute .toSource)].map fun s =>
      let t := after .statusHoistStart s
      (decide (t.mq = s.mq), (vehicle t 7).map fun x => (x.state, x.due.withdraw), t.asu.preempts.length))
    = [(true, some (.work .toSource, [9]), 0), (true, some (.work .toSource, [9]), 0), (true, some (.work .toSource, [9]), 1),
        (true, some (.work .toSource, [9]), 0)] := by decide +kernel
/-- What takes the new move of a preemption out of ASSIGNED: CONFIRM, HOIST-START at its source, CANCEL, the confirm
deadline, FORGET. -/
theorem test_preemption_ends :
    ([(Instr.statusConfirm, hears (entry 7 (.status .confirm 11 8 false 0)) raced),
        (.statusHoistStart, hears (entry 7 (.status .hoistStart 11 8 false 0)) raced),
        (.cancel, asks (ask 0x21 (bytes2 8)) raced), (.confirmDeadline 8, raced), (.forget, asks fForget raced),
        (.statusConfirm, hears (entry 7 (.status .confirm 11 9 false 0)) raced)].map fun c =>
      (after c.1 c.2).asu.preempts.length) = [0, 0, 0, 0, 0, 1] := by decide +kernel

theorem test_stray_pick :
    shown (after .statusHoistDone (hears (entry 7 (.status .hoistDone 11 9 true 5)) (having (veh (.work .idle) [11] none none) base)))
      = ([.unrouted], some (.work .laden, some 5)) := by decide +kernel
/-- Vehicle 7 with its claim of 13 says it has stopped. -/
def fails (ev : StatusEvent) : State := hears (entry 7 (.status ev 12 9 true 77)) (crossing (.claiming 20))
theorem test_wit_LeavesService :
    TakesEntry (fails .fault) (entry 7 (.status .fault 12 9 true 77)) []
    ∧ TakesEntry (fails .hoistFault) (entry 7 (.status .hoistFault 12 9 true 77)) []
    ∧ (vehicle (fails .fault) 7).map (·.state) = some (.work .laden) ∧ outgoing (.claiming 20) ∈ (fails .fault).bxu.outClaims
    ∧ (∀ c ∈ (fails .fault).bxu.outClaims, c.vehicle = 7 ∨ c.tag = 3 → c = outgoing (.claiming 20))
    ∧ ownerOf (fails .fault) 13 = some 6 ∧ occupancy (fails .fault) < 64 ∧ Unarbitrated (fails .fault)
    ∧ ((vehicle (crossing (.claiming 20)) 7).bind (·.heardBy)).isSome = true := by decide +kernel
theorem test_leaves_service :
    ([(Instr.statusFault, fails .fault), (.statusHoistFault, fails .hoistFault),
        (.lastHeardDeadline 7, waitsAt 11 [localEntry 7] (inMode .halted (crossing (.claiming 20))))].map fun c =>
      let t := after c.1 c.2
      (t.bxu.outClaims.length, resOf t 13, waitsOf t 11, (t.fli.outbound.filter fun f => f.kind == 0x43).map (·.payload)))
    = List.replicate 3 (0, some .foreign, [], [peerBytes 3 13 7]) := by decide +kernel
theorem test_faults :
    shown (said .fault .statusFault (d9 false 0 11) (.work .toSource) .enroute) = ([.enroute], some (.faulted .toSource, none))
    ∧ shown (said .hoistFault .statusHoistFault (d9 false 0 11) (.work .acquiring) .picking)
      = ([], some (.faulted .idle, none)) := by decide +kernel
theorem test_cleared :
    shown (said .cleared .statusCleared (d9 false 0 11) (.faulted .toSource) .enroute)
      = ([.enroute], some (.work .toSource, none))
    ∧ shown (after .statusCleared (hears (entry 7 (.status .cleared 11 0 true 5))
        (having (veh (.faulted .idle) [11] none none) base))) = ([.unrouted], some (.work .laden, some 5)) := by decide +kernel
theorem test_wit_LostRestored : TakesEntry (found true (.status .cleared 11 0 false 0) base)
      (entry 7 (.status .cleared 11 0 false 0)) [] ∧ 11 ∈ [10, 11]
    ∧ TakesEntry (found false (.position 10 2 false) base) (entry 7 (.position 10 2 false)) []
    ∧ RosterOk (found false (.position 10 2 false) base).roster
    ∧ RosterOk (saying .cleared (d9 false 0 11) (.faulted .toSource) []).roster :=
  ⟨by decide +kernel, by decide, by decide +kernel, rosterOk_having
    { veh (.lost .laden false) [10, 11] none none with due := { DueSet.empty with hold := some 1, stopMark := true } } base
    (by decide), rosterOk_having
    { veh (.faulted .toSource) [11] (some 9) none with due := { DueSet.empty with assign := some 0 } } base (by decide)⟩
theorem test_lost_restored :
    ([(Instr.position, found false (.position 10 2 false) base), (.position, found true (.position 10 2 false) base),
        (.statusCleared, found true (.status .cleared 11 0 false 0) base)].map fun c =>
      (vehicle (after c.1 c.2) 7).map fun x => (x.state, x.due.hold, x.due.stopMark, x.heardBy))
    = [some (.work .laden, none, false, some 30), some (.faulted .laden, some 1, true, some 30),
        some (.work .laden, none, false, some 30)] := by decide +kernel
/-- Vehicle 7 FAULTED at `i` in resume state `w`, need 2, says it is cleared. -/
def clearedAt (i : Nat) (w : WorkState) (l : List Move) (s : State) : State :=
  hears (entry 7 (.status .cleared i 0 false 0)) (holding l (having (veh (.faulted w) [i] (l.head?.map (·.id)) none) s))
def toOwn : List Move := [moveRec 9 .carrying (some 7) own2]
def toFar : List Move := [moveRec 9 .carrying (some 7) far]

theorem test_wit_ExtendedAtReturn : TakesStatus (clearedAt 10 .laden toFar base) (entry 7 (.status .cleared 10 0 false 0)) []
      .cleared { seg := 10, move := 0, present := false, carrier := 0 } (veh (.faulted .laden) [10] (some 9) none)
    ∧ RosterOk (clearedAt 10 .laden toFar base).roster :=
  ⟨⟨by decide +kernel, rfl, by decide +kernel, by simp [Present, veh]⟩,
    rosterOk_having (veh (.faulted .laden) [10] (some 9) none) base (by decide)⟩
theorem test_extended_at_return :
    ([clearedAt 10 .laden toFar base, clearedAt 11 .laden toFar base, clearedAt 10 .laden toFar (marked 12 .blocked base),
        clearedAt 10 .laden toFar (waitsAt 11 (strangers 1) base), clearedAt 10 .laden toFar halted].map fun s =>
      let t := after .statusCleared s
      ((vehicle t 7).map (·.held), t.bxu.outClaims.length, (waitsOf t 12).length, (waitsOf t 11).length))
    = [(some [10, 11, 12], 0, 0, 0), (some [11, 12], 0, 0, 0), (some [10, 11], 0, 0, 0), (some [10], 0, 0, 1),
        (some [10], 0, 0, 0)] := by decide +kernel

/-- Two zones, the park places of zone 0 in its overflow zone. -/
def overflowing : State :=
  let s := twoZones (some oneStep) base
  { s with layout := { s.layout with zones :=
      [(0, { capacity := 4, entrySeg := 10, anchor := 10, park := [], overflow := some 1 }),
        (1, { capacity := 4, entrySeg := 11, anchor := 12, park := [11, 12], overflow := none })] } }
def returned (s : State) : Option (Nat × Option Nat × Path) :=
  (vehicle (after .statusCleared (inMode .halted s)) 7).map fun y => (y.held.length, y.parkMark, y.path)

theorem test_return_paths :
    [returned (clearedAt 11 .idle [] base), returned (clearedAt 20 .idle [] base), returned (clearedAt 12 .idle [] base),
      returned (clearedAt 10 .idle [] (marked 11 .blocked overflowing)),
      returned (clearedAt 20 .idle [] (marked 11 .blocked (marked 10 .blocked base))),
      returned (clearedAt 10 .toSource [moveRec 9 .enroute (some 7) own2] base),
      returned (clearedAt 10 .acquiring [moveRec 9 .picking (some 7) own2] (twoZones (some oneStep) base)),
      returned (clearedAt 10 .toSource [] base), returned (clearedAt 10 .laden [moveRec 9 .unrouted (some 7) own2] base),
      returned (clearedAt 10 .depositing toOwn base), returned (clearedAt 10 .laden toFar base)]
    = [some (1, some 11, walkPath .park 11 11 0), some (1, some 10, walkPath .park 10 20 1),
        some (1, some 10, { begunPath .park 10 12 10 none none with condition := .broken .walkForeign }),
        some (1, some 12, routePath .park 12 10 0 1 0 1 1), some (1, none, standingPath 20),
        some (1, none, walkPath .source 11 10 1), some (1, none, routePath .source 11 10 0 1 0 1 0),
        some (1, none, standingPath 10), some (1, none, standingPath 10), some (1, none, walkPath .destination 12 10 2),
        some (1, none, exitPath 13 10 12 2)] := by decide +kernel
theorem test_wit_ParksAt :
    (∃ za, zoneRec base 0 = some za ∧ ParksAt (clearedAt 11 .idle [] halted) 7 11 0 za 11
      ∧ ParksAt (clearedAt 20 .idle [] halted) 7 20 0 za 10)
    ∧ ∃ za, zoneRec overflowing 0 = some za ∧ ParksAt (clearedAt 10 .idle [] overflowing) 7 10 0 za 11
      ∧ OwnPortAt base own2 12 := by
  refine ⟨⟨_, rfl, .inl ⟨⟨by decide, ?_⟩, rfl⟩, .inr ⟨fun h => absurd h.1 (by decide), .inl ⟨[], [11], rfl, ⟨by decide +kernel, ?_⟩, ?_⟩⟩⟩,
    _, rfl, .inr ⟨fun h => absurd h.1 (by decide), .inr ⟨fun j h => absurd h List.not_mem_nil, [11, 12],
      ⟨1, _, rfl, by decide +kernel, rfl, rfl⟩, [], [12], rfl, ⟨by decide +kernel, ?_⟩, ?_⟩⟩, ⟨5, _, rfl, rfl, rfl, rfl⟩⟩
  · rintro ⟨q, hq, h, -⟩; rw [List.mem_singleton.1 hq] at h; exact h rfl
  · rintro ⟨q, hq, h, -⟩; rw [List.mem_singleton.1 hq] at h; exact h rfl
  · exact fun j h => absurd h List.not_mem_nil
  · rintro ⟨q, hq, h, -⟩; rw [List.mem_singleton.1 hq] at h; exact h rfl
  · exact fun j h => absurd h List.not_mem_nil

/-- Vehicle 7 IDLE and STANDING at 20, its park choice made again. -/
def stands (s : State) : State := having { veh (.work .idle) [20] none none with path := standingPath 20 } s
theorem test_wit_ParksNowhere : ∃ za, zoneRec base 0 = some za
    ∧ ParksNowhere (stands (marked 11 .blocked (marked 10 .blocked base))) 7 20 0 za
    ∧ (vehicle (stands base) 7).map (·.path.condition) = some .standing := by
  refine ⟨_, rfl, ⟨fun h => absurd h.1 (by decide), fun j hj h => ?_, fun l ⟨o, zo, h, _⟩ => by cases h⟩, by decide⟩
  revert hj h
  rintro hj ⟨h, -⟩
  rcases List.mem_cons.1 hj with rfl | hj
  · exact absurd h (by decide +kernel)
  · rw [List.mem_singleton.1 hj] at h; exact absurd h (by decide +kernel)
theorem test_park_chosen_again :
    (taskStep (.extend 7) (stands base)).1 = [.rounds 7]
    ∧ (vehicle (taskStep (.extend 7) (stands base)).2 7).map (fun y => (y.parkMark, y.path))
      = some (some 10, walkPath .park 10 20 1)
    ∧ (taskStep (.extend 7) (stands (marked 11 .blocked (marked 10 .blocked base)))).1 = [] := by decide +kernel

/-! ### Frames of the engine -/

def due (d : DueSet) (x : Vehicle) : Vehicle := { x with due := d }
def line (f : Tli → Tli) (s : State) : State := { s with tli := f s.tli }

/-- Vehicle 7 ASSIGNED to move 9 with one item due. -/
def sending (d : DueSet) : State :=
  holding [moveRec 9 .assigned (some 7) own2] (having (due d (veh (.work .toSource) [10, 11] (some 9) none)) base)
def dGrant : DueSet := { DueSet.empty with grant := some 0 }
def dAssign : DueSet := { DueSet.empty with assign := some 0 }
def dWithdraw : DueSet := { DueSet.empty with withdraw := [8, 9], assign := some 0 }
def dHold : DueSet := { DueSet.empty with hold := some 3 }
def sentKind (c : Instr) (s : State) : Option (Nat × List Byte) := (after c s).tli.line.map fun g => (g.kind, g.payload)

theorem test_wit_SendsThePick :
    (sending dGrant).running = true ∧ (sending dGrant).tli.line = none ∧ pick (sending dGrant) = some (.grant 7)
    ∧ (compose (sending dGrant) (.grant 7)).isSome = true ∧ pick base = none
    ∧ pick (holding [] (sending dAssign)) = some (.assign 7)
    ∧ compose (holding [] (sending dAssign)) (.assign 7) = none := by decide +kernel
theorem test_sends_vehicle :
    sentKind .sendGrant (sending dGrant) = some (0x11, [7, 0, 10, 1, 20, 11])
    ∧ sentKind .sendAssign (sending dAssign) = some (0x12, [7, 0, 9, 0, 0, 0, 77, 1, 0, 11, 0])
    ∧ sentKind .sendWithdraw (sending dWithdraw) = some (0x13, [7, 2, 0, 8, 0, 9])
    ∧ sentKind .sendHold (sending dHold) = some (0x14, [7]) ∧ sentKind .sendGrant (sending dHold) = none := by decide +kernel
theorem test_sends_all :
    sentKind .sendAllHold (line (fun l => { l with allHold := some 0 }) base) = some (0x15, [255])
    ∧ sentKind .sendResume (line (fun l => { l with resume := some 0 }) base) = some (0x16, [255])
    ∧ sentKind .sendRollcall (line (fun l => { l with rollcall := some 0 }) base) = some (0x10, [255, 5])
    ∧ sentKind .sendHold (line (fun l => { l with strayHolds := [(3, 0)] }) base) = some (0x14, [3]) := by decide +kernel

theorem test_wit_rosterOk : RosterOk (sending dWithdraw).roster :=
  rosterOk_having (due dWithdraw (veh (.work .toSource) [10, 11] (some 9) none)) base (by decide)
theorem test_wit_NextServed : NextServed (sending dHold) (fun d => d.hold.isSome) 7 := by
  refine ⟨0, due dHold (veh (.work .toSource) [10, 11] (some 9) none), .head _, rfl, rfl, fun q hq _ => ?_⟩
  rw [List.mem_singleton.mp hq]
theorem test_wit_NoneServed : NoneServed (sending dGrant) (fun d => d.hold.isSome) ∧ (sending dGrant).tli.pointer ≤ 63 :=
  ⟨by simp [NoneServed, sending, having, holding, due, dGrant, DueSet.empty], by decide⟩

theorem test_wit_FrameContents :
    vehicle (sending dGrant) 7 = some (due dGrant (veh (.work .toSource) [10, 11] (some 9) none))
    ∧ findMove (sending dAssign) 9 = some (moveRec 9 .assigned (some 7) own2)
    ∧ portRec (sending dAssign) 1 = some { segment := 11, kind := .load } ∧ base.mc.identity.cell = some 5
    ∧ segment (sending dGrant) 11 = some (plainSeg 12) ∧ capOf (sending dGrant) 0 = 7 := by decide +kernel
theorem test_wit_stopped : Stopped (veh (.faulted .laden) [10] none none) ∧ Stopped (veh (.lost .laden true) [10] none none)
    ∧ Stopped (due { dGrant with stopMark := true } (veh (.work .idle) [10] none none))
    ∧ ¬ Stopped (veh (.work .idle) [10] none none) := by simp [Stopped, veh, due, dGrant, DueSet.empty]
theorem test_stopped_grant :
    (compose (having (due { dGrant with stopMark := true } (veh (.work .idle) [10, 11] none none)) base) (.grant 7)).map
      (·.payload) = some [7, 0, 10, 0] := by decide +kernel

/-- The frame that a row has just begun. -/
def begun (c : Instr) (s : State) : State := after c s
def outcome (o : FrameOutcome) (s : State) : State := after (.engineFrameOutcome o) s

theorem test_wit_FrameOutcome :
    ((begun .sendHold (sending dHold)).tli.line.map fun g => (g.item, g.link)) = some (.hold 7, .live)
    ∧ (findVehicle (sending dHold) 7).map (·.1) = some 0
    ∧ TableWf (line (fun l => { l with strayHolds := [(3, 0)] }) base).tli.strayHolds
    ∧ afterAnswer 6 none = some 7 ∧ afterAnswer 7 none = none := by decide +kernel
theorem test_outcomes :
    (let s := begun .sendHold (sending dHold)
     ((vehicle (outcome (.slot [.accept]) s) 7).map (·.due.hold), (vehicle (outcome (.slot []) s) 7).map (·.due.hold),
      (vehicle (outcome (.slot [.accept, .refuseBusy]) s) 7).map (·.due.hold), (outcome (.slot []) s).tli.pointer,
      (outcome .arbitrationLost s).tli.pointer))
    = (some none, some (some 4), some (some 0), 0, 63) := by decide +kernel
theorem test_withdraw_outcome :
    (let s := begun .sendWithdraw (sending dWithdraw)
     ((vehicle (outcome (.slot [.accept]) s) 7).map (·.due.withdraw),
      (vehicle (outcome (.slot [.refuseBusy]) s) 7).map (·.due.withdraw),
      sentKind .sendAssign (outcome (.slot [.accept]) s)))
    = (some [], some [8, 9], some (0x12, [7, 0, 9, 0, 0, 0, 77, 1, 0, 11, 0])) := by decide +kernel

/-- The frame on the line, its item made due again. -/
def again (s : State) : State :=
  { s with tli := { s.tli with line := s.tli.line.map fun g => { g with link := .renewed, carried := g.carried.drop 1 } } }

theorem test_wit_Renewed : ((again (begun .sendWithdraw (sending dWithdraw))).tli.line.map fun g => (g.item, g.link))
      = some (.withdraw 7, .renewed) ∧ keptCount 6 none = 7 ∧ keptCount 7 none = 0 ∧ keptCount 3 (some .accept) = 0
    ∧ findVehicle (sending dWithdraw) 7 = some (0, due dWithdraw (veh (.work .toSource) [10, 11] (some 9) none)) := by
  decide +kernel
theorem test_renewed :
    (let s := again (begun .sendHold (sending dHold))
     let r := again (begun .sendResume (line (fun l => { l with resume := some 2 }) base))
     ((vehicle (outcome (.slot [.accept]) s) 7).map (·.due.hold), (vehicle (outcome (.slot []) s) 7).map (·.due.hold),
      (outcome (.slot [.refuseBusy]) r).tli.resume, (outcome (.slot []) r).tli.resume,
      (vehicle (outcome (.slot [.accept]) (again (begun .sendWithdraw (sending dWithdraw)))) 7).map (·.due.withdraw)))
    = (some (some 0), some (some 4), some 0, some 3, some [8]) := by decide +kernel

/-! ### Deadlines, timers and the pass -/

theorem test_wit_DeadlinesFall : base.running = true
    ∧ vehicle (sending dGrant) 7 = some (due dGrant (veh (.work .toSource) [10, 11] (some 9) none))
    ∧ (findMove (sending dGrant) 9).map (fun y => (y.confirm, y.vehicle)) = some (.at 20, some 7)
    ∧ (findMove (holding [moveRec 9 .enroute (some 7) own2] base) 9).map (·.confirm) = some .absent
    ∧ vehicle base 7 = none := by decide +kernel
theorem test_silence :
    (let t := after (.lastHeardDeadline 7) (sending dGrant)
     (t.board.now, (vehicle t 7).map fun x => (x.state, x.heardBy, x.move), flagSet t .vehicleLost))
    = (30, some (.lost .toSource false, none, some 9), true) := by decide +kernel
theorem test_no_deadline : after (.lastHeardDeadline 8) (sending dGrant) = sending dGrant
    ∧ after (.confirmDeadline 8) (sending dGrant) = sending dGrant := by decide +kernel
theorem test_confirm_timeout :
    (let t := after (.confirmDeadline 9) (sending dAssign)
     (t.board.now, t.mq.moves.map fun y => (y.state, y.age), (vehicle t 7).map fun x => (x.state, x.due.withdraw)))
    = (20, [(.waiting, 4)], some (.work .idle, [9])) := by decide +kernel
theorem test_timers :
    (after .ageTimer (sending dAssign)).mq.moves.map (·.age) = [5] ∧ (after .ageTimer (sending dAssign)).board.now = 10
    ∧ (after .dispatchTimer base).asu.passDue = true ∧ (after .dispatchTimer halted).asu.passDue = false := by decide +kernel

/-- A pass is due for one WAITING move of class `k`; vehicle 7 at 20, vehicle 8 at 10. -/
def passing (k : Nat) (x y : Vehicle) (l : List Move) : State :=
  { base with
    roster := [(0, { x with id := 7 }), (1, { y with id := 8 })]
    srt := tmod 10 (fun r => { r with res := .occupied 7 none })
      (tmod 11 (fun r => { r with res := .occupied 8 none }) base.srt)
    mq := { base.mq with moves := { moveRec 9 .waiting none own2 with cls := k } :: l }
    asu := { base.asu with passDue := true } }
def idle7 : State := passing 2 (veh (.work .idle) [10] none none) (veh (.faulted .idle) [11] none none) []
def depositing7 : State :=
  passing 2 (veh (.work .depositing) [10] (some 6) (some 5)) (veh (.faulted .idle) [11] none none)
    [moveRec 6 .delivering (some 7) own2]
def urgent7 : State :=
  passing 0 (veh (.work .toSource) [10] (some 6) none) (veh (.faulted .idle) [11] none none)
    [{ moveRec 6 .enroute (some 7) own2 with cls := 1 }]
def nobody7 : State := passing 2 (veh (.faulted .idle) [10] none none) (veh (.faulted .idle) [11] none none) []

theorem test_wit_DispatchPass :
    PassBegins idle7 ∧ OneWaiting idle7 (moveRec 9 .waiting none own2) ∧ idle7.asu.haltDeferred = false
    ∧ choose idle7 [] (moveRec 9 .waiting none own2) = .plain (veh (.work .idle) [10] none none)
    ∧ OneWaiting depositing7 (moveRec 9 .waiting none own2)
    ∧ choose depositing7 [] (moveRec 9 .waiting none own2) = .plain (veh (.work .depositing) [10] (some 6) (some 5)) := by
  decide +kernel
theorem test_wit_DispatchPass_others :
    OneWaiting urgent7 { moveRec 9 .waiting none own2 with cls := 0 }
    ∧ choose urgent7 [] { moveRec 9 .waiting none own2 with cls := 0 } = .preempt (veh (.work .toSource) [10] (some 6) none)
    ∧ OneWaiting nobody7 (moveRec 9 .waiting none own2) ∧ choose nobody7 [] (moveRec 9 .waiting none own2) = .none
    ∧ PassBegins { base with asu := { base.asu with passDue := true } } := by decide +kernel
theorem test_wit_ChoiceByClass : SourceIn idle7 (moveRec 9 .waiting none own2) 0 ∧ RosterOk idle7.roster := by
  refine ⟨⟨1, _, _, by rfl, by rfl, by rfl, by rfl⟩, ?_, ?_, ?_, ?_⟩ <;> decide +kernel
theorem test_wit_candidates : IsPlain (veh (.work .idle) [10] none none) ∧ IsPlain (veh (.work .depositing) [10] none none)
    ∧ IsPreemptible urgent7 (veh (.work .toSource) [10] (some 6) none) :=
  ⟨.inl rfl, .inr ⟨rfl, rfl⟩, rfl, 6, _, rfl, rfl, by decide, .inr rfl⟩
theorem test_pass :
    ((after .dispatchPass idle7).mq.moves.map fun y => (y.state, y.vehicle, y.urgency)) = [(.assigned, some 7, 6004)]
    ∧ (after .dispatchPass depositing7).mq.moves.map (·.state) = [.assignedNext, .delivering]
    ∧ (after .dispatchPass urgent7).mq.moves.map (·.state) = [.assigned, .waiting]
    ∧ (after .dispatchPass nobody7).mq.moves.map (·.urgency) = [6004] := by decide +kernel

/-- Two WAITING moves, the second more urgent, and two IDLE vehicles at 10 and 11; then one vehicle only. -/
def twoMoves (y : VState) : State :=
  passing 2 (veh (.work .idle) [10] none none) (veh y [11] none none) [{ moveRec 6 .waiting none own2 with cls := 1 }]

theorem test_wit_PassTakesInOrder : PassBegins (twoMoves (.work .idle)) ∧ ((twoMoves (.work .idle)).mq.moves.map (·.id)).Nodup
    ∧ (choicesOf (twoMoves (.work .idle)) (passOrder (twoMoves (.work .idle))) []).map (fun c => (c.1.id, chosenBy c.2))
      = [(6, [7]), (9, [8])]
    ∧ (choicesOf (twoMoves (.faulted .idle)) (passOrder (twoMoves (.faulted .idle))) []).map (fun c => (c.1.id, chosenBy c.2))
      = [(6, [7]), (9, [])]
    ∧ (choicesOf urgent7 (passOrder urgent7) []).map (fun c => (c.1.id, chosenBy c.2)) = [(9, [7])] := by decide +kernel
theorem test_wit_rosterOk_twoMoves : RosterOk (twoMoves (.work .idle)).roster where
  sorted := by decide +kernel
  slots := by decide +kernel
  ids := by decide +kernel
  withdraws := by decide +kernel
theorem test_pass_in_order :
    ([twoMoves (.work .idle), twoMoves (.faulted .idle)].map fun s =>
      let t := after .dispatchPass s
      (t.mq.moves.map fun x => (x.id, x.state, x.vehicle), (t.fli.outbound.filter (·.kind == 0x61)).map (·.payload.take 4)))
    = [([(9, .assigned, some 8), (6, .assigned, some 7)], [[0, 6, 2, 7], [0, 9, 2, 8]]),
        ([(9, .waiting, none), (6, .assigned, some 7)], [[0, 6, 2, 7]])] := by decide +kernel

/-- The examples of R114. -/
theorem test_urgency_examples :
    urgencyOf Tuning.defaults { moveRec 9 .waiting none own2 with age := 300 } = 6300
    ∧ urgencyOf { Tuning.defaults with kage := 255 } { moveRec 9 .waiting none own2 with cls := 3, age := 4112 } = 65535
    ∧ urgencyOf { Tuning.defaults with kage := 0 } { moveRec 9 .waiting none own2 with cls := 1, age := 9 } = 12000 := by decide
theorem test_cost : costOf idle7 (veh (.work .idle) [10] none none) 0 = some (10 + 1 * 40)
    ∧ vehicleZone idle7 (veh (.work .idle) [10] none none) = some 0
    ∧ costOf depositing7 (veh (.work .depositing) [10] none none) 3 = none := by decide +kernel

/-! ### Routes, pins, occurrences -/

def descB : Descriptor := { first := 41, runLen := 3, runs := 2, legs := 2, runStep := 16, legStep := -20 }

theorem test_wit_Route : 1 ≤ descB.runLen ∧ 1 ≤ descB.runs ∧ 1 ≤ descB.legs ∧ InRange descB
    ∧ descB.step 1 1 2 = none ∧ (descB.step 0 1 2).map (·.1) = some (-20) := by decide +kernel
theorem test_route_sequence :
    descB.sequence = [41, 42, 43, 59, 60, 61, 41, 42, 43, 59, 60, 61] := by decide +kernel

theorem test_wit_HaltInput : base.running = true ∧ base.mc.haltInput = false ∧ base.mc.identity.haltEnable = true
    ∧ base.mode = .dispatching ∧ halted.mc.haltInput = false ∧ parked.mode = .parked := by decide
theorem test_halt_input :
    (after .haltInputAsserted base).mode = .halted ∧ flagSet (after .haltInputAsserted base) .haltLine = true
    ∧ (after .haltInputAsserted parked).mode = .parked ∧ (after .haltInputReleased base).mc.haltInput = false := by decide +kernel

def writing : State := after .identify (asks (fIdentify idA) parked)

theorem test_wit_ResetAndPower : writing.running = true ∧ writing.mc.write.isSome = true ∧ base.mc.write = none
    ∧ (after .resetPinAsserted base).running = false ∧ (after .lossOfPower base).board.power = false
    ∧ (after .resetPinAsserted base).board.power = true ∧ (after .resetPinAsserted base).board.resetPin = true := by decide +kernel
theorem test_reset_pin :
    (after .resetPinReleased (after .resetPinAsserted base)).mode = .parked
    ∧ after .ageTimer (after .resetPinAsserted base) = after .resetPinAsserted base
    ∧ (after .powerOn (after .lossOfPower (after .nonvolatileWriteComplete writing))).mc.identity.cell = some 63 := by decide +kernel

theorem test_wit_Occurrences : base.asu.passRunning = false ∧ flagSet base .pathFault = false
    ∧ severityOf base .pathFault ≠ .halt ∧ severityOf base .positionConflict = .halt
    ∧ severityOf base .pathFault ≠ .log ∧ occupancy base < 56
    ∧ flagSet (flagged .pathFault base) .pathFault = true := by decide +kernel
theorem test_flag_first_occurrence :
    raise .pathFault noDetail (raise .pathFault noDetail base) = raise .pathFault noDetail base
    ∧ (raise .positionConflict noDetail base).mode = .halted := by decide +kernel
theorem test_wit_HandlingFrame : exec .dispatchPass idle7 = .next (after .dispatchPass idle7) := rfl
theorem test_wit_StepKeepsInv : step State.reset = .next (stepped State.reset) := rfl

end Sys2Proof.Tests
end

/-! PROOFS. The segment sequence of a route descriptor (R8) and the steps of the route counters along it (R54). -/

namespace Sys2Proof.Machine

/-! ### Lists of blocks of one length -/

theorem length_flatMap_range {α : Type} {f : Nat → List α} {b : Nat} (hf : ∀ i, (f i).length = b) (n : Nat) :
    ((List.range n).flatMap f).length = n * b := by
  simp [List.length_flatMap, hf]

theorem getElem?_flatMap_range {α : Type} {f : Nat → List α} {b : Nat} (hf : ∀ i, (f i).length = b) {n i j : Nat}
    (hi : i < n) (hj : j < b) : ((List.range n).flatMap f)[i * b + j]? = (f i)[j]? := by
  induction n with
  | zero => omega
  | succ n ih =>
    have hlen := length_flatMap_range hf n
    rw [List.range_succ, List.flatMap_append, List.flatMap_singleton]
    obtain hlt | rfl : i < n ∨ i = n := by omega
    · have hin : i * b + j < n * b := calc
        i * b + j < (i + 1) * b := by rw [Nat.succ_mul]; omega
        _ ≤ n * b := Nat.mul_le_mul_right b hlt
      rw [List.getElem?_append_left (hlen ▸ hin), ih hlt]
    · rw [List.getElem?_append_right (by omega), hlen, Nat.add_sub_cancel_left]

namespace Descriptor

/-! ### Runs, legs and the sequence (R8) -/

/-- The segments of run `m` of leg `h`. -/
def runSegments (d : Descriptor) (h m : Nat) : List Int :=
  (List.range d.runLen).map (d.segmentAt h m)

/-- The segments of leg `h`, run after run. -/
def legSegments (d : Descriptor) (h : Nat) : List Int :=
  (List.range d.runs).flatMap (d.runSegments h)

theorem sequence_eq_legSegments (d : Descriptor) : d.sequence = (List.range d.legs).flatMap d.legSegments := rfl

@[simp] theorem length_runSegments (d : Descriptor) (h m : Nat) : (d.runSegments h m).length = d.runLen := by
  simp [runSegments]

@[simp] theorem length_legSegments (d : Descriptor) (h : Nat) : (d.legSegments h).length = d.runs * d.runLen :=
  length_flatMap_range (length_runSegments d h) d.runs

theorem length_sequence (d : Descriptor) : d.sequence.length = d.runLen * d.runs * d.legs := by
  rw [sequence_eq_legSegments, length_flatMap_range (length_legSegments d)]
  ring

/-- A place within the run, a run within the leg and a leg together count one segment of the sequence. -/
theorem sequence_getElem? (d : Descriptor) {h m r : Nat} (hh : h < d.legs) (hm : m < d.runs) (hr : r < d.runLen) :
    d.sequence[(h * d.runs + m) * d.runLen + r]? = some (d.segmentAt h m r) := by
  have hplace : m * d.runLen + r < d.runs * d.runLen := calc
    m * d.runLen + r < (m + 1) * d.runLen := by rw [Nat.succ_mul]; omega
    _ ≤ d.runs * d.runLen := Nat.mul_le_mul_right d.runLen hm
  calc d.sequence[(h * d.runs + m) * d.runLen + r]?
      = d.sequence[h * (d.runs * d.runLen) + (m * d.runLen + r)]? := by congr 1; ring
    _ = (d.legSegments h)[m * d.runLen + r]? := getElem?_flatMap_range (length_legSegments d) hh hplace
    _ = (d.runSegments h m)[r]? := getElem?_flatMap_range (length_runSegments d h) hm hr
    _ = some (d.segmentAt h m r) := by simp [runSegments, hr]

theorem segmentAt_zero (d : Descriptor) : d.segmentAt 0 0 0 = d.first := by simp [segmentAt]

theorem sequence_head? (d : Descriptor) (hh : 0 < d.legs) (hm : 0 < d.runs) (hr : 0 < d.runLen) :
    d.sequence.head? = some (d.first : Int) := by
  simpa [List.head?_eq_getElem?, segmentAt_zero] using sequence_getElem? d hh hm hr

/-! ### The differences between neighbours (R8) -/

theorem segmentAt_next_place (d : Descriptor) (h m r : Nat) : d.segmentAt h m (r + 1) = d.segmentAt h m r + 1 := by
  simp only [segmentAt]
  push_cast
  ring

theorem segmentAt_next_run (d : Descriptor) (h m : Nat) {r : Nat} (hr : r + 1 = d.runLen) :
    d.segmentAt h (m + 1) 0 = d.segmentAt h m r + d.runStep := by
  simp only [segmentAt, ← hr]
  push_cast
  ring

theorem segmentAt_next_leg (d : Descriptor) (h : Nat) {m r : Nat} (hm : m + 1 = d.runs) (hr : r + 1 = d.runLen) :
    d.segmentAt (h + 1) 0 0 = d.segmentAt h m r + d.legStep := by
  simp only [segmentAt, ← hm, ← hr]
  push_cast
  ring

/-! ### The route counters (R54) -/

/-- What a step of the counters can be: to the next place of a run, from the end of a run to the next run, or from the
end of a leg to the next leg. -/
theorem step_cases {d : Descriptor} {h m r h' m' r' : Nat} {k : Int} (hm : m < d.runs) (hr : r < d.runLen)
    (hs : d.step h m r = some (k, h', m', r')) :
    (r + 1 < d.runLen ∧ k = 1 ∧ h' = h ∧ m' = m ∧ r' = r + 1) ∨
    (r + 1 = d.runLen ∧ m + 1 < d.runs ∧ k = d.runStep ∧ h' = h ∧ m' = m + 1 ∧ r' = 0) ∨
    (r + 1 = d.runLen ∧ m + 1 = d.runs ∧ k = d.legStep ∧ h' = h + 1 ∧ m' = 0 ∧ r' = 0) := by
  unfold step at hs
  split_ifs at hs with hplace hrun hleg <;> cases hs
  · exact .inl ⟨hplace, rfl, rfl, rfl, rfl⟩
  · exact .inr (.inl ⟨by omega, hrun, rfl, rfl, rfl, rfl⟩)
  · exact .inr (.inr ⟨by omega, by omega, rfl, rfl, rfl, rfl⟩)

theorem step_eq_none_iff {d : Descriptor} {h m r : Nat} (hh : h < d.legs) (hm : m < d.runs) (hr : r < d.runLen) :
    d.step h m r = none ↔ h + 1 = d.legs ∧ m + 1 = d.runs ∧ r + 1 = d.runLen := by
  unfold step
  split_ifs <;> simp <;> omega

theorem step_segmentAt {d : Descriptor} {h m r h' m' r' : Nat} {k : Int} (hm : m < d.runs) (hr : r < d.runLen)
    (hs : d.step h m r = some (k, h', m', r')) : d.segmentAt h' m' r' = d.segmentAt h m r + k := by
  obtain ⟨-, rfl, rfl, rfl, rfl⟩ | ⟨hr, -, rfl, rfl, rfl, rfl⟩ | ⟨hr, hm, rfl, rfl, rfl, rfl⟩ := step_cases hm hr hs
  · exact segmentAt_next_place d h' m' r
  · exact segmentAt_next_run d h' m hr
  · exact segmentAt_next_leg d h hm hr

theorem step_position {d : Descriptor} {h m r h' m' r' : Nat} {k : Int} (hm : m < d.runs) (hr : r < d.runLen)
    (hs : d.step h m r = some (k, h', m', r')) :
    (h' * d.runs + m') * d.runLen + r' = (h * d.runs + m) * d.runLen + r + 1 := by
  obtain ⟨-, rfl, rfl, rfl, rfl⟩ | ⟨hr, -, rfl, rfl, rfl, rfl⟩ | ⟨hr, hm, rfl, rfl, rfl, rfl⟩ := step_cases hm hr hs
  · rfl
  · rw [← hr]; ring
  · rw [← hr, ← hm]; ring

theorem step_increment {d : Descriptor} {h m r h' m' r' : Nat} {k : Int} (hm : m < d.runs) (hr : r < d.runLen)
    (hs : d.step h m r = some (k, h', m', r')) :
    k = if r + 1 < d.runLen then 1 else if m + 1 < d.runs then d.runStep else d.legStep := by
  obtain ⟨hr, rfl, -⟩ | ⟨hr, hm, rfl, -⟩ | ⟨hr, hm, rfl, -⟩ := step_cases hm hr hs
  · rw [if_pos hr]
  · rw [if_neg hr.not_lt, if_pos hm]
  · rw [if_neg hr.not_lt, if_neg hm.not_lt]

end Descriptor

/-! ### The statement -/

/-- Settles O56: the sequence is read off leg by leg and run by run, and the steps by the three kinds a step can be. -/
theorem routeSequenceClosedForm : Obligations.RouteSequenceClosedForm := by
  intro d hrunLen hruns hlegs
  have hlength := Descriptor.length_sequence d
  have hhead := Descriptor.sequence_head? d hlegs hruns hrunLen
  refine ⟨hlength, ?bound, hhead, ?closedForm, ?steps, ?last⟩
  case bound =>
    rintro ⟨-, -, -, -, -, -, -, -, -, -, -, hbound⟩
    exact hlength.trans_le hbound
  case closedForm => exact fun h m r hh hm hr => Descriptor.sequence_getElem? d hh hm hr
  case steps =>
    exact fun h m r k h' m' r' _ hm hr hs =>
      ⟨Descriptor.step_segmentAt hm hr hs, Descriptor.step_position hm hr hs, Descriptor.step_increment hm hr hs⟩
  case last => exact fun h m r hh hm hr => Descriptor.step_eq_none_iff hh hm hr

end Sys2Proof.Machine

/-! PROOFS. CLEAR (R172): a request that is answered, a list of codes read back from its bytes, and the ALARM output
over all the event kinds. -/

namespace Sys2Proof.Machine

open Sys2Proof.Says

/-! ### Requests that are taken and answered (R160, R163) -/

theorem takesFront_of_takes {s : State} {f : FloorFrame} {rest : List FloorFrame} (hs : Takes s f rest) :
    takesFront s = true := by
  obtain ⟨-, -, hroom, hwrite⟩ := hs
  simp [takesFront, Config.outboundMax, hroom, hwrite]

/-- The reservation that the request opened closes with its REPLY, so the floor queues end as `answered` says. -/
theorem appendReply_eq_answered {s t : State} {f : FloorFrame} {rest : List FloorFrame} {r : Reply}
    (hfli : t.fli = (openRequest rest s).fli) :
    appendReply { src := f.src, tag := f.tag } f.kind r t
      = answered { t with fli := s.fli } f rest r.code r.content := by
  obtain ⟨board, layout, srt, roster, mq, asu, bxu, tli, fli, su, mc, pending⟩ := t
  subst hfli
  rfl

/-- A handling that answers and leaves the floor queues alone: what it does, and its REPLY. -/
theorem serveRequest_eq_answered {p : FloorFrame → Bool} {h : FloorFrame → State → State × Option Reply} {s t : State}
    {f : FloorFrame} {rest : List FloorFrame} {r : Reply} (hs : Takes s f rest) (hp : p f = true)
    (hh : h f (openRequest rest s) = (t, some r)) (hfli : t.fli = (openRequest rest s).fli) :
    serveRequest p h s = answered { t with fli := s.fli } f rest r.code r.content := by
  have hfront := takesFront_of_takes hs
  obtain ⟨hrunning, hinbound, -, -⟩ := hs
  rw [← appendReply_eq_answered hfli]
  simp [serveRequest, hrunning, hinbound, hfront, hp, hh]

/-! ### The codes of a CLEAR -/

theorem toNat_byte_of_lt {n : Nat} (hn : n < 256) : (byte n).toNat = n := by
  simp [byte, Nat.mod_eq_of_lt hn]

theorem map_toNat_map_byte {codes : List Nat} (hcodes : ∀ k ∈ codes, k < 256) :
    (codes.map byte).map (·.toNat) = codes := by
  rw [List.map_map]
  exact (List.map_congr_left fun k hk => toNat_byte_of_lt (hcodes k hk)).trans (List.map_id codes)

theorem readClear_bytes {codes : List Nat} (hlen : codes.length < 256) (hcodes : ∀ k ∈ codes, k < 256) :
    readClear (byte codes.length :: codes.map byte) = some codes := by
  simp only [readClear, List.length_map, toNat_byte_of_lt hlen, if_true, map_toNat_map_byte hcodes]

/-! ### The three answers to a CLEAR, in the order of R172 -/

theorem serveClear_of_unset {f : FloorFrame} {codes : List Nat} {s : State} (hcell : s.mc.identity.cell = none) :
    serveClear f codes s = (s, some (Reply.bare .refusedState)) := by
  simp [serveClear, cellUnset, hcell, refuse]

theorem serveClear_of_outOfRange {f : FloorFrame} {codes : List Nat} {s : State} (hcell : s.mc.identity.cell ≠ none)
    (hcodes : ∃ k ∈ codes, 17 ≤ k) : serveClear f codes s = (s, some (Reply.bare .refusedRange)) := by
  simp [serveClear, cellUnset, hcell, hcodes, refuse]

theorem serveClear_of_inRange {f : FloorFrame} {codes : List Nat} {s : State} (hcell : s.mc.identity.cell ≠ none)
    (hlen : codes.length ≤ 17) (hcodes : ∀ k ∈ codes, k < 17) :
    serveClear f codes s = (clearFlags codes s, some (Reply.bare .done)) := by
  have hrange : ¬ ∃ k ∈ codes, 17 ≤ k := fun ⟨k, hk, hle⟩ => absurd (hcodes k hk) hle.not_gt
  simp [serveClear, cellUnset, hcell, hlen.not_gt, hrange, done]

/-- A CLEAR of readable codes is what `serveClear` makes of it. -/
theorem exec_clear_eq_answered {s t : State} {f : FloorFrame} {rest : List FloorFrame} {codes : List Nat} {c : Code}
    (hs : Takes s f rest) (hkind : f.kind = 0x29) (hread : readClear f.payload = some codes)
    (hh : serveClear f codes (openRequest rest s) = (t, some (Reply.bare c)))
    (hfli : t.fli = (openRequest rest s).fli) :
    exec .clear s = .next (answered { t with fli := s.fli } f rest c []) := by
  have hp : isKind kindClear f = true := by simp [isKind, kindClear, hkind]
  have hw : withPayload readClear serveClear f (openRequest rest s) = (t, some (Reply.bare c)) := by
    simp only [withPayload, hread, hh]
  exact congrArg Host.Outcome.next (serveRequest_eq_answered hs hp hw hfli)

/-! ### Flags and ALARM after a CLEAR (R171) -/

theorem EventKind.mem_all (k : EventKind) : k ∈ EventKind.all := by
  cases k <;> decide

theorem alarmDue_iff {s : State} :
    alarmDue s = true ↔ ∃ k, flagSet s k = true ∧ (severityOf s k = .alarm ∨ severityOf s k = .halt) := by
  simp [alarmDue, EventKind.mem_all]

theorem clearFlags_flags (codes : List Nat) (s : State) :
    (clearFlags codes s).su.flags = s.su.flags.filter fun e => decide (e.1 ∉ codes) :=
  List.filter_congr fun e _ => by simp

theorem clearFlags_alarm_iff (codes : List Nat) (s : State) :
    (clearFlags codes s).su.alarm = true ↔
      ∃ k, flagSet (clearFlags codes s) k = true ∧ (severityOf s k = .alarm ∨ severityOf s k = .halt) := by
  have halarm : (clearFlags codes s).su.alarm = alarmDue (clearFlags codes s) := (alarmDue_congr rfl rfl).symm
  have hseverity : ∀ k, severityOf (clearFlags codes s) k = severityOf s k := severityOf_congr rfl
  simp only [halarm, alarmDue_iff, hseverity]

/-! ### The statement -/

/-- Settles O25: the codes are read back from the bytes, and each of the three answers of `serveClear` leaves the floor
queues to the REPLY. -/
theorem clearRemovesFlags : Obligations.ClearRemovesFlags := by
  intro s f rest codes hs hkind hpayload hlen hbytes
  have hread : readClear f.payload = some codes := by
    rw [hpayload]
    exact readClear_bytes (by omega) hbytes
  refine ⟨fun hcell => ?unset, fun hcell hrange => ?outOfRange, fun hcell hrange => ?taken⟩
  case unset =>
    exact exec_clear_eq_answered (t := openRequest rest s) hs hkind hread (serveClear_of_unset hcell) rfl
  case outOfRange =>
    exact exec_clear_eq_answered (t := openRequest rest s) hs hkind hread (serveClear_of_outOfRange hcell hrange) rfl
  case taken =>
    exact ⟨_, exec_clear_eq_answered hs hkind hread (serveClear_of_inRange hcell hlen hrange) rfl, rfl,
      clearFlags_flags codes (openRequest rest s), clearFlags_alarm_iff codes (openRequest rest s)⟩

end Sys2Proof.Machine

/-! PROOFS. Every command completes, keeps the invariant, and handles an event within the frame of `Acts`. -/

namespace Sys2Proof.Machine

open Sys2Proof.Says

/-! ### The queue of commands -/

/-- Settles O1: `step` reads the front of the queue. -/
theorem stepRunsFrontCommand : Obligations.StepRunsFrontCommand := by
  intro c s rest hpending
  simp only [step, hpending]

/-- Settles O2: on an empty queue `step` is `tick`. -/
theorem stepIdlesOneTick : Obligations.StepIdlesOneTick := by
  intro s hpending
  simp only [step, hpending, tick, State.updBoard]

/-! ### Queries and STATUS rows -/

theorem query_same_vehicle (f : FloorFrame) (v : Nat) (s : State) :
    (queryVehicle f v s).1 = s ∧ (queryVehicle f v s).2 ≠ none := by
  unfold queryVehicle
  split
  · exact ⟨rfl, nofun⟩
  · split <;> exact ⟨rfl, nofun⟩

theorem query_same_move (f : FloorFrame) (m : Nat) (s : State) :
    (queryMove f m s).1 = s ∧ (queryMove f m s).2 ≠ none := by
  unfold queryMove
  split
  · exact ⟨rfl, nofun⟩
  · split <;> exact ⟨rfl, nofun⟩

theorem query_same_segment (f : FloorFrame) (i : Nat) (s : State) :
    (querySegment f i s).1 = s ∧ (querySegment f i s).2 ≠ none := by
  unfold querySegment
  split
  · exact ⟨rfl, nofun⟩
  · split <;> exact ⟨rfl, nofun⟩

theorem query_same_zone (f : FloorFrame) (z : Nat) (s : State) :
    (queryZone f z s).1 = s ∧ (queryZone f z s).2 ≠ none := by
  unfold queryZone
  split <;> exact ⟨rfl, nofun⟩

theorem query_same_moveList (f : FloorFrame) (n : Nat) (s : State) :
    (queryMoveList f n s).1 = s ∧ (queryMoveList f n s).2 ≠ none := by
  unfold queryMoveList
  split <;> exact ⟨rfl, nofun⟩

theorem acts_confirm (v : Nat) (d : StatusData) (s : State) : Acts s (takeConfirm v d.move s) :=
  acts_takeConfirm v d.move s
theorem acts_hoistStart (v : Nat) (d : StatusData) (s : State) : Acts s (takeHoistStart v d.seg d.move s) :=
  acts_takeHoistStart v d.seg d.move s
theorem acts_hoistDone (v : Nat) (d : StatusData) (s : State) : Acts s (takeHoistDone v d.seg d.move d.grip s) :=
  acts_takeHoistDone v d.seg d.move d.grip s
theorem acts_hoistFault (v : Nat) (_ : StatusData) (s : State) : Acts s (takeHoistFault v s) :=
  acts_takeHoistFault v s

/-! ### The invariant, command by command -/

/-- Settles O5: the state after power-on is the start-up state on a reset board. -/
theorem resetInv : Obligations.ResetInv := inv_startUp State.reset

/-- A command that answers `u`: what holds of `u` holds of the state it answers. -/
theorem inv_of_next {u t : State} (h : (.next u : Host.Outcome State Fault Refusal) = .next t) (hu : Inv u) : Inv t := by
  cases h
  exact hu

theorem exec_keeps_inv {c : Instr} {s t : State} (hs : Inv s) (h : exec c s = .next t) : Inv t := by
  cases c with
  | move => exact inv_of_next h (inv_move hs)
  | cancel => exact inv_of_next h (inv_cancel hs)
  | forget => exact inv_of_next h (inv_forget hs)
  | block => exact inv_of_next h (inv_closure hs _ _ acts_block)
  | unblock => exact inv_of_next h (inv_closure hs _ _ acts_unblock)
  | loadSegment => exact inv_of_next h (inv_loadSegment hs)
  | loadZone => exact inv_of_next h (inv_loadZone hs)
  | loadPort => exact inv_of_next h (inv_loadPort hs)
  | loadRoute => exact inv_of_next h (inv_loadRoute hs)
  | loadExit => exact inv_of_next h (inv_loadExit hs)
  | loadTuning => exact inv_of_next h (inv_loadTuning hs)
  | loadCap => exact inv_of_next h (inv_loadCap hs)
  | loadSeverity => exact inv_of_next h (inv_loadSeverity hs)
  | activate => exact inv_of_next h (inv_activate hs)
  | activationCheckComplete => exact inv_of_next h (inv_whenRunning hs (inv_checkCompletes hs))
  | modeDispatching => exact inv_of_next h (inv_modeDispatching hs)
  | modeHalted => exact inv_of_next h (inv_modeHalted hs)
  | modeParked => exact inv_of_next h (inv_modeParked hs)
  | queryVehicle => exact inv_of_next h (inv_query hs _ _ query_same_vehicle)
  | queryMove => exact inv_of_next h (inv_query hs _ _ query_same_move)
  | querySegment => exact inv_of_next h (inv_query hs _ _ query_same_segment)
  | queryZone => exact inv_of_next h (inv_query hs _ _ query_same_zone)
  | queryRosterList => exact inv_of_next h (inv_query hs _ _ fun _ _ _ => ⟨rfl, nofun⟩)
  | queryMoveList => exact inv_of_next h (inv_query hs _ _ query_same_moveList)
  | queryStatusFlags => exact inv_of_next h (inv_query hs _ _ fun _ _ _ => ⟨rfl, nofun⟩)
  | queryIdentity => exact inv_of_next h (inv_query hs _ _ fun _ _ _ => ⟨rfl, nofun⟩)
  | queryMode => exact inv_of_next h (inv_query hs _ _ fun _ _ _ => ⟨rfl, nofun⟩)
  | clear => exact inv_of_next h (inv_clear hs)
  | restartKeepLayout => exact inv_of_next h (inv_restart hs 0 false)
  | restartFull => exact inv_of_next h (inv_restart hs 1 true)
  | identify => exact inv_of_next h (inv_identify hs)
  | nonvolatileWriteComplete => exact inv_of_next h (inv_whenRunning hs (inv_writeCompletes hs))
  | unknownRequestKind => exact inv_of_next h (inv_unknown hs)
  | claim => exact inv_of_next h (inv_claim hs)
  | claimGrant => exact inv_of_next h (inv_claimGrant hs)
  | claimRefuse => exact inv_of_next h (inv_claimRefuse hs)
  | claimWithdraw => exact inv_of_next h (inv_claimWithdraw hs)
  | arrived => exact inv_of_next h (inv_arrived hs)
  | abandon => exact inv_of_next h (inv_abandon hs)
  | floorFrameArrival bytes => exact inv_of_next h (inv_whenRunning hs fun _ => inv_floorArrival hs bytes)
  | floorFrameSent => exact inv_of_next h (inv_whenRunning hs fun _ => inv_floorSent hs)
  | trackFrameReceived r => exact inv_of_next h (inv_whenRunning hs fun _ => inv_trackReceived hs r)
  | join => exact inv_of_next h (inv_takeTrack hs acts_takeJoin)
  | position => exact inv_of_next h (inv_takeTrack hs acts_takePositionFrame)
  | statusConfirm => exact inv_of_next h (inv_takeTrack hs (acts_takeStatus _ acts_confirm))
  | statusHoistStart => exact inv_of_next h (inv_takeTrack hs (acts_takeStatus _ acts_hoistStart))
  | statusHoistDone => exact inv_of_next h (inv_takeTrack hs (acts_takeStatus _ acts_hoistDone))
  | statusHoistFault => exact inv_of_next h (inv_takeTrack hs (acts_takeStatus _ acts_hoistFault))
  | statusFault => exact inv_of_next h (inv_takeTrack hs (acts_takeStatus _ acts_takeFault))
  | statusCleared => exact inv_of_next h (inv_takeTrack hs (acts_takeStatus _ acts_takeCleared))
  | sendGrant | sendAssign | sendWithdraw | sendHold | sendAllHold | sendResume | sendRollcall =>
    exact inv_of_next h (inv_whenRunning hs fun _ => inv_sendRow hs _)
  | engineFrameOutcome o => exact inv_of_next h (inv_whenRunning hs fun _ => inv_frameEnds hs o)
  | lastHeardDeadline v => exact inv_of_next h (inv_silence hs v)
  | confirmDeadline m => exact inv_of_next h (inv_confirm hs m)
  | claimDeadline k => exact inv_of_next h (inv_claimDeadline hs k)
  | arrivalDeadline n k => exact inv_of_next h (inv_arrivalDeadline hs n k)
  | ageTimer => exact inv_of_next h (inv_whenRunning hs fun _ => inv_ageExpiry hs)
  | dispatchTimer => exact inv_of_next h (inv_whenRunning hs fun _ => inv_dispatchExpiry hs)
  | dispatchPass => exact inv_of_next h (inv_whenRunning hs fun _ => inv_dispatchPass hs)
  | haltInputAsserted => exact inv_of_next h (inv_haltPinAsserted hs)
  | haltInputReleased => exact inv_of_next h (inv_haltPinReleased hs)
  | resetPinAsserted => exact inv_of_next h (inv_resetPinAsserted hs)
  | resetPinReleased => exact inv_of_next h (inv_resetPinReleased hs)
  | powerOn => exact inv_of_next h (inv_powerOn hs)
  | lossOfPower => exact inv_of_next h (inv_lossOfPower hs)

/-- Settles O6: a tick moves the time alone, and every command keeps the invariant. -/
theorem stepKeepsInv : Obligations.StepKeepsInv := by
  intro s t hs h
  cases hpending : s.pending with
  | nil => exact inv_of_next (by rwa [stepIdlesOneTick s hpending] at h) (inv_time hs (s.board.now + 1))
  | cons c rest => exact exec_keeps_inv (inv_pending hs rest) (by rwa [stepRunsFrontCommand c s rest hpending] at h)

end Sys2Proof.Machine

/-! PROOFS. No command changes the queue of commands behind it, and the handling of events stays within its frame. -/

namespace Sys2Proof.Machine

open Sys2Proof.Says

/-! ### The frame of a handling -/

theorem framed_of_acts {s t : State} (a : Acts s t) : Framed s t where
  now := a.now
  board := by
    change Board.mk t.board.now t.board.power t.board.resetPin t.board.haltPin t.board.freeCount = _
    rw [a.power, a.resetPin, a.haltPin, a.freeCount]
  layout := a.layout
  mc := a.mc
  segments := a.segments
  ageAt := a.ageAt
  dispatchAt := a.dispatchAt
  queue := a.queue
  inbound := a.inbound
  outbound := a.outbound
  reservations := a.reservations
  flags := a.flags
  pending := a.pending

theorem acts_whenRunning {f : State → State} {s : State} (hf : Acts s (f s)) : Acts s (whenRunning f s) := by
  unfold whenRunning
  split
  · exact hf
  · exact Acts.refl s

/-- A pass begins by marking itself running, so it does not read the mark it finds; nor is the mark in the frame. -/
theorem framed_dispatchPass {s : State} (hm : s.mode = .dispatching) : Framed s (dispatchPass s) :=
  have k := framed_of_acts (acts_dispatchPass (s := s.updAsu fun a => { a with passRunning := false }) rfl hm)
  { k with }

theorem framed_passIfDue (s : State) :
    Framed s (whenRunning (fun t => if t.mode = .dispatching ∧ t.asu.passDue = true then dispatchPass t else t) s) := by
  unfold whenRunning
  split
  · dsimp only
    split
    next h => exact framed_dispatchPass h.1
    next => exact framed_of_acts (Acts.refl s)
  · exact framed_of_acts (Acts.refl s)

/-- A command that answers `u` acts as far as `u` does. -/
theorem framed_of_next {s u t : State} (h : (.next u : Host.Outcome State Fault Refusal) = .next t) (hu : Acts s u) :
    Framed s t := by
  cases h
  exact framed_of_acts hu

/-- Settles O60: each of these commands acts, and what acts stays in the frame. -/
theorem handlingFrame : Obligations.HandlingFrame := by
  rintro s t c (hc | ⟨v, rfl⟩ | ⟨m, rfl⟩ | ⟨k, rfl⟩ | ⟨n, k, rfl⟩) h
  · simp only [List.mem_cons, List.not_mem_nil, or_false] at hc
    obtain rfl | rfl | rfl | rfl | rfl | rfl | rfl | rfl | rfl | rfl | rfl | rfl | rfl | rfl | rfl := hc
    · exact framed_of_next h (acts_servePeer _ _ _ acts_takeClaim s)
    · exact framed_of_next h (acts_servePeer _ _ _ acts_takeGrant s)
    · exact framed_of_next h (acts_servePeer _ _ _ acts_takeRefuse s)
    · exact framed_of_next h (acts_servePeer _ _ _ acts_takeWithdraw s)
    · exact framed_of_next h (acts_servePeer _ _ _ acts_takeArrived s)
    · exact framed_of_next h (acts_servePeer _ _ _ acts_takeAbandon s)
    · exact framed_of_next h (acts_takeTrack _ _ acts_takeJoin s)
    · exact framed_of_next h (acts_takeTrack _ _ acts_takePositionFrame s)
    · exact framed_of_next h (acts_takeTrack _ _ (acts_takeStatus _ acts_confirm) s)
    · exact framed_of_next h (acts_takeTrack _ _ (acts_takeStatus _ acts_hoistStart) s)
    · exact framed_of_next h (acts_takeTrack _ _ (acts_takeStatus _ acts_hoistDone) s)
    · exact framed_of_next h (acts_takeTrack _ _ (acts_takeStatus _ acts_hoistFault) s)
    · exact framed_of_next h (acts_takeTrack _ _ (acts_takeStatus _ acts_takeFault) s)
    · exact framed_of_next h (acts_takeTrack _ _ (acts_takeStatus _ acts_takeCleared) s)
    · cases h
      exact framed_passIfDue s
  · exact framed_of_next h (acts_whenRunning (acts_silenceFalls v s))
  · exact framed_of_next h (acts_whenRunning (acts_confirmFalls m s))
  · exact framed_of_next h (acts_whenRunning (acts_claimFalls k s))
  · exact framed_of_next h (acts_whenRunning (acts_arrivalFalls n k s))

/-! ### The queue of commands through requests -/

theorem serveRequest_pending {p : FloorFrame → Bool} {h : FloorFrame → State → State × Option Reply}
    (hh : ∀ f t, (h f t).1.pending = t.pending) (s : State) : (serveRequest p h s).pending = s.pending := by
  unfold serveRequest
  split
  · split
    · rfl
    · split
      · simp only
        split <;> exact hh _ _
      · rfl
  · rfl

theorem withPayload_pending {α : Type} {read : List Byte → Option α} {h : FloorFrame → α → State → State × Option Reply}
    (hh : ∀ f a t, (h f a t).1.pending = t.pending) (f : FloorFrame) (s : State) :
    (withPayload read h f s).1.pending = s.pending := by
  unfold withPayload
  split
  · rfl
  · exact hh _ _ _

/-- A request of fixed payload, as its handler treats the queue. -/
theorem payloadRow_pending {α : Type} {p : FloorFrame → Bool} {read : List Byte → Option α}
    {h : FloorFrame → α → State → State × Option Reply} (hh : ∀ f a t, (h f a t).1.pending = t.pending) (s : State) :
    (serveRequest p (withPayload read h) s).pending = s.pending :=
  serveRequest_pending (withPayload_pending hh) s

theorem serveMove_pending (f : FloorFrame) (q : MoveRequest) (s : State) : (serveMove f q s).1.pending = s.pending := by
  unfold serveMove
  split
  · rfl
  split
  · rfl
  split
  · rfl
  split
  · rfl
  split
  · exact (acts_adoptMove _ _ _).pending
  split
  · rfl
  split
  · rfl
  · simp [done, setPassDue_rest, appendMove_rest]

theorem serveCancel_pending (f : FloorFrame) (m : Nat) (s : State) : (serveCancel f m s).1.pending = s.pending := by
  unfold serveCancel
  split_ifs
  · rfl
  · rfl
  · split
    · rfl
    · split
      next h => exact (acts_cancelMove _ _ _ h).pending
      next => rfl

theorem serveForget_pending (f : FloorFrame) (v : Nat) (s : State) : (serveForget f v s).1.pending = s.pending := by
  unfold serveForget
  split_ifs
  · rfl
  · rfl
  · split
    · rfl
    · exact (acts_forgetVehicle _ _).pending

theorem serveClosure_pending {h : Nat → State → State} (hh : ∀ i t, Acts t (h i t)) (f : FloorFrame) (i : Nat)
    (s : State) : (serveClosure h f i s).1.pending = s.pending := by
  unfold serveClosure
  split_ifs
  · rfl
  · rfl
  · rfl
  · exact (hh _ _).pending

theorem serveLoad_pending {size bound : Nat} {b : Bool} {h : Nat → List Byte → State → State × Option Reply}
    (hh : ∀ i r t, (h i r t).1.pending = t.pending) (f : FloorFrame) (s : State) :
    (serveLoad size b bound h f s).1.pending = s.pending := by
  unfold serveLoad
  split
  · rfl
  · split_ifs
    · rfl
    · rfl
    · rfl
    · rfl
    · exact hh _ _ _

theorem loadRow_pending {sel bound : Nat} {h : Nat → List Byte → State → State × Option Reply}
    (hh : ∀ i r t, (h i r t).1.pending = t.pending) (s : State) : (loadRow sel bound h s).pending = s.pending :=
  serveRequest_pending (serveLoad_pending hh) s

theorem storeLayout_pending {α : Type} (read : List Byte → Option α) (put : Nat → α → Layout → Layout) (i : Nat)
    (record : List Byte) (s : State) : (storeLayout read put i record s).1.pending = s.pending := by
  unfold storeLayout
  split <;> rfl

theorem loadSegmentRecord_pending (i : Nat) (record : List Byte) (s : State) :
    (loadSegmentRecord i record s).1.pending = s.pending := by
  unfold loadSegmentRecord
  split <;> rfl

theorem loadRouteRecord_pending (i : Nat) (record : List Byte) (s : State) :
    (loadRouteRecord i record s).1.pending = s.pending := storeLayout_pending _ _ _ _ s

theorem loadTuningRecord_pending (i : Nat) (record : List Byte) (s : State) :
    (loadTuningRecord i record s).1.pending = s.pending := by
  unfold loadTuningRecord
  split <;> rfl

theorem loadCapRecord_pending (z : Nat) (record : List Byte) (s : State) :
    (loadCapRecord z record s).1.pending = s.pending := by
  unfold loadCapRecord
  split
  · rfl
  · exact (acts_grantAll _ _).pending

theorem loadSeverityRecord_pending (i : Nat) (record : List Byte) (s : State) :
    (loadSeverityRecord i record s).1.pending = s.pending := by
  unfold loadSeverityRecord
  split <;> rfl

theorem serveActivate_pending (f : FloorFrame) (a : Unit) (s : State) : (serveActivate f a s).1.pending = s.pending := by
  unfold serveActivate
  split_ifs <;> rfl

theorem serveMode_pending {h : State → State × Option Reply} (hh : ∀ t, (h t).1.pending = t.pending) (f : FloorFrame)
    (n : Nat) (s : State) : (serveMode h f n s).1.pending = s.pending := by
  unfold serveMode
  split_ifs
  · rfl
  · rfl
  · exact hh s

theorem modeRow_pending {h : State → State × Option Reply} (hh : ∀ t, (h t).1.pending = t.pending) (code : Nat)
    (s : State) : (modeRow code h s).pending = s.pending :=
  payloadRow_pending (serveMode_pending hh) s

theorem leaveHalted_pending (s : State) : (leaveHalted s).pending = s.pending := by
  unfold leaveHalted
  simp only [setPassDue_rest]
  exact (acts_run _ _).pending.trans (acts_grantAll _ _).pending

theorem askDispatching_pending (s : State) : (askDispatching s).1.pending = s.pending := by
  unfold askDispatching
  split
  · rfl
  · rfl
  · split
    · rfl
    · exact leaveHalted_pending s

theorem askHalted_pending (s : State) : (askHalted s).1.pending = s.pending := by
  unfold askHalted
  split <;> simp [refuse, done, enterHalted_rest]

theorem withdrawAllClaims_pending (s : State) : (withdrawAllClaims s).pending = s.pending := by
  have hsend : ∀ dst kind tag seg v extra t, t.pending = s.pending →
      (sendPeer dst kind tag seg v extra t).pending = s.pending :=
    fun dst kind tag seg v extra t h => (acts_sendPeer dst kind tag seg v extra t).pending.trans h
  obtain ⟨t, ht, heq⟩ := withdrawAllClaims_keeps (fun t => t.pending = s.pending) hsend s rfl
  rw [heq]
  exact ht

theorem failAllMoves_pending (s : State) : (failAllMoves s).pending = s.pending :=
  (acts_foldl (fun t m => removeMove m .failed t) (fun t m => acts_removeMove m .failed t) _ s).pending

theorem enterParked_pending (s : State) : (enterParked s).pending = s.pending := by
  simp [enterParked, parkLine, makeAllHoldDue_rest, clearReservations_rest, withdrawAllClaims_pending,
    failAllMoves_pending]

theorem askParked_pending (s : State) : (askParked s).1.pending = s.pending := by
  unfold askParked
  split
  · rfl
  · exact enterParked_pending s
  · exact enterParked_pending s

theorem serveQuery_pending {k : Nat} {h : FloorFrame → Nat → State → State × Option Reply}
    (hh : ∀ f n t, (h f n t).1 = t ∧ (h f n t).2 ≠ none) (s : State) : (serveQuery k h s).pending = s.pending :=
  payloadRow_pending (fun f n t => congrArg State.pending (hh f n t).1) s

theorem serveClear_pending (f : FloorFrame) (codes : List Nat) (s : State) :
    (serveClear f codes s).1.pending = s.pending := by
  unfold serveClear
  split_ifs <;> rfl

theorem serveIdentify_pending (f : FloorFrame) (q : IdentifyRequest) (s : State) :
    (serveIdentify f q s).1.pending = s.pending := by
  unfold serveIdentify
  split_ifs <;> rfl

theorem serveUnknown_pending (f : FloorFrame) (s : State) : (serveUnknown f s).1.pending = s.pending := by
  unfold serveUnknown
  split_ifs <;> rfl

/-! ### The queue of commands through the other rows -/

theorem whenRunning_pending {f : State → State} (hf : ∀ t, (f t).pending = t.pending) (s : State) :
    (whenRunning f s).pending = s.pending := by
  unfold whenRunning
  split
  · exact hf s
  · rfl

theorem activate_pending (s : State) : (activate s).pending = s.pending := by
  simp [activate, setPassDue_rest, makeRollcallDue_rest, clearReservations_rest]

theorem checkCompletes_pending (s : State) : (checkCompletes s).pending = s.pending := by
  unfold checkCompletes
  split
  · rfl
  · simp only [appendReply_rest]
    unfold checkOutcome
    split
    · rfl
    · split
      · rfl
      · exact activate_pending _

theorem writeCompletes_pending (s : State) : (writeCompletes s).pending = s.pending := by
  unfold writeCompletes
  split <;> rfl

theorem floorArrival_pending (bytes : List Byte) (s : State) : (floorArrival bytes s).pending = s.pending := by
  unfold floorArrival
  split
  · rfl
  · split_ifs
    · rfl
    · exact (acts_raise _ _ _).pending
    · rfl

theorem floorSent_pending (s : State) : (floorSent s).pending = s.pending := by
  unfold floorSent
  split <;> rfl

theorem enqueueFrame_pending (src : Nat) (b : VehicleFrame) (s : State) :
    (enqueueFrame src b s).pending = s.pending := by
  unfold enqueueFrame
  split_ifs <;> rfl

theorem receiveFrame_pending (f : TrackFrame) (s : State) : (receiveFrame f s).pending = s.pending := by
  unfold receiveFrame
  split
  · exact (acts_raise _ _ _).pending
  split
  · rfl
  split
  · exact (acts_raise _ _ _).pending
  split
  · rfl
  · exact enqueueFrame_pending _ _ s

theorem contend_pending {r : TrackReception} {s t : State} (h : contend r s = some t) : t.pending = s.pending := by
  unfold contend at h
  split at h
  · cases h; rfl
  · cases h
  · split at h
    · cases h; rfl
    · cases h

theorem trackReceived_pending (r : TrackReception) (s : State) : (trackReceived r s).pending = s.pending := by
  unfold trackReceived
  split
  · rfl
  next t h =>
    split
    · exact (acts_raise _ _ (setAnswer .refuseCheck t)).pending.trans (show t.pending = s.pending from contend_pending h)
    · exact (receiveFrame_pending _ t).trans (contend_pending h)

theorem sendRow_pending (p : LineItem → Bool) (s : State) : (sendRow p s).pending = s.pending := by
  unfold sendRow
  split
  · exact (sends_sendPicked p _ s).acts.pending
  · rfl

theorem frameEnds_pending (o : FrameOutcome) (s : State) : (frameEnds o s).pending = s.pending := by
  unfold frameEnds
  split
  · rfl
  next fr _ =>
    split
    · rfl
    · have hpointer := (sends_movePointer fr.item (s.updTli fun t => { t with line := none })).acts.pending
      simp only
      split
      · exact hpointer
      · exact (sends_settleItem _ _ _).acts.pending.trans hpointer

theorem haltAsserted_pending (s : State) : (haltAsserted s).pending = s.pending := by
  unfold haltAsserted
  split
  · rfl
  · simp only
    split
    · split <;> simp [raise_rest, enterHalted_rest]
    · rfl

theorem cutWrite_pending (s : State) : (cutWrite s).pending = s.pending := by
  obtain ⟨n, m, h, -, -⟩ := cutWrite_eq s
  rw [h]

theorem dispatchExpiry_pending (s : State) : (dispatchExpiry s).pending = s.pending :=
  (acts_setPassDue _).pending

/-! ### Every command -/

/-- A command that answers its next state with the queue as it was. -/
theorem completes {s u : State} {o : Host.Outcome State Fault Refusal} (h : o = .next u) (hu : u.pending = s.pending) :
    ∃ t, o = .next t ∧ t.pending = s.pending := ⟨u, h, hu⟩

/-- Settles O3, command by command. -/
theorem commandsComplete : Obligations.CommandsComplete := by
  intro c s
  cases c with
  | move => exact completes rfl (payloadRow_pending serveMove_pending s)
  | cancel => exact completes rfl (payloadRow_pending serveCancel_pending s)
  | forget => exact completes rfl (payloadRow_pending serveForget_pending s)
  | block => exact completes rfl (payloadRow_pending (serveClosure_pending acts_block) s)
  | unblock => exact completes rfl (payloadRow_pending (serveClosure_pending acts_unblock) s)
  | loadSegment => exact completes rfl (loadRow_pending loadSegmentRecord_pending s)
  | loadZone | loadPort | loadExit => exact completes rfl (loadRow_pending (fun i r t => storeLayout_pending _ _ i r t) s)
  | loadRoute => exact completes rfl (loadRow_pending loadRouteRecord_pending s)
  | loadTuning => exact completes rfl (loadRow_pending loadTuningRecord_pending s)
  | loadCap => exact completes rfl (loadRow_pending loadCapRecord_pending s)
  | loadSeverity => exact completes rfl (loadRow_pending loadSeverityRecord_pending s)
  | activate => exact completes rfl (payloadRow_pending serveActivate_pending s)
  | activationCheckComplete => exact completes rfl (whenRunning_pending checkCompletes_pending s)
  | modeDispatching => exact completes rfl (modeRow_pending askDispatching_pending 1 s)
  | modeHalted => exact completes rfl (modeRow_pending askHalted_pending 2 s)
  | modeParked => exact completes rfl (modeRow_pending askParked_pending 0 s)
  | queryVehicle => exact completes rfl (serveQuery_pending query_same_vehicle s)
  | queryMove => exact completes rfl (serveQuery_pending query_same_move s)
  | querySegment => exact completes rfl (serveQuery_pending query_same_segment s)
  | queryZone => exact completes rfl (serveQuery_pending query_same_zone s)
  | queryMoveList => exact completes rfl (serveQuery_pending query_same_moveList s)
  | queryRosterList => exact completes rfl (serveQuery_pending (h := queryRosterList) (fun _ _ _ => ⟨rfl, nofun⟩) s)
  | queryStatusFlags => exact completes rfl (serveQuery_pending (h := queryStatusFlags) (fun _ _ _ => ⟨rfl, nofun⟩) s)
  | queryIdentity => exact completes rfl (serveQuery_pending (h := queryIdentity) (fun _ _ _ => ⟨rfl, nofun⟩) s)
  | queryMode => exact completes rfl (serveQuery_pending (h := queryMode) (fun _ _ _ => ⟨rfl, nofun⟩) s)
  | clear => exact completes rfl (payloadRow_pending serveClear_pending s)
  | restartKeepLayout | restartFull => exact completes rfl (payloadRow_pending (fun _ _ _ => rfl) s)
  | identify => exact completes rfl (payloadRow_pending serveIdentify_pending s)
  | nonvolatileWriteComplete => exact completes rfl (whenRunning_pending writeCompletes_pending s)
  | unknownRequestKind => exact completes rfl (serveRequest_pending serveUnknown_pending s)
  | claim => exact completes rfl (acts_servePeer _ _ _ acts_takeClaim s).pending
  | claimGrant => exact completes rfl (acts_servePeer _ _ _ acts_takeGrant s).pending
  | claimRefuse => exact completes rfl (acts_servePeer _ _ _ acts_takeRefuse s).pending
  | claimWithdraw => exact completes rfl (acts_servePeer _ _ _ acts_takeWithdraw s).pending
  | arrived => exact completes rfl (acts_servePeer _ _ _ acts_takeArrived s).pending
  | abandon => exact completes rfl (acts_servePeer _ _ _ acts_takeAbandon s).pending
  | floorFrameArrival bytes => exact completes rfl (whenRunning_pending (floorArrival_pending bytes) s)
  | floorFrameSent => exact completes rfl (whenRunning_pending floorSent_pending s)
  | trackFrameReceived r => exact completes rfl (whenRunning_pending (trackReceived_pending r) s)
  | join => exact completes rfl (acts_takeTrack _ _ acts_takeJoin s).pending
  | position => exact completes rfl (acts_takeTrack _ _ acts_takePositionFrame s).pending
  | statusConfirm => exact completes rfl (acts_takeTrack _ _ (acts_takeStatus _ acts_confirm) s).pending
  | statusHoistStart => exact completes rfl (acts_takeTrack _ _ (acts_takeStatus _ acts_hoistStart) s).pending
  | statusHoistDone => exact completes rfl (acts_takeTrack _ _ (acts_takeStatus _ acts_hoistDone) s).pending
  | statusHoistFault => exact completes rfl (acts_takeTrack _ _ (acts_takeStatus _ acts_hoistFault) s).pending
  | statusFault => exact completes rfl (acts_takeTrack _ _ (acts_takeStatus _ acts_takeFault) s).pending
  | statusCleared => exact completes rfl (acts_takeTrack _ _ (acts_takeStatus _ acts_takeCleared) s).pending
  | sendGrant | sendAssign | sendWithdraw | sendHold | sendAllHold | sendResume | sendRollcall =>
    exact completes rfl (whenRunning_pending (sendRow_pending _) s)
  | engineFrameOutcome o => exact completes rfl (whenRunning_pending (frameEnds_pending o) s)
  | lastHeardDeadline v => exact completes rfl (acts_whenRunning (acts_silenceFalls v s)).pending
  | confirmDeadline m => exact completes rfl (acts_whenRunning (acts_confirmFalls m s)).pending
  | claimDeadline k => exact completes rfl (acts_whenRunning (acts_claimFalls k s)).pending
  | arrivalDeadline n k => exact completes rfl (acts_whenRunning (acts_arrivalFalls n k s)).pending
  | ageTimer => exact completes rfl (whenRunning_pending (f := ageExpiry) (fun _ => rfl) s)
  | dispatchTimer => exact completes rfl (whenRunning_pending dispatchExpiry_pending s)
  | dispatchPass => exact completes rfl (framed_passIfDue s).pending
  | haltInputAsserted => exact completes rfl (whenRunning_pending haltAsserted_pending _)
  | haltInputReleased =>
    exact completes rfl (whenRunning_pending (f := fun t => t.updMc fun m => { m with haltInput := false })
      (fun _ => rfl) _)
  | resetPinAsserted =>
    refine completes rfl ?_
    split
    · exact cutWrite_pending s
    · rfl
  | resetPinReleased =>
    refine completes rfl ?_
    split <;> rfl
  | powerOn =>
    refine completes rfl ?_
    split <;> rfl
  | lossOfPower =>
    refine completes rfl ?_
    split
    · exact cutWrite_pending s
    · rfl

end Sys2Proof.Machine

/-! PROOFS. Fields read back from their bytes, and requests: MOVE, the closures, the LOADs, ACTIVATE, the QUERYs,
RESTART, IDENTIFY and what no other row takes. -/

namespace Sys2Proof.Machine

open Sys2Proof.Says

/-! ### Fields read back from their bytes (R186) -/

theorem toNat_byte (n : Nat) : (byte n).toNat = n % 256 := by simp [byte]

theorem num2_bytes (n : Nat) : num2 (byte (n / 256)) (byte n) = n % 65536 := by
  simp only [num2, toNat_byte]
  omega

theorem num2_bytes_of_lt {n : Nat} (hn : n < 65536) : num2 (byte (n / 256)) (byte n) = n := by
  rw [num2_bytes, Nat.mod_eq_of_lt hn]

theorem num4_bytes_of_lt {n : Nat} (hn : n < 4294967296) :
    num4 (byte (n / 65536 / 256)) (byte (n / 65536)) (byte (n / 256)) (byte n) = n := by
  rw [num4, num2_bytes, num2_bytes]
  omega

theorem readNum1_byte {n : Nat} (hn : n < 256) : readNum1 [byte n] = some n := by
  simp [readNum1, toNat_byte_of_lt hn]

theorem readNum2_bytes2 {n : Nat} (hn : n < 65536) : readNum2 (bytes2 n) = some n := by
  simp [readNum2, bytes2, num2_bytes_of_lt hn]

/-! ### Requests that are answered (R160, R163) -/

/-- The state a request's handling begins in, its floor queues put back, is the state before. -/
theorem openRequest_withFli (rest : List FloorFrame) (s : State) :
    { openRequest rest s with fli := s.fli } = s := rfl

/-- A refusal changes nothing but the queues. -/
theorem serveRequest_eq_refused {p : FloorFrame → Bool} {h : FloorFrame → State → State × Option Reply} {s : State}
    {f : FloorFrame} {rest : List FloorFrame} {r : Reply} (hs : Takes s f rest) (hp : p f = true)
    (hh : h f (openRequest rest s) = (openRequest rest s, some r)) :
    serveRequest p h s = answered s f rest r.code r.content :=
  (serveRequest_eq_answered hs hp hh rfl).trans (by rw [openRequest_withFli])

/-- A handling that answers without content, whatever it did to the queues. -/
theorem serveRequest_eq_closed {p : FloorFrame → Bool} {h : FloorFrame → State → State × Option Reply} {s t : State}
    {f : FloorFrame} {rest : List FloorFrame} {c : Code} (hs : Takes s f rest) (hp : p f = true)
    (hh : h f (openRequest rest s) = (t, some (Reply.bare c))) : serveRequest p h s = closed f c t := by
  have hfront := takesFront_of_takes hs
  obtain ⟨hrunning, hinbound, -, -⟩ := hs
  simp only [serveRequest, hrunning, hinbound, hfront, hp, hh, if_true, Bool.and_self]
  rfl

/-- A handling that leaves its answer owed. -/
theorem serveRequest_eq_owed {p : FloorFrame → Bool} {h : FloorFrame → State → State × Option Reply} {s t : State}
    {f : FloorFrame} {rest : List FloorFrame} (hs : Takes s f rest) (hp : p f = true)
    (hh : h f (openRequest rest s) = (t, none)) : serveRequest p h s = t := by
  have hfront := takesFront_of_takes hs
  obtain ⟨hrunning, hinbound, -, -⟩ := hs
  simp only [serveRequest, hrunning, hinbound, hfront, hp, hh, if_true, Bool.and_self]

theorem endsWithReply_closed (f : FloorFrame) (c : Code) (t : State) : EndsWithReply (closed f c t) f c := by
  simp [EndsWithReply, closed, reply, frameOf]

theorem endsWithReply_answered (t : State) (f : FloorFrame) (rest : List FloorFrame) (c : Code) :
    EndsWithReply (answered t f rest c []) f c := by
  simp [EndsWithReply, answered, reply, frameOf]

theorem withPayload_of_read {α : Type} {read : List Byte → Option α} {h : FloorFrame → α → State → State × Option Reply}
    {f : FloorFrame} {a : α} (hread : read f.payload = some a) (s : State) : withPayload read h f s = h f a s := by
  simp only [withPayload, hread]

theorem isKind_of_eq {f : FloorFrame} {k : Nat} (hk : f.kind = k) : isKind k f = true := by
  simp [isKind, hk]

theorem isKindWith_of_cons {f : FloorFrame} {k sel : Nat} {more : List Byte} (hk : f.kind = k)
    (hp : f.payload = byte sel :: more) (hsel : sel < 256) : isKindWith k sel f = true := by
  simp [isKindWith, FloorFrame.selector, hk, hp, toNat_byte_of_lt hsel]

theorem cellUnset_eq_false {s : State} (h : s.mc.identity.cell ≠ none) : cellUnset s = false := by
  simpa [cellUnset, Option.isSome_iff_ne_none] using h

theorem dispatchRefused_iff {s : State} :
    dispatchRefused s = true ↔ s.mc.identity.cell = none ∨ s.mode = .parked := by
  simp [dispatchRefused, cellUnset]

theorem dispatchRefused_of_inService {s : State} (h : InService s) : dispatchRefused s = false := by
  rw [← Bool.not_eq_true, dispatchRefused_iff]
  exact not_or.2 h

theorem inService_openRequest {s : State} (rest : List FloorFrame) (h : InService s) :
    InService (openRequest rest s) := h

/-! ### The five dispatch requests out of service (R163) -/

theorem readMove_isSome {l : List Byte} (h : l.length = 10) : ∃ q, readMove l = some q := by
  obtain ⟨a, l, rfl⟩ := List.exists_cons_of_length_eq_add_one h
  match l, h with
  | [_, _, _, _, _, _, _, _, _], _ => exact ⟨_, rfl⟩

theorem readNum1_isSome {l : List Byte} (h : l.length = 1) : ∃ n, readNum1 l = some n := by
  match l, h with
  | [_], _ => exact ⟨_, rfl⟩

theorem readNum2_isSome {l : List Byte} (h : l.length = 2) : ∃ n, readNum2 l = some n := by
  match l, h with
  | [_, _], _ => exact ⟨_, rfl⟩

/-- A request whose owner refuses it out of service, with a payload of the right length. -/
theorem dispatchRequest_refused {α : Type} {kind : Nat} {read : List Byte → Option α}
    {h : FloorFrame → α → State → State × Option Reply}
    (hh : ∀ f a t, dispatchRefused t = true → h f a t = refuse .refusedState t) {s : State} {f : FloorFrame}
    {rest : List FloorFrame} (hs : Takes s f rest) (hout : s.mc.identity.cell = none ∨ s.mode = .parked)
    (hkind : f.kind = kind) (hread : ∃ a, read f.payload = some a) :
    serveRequest (isKind kind) (withPayload read h) s = answered s f rest .refusedState [] := by
  obtain ⟨a, hread⟩ := hread
  refine serveRequest_eq_refused (r := Reply.bare .refusedState) hs (isKind_of_eq hkind) ?_
  rw [withPayload_of_read hread]
  exact hh f a _ (dispatchRefused_iff.2 hout)

theorem serveMove_outOfService (f : FloorFrame) (q : MoveRequest) (t : State) (h : dispatchRefused t = true) :
    serveMove f q t = refuse .refusedState t := by simp [serveMove, h]
theorem serveCancel_outOfService (f : FloorFrame) (m : Nat) (t : State) (h : dispatchRefused t = true) :
    serveCancel f m t = refuse .refusedState t := by simp [serveCancel, h]
theorem serveForget_outOfService (f : FloorFrame) (v : Nat) (t : State) (h : dispatchRefused t = true) :
    serveForget f v t = refuse .refusedState t := by simp [serveForget, h]
theorem serveClosure_outOfService (g : Nat → State → State) (f : FloorFrame) (i : Nat) (t : State)
    (h : dispatchRefused t = true) : serveClosure g f i t = refuse .refusedState t := by simp [serveClosure, h]

/-- Settles O11: each of the five begins with the test of R163. -/
theorem dispatchRequestsRefused : Obligations.DispatchRequestsRefused := by
  intro s f rest c kind size hs hout hc hkind hlen
  simp only [List.mem_cons, List.not_mem_nil, or_false, Prod.mk.injEq] at hc
  obtain ⟨rfl, rfl, rfl⟩ | ⟨rfl, rfl, rfl⟩ | ⟨rfl, rfl, rfl⟩ | ⟨rfl, rfl, rfl⟩ | ⟨rfl, rfl, rfl⟩ := hc
  · exact congrArg _ (dispatchRequest_refused serveMove_outOfService hs hout hkind (readMove_isSome hlen))
  · exact congrArg _ (dispatchRequest_refused serveCancel_outOfService hs hout hkind (readNum2_isSome hlen))
  · exact congrArg _ (dispatchRequest_refused serveForget_outOfService hs hout hkind (readNum1_isSome hlen))
  · exact congrArg _ (dispatchRequest_refused (serveClosure_outOfService _) hs hout hkind (readNum2_isSome hlen))
  · exact congrArg _ (dispatchRequest_refused (serveClosure_outOfService _) hs hout hkind (readNum2_isSome hlen))

/-! ### MOVE (R95, R96) -/

theorem readMove_payload {m c p d k : Nat} (h : MoveFields m c p d k) :
    readMove (movePayload m c p d k) = some { move := m, carrier := c, source := p, dest := d, cls := k } := by
  obtain ⟨hm, hc, hp, hd, hk⟩ := h
  have hcarrier := num4_bytes_of_lt hc
  simp only [readMove, movePayload, bytes2, bytes4, List.cons_append, List.nil_append, num2_bytes_of_lt hm,
    num2_bytes_of_lt hd, toNat_byte_of_lt hp, toNat_byte_of_lt hk, hcarrier]

theorem destinationReachable_iff {s : State} {n d : Nat} (hcell : s.mc.identity.cell = some n) :
    destinationReachable s d = true ↔ Reachable s n d := by
  have hlocal : d / 256 = n → d - n * 256 = d % 256 := by omega
  by_cases hn : d / 256 = n
  · simp only [Reachable, if_pos hn, hlocal hn]
    simp [destinationReachable, isOwnPort, cellOfPort, localOfPort, hcell, hn, Option.isSome_iff_ne_none]
  · simp only [Reachable, if_neg hn]
    simp [destinationReachable, isOwnPort, cellOfPort, hcell, Ne.symm hn, Option.isSome_iff_ne_none]

/-- A MOVE of readable fields is what `serveMove` makes of it. -/
theorem exec_move_of_serve {s t : State} {f : FloorFrame} {rest : List FloorFrame} {m c p d k : Nat} {code : Code}
    (hs : Takes s f rest) (hkind : f.kind = 0x20) (hpayload : f.payload = movePayload m c p d k)
    (hfields : MoveFields m c p d k)
    (hh : serveMove f { move := m, carrier := c, source := p, dest := d, cls := k } (openRequest rest s)
      = (t, some (Reply.bare code))) :
    exec .move s = .next (closed f code t) := by
  refine congrArg Host.Outcome.next (serveRequest_eq_closed hs (isKind_of_eq hkind) ?_)
  rw [withPayload_of_read (by rw [hpayload]; exact readMove_payload hfields), hh]

theorem closed_openRequest (f : FloorFrame) (rest : List FloorFrame) (c : Code) (s : State) :
    closed f c (openRequest rest s) = answered s f rest c [] := rfl

theorem setPassDue_eq (s : State) :
    setPassDue s = { s with asu := { s.asu with passDue := s.asu.passDue || decide (s.mode = .dispatching) } } := by
  unfold setPassDue
  split
  next h => simp [State.updAsu, h]
  next h => simp [h]

/-- The checks of R95 that come before the queue is looked at, passed. -/
structure MovePasses (s : State) (q : MoveRequest) : Prop where
  inService : dispatchRefused s = false
  inRange : ¬ (q.move = 0 ∨ 3 < q.cls ∨ 255 < q.source ∨ 16383 < q.dest)
  port : portRec s q.source ≠ none
  reachable : destinationReachable s q.dest = true

theorem serveMove_of_known {s : State} {q : MoveRequest} {x : Move} (h : MovePasses s q)
    (hx : findMove s q.move = some x) (f : FloorFrame) : serveMove f q s = adoptMove q x s := by
  rw [serveMove, if_neg (by simp [h.inService]), if_neg h.inRange, if_neg (by simp [h.port]),
    if_neg (by simp [h.reachable])]
  simp only [hx]

theorem serveMove_of_unknown {s : State} {q : MoveRequest} (h : MovePasses s q) (hx : findMove s q.move = none)
    (f : FloorFrame) :
    serveMove f q s =
      if q.carrier = 0 then refuse .refusedRange s
      else if Config.movesMax ≤ s.mq.moves.length then refuse .refusedFull s
      else done (setPassDue (appendMove q.record s)) := by
  rw [serveMove, if_neg (by simp [h.inService]), if_neg h.inRange, if_neg (by simp [h.port]),
    if_neg (by simp [h.reachable])]
  simp only [hx]

theorem movePasses_openRequest {s : State} {n m c p d k : Nat} (rest : List FloorFrame)
    (hcell : s.mc.identity.cell = some n) (hmode : s.mode ≠ .parked) (hm : 1 ≤ m) (hp : p < 256) (hd : d ≤ 16383)
    (hk : k ≤ 3) (hport : portRec s p ≠ none) (hreach : Reachable s n d) :
    MovePasses (openRequest rest s) { move := m, carrier := c, source := p, dest := d, cls := k } where
  inService := dispatchRefused_of_inService ⟨by simp [hcell], hmode⟩
  inRange := by dsimp only; omega
  port := hport
  reachable := (destinationReachable_iff (s := openRequest rest s) hcell).2 hreach

/-- Settles O7: every check of R95 passes and the queue is not full. -/
theorem moveTakenAsNew : Obligations.MoveTakenAsNew := by
  intro s f rest n m c p d k hs hkind hpayload hfields hcell hmode hm hc hd hk hport hreach hnew hroom
  obtain ⟨-, -, hp, -, -⟩ := id hfields
  have hpass := movePasses_openRequest (c := c) rest hcell hmode hm hp hd hk hport hreach
  have hnone : findMove (openRequest rest s) m = none := hnew
  have hroom' : ¬ Config.movesMax ≤ (openRequest rest s).mq.moves.length := Nat.not_le.2 hroom
  have hserve := serveMove_of_unknown hpass hnone f
  rw [if_neg (by dsimp only; omega), if_neg hroom', setPassDue_eq] at hserve
  exact exec_move_of_serve hs hkind hpayload hfields hserve

/-- Settles O8: the cases of R95 in the model's order and in the statement's are the same. -/
theorem moveRefusedInOrder : Obligations.MoveRefusedInOrder := by
  intro s f rest m c p d k code hs hkind hpayload hfields hcode
  obtain ⟨-, -, hp, -, -⟩ := id hfields
  rw [← closed_openRequest]
  refine exec_move_of_serve hs hkind hpayload hfields ?_
  change serveMove f _ (openRequest rest s) = refuse code (openRequest rest s)
  unfold moveRefusal at hcode
  split at hcode
  next hcell =>
    cases hcode
    exact serveMove_outOfService f _ _ (dispatchRefused_iff.2 (.inl hcell))
  next n hcell =>
    have hreach := destinationReachable_iff (s := openRequest rest s) (d := d) hcell
    split at hcode
    next hmode =>
      cases hcode
      exact serveMove_outOfService f _ _ (dispatchRefused_iff.2 (.inr hmode))
    next hmode =>
      have hin : dispatchRefused (openRequest rest s) = false := dispatchRefused_of_inService ⟨by simp [hcell], hmode⟩
      split at hcode
      next hrange =>
        cases hcode
        rw [serveMove, if_neg (by simp [hin]), if_pos hrange]
      next hrange =>
        split at hcode
        next hport =>
          cases hcode
          rw [serveMove, if_neg (by simp [hin]), if_neg hrange, if_pos (by exact Option.isNone_iff_eq_none.2 hport)]
        next hport =>
          split at hcode
          next hunreach =>
            cases hcode
            have hno : destinationReachable (openRequest rest s) d = false := by
              rw [← Bool.not_eq_true, hreach]
              exact hunreach
            rw [serveMove, if_neg (by simp [hin]), if_neg hrange,
              if_neg (by exact fun h => hport (Option.isNone_iff_eq_none.1 h)), if_pos (by simp [hno])]
          next hunreach =>
            have hpass : MovePasses (openRequest rest s) { move := m, carrier := c, source := p, dest := d, cls := k } :=
              { inService := hin, inRange := hrange, port := hport, reachable := hreach.2 (not_not.1 hunreach) }
            split at hcode
            next x hx =>
              have hx' : findMove (openRequest rest s) m = some x := hx
              split at hcode
              next => cases hcode
              next hadopt =>
                cases hcode
                rw [serveMove_of_known hpass hx', adoptMove, if_neg hadopt]
            next hx =>
              have hx' : findMove (openRequest rest s) m = none := hx
              rw [serveMove_of_unknown hpass hx']
              split at hcode
              next hc =>
                cases hcode
                rw [if_pos hc]
              next hc =>
                split at hcode
                next hfull =>
                  cases hcode
                  rw [if_neg hc, if_pos (by exact hfull)]
                next => cases hcode

end Sys2Proof.Machine

/-! PROOFS. BLOCK and UNBLOCK (R38 to R40), the LOADs (R2 to R9, R18, R20, R22, R173), and tasks that find no work. -/

namespace Sys2Proof.Machine

open Sys2Proof.Says

/-! ### Records of a table changed in place -/

section Tmod
variable {α : Type} {k : Nat} {a : α} {t : Table α}

theorem eq_of_tget_of_mem {p : Nat × α} (ht : (t.map (·.1)).Pairwise (· < ·)) (ha : tget k t = some a) (hp : p ∈ t)
    (hk : p.1 = k) : p.2 = a := by
  obtain ⟨j, b⟩ := p
  obtain rfl : j = k := hk
  exact Option.some.inj ((tget_of_mem ht hp).symm.trans ha)

theorem tmod_congr_of_tget {f g : α → α} (ht : (t.map (·.1)).Pairwise (· < ·)) (ha : tget k t = some a)
    (hfg : f a = g a) : tmod k f t = tmod k g t := by
  refine List.map_congr_left fun p hp => ?_
  split
  next hk => rw [eq_of_tget_of_mem ht ha hp hk, hfg]
  next => rfl

theorem tmod_id (k : Nat) (t : Table α) : tmod k id t = t := by
  refine (List.map_congr_left fun p _ => ?_).trans (List.map_id t)
  split <;> rfl

theorem tmod_of_fixed {f : α → α} (ht : (t.map (·.1)).Pairwise (· < ·)) (ha : tget k t = some a) (hf : f a = a) :
    tmod k f t = t :=
  (tmod_congr_of_tget (g := id) ht ha hf).trans (tmod_id k t)

end Tmod

theorem modRes_eq_setRes {i : Nat} {s : State} {r : SegRes} {g : Res → Res} {q : Res}
    (hsorted : (s.srt.map (·.1)).Pairwise (· < ·)) (hr : resRec s i = some r) (hq : g r.res = q) :
    modRes i g s = setRes i q s :=
  congrArg (fun t => { s with srt := t }) (tmod_congr_of_tget hsorted hr (by rw [hq]))

/-! ### Tasks that find no work (R25, R35) -/

theorem runTasks_nil (n : Nat) (s : State) : runTasks n [] s = s := by
  cases n <;> rfl

theorem runTasks_idle {s : State} : ∀ (n : Nat) (ts : List Task), (∀ t ∈ ts, taskStep t s = ([], s)) →
    runTasks n ts s = s
  | 0, _, _ => rfl
  | n + 1, [], _ => rfl
  | n + 1, t :: ts, h => by
    have hrest := runTasks_idle n ts fun u hu => h u (List.mem_cons_of_mem t hu)
    simpa [runTasks, h t List.mem_cons_self] using hrest

theorem run_idle {s : State} {ts : List Task} (h : ∀ t ∈ ts, taskStep t s = ([], s)) : run ts s = s :=
  runTasks_idle _ ts h

theorem taskStep_of_not_dispatching {s : State} (h : s.mode ≠ .dispatching) (t : Task) : taskStep t s = ([], s) := by
  unfold taskStep
  exact if_neg h

theorem winner_eq_none {s : State} {i : Nat} (h : waitsOf s i = []) : winner s i = none := by
  simp [winner, h, leastBy]

theorem arbitrate_of_no_waits {s : State} {i : Nat} (h : waitsOf s i = []) : arbitrate i s = ([], s) := by
  have hw := winner_eq_none h
  unfold arbitrate
  split
  · simp [hw]
  · simp [hw]
  · rfl

theorem taskStep_arb_of_no_waits {s : State} {i : Nat} (h : waitsOf s i = []) : taskStep (.arb i) s = ([], s) := by
  unfold taskStep
  split
  · exact arbitrate_of_no_waits h
  · rfl

/-! ### BLOCK and UNBLOCK -/

theorem segment_of_isOwn {s : State} {i : Nat} (h : isOwn s i = true) :
    (segment s i).isNone = false ∧ isForeign s i = false := by
  unfold isOwn at h
  unfold isForeign
  cases hseg : segment s i with
  | none => simp [hseg] at h
  | some r => simpa [hseg] using h

theorem serveClosure_of_own {g : Nat → State → State} {s : State} {i : Nat} (hin : InService s) (hi : i ≤ 1023)
    (hown : isOwn s i = true) (f : FloorFrame) : serveClosure g f i s = done (g i s) := by
  obtain ⟨hseg, hforeign⟩ := segment_of_isOwn hown
  rw [serveClosure, if_neg (by simp [dispatchRefused_of_inService hin]), if_neg (by simp [hseg]; omega),
    if_neg (by simp [hforeign])]

/-- A closure of an own segment is its change of the segment, and the REPLY. -/
theorem closure_closed {kind : Nat} {g : Nat → State → State} {s : State} {f : FloorFrame} {rest : List FloorFrame}
    {i : Nat} (hs : Takes s f rest) (hkind : f.kind = kind) (hpayload : f.payload = bytes2 i) (hi : i ≤ 1023)
    (hin : InService s) (hown : isOwn s i = true) :
    serveRequest (isKind kind) (withPayload readNum2 (serveClosure g)) s
      = closed f .done (g i (openRequest rest s)) := by
  refine serveRequest_eq_closed hs (isKind_of_eq hkind) ?_
  rw [withPayload_of_read (by rw [hpayload]; exact readNum2_bytes2 (by omega))]
  exact serveClosure_of_own (s := openRequest rest s) hin hi hown f

theorem exec_block_of_res {s : State} {f : FloorFrame} {rest : List FloorFrame} {i : Nat} {r : SegRes} {q : Res}
    (hs : Takes s f rest) (hkind : f.kind = 0x23) (hpayload : f.payload = bytes2 i) (hi : i ≤ 1023) (hin : InService s)
    (hown : isOwn s i = true) (hr : resRec s i = some r) (hsorted : (s.srt.map (·.1)).Pairwise (· < ·))
    (hq : blockRes r.res = q) : exec .block s = .next (answered (setRes i q s) f rest .done []) := by
  refine congrArg Host.Outcome.next ((closure_closed hs hkind hpayload hi hin hown).trans ?_)
  rw [modRes_eq_setRes (s := openRequest rest s) hsorted hr hq]
  rfl

theorem unblock_of_closed {s : State} {i : Nat} {r : SegRes} (hr : resRec s i = some r) (hres : r.res ≠ .blocked) :
    unblock i s = modRes i unblockRes s := by
  rw [unblock, if_neg (by simp [resOf, hr, hres])]

theorem exec_unblock_of_res {s : State} {f : FloorFrame} {rest : List FloorFrame} {i : Nat} {r : SegRes} {q : Res}
    (hs : Takes s f rest) (hkind : f.kind = 0x24) (hpayload : f.payload = bytes2 i) (hi : i ≤ 1023) (hin : InService s)
    (hown : isOwn s i = true) (hr : resRec s i = some r) (hsorted : (s.srt.map (·.1)).Pairwise (· < ·))
    (hres : r.res ≠ .blocked) (hq : unblockRes r.res = q) :
    exec .unblock s = .next (answered (setRes i q s) f rest .done []) := by
  refine congrArg Host.Outcome.next ((closure_closed hs hkind hpayload hi hin hown).trans ?_)
  rw [unblock_of_closed (s := openRequest rest s) hr hres, modRes_eq_setRes (s := openRequest rest s) hsorted hr hq]
  rfl

/-- A BLOCKED segment becomes FREE and is arbitrated. -/
theorem exec_unblock_of_blocked {s : State} {f : FloorFrame} {rest : List FloorFrame} {i : Nat} {r : SegRes}
    (hs : Takes s f rest) (hkind : f.kind = 0x24) (hpayload : f.payload = bytes2 i) (hi : i ≤ 1023) (hin : InService s)
    (hown : isOwn s i = true) (hr : resRec s i = some r) (hsorted : (s.srt.map (·.1)).Pairwise (· < ·))
    (hres : r.res = .blocked) :
    exec .unblock s = .next (closed f .done (run [.arb i] (setRes i .free (openRequest rest s)))) := by
  refine congrArg Host.Outcome.next ((closure_closed hs hkind hpayload hi hin hown).trans ?_)
  have hblocked : resOf (openRequest rest s) i = some .blocked := by
    change (resRec s i).map (·.res) = some .blocked
    rw [hr, Option.map_some, hres]
  have hq : unblockRes r.res = .free := by rw [hres]; rfl
  rw [unblock, if_pos hblocked, modRes_eq_setRes (s := openRequest rest s) hsorted hr hq]
  rfl

theorem waitsOf_eq (s : State) (i : Nat) : waitsOf s i = ((resRec s i).map (·.waits)).getD [] := by
  unfold waitsOf
  cases resRec s i <;> rfl

theorem waitsOf_setRes (i j : Nat) (q : Res) (s : State) : waitsOf (setRes i q s) j = waitsOf s j := by
  simp only [waitsOf_eq, resRec, setRes, State.updSrt_srt, tget_tmod]
  split
  · cases tget j s.srt <;> rfl
  · rfl

theorem setRes_same {s : State} {i : Nat} {r : SegRes} (hsorted : (s.srt.map (·.1)).Pairwise (· < ·))
    (hr : resRec s i = some r) : setRes i r.res s = s :=
  congrArg (fun t => { s with srt := t }) (tmod_of_fixed hsorted hr rfl)

theorem closuresTaken : Says.ClosuresTaken := by
  intro s f rest i r hs hpayload hi hin hown hr hsorted
  have hsame : setRes i r.res s = s := setRes_same hsorted hr
  refine ⟨fun hkind => ?block, fun hkind => ?unblock⟩
  case block =>
    have hblock {q : Res} (hq : blockRes r.res = q) :=
      exec_block_of_res hs hkind hpayload hi hin hown hr hsorted hq
    refine ⟨fun h => hblock (by rw [h]; rfl), fun v h => hblock (by rw [h]; rfl), fun v n h => hblock (by rw [h]; rfl), ?_⟩
    intro h
    have hkept : blockRes r.res = r.res := by
      obtain h | ⟨v, k, n, h⟩ := h <;> rw [h] <;> rfl
    exact (hblock hkept).trans (by rw [hsame])
  case unblock =>
    have hunblock {q : Res} (hres : r.res ≠ .blocked) (hq : unblockRes r.res = q) :=
      exec_unblock_of_res hs hkind hpayload hi hin hown hr hsorted hres hq
    have hfree (h : r.res = .blocked) := exec_unblock_of_blocked hs hkind hpayload hi hin hown hr hsorted h
    refine ⟨hfree, ?idle, fun v n h => hunblock (by rw [h]; nofun) (by rw [h]; rfl),
      fun v n h => hunblock (by rw [h]; nofun) (by rw [h]; rfl), ?kept⟩
    case idle =>
      intro h hwaits
      have hnone : waitsOf (setRes i .free (openRequest rest s)) i = [] := by
        rw [waitsOf_setRes]
        change waitsOf s i = []
        simp [waitsOf, hr, hwaits]
      rw [hfree h, run_idle (by simpa using taskStep_arb_of_no_waits hnone)]
      rfl
    case kept =>
      intro h
      have hopen : r.res ≠ .blocked := by
        obtain h | ⟨v, h⟩ | ⟨v, n, h⟩ := h <;> rw [h] <;> nofun
      have hkept : unblockRes r.res = r.res := by
        obtain h | ⟨v, h⟩ | ⟨v, n, h⟩ := h <;> rw [h] <;> rfl
      exact (hunblock hopen hkept).trans (by rw [hsame])

/-- The two refusals of a closure, whatever its change is. -/
theorem closure_refused {kind : Nat} {g : Nat → State → State} {s : State} {f : FloorFrame} {rest : List FloorFrame}
    {i : Nat} (hs : Takes s f rest) (hkind : f.kind = kind) (hpayload : f.payload = bytes2 i) (hi : i < 65536)
    (hin : InService s) :
    (1023 < i ∨ segment s i = none →
      serveRequest (isKind kind) (withPayload readNum2 (serveClosure g)) s = answered s f rest .refusedRange []) ∧
    (i ≤ 1023 → isForeign s i = true →
      serveRequest (isKind kind) (withPayload readNum2 (serveClosure g)) s = answered s f rest .refusedState []) := by
  have hserve {c : Code} (h : serveClosure g f i (openRequest rest s) = refuse c (openRequest rest s)) :
      serveRequest (isKind kind) (withPayload readNum2 (serveClosure g)) s = answered s f rest c [] :=
    serveRequest_eq_refused (r := Reply.bare c) hs (isKind_of_eq hkind)
      ((withPayload_of_read (by rw [hpayload]; exact readNum2_bytes2 hi) _).trans h)
  have hstate : ¬ dispatchRefused (openRequest rest s) = true := by
    simp [dispatchRefused_of_inService (inService_openRequest rest hin)]
  refine ⟨fun h => hserve ?_, fun hle h => hserve ?_⟩
  · have hrange : 1023 < i ∨ (segment (openRequest rest s) i).isNone = true := h.imp id Option.isNone_iff_eq_none.2
    rw [serveClosure, if_neg hstate, if_pos hrange]
  · have hloaded : (segment s i).isNone = false := by
      unfold isForeign at h
      cases hseg : segment s i with
      | none => simp [hseg] at h
      | some r => rfl
    have hrange : ¬ (1023 < i ∨ (segment (openRequest rest s) i).isNone = true) := by
      rintro (hlt | hnone)
      · exact absurd hlt hle.not_gt
      · exact Bool.false_ne_true (hloaded.symm.trans hnone)
    rw [serveClosure, if_neg hstate, if_neg hrange, if_pos (show isForeign (openRequest rest s) i = true from h)]

theorem closuresRefused : Says.ClosuresRefused := by
  intro s f rest c kind i hc hs hkind hpayload hi hin
  simp only [List.mem_cons, List.not_mem_nil, or_false, Prod.mk.injEq] at hc
  obtain ⟨rfl, rfl⟩ | ⟨rfl, rfl⟩ := hc
  · obtain ⟨hrange, hforeign⟩ := closure_refused (g := fun i => modRes i blockRes) hs hkind hpayload hi hin
    exact ⟨fun h => congrArg _ (hrange h), fun hle h => congrArg _ (hforeign hle h)⟩
  · obtain ⟨hrange, hforeign⟩ := closure_refused (g := unblock) hs hkind hpayload hi hin
    exact ⟨fun h => congrArg _ (hrange h), fun hle h => congrArg _ (hforeign hle h)⟩

/-- Settles O13. -/
theorem blockAndUnblock : Obligations.BlockAndUnblock := ⟨closuresTaken, closuresRefused⟩

end Sys2Proof.Machine

/-! PROOFS. The LOADs (R2 to R9, R18, R20, R22, R173). -/

namespace Sys2Proof.Machine

open Sys2Proof.Says

/-! ### The checks of R2 -/

theorem readLoad_payload {sel i size : Nat} {record : List Byte} (hi : i < 65536) (hlen : record.length = size) :
    readLoad size (loadPayload sel i record) = some (i, record) := by
  simp only [readLoad, loadPayload, bytes2, List.cons_append, List.nil_append, hlen, if_true, num2_bytes_of_lt hi]

theorem isKindWith_load {f : FloorFrame} {sel i : Nat} {record : List Byte} (hkind : f.kind = 0x25)
    (hpayload : f.payload = loadPayload sel i record) (hsel : sel < 256) : isKindWith kindLoad sel f = true :=
  isKindWith_of_cons hkind hpayload hsel

/-- The checks of R2 that a LOAD with selector `sel` meets before its record. -/
structure LoadPasses (s : State) (sel : Nat) : Prop where
  cell : s.mc.identity.cell ≠ none
  check : s.mc.check = none
  mode : sel < 5 → s.mode = .parked

theorem serveLoad_of_passes {size sel bound i : Nat} {h : Nat → List Byte → State → State × Option Reply} {f : FloorFrame}
    {record : List Byte} {s : State} (hread : readLoad size f.payload = some (i, record)) (hs : LoadPasses s sel) :
    serveLoad size (sel < 5) bound h f s = if bound ≤ i then refuse .refusedRange s else h i record s := by
  have hmode : (decide (sel < 5) && s.mode != .parked) = false := by
    rw [Bool.and_eq_false_iff, decide_eq_false_iff_not]
    by_cases hsel : sel < 5
    · exact .inr (by simp [hs.mode hsel])
    · exact .inl hsel
  simp only [serveLoad, hread, cellUnset_eq_false hs.cell, checkRunning, hs.check, hmode, Option.isSome_none,
    Bool.false_eq_true, if_false]

/-- A LOAD that passes the checks is what is done with its record. -/
theorem loadRow_eq_answered {sel bound i size : Nat} {h : Nat → List Byte → State → State × Option Reply} {s t : State}
    {f : FloorFrame} {rest : List FloorFrame} {record : List Byte} {r : Reply} (hs : Takes s f rest)
    (hkind : f.kind = 0x25) (hpayload : f.payload = loadPayload sel i record) (hsel : sel < 256)
    (hsize : loadRecordSize sel = some size) (hlen : record.length = size) (hi : i < 65536) (hpass : LoadPasses s sel)
    (hbound : i < bound) (hh : h i record (openRequest rest s) = (t, some r)) (hfli : t.fli = (openRequest rest s).fli) :
    loadRow sel bound h s = answered { t with fli := s.fli } f rest r.code r.content := by
  have hread : readLoad ((loadRecordSize sel).getD 0) f.payload = some (i, record) := by
    rw [hsize, hpayload]
    exact readLoad_payload hi hlen
  refine serveRequest_eq_answered hs (isKindWith_load hkind hpayload hsel) ?_ hfli
  rw [serveLoad_of_passes hread (s := openRequest rest s) { hpass with }, if_neg (Nat.not_le.2 hbound), hh]

/-- The refusals of R2 in their order. -/
theorem exec_load_refused {c : Instr} {sel bound i size : Nat} {h : Nat → List Byte → State → State × Option Reply}
    {s : State} {f : FloorFrame} {rest : List FloorFrame} {record : List Byte} (hs : Takes s f rest)
    (hkind : f.kind = 0x25) (hpayload : f.payload = loadPayload sel i record) (hlen : record.length = size)
    (hi : i < 65536) (hexec : exec c s = .next (loadRow sel bound h s)) (hsel : sel < 256)
    (hsize : loadRecordSize sel = some size) :
    (s.mc.identity.cell = none → exec c s = .next (answered s f rest .refusedState [])) ∧
    (s.mc.identity.cell ≠ none → s.mc.check ≠ none → exec c s = .next (answered s f rest .busy [])) ∧
    (s.mc.identity.cell ≠ none → s.mc.check = none → sel ≤ 4 → s.mode ≠ .parked →
      exec c s = .next (answered s f rest .refusedState [])) ∧
    (s.mc.identity.cell ≠ none → s.mc.check = none → (sel ≤ 4 → s.mode = .parked) → bound ≤ i →
      exec c s = .next (answered s f rest .refusedRange [])) := by
  have hread : readLoad ((loadRecordSize sel).getD 0) f.payload = some (i, record) := by
    rw [hsize, hpayload]
    exact readLoad_payload hi hlen
  have hserve {c' : Code} (hc : serveLoad ((loadRecordSize sel).getD 0) (sel < 5) bound h f (openRequest rest s)
      = refuse c' (openRequest rest s)) : exec c s = .next (answered s f rest c' []) :=
    hexec.trans (congrArg Host.Outcome.next
      (serveRequest_eq_refused (r := Reply.bare c') hs (isKindWith_load hkind hpayload hsel) hc))
  refine ⟨fun hcell => hserve ?_, fun hcell hcheck => hserve ?_, fun hcell hcheck hle hmode => hserve ?_,
    fun hcell hcheck hmode hbound => hserve ?_⟩
  · have hunset : cellUnset (openRequest rest s) = true := Option.isNone_iff_eq_none.2 hcell
    simp only [serveLoad, hread, hunset, if_true]
  · have hset : cellUnset (openRequest rest s) = false := cellUnset_eq_false hcell
    have hbusy : checkRunning (openRequest rest s) = true := Option.isSome_iff_ne_none.2 hcheck
    simp only [serveLoad, hread, hset, hbusy, Bool.false_eq_true, if_false, if_true]
  · have hset : cellUnset (openRequest rest s) = false := cellUnset_eq_false hcell
    have hfree : checkRunning (openRequest rest s) = false := by simpa [checkRunning] using hcheck
    have hout : (decide (sel < 5) && (openRequest rest s).mode != .parked) = true := by
      rw [Bool.and_eq_true, decide_eq_true_eq, bne_iff_ne]
      exact ⟨by omega, hmode⟩
    simp only [serveLoad, hread, hset, hfree, hout, Bool.false_eq_true, if_false, if_true]
  · have hpass : LoadPasses (openRequest rest s) sel := ⟨hcell, hcheck, fun hlt => hmode (by omega)⟩
    rw [serveLoad_of_passes hread hpass, if_pos hbound]

/-- Settles O17: the eight rows share the checks. -/
theorem loadsRefusedInOrder : Obligations.LoadsRefusedInOrder := by
  intro s f rest c sel size bound i record hc hs hkind hpayload hlen hi
  simp only [List.mem_cons, List.not_mem_nil, or_false, Prod.mk.injEq] at hc
  obtain ⟨rfl, rfl, rfl, rfl⟩ | ⟨rfl, rfl, rfl, rfl⟩ | ⟨rfl, rfl, rfl, rfl⟩ | ⟨rfl, rfl, rfl, rfl⟩ |
    ⟨rfl, rfl, rfl, rfl⟩ | ⟨rfl, rfl, rfl, rfl⟩ | ⟨rfl, rfl, rfl, rfl⟩ | ⟨rfl, rfl, rfl, rfl⟩ := hc
  all_goals exact exec_load_refused hs hkind hpayload hlen hi rfl (by decide) rfl

/-! ### LOADs that are taken -/

theorem takesLayout_passes {s : State} {f : FloorFrame} {rest : List FloorFrame} {sel i : Nat} {record : List Byte}
    (h : TakesLayout s f rest sel i record) : LoadPasses s sel := by
  obtain ⟨-, -, -, hcell, hcheck, hmode⟩ := h
  exact ⟨hcell, hcheck, fun _ => hmode⟩

theorem storeLayout_of_read {α : Type} {read : List Byte → Option α} {put : Nat → α → Layout → Layout} {i : Nat}
    {record : List Byte} {a : α} (h : read record = some a) (s : State) :
    storeLayout read put i record s = done (s.updLayout fun l => { put i a l with validated := false }) := by
  simp only [storeLayout, h]

theorem storeLayout_refused {α : Type} {read : List Byte → Option α} {put : Nat → α → Layout → Layout} {i : Nat}
    {record : List Byte} (h : read record = none) (s : State) :
    storeLayout read put i record s = refuse .refusedRange s := by
  simp only [storeLayout, h]

/-- A layout LOAD of an index in the table: what `h` makes of the record, answered. -/
theorem exec_layoutLoad {c : Instr} {sel bound i size : Nat} {h : Nat → List Byte → State → State × Option Reply}
    {s t : State} {f : FloorFrame} {rest : List FloorFrame} {record : List Byte} {code : Code}
    (hs : TakesLayout s f rest sel i record) (hexec : exec c s = .next (loadRow sel bound h s)) (hlen : record.length = size)
    (hi : i < bound) (hh : h i record (openRequest rest s) = (t, some (Reply.bare code)))
    (hfli : t.fli = (openRequest rest s).fli) (hsize : loadRecordSize sel = some size := by rfl)
    (hsel : sel < 256 := by decide) (hbound : bound ≤ 65536 := by decide) :
    exec c s = .next (answered { t with fli := s.fli } f rest code []) := by
  have hpass := takesLayout_passes hs
  obtain ⟨htakes, hkind, hpayload, -⟩ := hs
  exact hexec.trans (congrArg Host.Outcome.next
    (loadRow_eq_answered htakes hkind hpayload hsel hsize hlen (by omega) hpass hi hh hfli))

theorem exec_layoutRefused {c : Instr} {sel bound i size : Nat} {h : Nat → List Byte → State → State × Option Reply}
    {s : State} {f : FloorFrame} {rest : List FloorFrame} {record : List Byte} {code : Code}
    (hs : TakesLayout s f rest sel i record) (hexec : exec c s = .next (loadRow sel bound h s)) (hlen : record.length = size)
    (hi : i < bound) (hh : h i record (openRequest rest s) = refuse code (openRequest rest s))
    (hsize : loadRecordSize sel = some size := by rfl) (hsel : sel < 256 := by decide)
    (hbound : bound ≤ 65536 := by decide) : exec c s = .next (answered s f rest code []) :=
  exec_layoutLoad (t := openRequest rest s) hs hexec hlen hi hh rfl hsize hsel hbound

/-- A layout LOAD whose record is read. -/
theorem exec_layoutStored {α : Type} {c : Instr} {sel bound i size : Nat} {read : List Byte → Option α}
    {put : Nat → α → Layout → Layout} {s : State} {f : FloorFrame} {rest : List FloorFrame} {record : List Byte} {a : α}
    (hs : TakesLayout s f rest sel i record) (hexec : exec c s = .next (loadRow sel bound (storeLayout read put) s))
    (hlen : record.length = size) (hi : i < bound) (hread : read record = some a)
    (hsize : loadRecordSize sel = some size := by rfl) (hsel : sel < 256 := by decide)
    (hbound : bound ≤ 65536 := by decide) :
    exec c s = .next (answered { s with layout := { put i a s.layout with validated := false } } f rest .done []) :=
  exec_layoutLoad hs hexec hlen hi (storeLayout_of_read hread _) rfl hsize hsel hbound

theorem exec_tableLoad {c : Instr} {sel bound i size : Nat} {h : Nat → List Byte → State → State × Option Reply}
    {s t : State} {f : FloorFrame} {rest : List FloorFrame} {record : List Byte} {code : Code}
    (hs : TakesTable s f rest sel i record) (hexec : exec c s = .next (loadRow sel bound h s)) (hlen : record.length = size)
    (hi : i < bound) (hh : h i record (openRequest rest s) = (t, some (Reply.bare code)))
    (hfli : t.fli = (openRequest rest s).fli) (hsize : loadRecordSize sel = some size := by rfl)
    (hsel : sel < 256 := by decide) (hlate : 5 ≤ sel := by decide) (hbound : bound ≤ 65536 := by decide) :
    exec c s = .next (answered { t with fli := s.fli } f rest code []) := by
  obtain ⟨htakes, hkind, hpayload, hcell, hcheck⟩ := hs
  exact hexec.trans (congrArg Host.Outcome.next
    (loadRow_eq_answered htakes hkind hpayload hsel hsize hlen (by omega) ⟨hcell, hcheck, fun hlt => by omega⟩ hi hh hfli))

/-! ### SEGMENT (R3, R22) -/

theorem length_segFields (x : SegFields) : x.bytes.length = 10 := rfl

theorem restingRes_eq (s : State) (r : SegmentRec) :
    parkedRes s r = { res := restingRes s.mc.identity.cell r.form, waits := [] } := by
  unfold parkedRes isForeignRec restingRes
  cases r.form with
  | boundary o => by_cases h : s.mc.identity.cell = some o <;> simp [h]
  | plain | diverge _ | merge _ => rfl

theorem readSegForm_iff {x : SegFields} {form : SegForm} :
    readSegForm x.kind x.succ1 x.mainPred x.owner = some form ↔ x.HasForm form := by
  unfold readSegForm SegFields.HasForm
  split <;> simp_all [eq_comm]

theorem readSegForm_eq_none {k : Nat} (a b c : Nat) (h : 5 ≤ k) : readSegForm k a b c = none := by
  unfold readSegForm
  split <;> first | omega | rfl

theorem readSegment_absent {x : SegFields} (hkind : x.kind = 0) : readSegment x.bytes = some none := by
  simp [readSegment, SegFields.bytes, bytes2, toNat_byte, hkind]

theorem readSegment_carried {x : SegFields} (hx : x.Carried) (hkind : x.kind ≠ 0) :
    readSegment x.bytes = (readSegForm x.kind x.succ1 x.mainPred x.owner).bind fun form =>
      if x.zone ≤ 31 ∧ x.succ0 ≤ 1023 ∧ x.speed ≤ 7 then
        some (some { form := form, zone := x.zone, succ0 := x.succ0, speed := x.speed })
      else none := by
  obtain ⟨hk, hzone, hsucc0, hsucc1, hmain, hspeed, howner⟩ := hx
  simp only [readSegment, SegFields.bytes, bytes2, List.cons_append, List.nil_append, toNat_byte_of_lt hk,
    toNat_byte_of_lt hzone, toNat_byte_of_lt hspeed, toNat_byte_of_lt howner, num2_bytes_of_lt hsucc0,
    num2_bytes_of_lt hsucc1, num2_bytes_of_lt hmain, if_neg hkind]
  cases readSegForm x.kind x.succ1 x.mainPred x.owner <;> rfl

theorem loadSegmentRecord_of_read {i : Nat} {record : List Byte} {o : Option SegmentRec} (h : readSegment record = some o)
    (s : State) : loadSegmentRecord i record s =
      done { s with
        layout := { s.layout with segs := putOrDrop i o s.layout.segs, validated := false }
        srt := putOrDrop i (o.map fun r => { res := restingRes s.mc.identity.cell r.form, waits := [] }) s.srt } := by
  simp only [loadSegmentRecord, h]
  cases o with
  | none => rfl
  | some r => simp only [Option.map_some, restingRes_eq]; rfl

theorem loadSegmentRecord_refused {i : Nat} {record : List Byte} (h : readSegment record = none) (s : State) :
    loadSegmentRecord i record s = refuse .refusedRange s := by
  simp only [loadSegmentRecord, h]

/-- Settles O14: a record is read exactly when its fields fit and its kind has a form. -/
theorem loadSegmentStores : Obligations.LoadSegmentStores := by
  intro s f rest i x hs hi
  have hlt : i < 1024 := by omega
  have hrefused (hread : readSegment x.bytes = none) :
      exec .loadSegment s = .next (answered s f rest .refusedRange []) :=
    exec_layoutRefused hs rfl (length_segFields x) hlt (loadSegmentRecord_refused hread _)
  refine ⟨fun form hfits hform => ?stored, fun hkind => ?removed, fun hkind hlate => hrefused ?unknown,
    fun hcarried hlow hhigh hbad => hrefused ?outOfRange⟩
  case stored =>
    obtain ⟨hk, hzone, hsucc0, hsucc1, hmain, hspeed, howner⟩ := hfits
    have hcarried : x.Carried := ⟨hk, by omega, by omega, hsucc1, hmain, by omega, howner⟩
    have hpresent : x.kind ≠ 0 := by
      rintro h
      simp [SegFields.HasForm, h] at hform
    have hread := readSegment_carried hcarried hpresent
    rw [readSegForm_iff.2 hform, Option.bind_some, if_pos ⟨hzone, hsucc0, hspeed⟩] at hread
    exact exec_layoutLoad hs rfl (length_segFields x) hlt (loadSegmentRecord_of_read hread _) rfl
  case removed =>
    exact exec_layoutLoad hs rfl (length_segFields x) hlt (loadSegmentRecord_of_read (readSegment_absent hkind) _) rfl
  case unknown =>
    simp only [readSegment, SegFields.bytes, bytes2, List.cons_append, List.nil_append, toNat_byte_of_lt hkind,
      readSegForm_eq_none _ _ _ hlate, if_neg (show x.kind ≠ 0 by omega)]
  case outOfRange =>
    rw [readSegment_carried hcarried (by omega)]
    cases hform : readSegForm x.kind x.succ1 x.mainPred x.owner with
    | none => rfl
    | some form =>
      obtain ⟨hk, -, -, hsucc1, hmain, -, howner⟩ := hcarried
      rw [Option.bind_some, if_neg]
      rintro ⟨hzone, hsucc0, hspeed⟩
      exact hbad ⟨⟨hk, hzone, hsucc0, hsucc1, hmain, hspeed, howner⟩, form, readSegForm_iff.1 hform⟩

/-! ### ZONE, PORT, ROUTE and EXIT (R5, R6, R7, R9) -/

theorem readZone_bytes {p cap e a n q1 q2 q3 q4 ov : Nat} (hp : p < 256) (hcap : cap < 256) (he : e < 65536)
    (ha : a < 65536) (hn : n < 256) (h1 : q1 < 65536) (h2 : q2 < 65536) (h3 : q3 < 65536) (h4 : q4 < 65536)
    (hov : ov < 256) :
    readZone ([byte p, byte cap] ++ bytes2 e ++ bytes2 a ++ [byte n] ++ bytes2 q1 ++ bytes2 q2 ++ bytes2 q3 ++ bytes2 q4
        ++ [byte ov]) =
      if p = 0 then some none
      else if p = 1 then
        if 1 ≤ cap ∧ cap ≤ 64 ∧ e ≤ 1023 ∧ a ≤ 1023 ∧ n ≤ 4 ∧ (∀ q ∈ [q1, q2, q3, q4].take n, q ≤ 1023)
            ∧ (ov = 255 ∨ ov ≤ 31) then
          some (some { capacity := cap, entrySeg := e, anchor := a, park := [q1, q2, q3, q4].take n
                       overflow := if ov = 255 then none else some ov })
        else none
      else none := by
  simp only [readZone, bytes2, List.cons_append, List.nil_append, toNat_byte_of_lt hp, toNat_byte_of_lt hcap,
    toNat_byte_of_lt hn, toNat_byte_of_lt hov, num2_bytes_of_lt he, num2_bytes_of_lt ha, num2_bytes_of_lt h1,
    num2_bytes_of_lt h2, num2_bytes_of_lt h3, num2_bytes_of_lt h4]

theorem loadZoneStores : Says.LoadZoneStores := by
  intro s f rest z p cap e a n q1 q2 q3 q4 ov hs hz hp hcap he ha hn h1 h2 h3 h4 hov
  have hread := readZone_bytes hp hcap he ha hn h1 h2 h3 h4 hov
  have hlt : z < 32 := by omega
  by_cases habsent : p = 0
  · rw [if_pos habsent] at hread ⊢
    exact exec_layoutStored (c := .loadZone) hs rfl rfl hlt hread
  rw [if_neg habsent] at hread ⊢
  by_cases hpresent : p = 1 ∧ 1 ≤ cap ∧ cap ≤ 64 ∧ e ≤ 1023 ∧ a ≤ 1023 ∧ n ≤ 4 ∧ (∀ q ∈ [q1, q2, q3, q4].take n, q ≤ 1023)
      ∧ (ov ≤ 31 ∨ ov = 255)
  · obtain ⟨hone, hc1, hc2, he', ha', hn', hq, ho⟩ := id hpresent
    rw [if_pos hone, if_pos ⟨hc1, hc2, he', ha', hn', hq, ho.symm⟩] at hread
    rw [if_pos hpresent]
    exact exec_layoutStored (c := .loadZone) hs rfl rfl hlt hread
  · have hnone : readZone _ = none := hread.trans (by
      split
      next hone =>
        refine if_neg fun ⟨hc1, hc2, he', ha', hn', hq, ho⟩ => ?_
        exact hpresent ⟨hone, hc1, hc2, he', ha', hn', hq, ho.symm⟩
      next => rfl)
    rw [if_neg hpresent]
    exact exec_layoutRefused (c := .loadZone) hs rfl rfl hlt (storeLayout_refused hnone _)

theorem readPort_bytes {p g k : Nat} (hp : p < 256) (hg : g < 65536) (hk : k < 256) :
    readPort ([byte p] ++ bytes2 g ++ [byte k]) =
      if p = 0 then some none
      else if p = 1 ∧ g ≤ 1023 ∧ k ≤ 1 then some (some { segment := g, kind := if k = 0 then .load else .buffer })
      else none := by
  simp only [readPort, bytes2, List.cons_append, List.nil_append, toNat_byte_of_lt hp, toNat_byte_of_lt hk,
    num2_bytes_of_lt hg]
  split
  · rfl
  · match k with
    | 0 => simp
    | 1 => simp
    | k + 2 => simp

theorem readExit_bytes {g : Nat} (hg : g < 65536) :
    readExit (bytes2 g) = if g = 65535 then some none else if g ≤ 1023 then some (some g) else none := by
  simp only [readExit, bytes2, num2_bytes_of_lt hg]

theorem loadPortAndExitStore : Says.LoadPortAndExitStore := by
  intro s f rest i p g k hp hg hk
  refine ⟨fun hs hi => ?port, fun hs hi => ?exit⟩
  case port =>
    have hread := readPort_bytes hp hg hk
    have hlt : i < 256 := by omega
    split_ifs at hread ⊢ with habsent hpresent hload
    · exact exec_layoutStored (c := .loadPort) hs rfl rfl hlt hread
    · exact exec_layoutStored (c := .loadPort) hs rfl rfl hlt hread
    · exact exec_layoutStored (c := .loadPort) hs rfl rfl hlt hread
    · exact exec_layoutRefused (c := .loadPort) hs rfl rfl hlt (storeLayout_refused hread _)
  case exit =>
    have hread := readExit_bytes hg
    have hlt : i < 64 := by omega
    split_ifs at hread ⊢ with habsent hpresent
    · exact exec_layoutStored (c := .loadExit) hs rfl rfl hlt hread
    · exact exec_layoutStored (c := .loadExit) hs rfl rfl hlt hread
    · exact exec_layoutRefused (c := .loadExit) hs rfl rfl hlt (storeLayout_refused hread _)

theorem int2_signed2 {n : Int} (hlow : -32768 ≤ n) (hhigh : n < 32768) :
    int2 (byte ((n % 65536).toNat / 256)) (byte (n % 65536).toNat) = n := by
  have hlt : (n % 65536).toNat < 65536 := by omega
  simp only [int2, num2_bytes_of_lt hlt]
  split <;> omega

theorem readRoute_bytes {a b t : Nat} {d : Descriptor} (ht : t < 65536) (hd : Carried d) :
    readRoute a b (bytes2 t ++ bytes2 d.first ++ [byte d.runLen, byte d.runs, byte d.legs]
        ++ signed2 d.runStep ++ signed2 d.legStep) =
      if 4095 < t then none
      else if t = 4095 ∨ a = b then some { time := t, desc := none }
      else if InRange d then some { time := t, desc := some d }
      else none := by
  obtain ⟨hfirst, hrunLen, hruns, hlegs, hrun1, hrun2, hleg1, hleg2⟩ := hd
  simp only [readRoute, signed2, bytes2, List.cons_append, List.nil_append, num2_bytes_of_lt ht, num2_bytes_of_lt hfirst,
    toNat_byte_of_lt hrunLen, toNat_byte_of_lt hruns, toNat_byte_of_lt hlegs, int2_signed2 hrun1 hrun2,
    int2_signed2 hleg1 hleg2]

theorem loadRouteRecord_eq {a b : Nat} (hb : b ≤ 31) (record : List Byte) (s : State) :
    loadRouteRecord (a * 32 + b) record s =
      storeLayout (readRoute a b) (fun j r l => { l with routes := tputD noRoute j r l.routes }) (a * 32 + b) record s := by
  rw [loadRouteRecord, show (a * 32 + b) / 32 = a by omega, show (a * 32 + b) % 32 = b by omega]

theorem loadRouteStores : Says.LoadRouteStores := by
  intro s f rest a b t d hs ha hb ht hd
  have hlt : a * 32 + b < 1024 := by omega
  have hread := readRoute_bytes (a := a) (b := b) ht hd
  have hstored {r : RouteRec} (h : readRoute a b _ = some r) :=
    exec_layoutLoad (c := .loadRoute) hs rfl rfl hlt
      ((loadRouteRecord_eq hb _ _).trans (storeLayout_of_read h (openRequest rest s))) rfl
  have hrefused (h : readRoute a b _ = none) :=
    exec_layoutRefused (c := .loadRoute) hs rfl rfl hlt
      ((loadRouteRecord_eq hb _ _).trans (storeLayout_refused h (openRequest rest s)))
  split_ifs at hread ⊢ with hlarge hnone hrange
  · exact hrefused hread
  · exact hstored hread
  · exact hstored hread
  · exact hrefused hread

/-- Settles O15. -/
theorem layoutTablesStore : Obligations.LayoutTablesStore := ⟨loadZoneStores, loadPortAndExitStore, loadRouteStores⟩

/-! ### TUNING (R18) -/

theorem readTuning_bytes {t : Tuning} (ht : Says.Tuning.Carried t) : readTuning (tuningBytes t) = some t := by
  obtain ⟨h0, h1, h2, h3, hkage, hpz, hhd, hkmax, hmpre, hw, hside, hsilent, hconf, hclaim, hhand, hlpace, hlresume⟩ := ht
  simp only [readTuning, tuningBytes, bytes2, List.cons_append, List.nil_append, num2_bytes_of_lt h0,
    num2_bytes_of_lt h1, num2_bytes_of_lt h2, num2_bytes_of_lt h3, num2_bytes_of_lt hpz, num2_bytes_of_lt hkmax,
    num2_bytes_of_lt hmpre, toNat_byte_of_lt hkage, toNat_byte_of_lt hhd, toNat_byte_of_lt hw, toNat_byte_of_lt hside,
    toNat_byte_of_lt hsilent, toNat_byte_of_lt hconf, toNat_byte_of_lt hclaim, toNat_byte_of_lt hhand,
    toNat_byte_of_lt hlpace, toNat_byte_of_lt hlresume]

/-- Fields of one byte or two need no upper clamp above what the bytes hold. -/
theorem clamped_eq_stored {t : Tuning} (ht : Says.Tuning.Carried t) : t.clamped = Says.Tuning.stored t := by
  obtain ⟨h0, h1, h2, h3, hkage, hpz, hhd, hkmax, hmpre, hw, hside, hsilent, hconf, hclaim, hhand, hlpace, hlresume⟩ := ht
  simp only [Machine.Tuning.clamped, Says.Tuning.stored, clamp, Tuning.mk.injEq]
  omega

theorem loadTuningRecord_of_read {i : Nat} {record : List Byte} {t : Tuning} (h : readTuning record = some t) (s : State) :
    loadTuningRecord i record s =
      doneWith (decide (t.clamped ≠ t)) (s.updLayout fun l => { l with tuning := t.clamped }) := by
  simp only [loadTuningRecord, h]

theorem loadTuningClamps : Says.LoadTuningClamps := by
  intro s f rest i t hs hi ht
  have hcode : (if decide (t.clamped ≠ t) then Code.doneClamped else .done)
      = if Says.Tuning.stored t = t then .done else .doneClamped := by
    rw [clamped_eq_stored ht]
    split_ifs <;> simp_all
  rw [← hcode, ← clamped_eq_stored ht]
  exact exec_tableLoad (c := .loadTuning) hs rfl rfl hi (loadTuningRecord_of_read (readTuning_bytes ht) _) rfl

/-! ### CAP (R20) -/

theorem vehicle_eq_none_iff {s : State} {v : Nat} : vehicle s v = none ↔ ∀ p ∈ s.roster, p.2.id ≠ v := by
  simp [vehicle, findVehicle]

/-- A vehicle with a GRANT due, unless it is ARRIVING. -/
def grantedRecord (x : Vehicle) : Vehicle :=
  if x.state = .arriving then x else { x with due := { x.due with grant := some 0 } }

theorem vehicle_makeGrantDue_eq (v u : Nat) (s : State) :
    vehicle (makeGrantDue v s) u = (vehicle s u).map fun x => if u = v then grantedRecord x else x :=
  vehicle_makeGrantDue v u s

/-- GRANTs for some of a list of records with distinct ids: each vehicle takes the one of its own record. -/
theorem vehicle_foldl_grant (p : Vehicle → Bool) (v : Nat) : ∀ (l : List (Nat × Vehicle)) (s : State),
    (l.map (·.2.id)).Nodup →
    vehicle (l.foldl (fun t e => if p e.2 then makeGrantDue e.2.id t else t) s) v
      = (vehicle s v).map fun x => if ∃ e ∈ l, e.2.id = v ∧ p e.2 = true then grantedRecord x else x
  | [], s, _ => by simp
  | e :: l, s, hl => by
    obtain ⟨hnew, hl⟩ := List.nodup_cons.1 hl
    have hother : e.2.id = v → ¬ ∃ e ∈ l, e.2.id = v ∧ p e.2 = true := by
      rintro rfl ⟨d, hd, hid, -⟩
      exact hnew (List.mem_map.2 ⟨d, hd, hid⟩)
    rw [List.foldl_cons, vehicle_foldl_grant p v l _ hl]
    by_cases hp : p e.2 = true
    · rw [if_pos hp, vehicle_makeGrantDue_eq, Option.map_map]
      congr 1
      funext x
      by_cases hv : e.2.id = v
      · simp [hother hv, hv, hp]
      · simp only [Function.comp_apply, List.mem_cons, exists_eq_or_imp, hv, Ne.symm hv, false_and, false_or, if_false]
    · rw [if_neg hp]
      simp only [List.mem_cons, exists_eq_or_imp, hp, and_false, false_or, Bool.false_eq_true]

theorem vehicle_grantAll {s : State} (hroster : RosterOk s.roster) (p : Vehicle → Bool) (v : Nat) :
    vehicle (grantAll p s) v = (vehicle s v).map fun x => if p x then grantedRecord x else x := by
  rw [grantAll, vehicle_foldl_grant p v _ _ hroster.ids]
  cases hx : vehicle s v with
  | none => rfl
  | some x =>
    have hown : (∃ e ∈ s.roster, e.2.id = v ∧ p e.2 = true) ↔ p x = true := by
      constructor
      · rintro ⟨e, he, rfl, hp⟩
        rwa [Option.some.inj (hx.symm.trans (vehicle_of_mem hroster he))]
      · intro hp
        obtain ⟨q, hq, rfl⟩ := Option.map_eq_some_iff.1 hx
        exact ⟨q, List.mem_of_find?_eq_some hq, vehicle_id hx, hp⟩
    simp [hown]

theorem grantAll_fli (p : Vehicle → Bool) (s : State) : (grantAll p s).fli = s.fli := by
  unfold grantAll
  generalize s.roster = l
  induction l generalizing s with
  | nil => rfl
  | cons e l ih =>
    rw [List.foldl_cons, ih]
    split
    · exact (makeGrantDue_rest e.2.id s).2.2.2.2.2.2.1
    · rfl

/-- A cap is read back; the default needs no record. -/
theorem capOf_tputD {s t : State} {z n : Nat} (h : t.layout.caps = tputD 7 z n s.layout.caps) (y : Nat) :
    capOf t y = if y = z then n else capOf s y := by
  unfold capOf
  rw [h, tputD]
  split
  next hn => rw [tget_tdrop]; split <;> simp [hn]
  next => rw [tget_tput]; split <;> rfl

theorem loadCapGrants : Says.LoadCapGrants := by
  intro s f rest z n hs hz hn hroster
  let u : State := (openRequest rest s).updLayout fun l => { l with caps := tputD 7 z (min 7 n) l.caps }
  have hacts := acts_grantAll (holdsIn s z) u
  have hserve : loadCapRecord z [byte n] (openRequest rest s)
      = doneWith (decide (7 < n)) (grantAll (holdsIn s z) u) := by
    simp only [loadCapRecord, readNum1_byte hn]
    rfl
  have hcode : (if decide (7 < n) then Code.doneClamped else .done) = if 7 < n then .doneClamped else .done := by
    simp
  refine ⟨_, exec_tableLoad (c := .loadCap) hs rfl rfl (by omega) hserve (grantAll_fli _ u), ?_, ?_, ?_, ?_⟩
  · rw [← hcode]
    exact endsWithReply_answered _ _ _ _
  · exact (capOf_tputD (s := s) (congrArg Layout.caps hacts.layout) z).trans (if_pos rfl)
  · exact fun y hy => (capOf_tputD (s := s) (congrArg Layout.caps hacts.layout) y).trans (if_neg hy)
  · intro v
    refine (vehicle_grantAll (s := u) hroster _ v).trans (congrArg (Option.map · (vehicle s v)) (funext fun x => ?_))
    have hzone : holdsIn s z x = true ↔ ∃ i ∈ x.held, zoneOf s i = some z := by simp [holdsIn]
    by_cases harriving : x.state = .arriving
    · simp [grantedRecord, harriving]
    · simp only [grantedRecord, harriving, if_false, hzone, ne_eq, not_false_eq_true, true_and]

/-! ### SEVERITY (R171, R173) -/

theorem ofCode_code (k : EventKind) : EventKind.ofCode k.code = some k := by
  cases k <;> rfl

theorem code_injective {j k : EventKind} (h : j.code = k.code) : j = k :=
  Option.some.inj ((ofCode_code j).symm.trans ((congrArg EventKind.ofCode h).trans (ofCode_code k)))

theorem code_lt (k : EventKind) : k.code < 17 := by
  cases k <;> decide

theorem severityOf_tputD {s t : State} {k : EventKind} {v : Severity}
    (h : t.layout.severity = tputD k.defaultSeverity k.code v s.layout.severity) (j : EventKind) :
    severityOf t j = if j = k then v else severityOf s j := by
  have hcode : j.code = k.code ↔ j = k := ⟨code_injective, congrArg _⟩
  unfold severityOf
  rw [h, tputD]
  split
  next hv =>
    rw [tget_tdrop]
    simp only [hcode]
    split
    next hj => rw [hj, hv]; rfl
    next => rfl
  next =>
    rw [tget_tput]
    simp only [hcode]
    split <;> rfl

theorem storedLevel_eq {k : EventKind} (n : Nat) :
    storedLevel k n = if k = .positionConflict then .halt
      else if n = 0 then .log else if n = 1 then .notice else if n = 2 then .alarm else .halt := by
  have hlevel : Severity.ofCode n = if n = 0 then .log else if n = 1 then .notice else if n = 2 then .alarm else .halt := by
    match n with
    | 0 | 1 | 2 => rfl
    | n + 3 => simp [Severity.ofCode]
  by_cases hk : k = .positionConflict
  · subst hk
    match n with
    | 0 | 1 | 2 => rfl
    | n + 3 => rfl
  · have hfloor : k.floor = .log := by cases k <;> simp_all [EventKind.floor]
    simp [storedLevel, hfloor, hk, hlevel, Severity.code]

theorem loadSeverityStores : Says.LoadSeverityStores := by
  intro s f rest k n hs hn level
  let u : State := updateAlarm ((openRequest rest s).updLayout fun l =>
    { l with severity := tputD k.defaultSeverity k.code level l.severity })
  have hserve : loadSeverityRecord k.code [byte n] (openRequest rest s) = doneWith (decide (level.code ≠ n)) u := by
    simp only [loadSeverityRecord, ofCode_code, readNum1_byte hn, storedLevel_eq]
    rfl
  have hcode : (if decide (level.code ≠ n) then Code.doneClamped else .done)
      = if level.code = n then .done else .doneClamped := by
    split_ifs <;> simp_all
  have hseverity (j : EventKind) : severityOf u j = if j = k then level else severityOf s j := severityOf_tputD rfl j
  refine ⟨_, exec_tableLoad (c := .loadSeverity) hs rfl rfl (code_lt k) hserve rfl, ?_, ?_, ?_, ?_, rfl⟩
  · rw [← hcode]
    exact endsWithReply_answered _ _ _ _
  · exact (hseverity k).trans (if_pos rfl)
  · exact fun j hj => (hseverity j).trans (if_neg hj)
  · exact (show alarmDue u = true ↔ _ from alarmDue_iff)

/-- Settles O16. -/
theorem tuningTablesStore : Obligations.TuningTablesStore := ⟨loadTuningClamps, loadCapGrants, loadSeverityStores⟩

end Sys2Proof.Machine

/-! PROOFS. Occurrences of events: the flag and its record, the NOTICE, ALARM, and what halts the engine (R161, R169 to
R171, R178). -/

namespace Sys2Proof.Machine

open Sys2Proof.Says

/-! ### What an occurrence does to each store -/

/-- The NOTICE of an occurrence, sent at the setting of the flag from NOTICE severity up. -/
def noticed (note : Detail → State → State) (k : EventKind) (d : Detail) (s : State) : State :=
  if flagSet s k then s
  else if severityOf s k = .log then s.updSu fun u => { u with flags := tput k.code (recorded s k d) u.flags }
  else note (recorded s k d) (s.updSu fun u => { u with flags := tput k.code (recorded s k d) u.flags })

theorem occur_eq (note : Detail → State → State) (k : EventKind) (d : Detail) (s : State) :
    occur note k d s = if severityOf s k = .halt then haltOccurrence (updateAlarm (noticed note k d s))
      else updateAlarm (noticed note k d s) := rfl

theorem noticed_of_set {note : Detail → State → State} {k : EventKind} {d : Detail} {s : State}
    (h : flagSet s k = true) : noticed note k d s = s := by
  rw [noticed, if_pos h]

theorem noticed_of_log {note : Detail → State → State} {k : EventKind} {d : Detail} {s : State}
    (h : flagSet s k = false) (hlog : severityOf s k = .log) :
    noticed note k d s = s.updSu fun u => { u with flags := tput k.code (recorded s k d) u.flags } := by
  rw [noticed, if_neg (by simp [h]), if_pos hlog]

theorem noticed_of_unset {note : Detail → State → State} {k : EventKind} {d : Detail} {s : State}
    (h : flagSet s k = false) (hlog : severityOf s k ≠ .log) :
    noticed note k d s = note (recorded s k d)
      (s.updSu fun u => { u with flags := tput k.code (recorded s k d) u.flags }) := by
  rw [noticed, if_neg (by simp [h]), if_neg hlog]

theorem haltOccurrence_fli (s : State) : (haltOccurrence s).fli = s.fli := by
  simp [haltOccurrence_rest]

theorem haltOccurrence_su (s : State) : (haltOccurrence s).su = s.su := by
  simp [haltOccurrence_rest]

theorem occur_fli (note : Detail → State → State) (k : EventKind) (d : Detail) (s : State) :
    (occur note k d s).fli = (noticed note k d s).fli := by
  rw [occur_eq]
  split
  · exact haltOccurrence_fli _
  · rfl

theorem occur_flags (note : Detail → State → State) (k : EventKind) (d : Detail) (s : State) :
    (occur note k d s).su.flags = (noticed note k d s).su.flags := by
  rw [occur_eq]
  split
  · rw [haltOccurrence_su]; rfl
  · rfl

/-- An occurrence that is not of HALT severity leaves Mode Control alone. -/
theorem reported_occur_of_not_halt {note : Detail → State → State} {k : EventKind} {d : Detail} {s : State}
    (hk : severityOf s k ≠ .halt) (hnote : Reported s (noticed note k d s)) : Reported s (occur note k d s) := by
  rw [occur_eq, if_neg hk]
  exact hnote.trans rfl

/-! ### Notices: sent below the report limit, else REPORT-LOST (R161, R170) -/

theorem flagSet_updSu_tput (k : EventKind) (d : Detail) (s : State) :
    flagSet (s.updSu fun u => { u with flags := tput k.code d u.flags }) k = true := by
  simp [flagSet, tget_tput]

theorem occur_of_set {note : Detail → State → State} {k : EventKind} {d : Detail} {s : State} (h : flagSet s k = true) :
    (occur note k d s).fli = s.fli := by
  rw [occur_fli, noticed_of_set h]

theorem not_below_of_full {s : State} (h : 56 ≤ occupancy s) : ¬ occupancy s < Config.reportLimit := Nat.not_lt.2 h

theorem reported_updSu (f : Su → Su) (s : State) : Reported s (s.updSu f) := rfl

theorem notifyLost_fli_of_full {d : Detail} {s : State} (hfull : 56 ≤ occupancy s) (hset : flagSet s .reportLost = true) :
    (notifyLost d s).fli = s.fli := by
  rw [notifyLost, if_neg (not_below_of_full hfull)]
  exact occur_of_set hset

theorem notify_fli_of_full {d : Detail} {s : State} (hfull : 56 ≤ occupancy s) : (notify d s).fli = s.fli := by
  rw [notify, if_neg (not_below_of_full hfull), occur_fli]
  by_cases hset : flagSet s .reportLost = true
  · rw [noticed_of_set hset]
  · have hunset : flagSet s .reportLost = false := by simpa using hset
    by_cases hlog : severityOf s .reportLost = .log
    · rw [noticed_of_log hunset hlog]; rfl
    · have hset := flagSet_updSu_tput .reportLost (recorded s .reportLost (lostDetail kindNotice)) s
      rw [noticed_of_unset hunset hlog]
      exact notifyLost_fli_of_full (s := s.updSu _) hfull hset

/-- The flag an occurrence leaves set. -/
theorem flagSet_occur {note : Detail → State → State} (hnote : ∀ d s, Acts s (note d s)) (k : EventKind) (d : Detail)
    (s : State) : flagSet (occur note k d s) k = true := by
  rw [flagSet, occur_flags]
  by_cases hset : flagSet s k = true
  · rw [noticed_of_set hset]
    exact hset
  · have hunset : flagSet s k = false := by simpa using hset
    have hput := flagSet_updSu_tput k (recorded s k d) s
    by_cases hlog : severityOf s k = .log
    · rw [noticed_of_log hunset hlog]
      exact hput
    · rw [noticed_of_unset hunset hlog]
      obtain ⟨r, hr⟩ := Option.isSome_iff_exists.1 hput
      rw [(hnote _ _).flags _ _ hr]
      rfl

theorem flagSet_raise (k : EventKind) (d : Detail) (s : State) : flagSet (raise k d s) k = true :=
  flagSet_occur acts_notify k d s

theorem flagSet_notify_of_full {d : Detail} {s : State} (hfull : 56 ≤ occupancy s) :
    flagSet (notify d s) .reportLost = true := by
  rw [notify, if_neg (not_below_of_full hfull)]
  exact flagSet_occur acts_notifyLost _ _ s

theorem Acts.flagSet {s t : State} (a : Acts s t) {k : EventKind} (h : flagSet s k = true) : flagSet t k = true := by
  obtain ⟨r, hr⟩ := Option.isSome_iff_exists.1 h
  rw [Machine.flagSet, a.flags _ _ hr]
  rfl

theorem reported_notifyLost_of_not_halt {d : Detail} {s : State}
    (h : severityOf s .reportLost ≠ .halt ∨ occupancy s < 56) : Reported s (notifyLost d s) := by
  unfold notifyLost
  split
  · exact reported_pushOut _ s
  next hfull =>
    refine reported_occur_of_not_halt (h.resolve_right hfull) ?_
    unfold noticed
    split
    · exact Reported.refl s
    · split <;> rfl

theorem reported_notify_of_not_halt {d : Detail} {s : State}
    (h : severityOf s .reportLost ≠ .halt ∨ occupancy s < 56) : Reported s (notify d s) := by
  unfold notify
  split
  · exact reported_pushOut _ s
  next hfull =>
    refine reported_occur_of_not_halt (h.resolve_right hfull) ?_
    unfold noticed
    split
    · exact Reported.refl s
    · split
      · rfl
      · exact (reported_updSu _ s).trans (reported_notifyLost_of_not_halt (.inl (h.resolve_right hfull)))

/-- What halts nothing changes flags, ALARM and the outbound queue alone. -/
theorem reported_raise_of_not_halt {k : EventKind} {d : Detail} {s : State} (hk : severityOf s k ≠ .halt)
    (h : severityOf s .reportLost ≠ .halt ∨ occupancy s < 56) : Reported s (raise k d s) := by
  refine reported_occur_of_not_halt hk ?_
  unfold noticed
  split
  · exact Reported.refl s
  · split
    · rfl
    · exact (reported_updSu _ s).trans (reported_notify_of_not_halt h)

theorem acts_noticed (k : EventKind) (d : Detail) (s : State) :
    (noticed notify k d s).asu.passRunning = s.asu.passRunning ∧
      ((noticed notify k d s).mc = s.mc ∨ s.mode = .dispatching ∧ (noticed notify k d s).mc = { s.mc with mode := .halted }) := by
  have hnote := acts_notify (recorded s k d) (s.updSu fun u => { u with flags := tput k.code (recorded s k d) u.flags })
  unfold noticed
  split
  · exact ⟨rfl, .inl rfl⟩
  · split
    · exact ⟨rfl, .inl rfl⟩
    · exact ⟨hnote.passRunning, hnote.mc⟩

theorem haltOccurrence_mode {s : State} (hpass : s.asu.passRunning = false)
    (hmode : s.mode = .dispatching ∨ s.mode = .halted) : (haltOccurrence s).mode = .halted := by
  unfold haltOccurrence
  obtain h | h := hmode
  · rw [if_pos h, if_neg (by simp [hpass])]
    exact enterHalted_mode s
  · rw [if_neg (by simp [h])]
    exact h

theorem raise_of_halt {k : EventKind} {d : Detail} {s : State} (hpass : s.asu.passRunning = false)
    (hk : severityOf s k = .halt) (hmode : s.mode = .dispatching) : (raise k d s).mode = .halted := by
  obtain ⟨hkept, hmc⟩ := acts_noticed k d s
  rw [raise, occur_eq, if_pos hk]
  refine haltOccurrence_mode (hkept.trans hpass) ?_
  obtain h | ⟨-, h⟩ := hmc
  · exact .inl (by rw [← hmode]; exact congrArg Mc.mode h)
  · exact .inr (congrArg Mc.mode h)

/-- Outside DISPATCHING an occurrence leaves the mode. -/
theorem raise_mode {k : EventKind} {d : Detail} {s : State} (hmode : s.mode ≠ .dispatching) :
    (raise k d s).mode = s.mode := by
  obtain h | ⟨h, -⟩ := (acts_raise k d s).mc
  · exact congrArg Mc.mode h
  · exact absurd h hmode

theorem raise_alarm (k : EventKind) (d : Detail) (s : State) : (raise k d s).su.alarm = alarmDue (raise k d s) := by
  rw [raise, occur_eq]
  split
  · have hlayout : (haltOccurrence (updateAlarm (noticed notify k d s))).layout = (noticed notify k d s).layout := by
      simp [haltOccurrence_rest, updateAlarm_rest]
    have hsu := haltOccurrence_su (updateAlarm (noticed notify k d s))
    rw [alarmDue_congr (s := noticed notify k d s) (congrArg Layout.severity hlayout) (by rw [hsu]; rfl), hsu]
    rfl
  · rfl

/-- The first-occurrence record. -/
theorem raise_records {k : EventKind} {d : Detail} {s : State} (h : flagSet s k = false) :
    tget k.code (raise k d s).su.flags = some (recorded s k d) := by
  have hput : tget k.code (tput k.code (recorded s k d) s.su.flags) = some (recorded s k d) := by simp [tget_tput]
  rw [raise, occur_flags]
  by_cases hlog : severityOf s k = .log
  · rw [noticed_of_log h hlog]
    exact hput
  · rw [noticed_of_unset h hlog]
    exact (acts_notify _ _).flags _ _ hput

/-- Settles O59. -/
theorem occurrencesRecorded : Obligations.OccurrencesRecorded := by
  intro s k d hpass
  refine ⟨flagSet_raise k d s, fun j r => (acts_raise k d s).flags j r, raise_records, ?alarm,
    fun hk hmode => raise_of_halt hpass hk hmode, raise_mode, ?silent, ?sent, ?lost, ?rest⟩
  case alarm =>
    rw [raise_alarm]
    exact alarmDue_iff
  case silent =>
    rintro (hset | hlog)
    · exact occur_of_set hset
    · by_cases hset : flagSet s k = true
      · exact occur_of_set hset
      · rw [raise, occur_fli, noticed_of_log (by simpa using hset) hlog]
        rfl
  case sent =>
    intro hunset hlog hroom
    have hbelow : occupancy (s.updSu fun u => { u with flags := tput k.code (recorded s k d) u.flags })
        < Config.reportLimit := hroom
    rw [raise, occur_fli, noticed_of_unset hunset hlog, notify, if_pos hbelow]
    rfl
  case lost =>
    intro hunset hlog hfull
    refine ⟨?_, ?_⟩
    · rw [raise, occur_fli, noticed_of_unset hunset hlog, notify_fli_of_full (by exact hfull)]
      rfl
    · rw [flagSet, raise, occur_flags, noticed_of_unset hunset hlog]
      exact flagSet_notify_of_full hfull
  case rest => exact reported_raise_of_not_halt

end Sys2Proof.Machine

/-! PROOFS. Requests and pins that change few fields: reset state, timers, ACTIVATE and the end of its check, MODE
HALTED, the QUERYs, RESTART, IDENTIFY, what no other row takes, the HALT input, the reset pin and the supply. -/

namespace Sys2Proof.Machine

open Sys2Proof.Says

theorem whenRunning_of_running {f : State → State} {s : State} (h : s.running = true) : whenRunning f s = f s := if_pos h

theorem whenRunning_of_stopped {f : State → State} {s : State} (h : s.running = false) : whenRunning f s = s :=
  if_neg (by simp [h])

/-! ### Reset and the timers (R90, R113, R185) -/

/-- Settles O4: the stores are empty, so every read gives the default. -/
theorem resetState : Obligations.ResetState := by
  refine ⟨rfl, rfl, rfl, rfl, fun _ => rfl, fun _ => rfl, fun _ => rfl, fun _ _ => rfl, fun _ => rfl, rfl, rfl,
    fun _ => rfl, fun _ => rfl, rfl, rfl, rfl, rfl, rfl, rfl, rfl, rfl, rfl, rfl, rfl, rfl, rfl, rfl, rfl, rfl, rfl, rfl,
    rfl, rfl⟩

theorem ageOne_eq (x : Move) : ageOne x = { x with age := if x.age < 65535 then x.age + 1 else 65535 } := by
  have h : min 65535 (x.age + 1) = if x.age < 65535 then x.age + 1 else 65535 := by split <;> omega
  simp only [ageOne, h]

/-- Settles O53. -/
theorem timersExpire : Obligations.TimersExpire := by
  intro s hrunning
  refine ⟨?age, ?dispatch⟩
  case age =>
    refine congrArg Host.Outcome.next ((whenRunning_of_running hrunning).trans ?_)
    rw [ageExpiry, funext ageOne_eq]
    rfl
  case dispatch =>
    refine congrArg Host.Outcome.next ((whenRunning_of_running hrunning).trans ?_)
    rw [dispatchExpiry, setPassDue_eq]
    rfl

/-! ### ACTIVATE and the end of its check (R10, R16) -/

theorem haltLine_iff {s : State} : s.haltLine = true ↔ s.mc.haltInput = true ∧ s.mc.identity.haltEnable = true := by
  simp [State.haltLine]

/-- Settles O18. -/
theorem activateStartsCheck : Obligations.ActivateStartsCheck := by
  intro s f rest hs hkind hpayload
  have hserve {r : State × Option Reply} (h : serveActivate f () (openRequest rest s) = r) :
      withPayload readNone serveActivate f (openRequest rest s) = r :=
    (withPayload_of_read (by rw [hpayload]; rfl) _).trans h
  have hrefused {c : Code} (h : serveActivate f () (openRequest rest s) = refuse c (openRequest rest s)) :
      exec .activate s = .next (answered s f rest c []) :=
    congrArg _ (serveRequest_eq_refused (r := Reply.bare c) hs (isKind_of_eq hkind) (hserve h))
  have hcell : cellUnset (openRequest rest s) = true ↔ s.mc.identity.cell = none := Option.isNone_iff_eq_none
  have hcheck : checkRunning (openRequest rest s) = true ↔ s.mc.check ≠ none := Option.isSome_iff_ne_none
  have hline : (openRequest rest s).haltLine = true ↔ s.mc.haltInput = true ∧ s.mc.identity.haltEnable = true :=
    haltLine_iff
  have hmode : (openRequest rest s).mode = s.mode := rfl
  simp only [serveActivate, hcell, hcheck, hline, hmode] at hserve hrefused
  split_ifs at hserve hrefused ⊢ with h1 h2 h3 h4
  · exact hrefused rfl
  · exact hrefused rfl
  · exact hrefused rfl
  · exact hrefused rfl
  · exact congrArg _ (serveRequest_eq_owed hs (isKind_of_eq hkind) (hserve rfl))

theorem restingTable_eq (s : State) :
    (clearReservations s).srt = restingTable s.mc.identity.cell s.layout.segs := by
  simp only [clearReservations, State.updSrt_srt, restingTable, restingRes_eq]

theorem activate_eq (s : State) :
    activate s = { s with
      layout := { s.layout with validated := true, grantWindow := s.layout.tuning.w }
      srt := restingTable s.mc.identity.cell s.layout.segs
      mc := { s.mc with mode := .dispatching }
      asu := { s.asu with passDue := true }
      tli := { s.tli with
        rollcall := some 0
        line := s.tli.line.map fun g => if g.item = .rollcall ∧ g.link ≠ .severed then { g with link := .renewed } else g } } := by
  have hsrt := restingTable_eq (s.updLayout fun l => { l with validated := true, grantWindow := l.tuning.w })
  simp only [State.updLayout_mc, State.updLayout_layout] at hsrt
  rw [← hsrt]
  rfl

/-! What the check reads: the layout tables and the Identity record. -/

section
variable {s t : State}

theorem segment_congr (hl : t.layout = s.layout) : segment t = segment s := by
  unfold segment
  rw [hl]

theorem isForeignRec_congr (hi : t.mc.identity = s.mc.identity) : isForeignRec t = isForeignRec s := by
  unfold isForeignRec
  rw [hi]

theorem isForeign_congr (hl : t.layout = s.layout) (hi : t.mc.identity = s.mc.identity) : isForeign t = isForeign s := by
  unfold isForeign
  rw [segment_congr hl, isForeignRec_congr hi]

theorem isOwn_congr (hl : t.layout = s.layout) (hi : t.mc.identity = s.mc.identity) : isOwn t = isOwn s := by
  unfold isOwn
  rw [segment_congr hl, isForeignRec_congr hi]

theorem predecessors_congr (hl : t.layout = s.layout) (hi : t.mc.identity = s.mc.identity) :
    predecessors t = predecessors s := by
  unfold predecessors
  rw [hl, isForeignRec_congr hi]

theorem isSuccessor_congr (hl : t.layout = s.layout) : isSuccessor t = isSuccessor s := by
  unfold isSuccessor
  rw [segment_congr hl]

theorem loaded_congr (hl : t.layout = s.layout) : loaded t = loaded s := by
  unfold loaded
  rw [segment_congr hl]

theorem ownerOf_congr (hl : t.layout = s.layout) : ownerOf t = ownerOf s := by
  unfold ownerOf
  rw [segment_congr hl]

theorem zoneRec_congr (hl : t.layout = s.layout) : zoneRec t = zoneRec s := by
  unfold zoneRec
  rw [hl]

theorem zoneOf_congr (hl : t.layout = s.layout) : zoneOf t = zoneOf s := by
  unfold zoneOf
  rw [segment_congr hl]

theorem route_congr (hl : t.layout = s.layout) : route t = route s := by
  unfold route
  rw [hl]

theorem segmentPasses_congr (hl : t.layout = s.layout) (hi : t.mc.identity = s.mc.identity) :
    segmentPasses t = segmentPasses s := by
  unfold segmentPasses
  rw [isForeignRec_congr hi, loaded_congr hl, isSuccessor_congr hl, predecessors_congr hl hi, hi]

theorem zonePasses_congr (hl : t.layout = s.layout) (hi : t.mc.identity = s.mc.identity) :
    zonePasses t = zonePasses s := by
  have hown : ownIn t = ownIn s := by unfold ownIn; rw [isOwn_congr hl hi, zoneOf_congr hl]
  have hplain : isPlainIn t = isPlainIn s := by unfold isPlainIn; rw [segment_congr hl]
  unfold zonePasses
  rw [zoneRec_congr hl, hown, hplain, hl]

theorem sequenceFault_congr (hl : t.layout = s.layout) (hi : t.mc.identity = s.mc.identity) (a e : Nat) :
    ∀ (b : Option Int) (l : List Int), sequenceFault t a e b l = sequenceFault s a e b l
  | _, [] => rfl
  | b, x :: xs => by
    have hplace : positionFault t = positionFault s := by
      unfold positionFault
      rw [loaded_congr hl, isForeign_congr hl hi, isSuccessor_congr hl]
    rw [sequenceFault, sequenceFault, hplace]
    simp only [sequenceFault_congr hl hi a e _ xs]

theorem routeFault_congr (hl : t.layout = s.layout) (hi : t.mc.identity = s.mc.identity) :
    routeFault t = routeFault s := by
  unfold routeFault
  simp only [route_congr hl, zoneRec_congr hl, sequenceFault_congr hl hi]

theorem exitPasses_congr (hl : t.layout = s.layout) (hi : t.mc.identity = s.mc.identity) :
    exitPasses t = exitPasses s := by
  have hsole : solePredecessor t = solePredecessor s := by unfold solePredecessor; rw [predecessors_congr hl hi]
  unfold exitPasses
  rw [hi, isForeign_congr hl hi, ownerOf_congr hl, hsole, isOwn_congr hl hi]

theorem layoutFault_congr (hl : t.layout = s.layout) (hi : t.mc.identity = s.mc.identity) :
    layoutFault t = layoutFault s := by
  have hport : portSegment t = portSegment s := by unfold portSegment portRec; rw [hl]
  have hexit : exitSeg t = exitSeg s := by unfold exitSeg; rw [hl]
  unfold layoutFault firstRouteFault
  rw [hl, segment_congr hl, segmentPasses_congr hl hi, zonePasses_congr hl hi, hport, isOwn_congr hl hi,
    routeFault_congr hl hi, hexit, exitPasses_congr hl hi]

end

/-- Settles O19. -/
theorem activationCheckOutcome : Obligations.ActivationCheckOutcome := by
  intro s hrunning
  have hexec : exec .activationCheckComplete s = .next (checkCompletes s) :=
    congrArg Host.Outcome.next (whenRunning_of_running hrunning)
  refine ⟨fun hcheck => ?none, fun a hcheck => ?running⟩
  case none => rw [hexec, checkCompletes, hcheck]
  case running =>
    rw [hexec, checkCompletes, hcheck]
    congr 1
    have hfault : layoutFault (s.updMc fun m => { m with check := none }) = layoutFault s :=
      layoutFault_congr rfl rfl
    have hline : (s.updMc fun m => { m with check := none }).haltLine = true ↔
        s.mc.haltInput = true ∧ s.mc.identity.haltEnable = true := haltLine_iff
    simp only [checkOutcome, hfault]
    cases layoutFault s with
    | some e => rfl
    | none =>
      simp only [hline]
      split
      · rfl
      · rw [activate_eq]
        rfl

/-! ### MODE HALTED (R176, R179) -/

theorem suspendConfirm_eq (s : State) :
    suspendConfirm s = { s with mq := { s.mq with moves := s.mq.moves.map suspended } } := rfl

theorem entersHalted_enterHalted (s : State) : EntersHalted s (enterHalted s) where
  mode := by rw [enterHalted_mc]
  moves := by rw [enterHalted_mq, suspendConfirm_eq]
  pass := enterHalted_asu s
  line := rfl
  board := by simp [enterHalted_rest]
  layout := by simp [enterHalted_rest]
  srt := by simp [enterHalted_rest]
  roster := by simp [enterHalted_rest]
  claims := by simp [enterHalted_rest]

/-- What a state that enters HALTED has of Mode Control besides the mode, and of flags and floor queues, is not asked
for. -/
theorem EntersHalted.congr {s u v : State} {m : Mc} {l : Fli} {b : Board}
    (hu : u = { s with mc := m, fli := l, board := b }) (hnow : b.now = s.board.now)
    (hmc : m = { s.mc with haltPending := m.haltPending, haltInput := m.haltInput })
    (hv : v = { enterHalted u with su := v.su, fli := v.fli }) : EntersHalted s v := by
  have h := entersHalted_enterHalted u
  subst hu
  rw [hv]
  exact
    { mode := by
        refine h.mode.trans ?_
        rw [enterHalted_mc]
        change Mc.mk _ m.haltInput m.haltPending m.identity m.windowClosed m.copy m.write m.check = _
        rw [hmc]
      moves := h.moves, pass := h.pass, line := h.line, board := h.board.trans hnow, layout := h.layout, srt := h.srt
      roster := h.roster, claims := h.claims }

theorem closed_eq (f : FloorFrame) (c : Code) (t : State) :
    closed f c t = { t with su := (closed f c t).su, fli := (closed f c t).fli } := rfl

/-- A service that leaves the FLI and the identity is answered as one that does nothing. -/
theorem closed_fli_eq {s t : State} {f : FloorFrame} {rest : List FloorFrame} {c : Code}
    (hfli : t.fli = (openRequest rest s).fli) (hid : t.mc.identity = s.mc.identity) :
    (closed f c t).fli = (answered s f rest c []).fli := by
  simp only [closed, answered, hfli, reply, frameOf, hid]
  rfl

/-- A MODE request that passes the first checks of R176 is what the mode value asks. -/
theorem serveMode_of_takes {s : State} {f : FloorFrame} {rest : List FloorFrame} {code : Nat}
    (hs : TakesMode s f rest code) (h : State → State × Option Reply) :
    withPayload readNum1 (serveMode h) f (openRequest rest s) = h (openRequest rest s) := by
  obtain ⟨-, -, hpayload, hcell, hcheck⟩ := hs
  rw [withPayload_of_read (a := (byte code).toNat) (by rw [hpayload]; rfl), serveMode,
    if_neg (by simp [cellUnset_eq_false (s := openRequest rest s) hcell]),
    if_neg (by simpa [checkRunning] using hcheck)]

theorem modeRow_closed {s t : State} {f : FloorFrame} {rest : List FloorFrame} {code : Nat} {c : Code}
    {h : State → State × Option Reply} (hs : TakesMode s f rest code) (hcode : code < 256)
    (hh : h (openRequest rest s) = (t, some (Reply.bare c))) : modeRow code h s = closed f c t := by
  obtain ⟨htakes, hkind, hpayload, -⟩ := id hs
  exact serveRequest_eq_closed htakes (isKindWith_of_cons hkind hpayload hcode) ((serveMode_of_takes hs h).trans hh)

/-- Settles O22. -/
theorem modeHaltedEnters : Obligations.ModeHaltedEnters := by
  intro s f rest hs
  have hrow {t : State} {c : Code} (h : askHalted (openRequest rest s) = (t, some (Reply.bare c))) :
      exec .modeHalted s = .next (closed f c t) := congrArg _ (modeRow_closed hs (by decide) h)
  have hmode : (openRequest rest s).mode = s.mode := rfl
  refine ⟨fun h => ?parked, fun h => ?halted, fun h => ?dispatching⟩
  case parked => exact hrow (t := openRequest rest s) (by rw [askHalted, hmode, h]; rfl)
  case halted =>
    exact hrow (t := (openRequest rest s).updMc fun m => { m with haltPending := true })
      (by rw [askHalted, hmode, h]; rfl)
  case dispatching =>
    let u : State := (openRequest rest s).updMc fun m => { m with haltPending := true }
    have hmc : (enterHalted u).mc = { u.mc with mode := .halted } := enterHalted_mc u
    obtain ⟨-, -, -, -, -, hfli, hsu, -⟩ := enterHalted_rest u
    refine ⟨_, hrow (t := enterHalted u) (by rw [askHalted, hmode, h]; rfl), ?_, congrArg Mc.haltPending hmc, hsu, ?_⟩
    · exact EntersHalted.congr (u := u) rfl rfl rfl (closed_eq f .done _)
    · exact closed_fli_eq hfli ((congrArg Mc.identity hmc :).trans rfl)

/-! ### The HALT input (R177) -/

/-- Settles O57. -/
theorem haltInputChanges : Obligations.HaltInputChanges := by
  intro s hrunning
  have hexec : exec .haltInputAsserted s = .next (haltAsserted (setHaltPin true s)) :=
    congrArg Host.Outcome.next (whenRunning_of_running (s := setHaltPin true s) hrunning)
  refine ⟨congrArg Host.Outcome.next (whenRunning_of_running (s := setHaltPin false s) hrunning), fun h => ?again,
    fun h => ?asserted⟩
  case again => rw [hexec, haltAsserted, if_pos (by exact h)]; rfl
  case asserted =>
    intro seen
    have hunseen : ¬ (setHaltPin true s).mc.haltInput = true := by
      change ¬ s.mc.haltInput = true
      simp [h]
    rw [haltAsserted, if_neg hunseen] at hexec
    have hmode : (setHaltPin true s).mode = s.mode := rfl
    refine ⟨fun hquiet => ?quiet, fun henable hhalted => ?halted, fun henable hdispatching => ?dispatching⟩
    case quiet =>
      by_cases henable : s.mc.identity.haltEnable = true
      · have hparked := hquiet.resolve_left (by simp [henable])
        rw [hexec, if_pos (by exact henable), hmode, hparked]
        rfl
      · rw [hexec, if_neg (by exact henable)]
        rfl
    case halted =>
      rw [hexec, if_pos (by exact henable), hmode, hhalted]
      rfl
    case dispatching =>
      have hnot : (enterHalted seen).mode ≠ .dispatching := by
        rw [enterHalted_mode]
        nofun
      have hraise := reported_raise .haltLine noDetail (enterHalted seen) hnot
      have hmc : (raise .haltLine noDetail (enterHalted seen)).mc = { seen.mc with mode := .halted } := by
        rw [hraise]
        exact enterHalted_mc seen
      refine ⟨raise .haltLine noDetail (enterHalted seen), ?_, EntersHalted.congr (u := seen) rfl rfl rfl hraise, ?_, ?_,
        flagSet_raise _ _ _⟩
      · rw [hexec, if_pos (by exact henable), hmode, hdispatching]
        rfl
      · rw [hmc]
      · rw [hmc]

end Sys2Proof.Machine

/-! PROOFS. QUERY, RESTART, IDENTIFY and its write, requests that no other row takes. -/

namespace Sys2Proof.Machine

open Sys2Proof.Says

/-! ### QUERY (R165 to R168) -/

theorem readQuery_payload {k n : Nat} (hn : n < 65536) : readQuery (byte k :: bytes2 n) = some n :=
  congrArg some (num2_bytes_of_lt hn)

/-- A QUERY's answer is what its kind makes of the selector; the engine's state stays as it is. -/
theorem serveQuery_eq_answered {s : State} {f : FloorFrame} {rest : List FloorFrame} {k n : Nat}
    {h : FloorFrame → Nat → State → State × Option Reply} {code : Code} {content : List Byte}
    (hs : TakesQuery s f rest k n) (hk : k < 256)
    (hh : h f n (openRequest rest s) = (openRequest rest s, some { code := code, content := content })) :
    serveQuery k h s = answered s f rest code content := by
  obtain ⟨htakes, hkind, hpayload, hn⟩ := hs
  refine serveRequest_eq_refused (r := { code := code, content := content }) htakes
    (isKindWith_of_cons hkind hpayload hk) ?_
  rw [withPayload_of_read (by rw [hpayload]; exact readQuery_payload hn), hh]

theorem absentSegmentBytes_eq : absentSegmentBytes = 0 :: List.replicate 9 0xFF := rfl

theorem itemQueriesAnswer : Says.ItemQueriesAnswer := by
  intro s f rest n
  refine ⟨fun hs => ?vehicle, fun hs => ?move, fun hs => ?segment, fun hs => ?zone⟩
  case vehicle =>
    refine congrArg Host.Outcome.next ?_
    have hfind : findVehicle (openRequest rest s) n = findVehicle s n := rfl
    split
    next h => exact serveQuery_eq_answered hs (by decide) (if_pos h)
    next h =>
      split
      next hnone =>
        refine serveQuery_eq_answered hs (by decide) ((if_neg h).trans ?_)
        rw [hfind, hnone]
        rfl
      next slot x hsome =>
        refine serveQuery_eq_answered hs (by decide) ((if_neg h).trans ?_)
        rw [hfind, hsome]
        rfl
  case move =>
    refine congrArg Host.Outcome.next ?_
    have hfind : findMove (openRequest rest s) n = findMove s n := rfl
    split
    next h => exact serveQuery_eq_answered hs (by decide) (if_pos h)
    next h =>
      split
      next hnone =>
        refine serveQuery_eq_answered hs (by decide) ((if_neg h).trans ?_)
        rw [hfind, hnone]
        rfl
      next y hsome =>
        refine serveQuery_eq_answered hs (by decide) ((if_neg h).trans ?_)
        rw [hfind, hsome]
        rfl
  case segment =>
    refine congrArg Host.Outcome.next ?_
    have hseg : segment (openRequest rest s) n = segment s n := rfl
    have hres : resRec (openRequest rest s) n = resRec s n := rfl
    split
    next h => exact serveQuery_eq_answered hs (by decide) (if_pos h)
    next h =>
      split
      next r x hr hx =>
        refine serveQuery_eq_answered hs (by decide) ((if_neg h).trans ?_)
        rw [hseg, hres, hr, hx]
        rfl
      next hnone =>
        refine serveQuery_eq_answered hs (by decide) ((if_neg h).trans ?_)
        rw [hseg, hres, ← absentSegmentBytes_eq]
        split
        next r x hr hx => exact absurd hx (hnone r x hr)
        next => rfl
  case zone =>
    refine congrArg Host.Outcome.next ?_
    split
    next h => exact serveQuery_eq_answered hs (by decide) (if_pos h)
    next h => exact serveQuery_eq_answered hs (by decide) ((if_neg h).trans rfl)

theorem listQueriesAnswer : Says.ListQueriesAnswer := by
  intro s f rest n
  refine ⟨fun hs => ?roster, fun hs => ?moves, fun hs => ?flags, fun hs => ?identity, fun hs => ?mode⟩
  case roster => exact congrArg Host.Outcome.next (serveQuery_eq_answered hs (by decide) rfl)
  case moves =>
    refine congrArg Host.Outcome.next ?_
    split
    next h => exact serveQuery_eq_answered hs (by decide) (if_pos h)
    next h =>
      refine serveQuery_eq_answered hs (by decide) ((if_neg h).trans ?_)
      rw [← List.map_drop, ← List.map_take]
      rfl
  case flags =>
    refine congrArg Host.Outcome.next (serveQuery_eq_answered hs (by decide) ?_)
    rfl
  case identity => exact congrArg Host.Outcome.next (serveQuery_eq_answered hs (by decide) rfl)
  case mode =>
    refine congrArg Host.Outcome.next (serveQuery_eq_answered hs (by decide) ?_)
    have hmode : (openRequest rest s).mode = s.mode := rfl
    rw [queryMode, answer, modeBytes, hmode]
    cases s.mode <;> rfl

/-- Settles O24. -/
theorem queriesAnswer : Obligations.QueriesAnswer := ⟨itemQueriesAnswer, listQueriesAnswer⟩

/-! ### RESTART (R184) -/

theorem clearReservations_eq (s : State) :
    clearReservations s = { s with srt := restingTable s.mc.identity.cell s.layout.segs } := by
  rw [← restingTable_eq]
  rfl

/-- What a RESTART leaves, with its REPLY appended. -/
theorem closed_restart (full reload : Bool) (s : State) (f : FloorFrame) (rest : List FloorFrame) :
    closed f .done (restart full reload (openRequest rest s)) = restarted s full reload f := by
  rw [restart, clearReservations_eq]
  rfl

/-- Settles O26. -/
theorem restartReturnsToParked : Obligations.RestartReturnsToParked := by
  intro s f rest b hs hkind
  refine ⟨fun hp => congrArg Host.Outcome.next ?_, fun hp => congrArg Host.Outcome.next ?_⟩
  · refine (serveRequest_eq_closed hs (isKindWith_of_cons hkind (sel := 0) hp (by decide)) ?_).trans
      (closed_restart false (b.getLsbD 0) s f rest)
    rw [withPayload_of_read (a := b.getLsbD 0) (by rw [hp]; rfl)]
    rfl
  · refine (serveRequest_eq_closed hs (isKindWith_of_cons hkind (sel := 1) hp (by decide)) ?_).trans
      (closed_restart true (b.getLsbD 0) s f rest)
    rw [withPayload_of_read (a := b.getLsbD 0) (by rw [hp]; rfl)]
    rfl

/-! ### IDENTIFY and the write of the copy (R182, R183) -/

end Sys2Proof.Machine

namespace Sys2Proof.Says

open Sys2Proof.Machine

/-- What the engine reads of an IDENTIFY with these fields: `readIdentify_bytes`. -/
def IdFields.request (q : IdFields) : IdentifyRequest :=
  { cell := q.cell, haltEnable := q.haltEnable, persist := q.persist, neighbours := q.neighbours }

end Sys2Proof.Says

namespace Sys2Proof.Machine

open Sys2Proof.Says

theorem readIdentify_bytes {q : IdFields} (hcell : q.cell < 256) (hlen : q.neighbours.length < 256)
    (hcells : ∀ c ∈ q.neighbours, c < 256) : readIdentify q.bytes = some q.request := by
  have hflags : (byte ((if q.haltEnable then 1 else 0) + (if q.persist then 2 else 0))).getLsbD 0 = q.haltEnable ∧
      (byte ((if q.haltEnable then 1 else 0) + (if q.persist then 2 else 0))).getLsbD 1 = q.persist := by
    cases q.haltEnable <;> cases q.persist <;> decide
  simp only [IdFields.bytes, List.cons_append, List.nil_append, readIdentify, List.length_map, toNat_byte_of_lt hlen,
    toNat_byte_of_lt hcell, map_toNat_map_byte hcells, hflags, if_true, IdFields.request]

theorem inRange_request_iff (q : IdFields) : q.request.inRange = true ↔ q.Good := by
  simp only [IdentifyRequest.inRange, Bool.and_eq_true, decide_eq_true_eq, List.all_eq_true, bne_iff_ne, and_assoc]
  exact Iff.rfl

theorem takeIdentity_request (q : IdFields) (s : State) : takeIdentity q.request s = identified s q := by
  rw [takeIdentity, clearReservations_eq]
  rfl

theorem identifySetsRecord : Says.IdentifySetsRecord := by
  intro s f rest q hs hkind hpayload hcell hlen hcells
  have hread {r : State × Option Reply} (h : serveIdentify f q.request (openRequest rest s) = r) :
      withPayload readIdentify serveIdentify f (openRequest rest s) = r := by
    rw [withPayload_of_read (by rw [hpayload]; exact readIdentify_bytes hcell hlen hcells), h]
  have hrefuse {c : Code} (h : serveIdentify f q.request (openRequest rest s) = refuse c (openRequest rest s)) :
      exec .identify s = .next (answered s f rest c []) :=
    congrArg Host.Outcome.next (serveRequest_eq_refused hs (isKind_of_eq hkind) (hread h))
  have hidle (h : s.mc.check = none) : ¬ checkRunning (openRequest rest s) = true := by
    change ¬ s.mc.check.isSome = true
    simp [h]
  have hwindow (h : s.mc.windowClosed = false) : ¬ (openRequest rest s).mc.windowClosed = true := by
    change ¬ s.mc.windowClosed = true
    simp [h]
  refine ⟨fun h => hrefuse ?busy, fun hcheck h => hrefuse ?state, fun hcheck hmode hopen hbad => hrefuse ?range,
    fun hcheck hmode hopen hgood => ?taken⟩
  case busy => exact if_pos (Option.isSome_iff_ne_none.2 h)
  case state =>
    rw [serveIdentify, if_neg (hidle hcheck)]
    by_cases hmode : s.mode = .parked
    · rw [if_neg (by exact not_not.2 hmode), if_pos (by exact h.resolve_left (not_not.2 hmode))]
    · rw [if_pos (by exact hmode)]
  case range =>
    rw [serveIdentify, if_neg (hidle hcheck), if_neg (by exact not_not.2 hmode), if_neg (hwindow hopen),
      if_pos (by simpa [← inRange_request_iff] using hbad)]
  case taken =>
    have hrange : ¬ (!q.request.inRange) = true := by simpa using (inRange_request_iff q).2 hgood
    refine ⟨fun hpersist => congrArg Host.Outcome.next ?_, fun hpersist => congrArg Host.Outcome.next ?_⟩
    · refine (serveRequest_eq_closed hs (isKind_of_eq hkind) (hread ?_)).trans
        (closed_openRequest f rest .done (identified s q))
      rw [serveIdentify, if_neg (hidle hcheck), if_neg (by exact not_not.2 hmode), if_neg (hwindow hopen),
        if_neg hrange, if_neg (by simp [IdFields.request, hpersist]), takeIdentity_request]
      rfl
    · refine serveRequest_eq_owed hs (isKind_of_eq hkind) (hread ?_)
      rw [serveIdentify, if_neg (hidle hcheck), if_neg (by exact not_not.2 hmode), if_neg (hwindow hopen),
        if_neg hrange, if_pos (by exact hpersist), takeIdentity_request]
      rfl

theorem loads_imageOf (q : IdFields) : (imageOf q).loads = true := by simp [Image.loads, imageOf]

theorem writeStoresCopy : Says.WriteStoresCopy := by
  refine ⟨fun s hrunning => ⟨fun hnone => congrArg Host.Outcome.next ?_, fun image asker hwrite =>
      congrArg Host.Outcome.next ?_⟩, fun q => ?_, fun i hcheck => ?_, rfl⟩
  · rw [whenRunning_of_running hrunning, writeCompletes, hnone]
  · rw [whenRunning_of_running hrunning, writeCompletes, hwrite]
    rfl
  · rw [loadCopy, if_pos (loads_imageOf q)]
    rfl
  · exact if_neg (by simpa [Image.loads] using hcheck)

/-- Settles O27. -/
theorem identityIsSet : Obligations.IdentityIsSet := ⟨identifySetsRecord, writeStoresCopy⟩

/-! ### Requests no other row takes (R163) -/

/-- A LOAD or MODE no row takes goes through the first two checks of its owner. -/
theorem serveUnknown_of_owner {f : FloorFrame} (s : State) (hpayload : f.payload ≠ [])
    (hkind : f.kind = kindLoad ∨ f.kind = kindMode ∧ f.payload.length = 1) :
    serveUnknown f s =
      if cellUnset s then refuse .refusedState s
      else if checkRunning s then refuse .busy s
      else refuse .refusedRange s := if_pos ⟨hpayload, hkind⟩

theorem isUnknownRequest_of_selector {f : FloorFrame} {n : Byte} {more : List Byte} {k : Nat}
    (hpayload : f.payload = n :: more) (hn : k ≤ n.toNat)
    (hkind : (f.kind, k) ∈ [(kindLoad, 8), (kindMode, 3), (kindQuery, 9), (kindRestart, 2)]) :
    isUnknownRequest f = true := by
  have hsel {j : Nat} (hj : j ≤ n.toNat) : selectorBelow j f = false := by
    simp [selectorBelow, FloorFrame.selector, hpayload, hj]
  simp only [List.mem_cons, Prod.mk.injEq, List.not_mem_nil, or_false] at hkind
  obtain ⟨h, rfl⟩ | ⟨h, rfl⟩ | ⟨h, rfl⟩ | ⟨h, rfl⟩ := hkind <;>
    simp [isUnknownRequest, isPeer, hasRow, h, hsel hn, kindLoad, kindMode, kindQuery, kindRestart, kindClaim, kindAbandon]

theorem isUnknownRequest_of_kind {f : FloorFrame} (h : f.kind < 0x20 ∨ 0x2B < f.kind ∧ f.kind < 0x40 ∨ 0x45 < f.kind) :
    isUnknownRequest f = true := by
  have hpeer : isPeer f = false := by
    simp only [isPeer, Bool.and_eq_false_iff, decide_eq_false_iff_not]
    unfold kindClaim kindAbandon
    omega
  have hrow : hasRow f = false := by
    unfold hasRow
    rw [if_neg (by unfold kindLoad; omega), if_neg (by unfold kindMode; omega), if_neg (by unfold kindQuery; omega),
      if_neg (by unfold kindRestart; omega)]
    simp only [Bool.and_eq_false_iff, decide_eq_false_iff_not]
    unfold kindMove kindIdentify
    omega
  rw [isUnknownRequest, hpeer, hrow]
  rfl

/-- Settles O28. -/
theorem unknownRequestRefused : Obligations.UnknownRequestRefused := by
  intro s f rest n more hs
  have hrow {c : Code} (hp : isUnknownRequest f = true)
      (hh : serveUnknown f (openRequest rest s) = refuse c (openRequest rest s)) :
      exec .unknownRequestKind s = .next (answered s f rest c []) :=
    congrArg Host.Outcome.next (serveRequest_eq_refused hs hp hh)
  have hother {k : Nat} (hk : f.kind = k) (h : k ≠ kindLoad ∧ k ≠ kindMode) :
      serveUnknown f (openRequest rest s) = refuse .refusedRange (openRequest rest s) := by
    refine if_neg fun hown => ?_
    obtain hload | ⟨hmode, -⟩ := hown.2
    · exact h.1 (hk.symm.trans hload)
    · exact h.2 (hk.symm.trans hmode)
  have howner (hp : isUnknownRequest f = true) (hpayload : f.payload ≠ [])
      (hkind : f.kind = kindLoad ∨ f.kind = kindMode ∧ f.payload.length = 1) :
      exec .unknownRequestKind s = .next (
        if s.mc.identity.cell = none then answered s f rest .refusedState []
        else if s.mc.check ≠ none then answered s f rest .busy []
        else answered s f rest .refusedRange []) := by
    have hserve := serveUnknown_of_owner (openRequest rest s) hpayload hkind
    split
    next hcell =>
      rw [if_pos (by exact Option.isNone_iff_eq_none.2 hcell)] at hserve
      exact hrow hp hserve
    next hcell =>
      rw [if_neg (by simp [cellUnset_eq_false (s := openRequest rest s) hcell])] at hserve
      split
      next hcheck =>
        rw [if_pos (by exact Option.isSome_iff_ne_none.2 hcheck)] at hserve
        exact hrow hp hserve
      next hcheck =>
        rw [if_neg (by exact fun h => hcheck (Option.isSome_iff_ne_none.1 h))] at hserve
        exact hrow hp hserve
  refine ⟨fun h => ?kinds, fun h => ?owners, fun h => ?others⟩
  case kinds =>
    refine hrow (isUnknownRequest_of_kind h) (hother rfl ⟨?_, ?_⟩)
    · unfold kindLoad
      omega
    · unfold kindMode
      omega
  case owners =>
    obtain ⟨hk, hp, hn⟩ | ⟨hk, hp, hn⟩ := h
    · exact howner (isUnknownRequest_of_selector hp hn (by simp [hk, kindLoad])) (by simp [hp]) (.inl hk)
    · exact howner (isUnknownRequest_of_selector hp hn (by simp [hk, kindMode])) (by simp [hp]) (.inr ⟨hk, by simp [hp]⟩)
  case others =>
    obtain ⟨hk, hp, hn⟩ | ⟨hk, hp, hn⟩ := h
    · exact hrow (isUnknownRequest_of_selector hp hn (by simp [hk, kindQuery])) (hother hk (by decide))
    · exact hrow (isUnknownRequest_of_selector hp hn (by simp [hk, kindRestart])) (hother hk (by decide))

end Sys2Proof.Machine

/-! PROOFS. The reset pin and the supply, floor and peer frames as they arrive, vehicle frames without a record. -/

namespace Sys2Proof.Machine

open Sys2Proof.Says

/-! ### An engine that does not run (R185) -/

section
variable {s : State}

theorem serveRequest_of_stopped {p : FloorFrame → Bool} {h : FloorFrame → State → State × Option Reply}
    (hs : s.running = false) : serveRequest p h s = s := if_neg (by simp [hs])

theorem servePeer_of_stopped {α : Type} {kind : Nat} {read : List Byte → Option α} {h : Nat → α → State → State}
    (hs : s.running = false) : servePeer kind read h s = s := if_neg (by simp [hs])

theorem takeTrack_of_stopped {p : VehicleFrame → Bool} {h : TrackEntry → State → State} (hs : s.running = false) :
    takeTrack p h s = s := if_neg (by simp [hs])

end

/-- The commands of pins and supply. -/
def pinCommands : List Instr :=
  [.haltInputAsserted, .haltInputReleased, .resetPinAsserted, .resetPinReleased, .powerOn, .lossOfPower]

theorem exec_of_stopped {s : State} (hs : s.running = false) (c : Instr) (hc : c ∉ pinCommands) :
    exec c s = .next s := by
  cases c
  case haltInputAsserted | haltInputReleased | resetPinAsserted | resetPinReleased | powerOn | lossOfPower =>
    exact absurd hc (by decide)
  case move | cancel | forget | block | unblock | loadSegment | loadZone | loadPort | loadRoute | loadExit | loadTuning
      | loadCap | loadSeverity | activate | modeDispatching | modeHalted | modeParked | queryVehicle | queryMove
      | querySegment | queryZone | queryRosterList | queryMoveList | queryStatusFlags | queryIdentity | queryMode | clear
      | restartKeepLayout | restartFull | identify | unknownRequestKind =>
    exact congrArg Host.Outcome.next (serveRequest_of_stopped hs)
  case claim | claimGrant | claimRefuse | claimWithdraw | arrived | abandon =>
    exact congrArg Host.Outcome.next (servePeer_of_stopped hs)
  case join | position | statusConfirm | statusHoistStart | statusHoistDone | statusHoistFault | statusFault
      | statusCleared =>
    exact congrArg Host.Outcome.next (takeTrack_of_stopped hs)
  case activationCheckComplete | nonvolatileWriteComplete | floorFrameArrival | floorFrameSent | trackFrameReceived
      | sendGrant | sendAssign | sendWithdraw | sendHold | sendAllHold | sendResume | sendRollcall | engineFrameOutcome
      | lastHeardDeadline | confirmDeadline | claimDeadline | arrivalDeadline | ageTimer | dispatchTimer | dispatchPass =>
    exact congrArg Host.Outcome.next (whenRunning_of_stopped hs)

theorem cutWrite_of_none {s : State} (h : s.mc.write = none) : cutWrite s = s := by
  rw [cutWrite, h]

theorem cutWrite_write (s : State) : (cutWrite s).mc.write = none := by
  unfold cutWrite
  split
  next h => exact h
  next => rfl

theorem power_of_running {s : State} (h : s.running = true) : s.board.power = true := by
  simp only [State.running, Bool.and_eq_true] at h
  exact h.1

/-- Settles O58. -/
theorem resetAndPower : Obligations.ResetAndPower := by
  intro s
  refine ⟨fun hs c hc => exec_of_stopped hs c hc, fun hs hwrite => ⟨?pin, ?loss⟩, fun hs w hwrite => ⟨?cutPin, ?cutLoss⟩,
    fun hpower hpin => ?release, fun hpower => ?start, fun hpower => ?again⟩
  case pin =>
    refine congrArg Host.Outcome.next ((if_pos hs).trans ?_)
    rw [resetAsserted, cutWrite_of_none hwrite]
  case loss =>
    refine congrArg Host.Outcome.next ((if_pos (power_of_running hs)).trans ?_)
    rw [powerLost, cutWrite_of_none hwrite]
  case cutPin =>
    exact ⟨_, congrArg Host.Outcome.next (if_pos hs), by simp [State.running, resetAsserted], rfl, cutWrite_write s⟩
  case cutLoss =>
    exact ⟨_, congrArg Host.Outcome.next (if_pos (power_of_running hs)), by simp [State.running, powerLost], rfl,
      cutWrite_write s⟩
  case release => exact congrArg Host.Outcome.next (if_pos (by simp [hpower, hpin]))
  case start => exact congrArg Host.Outcome.next (if_neg (by simp [hpower]))
  case again => exact congrArg Host.Outcome.next (if_pos hpower)

/-! ### Peer frames (R128, R190) -/

section
variable {α : Type} {kind : Nat} {read : List Byte → Option α} {h : Nat → α → State → State} {s : State}
  {f : FloorFrame} {rest : List FloorFrame}

/-- What a peer row makes of the frame at the front, whatever its payload and source. -/
theorem servePeer_eq (hs : Takes s f rest) (hk : f.kind = kind) :
    servePeer kind read h s =
      match read f.payload with
      | none => popped s rest
      | some a =>
        if f.src ∈ s.mc.identity.neighbours then h f.src a (popped s rest)
        else raise .floorReject { noDetail with cell := cellDetail f.src } (popped s rest) := by
  have hfront := takesFront_of_takes hs
  obtain ⟨hrunning, hinbound, -, -⟩ := hs
  simp only [servePeer, hrunning, hinbound, hfront, hk, if_true, beq_self_eq_true, Bool.and_self]
  rfl

theorem servePeer_of_unread (hs : Takes s f rest) (hk : f.kind = kind) (hread : read f.payload = none) :
    servePeer kind read h s = popped s rest := by rw [servePeer_eq hs hk, hread]

theorem servePeer_of_stranger (hs : Takes s f rest) (hk : f.kind = kind) {a : α} (hread : read f.payload = some a)
    (hsrc : f.src ∉ s.mc.identity.neighbours) :
    servePeer kind read h s = raise .floorReject { noDetail with cell := cellDetail f.src } (popped s rest) := by
  rw [servePeer_eq hs hk, hread]
  exact if_neg hsrc

theorem servePeer_of_read (hs : TakesPeer s f rest kind) {a : α} (hread : read f.payload = some a) :
    servePeer kind read h s = h f.src a (popped s rest) := by
  obtain ⟨htakes, hk, hsrc⟩ := hs
  rw [servePeer_eq htakes hk, hread]
  exact if_pos hsrc

end

theorem readPeer_peerBytes {tag seg v : Nat} (ht : tag < 256) (hseg : seg < 65536) (hv : v < 256) :
    readPeer (peerBytes tag seg v) = some { tag := tag, segment := seg, vehicle := v } := by
  simp only [peerBytes, bytes2, List.cons_append, List.nil_append, readPeer, num2_bytes_of_lt hseg, toNat_byte_of_lt ht,
    toNat_byte_of_lt hv]

/-- A head as it is read: its fields fit, and its bytes begin the payload. -/
structure HeadOf (p : PeerHead) (payload : List Byte) : Prop where
  starts : peerBytes p.tag p.segment p.vehicle <+: payload
  tag : p.tag < 256
  segment : p.segment < 65536
  vehicle : p.vehicle < 256

theorem byte_toNat (b : Byte) : byte b.toNat = b := BitVec.ofNat_toNat 8 b

theorem bytes2_num2 (a b : Byte) : bytes2 (num2 a b) = [a, b] := by
  have hhigh : byte (num2 a b / 256) = a := by
    rw [show num2 a b / 256 = a.toNat by unfold num2; omega, byte_toNat]
  have hlow : byte (num2 a b) = b := by
    apply BitVec.eq_of_toNat_eq
    rw [toNat_byte]
    unfold num2
    omega
  rw [bytes2, hhigh, hlow]

theorem num2_lt (a b : Byte) : num2 a b < 65536 := by
  unfold num2
  omega

theorem headOf_cons (t s1 s0 v : Byte) (more : List Byte) :
    HeadOf { tag := t.toNat, segment := num2 s1 s0, vehicle := v.toNat } (t :: s1 :: s0 :: v :: more) where
  starts := ⟨more, by simp only [peerBytes, byte_toNat, bytes2_num2, List.cons_append, List.nil_append]⟩
  tag := t.isLt
  segment := num2_lt s1 s0
  vehicle := v.isLt

/-- A reader of `size` bytes. -/
structure ReadsSize {α : Type} (read : List Byte → Option α) (size : Nat) : Prop where
  short : ∀ l, l.length ≠ size → read l = none
  whole : ∀ l, l.length = size → ∃ a, read l = some a

theorem readsSize_readPeer : ReadsSize readPeer 4 where
  short l hl := by
    unfold readPeer
    split
    · exact absurd rfl hl
    · rfl
  whole l hl := by
    match l, hl with
    | [_, _, _, _], _ => exact ⟨_, rfl⟩

theorem readsSize_readRefuse : ReadsSize readRefuse 5 where
  short l hl := by
    unfold readRefuse
    split
    · exact absurd rfl hl
    · rfl
  whole l hl := by
    match l, hl with
    | [_, _, _, _, _], _ => exact ⟨_, rfl⟩

theorem readsSize_readClaim : ReadsSize readClaim 15 where
  short l hl := by
    unfold readClaim
    split
    · exact absurd rfl hl
    · rfl
  whole l hl := by
    match l, hl with
    | [_, _, _, _, _, _, _, _, _, _, _, _, _, _, _], _ => exact ⟨_, rfl⟩

theorem headOf_readPeer {l : List Byte} {p : PeerHead} (h : readPeer l = some p) : HeadOf p l := by
  unfold readPeer at h
  split at h
  · cases h
    exact headOf_cons _ _ _ _ _
  · cases h

theorem headOf_readRefuse {l : List Byte} {p : PeerHead} (h : readRefuse l = some p) : HeadOf p l := by
  unfold readRefuse at h
  split at h
  · cases h
    exact headOf_cons _ _ _ _ _
  · cases h

/-- No outgoing entry has the head's fields and the source as its owner. -/
theorem matchOut_eq_none {s : State} {cell : Nat} {p : PeerHead} {payload : List Byte} (hp : HeadOf p payload)
    (h : ∀ e ∈ s.bxu.outClaims, ¬ (peerBytes e.tag e.segment e.vehicle <+: payload
      ∧ e.tag < 256 ∧ e.segment < 65536 ∧ e.vehicle < 256 ∧ ownerOf s e.segment = some cell)) :
    matchOut s cell p = none := by
  refine List.find?_eq_none.2 fun e he hmatch => h e he ?_
  simp only [Bool.and_eq_true, beq_iff_eq] at hmatch
  obtain ⟨⟨⟨htag, hseg⟩, hv⟩, howner⟩ := hmatch
  rw [htag, hseg, hv]
  exact ⟨hp.starts, hp.tag, hp.segment, hp.vehicle, by rw [← hseg]; exact howner⟩

/-- One row: what it discards and what it rejects. -/
theorem peerRow_discards {α : Type} {kind size : Nat} {read : List Byte → Option α} (hread : ReadsSize read size)
    {h : Nat → α → State → State} {s : State} {f : FloorFrame} {rest : List FloorFrame} {c : Instr}
    (hexec : exec c s = .next (servePeer kind read h s)) (hs : Takes s f rest) (hk : f.kind = kind) :
    (f.payload.length ≠ size → exec c s = .next (popped s rest)) ∧
    (f.payload.length = size → f.src ∉ s.mc.identity.neighbours →
      exec c s = .next (raise .floorReject { noDetail with cell := if f.src ≤ 63 then some f.src else none }
        (popped s rest))) := by
  rw [hexec]
  refine ⟨fun hlen => congrArg _ (servePeer_of_unread hs hk (hread.short _ hlen)), fun hlen hsrc => congrArg _ ?_⟩
  obtain ⟨a, ha⟩ := hread.whole _ hlen
  exact servePeer_of_stranger hs hk ha hsrc

/-- A row whose handling leaves the state where no outgoing entry matches. -/
theorem peerRow_unmatched {kind size : Nat} {read : List Byte → Option PeerHead} (hread : ReadsSize read size)
    (hhead : ∀ {l p}, read l = some p → HeadOf p l) {h : Nat → PeerHead → State → State}
    (hh : ∀ cell p t, matchOut t cell p = none → h cell p t = t) {s : State} {f : FloorFrame} {rest : List FloorFrame}
    {c : Instr} (hexec : exec c s = .next (servePeer kind read h s)) (hs : Takes s f rest) (hk : f.kind = kind)
    (hlen : f.payload.length = size) (hsrc : f.src ∈ s.mc.identity.neighbours)
    (hnone : ∀ e ∈ s.bxu.outClaims, ¬ (peerBytes e.tag e.segment e.vehicle <+: f.payload
      ∧ e.tag < 256 ∧ e.segment < 65536 ∧ e.vehicle < 256 ∧ ownerOf s e.segment = some f.src)) :
    exec c s = .next (popped s rest) := by
  obtain ⟨p, hp⟩ := hread.whole _ hlen
  rw [hexec, servePeer_of_read ⟨hs, hk, hsrc⟩ hp]
  exact congrArg _ (hh _ _ _ (matchOut_eq_none (hhead hp) hnone))

theorem takeGrant_of_unmatched (cell : Nat) (p : PeerHead) (t : State) (h : matchOut t cell p = none) :
    takeGrant cell p t = t := by rw [takeGrant, h]
theorem takeRefuse_of_unmatched (cell : Nat) (p : PeerHead) (t : State) (h : matchOut t cell p = none) :
    takeRefuse cell p t = t := by rw [takeRefuse, h]
theorem takeArrived_of_unmatched (cell : Nat) (p : PeerHead) (t : State) (h : matchOut t cell p = none) :
    takeArrived cell p t = t := by rw [takeArrived, h]
theorem takeAbandon_of_unmatched (cell : Nat) (p : PeerHead) (t : State) (h : matchOut t cell p = none) :
    takeAbandon cell p t = t := by rw [takeAbandon, h]

/-- Settles O37: each of the six rows is one `servePeer`. -/
theorem peerFramesDiscarded : Obligations.PeerFramesDiscarded := by
  intro s f rest c kind size hc hs hk
  simp only [List.mem_cons, List.not_mem_nil, or_false, Prod.mk.injEq] at hc
  obtain ⟨rfl, rfl, rfl⟩ | ⟨rfl, rfl, rfl⟩ | ⟨rfl, rfl, rfl⟩ | ⟨rfl, rfl, rfl⟩ | ⟨rfl, rfl, rfl⟩ | ⟨rfl, rfl, rfl⟩ := hc
  · obtain ⟨hshort, hstranger⟩ := peerRow_discards readsSize_readClaim (c := .claim) rfl hs hk
    exact ⟨hshort, hstranger, fun h => absurd h (by decide)⟩
  · obtain ⟨hshort, hstranger⟩ := peerRow_discards readsSize_readPeer (c := .claimGrant) rfl hs hk
    exact ⟨hshort, hstranger, fun _ =>
      peerRow_unmatched readsSize_readPeer headOf_readPeer takeGrant_of_unmatched rfl hs hk⟩
  · obtain ⟨hshort, hstranger⟩ := peerRow_discards readsSize_readRefuse (c := .claimRefuse) rfl hs hk
    exact ⟨hshort, hstranger, fun _ =>
      peerRow_unmatched readsSize_readRefuse headOf_readRefuse takeRefuse_of_unmatched rfl hs hk⟩
  · obtain ⟨hshort, hstranger⟩ := peerRow_discards readsSize_readPeer (c := .claimWithdraw) rfl hs hk
    exact ⟨hshort, hstranger, fun h => absurd h (by decide)⟩
  · obtain ⟨hshort, hstranger⟩ := peerRow_discards readsSize_readPeer (c := .arrived) rfl hs hk
    exact ⟨hshort, hstranger, fun _ =>
      peerRow_unmatched readsSize_readPeer headOf_readPeer takeArrived_of_unmatched rfl hs hk⟩
  · obtain ⟨hshort, hstranger⟩ := peerRow_discards readsSize_readPeer (c := .abandon) rfl hs hk
    exact ⟨hshort, hstranger, fun _ =>
      peerRow_unmatched readsSize_readPeer headOf_readPeer takeAbandon_of_unmatched rfl hs hk⟩

/-! ### Floor frames on the line (R160, R161, R190) -/

theorem parse_of_short {bs : List Byte} (h : bs.length < 9) : FloorFrame.parse bs = none := by
  unfold FloorFrame.parse
  split
  next d s k t1 t0 l1 l0 rest =>
    refine if_neg fun hlen => ?_
    obtain ⟨hlen, -⟩ := hlen
    omega
  next => rfl

section
variable {dst src kind t1 t0 l1 l0 c1 c0 : Byte} {payload : List Byte}

/-- What is read of a header, a payload and two check bytes. -/
theorem parse_eq :
    FloorFrame.parse ([dst, src, kind, t1, t0, l1, l0] ++ payload ++ [c1, c0]) =
      if payload.length = num2 l1 l0 ∧ num2 l1 l0 ≤ 320 then
        some ({ dst := dst.toNat, src := src.toNat, kind := kind.toNat, tag := num2 t1 t0, payload := payload },
          [c1, c0] == bytes2 (crc16 ([dst, src, kind, t1, t0, l1, l0] ++ payload)).toNat)
      else none := by
  have hlen : ([dst, src, kind, t1, t0, l1, l0] ++ payload ++ [c1, c0]).length = 9 + payload.length := by
    simp
    omega
  change (if ([dst, src, kind, t1, t0, l1, l0] ++ payload ++ [c1, c0]).length = 9 + num2 l1 l0 ∧ num2 l1 l0 ≤ 320 then
    some (FloorFrame.mk _ _ _ _ ((payload ++ [c1, c0]).take (num2 l1 l0)),
      (payload ++ [c1, c0]).drop (num2 l1 l0) == bytes2 (crc16 (([dst, src, kind, t1, t0, l1, l0] ++ payload ++ [c1, c0]).take
        (([dst, src, kind, t1, t0, l1, l0] ++ payload ++ [c1, c0]).length - 2))).toNat) else none) = _
  rw [hlen]
  by_cases h : payload.length = num2 l1 l0 ∧ num2 l1 l0 ≤ 320
  · obtain ⟨hfit, hmax⟩ := id h
    have hhead : ([dst, src, kind, t1, t0, l1, l0] ++ payload).length = 9 + payload.length - 2 := by
      simp
      omega
    rw [if_pos ⟨by omega, hmax⟩, if_pos h, ← hfit, List.take_left, List.drop_left, ← hhead, List.take_left]
  · rw [if_neg (fun hc => h ⟨by omega, hc.2⟩), if_neg h]

end

theorem checkBytes_eq_iff (c1 c0 : Byte) (w : BitVec 16) : ([c1, c0] == bytes2 w.toNat) = true ↔ w.toNat = num2 c1 c0 := by
  rw [beq_iff_eq, ← bytes2_num2]
  refine ⟨fun h => ?_, fun h => by rw [h]⟩
  have hread := congrArg readNum2 h
  rw [readNum2_bytes2 (num2_lt c1 c0), readNum2_bytes2 w.isLt] at hread
  exact (Option.some.inj hread).symm

theorem addressedHere_iff {s : State} {f : FloorFrame} :
    addressedHere s f = false ↔ ∃ n, s.mc.identity.cell = some n ∧ f.dst ≠ n ∧ f.dst ≠ 255 := by
  unfold addressedHere
  split
  next h => simp [h]
  next c h => simp [h, anyAddress]

theorem isOutgoingKind_iff {k : Nat} : isOutgoingKind k = true ↔ k ∈ [0x60, 0x61, 0x62] := by
  simp [isOutgoingKind, kindReply, kindMoveReport, kindNotice, or_assoc]

/-- Settles O38. -/
theorem floorFramesArriveAndLeave : Obligations.FloorFramesArriveAndLeave := by
  have hexec {s : State} (hs : s.running = true) (bs : List Byte) :
      exec (.floorFrameArrival bs) s = .next (floorArrival bs s) :=
    congrArg Host.Outcome.next (whenRunning_of_running hs)
  refine ⟨?arrival, fun s bs hs hlen => ?short, fun s f rest hs hout => ?sent, fun s hs hout => ?idle⟩
  case arrival =>
    intro s f dst src kind t1 t0 l1 l0 c1 c0 payload hs hf head bs
    refine ⟨fun hlen => ?_, fun hlen hmax hcrc => ?_, fun hlen hmax hcrc => ?_⟩
    · rw [hexec hs, floorArrival, parse_eq, if_neg (by omega)]
    · rw [hexec hs, floorArrival, parse_eq, if_pos ⟨hlen, by omega⟩]
      have hcheck : ([c1, c0] == bytes2 (crc16 ([dst, src, kind, t1, t0, l1, l0] ++ payload)).toNat) = false :=
        Bool.eq_false_iff.2 fun h => hcrc ((checkBytes_eq_iff c1 c0 _).1 h)
      rw [hcheck]
      rfl
    · rw [hexec hs, floorArrival, parse_eq, if_pos ⟨hlen, by omega⟩, ← hf]
      have hcheck : ([c1, c0] == bytes2 (crc16 ([dst, src, kind, t1, t0, l1, l0] ++ payload)).toNat) = true :=
        (checkBytes_eq_iff c1 c0 _).2 hcrc
      rw [hcheck]
      simp only [Bool.not_true, Bool.false_or, Bool.or_eq_true, Bool.not_eq_true', addressedHere_iff,
        isOutgoingKind_iff]
      rfl
  case short => rw [hexec hs, floorArrival, parse_of_short hlen]
  case sent =>
    refine congrArg Host.Outcome.next ((whenRunning_of_running hs).trans ?_)
    rw [floorSent, hout]
    rfl
  case idle =>
    refine congrArg Host.Outcome.next ((whenRunning_of_running hs).trans ?_)
    rw [floorSent, hout]

/-! ### Vehicle frames without a record (R68) -/

theorem popTrack_eq (rest : List TrackEntry) (s : State) :
    popTrack rest s = { s with tli := { s.tli with
      queue := rest, pacing := pacingAt s.layout.tuning s.tli.pacing rest.length } } := rfl

section
variable {p : VehicleFrame → Bool} {h : TrackEntry → State → State} {s : State} {e : TrackEntry} {rest : List TrackEntry}

theorem takeTrack_of_parked (hs : s.running = true) (hq : s.tli.queue = e :: rest) (hp : p e.body = true)
    (hmode : s.mode = .parked) : takeTrack p h s = popTrack rest s := by
  simp only [takeTrack, hs, hq, hp, hmode, if_true]

theorem takeTrack_of_taken (hs : TakesEntry s e rest) (hp : p e.body = true) :
    takeTrack p h s = h e (popTrack rest s) := by
  obtain ⟨hrunning, hq, hmode⟩ := hs
  simp only [takeTrack, hrunning, hq, hp, if_true, if_neg hmode]

end

/-- Every vehicle frame has one row that takes it; a STATUS frame's row is one of `takeStatus`. -/
theorem exec_rowOf (b : VehicleFrame) :
    ∃ p h, p b = true ∧ (∀ s, exec (rowOf b) s = .next (takeTrack p h s)) ∧ (kindOf b = 3 → ∃ g, h = takeStatus g) := by
  match b with
  | .join _ _ _ _ => exact ⟨_, _, rfl, fun _ => rfl, fun h => absurd h (by change ¬ (1 : Byte) = 3; decide)⟩
  | .position _ _ _ => exact ⟨_, _, rfl, fun _ => rfl, fun h => absurd h (by change ¬ (2 : Byte) = 3; decide)⟩
  | .status .confirm _ _ _ _ => exact ⟨_, _, rfl, fun _ => rfl, fun _ => ⟨_, rfl⟩⟩
  | .status .hoistStart _ _ _ _ => exact ⟨_, _, rfl, fun _ => rfl, fun _ => ⟨_, rfl⟩⟩
  | .status .hoistDone _ _ _ _ => exact ⟨_, _, rfl, fun _ => rfl, fun _ => ⟨_, rfl⟩⟩
  | .status .hoistFault _ _ _ _ => exact ⟨_, _, rfl, fun _ => rfl, fun _ => ⟨_, rfl⟩⟩
  | .status .fault _ _ _ _ => exact ⟨_, _, rfl, fun _ => rfl, fun _ => ⟨_, rfl⟩⟩
  | .status .cleared _ _ _ _ => exact ⟨_, _, rfl, fun _ => rfl, fun _ => ⟨_, rfl⟩⟩

theorem takeStatus_of_unknown {g : Nat → StatusData → State → State} {e : TrackEntry} {s : State}
    (hkind : kindOf e.body = 3) (hv : vehicle s e.src = none) : takeStatus g e s = makeHoldDue e.src s := by
  unfold takeStatus
  split
  next => rw [hv]
  next hno =>
    match hb : e.body with
    | .join _ _ _ _ => exact absurd (hb ▸ hkind) (by change ¬ (1 : Byte) = 3; decide)
    | .position _ _ _ => exact absurd (hb ▸ hkind) (by change ¬ (2 : Byte) = 3; decide)
    | .status ev seg m present carrier => exact absurd hb (hno ev seg m present carrier)

/-- A HOLD due to an id without a record. -/
theorem makeHoldDue_of_unknown {s : State} {v : Nat} (hv : vehicle s v = none) :
    makeHoldDue v s = relink (.strayHold v) .renewed (s.updTli fun t => { t with strayHolds := tput v 0 t.strayHolds }) :=
  if_neg (by simp [inRoster_eq, hv])

/-- Settles O40. -/
theorem framesWithoutRecord : Obligations.FramesWithoutRecord := by
  intro s e rest hs hq taken
  obtain ⟨p, h, hp, hexec, hstatus⟩ := exec_rowOf e.body
  refine ⟨fun hmode => ?_, fun hmode hv hkind => ?_⟩
  · rw [hexec, takeTrack_of_parked hs hq hp hmode, popTrack_eq]
  · obtain ⟨g, rfl⟩ := hstatus hkind
    have hv' : vehicle (popTrack rest s) e.src = none := hv
    refine ⟨_, by rw [hexec, takeTrack_of_taken ⟨hs, hq, hmode⟩ hp, takeStatus_of_unknown hkind hv',
      makeHoldDue_of_unknown hv', popTrack_eq], rfl, ?_, rfl⟩
    simp [relink, tget_tput]

end Sys2Proof.Machine

/-! PROOFS. Frames received on the track line (R144 to R148, R187, R188). -/

namespace Sys2Proof.Machine

open Sys2Proof.Says

/-! ### Vehicle frames read back -/

theorem flag0_yes (b : Bool) : flag0 (yes b) = b := by cases b <;> rfl

theorem ofCode_statusCode (ev : StatusEvent) : StatusEvent.ofCode (byte (statusCode ev)).toNat = some ev := by
  cases ev <;> rfl

theorem readVehicleFrame_payloadOf {b : VehicleFrame} (h : Fits b) :
    readVehicleFrame (kindOf b).toNat (payloadOf b) = some b := by
  match b with
  | .join seg present carrier move =>
    obtain ⟨hseg, hcarrier, hmove⟩ := h
    change some (VehicleFrame.join (num2 _ _) (flag0 (yes present)) (num4 _ _ _ _) (num2 _ _)) = _
    rw [num2_bytes_of_lt hseg, flag0_yes, num4_bytes_of_lt hcarrier, num2_bytes_of_lt hmove]
  | .position seg need load =>
    obtain ⟨hseg, hneed⟩ := h
    change some (VehicleFrame.position (num2 _ _) (byte need).toNat (flag0 (yes load))) = _
    rw [num2_bytes_of_lt hseg, flag0_yes, toNat_byte_of_lt hneed]
  | .status ev seg move present carrier =>
    obtain ⟨hseg, hmove, hcarrier⟩ := h
    change (StatusEvent.ofCode (byte (statusCode ev)).toNat).map (fun ev =>
      VehicleFrame.status ev (num2 _ _) (num2 _ _) (flag0 (yes present)) (num4 _ _ _ _)) = _
    rw [ofCode_statusCode, num2_bytes_of_lt hseg, flag0_yes, num4_bytes_of_lt hcarrier, num2_bytes_of_lt hmove]
    rfl

theorem vehicleKind_kindOf (b : VehicleFrame) : vehicleKind (kindOf b).toNat = true := by
  cases b <;> rfl

theorem vehicleKind_iff (k : Byte) : vehicleKind k.toNat = true ↔ k ∈ [(1 : Byte), 2, 3] := by
  have h (n : Byte) : k.toNat = n.toNat ↔ k = n := ⟨BitVec.eq_of_toNat_eq, congrArg _⟩
  have h1 := h 1
  have h2 := h 2
  have h3 := h 3
  simp only [show (1 : Byte).toNat = 1 from rfl, show (2 : Byte).toNat = 2 from rfl, show (3 : Byte).toNat = 3 from rfl]
    at h1 h2 h3
  simp only [vehicleKind, Bool.or_eq_true, beq_iff_eq, h1, h2, h3, List.mem_cons, List.not_mem_nil, or_false, or_assoc]

theorem readVehicleFrame_join_size {l : List Byte} (h : l.length ≠ 9) : readVehicleFrame 1 l = none := by
  unfold readVehicleFrame
  split
  case h_1 => exact absurd rfl h
  case h_4 => rfl
  case h_2 heq => cases heq
  case h_3 heq => cases heq

theorem readVehicleFrame_position_size {l : List Byte} (h : l.length ≠ 4) : readVehicleFrame 2 l = none := by
  unfold readVehicleFrame
  split
  case h_2 => exact absurd rfl h
  case h_4 => rfl
  case h_1 heq => cases heq
  case h_3 heq => cases heq

theorem ofCode_eq_none {n : Nat} (h : 5 < n) : StatusEvent.ofCode n = none := by
  unfold StatusEvent.ofCode
  split
  case h_7 => rfl
  all_goals omega

theorem readVehicleFrame_status_bad {l : List Byte} (h : l.length ≠ 10 ∨ ∀ c ∈ l.head?, 5 < c.toNat) :
    readVehicleFrame 3 l = none := by
  unfold readVehicleFrame
  split
  case h_3 c _ _ _ _ _ _ _ _ _ _ =>
    have hcode : 5 < c.toNat := (h.resolve_left (fun hlen => hlen rfl)) c rfl
    rw [ofCode_eq_none hcode]
    rfl
  case h_4 => rfl
  case h_1 heq => cases heq
  case h_2 heq => cases heq

/-- A payload of another size, or an event code above 5, gives no frame. -/
theorem readVehicleFrame_eq_none {k : Byte} {payload : List Byte}
    (h : k = 1 ∧ payload.length ≠ 9 ∨ k = 2 ∧ payload.length ≠ 4
      ∨ k = 3 ∧ (payload.length ≠ 10 ∨ ∀ c ∈ payload.head?, 5 < c.toNat)) :
    readVehicleFrame k.toNat payload = none := by
  obtain ⟨rfl, hlen⟩ | ⟨rfl, hlen⟩ | ⟨rfl, hbad⟩ := h
  · exact readVehicleFrame_join_size hlen
  · exact readVehicleFrame_position_size hlen
  · exact readVehicleFrame_status_bad hbad

/-! ### What reaches the engine -/

theorem frameIntact_iff (f : TrackFrame) : frameIntact f = true ↔ Intact f := by
  simp only [frameIntact, Bool.and_eq_true, beq_iff_eq, decide_eq_true_eq, Intact]
  change ((f.check = crc16 ([byte f.prio, f.src, f.kind, f.len] ++ f.payload) ∧ _) ∧ _) ∧ _ ↔ _
  refine ⟨fun ⟨⟨⟨hcheck, hstray⟩, hlen⟩, hmax⟩ => ⟨hstray, by omega, by rw [hlen, byte_toNat], hcheck⟩,
    fun ⟨hstray, hmax, hlen, hcheck⟩ => ?_⟩
  have hnat : f.len.toNat = f.payload.length := by rw [hlen, toNat_byte_of_lt (by omega)]
  exact ⟨⟨⟨hcheck, hstray⟩, hnat.symm⟩, by omega⟩

/-- The state in which a frame that reaches the engine is handled: its own frame off the line. -/
def offLine (s : State) : State := s.updTli fun t => { t with line := none }

theorem offLine_of_idle {s : State} (h : s.tli.line = none) : offLine s = s := by
  unfold offLine State.updTli
  rw [← h]

theorem setAnswer_offLine (s : State) (a : Answer) : setAnswer a (offLine s) = answering s a := rfl

theorem contend_of_idle {s : State} (h : s.tli.line = none) (r : TrackReception) : contend r s = some s := by
  simp only [contend, h]

theorem contend_of_heard {s : State} {f : TrackFrame} (h : Heard s f.prio) : contend (.frame f) s = some (offLine s) := by
  cases hline : s.tli.line with
  | none => rw [contend_of_idle hline, offLine_of_idle hline]
  | some g =>
    simp only [contend, hline]
    exact if_pos (h g hline)

theorem exec_frame_of_heard {s : State} {f : TrackFrame} (hs : s.running = true) (h : Heard s f.prio) :
    exec (.trackFrameReceived (.frame f)) s = .next (receiveFrame f (offLine s)) := by
  refine congrArg Host.Outcome.next ((whenRunning_of_running hs).trans ?_)
  rw [trackReceived, contend_of_heard h]

/-- An intact frame with readable content. -/
theorem receiveFrame_of_read {f : TrackFrame} {b : VehicleFrame} (hintact : Intact f)
    (hkind : vehicleKind f.kind.toNat = true) (hread : readVehicleFrame f.kind.toNat f.payload = some b) (s : State) :
    receiveFrame f s =
      if f.src.toNat = 0 ∨ f.src.toNat = 255 then setAnswer .accept s else enqueueFrame f.src.toNat b s := by
  rw [receiveFrame, if_neg (by simp [(frameIntact_iff f).2 hintact]), if_neg (by simp [hkind]), hread]

theorem acceptAnswer_eq (s : State) : acceptAnswer s = accepting s.tli.pacing := rfl

theorem isPositionFrame_iff {b : VehicleFrame} : isPositionFrame b = true ↔ IsPosition b := by
  cases b <;> simp [isPositionFrame, IsPosition]

theorem waitsFrom_iff {src : Nat} {e : TrackEntry} : waitsFrom src e = true ↔ WaitsFor src e := by
  rw [waitsFrom, Bool.and_eq_true, beq_iff_eq, isPositionFrame_iff]
  rfl

theorem coalesces_iff {src : Nat} {b : VehicleFrame} {s : State} :
    (isPositionFrame b && s.tli.queue.any (waitsFrom src)) = true ↔ IsPosition b ∧ ∃ e ∈ s.tli.queue, WaitsFor src e := by
  simp only [Bool.and_eq_true, isPositionFrame_iff, List.any_eq_true, waitsFrom_iff]

/-- A frame that replaces a waiting POSITION (R147). -/
theorem enqueueFrame_coalesced {src : Nat} {b : VehicleFrame} {s : State} (hb : IsPosition b)
    (he : ∃ e ∈ s.tli.queue, WaitsFor src e) :
    enqueueFrame src b s = setAnswer (accepting s.tli.pacing) (coalesce src b s) :=
  if_pos (coalesces_iff.2 ⟨hb, he⟩)

theorem enqueueFrame_full {src : Nat} {b : VehicleFrame} {s : State}
    (h : ¬ (IsPosition b ∧ ∃ e ∈ s.tli.queue, WaitsFor src e)) (hfull : 32 ≤ s.tli.queue.length) :
    enqueueFrame src b s = setAnswer .refuseBusy s := by
  rw [enqueueFrame, if_neg (mt coalesces_iff.1 h), if_pos (by exact hfull)]

/-- The pacing state follows the occupancy with the new entry. -/
theorem appendTrack_eq (src : Nat) (b : VehicleFrame) (s : State) :
    appendTrack src b s = { s with tli := { s.tli with
      pacing := pacingAt s.layout.tuning s.tli.pacing (s.tli.queue.length + 1)
      queue := s.tli.queue ++
        [{ src := src, body := b, paced := pacingAt s.layout.tuning s.tli.pacing (s.tli.queue.length + 1) }] } } := by
  rw [appendTrack, updatePacing]
  simp only [State.updTli, List.length_append, List.length_singleton]
  rfl

theorem enqueueFrame_appended {src : Nat} {b : VehicleFrame} {s : State}
    (h : ¬ (IsPosition b ∧ ∃ e ∈ s.tli.queue, WaitsFor src e)) (hroom : s.tli.queue.length < 32) :
    enqueueFrame src b s = { s with tli := { s.tli with
      answer := some (accepting (pacingAt s.layout.tuning s.tli.pacing (s.tli.queue.length + 1)))
      pacing := pacingAt s.layout.tuning s.tli.pacing (s.tli.queue.length + 1)
      queue := s.tli.queue ++
        [{ src := src, body := b, paced := pacingAt s.layout.tuning s.tli.pacing (s.tli.queue.length + 1) }] } } := by
  rw [enqueueFrame, if_neg (mt coalesces_iff.1 h), if_neg (by exact Nat.not_le.2 hroom), acceptAnswer_eq,
    appendTrack_eq]
  rfl

theorem vehicleFrameTaken : Says.VehicleFrameTaken := by
  intro s f b src hs hheard hintact hfits hkind hpayload hsrc hlt
  have hread : readVehicleFrame f.kind.toNat f.payload = some b := by
    rw [hkind, hpayload, readVehicleFrame_payloadOf hfits]
  have hnat : f.src.toNat = src := by rw [hsrc, toNat_byte_of_lt hlt]
  have hexec := exec_frame_of_heard hs hheard
  rw [receiveFrame_of_read hintact (by rw [hkind]; exact vehicleKind_kindOf b) hread, hnat] at hexec
  refine ⟨fun hnone => ?reserved, fun hlow hhigh => ?vehicle⟩
  case reserved => rw [hexec, if_pos hnone, setAnswer_offLine]
  case vehicle =>
    rw [if_neg (by omega)] at hexec
    refine ⟨fun hb he => ?coalesced, fun hnew => ⟨fun hfull => ?full, fun hroom => ?appended⟩⟩
    case coalesced =>
      rw [enqueueFrame_coalesced (s := offLine s) hb he] at hexec
      refine ⟨_, hexec, rfl, rfl, List.length_map _, fun i e hi => ?_⟩
      have hget : (setAnswer (accepting s.tli.pacing) (coalesce src b (offLine s))).tli.queue[i]? =
          some (if waitsFrom src e then { e with body := b, paced := s.tli.pacing } else e) := by
        change (s.tli.queue.map _)[i]? = _
        rw [List.getElem?_map, hi]
        rfl
      refine ⟨fun hw => hget.trans (congrArg some ?_), fun hw => hget.trans (congrArg some ?_)⟩
      · rw [if_pos (waitsFrom_iff.2 hw)]
        obtain ⟨rfl, -⟩ := hw
        rfl
      · exact if_neg (mt waitsFrom_iff.1 hw)
    case full => rw [hexec, enqueueFrame_full (s := offLine s) hnew hfull, setAnswer_offLine]
    case appended => exact hexec.trans (congrArg _ (enqueueFrame_appended (s := offLine s) hnew hroom))

theorem vehicleFrameDiscarded : Says.VehicleFrameDiscarded := by
  intro s f hs
  have hexec {r : TrackReception} : exec (.trackFrameReceived r) s = .next (trackReceived r s) :=
    congrArg Host.Outcome.next (whenRunning_of_running hs)
  refine ⟨fun hidle => ?short, fun hheard => ⟨fun hbad => ?check, fun hintact hkind => ?kind,
    fun hintact hpayload => ?payload⟩, fun g hline hprio => ?lost⟩
  case short =>
    rw [hexec, trackReceived, contend_of_idle hidle, ← setAnswer_offLine, offLine_of_idle hidle]
    rfl
  case check =>
    rw [exec_frame_of_heard hs hheard, receiveFrame, if_pos (by simpa [← frameIntact_iff] using hbad)]
    rfl
  case kind =>
    rw [exec_frame_of_heard hs hheard, receiveFrame, if_neg (by simp [(frameIntact_iff f).2 hintact]),
      if_pos (by simpa using mt (vehicleKind_iff f.kind).1 hkind)]
    rfl
  case payload =>
    have hkind : vehicleKind f.kind.toNat = true := (vehicleKind_iff f.kind).2 (by
      obtain ⟨h, -⟩ | ⟨h, -⟩ | ⟨h, -⟩ := hpayload <;> simp [h])
    rw [exec_frame_of_heard hs hheard, receiveFrame, if_neg (by simp [(frameIntact_iff f).2 hintact]),
      if_neg (by simp [hkind]), readVehicleFrame_eq_none hpayload]
    rfl
  case lost =>
    have hshort : contend .short s = none := by simp only [contend, hline]
    have hframe : contend (.frame f) s = none := by
      simp only [contend, hline]
      exact if_neg (by omega)
    exact ⟨by rw [hexec, trackReceived, hframe], by rw [hexec, trackReceived, hshort]⟩

/-- Settles O39. -/
theorem trackFramesAnswered : Obligations.TrackFramesAnswered := ⟨vehicleFrameTaken, vehicleFrameDiscarded⟩

end Sys2Proof.Machine

/-! PROOFS. What the activation check tests, and the fault it reports (R11 to R16). -/

namespace Sys2Proof.Machine

open Sys2Proof.Says

/-! ### The first index that fails -/

theorem findSome?_sorted {β : Type} {g : Nat → Option β} {b : β} :
    ∀ {l : List Nat}, l.Pairwise (· < ·) →
      (l.findSome? g = some b ↔ ∃ i ∈ l, g i = some b ∧ ∀ j ∈ l, j < i → g j = none)
  | [], _ => by simp
  | k :: l, h => by
    obtain ⟨hk, hl⟩ := List.pairwise_cons.1 h
    rw [List.findSome?_cons]
    cases hg : g k with
    | some c =>
      refine ⟨fun hc => ⟨k, by simp, by rw [hg, ← hc], fun j hj hlt => ?_⟩, fun ⟨i, hi, hgi, hfirst⟩ => ?_⟩
      · obtain rfl | hj := List.mem_cons.1 hj
        · omega
        · have := hk j hj
          omega
      · obtain rfl | hi := List.mem_cons.1 hi
        · exact hg.symm.trans hgi
        · exact absurd (hfirst k (by simp) (hk i hi)) (by simp [hg])
    | none =>
      refine (findSome?_sorted hl).trans ⟨fun ⟨i, hi, hgi, hfirst⟩ => ⟨i, by simp [hi], hgi, fun j hj hlt => ?_⟩,
        fun ⟨i, hi, hgi, hfirst⟩ => ⟨i, ?_, hgi, fun j hj hlt => hfirst j (by simp [hj]) hlt⟩⟩
      · obtain rfl | hj := List.mem_cons.1 hj
        · exact hg
        · exact hfirst j hj hlt
      · obtain rfl | hi := List.mem_cons.1 hi
        · rw [hg] at hgi
          cases hgi
        · exact hi

/-- A step of the check: when it finds nothing, and what it reports. -/
structure StepSays (o : Option (LayoutFault × Nat)) (Pass : Prop) (Fail : LayoutFault → Nat → Prop) : Prop where
  none_iff : o = none ↔ Pass
  some_iff : ∀ c i, o = some (c, i) ↔ Fail c i

/-- A step looks only where the ones before it found nothing. -/
theorem StepSays.or {o o' : Option (LayoutFault × Nat)} {P P' : Prop} {F F' : LayoutFault → Nat → Prop}
    (h : StepSays o P F) (h' : StepSays o' P' F') :
    StepSays (o.or o') (P ∧ P') (fun c i => F c i ∨ P ∧ F' c i) where
  none_iff := by rw [Option.or_eq_none_iff, h.none_iff, h'.none_iff]
  some_iff c i := by rw [Option.or_eq_some_iff, h.some_iff, h.none_iff, h'.some_iff]

/-- A search in ascending order through the indices that can fail. -/
theorem stepSays_findSome? {g : Nat → Option LayoutFault} {is : List Nat} (his : is.Pairwise (· < ·))
    (hout : ∀ i, i ∉ is → g i = none) :
    StepSays (is.findSome? fun i => (g i).map fun c => (c, i)) (∀ i, g i = none)
      (fun c i => g i = some c ∧ ∀ j, j < i → g j = none) where
  none_iff := by
    simp only [List.findSome?_eq_none_iff, Option.map_eq_none_iff]
    exact ⟨fun h i => by by_cases hi : i ∈ is; exacts [h i hi, hout i hi], fun h i _ => h i⟩
  some_iff c i := by
    rw [findSome?_sorted his]
    simp only [Option.map_eq_none_iff, Option.map_eq_some_iff, Prod.mk.injEq]
    refine ⟨fun ⟨k, hk, ⟨c', hg, hc, hki⟩, hfirst⟩ => ?_, fun ⟨hg, hfirst⟩ => ⟨i, ?_, ⟨c, hg, rfl, rfl⟩, fun j _ => hfirst j⟩⟩
    · subst hc hki
      exact ⟨hg, fun j hj => by by_cases hm : j ∈ is; exacts [hfirst j hm hj, hout j hm]⟩
    · by_contra hi
      rw [hout i hi] at hg
      cases hg

theorem firstFail_eq (fault : LayoutFault) (p : Nat → Bool) (is : List Nat) :
    firstFail fault p is = is.findSome? fun i => (if p i then none else some fault).map fun c => (c, i) := by
  induction is with
  | nil => rfl
  | cons i is ih =>
    rw [firstFail, List.find?_cons, List.findSome?_cons]
    cases hp : p i with
    | true => simpa [firstFail] using ih
    | false => simp

/-- A step with one fault code and one condition for each record. -/
theorem stepSays_firstFail {fault : LayoutFault} {p : Nat → Bool} {is : List Nat} {P : Nat → Prop}
    (his : is.Pairwise (· < ·)) (hp : ∀ i ∈ is, p i = true ↔ P i) (hout : ∀ i, i ∉ is → P i) :
    StepSays (firstFail fault p is) (∀ i, P i) (fun c i => c = fault ∧ FirstFails P i) := by
  classical
  have hsame : firstFail fault p is = is.findSome? fun i => (if P i then none else some fault).map fun c => (c, i) := by
    have hp' : ∀ i ∈ is, (!p i) = !decide (P i) := fun i hi => by simp [← hp i hi]
    rw [firstFail, List.find?_congr hp']
    change firstFail fault (fun i => decide (P i)) is = _
    rw [firstFail_eq]
    simp only [decide_eq_true_eq]
  have hnone (i : Nat) : (if P i then none else some fault) = none ↔ P i := by simp
  have hsome (i : Nat) (c : LayoutFault) : (if P i then none else some fault) = some c ↔ c = fault ∧ ¬ P i := by
    by_cases hi : P i
    · simp [hi]
    · simp [hi, eq_comm]
  have hstep := stepSays_findSome? (g := fun i => if P i then none else some fault) his
    (fun i hi => (hnone i).2 (hout i hi))
  rw [hsame]
  refine ⟨?_, fun c i => ?_⟩
  · simp only [hstep.none_iff, hnone]
  · simp only [hstep.some_iff, hnone, hsome, FirstFails, and_assoc]

/-! ### Segments, zones, ports and exits (R11, R12, R13, R15) -/

theorem isForeign_of_segment {s : State} {i : Nat} {r : SegmentRec} (h : segment s i = some r) :
    isForeign s i = isForeignRec s r := by rw [isForeign, h]

theorem isOwn_iff {s : State} {i : Nat} : isOwn s i = true ↔ segment s i ≠ none ∧ isForeign s i = false := by
  unfold isOwn isForeign
  cases segment s i <;> simp

theorem loaded_iff {s : State} {i : Nat} : loaded s i = true ↔ segment s i ≠ none := by
  rw [loaded, Option.isSome_iff_ne_none]

theorem isSuccessor_iff {s : State} {i t : Nat} :
    isSuccessor s i t = true ↔ ∃ r, segment s i = some r ∧ t ∈ r.successors := by
  unfold isSuccessor
  cases segment s i <;> simp

theorem segmentPasses_iff {s : State} {i : Nat} {r : SegmentRec} (h : segment s i = some r) :
    segmentPasses s i r = true ↔ SegmentPasses s i := by
  have hforeign := isForeign_of_segment h
  have hall : SegmentPasses s i ↔
      (isForeign s i = false → segment s r.succ0 ≠ none) ∧
      (∀ t, r.form = .diverge t → segment s t ≠ none ∧ t ≠ r.succ0) ∧
      (∀ p, r.form = .merge p → ∃ q, segment s p = some q ∧ i ∈ q.successors) ∧
      (∀ o, r.form = .boundary o → isForeign s i = true → o ∈ s.mc.identity.neighbours) ∧
      (predecessors s i).length ≤ (match r.form with | .merge _ => 2 | _ => 1) := by
    refine ⟨fun hs => hs r h, fun hs r' hr' => ?_⟩
    cases h.symm.trans hr'
    exact hs
  have hsucc : (isForeign s i || loaded s r.succ0) = true ↔ (isForeign s i = false → segment s r.succ0 ≠ none) := by
    rw [Bool.or_eq_true, loaded_iff]
    cases isForeign s i <;> simp
  have hmerge (p : Nat) : (loaded s p && isSuccessor s p i) = true ↔ ∃ q, segment s p = some q ∧ i ∈ q.successors := by
    rw [Bool.and_eq_true, loaded_iff, isSuccessor_iff]
    exact ⟨And.right, fun hq => ⟨by obtain ⟨q, hq, -⟩ := hq; simp [hq], hq⟩⟩
  have hdiverge (t : Nat) : (loaded s t && t != r.succ0) = true ↔ segment s t ≠ none ∧ t ≠ r.succ0 := by
    rw [Bool.and_eq_true, loaded_iff, bne_iff_ne]
  have hboundary (o : Nat) : (!isForeign s i || s.mc.identity.neighbours.contains o) = true ↔
      (isForeign s i = true → o ∈ s.mc.identity.neighbours) := by
    rw [Bool.or_eq_true, List.contains_iff_mem]
    cases isForeign s i <;> simp
  rw [hall, segmentPasses, ← hforeign]
  cases r.form <;>
    simp only [Bool.and_eq_true, hsucc, hmerge, hdiverge, hboundary, decide_eq_true_eq, reduceCtorEq, false_implies,
      implies_true, true_and, and_assoc, SegForm.diverge.injEq, SegForm.merge.injEq, SegForm.boundary.injEq,
      forall_eq', and_true]

theorem segmentPasses_of_absent {s : State} {i : Nat} (h : segment s i = none) : SegmentPasses s i :=
  fun r hr => by rw [h] at hr; cases hr

theorem pairwise_keys {α : Type} {t : Table α} (h : TableWf t) : (t.map (·.1)).Pairwise (· < ·) := by
  rwa [List.pairwise_map]

theorem tget_eq_none_of_key {α : Type} {t : Table α} {k : Nat} (h : k ∉ t.map (·.1)) : tget k t = none := by
  cases hg : tget k t with
  | none => rfl
  | some a => exact absurd (List.mem_map_of_mem (mem_of_tget hg)) h

theorem key_of_tget {α : Type} {t : Table α} {k : Nat} {a : α} (h : tget k t = some a) : k ∈ t.map (·.1) :=
  List.mem_map_of_mem (f := (·.1)) (mem_of_tget h)

theorem stepSays_segments {s : State} (h : LayoutOk s.layout) :
    StepSays (firstFail .segmentLink (fun i => (segment s i).all (segmentPasses s i)) (s.layout.segs.map (·.1)))
      (SegmentsPass s) (fun c i => c = .segmentLink ∧ FirstFails (SegmentPasses s) i) := by
  refine stepSays_firstFail (pairwise_keys h.segs) (fun i _ => ?_)
    (fun i hi => segmentPasses_of_absent (tget_eq_none_of_key hi))
  cases hr : segment s i with
  | none => simp [segmentPasses_of_absent hr]
  | some r => simpa using segmentPasses_iff hr

theorem ownIn_iff {s : State} {z i : Nat} : ownIn s z i = true ↔ isOwn s i = true ∧ zoneOf s i = some z := by
  rw [ownIn, Bool.and_eq_true, beq_iff_eq]

theorem isPlainIn_iff {s : State} {z i : Nat} :
    isPlainIn s z i = true ↔ ∃ q, segment s i = some q ∧ q.zone = z ∧ q.form = .plain := by
  unfold isPlainIn
  cases segment s i <;> simp [and_comm]

theorem zonePasses_iff {s : State} (h : TableWf s.layout.segs) (z : Nat) : zonePasses s z = true ↔ ZonePasses s z := by
  unfold zonePasses ZonePasses
  cases hz : zoneRec s z with
  | none =>
    simp only [List.all_eq_true, bne_iff_ne, reduceCtorEq, false_implies, implies_true, and_true, true_implies]
    exact ⟨fun hall i r hr => hall (i, r) (mem_of_tget hr),
      fun hall p hp => hall p.1 p.2 (tget_of_mem (pairwise_keys h) hp)⟩
  | some r =>
    have hover : (match r.overflow with | some o => o != z && (zoneRec s o).isSome | none => true) = true ↔
        ∀ o, r.overflow = some o → o ≠ z ∧ zoneRec s o ≠ none := by
      cases r.overflow <;> simp [Option.isSome_iff_ne_none]
    simp only [← hover, Bool.and_eq_true, ownIn_iff, List.all_eq_true, isPlainIn_iff, decide_eq_true_eq, reduceCtorEq,
      false_implies, true_and, Option.some.injEq, forall_eq', List.mem_cons, List.not_mem_nil, or_false, forall_eq_or_imp,
      forall_eq, and_assoc] <;> exact Iff.rfl

theorem stepSays_zones {s : State} (h : LayoutOk s.layout) :
    StepSays (firstFail .zoneShape (zonePasses s) (List.range 32)) (ZonesPass s)
      (fun c i => c = .zoneShape ∧ i ≤ 31 ∧ FirstFails (ZonePasses s) i) := by
  have hstep := stepSays_firstFail (fault := .zoneShape) (P := fun z => z ≤ 31 → ZonePasses s z) List.pairwise_lt_range
    (p := zonePasses s) (is := List.range 32) (fun z hz => ?_) (fun z hz hle => ?_)
  · refine ⟨hstep.none_iff, fun c i => (hstep.some_iff c i).trans (and_congr_right fun _ => ?_)⟩
    refine ⟨fun ⟨hfail, hfirst⟩ => ?_, fun ⟨hle, hfail, hfirst⟩ => ⟨fun hpass => hfail (hpass hle), fun j hj _ => hfirst j hj⟩⟩
    obtain ⟨hle, hfail⟩ := Classical.not_imp.1 hfail
    exact ⟨hle, hfail, fun j hj => hfirst j hj (by omega)⟩
  · rw [zonePasses_iff h.segs]
    have := List.mem_range.1 hz
    exact ⟨fun hpass _ => hpass, fun hpass => hpass (by omega)⟩
  · exact absurd (List.mem_range.2 (by omega)) hz

theorem stepSays_ports {s : State} (h : LayoutOk s.layout) :
    StepSays (firstFail .portPlace (fun p => (portSegment s p).all (isOwn s)) (s.layout.ports.map (·.1)))
      (PortsPass s) (fun c i => c = .portPlace ∧ FirstFails (PortPasses s) i) := by
  refine stepSays_firstFail (pairwise_keys h.ports) (fun p _ => ?_) (fun p hp g hg => ?_)
  · simp only [PortPasses, portSegment]
    cases portRec s p <;> simp
  · exact absurd (key_of_tget hg) hp

theorem solePredecessor_iff {s : State} {x p : Nat} : solePredecessor s x = some p ↔ predecessors s x = [p] := by
  unfold solePredecessor
  split
  next q hq => simp [hq]
  next hno => exact ⟨fun h => (by cases h), fun h => absurd h (hno p)⟩

theorem exitPasses_iff {s : State} {c x : Nat} :
    exitPasses s c x = true ↔
      s.mc.identity.cell ≠ some c ∧ isForeign s x = true ∧ (∃ o, ownerOf s x = some o ∧ o ∈ s.mc.identity.neighbours) ∧
      ∃ p, predecessors s x = [p] ∧ isOwn s p = true := by
  have hsole : (match solePredecessor s x with | some p => isOwn s p | none => false) = true ↔
      ∃ p, predecessors s x = [p] ∧ isOwn s p = true := by
    simp only [← solePredecessor_iff]
    cases solePredecessor s x <;> simp
  have howner : (ownerOf s x).any (fun o => s.mc.identity.neighbours.contains o) = true ↔
      ∃ o, ownerOf s x = some o ∧ o ∈ s.mc.identity.neighbours := by
    cases ownerOf s x <;> simp
  rw [← hsole, ← howner]
  simp only [exitPasses, Bool.and_eq_true, bne_iff_ne, and_assoc] <;> rfl

theorem stepSays_exits {s : State} (h : LayoutOk s.layout) :
    StepSays (firstFail .exitShape (fun c => (exitSeg s c).all (exitPasses s c)) (s.layout.exits.map (·.1)))
      (ExitsPass s) (fun c i => c = .exitShape ∧ FirstFails (ExitPasses s) i) := by
  refine stepSays_firstFail (pairwise_keys h.exits) (fun c _ => ?_) (fun c hc x hx => ?_)
  · simp only [ExitPasses, ← exitPasses_iff]
    cases exitSeg s c <;> simp
  · exact absurd (key_of_tget hx) hc

/-! ### Routes (R14) -/

/-- The segment that a position must follow: the one before, or the anchor at the first. -/
def follows (s : State) (anchor : Nat) (before : Option Int) (x : Int) : Bool :=
  isSuccessor s ((before.map Int.toNat).getD anchor) x.toNat

theorem positionFault_eq (s : State) (anchor : Nat) (before : Option Int) (x : Int) :
    positionFault s anchor before x =
      if x < 0 ∨ 1023 < x ∨ loaded s x.toNat = false then some .routeRange
      else if isForeign s x.toNat then some .routeForeign
      else if follows s anchor before x then none
      else some (if before = none then .routeEnds else .routeBreak) := by
  cases before <;> rfl

theorem known_iff {s : State} {x : Int} :
    ¬ (x < 0 ∨ 1023 < x ∨ loaded s x.toNat = false) ↔ 0 ≤ x ∧ x ≤ 1023 ∧ segment s x.toNat ≠ none := by
  rw [← loaded_iff]
  simp only [not_or, not_lt, Bool.not_eq_false]

theorem positionFault_eq_none_iff {s : State} {anchor : Nat} {before : Option Int} {x : Int} :
    positionFault s anchor before x = none ↔
      (0 ≤ x ∧ x ≤ 1023 ∧ isOwn s x.toNat = true) ∧ follows s anchor before x = true := by
  have hknown := known_iff (s := s) (x := x)
  rw [positionFault_eq, isOwn_iff]
  split
  next h => simp only [reduceCtorEq, false_iff]; rintro ⟨⟨h0, h1, hs, -⟩, -⟩; exact hknown.2 ⟨h0, h1, hs⟩ h
  next h =>
    obtain ⟨h0, h1, hs⟩ := hknown.1 h
    split
    next hf => simp [hf]
    next hf =>
      split
      next hl => simp [h0, h1, hs, hf, hl]
      next hl => simp [hl]

theorem positionFault_eq_some_iff {s : State} {anchor : Nat} {before : Option Int} {x : Int} {c : LayoutFault} :
    positionFault s anchor before x = some c ↔
      c = .routeRange ∧ ¬ (0 ≤ x ∧ x ≤ 1023 ∧ segment s x.toNat ≠ none) ∨
      c = .routeForeign ∧ (0 ≤ x ∧ x ≤ 1023 ∧ segment s x.toNat ≠ none) ∧ isForeign s x.toNat = true ∨
      c = (if before = none then .routeEnds else .routeBreak) ∧ (0 ≤ x ∧ x ≤ 1023 ∧ segment s x.toNat ≠ none)
        ∧ isForeign s x.toNat = false ∧ ¬ follows s anchor before x = true := by
  rw [← known_iff, positionFault_eq, not_not]
  split
  next h =>
    refine ⟨fun hc => .inl ⟨(Option.some.inj hc).symm, h⟩, ?_⟩
    rintro (⟨rfl, -⟩ | ⟨-, hk, -⟩ | ⟨-, hk, -⟩)
    exacts [rfl, absurd h hk, absurd h hk]
  next h =>
    split
    next hf =>
      refine ⟨fun hc => .inr (.inl ⟨(Option.some.inj hc).symm, h, hf⟩), ?_⟩
      rintro (⟨-, hk⟩ | ⟨rfl, -⟩ | ⟨-, -, hk, -⟩)
      exacts [absurd hk h, rfl, absurd hf (by simp [hk])]
    next hf =>
      split
      next hl =>
        refine ⟨fun hc => (by cases hc), ?_⟩
        rintro (⟨-, hk⟩ | ⟨-, -, hk⟩ | ⟨-, -, -, hk⟩)
        exacts [absurd hk h, absurd hk hf, absurd hl hk]
      next hl =>
        refine ⟨fun hc => .inr (.inr ⟨(Option.some.inj hc).symm, h, by simpa using hf, hl⟩), ?_⟩
        rintro (⟨-, hk⟩ | ⟨-, -, hk⟩ | ⟨rfl, -⟩)
        exacts [absurd hk h, absurd hk hf, rfl]

/-- The place `k` of the sequence fails with `c`, where `before` is the segment before the first. -/
def PlaceFailsAfter (s : State) (anchor : Nat) (before : Option Int) (l : List Int) (k : Nat) (c : LayoutFault) : Prop :=
  ∃ x, l[k]? = some x ∧ positionFault s anchor (if k = 0 then before else l[k - 1]?) x = some c

section
variable {s : State} {anchor : Nat}

theorem placeFailsAfter_zero {before : Option Int} {x : Int} {l : List Int} {c : LayoutFault} :
    PlaceFailsAfter s anchor before (x :: l) 0 c ↔ positionFault s anchor before x = some c := by
  simp [PlaceFailsAfter]

theorem placeFailsAfter_succ {before : Option Int} {x : Int} {l : List Int} {k : Nat} {c : LayoutFault} :
    PlaceFailsAfter s anchor before (x :: l) (k + 1) c ↔ PlaceFailsAfter s anchor (some x) l k c := by
  cases k <;> simp [PlaceFailsAfter]

theorem not_placeFailsAfter_nil {before : Option Int} {k : Nat} {c : LayoutFault} :
    ¬ PlaceFailsAfter s anchor before [] k c := by
  simp [PlaceFailsAfter]

theorem placeFails_iff {l : List Int} {k : Nat} {c : LayoutFault} :
    PlaceFails s anchor l k c ↔ PlaceFailsAfter s anchor none l k c := by
  refine exists_congr fun x => and_congr_right fun hx => ?_
  rw [positionFault_eq_some_iff]
  cases k with
  | zero => exact Iff.rfl
  | succ k =>
    obtain ⟨y, hy⟩ : ∃ y, l[k]? = some y :=
      ⟨l[k]'(by have := (List.getElem?_eq_some_iff.1 hx).1; omega), List.getElem?_eq_getElem _⟩
    simp [hy, follows]

/-- No place of the sequence fails: every segment is loaded and own and follows the one before it. -/
theorem no_placeFails_iff :
    ∀ {before : Option Int} {l : List Int},
      (∀ k c, ¬ PlaceFailsAfter s anchor before l k c) ↔
        (∀ x ∈ l, 0 ≤ x ∧ x ≤ 1023 ∧ isOwn s x.toNat = true) ∧ (∀ x ∈ l.head?, follows s anchor before x = true) ∧
          l.IsChain (fun x y => isSuccessor s x.toNat y.toNat = true)
  | _, [] => by simp [not_placeFailsAfter_nil]
  | before, x :: l => by
    have hzero : (∀ c, ¬ PlaceFailsAfter s anchor before (x :: l) 0 c) ↔
        (0 ≤ x ∧ x ≤ 1023 ∧ isOwn s x.toNat = true) ∧ follows s anchor before x = true := by
      simp only [placeFailsAfter_zero, ← positionFault_eq_none_iff, Option.eq_none_iff_forall_ne_some, ne_eq]
    have hrest := no_placeFails_iff (before := some x) (l := l)
    have hsplit : (∀ k c, ¬ PlaceFailsAfter s anchor before (x :: l) k c) ↔
        (∀ c, ¬ PlaceFailsAfter s anchor before (x :: l) 0 c) ∧ ∀ k c, ¬ PlaceFailsAfter s anchor (some x) l k c := by
      refine ⟨fun h => ⟨h 0, fun k c => mt placeFailsAfter_succ.2 (h (k + 1) c)⟩, fun h k c => ?_⟩
      cases k with
      | zero => exact h.1 c
      | succ k => exact mt placeFailsAfter_succ.1 (h.2 k c)
    rw [hsplit, hzero, hrest]
    cases l with
    | nil => simp
    | cons y l =>
      simp only [List.mem_cons, List.head?_cons, Option.mem_def, Option.some.injEq, forall_eq', forall_eq_or_imp,
        List.isChain_cons_cons, follows, Option.map_some, Option.getD_some]
      tauto

/-- What the sequence of a route ends with: the first place that fails, or a last segment other than the entry. -/
theorem sequenceFault_eq_some_iff {entrySeg : Nat} {c : LayoutFault} :
    ∀ {before : Option Int} {l : List Int},
      sequenceFault s anchor entrySeg before l = some c ↔
        (∃ k, PlaceFailsAfter s anchor before l k c ∧ ∀ j, j < k → ∀ e, ¬ PlaceFailsAfter s anchor before l j e) ∨
          (∀ j e, ¬ PlaceFailsAfter s anchor before l j e) ∧ l.getLast?.or before ≠ some (entrySeg : Int)
            ∧ c = .routeEnds
  | before, [] => by
    have hdef : sequenceFault s anchor entrySeg before [] =
      if before = some (entrySeg : Int) then none else some .routeEnds := rfl
    rw [hdef]
    split
    next h => simp [h, not_placeFailsAfter_nil]
    next h => simp [h, not_placeFailsAfter_nil, eq_comm]
  | before, x :: l => by
    have hlast : (x :: l).getLast?.or before = l.getLast?.or (some x) := by
      cases l <;> simp [List.getLast?_cons]
    rw [sequenceFault, hlast]
    cases hx : positionFault s anchor before x with
    | some e =>
      have hfail : PlaceFailsAfter s anchor before (x :: l) 0 e := placeFailsAfter_zero.2 hx
      refine ⟨fun hc => .inl ⟨0, ?_, fun j hj => absurd hj (Nat.not_lt_zero j)⟩, ?_⟩
      · cases hc
        exact hfail
      · rintro (⟨k, hk, hfirst⟩ | ⟨hnone, -⟩)
        · cases k with
          | zero => exact hx.symm.trans (placeFailsAfter_zero.1 hk)
          | succ k => exact absurd hfail (hfirst 0 (Nat.succ_pos k) e)
        · exact absurd hfail (hnone 0 e)
    | none =>
      have hzero (e : LayoutFault) : ¬ PlaceFailsAfter s anchor before (x :: l) 0 e :=
        fun h => by rw [placeFailsAfter_zero, hx] at h; cases h
      refine (sequenceFault_eq_some_iff (before := some x) (l := l)).trans (or_congr ?_ (and_congr_left' ?_))
      · refine ⟨fun ⟨k, hk, hfirst⟩ => ⟨k + 1, placeFailsAfter_succ.2 hk, fun j hj e => ?_⟩, fun ⟨k, hk, hfirst⟩ => ?_⟩
        · cases j with
          | zero => exact hzero e
          | succ j => exact mt placeFailsAfter_succ.1 (hfirst j (by omega) e)
        · cases k with
          | zero => exact absurd hk (hzero c)
          | succ k =>
            exact ⟨k, placeFailsAfter_succ.1 hk, fun j hj e => mt placeFailsAfter_succ.2 (hfirst (j + 1) (by omega) e)⟩
      · refine ⟨fun h j e => ?_, fun h j e => mt placeFailsAfter_succ.2 (h (j + 1) e)⟩
        cases j with
        | zero => exact hzero e
        | succ j => exact mt placeFailsAfter_succ.1 (h j e)

theorem sequenceFault_eq_none_iff {entrySeg : Nat} :
    ∀ {before : Option Int} {l : List Int},
      sequenceFault s anchor entrySeg before l = none ↔
        (∀ j e, ¬ PlaceFailsAfter s anchor before l j e) ∧ l.getLast?.or before = some (entrySeg : Int)
  | before, [] => by
    have hdef : sequenceFault s anchor entrySeg before [] =
      if before = some (entrySeg : Int) then none else some .routeEnds := rfl
    simp [hdef, not_placeFailsAfter_nil]
  | before, x :: l => by
    have hlast : (x :: l).getLast?.or before = l.getLast?.or (some x) := by
      cases l <;> simp [List.getLast?_cons]
    rw [sequenceFault, hlast]
    cases hx : positionFault s anchor before x with
    | some e =>
      exact ⟨fun hc => (by cases hc), fun ⟨hnone, _⟩ => absurd (placeFailsAfter_zero.2 hx) (hnone 0 e)⟩
    | none =>
      refine (sequenceFault_eq_none_iff (before := some x) (l := l)).trans (and_congr_left' ?_)
      refine ⟨fun h j e => ?_, fun h j e => mt placeFailsAfter_succ.2 (h (j + 1) e)⟩
      cases j with
      | zero => exact fun h => by rw [placeFailsAfter_zero, hx] at h; cases h
      | succ j => exact mt placeFailsAfter_succ.1 (h j e)

theorem routeFault_eq_some_iff {a b : Nat} {c : LayoutFault} : routeFault s a b = some c ↔ RouteFails s a b c := by
  unfold routeFault RouteFails
  cases hd : (route s a b).desc with
  | none => simp
  | some d =>
    simp only [Option.some.injEq, exists_eq_left']
    split
    next za zb ha hb =>
      simp only [ha, hb, sequenceFault_eq_some_iff, placeFails_iff, Option.or_none, reduceCtorEq, or_self, false_and,
        false_or, Option.some.injEq, exists_and_left, exists_eq_left']
    next hno =>
      have habsent : zoneRec s a = none ∨ zoneRec s b = none := by
        by_contra h
        obtain ⟨ha, hb⟩ := not_or.1 h
        obtain ⟨za, ha⟩ := Option.ne_none_iff_exists'.1 ha
        obtain ⟨zb, hb⟩ := Option.ne_none_iff_exists'.1 hb
        exact hno za zb ha hb
      refine ⟨fun h => .inl ⟨habsent, (Option.some.inj h).symm⟩, ?_⟩
      rintro (⟨-, rfl⟩ | ⟨za, zb, ha, hb, -⟩)
      · rfl
      · exact absurd hb (hno za zb ha)

/-- A route that does not fail. -/
theorem routeFault_eq_none_iff {a b : Nat} :
    routeFault s a b = none ↔ ∀ d, (route s a b).desc = some d →
      ∃ za zb, zoneRec s a = some za ∧ zoneRec s b = some zb ∧
        (∀ x ∈ d.sequence, 0 ≤ x ∧ x ≤ 1023 ∧ isOwn s x.toNat = true) ∧
        (∀ x ∈ d.sequence.head?, isSuccessor s za.anchor x.toNat = true) ∧
        d.sequence.IsChain (fun x y => isSuccessor s x.toNat y.toNat = true) ∧
        d.sequence.getLast? = some (zb.entrySeg : Int) := by
  unfold routeFault
  cases hd : (route s a b).desc with
  | none => simp
  | some d =>
    simp only [Option.some.injEq, forall_eq']
    split
    next za zb ha hb =>
      rw [sequenceFault_eq_none_iff, no_placeFails_iff, Option.or_none]
      simp only [ha, hb, Option.some.injEq, exists_and_left, exists_eq_left', and_assoc]
      exact Iff.rfl
    next hno =>
      refine ⟨fun h => (by cases h), fun ⟨za, zb, ha, hb, _⟩ => absurd hb (hno za zb ha)⟩

end

theorem stepSays_routes {s : State} (h : LayoutOk s.layout) :
    StepSays (firstRouteFault s) (RoutesPass s)
      (fun c i => RouteFails s (i / 32) (i % 32) c ∧ ∀ j, j < i → ∀ e, ¬ RouteFails s (j / 32) (j % 32) e) := by
  have hkey (i : Nat) : route s (i / 32) (i % 32) = (tget i s.layout.routes).getD noRoute := by
    rw [route, show i / 32 * 32 + i % 32 = i by omega]
  have hstep := stepSays_findSome? (g := fun i => routeFault s (i / 32) (i % 32)) (pairwise_keys h.routes.1)
    (fun i hi => by rw [routeFault_eq_none_iff, hkey, tget_eq_none_of_key hi]; intro d hd; cases hd)
  have hscan : firstRouteFault s = (s.layout.routes.map (·.1)).findSome? fun i =>
      (routeFault s (i / 32) (i % 32)).map fun c => (c, i) := by
    rw [List.findSome?_map]
    rfl
  have hnone (i : Nat) : routeFault s (i / 32) (i % 32) = none ↔ ∀ e, ¬ RouteFails s (i / 32) (i % 32) e := by
    simp only [Option.eq_none_iff_forall_ne_some, ne_eq, routeFault_eq_some_iff]
  rw [hscan]
  refine ⟨hstep.none_iff.trans ⟨fun hall a b d hb hd => ?_, fun hpass i => ?_⟩, fun c i => ?_⟩
  · have hab := hall (a * 32 + b)
    rw [show (a * 32 + b) / 32 = a by omega, show (a * 32 + b) % 32 = b by omega] at hab
    exact routeFault_eq_none_iff.1 hab d hd
  · exact routeFault_eq_none_iff.2 fun d hd => hpass _ _ d (by omega) hd
  · rw [hstep.some_iff]
    simp only [hnone, routeFault_eq_some_iff]

/-! ### The whole check -/

/-- Settles O20: the five steps in their order. -/
theorem activationCheckConditions : Obligations.ActivationCheckConditions := by
  have hsteps {s : State} (h : LayoutOk s.layout) :=
    (stepSays_segments h).or ((stepSays_zones h).or ((stepSays_ports h).or ((stepSays_routes h).or (stepSays_exits h))))
  refine ⟨fun s h => (hsteps h).none_iff, fun s c i h => ((hsteps h).some_iff c i).trans ?_, rfl⟩
  simp only [and_or_left]

end Sys2Proof.Machine


/-! PROOFS. Entry to PARKED and its frames; leaving HALTED; the order of tasks (R25, R32, R48, R94, R143, R180, R181). -/

namespace Sys2Proof.Machine

open Sys2Proof.Says

/-! ### Frames sent below their limits (R161) -/

/-- From `s` to `t` the frames `fs` were appended, and the status flags, the Identity record and the layout stayed. -/
structure SentOnly (fs : List FloorFrame) (s t : State) : Prop where
  su : t.su = s.su
  fli : t.fli = { s.fli with outbound := s.fli.outbound ++ fs }
  identity : t.mc.identity = s.mc.identity
  layout : t.layout = s.layout

theorem SentOnly.refl (s : State) : SentOnly [] s s where
  su := rfl
  fli := by simp
  identity := rfl
  layout := rfl

theorem SentOnly.trans {s t u : State} {fs gs : List FloorFrame} (h : SentOnly fs s t) (k : SentOnly gs t u) :
    SentOnly (fs ++ gs) s u where
  su := k.su.trans h.su
  fli := by rw [k.fli, h.fli, ← List.append_assoc]
  identity := k.identity.trans h.identity
  layout := k.layout.trans h.layout

theorem SentOnly.occupancy {s t : State} {fs : List FloorFrame} (h : SentOnly fs s t) :
    occupancy t = occupancy s + fs.length := by
  simp only [Machine.occupancy, h.fli, List.length_append]
  omega

theorem SentOnly.frameOf {s t : State} {fs : List FloorFrame} (h : SentOnly fs s t) (dst kind tag : Nat)
    (payload : List Byte) : frameOf t dst kind tag payload = frameOf s dst kind tag payload := by
  simp only [Says.frameOf, h.identity]

theorem sentOnly_pushOut (f : FloorFrame) (s : State) : SentOnly [f] s (pushOut f s) := ⟨rfl, rfl, rfl, rfl⟩

theorem sentOnly_sendPeer {s : State} (h : occupancy s < 64) (dst kind tag seg v : Nat) (extra : List Byte) :
    SentOnly [frameOf s dst kind 0 (peerBytes tag seg v ++ extra)] s (sendPeer dst kind tag seg v extra s) := by
  rw [sendPeer, if_pos (by exact h)]
  exact sentOnly_pushOut _ s

theorem sentOnly_reportMove {s : State} (h : occupancy s < 56) (m : Nat) (st : ReportState) (v a : Nat) :
    SentOnly [moveReport s m st.code v a] s (reportMove m st v a s) := by
  rw [reportMove, if_pos (by exact h)]
  exact sentOnly_pushOut _ s

/-- A frame for each entry of a list, while there is room for all. -/
theorem sentOnly_foldl {α : Type} {g : State → α → State} {fr : α → FloorFrame} {limit : Nat} {s : State}
    (hg : ∀ fs t a, SentOnly fs s t → occupancy t < limit → SentOnly [fr a] t (g t a)) :
    ∀ {fs : List FloorFrame} {t : State} (l : List α), SentOnly fs s t → occupancy t + l.length ≤ limit →
      SentOnly (fs ++ l.map fr) s (l.foldl g t)
  | fs, t, [], h, _ => by simpa using h
  | fs, t, a :: l, h, hroom => by
    rw [List.length_cons] at hroom
    have hstep := hg fs t a h (by omega)
    have hrest := sentOnly_foldl hg l (h.trans hstep) (by rw [hstep.occupancy, List.length_singleton]; omega)
    simpa using hrest

/-- The FAILED reports of all moves, in queue order (R94). -/
theorem sentOnly_failMoves :
    ∀ {s : State} (l : List Move), s.mq.moves = l → (l.map (·.id)).Nodup → occupancy s + l.length ≤ 56 →
      SentOnly (l.map fun x => moveReport s x.id 11 (x.vehicle.getD 0) x.age) s
        ((l.map (·.id)).foldl (fun t m => removeMove m .failed t) s)
  | s, [], _, _, _ => SentOnly.refl s
  | s, x :: l, hl, hids, hroom => by
    rw [List.map_cons, List.nodup_cons] at hids
    obtain ⟨hx, hids⟩ := hids
    have hfind : findMove s x.id = some x := by rw [findMove, hl, List.find?_cons, beq_self_eq_true]
    have hdelete : (deleteMove x.id s).mq.moves = l := by
      change s.mq.moves.filter (fun y => y.id ≠ x.id) = l
      rw [hl, List.filter_cons_of_neg (by simp), List.filter_eq_self]
      intro y hy
      simpa using fun h : y.id = x.id => hx (h ▸ List.mem_map_of_mem (f := (·.id)) hy)
    have hremove : removeMove x.id .failed s = reportMove x.id .failed (x.vehicle.getD 0) x.age (deleteMove x.id s) := by
      rw [removeMove, hfind]
    have hgone : SentOnly [] s (deleteMove x.id s) := ⟨rfl, by simp [deleteMove, prunePreempts], rfl, rfl⟩
    rw [List.length_cons] at hroom
    have hbelow : occupancy (deleteMove x.id s) < 56 := by
      rw [hgone.occupancy, List.length_nil]
      omega
    have hmoves : (removeMove x.id .failed s).mq.moves = l := by
      rw [hremove, reportMove, if_pos (by exact hbelow)]
      exact hdelete
    have hstep : SentOnly [moveReport s x.id 11 (x.vehicle.getD 0) x.age] s (removeMove x.id .failed s) := by
      rw [hremove]
      exact hgone.trans (sentOnly_reportMove hbelow x.id .failed _ _)
    have hrest := sentOnly_failMoves l hmoves hids (by rw [hstep.occupancy, List.length_singleton]; omega)
    have hsame : (l.map fun y => moveReport (removeMove x.id .failed s) y.id 11 (y.vehicle.getD 0) y.age) =
        l.map fun y => moveReport s y.id 11 (y.vehicle.getD 0) y.age :=
      List.map_congr_left fun y _ => hstep.frameOf 64 0x61 0 _
    rw [hsame] at hrest
    exact hstep.trans hrest

theorem shed_failAllMoves {s : State} (hm : s.mode ≠ .dispatching) : Shed s (failAllMoves s) :=
  (shed_failMoves (s.mq.moves.map fun x : Move => x.id) s hm).1

/-- The moves gone as FAILED and the claims given up, outside DISPATCHING: what is left, up to the claim lists. -/
theorem withdrawAllClaims_failAllMoves {s : State} (hm : s.mode ≠ .dispatching) :
    ∃ u, Shed s u ∧ u.mq.moves = [] ∧ (∀ k d, tget k s.su.flags = some d → tget k u.su.flags = some d) ∧
      withdrawAllClaims (failAllMoves s) = u.updBxu fun b => { b with outClaims := [], inClaims := [] } := by
  have hshed := shed_failAllMoves hm
  have hacts : Acts s (failAllMoves s) := acts_foldl _ (fun t m => acts_removeMove _ _ _) _ _
  obtain ⟨u, ⟨hreported, hacts'⟩, hu⟩ := withdrawAllClaims_keeps
    (fun t => Reported (failAllMoves s) t ∧ Acts (failAllMoves s) t)
    (fun dst kind tag seg v extra t ht => by
      have hmode : t.mode ≠ .dispatching := by
        rw [ht.1.mode, hshed.mode]
        exact hm
      exact ⟨ht.1.trans (reported_sendPeer _ _ _ _ _ _ _ hmode), ht.2.trans (acts_sendPeer _ _ _ _ _ _ _)⟩)
    _ ⟨Reported.refl _, Acts.refl _⟩
  have hmq : u.mq = (failAllMoves s).mq := by rw [show u = _ from hreported]
  exact ⟨u, hshed.trans (shed_reported hreported), by rw [hmq]; exact failAllMoves_moves s hm,
    fun k d hk => (hacts.trans hacts').flags k d hk, hu⟩

theorem SentOnly.updBxu {fs : List FloorFrame} {s t : State} (h : SentOnly fs s t) (g : Bxu → Bxu) :
    SentOnly fs s (t.updBxu g) := ⟨h.su, h.fli, h.identity, h.layout⟩

/-- The frames by which all claims are given up, where all fit (R143). -/
theorem sentOnly_withdrawAllClaims {fs : List FloorFrame} {s t : State} (h : SentOnly fs s t)
    (hroom : occupancy t + t.bxu.outClaims.length + t.bxu.inClaims.length ≤ 64) :
    SentOnly (fs
      ++ (t.bxu.outClaims.map fun e =>
          frameOf s ((ownerOf s e.segment).getD 255) 0x43 0 (peerBytes e.tag e.segment e.vehicle))
      ++ ((t.bxu.inClaims.filter fun c => c.phase != .waiting).map fun c =>
          frameOf s c.cell 0x45 0 (peerBytes c.tag c.segment c.vehicle))
      ++ ((t.bxu.inClaims.filter fun c => c.phase == .waiting).map fun c =>
          frameOf s c.cell 0x42 0 (peerBytes c.tag c.segment c.vehicle ++ [0]))) s (withdrawAllClaims t) := by
  have hsplit : (t.bxu.inClaims.filter fun c => c.phase != .waiting).length
      + (t.bxu.inClaims.filter fun c => c.phase == .waiting).length = t.bxu.inClaims.length := by
    have h := List.length_eq_length_filter_add (l := t.bxu.inClaims) (fun c => c.phase == .waiting)
    simpa [bne, Nat.add_comm] using h.symm
  have hlen := h.occupancy
  have hout := sentOnly_foldl (limit := 64)
    (g := fun t e => sendPeer ((ownerOf t e.segment).getD anyAddress) kindClaimWithdraw e.tag e.segment e.vehicle [] t)
    (fr := fun e => frameOf s ((ownerOf s e.segment).getD 255) 0x43 0 (peerBytes e.tag e.segment e.vehicle))
    (fun fs t e ht hroom => by
      have hsend := sentOnly_sendPeer hroom ((ownerOf s e.segment).getD anyAddress) kindClaimWithdraw e.tag e.segment
        e.vehicle []
      rw [ht.frameOf, List.append_nil] at hsend
      rw [show ownerOf t = ownerOf s from ownerOf_congr ht.layout]
      exact hsend)
    t.bxu.outClaims h (by omega)
  have hlen' := hout.occupancy
  rw [List.length_append, List.length_map] at hlen'
  have hgranted := sentOnly_foldl (limit := 64)
    (g := fun t c => sendPeer c.cell kindAbandon c.tag c.segment c.vehicle [] t)
    (fr := fun c => frameOf s c.cell 0x45 0 (peerBytes c.tag c.segment c.vehicle))
    (fun fs t c ht hroom => by
      have hsend := sentOnly_sendPeer hroom c.cell kindAbandon c.tag c.segment c.vehicle []
      rw [ht.frameOf, List.append_nil] at hsend
      exact hsend)
    (t.bxu.inClaims.filter fun c => c.phase != .waiting) hout (by omega)
  have hlen'' := hgranted.occupancy
  rw [List.length_append, List.length_append, List.length_map, List.length_map] at hlen''
  have hwaiting := sentOnly_foldl (limit := 64)
    (g := fun t c => sendRefuse c.cell c.tag c.segment c.vehicle .state t)
    (fr := fun c => frameOf s c.cell 0x42 0 (peerBytes c.tag c.segment c.vehicle ++ [0]))
    (fun fs t c ht hroom => by
      have hsend := sentOnly_sendPeer hroom c.cell kindClaimRefuse c.tag c.segment c.vehicle
        [byte RefuseReason.state.code]
      rw [ht.frameOf] at hsend
      exact hsend)
    (t.bxu.inClaims.filter fun c => c.phase == .waiting) hgranted (by omega)
  unfold withdrawAllClaims
  exact hwaiting.updBxu _

/-- The frames of entry to PARKED, where all fit (R94, R143). -/
theorem sentOnly_partingFrames {s : State} (hm : s.mode ≠ .dispatching) (hmoves : MovesOk s.mq)
    (hreports : occupancy s + s.mq.moves.length ≤ 56)
    (hall : occupancy s + s.mq.moves.length + s.bxu.outClaims.length + s.bxu.inClaims.length ≤ 64) :
    SentOnly (partingFrames s) s (withdrawAllClaims (failAllMoves s)) := by
  have hfail : SentOnly _ s (failAllMoves s) := sentOnly_failMoves s.mq.moves rfl hmoves.ids hreports
  have hbxu : (failAllMoves s).bxu = s.bxu := by rw [(shed_failAllMoves hm).rest]
  have hlen := hfail.occupancy
  rw [List.length_map] at hlen
  have hall' := sentOnly_withdrawAllClaims hfail (by rw [hbxu]; omega)
  rw [hbxu] at hall'
  exact hall'

/-- What entry to PARKED makes of a state whose moves and claims are given up. -/
theorem parkLine_eq (u : State) :
    ∃ line, parkLine (clearReservations ((u.updAsu fun a => { a with passDue := false, preempts := [] }).updRoster
        fun _ => [])) =
      { u with
        asu := { u.asu with passDue := false, preempts := [] }
        roster := []
        srt := restingTable u.mc.identity.cell u.layout.segs
        tli := { u.tli with allHold := some 0, resume := none, rollcall := none, strayHolds := [], line := line } } := by
  rw [clearReservations_eq]
  exact ⟨_, rfl⟩

/-- Settles O23. -/
theorem modeParkedClears : Obligations.ModeParkedClears := by
  intro s f rest hs
  have hrow {t : State} {c : Code} (h : askParked (openRequest rest s) = (t, some (Reply.bare c))) :
      exec .modeParked s = .next (closed f c t) := congrArg _ (modeRow_closed hs (by decide) h)
  have hmode : (openRequest rest s).mode = s.mode := rfl
  refine ⟨fun h => ?parked, fun h => ?entered⟩
  case parked => exact hrow (t := openRequest rest s) (by rw [askParked, hmode, h]; rfl)
  case entered =>
    have hask : askParked (openRequest rest s) = (enterParked (openRequest rest s), some (Reply.bare .done)) := by
      rw [askParked, hmode]
      cases hm : s.mode with
      | parked => exact absurd hm h
      | dispatching => rfl
      | halted => rfl
    let p : State := (openRequest rest s).updMc fun m => { m with mode := .parked, haltPending := false }
    have hp : p.mode ≠ .dispatching := show Mode.parked ≠ .dispatching by decide
    obtain ⟨u, hshed, hmoves, hflags, hu⟩ := withdrawAllClaims_failAllMoves hp
    obtain ⟨line, hline⟩ := parkLine_eq (u.updBxu fun b => { b with outClaims := [], inClaims := [] })
    rw [← hu] at hline
    have henter : enterParked (openRequest rest s) = _ := hline
    rw [hu] at henter
    have hrest := hshed.rest
    refine ⟨_, hrow hask, endsWithReply_closed f .done _, ?_⟩
    rw [henter]
    have hmc : u.mc = p.mc := by rw [hrest]
    have hlayout : u.layout = s.layout := by rw [hrest]; rfl
    refine ⟨hmc, ?mq, ?bxu, rfl, ?asu, ?srt, ?tli, hlayout, ?board, hflags, fun hok h56 h64 => ?frames⟩
    case mq => exact (show u.mq = { s.mq with moves := u.mq.moves } by rw [hrest]; rfl).trans (by rw [hmoves])
    case bxu =>
      change { u.bxu with outClaims := [], inClaims := [] } = _
      rw [hrest]
      rfl
    case asu =>
      change { u.asu with passDue := false, preempts := [] } = _
      rw [hrest]
      rfl
    case srt =>
      change restingTable u.mc.identity.cell u.layout.segs = _
      rw [hmc, hlayout]
      rfl
    case tli =>
      have htli : u.tli = s.tli := by rw [hrest]; rfl
      change { u.tli with allHold := some 0, resume := none, rollcall := none, strayHolds := [], line := line } = _
      rw [htli]
      rfl
    case board => exact (show u.board = s.board by rw [hrest]; rfl)
    case frames =>
      have hocc : occupancy p = occupancy s + 1 := Nat.add_assoc _ _ _ |>.symm
      have hsent : SentOnly (partingFrames p) p _ := sentOnly_partingFrames hp hok
        (by change occupancy p + s.mq.moves.length ≤ 56; omega)
        (by change occupancy p + s.mq.moves.length + s.bxu.outClaims.length + s.bxu.inClaims.length ≤ 64; omega)
      rw [hu] at hsent
      have hfli : u.fli = { p.fli with outbound := p.fli.outbound ++ partingFrames p } := hsent.fli
      refine ⟨hsent.su, ?_⟩
      change u.fli.outbound ++ [Says.frameOf u f.src 0x60 f.tag [byte f.kind, byte Code.done.code]] = _
      rw [hfli, Says.frameOf, hmc]
      rfl

end Sys2Proof.Machine

/-! PROOFS. What tasks, path builds and the raising of events may change of vehicles, moves and Mode Control (R25, R35,
R46, R178, R179). -/

namespace Sys2Proof.Machine

open Sys2Proof.Says

/-! ### Raising (R161, R178) -/

/-- What raising an event may do: flags and frames, and in DISPATCHING entry to HALTED, put off during a pass. -/
inductive Raised (s t : State) : Prop
  | reported (h : Reported s t)
  | deferred (hmode : s.mode = .dispatching) (hpass : s.asu.passRunning = true)
      (h : t = { s with asu := { s.asu with haltDeferred := true }, su := t.su, fli := t.fli })
  | halted (hmode : s.mode = .dispatching) (hpass : s.asu.passRunning = false)
      (h : t = { enterHalted s with su := t.su, fli := t.fli })

theorem enterHalted_of_reported {s t : State} (h : Reported s t) :
    enterHalted t = { enterHalted s with su := t.su, fli := t.fli } := by
  rw [show t = { s with su := t.su, fli := t.fli } from h]
  rfl

theorem Raised.refl (s : State) : Raised s s := .reported (Reported.refl s)

theorem mode_of_deferred {s t : State} (h : t = { s with asu := { s.asu with haltDeferred := true }, su := t.su, fli := t.fli }) :
    t.mode = s.mode ∧ t.asu.passRunning = s.asu.passRunning := by
  rw [h]
  exact ⟨rfl, rfl⟩

theorem mode_of_halted {s t : State} (h : t = { enterHalted s with su := t.su, fli := t.fli }) : t.mode = .halted := by
  rw [h]
  exact enterHalted_mode s

theorem Raised.trans {s t u : State} (h : Raised s t) (k : Raised t u) : Raised s u := by
  cases h with
  | reported h =>
    have hs : t = { s with su := t.su, fli := t.fli } := h
    have hpassRunning : t.asu = s.asu := by rw [hs]
    cases k with
    | reported k => exact .reported (h.trans k)
    | deferred hmode hpass k =>
      refine .deferred (h.mode ▸ hmode) (hpassRunning ▸ hpass) (k.trans ?_)
      rw [hs]
    | halted hmode hpass k =>
      refine .halted (h.mode ▸ hmode) (hpassRunning ▸ hpass) (k.trans ?_)
      rw [enterHalted_of_reported h]
  | deferred hmode hpass h =>
    obtain ⟨hmode', hpass'⟩ := mode_of_deferred h
    cases k with
    | reported k =>
      refine .deferred hmode hpass ((show u = { t with su := u.su, fli := u.fli } from k).trans ?_)
      rw [h]
    | deferred _ _ k =>
      refine .deferred hmode hpass (k.trans ?_)
      rw [h]
    | halted _ hnot k => exact absurd (hpass'.trans hpass) (by simp [hnot])
  | halted hmode hpass h =>
    have hmode' := mode_of_halted h
    cases k with
    | reported k =>
      refine .halted hmode hpass ((show u = { t with su := u.su, fli := u.fli } from k).trans ?_)
      rw [h]
    | deferred hdisp _ _ => rw [hmode'] at hdisp; cases hdisp
    | halted hdisp _ _ => rw [hmode'] at hdisp; cases hdisp

theorem raised_haltOccurrence (s : State) : Raised s (haltOccurrence s) := by
  unfold haltOccurrence
  split
  next hmode =>
    split
    next hpass => exact .deferred hmode hpass rfl
    next hpass => exact .halted hmode (by simpa using hpass) rfl
  next => exact .refl s

/-- Raising by `notify`, whatever `notify` may do of the same. -/
theorem raised_occur {note : Detail → State → State} (hnote : ∀ d s, Raised s (note d s)) (k : EventKind) (d : Detail)
    (s : State) : Raised s (occur note k d s) := by
  have hnoticed : Raised s (noticed note k d s) := by
    unfold noticed
    split
    · exact .refl s
    · split
      · exact .reported rfl
      · exact Raised.trans (t := s.updSu _) (.reported rfl) (hnote _ _)
  have halarm : Raised s (updateAlarm (noticed note k d s)) := hnoticed.trans (.reported rfl)
  rw [occur_eq]
  split
  · exact halarm.trans (raised_haltOccurrence _)
  · exact halarm

theorem raised_pushOut (f : FloorFrame) (s : State) : Raised s (pushOut f s) := .reported rfl

theorem raised_notifyLost (d : Detail) (s : State) : Raised s (notifyLost d s) := by
  unfold notifyLost
  split
  · exact raised_pushOut _ s
  · exact raised_occur (fun _ t => .refl t) _ _ s

theorem raised_notify (d : Detail) (s : State) : Raised s (notify d s) := by
  unfold notify
  split
  · exact raised_pushOut _ s
  · exact raised_occur raised_notifyLost _ _ s

theorem raised_raise (k : EventKind) (d : Detail) (s : State) : Raised s (raise k d s) := raised_occur raised_notify k d s

theorem raised_sendPeer (dst kind tag seg v : Nat) (extra : List Byte) (s : State) :
    Raised s (sendPeer dst kind tag seg v extra s) := by
  unfold sendPeer
  split
  · exact raised_pushOut _ s
  · exact raised_raise _ _ s

theorem raised_reportMove (m : Nat) (st : ReportState) (v a : Nat) (s : State) : Raised s (reportMove m st v a s) := by
  unfold reportMove
  split
  · exact raised_pushOut _ s
  · exact raised_raise _ _ s

/-! ### Frames other than MOVE-REPORTs (R92, R161, R170) -/

/-- From `s` to `t` frames were only appended to the outbound queue, none of them a MOVE-REPORT. -/
def Unreported (s t : State) : Prop := ∃ new, t.fli.outbound = s.fli.outbound ++ new ∧ ∀ g ∈ new, g.kind ≠ 0x61

theorem unreported_of_fli {s t : State} (h : t.fli = s.fli) : Unreported s t :=
  ⟨[], by rw [h, List.append_nil], fun _ h => absurd h List.not_mem_nil⟩

theorem Unreported.trans {s t u : State} (h : Unreported s t) (k : Unreported t u) : Unreported s u := by
  obtain ⟨new, ht, hnew⟩ := h
  obtain ⟨more, hu, hmore⟩ := k
  exact ⟨new ++ more, by rw [hu, ht, List.append_assoc], fun g hg => (List.mem_append.1 hg).elim (hnew g) (hmore g)⟩

theorem unreported_pushOut {f : FloorFrame} (h : f.kind ≠ 0x61) (s : State) : Unreported s (pushOut f s) :=
  ⟨[f], rfl, fun _ hg => by rw [List.mem_singleton.1 hg]; exact h⟩

theorem unreported_occur {note : Detail → State → State} (hnote : ∀ d s, Unreported s (note d s)) (k : EventKind)
    (d : Detail) (s : State) : Unreported s (occur note k d s) := by
  have hnoticed : Unreported s (noticed note k d s) := by
    unfold noticed
    split
    · exact unreported_of_fli rfl
    · split
      · exact unreported_of_fli rfl
      · exact Unreported.trans (t := s.updSu _) (unreported_of_fli rfl) (hnote _ _)
  exact hnoticed.trans (unreported_of_fli (occur_fli note k d s))

theorem noticeFrame_kind (d : Detail) (s : State) : (noticeFrame d s).kind ≠ 0x61 := by
  show (0x62 : Nat) ≠ 0x61
  decide

theorem unreported_notifyLost (d : Detail) (s : State) : Unreported s (notifyLost d s) := by
  unfold notifyLost
  split
  · exact unreported_pushOut (noticeFrame_kind d s) s
  · exact unreported_occur (fun _ _ => unreported_of_fli rfl) _ _ s

theorem unreported_raise (k : EventKind) (d : Detail) (s : State) : Unreported s (raise k d s) := by
  refine unreported_occur (fun d s => ?_) k d s
  unfold notify
  split
  · exact unreported_pushOut (noticeFrame_kind d s) s
  · exact unreported_occur unreported_notifyLost _ _ s

theorem unreported_sendPeer {kind : Nat} (hkind : kind ≠ 0x61) (dst tag seg v : Nat) (extra : List Byte) (s : State) :
    Unreported s (sendPeer dst kind tag seg v extra s) := by
  unfold sendPeer
  split
  · exact unreported_pushOut hkind s
  · exact unreported_raise _ _ s

/-! ### Records of moves that at most have their deadline suspended (R99) -/

theorem suspended_id (x : Move) : (suspended x).id = x.id := by
  unfold suspended
  split <;> rfl

theorem suspended_eq (x : Move) : suspended x = { x with confirm := (suspended x).confirm } := by
  unfold suspended
  split <;> rfl

theorem suspended_of_absent {x : Move} (h : x.confirm = .absent) : suspended x = x := by
  unfold suspended
  rw [h]

theorem suspended_suspended (x : Move) : suspended (suspended x) = suspended x := by
  match h : x.confirm with
  | .at _ => simp [suspended, h]
  | .absent => simp [suspended, h]
  | .suspended => simp [suspended, h]

/-- The record of move `k` is as it was, or with its deadline suspended. -/
def MoveKept (k : Nat) (s t : State) : Prop := findMove t k = findMove s k ∨ findMove t k = (findMove s k).map suspended

/-- So is every record, in the order of the queue. -/
def MovesKept (s t : State) : Prop := t.mq.moves = s.mq.moves ∨ t.mq.moves = s.mq.moves.map suspended

theorem MoveKept.refl (k : Nat) (s : State) : MoveKept k s s := .inl rfl

theorem MoveKept.trans {k : Nat} {s t u : State} (h : MoveKept k s t) (j : MoveKept k t u) : MoveKept k s u := by
  obtain h | h := h <;> obtain j | j := j
  · exact .inl (j.trans h)
  · exact .inr (by rw [j, h])
  · exact .inr (j.trans h)
  · refine .inr ?_
    rw [j, h, Option.map_map]
    congr 1
    exact funext suspended_suspended

theorem MoveKept.none {k : Nat} {s t : State} (h : MoveKept k s t) (hx : findMove s k = none) : findMove t k = none := by
  obtain h | h := h <;> rw [h, hx]
  rfl

theorem MoveKept.absent {k : Nat} {s t : State} {x : Move} (h : MoveKept k s t) (hx : findMove s k = some x)
    (hc : x.confirm = .absent) : findMove t k = some x := by
  obtain h | h := h <;> rw [h, hx]
  rw [Option.map_some, suspended_of_absent hc]

theorem MoveKept.some {k : Nat} {s t : State} {x : Move} (h : MoveKept k s t) (hx : findMove s k = some x) :
    ∃ y, findMove t k = some y ∧ y = { x with confirm := y.confirm } := by
  obtain h | h := h <;> rw [h, hx]
  · exact ⟨x, rfl, rfl⟩
  · exact ⟨suspended x, rfl, suspended_eq x⟩

theorem findMove_of_map {s t : State} {f : Move → Move} (hid : ∀ x, (f x).id = x.id)
    (h : t.mq.moves = s.mq.moves.map f) (k : Nat) : findMove t k = (findMove s k).map f := by
  have : ((fun x : Move => x.id == k) ∘ f) = fun x => x.id == k := funext fun x => by simp [hid]
  rw [findMove, findMove, h, List.find?_map, this]

theorem MovesKept.refl (s : State) : MovesKept s s := .inl rfl

theorem MovesKept.trans {s t u : State} (h : MovesKept s t) (j : MovesKept t u) : MovesKept s u := by
  obtain h | h := h <;> obtain j | j := j
  · exact .inl (j.trans h)
  · exact .inr (by rw [j, h])
  · exact .inr (j.trans h)
  · refine .inr ?_
    rw [j, h, List.map_map]
    congr 1
    exact funext suspended_suspended

theorem findMove_congr {s t : State} (h : t.mq.moves = s.mq.moves) (k : Nat) : findMove t k = findMove s k := by
  rw [findMove, findMove, h]

theorem MovesKept.move {s t : State} (h : MovesKept s t) (k : Nat) : MoveKept k s t :=
  h.imp (findMove_congr · k) (findMove_of_map suspended_id · k)

/-! ### Vehicles (R28, R46, R49) -/

/-- `y` is `x` after work on its held list, its path and the GRANT due to it. -/
structure Tended (x y : Vehicle) : Prop where
  rest : y = { x with held := y.held, path := y.path, parkMark := y.parkMark, due := { x.due with grant := y.due.grant } }
  grant : y.due.grant = x.due.grant ∨ y.due.grant = some 0

theorem Tended.refl (x : Vehicle) : Tended x x := ⟨rfl, .inl rfl⟩

theorem Tended.trans {x y z : Vehicle} (h : Tended x y) (k : Tended y z) : Tended x z where
  rest := k.rest.trans (by rw [h.rest])
  grant := by
    obtain hz | hz := k.grant
    · rw [hz]
      exact h.grant
    · exact .inr hz

/-! ### The path of a vehicle on its way to a source port (R50, R57) -/

/-- Vehicle `v`, TO-SOURCE with its move, has a path to segment `t`, where the source port of the move is. -/
def Aimed (v t : Nat) (s : State) : Prop :=
  ∃ x m y, vehicle s v = some x ∧ x.state = .work .toSource ∧ x.move = some m ∧ findMove s m = some y
    ∧ y.source.bind (portSegment s) = some t ∧ x.path.purpose = .source ∧ x.path.target = some t

/-- A path of the same purpose and target, or one to the source port. -/
def Steers (t : Nat) (p q : Path) : Prop :=
  q.purpose = p.purpose ∧ q.target = p.target ∨ q.purpose = .source ∧ q.target = some t

theorem Steers.refl (t : Nat) (p : Path) : Steers t p p := .inl ⟨rfl, rfl⟩

theorem portSegment_congr {s u : State} (h : u.layout = s.layout) : portSegment u = portSegment s := by
  unfold portSegment portRec
  rw [h]

theorem Aimed.of_sources {v t : Nat} {s u : State} (h : Aimed v t s) (hlayout : u.layout = s.layout)
    (hmoves : ∀ m y, findMove s m = some y → ∃ w, findMove u m = some w ∧ w.source = y.source)
    (hv : ∀ x, vehicle s v = some x → ∃ z, vehicle u v = some z ∧ Tended x z ∧ Steers t x.path z.path) : Aimed v t u := by
  obtain ⟨x, m, y, hx, hstate, hm, hy, hport, hpurpose, htarget⟩ := h
  obtain ⟨z, hz, ht, hsteers⟩ := hv x hx
  obtain ⟨w, hw, hsource⟩ := hmoves m y hy
  have hzstate : z.state = x.state := by rw [ht.rest]
  have hzmove : z.move = x.move := by rw [ht.rest]
  refine ⟨z, m, w, hz, hzstate.trans hstate, hzmove.trans hm, hw, ?_, ?_⟩
  · rw [portSegment_congr hlayout, hsource]
    exact hport
  · obtain ⟨hp, hq⟩ | h := hsteers
    · exact ⟨hp.trans hpurpose, hq.trans htarget⟩
    · exact h

theorem Aimed.kept {v t : Nat} {s u : State} (h : Aimed v t s) (hlayout : u.layout = s.layout) (hmoves : MovesKept s u)
    (hv : ∀ x, vehicle s v = some x → ∃ z, vehicle u v = some z ∧ Tended x z ∧ Steers t x.path z.path) : Aimed v t u :=
  h.of_sources hlayout (fun m y hy => by
    obtain ⟨w, hw, hweq⟩ := (hmoves.move m).some hy
    exact ⟨w, hw, by rw [hweq]⟩) hv

theorem stepLeg_aims (s : State) (p : Path) : (stepLeg s p).purpose = p.purpose ∧ (stepLeg s p).target = p.target := by
  unfold stepLeg
  split
  · split <;> exact ⟨rfl, rfl⟩
  · split
    · exact ⟨rfl, rfl⟩
    · split <;> exact ⟨rfl, rfl⟩
  · split <;> exact ⟨rfl, rfl⟩
  · split <;> exact ⟨rfl, rfl⟩
  · exact ⟨rfl, rfl⟩

theorem advancePath_aims (s : State) (i : Nat) (p : Path) :
    (advancePath s i p).purpose = p.purpose ∧ (advancePath s i p).target = p.target := by
  unfold advancePath
  dsimp only
  split <;> exact stepLeg_aims s p

theorem alignRun_aims (s : State) : ∀ (is : List Nat) (p : Path),
    (alignRun s p is).2.purpose = p.purpose ∧ (alignRun s p is).2.target = p.target
  | [], _ => ⟨rfl, rfl⟩
  | i :: is, p => by
    unfold alignRun
    split
    · obtain ⟨hp, ht⟩ := alignRun_aims s is (advancePath s i p)
      obtain ⟨ap, at'⟩ := advancePath_aims s i p
      exact ⟨hp.trans ap, ht.trans at'⟩
    · exact ⟨rfl, rfl⟩

theorem trial_aims (s : State) (p : Purpose) (target s0 approach : Nat) (fin : Option Nat) :
    (trial s p target s0 approach fin).purpose = p ∧ (trial s p target s0 approach fin).target = some target := by
  unfold trial
  dsimp only
  split
  · split
    · split <;> exact ⟨rfl, rfl⟩
    · split
      · split
        · exact ⟨rfl, rfl⟩
        · split
          · exact ⟨rfl, rfl⟩
          · split <;> exact ⟨rfl, rfl⟩
      · exact ⟨rfl, rfl⟩
  · exact ⟨rfl, rfl⟩

/-- A build for a vehicle on its way to its source port leads there. -/
theorem planPath_aims {s : State} {x : Vehicle} {m t : Nat} {y : Move} (hm : x.move = some m) (hy : findMove s m = some y)
    (hport : y.source.bind (portSegment s) = some t) (s0 : Nat) :
    (planPath s x .toSource s0).1.purpose = .source ∧ (planPath s x .toSource s0).1.target = some t := by
  have hsource : ((x.move.bind (findMove s)).bind fun y => y.source.bind (portSegment s)) = some t := by
    rw [hm, Option.bind_some, hy, Option.bind_some, hport]
  unfold planPath
  dsimp only
  rw [hsource]
  exact trial_aims s .source t s0 t none

/-- A claim made now for a vehicle with a move (R129, R130). -/
def ClaimedNow (s : State) (c : OutClaim) : Prop :=
  c.phase = .claiming (s.board.now + s.layout.tuning.tClaim) ∧ ∃ x, vehicle s c.vehicle = some x ∧ x.move ≠ none

/-- What a chain of tasks, a path build or a frame to a peer may change of vehicles, moves and Mode Control: held lists,
paths and GRANTs of the vehicles there are, a new record only of an ARRIVING vehicle, claims of vehicles with a move, and
entry to HALTED. -/
structure Worked (s t : State) : Prop where
  vehicles : ∀ v x, vehicle s v = some x → ∃ y, vehicle t v = some y ∧ Tended x y
  newcomers : ∀ v y, vehicle s v = none → vehicle t v = some y → y.state = .arriving ∧ y.move = none
  board : t.board = s.board
  layout : t.layout = s.layout
  mc : t.mc = s.mc ∨ s.mode = .dispatching ∧ s.asu.passRunning = false ∧ t.mc = { s.mc with mode := .halted }
  preempts : t.asu.preempts = s.asu.preempts
  passRunning : t.asu.passRunning = s.asu.passRunning
  line : t.tli = { s.tli with
    allHold := t.tli.allHold, resume := t.tli.resume, strayHolds := t.tli.strayHolds, line := t.tli.line }
  stays : t.mode = s.mode →
    t.mq = s.mq ∧ t.asu.passDue = s.asu.passDue ∧ t.tli.allHold = s.tli.allHold ∧ t.tli.resume = s.tli.resume
  halts : t.mode ≠ s.mode →
    t.mq = { s.mq with moves := s.mq.moves.map suspended } ∧ t.asu.passDue = false ∧ t.tli.allHold = some 0
      ∧ t.tli.resume = none
  quiet : Says.Quiet s → t.mode = s.mode
  inClaims : ∀ c ∈ t.bxu.inClaims, ∃ d ∈ s.bxu.inClaims, d.cell = c.cell ∧ d.tag = c.tag ∧ d.vehicle = c.vehicle
  outClaims : ∀ c ∈ t.bxu.outClaims, c ∈ s.bxu.outClaims ∨ ClaimedNow s c
  sent : Unreported s t
  aims : ∀ v i, Aimed v i s → Aimed v i t

theorem Worked.mode_of_not_dispatching {s t : State} (h : Worked s t) (hm : s.mode ≠ .dispatching) : t.mode = s.mode := by
  obtain hmc | ⟨hd, -⟩ := h.mc
  · exact congrArg Mc.mode hmc
  · exact absurd hd hm

theorem Worked.mode_of_ne {s t : State} (h : Worked s t) (hne : t.mode ≠ s.mode) :
    s.mode = .dispatching ∧ t.mode = .halted := by
  obtain hmc | ⟨hd, -, hmc⟩ := h.mc
  · exact absurd (congrArg Mc.mode hmc) hne
  · exact ⟨hd, congrArg Mc.mode hmc⟩

theorem quiet_congr {s t : State} (h : t.layout = s.layout) (hq : Says.Quiet s) : Says.Quiet t := by
  unfold Says.Quiet severityOf at *
  rwa [h]

theorem Worked.refl (s : State) : Worked s s where
  vehicles _ x h := ⟨x, h, .refl x⟩
  newcomers v y hn hy := by rw [hn] at hy; cases hy
  board := rfl
  layout := rfl
  mc := .inl rfl
  preempts := rfl
  passRunning := rfl
  line := rfl
  stays _ := ⟨rfl, rfl, rfl, rfl⟩
  halts h := absurd rfl h
  quiet _ := rfl
  inClaims c hc := ⟨c, hc, rfl, rfl, rfl⟩
  outClaims _ hc := .inl hc
  sent := unreported_of_fli rfl
  aims _ _ h := h

/-- A claim made later in a chain of work was made now. -/
theorem Worked.claimedNow {s t : State} (h : Worked s t) {c : OutClaim} (hc : ClaimedNow t c) : ClaimedNow s c := by
  obtain ⟨hphase, y, hy, hmove⟩ := hc
  refine ⟨by rw [hphase, h.board, h.layout], ?_⟩
  cases hx : vehicle s c.vehicle with
  | none => exact absurd (h.newcomers _ y hx hy).2 hmove
  | some x =>
    obtain ⟨z, hz, hxz⟩ := h.vehicles _ x hx
    cases hy.symm.trans hz
    rw [hxz.rest] at hmove
    exact ⟨x, rfl, hmove⟩

theorem Worked.trans {s t u : State} (h : Worked s t) (k : Worked t u) : Worked s u := by
  have hmode : u.mode = s.mode → t.mode = s.mode ∧ u.mode = t.mode := fun hu => by
    by_cases ht : t.mode = s.mode
    · exact ⟨ht, hu.trans ht.symm⟩
    · obtain ⟨hd, hh⟩ := h.mode_of_ne ht
      have := k.mode_of_not_dispatching (by rw [hh]; nofun)
      rw [hu, hd, hh] at this
      cases this
  refine
    { vehicles := fun v x hx => ?_, newcomers := fun v z hn hz => ?_, board := k.board.trans h.board
      layout := k.layout.trans h.layout, mc := ?_
      preempts := k.preempts.trans h.preempts, passRunning := k.passRunning.trans h.passRunning
      line := k.line.trans (by rw [h.line]), stays := fun hu => ?_, halts := fun hu => ?_
      quiet := fun hq => (k.quiet (quiet_congr h.layout hq)).trans (h.quiet hq)
      inClaims := fun c hc => ?_
      outClaims := fun c hc => (k.outClaims c hc).elim (h.outClaims c) fun hc => .inr (h.claimedNow hc)
      sent := h.sent.trans k.sent, aims := fun v i ha => k.aims v i (h.aims v i ha) }
  · obtain ⟨y, hy, hxy⟩ := h.vehicles v x hx
    obtain ⟨z, hz, hyz⟩ := k.vehicles v y hy
    exact ⟨z, hz, hxy.trans hyz⟩
  · cases hy : vehicle t v with
    | none => exact k.newcomers v z hy hz
    | some y =>
      obtain ⟨z', hz', hyz⟩ := k.vehicles v y hy
      cases hz.symm.trans hz'
      have := h.newcomers v y hn hy
      rwa [hyz.rest]
  · obtain hmc | ⟨hd, hp, hmc⟩ := h.mc
    · obtain kmc | ⟨kd, kp, kmc⟩ := k.mc
      · exact .inl (kmc.trans hmc)
      · exact .inr ⟨by rw [State.mode, ← hmc]; exact kd, h.passRunning ▸ kp, by rw [kmc, hmc]⟩
    · have : u.mc = t.mc := by
        obtain kmc | ⟨kd, -⟩ := k.mc
        · exact kmc
        · rw [State.mode, hmc] at kd
          cases kd
      exact .inr ⟨hd, hp, this.trans hmc⟩
  · obtain ⟨ht, hut⟩ := hmode hu
    obtain ⟨hmq, hpass, hall, hres⟩ := h.stays ht
    obtain ⟨kmq, kpass, kall, kres⟩ := k.stays hut
    exact ⟨kmq.trans hmq, kpass.trans hpass, kall.trans hall, kres.trans hres⟩
  · by_cases ht : t.mode = s.mode
    · obtain ⟨hmq, hpass, hall, hres⟩ := h.stays ht
      obtain ⟨kmq, kpass, kall, kres⟩ := k.halts (by rwa [ht])
      exact ⟨by rw [kmq, hmq], kpass, kall, kres⟩
    · obtain ⟨hd, hh⟩ := h.mode_of_ne ht
      obtain ⟨hmq, hpass, hall, hres⟩ := h.halts ht
      obtain ⟨kmq, kpass, kall, kres⟩ := k.stays (k.mode_of_not_dispatching (by rw [hh]; nofun))
      exact ⟨kmq.trans hmq, kpass.trans hpass, kall.trans hall, kres.trans hres⟩
  · obtain ⟨d, hd, hcell, htag, hvehicle⟩ := k.inClaims c hc
    obtain ⟨e, he, ecell, etag, evehicle⟩ := h.inClaims d hd
    exact ⟨e, he, ecell.trans hcell, etag.trans htag, evehicle.trans hvehicle⟩

theorem aimed_of_roster {v i : Nat} {s t : State} (h : Aimed v i s) (hroster : t.roster = s.roster)
    (hlayout : t.layout = s.layout) (hmoves : MovesKept s t) : Aimed v i t :=
  h.kept hlayout hmoves fun x hx => ⟨x, by rw [vehicle_congr hroster, hx], .refl x, .refl i x.path⟩

/-- Work on segments, claims and frames alone. -/
theorem worked_of_same {s t : State} (hroster : t.roster = s.roster) (hlayout : t.layout = s.layout) (hmc : t.mc = s.mc)
    (hmq : t.mq = s.mq) (hasu : t.asu = s.asu) (htli : t.tli = s.tli) (hboard : t.board = s.board)
    (hfli : t.fli = s.fli)
    (hin : ∀ c ∈ t.bxu.inClaims, ∃ d ∈ s.bxu.inClaims, d.cell = c.cell ∧ d.tag = c.tag ∧ d.vehicle = c.vehicle)
    (hout : ∀ c ∈ t.bxu.outClaims, c ∈ s.bxu.outClaims ∨ ClaimedNow s c) : Worked s t where
  vehicles v x hx := ⟨x, by rw [vehicle_congr hroster, hx], .refl x⟩
  newcomers v y hn hy := by rw [vehicle_congr hroster, hn] at hy; cases hy
  board := hboard
  layout := hlayout
  mc := .inl hmc
  preempts := by rw [hasu]
  passRunning := by rw [hasu]
  line := by rw [htli]
  stays _ := ⟨hmq, by rw [hasu], by rw [htli], by rw [htli]⟩
  halts h := absurd (congrArg Mc.mode hmc) h
  quiet _ := congrArg Mc.mode hmc
  inClaims := hin
  outClaims := hout
  sent := unreported_of_fli hfli
  aims v i ha := aimed_of_roster ha hroster hlayout (.inl (by rw [hmq]))

/-- Work that leaves claims alone. -/
theorem keeps_claims {s t : State} (h : t.bxu = s.bxu) :
    (∀ c ∈ t.bxu.inClaims, ∃ d ∈ s.bxu.inClaims, d.cell = c.cell ∧ d.tag = c.tag ∧ d.vehicle = c.vehicle)
      ∧ ∀ c ∈ t.bxu.outClaims, c ∈ s.bxu.outClaims ∨ ClaimedNow s c := by
  rw [h]
  exact ⟨fun c hc => ⟨c, hc, rfl, rfl, rfl⟩, fun _ hc => .inl hc⟩

theorem worked_of_rest {s t : State} (hroster : t.roster = s.roster) (hlayout : t.layout = s.layout) (hmc : t.mc = s.mc)
    (hmq : t.mq = s.mq) (hasu : t.asu = s.asu) (htli : t.tli = s.tli) (hboard : t.board = s.board)
    (hfli : t.fli = s.fli) (hbxu : t.bxu = s.bxu) : Worked s t :=
  worked_of_same hroster hlayout hmc hmq hasu htli hboard hfli (keeps_claims hbxu).1 (keeps_claims hbxu).2

/-- An event that halts no quiet engine. -/
theorem worked_of_raised {s t : State} (h : Raised s t) (hquiet : Says.Quiet s → t.mode = s.mode)
    (hsent : Unreported s t) : Worked s t := by
  cases h with
  | reported h =>
    have h : t = { s with su := t.su, fli := t.fli } := h
    exact
      { worked_of_rest (s := s) (t := { t with fli := s.fli }) (by rw [h]) (by rw [h]) (by rw [h]) (by rw [h]) (by rw [h])
          (by rw [h]) (by rw [h]) rfl (by rw [h]) with
        sent := hsent, aims := fun v i ha => aimed_of_roster ha (by rw [h]) (by rw [h]) (.inl (by rw [h])) }
  | deferred hmode hpass h =>
    have hroster : t.roster = s.roster := by rw [h]
    exact
      { vehicles := fun v x hx => ⟨x, by rw [vehicle_congr hroster, hx], .refl x⟩
        newcomers := fun v y hn hy => by rw [vehicle_congr hroster, hn] at hy; cases hy
        board := by rw [h], layout := by rw [h], mc := .inl (by rw [h]), preempts := by rw [h], passRunning := by rw [h], line := by rw [h]
        stays := fun _ => by rw [h]; exact ⟨rfl, rfl, rfl, rfl⟩
        halts := fun hne => absurd (mode_of_deferred h).1 hne
        quiet := hquiet, inClaims := (keeps_claims (by rw [h])).1, outClaims := (keeps_claims (by rw [h])).2, sent := hsent
        aims := fun v i ha => aimed_of_roster ha hroster (by rw [h]) (.inl (by rw [h])) }
  | halted hmode hpass h =>
    have henter := entersHalted_enterHalted s
    have hroster : t.roster = s.roster := by rw [h]; exact henter.roster
    have hasu : t.asu = { s.asu with passDue := false } := by rw [h]; exact henter.pass
    exact
      { vehicles := fun v x hx => ⟨x, by rw [vehicle_congr hroster, hx], .refl x⟩
        newcomers := fun v y hn hy => by rw [vehicle_congr hroster, hn] at hy; cases hy
        board := by rw [h]; exact (enterHalted_rest s).1
        layout := by rw [h]; exact henter.layout
        mc := .inr ⟨hmode, hpass, by rw [h]; exact enterHalted_mc s⟩
        preempts := by rw [hasu]
        passRunning := by rw [hasu]
        line := by rw [h]; exact henter.line.trans (by rw [henter.line])
        stays := fun he => by rw [mode_of_halted h, hmode] at he; cases he
        halts := fun _ => by
          rw [h]
          exact ⟨henter.moves, congrArg Asu.passDue henter.pass, congrArg Tli.allHold henter.line,
            congrArg Tli.resume henter.line⟩
        quiet := hquiet
        inClaims := (keeps_claims (by rw [h]; exact henter.claims)).1
        outClaims := (keeps_claims (by rw [h]; exact henter.claims)).2
        sent := hsent
        aims := fun v i ha => aimed_of_roster ha hroster (by rw [h]; exact henter.layout)
          (.inr (by rw [h]; exact congrArg MoveQueue.moves henter.moves)) }

/-! ### The operations of tasks (R23 to R37, R46, R49) -/

theorem worked_updVehicle {f : Vehicle → Vehicle} (hf : ∀ x, Tended x (f x)) (v : Nat) (s : State)
    (hpath : ∀ x i, vehicle s v = some x → Aimed v i s → Steers i x.path (f x).path) : Worked s (updVehicle v f s) := by
  have hid : ∀ x, x.id = v → (f x).id = v := fun x hx => by rw [(hf x).rest]; exact hx
  have htended : ∀ u x, Tended x (if u = v then f x else x) := fun u x => by
    split
    · exact hf x
    · exact .refl x
  exact
    { vehicles := fun u x hx => ⟨if u = v then f x else x, by rw [vehicle_updVehicle v u f s hid, hx]; rfl, htended u x⟩
      newcomers := fun u y hn hy => by rw [vehicle_updVehicle v u f s hid, hn] at hy; cases hy
      board := rfl, layout := rfl, mc := .inl rfl, preempts := rfl, passRunning := rfl, line := rfl
      stays := fun _ => ⟨rfl, rfl, rfl, rfl⟩, halts := fun h => absurd rfl h, quiet := fun _ => rfl
      inClaims := fun c hc => ⟨c, hc, rfl, rfl, rfl⟩, outClaims := fun _ hc => .inl hc, sent := unreported_of_fli rfl
      aims := fun u i ha => ha.kept rfl (.inl rfl) fun x hx =>
        ⟨if u = v then f x else x, by rw [vehicle_updVehicle v u f s hid, hx]; rfl, htended u x, by
          split
          next huv =>
            subst huv
            exact hpath x i hx ha
          next => exact .refl i x.path⟩ }

theorem worked_tend (h : Vehicle → List Nat) (p : Vehicle → Path) (m : Vehicle → Option Nat) (v : Nat) (s : State)
    (hp : ∀ x i, vehicle s v = some x → Aimed v i s → Steers i x.path (p x)) :
    Worked s (updVehicle v (fun y => { y with held := h y, path := p y, parkMark := m y }) s) :=
  worked_updVehicle (f := fun y => { y with held := h y, path := p y, parkMark := m y }) (fun _ => ⟨rfl, .inl rfl⟩) v s hp

/-- Work on the held list and the park target mark alone. -/
theorem worked_tendList (h : Vehicle → List Nat) (m : Vehicle → Option Nat) (v : Nat) (s : State) :
    Worked s (updVehicle v (fun y => { y with held := h y, parkMark := m y }) s) :=
  worked_tend h (fun y => y.path) m v s fun x i _ _ => .refl i x.path

theorem worked_relink (item : LineItem) (l : Link) (s : State) : Worked s (relink item l s) where
  vehicles v x hx := ⟨x, hx, .refl x⟩
  newcomers v y hn hy := by cases hn.symm.trans hy
  board := rfl
  layout := rfl
  mc := .inl rfl
  preempts := rfl
  passRunning := rfl
  line := rfl
  stays _ := ⟨rfl, rfl, rfl, rfl⟩
  halts h := absurd rfl h
  quiet _ := rfl
  inClaims c hc := ⟨c, hc, rfl, rfl, rfl⟩
  outClaims _ hc := .inl hc
  sent := unreported_of_fli rfl
  aims _ _ ha := aimed_of_roster ha rfl rfl (.inl rfl)

theorem worked_makeGrantDue (v : Nat) (s : State) : Worked s (makeGrantDue v s) := by
  refine (worked_updVehicle (fun x => ?_) v s fun x i _ _ => ?_).trans (worked_relink _ _ _)
  · split
    · exact .refl x
    · exact ⟨rfl, .inr rfl⟩
  · split <;> exact .refl i x.path

theorem worked_setRes (i : Nat) (r : Res) (s : State) : Worked s (setRes i r s) := worked_of_rest rfl rfl rfl rfl rfl rfl rfl rfl rfl

theorem worked_leaveWaits (v : Nat) (s : State) : Worked s (leaveWaits v s) := worked_of_rest rfl rfl rfl rfl rfl rfl rfl rfl rfl

theorem worked_dropOutClaim (tag : Nat) (s : State) : Worked s (dropOutClaim tag s) :=
  worked_of_same rfl rfl rfl rfl rfl rfl rfl rfl (fun c hc => ⟨c, hc, rfl, rfl, rfl⟩) fun _ hc => .inl (List.mem_filter.1 hc).1

theorem worked_dropInClaim (cell tag : Nat) (s : State) : Worked s (dropInClaim cell tag s) :=
  worked_of_same rfl rfl rfl rfl rfl rfl rfl rfl (fun c hc => ⟨c, (List.mem_filter.1 hc).1, rfl, rfl, rfl⟩) fun _ hc => .inl hc

/-- Incoming claims change phase. -/
theorem worked_mapInClaims {f : InClaim → InClaim}
    (hf : ∀ c, (f c).cell = c.cell ∧ (f c).tag = c.tag ∧ (f c).vehicle = c.vehicle) (s : State) :
    Worked s (s.updBxu fun b => { b with inClaims := b.inClaims.map f }) :=
  worked_of_same rfl rfl rfl rfl rfl rfl rfl rfl (fun c hc => by
    obtain ⟨d, hd, rfl⟩ := List.mem_map.1 hc
    obtain ⟨hcell, htag, hvehicle⟩ := hf d
    exact ⟨d, hd, hcell.symm, htag.symm, hvehicle.symm⟩) fun _ hc => .inl hc

theorem worked_raise {k : EventKind} (hk : ∀ s, Says.Quiet s → severityOf s k ≠ .halt) (d : Detail) (s : State) :
    Worked s (raise k d s) :=
  worked_of_raised (raised_raise k d s) (fun h => (reported_raise_of_not_halt (hk s h) (.inl h.2.2)).mode)
    (unreported_raise k d s)

theorem worked_sendPeer {kind : Nat} (hkind : kind ≠ 0x61) (dst tag seg v : Nat) (extra : List Byte) (s : State) :
    Worked s (sendPeer dst kind tag seg v extra s) := by
  refine worked_of_raised (raised_sendPeer dst kind tag seg v extra s) (fun h => ?_)
    (unreported_sendPeer hkind dst tag seg v extra s)
  unfold sendPeer
  split
  · rfl
  · exact (reported_raise_of_not_halt h.2.2 (.inl h.2.2)).mode

theorem worked_addRecord {x : Vehicle} {s : State} (harr : x.state = .arriving) (hmove : x.move = none)
    (hr : s.roster.length < Config.rosterMax) (hi : inRoster s x.id = false) : Worked s (addRecord x s) := by
  have hv := vehicle_addRecord hr hi
  have hnew : vehicle s x.id = none := by simpa [inRoster_eq] using hi
  obtain ⟨k, hk⟩ := Option.isSome_iff_exists.1 (lowestFree_isSome hr)
  have hadd : addRecord x s = claimStrayHold x.id (s.updRoster (tput k x)) := by
    unfold addRecord
    rw [hk]
  exact
    { vehicles := fun v y hy => by
        have hne : v ≠ x.id := fun h => by rw [h, hnew] at hy; cases hy
        exact ⟨y, by rw [hv, if_neg hne, hy], .refl y⟩
      newcomers := fun v y hn hy => by
        rw [hv] at hy
        split at hy
        · cases hy
          exact ⟨harr, hmove⟩
        · rw [hn] at hy
          cases hy
      board := by rw [hadd]; rfl, layout := by rw [hadd]; rfl, mc := .inl (by rw [hadd]; rfl), preempts := by rw [hadd]; rfl
      passRunning := by rw [hadd]; rfl, line := by rw [hadd]; rfl
      stays := fun _ => by rw [hadd]; exact ⟨rfl, rfl, rfl, rfl⟩
      halts := fun h => absurd (by rw [hadd]; rfl) h
      quiet := fun _ => by rw [hadd]; rfl
      inClaims := (keeps_claims (by rw [hadd]; rfl)).1, outClaims := (keeps_claims (by rw [hadd]; rfl)).2
      sent := unreported_of_fli (by rw [hadd]; rfl)
      aims := fun v i ha => ha.kept (by rw [hadd]; rfl) (.inl (by rw [hadd]; rfl)) fun y hy =>
        have hne : v ≠ x.id := fun h => by rw [h, hnew] at hy; cases hy
        ⟨y, by rw [hv, if_neg hne, hy], .refl y, .refl i y.path⟩ }

theorem worked_releaseSegs (v : Nat) : ∀ (is : List Nat) (s : State), Worked s (releaseSegs v is s)
  | [], s => .refl s
  | i :: is, s => Worked.trans (t := releaseSeg v i s) (worked_of_rest rfl rfl rfl rfl rfl rfl rfl rfl rfl) (worked_releaseSegs v is _)

theorem worked_endOutClaim (e : OutClaim) (s : State) : Worked s (endOutClaim e s) := by
  have hbase : Worked s (dropOutClaim e.tag (setRes e.segment .foreign s)) := (worked_setRes _ _ s).trans (worked_dropOutClaim _ _)
  unfold endOutClaim
  dsimp only
  split
  · exact hbase
  · exact (hbase.trans (worked_tendList _ _ _ _)).trans (worked_makeGrantDue _ _)

theorem worked_withdrawClaim (v : Nat) (s : State) : Worked s (withdrawClaim v s).2 := by
  unfold withdrawClaim
  split
  · exact .refl s
  · exact (worked_sendPeer (by decide) _ _ _ _ _ s).trans (worked_endOutClaim _ _)

/-- What a claim's end and the release of segments leave of the path. -/
theorem path_releaseEntries {v : Nat} {is : List Nat} {s : State} {x : Vehicle} (hx : vehicle s v = some x) :
    ∃ y, vehicle (releaseEntries v is s) v = some y ∧ y.path = x.path := by
  have hend : ∀ (e : OutClaim) (u : State), vehicle u v = some x → ∃ y, vehicle (endOutClaim e u) v = some y ∧ y.path = x.path :=
    fun e u hu => by
      unfold endOutClaim
      split
      · exact ⟨x, hu, rfl⟩
      · rw [vehicle_makeGrantDue_eq, vehicle_updVehicle e.vehicle v
          (fun x => { x with held := x.held.filter (· ≠ e.segment) }) _ fun _ h => h,
          show vehicle (dropOutClaim e.tag (setRes e.segment .foreign u)) v = some x from hu]
        refine ⟨_, rfl, ?_⟩
        dsimp only
        split
        · unfold grantedRecord
          split <;> rfl
        · rfl
  have hwithdrawn : ∃ y, vehicle (withdrawAmong v is s) v = some y ∧ y.path = x.path := by
    unfold withdrawAmong
    split
    · exact ⟨x, hx, rfl⟩
    · split
      · unfold withdrawClaim
        split
        · exact ⟨x, hx, rfl⟩
        · exact hend _ _ (by rw [vehicle_congr (sendPeer_rest _ _ _ _ _ _ _).2.2.2.1, hx])
      · exact ⟨x, hx, rfl⟩
  obtain ⟨y, hy, hpath⟩ := hwithdrawn
  have hroster : ∀ (is : List Nat) (u : State), (releaseSegs v is u).roster = u.roster := fun is => by
    induction is with
    | nil => exact fun _ => rfl
    | cons i is ih => exact fun u => ih (releaseSeg v i u)
  exact ⟨y, by rw [releaseEntries, vehicle_congr (hroster is _), hy], hpath⟩

theorem worked_releaseEntries (v : Nat) (is : List Nat) (s : State) : Worked s (releaseEntries v is s) := by
  refine Worked.trans ?_ (worked_releaseSegs v is _)
  unfold withdrawAmong
  split
  · exact .refl s
  · split
    · exact worked_withdrawClaim v s
    · exact .refl s

theorem worked_makeClaim (v i : Nat) (s : State) : Worked s (makeClaim v i s) := by
  unfold makeClaim
  split
  next x owner hx howner =>
    split
    · exact .refl s
    · have hentry : Worked s (s.updBxu fun b => { b with
          outClaims := b.outClaims ++ [{ tag := nextTag s.bxu, segment := i, vehicle := v
                                         phase := .claiming (s.now + s.tuning.tClaim) }]
          lastTag := nextTag s.bxu }) := by
        refine worked_of_same rfl rfl rfl rfl rfl rfl rfl rfl (fun c hc => ⟨c, hc, rfl, rfl, rfl⟩) fun c hc => ?_
        obtain hc | hc := List.mem_append.1 hc
        · exact .inl hc
        · rw [List.mem_singleton.1 hc]
          obtain ⟨y, hy, hm⟩ := Option.bind_eq_some_iff.1 hx
          obtain ⟨m, hm, -⟩ := Option.bind_eq_some_iff.1 hm
          exact .inr ⟨rfl, y, hy, by rw [hm]; nofun⟩
      exact (hentry.trans (worked_setRes _ _ _)).trans (worked_sendPeer (by decide) _ _ _ _ _ _)
  · exact .refl s

theorem worked_buildPath (v : Nat) (s : State) : Worked s (buildPath v s) := by
  unfold buildPath
  split
  · exact .refl s
  next x hx =>
    split
    next w s0 hw hs0 =>
      have hbuilt : Worked s (updVehicle v (fun y => { y with
            path := (planPath (updVehicle v (fun y => { y with parkMark := none }) s) x w s0).1
            parkMark := (planPath (updVehicle v (fun y => { y with parkMark := none }) s) x w s0).2 })
          (updVehicle v (fun y => { y with parkMark := none }) s)) := by
        refine (worked_tendList _ _ v s).trans (worked_tend _ _ _ v _ fun z i _ ha => .inr ?_)
        obtain ⟨u, m, y, hu, hstate, hm, hy, hport, -⟩ := ha
        rw [vehicle_updVehicle v v (fun y => { y with parkMark := none }) s fun _ h => h, hx] at hu
        cases hu
        dsimp only at hstate hm
        rw [if_pos rfl] at hstate hm
        cases hw.symm.trans hstate
        exact planPath_aims hm hy hport s0
      dsimp only
      split
      · exact hbuilt.trans (worked_raise (fun _ h => h.1) _ _)
      · exact hbuilt
    next => exact .refl s

theorem worked_alignHeld (v : Nat) (s : State) : Worked s (alignHeld v s).2 := by
  unfold alignHeld
  split
  · exact .refl s
  next x hx =>
    split
    · exact .refl s
    next first ahead _ =>
      have hkept : ∀ is h, Worked s (updVehicle v (fun y => { y with held := h, path := (alignRun s x.path ahead).2 })
          (releaseEntries v is s)) := fun is h => by
        refine (worked_releaseEntries v is s).trans (worked_tend _ _ _ v _ fun y i hy _ => .inl ?_)
        obtain ⟨z, hz, hpath⟩ := path_releaseEntries (is := is) hx
        cases hy.symm.trans hz
        rw [hpath]
        exact alignRun_aims s ahead x.path
      dsimp only
      split <;> split
      · exact hkept _ _
      · exact (hkept _ _).trans (worked_leaveWaits v _)
      · exact (hkept _ _).trans (worked_makeGrantDue v _)
      · exact ((hkept _ _).trans (worked_makeGrantDue v _)).trans (worked_leaveWaits v _)

theorem worked_reserveFor (v i : Nat) (s : State) : Worked s (reserveFor v i s) :=
  ((worked_tend _ _ _ v s fun x _ _ _ => .inl (advancePath_aims s i x.path)).trans (worked_makeGrantDue v _)).trans
    (worked_setRes _ _ _)

theorem worked_enterWait (v i : Nat) (s : State) : Worked s (enterWait v i s) := by
  unfold enterWait
  split
  · exact .refl s
  · have hwaits : ∀ f t, Worked s (modWaits i (fun l => l ++ [⟨.vehicle v f, t⟩]) (leaveWaits v s)) := fun f t =>
      worked_of_rest rfl rfl rfl rfl rfl rfl rfl rfl rfl
    dsimp only
    split
    · split
      · exact (hwaits _ _).trans (worked_raise (fun _ h => h.2.1) _ _)
      · exact hwaits _ _
    · exact worked_leaveWaits v s

/-! ### Tasks (R25, R28, R35) -/

theorem worked_claimWins {i v tag cell : Nat} {s : State} (hroom : rosterHasRoom s = true) :
    Worked s (claimWins i v tag cell s).2 := by
  have hleft : Worked s (leaveClaimWait cell tag s) := worked_of_rest rfl rfl rfl rfl rfl rfl rfl rfl rfl
  unfold claimWins
  dsimp only
  split
  · exact hleft
  · split
    · exact (hleft.trans (worked_dropInClaim _ _ _)).trans (worked_sendPeer (by decide) _ _ _ _ _ _)
    next e _ hnew =>
      have hadd : Worked _ (addRecord (arrivingRecord e.vehicle e.segment) (leaveClaimWait cell tag s)) :=
        worked_addRecord rfl rfl (of_decide_eq_true hroom) (Bool.eq_false_iff.2 hnew)
      have hphase (c : InClaim) : let d := if c.cell = e.cell ∧ c.tag = e.tag then
          { c with phase := .granted ((leaveClaimWait cell tag s).now + (leaveClaimWait cell tag s).tuning.tHand) } else c
          d.cell = c.cell ∧ d.tag = c.tag ∧ d.vehicle = c.vehicle := by
        dsimp only
        split <;> exact ⟨rfl, rfl, rfl⟩
      exact (((hleft.trans hadd).trans (worked_setRes _ _ _)).trans (worked_mapInClaims hphase _)).trans
        (worked_sendPeer (by decide) _ _ _ _ _ _)

theorem worked_arbitrate (i : Nat) (s : State) : Worked s (arbitrate i s).2 := by
  unfold arbitrate
  split
  next hfree =>
    split
    · exact .refl s
    next e he =>
      split
      · exact (worked_leaveWaits _ s).trans (worked_reserveFor _ _ _)
      next v tag cell cls hwho =>
        have hadm := (winner_admissible he).2
        unfold admissible at hadm
        rw [hfree, if_neg (by nofun), hwho] at hadm
        exact worked_claimWins (Bool.and_eq_true_iff.1 hadm).2
  · split
    · exact .refl s
    · split
      · exact (worked_leaveWaits _ s).trans (worked_makeClaim _ _ _)
      · exact .refl s
  · exact .refl s

theorem worked_retryPath (v : Nat) (s : State) : Worked s (retryPath v s).2 := by
  have h : Worked s (alignHeld v (buildPath v s)).2 := (worked_buildPath v s).trans (worked_alignHeld v _)
  unfold retryPath
  dsimp only
  split <;> exact h

theorem worked_extendStart (v : Nat) (s : State) : Worked s (extendStart v s).2 := by
  unfold extendStart
  split
  · exact .refl s
  · split
    · split
      · exact worked_retryPath v s
      · split
        · exact worked_retryPath v s
        · exact .refl s
      · exact .refl s
    · exact .refl s

theorem worked_reachSegment (v i : Nat) (s : State) : Worked s (reachSegment v i s).2 := by
  unfold reachSegment
  split
  · exact .refl s
  · split
    · split
      · split
        · exact worked_reserveFor v i s
        · exact worked_enterWait v i s
      · exact worked_enterWait v i s
    · split
      · split
        · exact worked_makeClaim v i s
        · exact worked_enterWait v i s
      · exact worked_enterWait v i s
    · split
      · exact .refl s
      · exact worked_enterWait v i s
    · exact worked_enterWait v i s

theorem worked_extendRound (v : Nat) (s : State) : Worked s (extendRound v s).2 := by
  unfold extendRound
  split
  · exact .refl s
  · exact worked_reachSegment v _ s

theorem worked_regainRound (v : Nat) (s : State) : Worked s (regainRound v s).2 := by
  unfold regainRound
  split
  · exact .refl s
  · split
    · exact worked_reserveFor v _ s
    · exact .refl s

theorem worked_taskStep (t : Task) (s : State) : Worked s (taskStep t s).2 := by
  unfold taskStep
  split
  · split
    · exact worked_arbitrate _ s
    · split <;> exact .refl s
    · split <;> exact .refl s
    · exact worked_extendStart _ s
    · exact worked_extendRound _ s
    · exact worked_regainRound _ s
  · exact .refl s

theorem worked_runTasks : ∀ (n : Nat) (ts : List Task) (s : State), Worked s (runTasks n ts s)
  | 0, _, s => .refl s
  | _ + 1, [], s => .refl s
  | n + 1, t :: _, s => (worked_taskStep t s).trans (worked_runTasks n _ _)

theorem worked_run (ts : List Task) (s : State) : Worked s (run ts s) := worked_runTasks _ ts s

theorem worked_settle (before : State) (is : List Nat) (s : State) : Worked s (settle before is s) := worked_run _ s

theorem worked_rebuildWith (more : List Task) (v : Nat) (s : State) : Worked s (rebuildWith more v s) := by
  unfold rebuildWith
  split
  · exact .refl s
  · split
    · exact ((worked_buildPath v s).trans (worked_alignHeld v _)).trans (worked_run _ _)
    · exact .refl s

end Sys2Proof.Machine

/-! PROOFS. O21: MODE DISPATCHING, the arbitration on leaving HALTED, and the order of tasks (R25, R48, R176, R180). -/

namespace Sys2Proof.Machine

open Sys2Proof.Says

/-! ### Leaving HALTED (R180) -/

theorem grantedRecord_idem (x : Vehicle) : grantedRecord (grantedRecord x) = grantedRecord x := by
  by_cases h : x.state = .arriving <;> simp [grantedRecord, h]

/-- GRANTs for every vehicle of a list, whatever ids it repeats. -/
theorem vehicle_foldl_grantEvery (v : Nat) : ∀ (l : List (Nat × Vehicle)) (s : State),
    vehicle (l.foldl (fun t e => if true = true then makeGrantDue e.2.id t else t) s) v
      = (vehicle s v).map fun x => if ∃ e ∈ l, e.2.id = v then grantedRecord x else x
  | [], s => by simp
  | e :: l, s => by
    rw [List.foldl_cons, vehicle_foldl_grantEvery v l, if_pos rfl, vehicle_makeGrantDue_eq, Option.map_map]
    congr 1
    funext x
    by_cases hv : e.2.id = v
    · by_cases hl : ∃ d ∈ l, d.2.id = v <;> simp [hv, hl, grantedRecord_idem]
    · simp only [List.mem_cons, exists_eq_or_imp, hv, Ne.symm hv, false_or, if_false, Function.comp_apply]

theorem vehicle_grantEvery (v : Nat) (s : State) :
    vehicle (grantAll (fun _ => true) s) v = (vehicle s v).map grantedRecord := by
  rw [grantAll, vehicle_foldl_grantEvery]
  cases hx : vehicle s v with
  | none => rfl
  | some x =>
    obtain ⟨q, hq, rfl⟩ := Option.map_eq_some_iff.1 hx
    exact congrArg some (if_pos ⟨q, List.mem_of_find?_eq_some hq, vehicle_id hx⟩)

theorem foldl_grant_eq (p : Vehicle → Bool) : ∀ (l : List (Nat × Vehicle)) (s : State), ∃ roster line,
    l.foldl (fun t e => if p e.2 then makeGrantDue e.2.id t else t) s
      = { s with roster := roster, tli := { s.tli with line := line } }
  | [], s => ⟨s.roster, s.tli.line, rfl⟩
  | e :: l, s => by
    rw [List.foldl_cons]
    split
    · obtain ⟨roster, line, h⟩ := foldl_grant_eq p l (makeGrantDue e.2.id s)
      exact ⟨roster, line, h.trans rfl⟩
    · exact foldl_grant_eq p l s

/-- The engine before the arbitration of R180, step 3. -/
def resumedState (s : State) : State :=
  grantAll (fun _ => true) (makeResumeDue (resumeConfirm (s.updMc fun m => { m with mode := .dispatching, haltPending := false })))

theorem resumed_resumedState (s : State) (rest : List FloorFrame) : Resumed s (resumedState (openRequest rest s)) rest := by
  obtain ⟨roster, line, h⟩ := foldl_grant_eq (fun _ => true) _ (makeResumeDue (resumeConfirm
    ((openRequest rest s).updMc fun m => { m with mode := .dispatching, haltPending := false })))
  have hs : resumedState (openRequest rest s) = _ := h
  exact
    { mode := by rw [hs]; rfl, moves := by rw [hs]; rfl, line := by rw [hs]; rfl
      grants := fun v => vehicle_grantEvery v _, fli := by rw [hs]; rfl, rest := by rw [hs]; rfl }

theorem exec_modeDispatching {s t : State} {f : FloorFrame} {rest : List FloorFrame} {c : Code}
    (hs : TakesMode s f rest 1) (h : askDispatching (openRequest rest s) = (t, some (Reply.bare c))) :
    exec .modeDispatching s = .next (closed f c t) := congrArg _ (modeRow_closed hs (by decide) h)

theorem exec_leavesHalted {s : State} {f : FloorFrame} {rest : List FloorFrame} (hs : TakesMode s f rest 1)
    (hmode : s.mode = .halted) (hline : s.haltLine = false) :
    exec .modeDispatching s = .next (closed f .done (setPassDue (run [.scanAll 0] (resumedState (openRequest rest s))))) := by
  refine exec_modeDispatching hs ?_
  rw [askDispatching, show (openRequest rest s).mode = .halted from hmode]
  dsimp only
  rw [show (openRequest rest s).haltLine = false from hline]
  rfl

theorem haltedLeft : Says.HaltedLeft := by
  intro s f rest hs
  have hmode : (openRequest rest s).mode = s.mode := rfl
  refine ⟨fun h => ?parked, fun h => ?dispatching, fun h hline => ?line, fun h hline => ?left⟩
  case parked => exact exec_modeDispatching hs (t := openRequest rest s) (by rw [askDispatching, hmode, h]; rfl)
  case dispatching => exact exec_modeDispatching hs (t := openRequest rest s) (by rw [askDispatching, hmode, h]; rfl)
  case line =>
    refine exec_modeDispatching hs (t := openRequest rest s) ?_
    rw [askDispatching, hmode, h]
    dsimp only
    rw [show (openRequest rest s).haltLine = true from hline]
    rfl
  case left =>
    have hu := resumed_resumedState s rest
    have hwork := worked_run [.scanAll 0] (resumedState (openRequest rest s))
    refine ⟨_, exec_leavesHalted hs h hline, endsWithReply_closed f .done _, ?_, fun v x hx harr => ?_, fun hquiet => ?_⟩
    all_goals
      rw [setPassDue_eq]
      generalize resumedState (openRequest rest s) = u at hu hwork
      generalize run [.scanAll 0] u = w at hwork
    · change w.mc.haltPending = false
      obtain hmc | ⟨-, -, hmc⟩ := hwork.mc <;> rw [hmc, hu.mode]
    · have hux := hu.grants v
      rw [hx, Option.map_some, if_neg harr] at hux
      obtain ⟨y, hy, hxy⟩ := hwork.vehicles v _ hux
      refine ⟨y, hy, hxy.grant.elim id id, ?_, ?_⟩ <;> rw [hxy.rest]
    · have hud : u.mode = .dispatching := congrArg Mc.mode hu.mode
      have hwm : w.mode = u.mode := hwork.quiet (quiet_congr (by rw [hu.rest]) hquiet)
      obtain ⟨hmq, -, -, hresume⟩ := hwork.stays hwm
      refine ⟨hwm.trans hud, hresume.trans (by rw [hu.line]), ?_, ?_⟩
      · change (w.asu.passDue || decide (w.mode = .dispatching)) = true
        simp [hwm, hud]
      · change w.mq.moves = _
        rw [hmq, hu.moves]

theorem waitersArbitrated : Says.WaitersArbitrated := by
  intro s f rest hs _ hmode hline
  refine ⟨_, resumed_resumedState s rest, ?_⟩
  rw [exec_leavesHalted hs hmode hline, setPassDue_eq]

/-! ### The order of tasks (R25, R32, R48) -/

theorem found_iff {s : State} {i j : Nat} {p : Nat → Res → Prop} (hkeys : (s.srt.map (·.1)).Pairwise (· < ·))
    {q : Nat × SegRes → Bool} (hq : ∀ e, q e = true ↔ p e.1 e.2.res) :
    Found s i p j ↔ ∃ e ∈ s.srt, e.1 = j ∧ (decide (i ≤ e.1) && !e.2.waits.isEmpty && q e) = true := by
  have hiff : ∀ e : Nat × SegRes, (decide (i ≤ e.1) && !e.2.waits.isEmpty && q e) = true
      ↔ i ≤ e.1 ∧ e.2.waits ≠ [] ∧ p e.1 e.2.res := fun e => by
    simp only [Bool.and_eq_true, decide_eq_true_eq, Bool.not_eq_true', List.isEmpty_eq_false_iff, hq, and_assoc]
  constructor
  · rintro ⟨hij, r, hr, hwaits, hp⟩
    exact ⟨(j, r), mem_of_tget hr, rfl, (hiff _).2 ⟨hij, hwaits, hp⟩⟩
  · rintro ⟨e, he, rfl, h⟩
    obtain ⟨hij, hwaits, hp⟩ := (hiff e).1 h
    exact ⟨hij, e.2, tget_of_mem hkeys he, hwaits, hp⟩

theorem nextWaiting_eq_none {s : State} {i : Nat} {p : Nat → Res → Prop} (hkeys : (s.srt.map (·.1)).Pairwise (· < ·))
    {q : Nat × SegRes → Bool} (hq : ∀ e, q e = true ↔ p e.1 e.2.res) (h : ∀ j, ¬ Found s i p j) :
    nextWaiting s i q = none := by
  unfold nextWaiting
  rw [Option.map_eq_none_iff, List.find?_eq_none]
  exact fun e he hcond => h e.1 ((found_iff hkeys hq).2 ⟨e, he, rfl, hcond⟩)

theorem nextWaiting_eq_some {s : State} {i j : Nat} {p : Nat → Res → Prop} (hkeys : (s.srt.map (·.1)).Pairwise (· < ·))
    {q : Nat × SegRes → Bool} (hq : ∀ e, q e = true ↔ p e.1 e.2.res) (h : FirstFound s i p j) :
    nextWaiting s i q = some j := by
  obtain ⟨hfound, hfirst⟩ := h
  obtain ⟨e, he, rfl, hcond⟩ := (found_iff hkeys hq).1 hfound
  unfold nextWaiting
  rw [Option.map_eq_some_iff]
  refine ⟨e, List.find?_eq_some_iff_append.2 ⟨hcond, ?_⟩, rfl⟩
  obtain ⟨before, behind, hsplit⟩ := List.append_of_mem he
  refine ⟨before, behind, hsplit, fun d hd => ?_⟩
  by_contra hcond'
  have hlt : d.1 < e.1 := by
    rw [hsplit, List.map_append, List.map_cons, List.pairwise_append] at hkeys
    exact hkeys.2.2 _ (List.mem_map_of_mem hd) _ List.mem_cons_self
  exact hfirst d.1 hlt ((found_iff hkeys hq).2 ⟨d, by simp [hsplit, hd], rfl, by simpa using hcond'⟩)

theorem taskStep_scanZone {s : State} (z i : Nat) (h : s.mode = .dispatching) :
    taskStep (.scanZone z i) s = match nextWaiting s i fun q => q.2.res == .free && zoneOf s q.1 == some z with
      | none => ([], s)
      | some j => ([.arb j, .scanZone z (j + 1)], s) := if_pos h

theorem taskStep_scanAll {s : State} (i : Nat) (h : s.mode = .dispatching) :
    taskStep (.scanAll i) s = match nextWaiting s i fun q => q.2.res == .free || q.2.res == .foreign with
      | none => ([], s)
      | some j => ([.arb j, .scanAll (j + 1)], s) := if_pos h

theorem tasksTakenInOrder : Says.TasksTakenInOrder := by
  refine ⟨fun _ _ => rfl, runTasks_nil, fun _ _ _ _ => rfl, fun t _ h => taskStep_of_not_dispatching h t,
    fun s i hmode hkeys => ?_⟩
  have hzone (z : Nat) (e : Nat × SegRes) : (e.2.res == .free && zoneOf s e.1 == some z) = true
      ↔ FreeIn s z e.1 e.2.res := by simp [FreeIn]
  have hall (e : Nat × SegRes) : (e.2.res == .free || e.2.res == .foreign) = true ↔ FreeOrForeign e.1 e.2.res := by
    simp [FreeOrForeign]
  refine ⟨fun z h => ?_, fun z j h => ?_, fun h => ?_, fun j h => ?_⟩
  · rw [taskStep_scanZone z i hmode, nextWaiting_eq_none hkeys (hzone z) h]
  · rw [taskStep_scanZone z i hmode, nextWaiting_eq_some hkeys (hzone z) h]
  · rw [taskStep_scanAll i hmode, nextWaiting_eq_none hkeys hall h]
  · rw [taskStep_scanAll i hmode, nextWaiting_eq_some hkeys hall h]

/-- Settles O21. -/
theorem modeDispatchingResumes : Obligations.ModeDispatchingResumes := ⟨haltedLeft, waitersArbitrated, tasksTakenInOrder⟩

end Sys2Proof.Machine

/-! PROOFS. O51: how an engine frame on the track line ends (R154, R155). -/

namespace Sys2Proof.Machine

open Sys2Proof.Says

/-! ### The combined answer -/

theorem combinedAnswer_eq (l : List Answer) : combinedAnswer l = mostDominant l := by
  unfold combinedAnswer
  cases h : leastBy Answer.dominance l with
  | none => rw [leastBy_none h]; rfl
  | some a =>
    have hmem := leastBy_mem h
    have hlow (b : Answer) (hb : b ∈ l) : Answer.dominance a ≤ Answer.dominance b := leastBy_le h hb
    unfold mostDominant
    cases a with
    | refuseCheck => rw [if_pos hmem]
    | refuseBusy =>
      rw [if_neg fun hb => absurd (hlow _ hb) (by decide), if_pos hmem]
    | acceptPace =>
      rw [if_neg fun hb => absurd (hlow _ hb) (by decide), if_neg fun hb => absurd (hlow _ hb) (by decide), if_pos hmem]
    | accept =>
      rw [if_neg fun hb => absurd (hlow _ hb) (by decide), if_neg fun hb => absurd (hlow _ hb) (by decide),
        if_neg fun hb => absurd (hlow _ hb) (by decide), if_pos hmem]

theorem mostDominant_ne_none {l : List Answer} (h : l ≠ []) : mostDominant l ≠ none := by
  rw [← combinedAnswer_eq]
  exact fun hnone => h (leastBy_none hnone)

/-! ### The item of the frame -/

/-- The count of an item due with count `n` when its frame ends with answer `a`, by the frame's link. -/
def settledCount (link : Link) (n : Nat) (a : Option Answer) : Option Nat :=
  if link = .live then afterAnswer n a else some (keptCount n a)

/-- An item other than a WITHDRAW is settled by its count alone. -/
theorem settleItem_eq_modItem {g : LineFrame} {s : State} {n : Nat} (hitem : ∀ v, g.item ≠ .withdraw v)
    (hcount : itemCount s g.item = some n) (a : Option Answer) :
    ∃ f, settleItem g a s = modItem f g.item s ∧ f n = settledCount g.link n a := by
  have hclear : ∃ f, clearItem g s = modItem f g.item s ∧ f n = if g.link = .live then none else some 0 := by
    unfold clearItem
    split
    next v hw => exact absurd hw (hitem v)
    next =>
      split
      · exact ⟨_, rfl, rfl⟩
      · exact ⟨_, rfl, rfl⟩
  unfold settleItem settledCount
  split
  · exact hclear
  · exact hclear
  · exact ⟨_, rfl, by split <;> rfl⟩
  · exact ⟨_, rfl, by split <;> rfl⟩
  · unfold unanswered
    rw [hcount]
    dsimp only
    by_cases hmax : Config.unansweredMax ≤ n + 1
    · rw [if_pos hmax]
      obtain ⟨f, hf, hn⟩ := hclear
      refine ⟨f, hf, hn.trans ?_⟩
      simp only [afterAnswer, keptCount]
      rw [if_pos (show 8 ≤ n + 1 from hmax), if_pos (show 8 ≤ n + 1 from hmax)]
    · rw [if_neg hmax]
      refine ⟨_, rfl, ?_⟩
      simp only [afterAnswer, keptCount]
      rw [if_neg (show ¬ 8 ≤ n + 1 from hmax), if_neg (show ¬ 8 ≤ n + 1 from hmax), ite_self]

/-- A WITHDRAW still with ids: an answer or the eighth silence takes the ids the frame carried. -/
theorem settleItem_withdraw {g : LineFrame} {s : State} {v : Nat} {x : Vehicle} (hitem : g.item = .withdraw v)
    (hx : vehicle s v = some x) (hne : x.due.withdraw ≠ []) (a : Option Answer) :
    ∃ f : DueSet → DueSet, settleItem g a s = updDue v f s ∧
      (afterAnswer x.due.withdrawCount a = none →
        (f x.due).withdraw = x.due.withdraw.filter (fun m => decide (m ∉ g.carried)) ∧ (f x.due).withdrawCount = 0) ∧
      ∀ k, afterAnswer x.due.withdrawCount a = some k →
        (f x.due).withdraw = x.due.withdraw ∧ (f x.due).withdrawCount = k := by
  have hclear : clearItem g s = updDue v (fun d =>
      { d with withdraw := d.withdraw.filter fun m => decide (m ∉ g.carried), withdrawCount := 0 }) s := by
    unfold clearItem
    rw [hitem]
    simp [List.contains_eq_mem]
  have hcount : itemCount s g.item = some x.due.withdrawCount := by
    rw [hitem]
    change ((vehicle s v).bind fun x => if x.due.withdraw.isEmpty then none else some x.due.withdrawCount) = _
    rw [hx, Option.bind_some, if_neg (by simpa using hne)]
  have hmod (f : Nat → Option Nat) : modItem f g.item s
      = updDue v (fun d => { d with withdrawCount := (f d.withdrawCount).getD 0 }) s := by rw [hitem]; rfl
  unfold settleItem
  split
  · exact ⟨_, hclear, fun _ => ⟨rfl, rfl⟩, nofun⟩
  · exact ⟨_, hclear, fun _ => ⟨rfl, rfl⟩, nofun⟩
  · exact ⟨_, hmod _, nofun, fun k hk => ⟨rfl, Option.some.inj hk⟩⟩
  · exact ⟨_, hmod _, nofun, fun k hk => ⟨rfl, Option.some.inj hk⟩⟩
  · unfold unanswered
    rw [hcount]
    dsimp only [afterAnswer]
    by_cases hmax : 8 ≤ x.due.withdrawCount + 1
    · rw [if_pos (show Config.unansweredMax ≤ _ from hmax), if_pos hmax]
      exact ⟨_, hclear, fun _ => ⟨rfl, rfl⟩, nofun⟩
    · rw [if_neg (show ¬ Config.unansweredMax ≤ _ from hmax), if_neg hmax]
      exact ⟨_, hmod _, nofun, fun k hk => ⟨rfl, Option.some.inj hk⟩⟩

/-! ### The end of the frame -/

section Ends
variable {s : State} {g : LineFrame} {l : List Answer}

/-- The line with the engine's frame gone. -/
def idleLine (s : State) : State := s.updTli fun t => { t with line := none }

theorem exec_frameOutcome (hrun : s.running = true) (o : FrameOutcome) :
    exec (.engineFrameOutcome o) s = .next (frameEnds o s) :=
  congrArg Host.Outcome.next (whenRunning_of_running hrun)

theorem frameEnds_slot (hline : s.tli.line = some g) (hlink : g.link ≠ .severed) :
    frameEnds (.slot l) s = settleItem g (mostDominant l) (movePointer g.item (idleLine s)) := by
  rw [← combinedAnswer_eq]
  unfold frameEnds
  rw [hline]
  exact if_neg hlink

theorem frameEnds_severed (hline : s.tli.line = some g) (hlink : g.link = .severed) :
    frameEnds (.slot l) s = movePointer g.item (idleLine s) := by
  unfold frameEnds
  rw [hline]
  exact if_pos hlink

theorem movePointer_of_no_target {i : LineItem} (h : i.target = none) (t : State) : movePointer i t = t := by
  unfold movePointer
  rw [h]
  rfl

theorem movePointer_of_found {i : LineItem} {v slot : Nat} {x : Vehicle} (h : i.target = some v) {t : State}
    (hv : findVehicle t v = some (slot, x)) : movePointer i t = t.updTli fun t => { t with pointer := slot } := by
  unfold movePointer
  rw [h, Option.bind_some, hv]
  rfl

/-- The end of a frame for an item of the engine or of an id without a record. -/
theorem frameEnds_of_no_target {n : Nat} (hline : s.tli.line = some g) (hlink : g.link ≠ .severed)
    (htarget : g.item.target = none) (hcount : itemCount (idleLine s) g.item = some n) :
    ∃ f, frameEnds (.slot l) s = modItem f g.item (idleLine s) ∧ f n = settledCount g.link n (mostDominant l) := by
  rw [frameEnds_slot hline hlink, movePointer_of_no_target htarget]
  exact settleItem_eq_modItem (fun v hv => by rw [hv] at htarget; cases htarget) hcount _

theorem vehicle_updDue (v : Nat) (f : DueSet → DueSet) (s : State) {x : Vehicle} (hx : vehicle s v = some x) :
    vehicle (updDue v f s) v = some { x with due := f x.due } := by
  unfold updDue
  rw [vehicle_updVehicle v v (fun x => { x with due := f x.due }) s fun _ h => h, hx, Option.map_some, if_pos rfl]

/-- The end of a frame for an item of a vehicle's due set that is settled by `f`. -/
theorem ends_updDue {v slot : Nat} {x : Vehicle} {f : DueSet → DueSet} (hrun : s.running = true)
    (hline : s.tli.line = some g) (hlink : g.link ≠ .severed) (htarget : g.item.target = some v)
    (hv : findVehicle s v = some (slot, x))
    (hsettle : settleItem g (mostDominant l) ((idleLine s).updTli fun t => { t with pointer := slot })
      = updDue v f ((idleLine s).updTli fun t => { t with pointer := slot })) :
    ∃ t, exec (.engineFrameOutcome (.slot l)) s = .next t ∧ t.tli = { s.tli with line := none, pointer := slot }
      ∧ vehicle t v = some { x with due := f x.due } := by
  have hx : vehicle s v = some x := by rw [vehicle, hv]; rfl
  refine ⟨_, exec_frameOutcome hrun _, ?_⟩
  rw [frameEnds_slot hline hlink, movePointer_of_found htarget (t := idleLine s) hv, hsettle]
  exact ⟨rfl, vehicle_updDue v f ((idleLine s).updTli fun t => { t with pointer := slot }) hx⟩

end Ends

/-- What the answers do to an item due with count `n`, for a frame of one link: the statements of both tables. -/
structure Settles (s : State) (g : LineFrame) (l : List Answer) (count : Nat → Option Nat) : Prop where
  allHold : ∀ n, g.item = .allHold → s.tli.allHold = some n → exec (.engineFrameOutcome (.slot l)) s =
    .next { s with tli := { s.tli with line := none, allHold := count n } }
  resume : ∀ n, g.item = .resume → s.tli.resume = some n → exec (.engineFrameOutcome (.slot l)) s =
    .next { s with tli := { s.tli with line := none, resume := count n } }
  rollcall : ∀ n, g.item = .rollcall → s.tli.rollcall = some n → exec (.engineFrameOutcome (.slot l)) s =
    .next { s with tli := { s.tli with line := none, rollcall := count n } }
  strayHold : ∀ v n, g.item = .strayHold v → TableWf s.tli.strayHolds → tget v s.tli.strayHolds = some n →
    ∃ t, exec (.engineFrameOutcome (.slot l)) s = .next t ∧ t.roster = s.roster ∧ t.tli.pointer = s.tli.pointer
      ∧ tget v t.tli.strayHolds = count n ∧ ∀ u, u ≠ v → tget u t.tli.strayHolds = tget u s.tli.strayHolds
  due : ∀ v slot x, findVehicle s v = some (slot, x) →
    (∀ n, g.item = .hold v → x.due.hold = some n →
      ∃ t, exec (.engineFrameOutcome (.slot l)) s = .next t ∧ t.tli = { s.tli with line := none, pointer := slot }
        ∧ vehicle t v = some { x with due := { x.due with hold := count n } }) ∧
    (∀ n, g.item = .grant v → x.due.grant = some n →
      ∃ t, exec (.engineFrameOutcome (.slot l)) s = .next t ∧ t.tli = { s.tli with line := none, pointer := slot }
        ∧ vehicle t v = some { x with due := { x.due with grant := count n } }) ∧
    (∀ n, g.item = .assign v → x.due.assign = some n →
      ∃ t, exec (.engineFrameOutcome (.slot l)) s = .next t ∧ t.tli = { s.tli with line := none, pointer := slot }
        ∧ vehicle t v = some { x with due := { x.due with assign := count n } }) ∧
    (g.item = .withdraw v → x.due.withdraw ≠ [] →
      ∃ t y, exec (.engineFrameOutcome (.slot l)) s = .next t ∧ t.tli = { s.tli with line := none, pointer := slot }
        ∧ vehicle t v = some y
        ∧ (afterAnswer x.due.withdrawCount (mostDominant l) = none →
            y.due.withdraw = x.due.withdraw.filter (fun m => decide (m ∉ g.carried)) ∧ y.due.withdrawCount = 0)
        ∧ (∀ k, afterAnswer x.due.withdrawCount (mostDominant l) = some k →
            y.due.withdraw = x.due.withdraw ∧ y.due.withdrawCount = k))

theorem tget_filterMap_count (f : Nat → Option Nat) (v u : Nat) : ∀ t : Table Nat, TableWf t →
    tget u (t.filterMap fun e => if e.1 = v then (f e.2).map (fun n => (e.1, n)) else some e)
      = if u = v then (tget v t).bind f else tget u t
  | [], _ => by simp [tget]
  | (k, n) :: t, ht => by
    obtain ⟨hlow, ht⟩ := List.pairwise_cons.1 ht
    have ih := tget_filterMap_count f v u t ht
    have hgone : tget k t = none := tget_eq_none_of_key fun hk => by
      obtain ⟨e, he, rfl⟩ := List.mem_map.1 hk
      exact lt_irrefl _ (hlow e he)
    rw [List.filterMap_cons]
    by_cases hkv : k = v
    · subst hkv
      by_cases hu : u = k
      · subst hu
        rw [if_pos rfl, hgone] at ih
        cases hf : f n <;> simp [tget, hf, ih]
      · rw [if_neg hu] at ih
        cases hf : f n <;> simp [tget, ih, hu, Ne.symm hu]
    · by_cases hu : u = v
      · subst hu
        rw [if_pos rfl] at ih
        simp [tget, hkv, ih]
      · rw [if_neg hu] at ih
        simp [tget, hkv, ih, hu]

theorem settles {s : State} {g : LineFrame} (l : List Answer) (hrun : s.running = true) (hline : s.tli.line = some g)
    (hlink : g.link ≠ .severed) : Settles s g l fun n => settledCount g.link n (mostDominant l) := by
  have hend {n : Nat} (htarget : g.item.target = none) (hcount : itemCount (idleLine s) g.item = some n) :
      ∃ f, exec (.engineFrameOutcome (.slot l)) s = .next (modItem f g.item (idleLine s))
        ∧ f n = settledCount g.link n (mostDominant l) := by
    obtain ⟨f, hf, hn⟩ := frameEnds_of_no_target (l := l) hline hlink htarget hcount
    exact ⟨f, by rw [exec_frameOutcome hrun, hf], hn⟩
  refine ⟨fun n hi hn => ?allHold, fun n hi hn => ?resume, fun n hi hn => ?rollcall, fun v n hi hwf hn => ?stray,
    fun v slot x hv => ⟨fun n hi hn => ?hold, fun n hi hn => ?grant, fun n hi hn => ?assign, fun hi hne => ?withdraw⟩⟩
  case allHold =>
    obtain ⟨f, hexec, hf⟩ := hend (n := n) (by rw [hi]; rfl) (by rw [hi]; exact hn)
    rw [hexec, hi, ← hf, show f n = s.tli.allHold.bind f by rw [hn]; rfl]
    rfl
  case resume =>
    obtain ⟨f, hexec, hf⟩ := hend (n := n) (by rw [hi]; rfl) (by rw [hi]; exact hn)
    rw [hexec, hi, ← hf, show f n = s.tli.resume.bind f by rw [hn]; rfl]
    rfl
  case rollcall =>
    obtain ⟨f, hexec, hf⟩ := hend (n := n) (by rw [hi]; rfl) (by rw [hi]; exact hn)
    rw [hexec, hi, ← hf, show f n = s.tli.rollcall.bind f by rw [hn]; rfl]
    rfl
  case stray =>
    obtain ⟨f, hexec, hf⟩ := hend (n := n) (by rw [hi]; rfl) (by rw [hi]; exact hn)
    have hget (u : Nat) := tget_filterMap_count f v u _ hwf
    refine ⟨_, hexec, by rw [hi]; rfl, by rw [hi]; rfl, ?_, fun u hu => ?_⟩
    · rw [hi, ← hf]
      exact (hget v).trans (by rw [if_pos rfl, hn]; rfl)
    · rw [hi]
      exact (hget u).trans (if_neg hu)
  all_goals
    have hx : vehicle ((idleLine s).updTli fun t => { t with pointer := slot }) v = some x := by
      change (findVehicle s v).map (·.2) = some x
      rw [hv]
      rfl
  case withdraw =>
    obtain ⟨f, hf, hcleared, hkept⟩ := settleItem_withdraw hi hx hne (mostDominant l)
    obtain ⟨t, hexec, htli, ht⟩ := ends_updDue hrun hline hlink (by rw [hi]; rfl) hv hf
    exact ⟨t, _, hexec, htli, ht, hcleared, hkept⟩
  all_goals
    obtain ⟨f, hsettle, hf⟩ := settleItem_eq_modItem (g := g) (n := n)
      (s := (idleLine s).updTli fun t => { t with pointer := slot }) (by rw [hi]; nofun)
      (by rw [hi, itemCount, hx]; exact hn) (mostDominant l)
    rw [hi] at hsettle
    dsimp only [modItem] at hsettle
    obtain ⟨t, hexec, htli, ht⟩ := ends_updDue hrun hline hlink (by rw [hi]; rfl) hv hsettle
    rw [hn, Option.bind_some, hf] at ht
    exact ⟨t, hexec, htli, ht⟩

/-- Settles O51. -/
theorem frameOutcomeSettlesItem : Obligations.FrameOutcomeSettlesItem := by
  refine ⟨fun s g l hrun hline => ⟨?lost, fun hlink => ?live, fun hlink hi hall hl => ?renewed, fun hlink hnone => ?severed⟩,
    fun s g l hrun hline hlink => ?stays⟩
  case lost =>
    rw [exec_frameOutcome hrun, frameEnds, hline]
    rfl
  case live =>
    have h := settles l hrun hline (by rw [hlink]; nofun)
    simp only [settledCount, hlink, if_true] at h
    exact ⟨h.allHold, h.resume, h.rollcall, h.strayHold, h.due⟩
  case renewed =>
    have h := (settles l hrun hline (by rw [hlink]; nofun)).allHold 0 hi hall
    cases ha : mostDominant l with
    | none => exact absurd ha (mostDominant_ne_none hl)
    | some a =>
      rw [ha, hlink] at h
      refine h.trans ?_
      change Host.Outcome.next { s with tli := { s.tli with line := none, allHold := some 0 } } = _
      rw [← hall]
  case severed =>
    rw [exec_frameOutcome hrun, frameEnds_severed hline hlink]
    unfold movePointer
    cases ht : g.item.target with
    | none => rfl
    | some v =>
      have hv : findVehicle s v = none := by simpa [vehicle] using hnone v ht
      rw [Option.bind_some, show findVehicle (idleLine s) v = none from hv]
      rfl
  case stays =>
    have h := settles l hrun hline (by rw [hlink]; nofun)
    simp only [settledCount, hlink, reduceCtorEq, if_false] at h
    exact ⟨h.allHold, h.resume, h.rollcall, h.strayHold, h.due⟩

end Sys2Proof.Machine

/-! PROOFS. O50: the SEND rows, the pick and what each frame carries (R145, R152 to R159, R188). -/

namespace Sys2Proof.Machine

open Sys2Proof.Says

/-! ### The rows (R153, log 1) -/

theorem exec_sendRow {s : State} {c : Instr} (hrun : s.running = true) (hc : c ∈ sendRows) :
    ∃ p : LineItem → Bool, exec c s = .next (sendRow p s) ∧ ∀ i, p i = true ↔ c = sendRowOf i := by
  have hrow (p : LineItem → Bool) : whenRunning (sendRow p) s = sendRow p s := whenRunning_of_running hrun
  simp only [sendRows, List.mem_cons, List.not_mem_nil, or_false] at hc
  obtain rfl | rfl | rfl | rfl | rfl | rfl | rfl := hc
  · exact ⟨isGrantItem, congrArg Host.Outcome.next (hrow _), fun i => by cases i <;> simp [isGrantItem, sendRowOf]⟩
  · exact ⟨isAssignItem, congrArg Host.Outcome.next (hrow _), fun i => by cases i <;> simp [isAssignItem, sendRowOf]⟩
  · exact ⟨isWithdrawItem, congrArg Host.Outcome.next (hrow _), fun i => by cases i <;> simp [isWithdrawItem, sendRowOf]⟩
  · exact ⟨isHoldItem, congrArg Host.Outcome.next (hrow _), fun i => by cases i <;> simp [isHoldItem, sendRowOf]⟩
  · exact ⟨(· == .allHold), congrArg Host.Outcome.next (hrow _), fun i => by cases i <;> simp [sendRowOf]⟩
  · exact ⟨(· == .resume), congrArg Host.Outcome.next (hrow _), fun i => by cases i <;> simp [sendRowOf]⟩
  · exact ⟨(· == .rollcall), congrArg Host.Outcome.next (hrow _), fun i => by cases i <;> simp [sendRowOf]⟩

theorem sendRow_of_busy {s : State} (p : LineItem → Bool) (h : s.tli.line ≠ none) : sendRow p s = s := by
  unfold sendRow
  rw [if_neg (by simpa using h)]

theorem sendRow_of_idle {s : State} (p : LineItem → Bool) (h : s.tli.line = none) :
    sendRow p s = sendPicked p (Config.rosterMax + 1) s := by
  unfold sendRow
  rw [if_pos (by simp [h])]

theorem sendPicked_of_none {s : State} (p : LineItem → Bool) (n : Nat) (h : pick s = none) : sendPicked p n s = s := by
  cases n with
  | zero => rfl
  | succ n => rw [sendPicked, h]

theorem sendPicked_of_other {s : State} {p : LineItem → Bool} {i : LineItem} (n : Nat) (h : pick s = some i)
    (hp : p i = false) : sendPicked p n s = s := by
  cases n with
  | zero => rfl
  | succ n =>
    rw [sendPicked, h]
    exact if_neg (by simp [hp])

theorem sendPicked_of_composed {s : State} {p : LineItem → Bool} {i : LineItem} {g : LineFrame} (n : Nat)
    (h : pick s = some i) (hp : p i = true) (hg : compose s i = some g) :
    sendPicked p (n + 1) s = { s with tli := { s.tli with line := some g } } := by
  rw [sendPicked, h]
  dsimp only
  rw [if_pos hp, hg]
  rfl

theorem sendPicked_of_empty {s : State} {p : LineItem → Bool} {i : LineItem} (n : Nat)
    (h : pick s = some i) (hp : p i = true) (hg : compose s i = none) :
    sendPicked p (n + 1) s = sendPicked p n (clearUnsent i s) := by
  rw [sendPicked, h]
  dsimp only
  rw [if_pos hp, hg]

/-- Vehicle `v` has no ASSIGN due. -/
def Unassigned (v : Nat) (s : State) : Prop := ∃ y, vehicle s v = some y ∧ y.due.assign = none

theorem vehicle_clearUnsent_assign (u v : Nat) (s : State) :
    vehicle (clearUnsent (.assign u) s) v
      = (vehicle s v).map fun x => if v = u then { x with due := { x.due with assign := none } } else x :=
  vehicle_updVehicle u v (fun x => { x with due := { x.due with assign := none } }) s fun _ h => h

theorem unassigned_clearUnsent {v : Nat} {s : State} (h : Unassigned v s) (i : LineItem) :
    Unassigned v (clearUnsent i s) := by
  obtain ⟨y, hy, hnone⟩ := h
  unfold clearUnsent
  split
  next u =>
    refine ⟨_, (vehicle_clearUnsent_assign u v s).trans (by rw [hy]; rfl), ?_⟩
    split
    · rfl
    · exact hnone
  next => exact ⟨y, hy, hnone⟩

theorem unassigned_sendPicked {v : Nat} (p : LineItem → Bool) : ∀ (n : Nat) (s : State), Unassigned v s →
    Unassigned v (sendPicked p n s)
  | 0, _, h => h
  | n + 1, s, h => by
    unfold sendPicked
    split
    · exact h
    · split
      · split
        · exact h
        · exact unassigned_sendPicked p n _ (unassigned_clearUnsent h _)
      · exact h

theorem roundRobin_mem {s : State} {p : DueSet → Bool} {v : Nat} (h : roundRobin s p = some v) :
    ∃ e ∈ s.roster, e.2.id = v := by
  unfold roundRobin at h
  obtain ⟨e, he, rfl⟩ := Option.map_eq_some_iff.1 h
  have hmem := List.mem_of_find?_eq_some he
  refine ⟨e, ?_, rfl⟩
  obtain hmem | hmem := List.mem_append.1 hmem <;> exact (List.mem_filter.1 hmem).1

theorem vehicle_of_pick_assign {s : State} {v : Nat} (h : pick s = some (.assign v)) : ∃ x, vehicle s v = some x := by
  have hround : ∃ p, roundRobin s p = some v := by
    unfold pick at h
    split at h
    · cases h
    split at h
    · cases h
    split at h
    · cases h
    split at h
    next i hi =>
      unfold pickGrantOrWithdraw at hi
      obtain ⟨u, -, hu⟩ := Option.map_eq_some_iff.1 hi
      split at hu <;> (rw [← hu] at h; cases h)
    split at h
    · cases h
    split at h
    · cases h
    split at h
    · cases h
    obtain ⟨u, hu, hitem⟩ := Option.map_eq_some_iff.1 h
    cases hitem
    exact ⟨_, hu⟩
  obtain ⟨p, hp⟩ := hround
  obtain ⟨e, he, hid⟩ := roundRobin_mem hp
  refine Option.ne_none_iff_exists'.1 fun hnone => ?_
  exact vehicle_eq_none_iff.1 hnone e he hid

theorem sendsThePick : Says.SendsThePick := by
  intro s c hrun hc
  obtain ⟨p, hexec, hp⟩ := exec_sendRow hrun hc
  rw [hexec]
  refine ⟨fun h => ?_, fun i hidle hi => ⟨fun hne => ?_, fun g heq hg => ?_⟩, fun v heq hidle hi hg => ?_⟩
  · by_cases hline : s.tli.line = none
    · rw [sendRow_of_idle p hline, sendPicked_of_none p _ (h.resolve_left (by simp [hline]))]
    · rw [sendRow_of_busy p hline]
  · rw [sendRow_of_idle p hidle, sendPicked_of_other _ hi (Bool.eq_false_iff.2 fun h => hne ((hp i).1 h))]
  · rw [sendRow_of_idle p hidle, sendPicked_of_composed _ hi ((hp i).2 heq) hg]
  · obtain ⟨x, hx⟩ := vehicle_of_pick_assign hi
    have hcleared : Unassigned v (clearUnsent (.assign v) s) :=
      ⟨_, (vehicle_clearUnsent_assign v v s).trans (by rw [hx]; rfl), by simp⟩
    have hkept := unassigned_sendPicked p Config.rosterMax _ hcleared
    rw [← sendPicked_of_empty _ hi ((hp _).2 heq) hg, ← sendRow_of_idle p hidle] at hkept
    obtain ⟨y, hy, hnone⟩ := hkept
    exact ⟨_, y, rfl, hy, hnone⟩

/-! ### The pick (R152 to R154) -/

theorem find?_eq_some_of_least {α : Type} {f : α → Nat} {p : α → Bool} {l : List α} {a : α}
    (hl : l.Pairwise (f · < f ·)) (ha : a ∈ l) (hp : p a = true) (hmin : ∀ b ∈ l, p b = true → f a ≤ f b) :
    l.find? p = some a := by
  obtain ⟨before, behind, rfl⟩ := List.append_of_mem ha
  refine List.find?_eq_some_iff_append.2 ⟨hp, before, behind, rfl, fun b hb => ?_⟩
  by_contra hpb
  have hle := hmin b (List.mem_append_left _ hb) (by simpa using hpb)
  have hlt := (List.pairwise_append.1 hl).2.2 b hb a List.mem_cons_self
  omega

/-- The records in the order of the round. -/
def roundOrder (s : State) : Table Vehicle :=
  (s.roster.filter fun e => s.tli.pointer < e.1) ++ s.roster.filter fun e => e.1 ≤ s.tli.pointer

theorem mem_roundOrder {s : State} {e : Nat × Vehicle} : e ∈ roundOrder s ↔ e ∈ s.roster := by
  simp only [roundOrder, List.mem_append, List.mem_filter, decide_eq_true_eq]
  constructor
  · rintro (h | h) <;> exact h.1
  · exact fun h => (lt_or_ge s.tli.pointer e.1).imp (⟨h, ·⟩) (⟨h, ·⟩)

theorem turn_eq_of_lt {s : State} {slot : Nat} (hslot : slot ≤ 63) (h : s.tli.pointer < slot) :
    turn s slot = slot - s.tli.pointer - 1 := by
  unfold turn
  omega

theorem turn_eq_of_le {s : State} {slot : Nat} (h : slot ≤ s.tli.pointer) :
    turn s slot = slot + 63 - s.tli.pointer :=
  Nat.mod_eq_of_lt (by omega)

theorem roundOrder_sorted {s : State} (hroster : RosterOk s.roster) (hp : s.tli.pointer ≤ 63) :
    (roundOrder s).Pairwise fun d e => turn s d.1 < turn s e.1 := by
  have hsorted := hroster.sorted
  have hslot : ∀ e ∈ s.roster, e.1 ≤ 63 := fun e he => Nat.le_of_lt_succ (hroster.slots e he)
  refine List.pairwise_append.2 ⟨?_, ?_, fun d hd e he => ?_⟩
  · refine (hsorted.filter _).imp_of_mem fun {d e} hd he hlt => ?_
    obtain ⟨hd, hdp⟩ := List.mem_filter.1 hd
    obtain ⟨he, hep⟩ := List.mem_filter.1 he
    have := of_decide_eq_true hdp
    rw [turn_eq_of_lt (hslot d hd) (of_decide_eq_true hdp), turn_eq_of_lt (hslot e he) (of_decide_eq_true hep)]
    omega
  · refine (hsorted.filter _).imp_of_mem fun {d e} hd he hlt => ?_
    rw [turn_eq_of_le (of_decide_eq_true (List.mem_filter.1 hd).2),
      turn_eq_of_le (of_decide_eq_true (List.mem_filter.1 he).2)]
    omega
  · obtain ⟨hd, hdp⟩ := List.mem_filter.1 hd
    have hep := of_decide_eq_true (List.mem_filter.1 he).2
    have := hslot d hd
    rw [turn_eq_of_lt this (of_decide_eq_true hdp), turn_eq_of_le hep]
    have := of_decide_eq_true hdp
    omega

theorem roundRobin_of_next {s : State} {p : DueSet → Bool} {v : Nat} (hroster : RosterOk s.roster)
    (hp : s.tli.pointer ≤ 63) (h : NextServed s p v) : roundRobin s p = some v := by
  obtain ⟨slot, x, hmem, rfl, hx, hleast⟩ := h
  have hfind : (roundOrder s).find? (fun e => p e.2.due) = some (slot, x) :=
    find?_eq_some_of_least (f := fun e => turn s e.1) (roundOrder_sorted hroster hp) (mem_roundOrder.2 hmem) hx
      fun q hq => hleast q (mem_roundOrder.1 hq)
  exact congrArg (Option.map (·.2.id)) hfind

theorem roundRobin_of_none {s : State} {p : DueSet → Bool} (h : NoneServed s p) : roundRobin s p = none := by
  have hfind : (roundOrder s).find? (fun e => p e.2.due) = none :=
    List.find?_eq_none.2 fun e he => by simp [h e (mem_roundOrder.1 he)]
  exact congrArg (Option.map (·.2.id)) hfind

theorem dispatching_eq (s : State) : dispatching s = decide (s.mode = .dispatching) := rfl

theorem pickGrantOrWithdraw_eq {s : State} {r : Option Nat}
    (h : roundRobin s (fun d => !d.withdraw.isEmpty || (decide (s.mode = .dispatching) && d.grant.isSome)) = r) :
    pickGrantOrWithdraw s
      = r.map fun v => if (vehicle s v).any (fun x => !x.due.withdraw.isEmpty) then .withdraw v else .grant v := by
  rw [← h]
  rfl

theorem pickInOrder : Says.PickInOrder := by
  intro s hroster hpointer
  have hnext {p : DueSet → Bool} {v : Nat} (h : NextServed s p v) := roundRobin_of_next hroster hpointer h
  refine ⟨fun h => ?_, fun hall => ⟨fun v h => ?_, fun hhold => ⟨fun v n more h => ?_, fun hstray =>
    ⟨fun v x h hx => ?_, fun hstep => ⟨fun hmode => ?_, fun hmode => ⟨fun h => ?_, fun hresume h => ?_,
      fun hresume hroll => ⟨fun v h => ?_, fun h => ?_⟩⟩⟩⟩⟩⟩⟩
  all_goals unfold pick
  · rw [if_pos (Option.isSome_iff_ne_none.2 h)]
  all_goals rw [if_neg (by simp [hall])]
  · rw [hnext h]
  all_goals rw [roundRobin_of_none hhold]
  · rw [h]
    rfl
  all_goals
    rw [hstray]
    dsimp only [List.head?_nil]
  · rw [pickGrantOrWithdraw_eq (hnext h), Option.map_some]
    dsimp only
    rw [hx]
    by_cases hw : x.due.withdraw = [] <;> simp [hw]
  all_goals
    rw [pickGrantOrWithdraw_eq (roundRobin_of_none hstep), Option.map_none]
    dsimp only
    rw [dispatching_eq]
  · rw [if_pos (by simp [hmode])]
  all_goals rw [if_neg (by simp [hmode])]
  · rw [if_pos (Option.isSome_iff_ne_none.2 h)]
  all_goals rw [if_neg (by simp [hresume])]
  · rw [if_pos (Option.isSome_iff_ne_none.2 h)]
  all_goals rw [if_neg (by simp [hroll])]
  · rw [hnext h]
    rfl
  · rw [roundRobin_of_none h]
    rfl

/-! ### What the frames carry (R145, R156 to R159, R188) -/

theorem stopped_iff (x : Vehicle) : x.stopped = true ↔ Says.Stopped x := by
  unfold Vehicle.stopped Says.Stopped
  cases x.state <;> simp

theorem speedStep_of_segment {s : State} {i : Nat} {r : SegmentRec} (h : segment s i = some r) :
    speedStep s i = min r.speed (capOf s r.zone) := by
  unfold speedStep
  rw [h]

theorem grantEntries_bytes {s : State} {l speeds : List Nat}
    (h : List.Forall₂ (fun i k => ∃ r, segment s i = some r ∧ k = min r.speed (capOf s r.zone)) l speeds) :
    l.flatMap (fun i => bytes2 (speedStep s i * 1024 + i))
      = (List.zipWith (fun i k => bytes2 (k * 1024 + i)) l speeds).flatten := by
  induction h with
  | nil => rfl
  | cons hik _ ih =>
    obtain ⟨r, hr, rfl⟩ := hik
    rw [List.flatMap_cons, List.zipWith_cons_cons, List.flatten_cons, ih, speedStep_of_segment hr]

theorem frameContents : Says.FrameContents := by
  intro s
  refine ⟨rfl, rfl, fun n hn => ?_, fun v => rfl, fun v => rfl, fun v x hx => ?_⟩
  · simp only [compose, hn]
    rfl
  obtain rfl := vehicle_id hx
  refine ⟨?withdraw, fun a l hheld hstopped => ?stopped, fun a l hheld hgoing speeds hspeeds => ?going,
    fun m y p r hm hy hstate hsource hport => ?assign, fun hnone => ?unannounced⟩
  case withdraw =>
    simp only [compose, hx]
    rfl
  case stopped =>
    simp only [compose, hx, Option.map_some, composeGrant, grantEntries, (stopped_iff x).2 hstopped, if_true,
      Vehicle.firstHeld, hheld, List.head?_cons]
    rfl
  case going =>
    have hnot : x.stopped = false := Bool.eq_false_iff.2 (mt (stopped_iff x).1 hgoing)
    simp only [compose, hx, Option.map_some, composeGrant, grantEntries, hnot, Bool.false_eq_true, if_false,
      Vehicle.firstHeld, hheld, List.head?_cons, List.tail_cons, grantEntries_bytes hspeeds]
    rfl
  case assign =>
    have hann : announced s x = some y := by
      simp [announced, hm, hy, hstate]
    have hid : y.id = m := (findMove_id hy).1
    simp only [compose, hx, Option.bind_some, hann, Option.map_some, composeAssign, hsource, hport, hid]
    cases r.kind <;> rfl
  case unannounced =>
    have hann : announced s x = none := by
      unfold announced
      cases hm : x.move with
      | none => rfl
      | some m =>
        rw [Option.bind_some]
        cases hy : findMove s m with
        | none => rfl
        | some y => simpa using hnone m y hm hy
    simp only [compose, hx, Option.bind_some, hann, Option.map_none]

/-- Settles O50. -/
theorem sendRowsSendThePick : Obligations.SendRowsSendThePick := ⟨sendsThePick, pickInOrder, frameContents⟩

end Sys2Proof.Machine

/-! PROOFS. O55: the arithmetic of a dispatch pass: urgency, order, cost, the best candidate and the choice
(R114 to R120). -/

namespace Sys2Proof.Machine

open Sys2Proof.Says

/-! ### Order by rank (R115) -/

section Rank
variable {α : Type} {f : α → Nat}

theorem sublist_insertByRank (a : α) : ∀ l : List α, l.Sublist (insertByRank f a l)
  | [] => List.nil_sublist _
  | b :: t => by
    unfold insertByRank
    split
    · exact List.sublist_cons_self a (b :: t)
    · exact (sublist_insertByRank a t).cons_cons b

theorem insertByRank_sorted (a : α) : ∀ l : List α, l.Pairwise (fun x y => f y ≤ f x) →
    (insertByRank f a l).Pairwise fun x y => f y ≤ f x
  | [], _ => List.pairwise_singleton _ a
  | b :: t, h => by
    obtain ⟨hb, ht⟩ := List.pairwise_cons.1 h
    unfold insertByRank
    split
    next hlt =>
      refine List.pairwise_cons.2 ⟨fun y hy => ?_, h⟩
      obtain rfl | hy := List.mem_cons.1 hy
      · exact hlt.le
      · exact (hb y hy).trans hlt.le
    next hge =>
      refine List.pairwise_cons.2 ⟨fun y hy => ?_, insertByRank_sorted a t ht⟩
      obtain rfl | hy := List.mem_cons.1 ((insertByRank_perm f a t).mem_iff.1 hy)
      · exact not_lt.1 hge
      · exact hb y hy

/-- An element goes behind every element of its rank. -/
theorem pair_sublist_insertByRank {a x : α} (hrank : f x = f a) : ∀ l : List α, l.Pairwise (fun x y => f y ≤ f x) →
    x ∈ l → [x, a].Sublist (insertByRank f a l)
  | b :: t, h, hx => by
    obtain ⟨hb, ht⟩ := List.pairwise_cons.1 h
    have hge : ¬ f b < f a := by
      obtain rfl | hx := List.mem_cons.1 hx
      · omega
      · have := hb x hx
        omega
    unfold insertByRank
    rw [if_neg hge]
    obtain rfl | hx := List.mem_cons.1 hx
    · exact (List.singleton_sublist.2 ((insertByRank_perm f a t).mem_iff.2 List.mem_cons_self)).cons_cons x
    · exact (pair_sublist_insertByRank hrank t ht hx).cons b

theorem sublist_foldl_insertByRank : ∀ l acc : List α, acc.Sublist (l.foldl (fun acc a => insertByRank f a acc) acc)
  | [], _ => .refl _
  | a :: l, acc => (sublist_insertByRank a acc).trans (sublist_foldl_insertByRank l _)

theorem foldl_insertByRank_sorted : ∀ l acc : List α, acc.Pairwise (fun x y => f y ≤ f x) →
    (l.foldl (fun acc a => insertByRank f a acc) acc).Pairwise fun x y => f y ≤ f x
  | [], _, h => h
  | a :: l, _, h => foldl_insertByRank_sorted l _ (insertByRank_sorted a _ h)

theorem foldl_insertByRank_perm : ∀ l acc : List α, (l.foldl (fun acc a => insertByRank f a acc) acc).Perm (l ++ acc)
  | [], _ => .refl _
  | a :: l, acc => (foldl_insertByRank_perm l _).trans
      (((insertByRank_perm f a acc).append_left l).trans List.perm_middle)

theorem sortByRank_perm (l : List α) : (sortByRank f l).Perm l := by
  simpa [sortByRank] using foldl_insertByRank_perm (f := f) l []

theorem sortByRank_sorted (l : List α) : (sortByRank f l).Pairwise fun x y => f y ≤ f x :=
  foldl_insertByRank_sorted l [] .nil

theorem pair_sublist_foldl_of_mem {x y : α} (hrank : f x = f y) : ∀ l acc : List α,
    acc.Pairwise (fun x y => f y ≤ f x) → x ∈ acc → y ∈ l →
    [x, y].Sublist (l.foldl (fun acc a => insertByRank f a acc) acc)
  | a :: l, acc, hacc, hx, hy => by
    obtain rfl | hy := List.mem_cons.1 hy
    · exact (pair_sublist_insertByRank hrank acc hacc hx).trans (sublist_foldl_insertByRank l _)
    · exact pair_sublist_foldl_of_mem hrank l _ (insertByRank_sorted a acc hacc)
        ((sublist_insertByRank a acc).subset hx) hy

theorem pair_sublist_foldl {x y : α} (hrank : f x = f y) : ∀ l acc : List α,
    acc.Pairwise (fun x y => f y ≤ f x) → [x, y].Sublist l →
    [x, y].Sublist (l.foldl (fun acc a => insertByRank f a acc) acc)
  | [], _, _, h => by cases h
  | a :: l, acc, hacc, h => by
    have hsorted := insertByRank_sorted a acc hacc
    cases h with
    | cons _ h => exact pair_sublist_foldl hrank l _ hsorted h
    | cons_cons _ h =>
      exact pair_sublist_foldl_of_mem hrank l _ hsorted ((insertByRank_perm f x acc).mem_iff.2 List.mem_cons_self)
        (List.singleton_sublist.1 h)

/-- Equal ranks keep their order. -/
theorem pair_sublist_sortByRank {x y : α} {l : List α} (hrank : f x = f y) (h : [x, y].Sublist l) :
    [x, y].Sublist (sortByRank f l) := pair_sublist_foldl hrank l [] .nil h

/-- The element of least rank is the first of its rank. -/
theorem leastBy_split {a : α} : ∀ {l : List α}, leastBy f l = some a →
    ∃ before behind, l = before ++ a :: behind ∧ (∀ b ∈ before, f a < f b) ∧ ∀ b ∈ behind, f a ≤ f b
  | c :: t, h => by
    have hle (b : α) (hb : b ∈ c :: t) : f a ≤ f b := leastBy_le h hb
    unfold leastBy at h
    cases ht : leastBy f t with
    | none =>
      rw [ht] at h
      cases h
      exact ⟨[], t, rfl, nofun, fun b hb => hle b (List.mem_cons_of_mem _ hb)⟩
    | some d =>
      rw [ht] at h
      dsimp only at h
      split at h
      next hlt =>
        cases h
        obtain ⟨before, behind, hsplit, hbefore, hbehind⟩ := leastBy_split ht
        refine ⟨c :: before, behind, by rw [hsplit]; rfl, fun b hb => ?_, hbehind⟩
        obtain rfl | hb := List.mem_cons.1 hb
        · exact hlt
        · exact hbefore b hb
      next =>
        cases h
        exact ⟨[], t, rfl, nofun, fun b hb => hle b (List.mem_cons_of_mem _ hb)⟩

end Rank

/-! ### The best candidate (R116 to R119) -/

theorem costOf_eq_costBy {s : State} {x : Vehicle} {zs zv : Nat} (h : vehicleZone s x = some zv) :
    costOf s x zs = costBy s x zs zv := by
  unfold costOf
  rw [h]
  rfl

/-- The bid of one roster entry. -/
def bidOf (s : State) (chosen : List Nat) (p : Vehicle → Bool) (zs : Nat) (e : Nat × Vehicle) : Option Bid :=
  if p e.2 && !chosen.contains e.2.id then (costOf s e.2 zs).map fun k => { vehicle := e.2, cost := k } else none

theorem bidOf_eq_some {s : State} {chosen : List Nat} {p : Vehicle → Bool} {zs : Nat} {e : Nat × Vehicle} {b : Bid} :
    bidOf s chosen p zs e = some b
      ↔ b.vehicle = e.2 ∧ p e.2 = true ∧ e.2.id ∉ chosen ∧ costOf s e.2 zs = some b.cost := by
  obtain ⟨x, k⟩ := b
  unfold bidOf
  split
  next h =>
    rw [Bool.and_eq_true, Bool.not_eq_true', List.contains_eq_mem, decide_eq_false_iff_not] at h
    simp only [Option.map_eq_some_iff, Bid.mk.injEq, h, true_and, not_false_eq_true]
    constructor
    · rintro ⟨j, hj, rfl, rfl⟩
      exact ⟨rfl, hj⟩
    · rintro ⟨rfl, hk⟩
      exact ⟨k, hk, rfl, rfl⟩
  next h =>
    rw [Bool.and_eq_true, Bool.not_eq_true', List.contains_eq_mem, decide_eq_false_iff_not] at h
    refine iff_of_false nofun fun ⟨_, hp, hnew, _⟩ => h ⟨hp, hnew⟩

theorem best_bestBid {s : State} (chosen : List Nat) (p : Vehicle → Bool) (zs : Nat) (hroster : RosterOk s.roster) :
    Best s chosen p zs (bestBid (bids s chosen p zs)) := by
  have hbids : bids s chosen p zs = s.roster.filterMap (bidOf s chosen p zs) := rfl
  have hbid {q : Nat × Vehicle} {k : Nat} (hp : p q.2 = true) (hnew : q.2.id ∉ chosen) (hk : costOf s q.2 zs = some k) :
      bidOf s chosen p zs q = some ⟨q.2, k⟩ := bidOf_eq_some.2 ⟨rfl, hp, hnew, hk⟩
  cases hbest : bestBid (bids s chosen p zs) with
  | none =>
    intro q hq hp hnew
    cases hk : costOf s q.2 zs with
    | none => rfl
    | some k =>
      have hmem : (⟨q.2, k⟩ : Bid) ∈ bids s chosen p zs := List.mem_filterMap.2 ⟨q, hq, hbid hp hnew hk⟩
      rw [leastBy_none hbest] at hmem
      cases hmem
  | some b =>
    obtain ⟨before, behind, hsplit, hbefore, hbehind⟩ := leastBy_split hbest
    rw [hbids] at hsplit
    obtain ⟨front, back, hroster', hfront, hback⟩ := List.filterMap_eq_append_iff.1 hsplit
    obtain ⟨skipped, e, tail, rfl, hskipped, he, htail⟩ := List.filterMap_eq_cons_iff.1 hback
    obtain ⟨hvehicle, hp, hnew, hcost⟩ := bidOf_eq_some.1 he
    refine ⟨e.1, by rw [hroster', hvehicle]; simp, by rw [hvehicle]; exact hp, by rw [hvehicle]; exact hnew,
      by rw [hvehicle]; exact hcost, fun q hq hp hnew k hk => ?_⟩
    have hq' := hbid hp hnew hk
    have hsorted := hroster.sorted
    rw [hroster'] at hq hsorted
    rw [List.mem_append, List.mem_append, List.mem_cons] at hq
    obtain hq | hq | rfl | hq := hq
    · have := hbefore ⟨q.2, k⟩ (by rw [← hfront]; exact List.mem_filterMap.2 ⟨q, hq, hq'⟩)
      exact ⟨this.le, fun heq => absurd heq this.ne⟩
    · rw [hskipped q hq] at hq'
      cases hq'
    · rw [hcost] at hk
      cases hk
      exact ⟨le_refl _, fun _ => le_refl _⟩
    · have := hbehind ⟨q.2, k⟩ (by rw [← htail]; exact List.mem_filterMap.2 ⟨q, hq, hq'⟩)
      have hlt := (List.pairwise_cons.1 (List.pairwise_append.1 (List.pairwise_append.1 hsorted).2.1).2.1).1 q hq
      exact ⟨this, fun _ => hlt.le⟩

/-! ### The choice (R116, R117, R120) -/

theorem plainCandidate_iff (x : Vehicle) : plainCandidate x = true ↔ IsPlain x := by
  unfold plainCandidate Vehicle.eligible IsPlain
  split
  next h => simp [h]
  next h => simp [h]
  next hidle hdep => exact iff_of_false nofun fun h => h.elim hidle fun h => hdep h.1

theorem preemptible_iff (s : State) (x : Vehicle) : preemptible s x = true ↔ IsPreemptible s x := by
  unfold preemptible IsPreemptible
  split
  next h =>
    cases hm : x.move with
    | none => simp
    | some m =>
      cases hy : findMove s m <;> simp [h, hy]
  next h => exact iff_of_false nofun fun hpre => h hpre.1

theorem sourceZone_of_sourceIn {s : State} {m : Move} {zs : Nat} (h : SourceIn s m zs) : sourceZone s m = some zs := by
  obtain ⟨p, r, g, hsource, hport, hseg, rfl⟩ := h
  simp [sourceZone, hsource, portSegment, hport, zoneOf, hseg]

theorem choiceByClass : Says.ChoiceByClass := by
  intro s chosen m zs hroster hsource
  refine ⟨plainCandidate, preemptible s, _, _, plainCandidate_iff, preemptible_iff s,
    best_bestBid chosen _ zs hroster, best_bestBid chosen _ zs hroster, ?_⟩
  unfold choose
  rw [sourceZone_of_sourceIn hsource]
  rfl

theorem urgencyOf_eq (t : Tuning) (x : Move) : urgencyOf t x = urgencyBy t x := by
  unfold urgencyOf urgencyBy Tuning.base
  match x.cls with
  | 0 => rfl
  | 1 => rfl
  | 2 => rfl
  | n + 3 => simp

theorem vehicleZone_of_held {s : State} {x : Vehicle} {i : Nat} {g : SegmentRec} (hi : x.held.head? = some i)
    (hg : segment s i = some g) : vehicleZone s x = some g.zone := by
  simp [vehicleZone, Vehicle.firstHeld, hi, zoneOf, hg]

/-- Settles O55. -/
theorem passArithmetic : Obligations.PassArithmetic := by
  refine ⟨urgencyOf_eq, fun s => ⟨sortByRank_perm _, sortByRank_sorted _, fun x y _ h hrank _ =>
    pair_sublist_sortByRank hrank h⟩, fun s x zs zv h => costOf_eq_costBy h, fun s x i g => vehicleZone_of_held,
    choiceByClass, fun s chosen p zs => best_bestBid chosen p zs, fun t b => ⟨rfl, fun h => if_neg (not_lt.2 h), fun h => if_pos h⟩,
    fun t b c => ⟨rfl, rfl, fun h => if_pos h, fun h => if_neg (not_lt.2 h), fun h => if_pos h, fun h => if_neg (not_lt.2 h)⟩⟩

end Sys2Proof.Machine

/-! PROOFS. O32, O33: answers to a claim and its deadline, on the claimant's side (R129, R131 to R133). -/

namespace Sys2Proof.Machine

open Sys2Proof.Says

/-! ### The entry an answer matches (R128) -/

section Answer
variable {s : State} {f : FloorFrame} {rest : List FloorFrame} {kind : Nat} {e : OutClaim} {extra : List Byte}

theorem matchOut_of_takesAnswer (hs : TakesAnswer s f rest kind e extra) :
    matchOut (popped s rest) f.src { tag := e.tag, segment := e.segment, vehicle := e.vehicle } = some e := by
  obtain ⟨-, -, he, -, -, -, howner, hunique⟩ := hs
  unfold matchOut
  cases hfind : (popped s rest).bxu.outClaims.find? fun d => d.tag == e.tag && d.segment == e.segment
      && d.vehicle == e.vehicle && ownerOf (popped s rest) d.segment == some f.src with
  | none =>
    have := List.find?_eq_none.1 hfind e he
    exact absurd (show ownerOf (popped s rest) e.segment = some f.src from howner) (by simpa using this)
  | some d =>
    have hd := List.find?_some hfind
    simp only [Bool.and_eq_true, beq_iff_eq] at hd
    rw [hunique d (List.mem_of_find?_eq_some hfind) hd.1.1.1]

theorem readPeer_of_takesAnswer (hs : TakesAnswer s f rest kind e []) :
    readPeer f.payload = some { tag := e.tag, segment := e.segment, vehicle := e.vehicle } := by
  obtain ⟨-, hpayload, -, htag, hseg, hv, -⟩ := hs
  rw [hpayload, List.append_nil]
  exact readPeer_peerBytes htag hseg hv

theorem readRefuse_of_takesAnswer {reason : Byte} (hs : TakesAnswer s f rest kind e [reason]) :
    readRefuse f.payload = some { tag := e.tag, segment := e.segment, vehicle := e.vehicle } := by
  obtain ⟨-, hpayload, -, htag, hseg, hv, -⟩ := hs
  rw [hpayload]
  simp only [peerBytes, bytes2, List.cons_append, List.nil_append, readRefuse, num2_bytes_of_lt hseg,
    toNat_byte_of_lt htag, toNat_byte_of_lt hv]

end Answer

theorem isClaiming_iff (e : OutClaim) : e.isClaiming = true ↔ Says.claiming e := by
  unfold OutClaim.isClaiming Says.claiming
  split
  next d h => simp [h]
  next h => simp [h]

theorem endOutClaim_of_claiming {e : OutClaim} (h : Says.claiming e) (s : State) :
    endOutClaim e s = Says.claimEnded s e := by
  obtain ⟨d, hd⟩ := h
  unfold endOutClaim
  rw [hd]
  rfl

/-! ### CLAIM-GRANT (R131) -/

theorem cursor_advancePath (s : State) (i : Nat) (p : Path) : (advancePath s i p).cursor = some i := by
  unfold advancePath
  dsimp only
  split <;> rfl

theorem vehicle_appendHeld (v i u : Nat) (s : State) :
    vehicle (appendHeld v i s) u = (vehicle s u).map fun x => if u = v then
      grantedRecord { x with held := x.held ++ [i], path := advancePath s i x.path } else x := by
  unfold appendHeld
  rw [vehicle_makeGrantDue_eq, vehicle_updVehicle v u
    (fun x => { x with held := x.held ++ [i], path := advancePath s i x.path }) s fun _ h => h, Option.map_map]
  congr 1
  funext x
  by_cases hu : u = v <;> simp [hu]

/-- The grant of a claim for a vehicle with a record. -/
theorem grantTaken_eq {e : OutClaim} {s : State} (hv : vehicle s e.vehicle ≠ none) : ∃ roster line,
    grantTaken e s = { s with
      roster := roster, tli := { s.tli with line := line }
      bxu := { s.bxu with outClaims := s.bxu.outClaims.map fun c => if c.tag = e.tag then { c with phase := .granted } else c }
      srt := tmod e.segment (fun r => { r with res := .borrowed e.vehicle }) s.srt } := by
  unfold grantTaken
  rw [if_pos (by rw [inRoster_eq]; exact Option.isSome_iff_ne_none.2 hv)]
  exact ⟨_, _, rfl⟩

theorem vehicle_grantTaken {e : OutClaim} {s : State} (hv : vehicle s e.vehicle ≠ none) (u : Nat) :
    vehicle (grantTaken e s) u = (vehicle s u).map fun x => if u = e.vehicle then
      { grantedRecord { x with held := x.held ++ [e.segment], path := advancePath s e.segment x.path } with
        state := .departing, heardBy := none } else x := by
  unfold grantTaken
  rw [if_pos (by rw [inRoster_eq]; exact Option.isSome_iff_ne_none.2 hv)]
  dsimp only
  rw [vehicle_updVehicle e.vehicle u (fun x => { x with state := .departing, heardBy := none }) _ fun _ h => h,
    vehicle_appendHeld, Option.map_map]
  refine congrArg (Option.map · (vehicle s u)) (funext fun x => ?_)
  by_cases hu : u = e.vehicle
  · simp only [Function.comp_apply, hu, if_true]
    rfl
  · simp only [Function.comp_apply, hu, if_false]

/-- Settles O32. -/
theorem claimGrantLendsSegment : Obligations.ClaimGrantLendsSegment := by
  intro s f rest e hs
  have hexec : exec .claimGrant s = .next (if e.isClaiming then grantTaken e (popped s rest) else popped s rest) := by
    refine congrArg Host.Outcome.next ((servePeer_of_read hs.1 (readPeer_of_takesAnswer hs)).trans ?_)
    rw [takeGrant, matchOut_of_takesAnswer hs]
  rw [hexec]
  refine ⟨fun h => ?granted, fun h hv => ?unknown, fun h hv => ?lent⟩
  case granted => rw [if_neg (mt (isClaiming_iff e).1 h)]
  case unknown =>
    rw [if_pos ((isClaiming_iff e).2 h), grantTaken, if_neg (by rw [inRoster_eq, show vehicle (popped s rest) e.vehicle = none from hv]; nofun),
      endOutClaim_of_claiming h]
  case lent =>
    obtain ⟨roster, line, heq⟩ := grantTaken_eq (e := e) (s := popped s rest) hv
    have hvehicle := vehicle_grantTaken (e := e) (s := popped s rest) hv
    refine ⟨_, by rw [if_pos ((isClaiming_iff e).2 h)], ?_, ?_, ?_, ?_, ?_, ?_, fun u hu => ?_, fun x hx harr => ?_⟩
    · rw [heq]
    · rw [heq]; rfl
    · rw [heq]; rfl
    · rw [heq]; rfl
    · rw [heq]; rfl
    · rw [heq]; rfl
    · rw [hvehicle]
      simp only [hu, if_false, Option.map_id']
      rfl
    · refine ⟨_, (hvehicle e.vehicle).trans (by rw [show vehicle (popped s rest) e.vehicle = some x from hx]; rfl), ?_⟩
      simp only [if_true, grantedRecord, harr, if_false, cursor_advancePath, and_self]

/-! ### The two ends of a claim that was not granted (R132, R133) -/

theorem waitsOf_claimEnded (e : OutClaim) (i : Nat) (s : State) : waitsOf (Says.claimEnded s e) i = waitsOf s i :=
  waitsOf_setRes e.segment i .foreign s

theorem arbitrateSeg_of_no_waits {i : Nat} {s : State} (h : waitsOf s i = []) : arbitrateSeg i s = s :=
  run_idle fun t ht => by
    rw [List.mem_singleton.1 ht]
    exact taskStep_arb_of_no_waits h

theorem arbitrateSeg_claimEnded {e : OutClaim} {s : State} (h : waitsOf s e.segment = []) :
    arbitrateSeg e.segment (Says.claimEnded s e) = Says.claimEnded s e :=
  arbitrateSeg_of_no_waits ((waitsOf_claimEnded e _ s).trans h)

theorem claimRefuseEndsClaim : Says.ClaimRefuseEndsClaim := by
  intro s f rest e reason hs
  have hexec : exec .claimRefuse s = .next (if e.isClaiming then arbitrateSeg e.segment (endOutClaim e (popped s rest))
      else popped s rest) := by
    refine congrArg Host.Outcome.next ((servePeer_of_read hs.1 (readRefuse_of_takesAnswer hs)).trans ?_)
    rw [takeRefuse, matchOut_of_takesAnswer hs]
  have hended (h : Says.claiming e) :
      exec .claimRefuse s = .next (arbitrateSeg e.segment (Says.claimEnded (popped s rest) e)) := by
    rw [hexec, if_pos ((isClaiming_iff e).2 h), endOutClaim_of_claiming h]
  refine ⟨fun h => by rw [hexec, if_neg (mt (isClaiming_iff e).1 h)], hended, fun h hwaits => ?_⟩
  rw [hended h, arbitrateSeg_claimEnded (s := popped s rest) hwaits]

theorem raise_of_flagged {k : EventKind} {s : State} (hset : flagSet s k = true) (hk : severityOf s k ≠ .halt)
    (halarm : s.su.alarm = alarmDue s) (d : Detail) : raise k d s = s := by
  rw [raise, occur_eq, if_neg hk, noticed_of_set hset]
  rw [updateAlarm, ← halarm]
  rfl

/-- The claim of the tag whose deadline runs. -/
theorem claimFalls_of_claiming {s : State} {e : OutClaim} {d : Nat} (he : e ∈ s.bxu.outClaims)
    (hunique : ∀ c ∈ s.bxu.outClaims, c.tag = e.tag → c = e) (hd : e.phase = .claiming d) :
    claimFalls e.tag s = claimTimeout e (reachTime d s) := by
  have hfind : s.bxu.outClaims.find? (fun c => c.tag == e.tag) = some e := by
    cases h : s.bxu.outClaims.find? fun c => c.tag == e.tag with
    | none => exact absurd (beq_self_eq_true e.tag) (List.find?_eq_none.1 h e he)
    | some c => rw [hunique c (List.mem_of_find?_eq_some h) (by simpa using List.find?_some h)]
  rw [claimFalls, hfind]
  dsimp only
  rw [hd]

theorem claimFalls_of_none {s : State} {tag : Nat} (h : ∀ e ∈ s.bxu.outClaims, e.tag = tag → ¬ Says.claiming e) :
    claimFalls tag s = s := by
  unfold claimFalls
  split
  next e he =>
    split
    next d hd =>
      exact absurd ⟨d, hd⟩ (h e (List.mem_of_find?_eq_some he) (by simpa using List.find?_some he))
    next => rfl
  next => rfl

theorem claimDeadlineWithdraws : Says.ClaimDeadlineWithdraws := by
  intro s tag hrun
  have hexec : exec (.claimDeadline tag) s = .next (claimFalls tag s) :=
    congrArg Host.Outcome.next (whenRunning_of_running hrun)
  refine ⟨fun h => by rw [hexec, claimFalls_of_none h], fun e d he htag hunique hd => ?_⟩
  subst htag
  rw [claimFalls_of_claiming he hunique hd] at hexec
  refine ⟨⟨_, hexec, flagSet_raise _ _ _, ?_⟩, fun o ho _ hocc hwaits hset hk halarm => ?_⟩
  · exact (le_max_right _ _).trans (acts_claimTimeout e (reachTime d s) he).now
  · rw [hexec, claimTimeout]
    have hocc' : occupancy (reachTime d s) < Config.outboundMax := hocc
    have howner : ownerOf (reachTime d s) e.segment = some o := ho
    dsimp only
    rw [howner, Option.getD_some, sendPeer, if_pos hocc', endOutClaim_of_claiming ⟨d, hd⟩]
    generalize hg : floorFrame (reachTime d s) o kindClaimWithdraw 0 _ = g
    rw [arbitrateSeg_claimEnded (s := pushOut g (reachTime d s)) hwaits,
      raise_of_flagged (s := Says.claimEnded (pushOut g (reachTime d s)) e) hset hk (halarm hrun), ← hg]
    rfl

/-- Settles O33. -/
theorem ungrantedClaimEnds : Obligations.UngrantedClaimEnds := ⟨claimRefuseEndsClaim, claimDeadlineWithdraws⟩

end Sys2Proof.Machine

/-! PROOFS. O29, O31: a CLAIM granted at once and refused, and the wait of a CLAIM, on the receiver's side
(R35, R137 to R140). -/

namespace Sys2Proof.Machine

open Sys2Proof.Says

/-! ### Arbitration without waiters (R25, R35) -/

theorem waitsOf_eq_nil_of_none_wait {s : State} (h : ∀ p ∈ s.srt, p.2.waits = []) (i : Nat) : waitsOf s i = [] := by
  unfold waitsOf
  split
  next r hr => exact h _ (mem_of_tget hr)
  next => rfl

theorem nextWaiting_of_none_wait {s : State} (h : ∀ p ∈ s.srt, p.2.waits = []) (i : Nat) (q : Nat × SegRes → Bool) :
    nextWaiting s i q = none := by
  unfold nextWaiting
  rw [Option.map_eq_none_iff, List.find?_eq_none]
  intro p hp
  simp [h p hp]

/-- A task that arbitrates, in an engine where nothing is arbitrated. -/
theorem taskStep_of_unarbitrated {s : State} (h : Unarbitrated s) {t : Task}
    (ht : (∃ i, t = .arb i) ∨ ∃ z i, t = .scanZone z i) : taskStep t s = ([], s) := by
  by_cases hmode : s.mode = .dispatching
  · have hwaits := h.resolve_left (by simp [hmode])
    obtain ⟨i, rfl⟩ | ⟨z, i, rfl⟩ := ht
    · exact taskStep_arb_of_no_waits (waitsOf_eq_nil_of_none_wait hwaits i)
    · rw [taskStep_scanZone z i hmode, nextWaiting_of_none_wait hwaits]
  · exact taskStep_of_not_dispatching hmode t

theorem settleTasks_arbitrate {before after : State} {is : List Nat} {t : Task} (ht : t ∈ settleTasks before after is) :
    (∃ i, t = .arb i) ∨ (∃ z i, t = .scanZone z i) := by
  obtain h | h := List.mem_append.1 ht
  · obtain ⟨i, -, rfl⟩ := List.mem_map.1 h
    exact .inl ⟨i, rfl⟩
  · obtain ⟨z, -, rfl⟩ := List.mem_map.1 h
    exact .inr ⟨z, 0, rfl⟩

theorem run_settleTasks_of_unarbitrated {s : State} (h : Unarbitrated s) (before after : State) (is : List Nat) :
    run (settleTasks before after is) s = s :=
  run_idle fun _ ht => taskStep_of_unarbitrated h (settleTasks_arbitrate ht)

theorem settle_of_unarbitrated {s : State} (h : Unarbitrated s) (before : State) (is : List Nat) :
    settle before is s = s := run_settleTasks_of_unarbitrated h _ _ is

theorem arbitrateSeg_of_unarbitrated {s : State} (h : Unarbitrated s) (i : Nat) : arbitrateSeg i s = s :=
  run_idle fun _ ht => taskStep_of_unarbitrated h (.inl ⟨i, List.mem_singleton.1 ht⟩)

/-! ### A CLAIM as it is read (R138, R189) -/

theorem readClaim_payload {tag seg v : Nat} {m : Summary} (htag : tag < 256) (hseg : seg < 65536) (hv : v < 256)
    (hmove : m.move < 65536) (hcarrier : m.carrier < 4294967296) (hdest : m.dest < 65536) (hcls : m.cls < 256)
    (hage : m.age < 65536) :
    readClaim (claimPayload tag seg v m) = some ({ tag := tag, segment := seg, vehicle := v }, m) := by
  have hcarrier := num4_bytes_of_lt hcarrier
  simp only [claimPayload, peerBytes, bytes2, bytes4, List.cons_append, List.nil_append, readClaim,
    num2_bytes_of_lt hseg, num2_bytes_of_lt hmove, num2_bytes_of_lt hdest, num2_bytes_of_lt hage,
    toNat_byte_of_lt htag, toNat_byte_of_lt hv, toNat_byte_of_lt hcls, hcarrier]

section Claim
variable {s : State} {f : FloorFrame} {rest : List FloorFrame} {n tag seg v : Nat} {m : Summary}

theorem exec_claim (hs : TakesClaim s f rest tag seg v m) :
    exec .claim s = .next (takeClaim f.src ({ tag := tag, segment := seg, vehicle := v }, m) (popped s rest)) := by
  obtain ⟨htakes, hpayload, htag, hseg, hv, hmove, hcarrier, hdest, hcls, hage⟩ := hs
  exact congrArg Host.Outcome.next (servePeer_of_read htakes
    (by rw [hpayload]; exact readClaim_payload htag hseg hv hmove hcarrier hdest hcls hage))

theorem claimable_iff (hcell : s.mc.identity.cell = some n) :
    (claimInRange s { tag := tag, segment := seg, vehicle := v } m = true ∧ destinationReachable s m.dest = true)
      ↔ Claimable s n tag seg v m := by
  rw [destinationReachable_iff hcell]
  simp only [claimInRange, isOwnBoundary, Claimable, Bool.and_eq_true, bne_iff_ne, decide_eq_true_eq,
    Option.isSome_iff_ne_none, Nat.one_le_iff_ne_zero, and_assoc]

/-- A CLAIM that passes cases 1 to 3 of R138 and repeats none. -/
theorem takeClaim_of_new (hmode : s.mode = .dispatching) (hcell : s.mc.identity.cell = some n)
    (hclaim : Claimable s n tag seg v m) {cell : Nat} (hnew : isRepeat s cell { tag := tag, segment := seg, vehicle := v } = none) :
    takeClaim cell ({ tag := tag, segment := seg, vehicle := v }, m) s =
      admitClaim cell { tag := tag, segment := seg, vehicle := v } m
        (endStale cell { tag := tag, segment := seg, vehicle := v } s) := by
  obtain ⟨hrange, hreach⟩ := (claimable_iff hcell).2 hclaim
  unfold takeClaim
  dsimp only
  rw [if_neg (by simp [hmode]), if_neg (by simp [hrange]), if_neg (by simp [hreach]), hnew]

/-- A CLAIM that repeats a claim already held. -/
theorem takeClaim_of_repeat (hmode : s.mode = .dispatching) (hcell : s.mc.identity.cell = some n)
    (hclaim : Claimable s n tag seg v m) {cell : Nat} {e : InClaim} (he : inClaim s cell tag = some e)
    (hseg : e.segment = seg) (hv : e.vehicle = v) :
    takeClaim cell ({ tag := tag, segment := seg, vehicle := v }, m) s =
      if e.phase = .waiting then s else sendPeer cell kindClaimGrant e.tag e.segment e.vehicle [] s := by
  obtain ⟨hrange, hreach⟩ := (claimable_iff hcell).2 hclaim
  have hrepeat : isRepeat s cell { tag := tag, segment := seg, vehicle := v } = some e := by
    simp [isRepeat, he, hseg, hv]
  unfold takeClaim
  dsimp only
  rw [if_neg (by simp [hmode]), if_neg (by simp [hrange]), if_neg (by simp [hreach]), hrepeat]
  dsimp only
  split
  next d hd => rw [if_neg (by rw [hd]; nofun)]
  next hd => rw [if_pos hd]

theorem inClaim_eq_none {cell tag : Nat} (h : ∀ e ∈ s.bxu.inClaims, e.cell = cell → e.tag ≠ tag) :
    inClaim s cell tag = none :=
  List.find?_eq_none.2 fun e he => by simpa using h e he

theorem isRepeat_of_unclaimed {cell : Nat} (h : Unclaimed s cell tag v) (seg : Nat) :
    isRepeat s cell { tag := tag, segment := seg, vehicle := v } = none := by
  unfold isRepeat
  rw [inClaim_eq_none fun e he hcell => (h e he hcell).1]
  rfl

theorem endStale_of_unclaimed {cell : Nat} (h : Unclaimed s cell tag v) (seg : Nat) :
    endStale cell { tag := tag, segment := seg, vehicle := v } s = s := by
  have hnone : s.bxu.inClaims.find? (fun c => c.cell == cell && c.vehicle == v) = none :=
    List.find?_eq_none.2 fun e he => by simpa using fun hcell => (h e he hcell).2
  unfold endStale
  rw [inClaim_eq_none fun e he hcell => (h e he hcell).1]
  dsimp only
  rw [hnone]

/-- A CLAIM that passes cases 1 to 5 of R138, without an entry of its cell and tag or vehicle. -/
theorem exec_claim_unclaimed (hs : TakesClaim s f rest tag seg v m) (hmode : s.mode = .dispatching)
    (hcell : s.mc.identity.cell = some n) (hclaim : Claimable s n tag seg v m) (hnew : Unclaimed s f.src tag v) :
    exec .claim s = .next (admitClaim f.src { tag := tag, segment := seg, vehicle := v } m (popped s rest)) := by
  have hnew' : Unclaimed (popped s rest) f.src tag v := hnew
  rw [exec_claim hs, takeClaim_of_new (s := popped s rest) hmode hcell hclaim (isRepeat_of_unclaimed hnew' seg),
    endStale_of_unclaimed hnew']

theorem sendPeer_of_room {t : State} (h : occupancy t < 64) (dst kind tag seg v : Nat) (extra : List Byte) :
    sendPeer dst kind tag seg v extra t = sending t (frameOf t dst kind 0 (peerBytes tag seg v ++ extra)) := by
  unfold sendPeer
  rw [if_pos (show occupancy t < Config.outboundMax from h)]
  rfl

theorem sendRefuse_eq_afterRefuse (hs : TakesClaim s f rest tag seg v m) (why : RefuseReason) :
    sendRefuse f.src tag seg v why (popped s rest) = afterRefuse s f rest tag seg v why.code :=
  sendPeer_of_room (t := popped s rest) hs.1.1.2.2.1 _ _ _ _ _ _

/-! ### The checks of R138, cases 6 to 8 -/

theorem admitClaim_of_receivable {cell : Nat} (h : Receivable s v) :
    admitClaim cell { tag := tag, segment := seg, vehicle := v } m s =
      let c : InClaim := { cell := cell, tag := tag, segment := seg, vehicle := v, summary := m, phase := .waiting }
      if resOf s seg = some .free ∧ (waitsOf s seg).isEmpty ∧ zoneHasRoom s seg then grantClaim c (addInClaim c s)
      else if Config.waitListMax ≤ (waitsOf s seg).length then sendRefuse cell tag seg v .full s
      else if resOf s seg = some .free then arbitrateSeg seg (enterClaimWait c (addInClaim c s))
        else enterClaimWait c (addInClaim c s) := by
  obtain ⟨hfresh, hunknown, hroster, hclaims⟩ := h
  have hany : (s.bxu.inClaims.any fun e => e.vehicle == v) = false := by simpa using hfresh
  unfold admitClaim
  dsimp only
  rw [if_neg (by simp [hany, inRoster_eq, hunknown]), if_neg (by simp [rosterHasRoom, Config.rosterMax, hroster]),
    if_neg (show ¬ Config.inClaimsMax ≤ _ from not_le.2 hclaims)]

theorem admitClaim_of_duplicate {cell : Nat} (h : (∃ e ∈ s.bxu.inClaims, e.vehicle = v) ∨ vehicle s v ≠ none) :
    admitClaim cell { tag := tag, segment := seg, vehicle := v } m s = sendRefuse cell tag seg v .duplicate s := by
  have hdup : (s.bxu.inClaims.any (fun e => e.vehicle == v) || inRoster s v) = true := by
    simpa [inRoster_eq, Option.isSome_iff_ne_none] using h
  unfold admitClaim
  dsimp only
  rw [if_pos hdup]

theorem admitClaim_of_full {cell : Nat} (hfresh : ∀ e ∈ s.bxu.inClaims, e.vehicle ≠ v) (hunknown : vehicle s v = none)
    (h : 64 ≤ s.roster.length ∨ 32 ≤ s.bxu.inClaims.length) :
    admitClaim cell { tag := tag, segment := seg, vehicle := v } m s = sendRefuse cell tag seg v .full s := by
  have hdup : ¬ (s.bxu.inClaims.any (fun e => e.vehicle == v) || inRoster s v) = true := by
    simpa [inRoster_eq, hunknown] using hfresh
  unfold admitClaim
  dsimp only
  rw [if_neg hdup]
  by_cases hroster : 64 ≤ s.roster.length
  · rw [if_pos (by rw [rosterHasRoom, decide_eq_false (show ¬ s.roster.length < Config.rosterMax from not_lt.2 hroster)]; rfl)]
  · rw [if_neg (by simp [rosterHasRoom, Config.rosterMax, not_le.1 hroster]),
      if_pos (show Config.inClaimsMax ≤ _ from h.resolve_left hroster)]

theorem addInClaim_of_unclaimed {c : InClaim} (h : Unclaimed s c.cell c.tag c.vehicle) :
    addInClaim c s = { s with bxu := { s.bxu with inClaims := s.bxu.inClaims ++ [c] } } := by
  have hkept : (s.bxu.inClaims.filter fun e => !(e.cell == c.cell && e.tag == c.tag)) = s.bxu.inClaims :=
    List.filter_eq_self.2 fun e he => by
      simpa [imp_iff_not_or] using fun hcell => (h e he hcell).1
  change { s with bxu := { s.bxu with
    inClaims := (s.bxu.inClaims.filter fun (e : InClaim) => !(e.cell == c.cell && e.tag == c.tag)) ++ [c] } } = _
  rw [hkept]

theorem grant_map_of_unclaimed {c : InClaim} {ph : InPhase} (h : Unclaimed s c.cell c.tag c.vehicle) :
    (s.bxu.inClaims ++ [c]).map (fun d => if d.cell = c.cell ∧ d.tag = c.tag then { d with phase := ph } else d)
      = s.bxu.inClaims ++ [{ c with phase := ph }] := by
  rw [List.map_append, List.map_singleton, if_pos ⟨rfl, rfl⟩]
  have hkept : s.bxu.inClaims.map (fun d => if d.cell = c.cell ∧ d.tag = c.tag then { d with phase := ph } else d)
      = s.bxu.inClaims.map id :=
    List.map_congr_left fun (e : InClaim) he => if_neg fun h' => (h e he h'.1).1 h'.2
  rw [hkept, List.map_id]

end Claim

theorem resOf_setRes (i j : Nat) (q : Res) (s : State) :
    resOf (setRes i q s) j = if j = i then (resOf s i).map fun _ => q else resOf s j := by
  simp only [resOf, resRec, setRes, State.updSrt_srt, tget_tmod]
  by_cases h : j = i
  · subst h
    cases tget j s.srt <;> simp
  · rw [if_neg h, if_neg (fun hij => h hij)]

/-! ### A claim granted (R87, R139) -/

theorem addRecord_eq (x : Vehicle) (s : State) : ∃ roster tli, addRecord x s = { s with roster := roster, tli := tli } := by
  unfold addRecord
  split
  · exact ⟨s.roster, s.tli, rfl⟩
  · exact ⟨_, _, rfl⟩

theorem grantClaim_eq (e : InClaim) {s : State} (hroster : s.roster.length < 64) (hv : vehicle s e.vehicle = none) :
    ∃ b, grantClaim e s = sendPeer e.cell kindClaimGrant e.tag e.segment e.vehicle [] b
      ∧ b = { s with
          roster := b.roster, tli := b.tli, srt := (setRes e.segment (.reserved e.vehicle) s).srt
          bxu := { s.bxu with inClaims := s.bxu.inClaims.map fun c => if c.cell = e.cell ∧ c.tag = e.tag then
            { c with phase := .granted (s.board.now + s.layout.tuning.tHand) } else c } }
      ∧ ∀ u, vehicle b u = if u = e.vehicle then some (arrivingRecord e.vehicle e.segment) else vehicle s u := by
  obtain ⟨roster, tli, hadd⟩ := addRecord_eq (arrivingRecord e.vehicle e.segment) s
  have hvehicle := vehicle_addRecord (x := arrivingRecord e.vehicle e.segment) hroster
    (by rw [inRoster_eq, show vehicle s (arrivingRecord e.vehicle e.segment).id = none from hv]; rfl)
  refine ⟨_, rfl, ?_, hvehicle⟩
  rw [hadd]
  rfl

/-- Settles O29. -/
theorem claimGrantedAtOnce : Obligations.ClaimGrantedAtOnce := by
  intro s f rest n tag seg v m hs ⟨hmode, hcell⟩ hclaim hnew hrec hfree hwaits hroom
  obtain ⟨-, hunknown, hroster, -⟩ := id hrec
  let c : InClaim := { cell := f.src, tag := tag, segment := seg, vehicle := v, summary := m, phase := .waiting }
  let a : State := { popped s rest with bxu := { s.bxu with inClaims := s.bxu.inClaims ++ [c] } }
  have hexec : exec .claim s = .next (grantClaim c a) := by
    rw [exec_claim_unclaimed hs hmode hcell hclaim hnew, admitClaim_of_receivable (s := popped s rest) hrec]
    dsimp only
    rw [if_pos ⟨show resOf (popped s rest) seg = some .free from hfree,
      by rw [show waitsOf (popped s rest) seg = [] from hwaits]; rfl, hroom⟩,
      addInClaim_of_unclaimed (s := popped s rest) (c := c) hnew]
    rfl
  obtain ⟨b, hgrant, hb, hvehicle⟩ := grantClaim_eq c (s := a) hroster hunknown
  have hfli : b.fli = (popped s rest).fli := by rw [hb]
  have hocc : occupancy b < 64 := by
    unfold occupancy
    rw [hfli]
    exact hs.1.1.2.2.1
  rw [hexec, hgrant, sendPeer_of_room hocc, List.append_nil]
  refine ⟨_, rfl, ?_, ⟨arrivingRecord v seg, (hvehicle v).trans (if_pos rfl), rfl, rfl, rfl, rfl⟩,
    fun u hu => (hvehicle u).trans (if_neg hu), ?_, ?_, ?_, ?_, ?_⟩
  · have hsrt : b.srt = (setRes seg (.reserved v) s).srt := by rw [hb]; rfl
    change (tget seg b.srt).map (·.res) = _
    rw [hsrt]
    exact (resOf_setRes seg seg (.reserved v) s).trans (by rw [if_pos rfl, hfree]; rfl)
  · change b.bxu = _
    rw [hb]
    exact congrArg (fun l => { s.bxu with inClaims := l }) (grant_map_of_unclaimed (c := c) hnew)
  · change { b.fli with outbound := b.fli.outbound ++ [frameOf b f.src 0x41 0 (peerBytes tag seg v)] } = _
    rw [hfli, frameOf, show b.mc = s.mc by rw [hb]; rfl]
    rfl
  · exact (show b.mq = s.mq by rw [hb]; rfl)
  · exact (show b.su = s.su by rw [hb]; rfl)
  · exact (show b.mc = s.mc by rw [hb]; rfl)

/-! ### The wait of a CLAIM (R138 case 11) -/

theorem claimEntersWait : Says.ClaimEntersWait := by
  intro s f rest n tag seg v m hs ⟨hmode, hcell⟩ hclaim hnew hrec hnot
  have hexec := exec_claim_unclaimed hs hmode hcell hclaim hnew
  rw [admitClaim_of_receivable (s := popped s rest) hrec] at hexec
  dsimp only at hexec
  rw [if_neg (by rw [List.isEmpty_iff]; exact hnot)] at hexec
  refine ⟨fun hfull => ?_, fun hroom => ?_⟩
  · rw [hexec, if_pos (show Config.waitListMax ≤ (waitsOf (popped s rest) seg).length from hfull),
      sendRefuse_eq_afterRefuse hs]
    rfl
  · rw [hexec, if_neg (show ¬ Config.waitListMax ≤ (waitsOf (popped s rest) seg).length from not_le.2 hroom),
      addInClaim_of_unclaimed (s := popped s rest)
        (c := { cell := f.src, tag := tag, segment := seg, vehicle := v, summary := m, phase := .waiting }) hnew]
    by_cases hfree : resOf s seg = some .free
    · rw [if_pos (show resOf (popped s rest) seg = some .free from hfree)]
      dsimp only
      rw [if_pos hfree]
      rfl
    · rw [if_neg (show ¬ resOf (popped s rest) seg = some .free from hfree)]
      dsimp only
      rw [if_neg hfree]
      rfl

/-! ### The refusals of a CLAIM (R138) -/

theorem claimRefusals : Says.ClaimRefusals := by
  intro s f rest n tag seg v m hs hcell
  have hrefuse (why : RefuseReason) := sendRefuse_eq_afterRefuse hs why
  refine ⟨fun hmode => ?state, fun hmode hclaim => ?range, fun hmode hclaim => ⟨fun e he hseg hv => ?again,
    fun hnew hdup => ?duplicate, fun hnew hfresh hunknown hfull => ?full⟩⟩
  case state =>
    rw [exec_claim hs, takeClaim]
    dsimp only
    rw [if_pos (by exact hmode), hrefuse]
    rfl
  case range =>
    have hno := mt (claimable_iff (s := popped s rest) hcell).1 hclaim
    rw [exec_claim hs, takeClaim]
    dsimp only
    rw [if_neg (by exact fun hno => hno hmode)]
    by_cases hrange : claimInRange (popped s rest) { tag := tag, segment := seg, vehicle := v } m = true
    · rw [if_neg (by simp [hrange]), if_pos (by simpa using fun hreach => hno ⟨hrange, hreach⟩), hrefuse]
      rfl
    · rw [if_pos (by simpa using hrange), hrefuse]
      rfl
  case again =>
    rw [exec_claim hs, takeClaim_of_repeat (s := popped s rest) hmode hcell hclaim he hseg hv]
    refine ⟨fun hwaiting => by rw [if_pos hwaiting], fun hgranted => ?_⟩
    rw [if_neg hgranted, sendPeer_of_room (t := popped s rest) hs.1.1.2.2.1, List.append_nil, hseg, hv]
    rfl
  case duplicate =>
    rw [exec_claim_unclaimed hs hmode hcell hclaim hnew, admitClaim_of_duplicate (s := popped s rest) hdup, hrefuse]
    rfl
  case full =>
    rw [exec_claim_unclaimed hs hmode hcell hclaim hnew,
      admitClaim_of_full (s := popped s rest) hfresh hunknown hfull, hrefuse]
    rfl

end Sys2Proof.Machine

/-! PROOFS. Layer: what a vehicle leaves behind: its segments, its waits, its record (R26, R34, R43, R44, R65). -/

namespace Sys2Proof.Machine

open Sys2Proof.Says

/-! ### Segments left (R26, R43) -/

theorem leftBy_releasedRes (v : Nat) (q : Res) : LeftBy v q (releasedRes v q) where
  reserved h := by simp [h, releasedRes]
  occupied h := by simp [h, releasedRes]
  pending k h := by simp [h, releasedRes]
  shared w hne h := by obtain h | h := h <;> simp [h, releasedRes, hne]
  pendingShared w k hne h := by obtain h | h := h <;> simp [h, releasedRes, hne]
  borrowed h := by simp [h, releasedRes]

theorem leftBy_again {v : Nat} {q r : Res} (h : LeftBy v q r) : LeftBy v q (releasedRes v r) where
  reserved hq := by rw [h.reserved hq]; rfl
  occupied hq := by rw [h.occupied hq]; rfl
  pending k hq := by rw [h.pending k hq]; rfl
  shared w hne hq := by rw [h.shared w hne hq]; simp [releasedRes, hne]
  pendingShared w k hne hq := by rw [h.pendingShared w k hne hq]; simp [releasedRes, hne]
  borrowed hq := by rw [h.borrowed hq]; rfl

theorem resOf_modRes (i j : Nat) (g : Res → Res) (s : State) :
    resOf (modRes i g s) j = if j = i then (resOf s j).map g else resOf s j := by
  simp only [resOf, resRec, modRes, State.updSrt_srt, tget_tmod]
  by_cases h : j = i
  · subst h
    cases tget j s.srt <;> simp
  · rw [if_neg h, if_neg h]

theorem resOf_releaseSegs_of_notMem (v : Nat) {j : Nat} : ∀ (is : List Nat) (s : State), j ∉ is →
    resOf (releaseSegs v is s) j = resOf s j
  | [], _, _ => rfl
  | i :: is, s, h => by
    rw [List.mem_cons, not_or] at h
    exact (resOf_releaseSegs_of_notMem v is (releaseSeg v i s) h.2).trans
      ((resOf_modRes i j _ s).trans (if_neg h.1))

theorem leftBy_releaseSegs_of_leftBy {v i : Nat} {q : Res} : ∀ (is : List Nat) (s : State),
    (∃ r, resOf s i = some r ∧ LeftBy v q r) → ∃ r, resOf (releaseSegs v is s) i = some r ∧ LeftBy v q r
  | [], _, h => h
  | j :: is, s, ⟨r, hr, hleft⟩ => by
    refine leftBy_releaseSegs_of_leftBy is (releaseSeg v j s) ?_
    by_cases hij : i = j
    · exact ⟨releasedRes v r, (resOf_modRes j i _ s).trans (by rw [if_pos hij, hr]; rfl), leftBy_again hleft⟩
    · exact ⟨r, (resOf_modRes j i _ s).trans (by rw [if_neg hij, hr]), hleft⟩

theorem leftBy_releaseSegs {v i : Nat} {q : Res} (is : List Nat) (s : State) (hi : i ∈ is) (hq : resOf s i = some q) :
    ∃ r, resOf (releaseSegs v is s) i = some r ∧ LeftBy v q r := by
  induction is generalizing s with
  | nil => exact absurd hi List.not_mem_nil
  | cons j is ih =>
    by_cases hij : i = j
    · refine leftBy_releaseSegs_of_leftBy is (releaseSeg v j s) ⟨releasedRes v q, ?_, leftBy_releasedRes v q⟩
      exact (resOf_modRes j i _ s).trans (by rw [if_pos hij, hq]; rfl)
    · refine ih (releaseSeg v j s) (List.mem_of_ne_of_mem hij hi) ?_
      exact (resOf_modRes j i _ s).trans (by rw [if_neg hij, hq])

theorem releaseSegs_eq (v : Nat) : ∀ (is : List Nat) (s : State), ∃ srt, releaseSegs v is s = { s with srt := srt }
  | [], s => ⟨s.srt, rfl⟩
  | i :: is, s => by
    obtain ⟨srt, h⟩ := releaseSegs_eq v is (releaseSeg v i s)
    exact ⟨srt, h.trans rfl⟩

/-! ### Waits (R34) -/

theorem waitsOf_modRes (i j : Nat) (g : Res → Res) (s : State) : waitsOf (modRes i g s) j = waitsOf s j := by
  simp only [waitsOf_eq, resRec, modRes, State.updSrt_srt, tget_tmod]
  split
  · cases tget j s.srt <;> rfl
  · rfl

theorem waitsOf_releaseSegs (v j : Nat) : ∀ (is : List Nat) (s : State), waitsOf (releaseSegs v is s) j = waitsOf s j
  | [], _ => rfl
  | i :: is, s => (waitsOf_releaseSegs v j is (releaseSeg v i s)).trans (waitsOf_modRes i j _ s)

theorem waitsOf_filtered (s : State) (q : WaitEntry → Bool) (j : Nat) :
    waitsOf (s.updSrt fun t => t.map fun p => (p.1, { p.2 with waits := p.2.waits.filter q })) j = (waitsOf s j).filter q := by
  have hget : tget j (s.srt.map fun p => (p.1, { p.2 with waits := p.2.waits.filter q })) = _ :=
    tget_mapVal (fun r : SegRes => { r with waits := r.waits.filter q }) j s.srt
  simp only [waitsOf_eq, resRec, State.updSrt_srt, hget]
  cases tget j s.srt <;> rfl

theorem waitsOf_leaveWaits (v j : Nat) (s : State) :
    waitsOf (leaveWaits v s) j = (waitsOf s j).filter fun e => !e.isVehicle v := waitsOf_filtered s _ j

theorem waitsOf_leaveClaimWait (cell tag j : Nat) (s : State) :
    waitsOf (leaveClaimWait cell tag s) j = (waitsOf s j).filter fun e => !e.isClaim cell tag := waitsOf_filtered s _ j

/-- No segment has a waiter. -/
def NoneWait (s : State) : Prop := ∀ p ∈ s.srt, p.2.waits = []

theorem NoneWait.modRes {s : State} (h : NoneWait s) (i : Nat) (g : Res → Res) : NoneWait (modRes i g s) := fun p hp => by
  obtain ⟨q, hq, rfl⟩ := List.mem_map.1 hp
  split <;> exact h q hq

theorem NoneWait.releaseSegs {v : Nat} : ∀ (is : List Nat) {s : State}, NoneWait s → NoneWait (releaseSegs v is s)
  | [], _, h => h
  | i :: is, _, h => NoneWait.releaseSegs is (h.modRes i _)

theorem NoneWait.filtered {s : State} (h : NoneWait s) (q : WaitEntry → Bool) :
    NoneWait (s.updSrt fun t => t.map fun p => (p.1, { p.2 with waits := p.2.waits.filter q })) := fun p hp => by
  obtain ⟨e, he, rfl⟩ := List.mem_map.1 hp
  change e.2.waits.filter q = []
  rw [h e he, List.filter_nil]

theorem NoneWait.congr {s t : State} (h : NoneWait s) (ht : t.srt = s.srt) : NoneWait t := fun p hp => h p (ht ▸ hp)

/-- The engine arbitrates nothing while it stays in its mode or halts and no wait is entered. -/
theorem unarbitrated_of_noneWait {s t : State} (h : Unarbitrated s) (hmode : s.mode ≠ .dispatching → t.mode ≠ .dispatching)
    (hwaits : NoneWait s → NoneWait t) : Unarbitrated t := h.imp hmode hwaits

/-! ### Holdings and record dropped (R44, R65) -/

theorem dropHoldings_of_known {v : Nat} {s : State} {x : Vehicle} (h : vehicle s v = some x) :
    dropHoldings v s = (x.held, leaveWaits v (setHeld v [] (releaseSegs v x.held s))) := by
  unfold dropHoldings
  rw [h]

theorem dropHoldings_of_unknown {v : Nat} {s : State} (h : vehicle s v = none) : dropHoldings v s = ([], s) := by
  unfold dropHoldings
  rw [h]

theorem filter_updVehicle (v : Nat) (f : Vehicle → Vehicle) (hid : ∀ x, x.id = v → (f x).id = v) :
    ∀ r : Table Vehicle, (r.map fun p => if p.2.id = v then (p.1, f p.2) else p).filter (fun p => decide (p.2.id ≠ v))
      = r.filter fun p => decide (p.2.id ≠ v)
  | [] => rfl
  | p :: r => by
    rw [List.map_cons, List.filter_cons, List.filter_cons, filter_updVehicle v f hid r]
    by_cases h : p.2.id = v
    · simp [h, hid _ h]
    · simp [h]

/-- A vehicle's record and holdings are gone: what that changes. -/
theorem removeHolder_eq (v : Nat) (s : State) : ∃ srt line, removeRecord v (dropHoldings v s).2 =
    { s with roster := s.roster.filter (fun p => p.2.id ≠ v), srt := srt, tli := { s.tli with line := line } } := by
  cases h : vehicle s v with
  | none =>
    rw [dropHoldings_of_unknown h]
    exact ⟨_, _, rfl⟩
  | some x =>
    rw [dropHoldings_of_known h]
    obtain ⟨srt, hrel⟩ := releaseSegs_eq v x.held s
    rw [hrel, ← filter_updVehicle v (fun x => { x with held := [] }) (fun _ hx => hx) s.roster]
    exact ⟨_, _, rfl⟩

theorem srt_removeHolder {v : Nat} {s : State} {x : Vehicle} (h : vehicle s v = some x) :
    (removeRecord v (dropHoldings v s).2).srt = (leaveWaits v (releaseSegs v x.held s)).srt := by
  rw [dropHoldings_of_known h]
  rfl

theorem resOf_congr {s t : State} (h : t.srt = s.srt) (i : Nat) : resOf t i = resOf s i := by
  unfold resOf resRec
  rw [h]

theorem waitsOf_congr {s t : State} (h : t.srt = s.srt) (i : Nat) : waitsOf t i = waitsOf s i := by
  unfold waitsOf resRec
  rw [h]

theorem NoneWait.removeHolder {s : State} (h : NoneWait s) (v : Nat) : NoneWait (removeRecord v (dropHoldings v s).2) := by
  cases hv : vehicle s v with
  | none =>
    rw [dropHoldings_of_unknown hv]
    exact h
  | some x => exact NoneWait.congr ((h.releaseSegs x.held).filtered _) (srt_removeHolder hv)

theorem leftBy_removeHolder {v : Nat} {s : State} {x : Vehicle} (hv : vehicle s v = some x) {i : Nat} {q : Res}
    (hi : i ∈ x.held) (hq : resOf s i = some q) :
    ∃ r, resOf (removeRecord v (dropHoldings v s).2) i = some r ∧ LeftBy v q r := by
  obtain ⟨r, hr, hleft⟩ := leftBy_releaseSegs (v := v) x.held s hi hq
  exact ⟨r, (resOf_congr (srt_removeHolder hv) i).trans ((resOf_leaveWaits v i _).trans hr), hleft⟩

theorem resOf_removeHolder_of_notMem {v : Nat} {s : State} {x : Vehicle} (hv : vehicle s v = some x) {i : Nat}
    (hi : i ∉ x.held) : resOf (removeRecord v (dropHoldings v s).2) i = resOf s i :=
  (resOf_congr (srt_removeHolder hv) i).trans ((resOf_leaveWaits v i _).trans (resOf_releaseSegs_of_notMem v x.held s hi))

theorem vehicle_removeHolder (v : Nat) (s : State) : vehicle (removeRecord v (dropHoldings v s).2) v = none := by
  obtain ⟨srt, line, h⟩ := removeHolder_eq v s
  rw [vehicle_eq_none_iff, h]
  intro p hp
  exact of_decide_eq_true (List.mem_filter.1 hp).2

/-! ### The end of an ARRIVING record (R44, R140, R142) -/

theorem endArriving_eq (c : InClaim) (s : State) : ∃ srt line, (endArriving c s).2 = { s with
    roster := s.roster.filter (fun p => p.2.id ≠ c.vehicle), srt := srt, tli := { s.tli with line := line }
    bxu := { s.bxu with inClaims := s.bxu.inClaims.filter fun d => !(d.cell == c.cell && d.tag == c.tag) } } := by
  obtain ⟨srt, line, h⟩ := removeHolder_eq c.vehicle s
  refine ⟨srt, line, ?_⟩
  change dropInClaim c.cell c.tag (removeRecord c.vehicle (dropHoldings c.vehicle s).2) = _
  rw [h]
  rfl

theorem srt_endArriving (c : InClaim) (s : State) :
    (endArriving c s).2.srt = (removeRecord c.vehicle (dropHoldings c.vehicle s).2).srt := rfl

theorem unarbitrated_endArriving {c : InClaim} {s : State} (h : Unarbitrated s) : Unarbitrated (endArriving c s).2 := by
  obtain ⟨srt, line, heq⟩ := endArriving_eq c s
  refine unarbitrated_of_noneWait h (fun hm => ?_) fun hw => NoneWait.congr (hw.removeHolder c.vehicle) (srt_endArriving c s)
  rw [heq]
  exact hm

end Sys2Proof.Machine

/-! PROOFS. O31 and O34: stale claims, CLAIM-WITHDRAW and the arrival deadline (R137 to R142). -/

namespace Sys2Proof.Machine

open Sys2Proof.Says

/-! ### The end of an incoming claim (R140) -/

theorem inClaim_key {s : State} {cell tag : Nat} {e : InClaim} (h : inClaim s cell tag = some e) :
    e ∈ s.bxu.inClaims ∧ e.cell = cell ∧ e.tag = tag := by
  have hkey := List.find?_some h
  simp only [Bool.and_eq_true, beq_iff_eq] at hkey
  exact ⟨List.mem_of_find?_eq_some h, hkey⟩

theorem inClaim_filtered (l : List InClaim) (cell tag : Nat) (e : InClaim)
    (he : e ∈ l.filter fun d => !(d.cell == cell && d.tag == tag)) : ¬ (e.cell = cell ∧ e.tag = tag) := by
  simpa [imp_iff_not_or] using (List.mem_filter.1 he).2

theorem takeWithdraw_of_match {s : State} {cell tag seg v : Nat} {e : InClaim} (he : inClaim s cell tag = some e)
    (hseg : e.segment = seg) (hv : e.vehicle = v) :
    takeWithdraw cell { tag := tag, segment := seg, vehicle := v } s = endInClaim e s := by
  rw [takeWithdraw, he]
  exact if_pos ⟨hseg, hv⟩

theorem endInClaim_of_waiting {e : InClaim} (h : e.phase = .waiting) (s : State) :
    endInClaim e s = dropInClaim e.cell e.tag (leaveClaimWait e.cell e.tag s) := by
  unfold endInClaim
  rw [h]

theorem endInClaim_of_granted {e : InClaim} (h : e.phase ≠ .waiting) (s : State) :
    endInClaim e s = settle s (endArriving e s).1 (endArriving e s).2 := by
  unfold endInClaim
  split
  next hw => exact absurd hw h
  next => rfl

theorem releaseSegs_popped (v : Nat) (rest : List FloorFrame) : ∀ (is : List Nat) (s : State),
    releaseSegs v is (popped s rest) = popped (releaseSegs v is s) rest
  | [], _ => rfl
  | i :: is, s => releaseSegs_popped v rest is (releaseSeg v i s)

theorem endArriving_popped (c : InClaim) (s : State) (rest : List FloorFrame) :
    (endArriving c (popped s rest)).2 = popped (endArriving c s).2 rest := by
  unfold endArriving
  cases hv : vehicle s c.vehicle with
  | none => rw [dropHoldings_of_unknown hv, dropHoldings_of_unknown (s := popped s rest) hv]; rfl
  | some x =>
    rw [dropHoldings_of_known hv, dropHoldings_of_known (s := popped s rest) hv]
    dsimp only
    rw [releaseSegs_popped]
    rfl

/-! ### Stale entries (R138 cases 4 and 5) -/

section Stale
variable {s : State} {e : InClaim}

theorem endInClaim_eq_endArriving (hphase : e.phase ≠ .waiting) (h : NoneWait s) :
    endInClaim e s = (endArriving e s).2 := by
  rw [endInClaim_of_granted hphase, settle_of_unarbitrated (unarbitrated_endArriving (.inr h))]

/-- What the end of an entry changes where nothing waits for what it frees. -/
theorem endInClaim_eq (h : e.phase = .waiting ∨ NoneWait s) : ∃ roster srt tli, endInClaim e s = { s with
    roster := roster, srt := srt, tli := tli
    bxu := { s.bxu with inClaims := s.bxu.inClaims.filter fun c => !(c.cell == e.cell && c.tag == e.tag) } } := by
  by_cases hphase : e.phase = .waiting
  · rw [endInClaim_of_waiting hphase]
    exact ⟨_, _, _, rfl⟩
  · obtain ⟨srt, line, heq⟩ := endArriving_eq e s
    rw [endInClaim_eq_endArriving hphase (h.resolve_left hphase), heq]
    exact ⟨_, _, _, rfl⟩

theorem endInClaim_popped (h : e.phase = .waiting ∨ NoneWait s) (rest : List FloorFrame) :
    endInClaim e (popped s rest) = popped (endInClaim e s) rest := by
  by_cases hphase : e.phase = .waiting
  · rw [endInClaim_of_waiting hphase, endInClaim_of_waiting hphase]
    rfl
  · have hwait := h.resolve_left hphase
    rw [endInClaim_eq_endArriving hphase hwait, endInClaim_eq_endArriving (s := popped s rest) hphase hwait,
      endArriving_popped]

end Stale

theorem popped_front {s : State} {f : FloorFrame} {rest : List FloorFrame} (h : s.fli.inbound = f :: rest)
    (l : List FloorFrame) : popped { s with fli := { s.fli with inbound := l } } (f :: rest) = s := by
  change { s with fli := { s.fli with inbound := f :: rest } } = s
  rw [← h]

theorem endStale_of_stale {s : State} {cell tag seg v : Nat} {e : InClaim} (he : inClaim s cell tag = some e)
    (hnone : inClaim (endInClaim e s) cell tag = none) :
    endStale cell { tag := tag, segment := seg, vehicle := v } s
      = endStale cell { tag := tag, segment := seg, vehicle := v } (endInClaim e s) := by
  unfold endStale
  rw [he, hnone]

theorem endStale_of_twin {s : State} {cell tag seg v : Nat} {e : InClaim} (hnone : inClaim s cell tag = none)
    (he : e ∈ s.bxu.inClaims) (hcell : e.cell = cell) (hv : e.vehicle = v)
    (hunique : ∀ c ∈ s.bxu.inClaims, c.cell = cell → c.vehicle = v → c = e) :
    endStale cell { tag := tag, segment := seg, vehicle := v } s = endInClaim e s := by
  have hfind : s.bxu.inClaims.find? (fun c => c.cell == cell && c.vehicle == v) = some e := by
    cases h : s.bxu.inClaims.find? fun c => c.cell == cell && c.vehicle == v with
    | none => exact absurd (by simp [hcell, hv]) (List.find?_eq_none.1 h e he)
    | some c =>
      have hc := List.find?_some h
      simp only [Bool.and_eq_true, beq_iff_eq] at hc
      rw [hunique c (List.mem_of_find?_eq_some h) hc.1 hc.2]
  unfold endStale
  rw [hnone]
  dsimp only
  rw [hfind]

theorem staleClaimsEnded : Says.StaleClaimsEnded := by
  intro s u f rest n tag seg v m e hs ⟨hmode, hcell⟩ hclaim hsrc he htag hseg hv hwait hstale hexec
  obtain ⟨hmem, -, -⟩ := inClaim_key he
  have hinbound : s.fli.inbound = f :: rest := hs.1.1.2.1
  -- The CLAIM-WITHDRAW in front ends the entry.
  have hu : endInClaim e s = u := by
    let g : FloorFrame := { f with kind := 0x43, payload := peerBytes e.tag e.segment e.vehicle }
    let front : State := { s with fli := { s.fli with inbound := g :: f :: rest } }
    have htakes : TakesPeer front g (f :: rest) 0x43 := ⟨⟨hs.1.1.1, rfl, hs.1.1.2.2⟩, rfl, hs.1.2.2⟩
    have hrow : exec .claimWithdraw front = .next (takeWithdraw f.src _ (popped front (f :: rest))) :=
      congrArg Host.Outcome.next (servePeer_of_read htakes (readPeer_peerBytes htag hseg hv))
    rw [popped_front hinbound, takeWithdraw_of_match he rfl rfl] at hrow
    exact Host.Outcome.next.inj (hrow.symm.trans hexec)
  have hpop : endInClaim e (popped s rest) = popped u rest := by rw [endInClaim_popped hwait, hu]
  obtain ⟨roster, srt, tli, heq⟩ := endInClaim_eq hwait
  rw [hu] at heq
  have hclaims : ∀ c ∈ u.bxu.inClaims, c ∈ s.bxu.inClaims ∧ ¬ (c.cell = e.cell ∧ c.tag = e.tag) := fun c hc => by
    rw [heq] at hc
    exact ⟨(List.mem_filter.1 hc).1, inClaim_filtered _ _ _ c hc⟩
  have htakes : TakesClaim u f rest tag seg v m := by rw [heq]; exact hs
  have hmode' : (popped u rest).mode = .dispatching := by rw [heq]; exact hmode
  have hcell' : (popped u rest).mc.identity.cell = some n := by rw [heq]; exact hcell
  have hclaim' : Claimable (popped u rest) n tag seg v m := by rw [heq]; exact hclaim
  have hgone : inClaim (popped u rest) f.src tag = none := by
    refine inClaim_eq_none fun c hc hcsrc hctag => ?_
    obtain ⟨hc, hother⟩ := hclaims c hc
    obtain ⟨rfl, -⟩ | ⟨hnone, -⟩ := hstale
    · exact hother ⟨hcsrc.trans hsrc.symm, hctag⟩
    · have := List.find?_eq_none.1 hnone c hc
      simp [hcsrc, hctag] at this
  have hnew : isRepeat (popped u rest) f.src { tag := tag, segment := seg, vehicle := v } = none := by
    rw [isRepeat, hgone]
    rfl
  rw [exec_claim hs, exec_claim htakes, takeClaim_of_new hmode' hcell' hclaim' hnew]
  obtain ⟨rfl, hother⟩ | ⟨hnone, hvehicle, hunique⟩ := hstale
  · have hrepeat : isRepeat (popped s rest) f.src { tag := e.tag, segment := seg, vehicle := v } = none := by
      rw [isRepeat, show inClaim (popped s rest) f.src e.tag = some e from he]
      simpa using hother
    rw [takeClaim_of_new (s := popped s rest) hmode hcell hclaim hrepeat,
      endStale_of_stale (s := popped s rest) he (by rw [hpop]; exact hgone), hpop]
  · have hrepeat : isRepeat (popped s rest) f.src { tag := tag, segment := seg, vehicle := v } = none := by
      rw [isRepeat, show inClaim (popped s rest) f.src tag = none from hnone]
      rfl
    have hclear : Unclaimed (popped u rest) f.src tag v := fun c hc hcsrc => by
      obtain ⟨hc', hother⟩ := hclaims c hc
      refine ⟨fun hctag => ?_, fun hcv => ?_⟩
      · have := List.find?_eq_none.1 hgone c hc
        simp [hcsrc, hctag] at this
      · rw [hunique c hc' hcsrc hcv] at hother
        exact hother ⟨rfl, rfl⟩
    rw [takeClaim_of_new (s := popped s rest) hmode hcell hclaim hrepeat,
      endStale_of_twin (s := popped s rest) hnone hmem hsrc hvehicle hunique, hpop, endStale_of_unclaimed hclear]

/-- Settles O31. -/
theorem claimRefusedInOrder : Obligations.ClaimRefusedInOrder := ⟨claimRefusals, staleClaimsEnded⟩

/-! ### CLAIM-WITHDRAW and the arrival deadline (R140, R142) -/

theorem Acts.unarbitrated {s t : State} (a : Acts s t) (h : Unarbitrated s) (hsrt : t.srt = s.srt) : Unarbitrated t := by
  refine h.imp (fun hm => ?_) fun hw => NoneWait.congr hw hsrt
  obtain hmc | ⟨hd, -⟩ := a.mc
  · rw [State.mode, hmc]
    exact hm
  · exact absurd hd hm

/-- What the end of an ARRIVING record leaves, whatever else is reported. -/
theorem arrivingEnds_of_same {s t : State} {c : InClaim}
    (h : Unarbitrated s → t.roster = (endArriving c s).2.roster ∧ t.bxu = (endArriving c s).2.bxu
      ∧ t.srt = (endArriving c s).2.srt) : ArrivingEnds s t c := by
  intro hidle x hx
  obtain ⟨hroster, hbxu, hsrt⟩ := h hidle
  obtain ⟨srt, line, heq⟩ := endArriving_eq c s
  refine ⟨by rw [hroster, heq], by rw [hbxu, heq], fun i q hi hq => ?_, fun i hi => ?_⟩
  · obtain ⟨r, hr, hleft⟩ := leftBy_removeHolder hx hi hq
    exact ⟨r, (resOf_congr hsrt i).trans hr, hleft⟩
  · exact (resOf_congr hsrt i).trans (resOf_removeHolder_of_notMem hx hi)

/-- After the end of an ARRIVING record its entry is gone, and its vehicle can only arrive anew. -/
theorem gone_of_worked {s t : State} {c : InClaim} (hroster : s.roster = (endArriving c t).2.roster)
    (hbxu : s.bxu = (endArriving c t).2.bxu) {u : State} (h : Worked s u) :
    inClaim u c.cell c.tag = none ∧ ∀ y, vehicle u c.vehicle = some y → y.state = .arriving := by
  obtain ⟨srt, line, heq⟩ := endArriving_eq c t
  refine ⟨inClaim_eq_none fun e he hcell htag => ?_, fun y hy => ?_⟩
  · obtain ⟨d, hd, dcell, dtag, -⟩ := h.inClaims e he
    rw [hbxu, heq] at hd
    exact inClaim_filtered _ _ _ d hd ⟨dcell.trans hcell, dtag.trans htag⟩
  · have hnone : vehicle s c.vehicle = none := by
      rw [vehicle_eq_none_iff, hroster, heq]
      exact fun p hp => of_decide_eq_true (List.mem_filter.1 hp).2
    exact (h.newcomers _ y hnone hy).1

theorem claimWithdrawEndsClaim : Says.ClaimWithdrawEndsClaim := by
  intro s f rest tag seg v hs hpayload htag hseg hv
  have hexec : exec .claimWithdraw s
      = .next (takeWithdraw f.src { tag := tag, segment := seg, vehicle := v } (popped s rest)) :=
    congrArg Host.Outcome.next (servePeer_of_read hs (by rw [hpayload]; exact readPeer_peerBytes htag hseg hv))
  refine ⟨fun h => ?_, fun e he hseg hv => ?_⟩
  · rw [hexec, takeWithdraw]
    cases he : inClaim (popped s rest) f.src tag with
    | none => rfl
    | some e => exact congrArg _ (if_neg (h e he))
  · rw [hexec, takeWithdraw_of_match (s := popped s rest) he hseg hv]
    obtain ⟨-, hcell, htag⟩ := inClaim_key he
    refine ⟨fun hphase => ?_, fun hphase => ⟨_, rfl, ?_⟩⟩
    · rw [endInClaim_of_waiting hphase, hcell, htag]
      rfl
    · rw [endInClaim_of_granted hphase]
      have hgone := gone_of_worked (c := e) (t := popped s rest) rfl rfl
        (worked_settle (popped s rest) (endArriving e (popped s rest)).1 (endArriving e (popped s rest)).2)
      rw [hcell, htag, hv] at hgone
      refine ⟨hgone.1, hgone.2, arrivingEnds_of_same (t := settle _ _ _) (s := s) fun hidle => ?_⟩
      rw [settle_of_unarbitrated (unarbitrated_endArriving (s := popped s rest) hidle), endArriving_popped]
      exact ⟨rfl, rfl, rfl⟩

/-- The receiver gives an arrival up. -/
structure GivesUp (s t : State) (e : InClaim) : Prop where
  acts : Acts s t
  board : t.board = s.board
  entry : inClaim t e.cell e.tag = none
  vehicle : ∀ y, Machine.vehicle t e.vehicle = some y → y.state = .arriving
  flag : flagSet t .handoffAbandoned = true
  ends : ArrivingEnds s t e
  sent : occupancy s < 64 →
    s.fli.outbound ++ [frameOf s e.cell 0x45 0 (peerBytes e.tag e.segment e.vehicle)] <+: t.fli.outbound

theorem givesUp_abandonArrival (e : InClaim) (s : State) : GivesUp s (abandonArrival e s) e := by
  let ended : State := (endArriving e s).2
  let told : State := sendPeer e.cell kindAbandon e.tag e.segment e.vehicle [] ended
  let detail : Detail := { noDetail with
    vehicle := e.vehicle, segment := some e.segment, cell := cellDetail e.cell, tag := e.tag }
  let raised : State := raise .handoffAbandoned detail told
  let tasks := settleTasks s ended (endArriving e s).1
  have hraised : Acts told raised := acts_raise _ _ told
  have hrun := acts_run tasks raised
  obtain ⟨hboard, -, hsrt, hroster, hbxu, -⟩ := raise_rest .handoffAbandoned detail told
  obtain ⟨tboard, -, tsrt, troster, tbxu, -⟩ := sendPeer_rest e.cell kindAbandon e.tag e.segment e.vehicle [] ended
  have hwork := worked_run tasks raised
  obtain ⟨entry, arriving⟩ := gone_of_worked (c := e) (t := s) (hroster.trans troster) (hbxu.trans tbxu) hwork
  obtain ⟨srt, line, heq⟩ := endArriving_eq e s
  have hended : ended = _ := heq
  refine ⟨acts_abandonArrival e s, ?_, entry, arriving, hrun.flagSet (flagSet_raise _ _ _),
    arrivingEnds_of_same fun hidle => ?_, fun hocc => ?_⟩
  · exact (hwork.board.trans (hboard.trans tboard)).trans (by rw [hended])
  · have hidle' := hraised.unarbitrated ((acts_sendPeer _ _ _ _ _ _ ended).unarbitrated (unarbitrated_endArriving hidle) tsrt) hsrt
    have hsame : abandonArrival e s = raised := run_settleTasks_of_unarbitrated hidle' _ _ _
    rw [hsame]
    exact ⟨hroster.trans troster, hbxu.trans tbxu, hsrt.trans tsrt⟩
  · have hroom : occupancy ended < 64 := by rw [hended]; exact hocc
    have hsent : told.fli.outbound = s.fli.outbound ++ [frameOf s e.cell 0x45 0 (peerBytes e.tag e.segment e.vehicle)] := by
      change (sendPeer _ _ _ _ _ _ ended).fli.outbound = _
      rw [sendPeer_of_room hroom, List.append_nil, hended]
      rfl
    rw [← hsent]
    exact (hraised.trans hrun).outbound

theorem arrivalDeadlineAbandons : Says.ArrivalDeadlineAbandons := by
  intro s c tag hrun
  have hexec : exec (.arrivalDeadline c tag) s = .next (arrivalFalls c tag s) :=
    congrArg Host.Outcome.next (whenRunning_of_running hrun)
  refine ⟨fun h => ?_, fun e d he hphase => ?_⟩
  · rw [hexec, arrivalFalls]
    cases he : inClaim s c tag with
    | none => rfl
    | some e =>
      dsimp only
      rw [h e he]
  · obtain ⟨-, hcell, htag⟩ := inClaim_key he
    rw [arrivalFalls, he] at hexec
    dsimp only at hexec
    rw [hphase] at hexec
    dsimp only at hexec
    have hgive := givesUp_abandonArrival e (reachTime d s)
    obtain ⟨-, hboard, hentry, harriving, hflag, hends, hsent⟩ := hgive
    rw [hcell, htag] at hentry hsent
    exact ⟨_, hexec, by rw [hboard]; rfl, hentry, harriving, hflag, hends, hsent⟩

/-- Settles O34. -/
theorem incomingClaimEnds : Obligations.IncomingClaimEnds := ⟨claimWithdrawEndsClaim, arrivalDeadlineAbandons⟩

end Sys2Proof.Machine

/-! PROOFS. O30: the arbitration of a segment (R29, R31, R35 to R37, R129, R130, R139). -/

namespace Sys2Proof.Machine

open Sys2Proof.Says

/-! ### The first of least rank -/

theorem leastBy_of_split {α : Type} {f : α → Nat} {a : α} {behind : List α} (hbehind : ∀ b ∈ behind, f a ≤ f b) :
    ∀ before : List α, (∀ b ∈ before, f a < f b) → leastBy f (before ++ a :: behind) = some a
  | [], _ => by
    rw [List.nil_append, leastBy]
    cases h : leastBy f behind with
    | none => rfl
    | some b => exact if_neg (not_lt.2 (hbehind b (leastBy_mem h)))
  | c :: before, hbefore => by
    rw [List.cons_append, leastBy, leastBy_of_split hbehind before fun b hb => hbefore b (List.mem_cons_of_mem c hb)]
    exact if_pos (hbefore c List.mem_cons_self)

/-! ### Admission and rank (R31, R36, R37) -/

theorem zoneHasRoom_iff (s : State) (i : Nat) : zoneHasRoom s i = true ↔ ∃ z, zoneOf s i = some z ∧ HasRoom s z := by
  unfold zoneHasRoom HasRoom
  cases hz : zoneOf s i with
  | none => simp
  | some z => cases hr : zoneRec s z <;> simp [hr]

theorem admits_iff (s : State) (v i : Nat) : admits s v i = true ↔ Admits s v i := by
  unfold admits Admits
  cases hx : vehicle s v with
  | none => simp
  | some x =>
    simp only [Bool.or_eq_true, Bool.and_eq_true, beq_iff_eq, zoneHasRoom_iff, Vehicle.lastHeld]
    cases hz : zoneOf s i with
    | none => simp
    | some z => cases hl : x.held.getLast? <;> simp [hl]

theorem admissible_iff (s : State) (i : Nat) (w : WaitEntry) : admissible s i w = true ↔ Admissible s i w := by
  obtain ⟨who, at'⟩ := w
  by_cases hforeign : resOf s i = some .foreign
  · cases who with
    | vehicle v f =>
      simp only [admissible, Admissible, hforeign, if_true, outListHasRoom, decide_eq_true_eq]
      exact Iff.rfl
    | claim v t c k => simp [admissible, Admissible, hforeign]
  · cases who with
    | vehicle v f => simp [admissible, Admissible, hforeign, admits_iff]
    | claim v t c k =>
      simp only [admissible, Admissible, hforeign, if_false, Bool.and_eq_true, zoneHasRoom_iff, rosterHasRoom,
        decide_eq_true_eq]
      exact Iff.rfl

theorem entryClass0_iff (s : State) (w : WaitEntry) : entryClass0 s w = true ↔ Urgent s w := by
  obtain ⟨who, at'⟩ := w
  cases who with
  | vehicle v f =>
    simp only [entryClass0, Urgent, vehicleMove, Option.any_eq_true, Option.bind_eq_some_iff, beq_iff_eq]
    constructor
    · rintro ⟨y, ⟨x, hx, m, hm, hy⟩, hcls⟩
      exact ⟨x, m, y, hx, hm, hy, hcls⟩
    · rintro ⟨x, m, y, hx, hm, hy, hcls⟩
      exact ⟨y, ⟨x, hx, m, hm, hy⟩, hcls⟩
  | claim v t c k => simp [entryClass0, Urgent]

theorem entryMain_iff (s : State) (i : Nat) (w : WaitEntry) : (!entryMain s i w) = true ↔ Side s i w := by
  obtain ⟨who, at'⟩ := w
  cases who with
  | vehicle v f =>
    simp only [entryMain, Side, mainPredOf]
    cases hr : segment s i with
    | none => simp
    | some r => cases hform : r.form <;> simp [hform]
  | claim v t c k => simp [entryMain, Side]

theorem entryAgedSide_iff (s : State) (i : Nat) (w : WaitEntry) : entryAgedSide s i w = true ↔ AgedSide s i w := by
  rw [entryAgedSide, Bool.and_eq_true, entryMain_iff, decide_eq_true_eq]
  rfl

/-- The rank orders by the first key that differs. -/
theorem rank_lt_iff : ∀ a₁ a₂ a₃ b₁ b₂ b₃ : Bool,
    ((if a₁ then 0 else 4) + (if a₂ then 0 else 2) + (if a₃ then 0 else 1)
        < (if b₁ then 0 else 4) + (if b₂ then 0 else 2) + (if b₃ then 0 else 1))
      ↔ (a₁ = true ∧ ¬ b₁ = true ∨ (a₁ = true ↔ b₁ = true) ∧
          (a₂ = true ∧ ¬ b₂ = true ∨ (a₂ = true ↔ b₂ = true) ∧ ¬ (!a₃) = true ∧ (!b₃) = true)) := by
  decide

theorem entryRank_lt_iff (s : State) (i : Nat) (a b : WaitEntry) :
    entryRank s i a < entryRank s i b ↔ Precedes s i a b := by
  unfold entryRank Precedes
  rw [rank_lt_iff]
  simp only [entryClass0_iff, entryAgedSide_iff, entryMain_iff]

theorem winner_eq_some_of_wins {s : State} {i : Nat} {w : WaitEntry} (h : Wins s i w) : winner s i = some w := by
  obtain ⟨pre, post, hwaits, hw, hpre, hpost⟩ := h
  unfold winner
  rw [hwaits, List.filter_append, List.filter_cons_of_pos ((admissible_iff s i w).2 hw)]
  refine leastBy_of_split (fun u hu => ?_) _ fun u hu => ?_
  · obtain ⟨hu, hadm⟩ := List.mem_filter.1 hu
    exact not_lt.1 (mt (entryRank_lt_iff s i u w).1 (hpost u hu ((admissible_iff s i u).1 hadm)))
  · obtain ⟨hu, hadm⟩ := List.mem_filter.1 hu
    exact (entryRank_lt_iff s i w u).2 (hpre u hu ((admissible_iff s i u).1 hadm))

theorem wins_of_winner {s : State} {i : Nat} {w : WaitEntry} (h : winner s i = some w) : Wins s i w := by
  obtain ⟨before, behind, hsplit, hbefore, hbehind⟩ := leastBy_split h
  obtain ⟨front, back, hwaits, hfront, hback⟩ := List.filter_eq_append_iff.1 hsplit
  obtain ⟨skipped, tail, rfl, hskipped, hadm, htail⟩ := List.filter_eq_cons_iff.1 hback
  refine ⟨front ++ skipped, tail, by rw [hwaits, List.append_assoc], (admissible_iff s i w).1 hadm, fun u hu hu' => ?_,
    fun u hu hu' => ?_⟩
  · have hu' := (admissible_iff s i u).2 hu'
    obtain hu | hu := List.mem_append.1 hu
    · exact (entryRank_lt_iff s i w u).1 (hbefore u (by rw [← hfront]; exact List.mem_filter.2 ⟨hu, hu'⟩))
    · exact absurd hu' (hskipped u hu)
  · have hu' := (admissible_iff s i u).2 hu'
    exact mt (entryRank_lt_iff s i u w).2
      (not_lt.2 (hbehind u (by rw [← htail]; exact List.mem_filter.2 ⟨hu, hu'⟩)))

theorem winner_eq_none_of_none_admissible {s : State} {i : Nat} (h : ∀ w ∈ waitsOf s i, ¬ Admissible s i w) :
    winner s i = none := by
  unfold winner
  rw [List.filter_eq_nil_iff.2 fun w hw => mt (admissible_iff s i w).1 (h w hw)]
  rfl

theorem winner_isSome_of_admissible {s : State} {i : Nat} (h : ∃ w ∈ waitsOf s i, Admissible s i w) :
    ∃ w, winner s i = some w := by
  obtain ⟨w, hw, hadm⟩ := h
  refine Option.ne_none_iff_exists'.1 fun hnone => ?_
  have := List.mem_filter.2 ⟨hw, (admissible_iff s i w).2 hadm⟩
  rw [leastBy_none hnone] at this
  cases this

/-! ### A claim made (R29, R129, R130) -/

/-- The tags after the last one issued are distinct through one round, so with fewer entries one is free. -/
theorem issuedNext_nextTag {b : Bxu} (h : b.outClaims.length < 8) : IssuedNext b (nextTag b) := by
  have hfree : ∃ k ∈ List.range 255, (b.outClaims.all fun e => e.tag != (b.lastTag + k) % 255 + 1) = true := by
    by_contra hnone
    have hused : (List.range 255).map (fun k => (b.lastTag + k) % 255 + 1) ⊆ b.outClaims.map (·.tag) := fun t ht => by
      obtain ⟨k, hk, rfl⟩ := List.mem_map.1 ht
      by_contra hnew
      refine hnone ⟨k, hk, List.all_eq_true.2 fun e he => bne_iff_ne.2 fun heq => hnew ?_⟩
      rw [← heq]
      exact List.mem_map_of_mem he
    have hdistinct : ((List.range 255).map fun k => (b.lastTag + k) % 255 + 1).Nodup :=
      List.Nodup.map_on (fun j hj k hk heq => by
        have := List.mem_range.1 hj
        have := List.mem_range.1 hk
        omega) List.nodup_range
    have hlen := (hdistinct.subperm hused).length_le
    rw [List.length_map, List.length_map, List.length_range] at hlen
    omega
  obtain ⟨k, hk⟩ := Option.isSome_iff_exists.1 (List.find?_isSome.2 hfree)
  obtain ⟨hfreeK, hrange, hfirst⟩ := List.find?_range_eq_some.1 hk
  have htag : nextTag b = (b.lastTag + k) % 255 + 1 := by
    unfold nextTag
    rw [List.find?_map]
    change ((Option.map _ (List.find? (fun k => b.outClaims.all fun e => e.tag != (b.lastTag + k) % 255 + 1)
      (List.range 255))).getD 0) = _
    rw [hk]
    rfl
  refine ⟨k, List.mem_range.1 hrange, htag, fun e he => ?_, fun j hj => ?_⟩
  · rw [htag]
    exact bne_iff_ne.1 (List.all_eq_true.1 hfreeK e he)
  · have := hfirst j hj
    simpa using this

theorem makeClaim_of_new {s : State} {v i o : Nat} {y : Move} (hmove : vehicleMove s v = some y)
    (howner : ownerOf s i = some o) (hnew : ∀ e ∈ s.bxu.outClaims, e.vehicle ≠ v ∧ e.segment ≠ i) :
    makeClaim v i s = sendPeer o kindClaim (nextTag s.bxu) i v (summaryBytes (summaryOf y))
      (setRes i (.claiming v) { s with bxu := { s.bxu with
        outClaims := s.bxu.outClaims ++ [{ tag := nextTag s.bxu, segment := i, vehicle := v
                                           phase := .claiming (s.board.now + s.layout.tuning.tClaim) }]
        lastTag := nextTag s.bxu } }) := by
  have hnames : claimNames s v i = false := by
    simpa [claimNames] using hnew
  unfold makeClaim
  rw [hmove, howner]
  dsimp only
  rw [if_neg (by simp [hnames])]
  rfl

theorem claimMade_makeClaim {s : State} {v i o : Nat} {y : Move} (hmove : vehicleMove s v = some y)
    (howner : ownerOf s i = some o) (hnew : ∀ e ∈ s.bxu.outClaims, e.vehicle ≠ v ∧ e.segment ≠ i)
    (hroom : s.bxu.outClaims.length < 8) (hres : resOf s i ≠ none) :
    ClaimMade s (makeClaim v i s) v i y ∧ (makeClaim v i s).roster = s.roster
      ∧ ∀ j, waitsOf (makeClaim v i s) j = waitsOf s j := by
  rw [makeClaim_of_new hmove howner hnew]
  generalize hu : ({ s with bxu := _ } : State) = u
  obtain ⟨-, -, hsrt, hroster, hbxu, -⟩ := sendPeer_rest o kindClaim (nextTag s.bxu) i v
    (summaryBytes (summaryOf y)) (setRes i (.claiming v) u)
  refine ⟨⟨nextTag s.bxu, o, issuedNext_nextTag hroom, howner, ?_, ?_, fun hocc => ?_⟩, ?_, fun j => ?_⟩
  · obtain ⟨r, hr⟩ := Option.ne_none_iff_exists'.1 hres
    rw [resOf_congr hsrt, resOf_setRes, if_pos rfl, ← hu]
    exact congrArg (Option.map fun _ => Res.claiming v) hr
  · rw [hbxu, ← hu]
    rfl
  · rw [sendPeer_of_room (by rw [← hu]; exact hocc), ← hu]
    simp only [sending, setRes, State.updSrt, frameOf, claimPayload, summaryBytes, summaryOf, List.append_assoc]
    rfl
  · rw [hroster, ← hu]
    rfl
  · rw [waitsOf_congr hsrt, waitsOf_setRes, ← hu]
    rfl

/-! ### One arbitration (R35, R37, R139) -/

theorem taskStep_arb {s : State} (h : s.mode = .dispatching) (i : Nat) : taskStep (.arb i) s = arbitrate i s := if_pos h

theorem arbitrate_of_free {s : State} {i : Nat} {w : WaitEntry} (hfree : resOf s i = some .free) (hw : winner s i = some w) :
    (∀ v g, w.who = .vehicle v g → arbitrate i s = ([.rounds v], reserveFor v i (leaveWaits v s))) ∧
    ∀ v tag cell cls, w.who = .claim v tag cell cls → arbitrate i s = claimWins i v tag cell s := by
  unfold arbitrate
  rw [hfree, hw]
  exact ⟨fun v g h => by dsimp only; rw [h], fun v tag cell cls h => by dsimp only; rw [h]⟩

theorem arbitrate_of_foreign {s : State} {i v g : Nat} {w : WaitEntry} (hforeign : resOf s i = some .foreign)
    (hw : winner s i = some w) (hwho : w.who = .vehicle v g) : arbitrate i s = ([], makeClaim v i (leaveWaits v s)) := by
  unfold arbitrate
  rw [hforeign, hw]
  dsimp only
  rw [hwho]

theorem arbitrate_of_no_winner {s : State} {i : Nat} (h : winner s i = none) : arbitrate i s = ([], s) := by
  unfold arbitrate
  split
  · rw [h]
  · rw [h]
  · rfl

theorem arbitrate_of_held {s : State} {i : Nat} (hfree : resOf s i ≠ some .free) (hforeign : resOf s i ≠ some .foreign) :
    arbitrate i s = ([], s) := by
  unfold arbitrate
  split
  next h => exact absurd h hfree
  next h => exact absurd h hforeign
  next => rfl

theorem claimWins_eq {s : State} {i v tag cell : Nat} {e : InClaim} (he : inClaim s cell tag = some e) (hseg : e.segment = i) :
    claimWins i v tag cell s = if inRoster s e.vehicle then
        ([.arb i], sendRefuse cell tag i v .duplicate (dropInClaim cell tag (leaveClaimWait cell tag s)))
      else ([], grantClaim e (leaveClaimWait cell tag s)) := by
  unfold claimWins
  dsimp only
  rw [show inClaim (leaveClaimWait cell tag s) cell tag = some e from he, Option.filter_some, if_pos (by simp [hseg])]
  rfl

theorem resOf_reserveFor (v i j : Nat) (s : State) :
    resOf (reserveFor v i s) j = if j = i then (resOf s i).map fun _ => .reserved v else resOf s j :=
  resOf_setRes i j (.reserved v) (appendHeld v i s)

theorem waitsOf_reserveFor (v i j : Nat) (s : State) : waitsOf (reserveFor v i s) j = waitsOf s j :=
  waitsOf_setRes i j (.reserved v) (appendHeld v i s)

theorem reserveFor_vehicle (v i : Nat) {s : State} {x : Vehicle} (hx : vehicle s v = some x) :
    ∃ y, vehicle (reserveFor v i s) v = some y ∧ y.held = x.held ++ [i] ∧ y.path.cursor = some i
      ∧ (x.state ≠ .arriving → y.due.grant = some 0) := by
  have hy : vehicle (reserveFor v i s) v = some
      (grantedRecord { x with held := x.held ++ [i], path := advancePath s i x.path }) :=
    (vehicle_appendHeld v i v s).trans (by rw [hx]; simp)
  refine ⟨_, hy, ?_, ?_, fun harr => ?_⟩
  · unfold grantedRecord
    split <;> rfl
  · unfold grantedRecord
    split <;> exact cursor_advancePath s i x.path
  · rw [grantedRecord, if_neg harr]

theorem arbiterChooses : Says.ArbiterChooses := by
  intro s i hmode
  rw [taskStep_arb hmode]
  refine ⟨arbitrate_of_held, fun h => arbitrate_of_no_winner (winner_eq_none_of_none_admissible h), fun h => ?_,
    fun w hw => ⟨fun v g x hwho hfree hx => ?reserved, fun v g x m y hwho hforeign hx hm hy howner hnew => ?claimed,
      fun v tag cell cls e hwho hfree he hseg hv => ⟨fun hunknown => ?granted, fun hknown => ?refused⟩⟩⟩
  · obtain ⟨w, hw⟩ := winner_isSome_of_admissible h
    exact ⟨w, wins_of_winner hw⟩
  case reserved =>
    obtain ⟨y, hy, hheld, hcursor, hgrant⟩ := reserveFor_vehicle v i (s := leaveWaits v s) hx
    refine ⟨_, y, (arbitrate_of_free hfree (winner_eq_some_of_wins hw)).1 v g hwho, ?_, hy, hheld, hcursor, hgrant,
      fun j => ?_, fun j hj => ?_, rfl, rfl, rfl⟩
    · rw [resOf_reserveFor, if_pos rfl, resOf_leaveWaits, hfree]
      rfl
    · rw [waitsOf_reserveFor, waitsOf_leaveWaits]
    · rw [resOf_reserveFor, if_neg hj, resOf_leaveWaits]
  case claimed =>
    obtain ⟨o, ho⟩ := Option.ne_none_iff_exists'.1 howner
    have hadm := (admissible_iff s i w).1 (winner_admissible (winner_eq_some_of_wins hw)).2
    unfold Admissible at hadm
    rw [hwho] at hadm
    dsimp only at hadm
    rw [if_pos hforeign] at hadm
    have hmove : vehicleMove (leaveWaits v s) v = some y := by
      change (vehicle s v).bind (fun x => x.move.bind (findMove s)) = some y
      rw [hx, Option.bind_some, hm, Option.bind_some, hy]
    obtain ⟨hmade, hroster, hwaits⟩ := claimMade_makeClaim (s := leaveWaits v s) hmove ho hnew hadm
      (by rw [resOf_leaveWaits, hforeign]; nofun)
    exact ⟨_, arbitrate_of_foreign hforeign (winner_eq_some_of_wins hw) hwho, hmade, hroster, fun j => by
      rw [hwaits, waitsOf_leaveWaits]⟩
  case granted =>
    have hadm := (admissible_iff s i w).1 (winner_admissible (winner_eq_some_of_wins hw)).2
    unfold Admissible at hadm
    rw [hwho] at hadm
    dsimp only at hadm
    rw [if_neg (by rw [hfree]; nofun)] at hadm
    obtain ⟨-, hcell, htag⟩ := inClaim_key he
    have hstep := (arbitrate_of_free hfree (winner_eq_some_of_wins hw)).2 v tag cell cls hwho
    rw [claimWins_eq he hseg, if_neg (by rw [inRoster_eq, hv, hunknown]; nofun)] at hstep
    obtain ⟨b, hgrant, hb, hvehicle⟩ := grantClaim_eq e (s := leaveClaimWait cell tag s) hadm.2 (by rw [hv]; exact hunknown)
    rw [hgrant] at hstep
    obtain ⟨-, -, hsrt, hroster, hbxu, -⟩ := sendPeer_rest e.cell kindClaimGrant e.tag e.segment e.vehicle [] b
    have hbsrt : b.srt = (setRes i (.reserved v) (leaveClaimWait cell tag s)).srt := by rw [hb, hseg, hv]
    refine ⟨_, arrivingRecord v i, hstep, ?_, ?_, rfl, rfl, ?_, fun j => ?_, fun hocc => ?_⟩
    · rw [resOf_congr (hsrt.trans hbsrt), resOf_setRes, if_pos rfl, resOf_leaveClaimWait, hfree]
      rfl
    · rw [vehicle_congr hroster, hvehicle, hv, if_pos rfl, hseg]
    · rw [hbxu, hb, hcell, htag]
      rfl
    · rw [waitsOf_congr (hsrt.trans hbsrt), waitsOf_setRes, waitsOf_leaveClaimWait]
    · rw [sendPeer_of_room (by rw [hb]; exact hocc), List.append_nil, hcell, htag, hseg, hv]
      change b.fli.outbound ++ [frameOf b cell 0x41 0 _] = _
      rw [frameOf, hb]
      rfl
  case refused =>
    have hstep := (arbitrate_of_free hfree (winner_eq_some_of_wins hw)).2 v tag cell cls hwho
    rw [claimWins_eq he hseg, if_pos (by rw [inRoster_eq, hv]; exact Option.isSome_iff_ne_none.2 hknown)] at hstep
    obtain ⟨-, -, hsrt, hroster, hbxu, -⟩ := sendPeer_rest cell kindClaimRefuse tag i v [byte RefuseReason.duplicate.code]
      (dropInClaim cell tag (leaveClaimWait cell tag s))
    refine ⟨_, hstep, ?_, hroster, hbxu, fun j => ?_, fun hocc => ?_⟩
    · exact (resOf_congr hsrt i).trans ((resOf_leaveClaimWait cell tag i s).trans hfree)
    · exact (waitsOf_congr hsrt j).trans (waitsOf_leaveClaimWait cell tag j s)
    · rw [sendRefuse, sendPeer_of_room (by exact hocc)]
      rfl

/-- Settles O30. -/
theorem claimWaits : Obligations.ClaimWaits := ⟨claimEntersWait, arbiterChooses⟩

end Sys2Proof.Machine

/-! PROOFS. The records of the Move Queue and of the roster under each operation of the Move Queue, and what raising
events, running tasks and building paths leave of both (R88, R92, R98, R99, R123, R151). -/

namespace Sys2Proof.Machine

open Sys2Proof.Says

/-! ### Records of moves under work (R99) -/

theorem movesKept_of_raised {s t : State} (h : Raised s t) : MovesKept s t := by
  cases h with
  | reported h => exact .inl (by rw [show t = { s with su := t.su, fli := t.fli } from h])
  | deferred _ _ h => exact .inl (by rw [h])
  | halted _ _ h => exact .inr (by rw [h]; exact congrArg MoveQueue.moves (entersHalted_enterHalted s).moves)

theorem movesKept_of_worked {s t : State} (h : Worked s t) : MovesKept s t := by
  by_cases hm : t.mode = s.mode
  · exact .inl (congrArg MoveQueue.moves (h.stays hm).1)
  · exact .inr (congrArg MoveQueue.moves (h.halts hm).1)

/-! ### Operations on the queue (R88, R92) -/

theorem findMove_setMove {m : Nat} {f : Move → Move} (hid : ∀ x, x.id = m → (f x).id = m) (k : Nat) (s : State) :
    findMove (setMove m f s) k = (findMove s k).map fun x => if k = m then f x else x := by
  have hsame : ∀ x, (if x.id = m then f x else x).id = x.id := fun x => by
    split
    next h => rw [hid x h, h]
    next => rfl
  rw [findMove_of_map (t := setMove m f s) hsame rfl]
  cases hx : findMove s k with
  | none => rfl
  | some x => simp [(findMove_id hx).1]

theorem findMove_setMove_of_ne {m k : Nat} {f : Move → Move} (hid : ∀ x, x.id = m → (f x).id = m) (h : k ≠ m) (s : State) :
    findMove (setMove m f s) k = findMove s k := by
  rw [findMove_setMove hid]
  simp [h]

/-- A record put in place of the one found. -/
theorem findMove_setMove_const {m : Nat} {x y : Move} {s : State} (hx : findMove s m = some x) (hy : y.id = m) :
    findMove (setMove m (fun _ => y) s) m = some y := by
  rw [findMove_setMove (fun _ _ => hy), hx]
  simp

theorem findMove_deleteMove (m k : Nat) (s : State) :
    findMove (deleteMove m s) k = if k = m then none else findMove s k := by
  show (s.mq.moves.filter fun x => decide (x.id ≠ m)).find? (fun x => x.id == k) = _
  rw [List.find?_filter]
  split
  next h => simp [h]
  next h =>
    refine List.find?_congr fun (x : Move) _ => ?_
    by_cases hx : x.id = k <;> simp [hx, h]

theorem findMove_appendMove (x : Move) (k : Nat) (s : State) :
    findMove (appendMove x s) k = (findMove s k).or (if k = x.id then some { x with seq := s.mq.arrivals } else none) := by
  show (s.mq.moves ++ [{ x with seq := s.mq.arrivals }]).find? (fun y : Move => y.id == k) = _
  rw [List.find?_append]
  by_cases h : k = x.id
  · simp [findMove, h]
  · simp [findMove, h, Ne.symm h]

/-- The record a change puts in place: its deadline absent outside ASSIGNED (R99). -/
def unconfirmed (y : Move) : Move := if y.state = .assigned then y else { y with confirm := .absent }

theorem unconfirmed_of_ne {y : Move} (h : y.state ≠ .assigned) : unconfirmed y = { y with confirm := .absent } := if_neg h

theorem unconfirmed_of_assigned {y : Move} (h : y.state = .assigned) : unconfirmed y = y := if_pos h

theorem unconfirmed_fields (y : Move) : (unconfirmed y).id = y.id ∧ (unconfirmed y).state = y.state
    ∧ (unconfirmed y).vehicle = y.vehicle ∧ (unconfirmed y).age = y.age := by
  unfold unconfirmed
  split <;> exact ⟨rfl, rfl, rfl, rfl⟩

theorem changeMove_eq {m : Nat} {x : Move} {s : State} (f : Move → Move) (hx : findMove s m = some x) :
    changeMove m f s = reportMove m (.now (f x).state) ((f x).vehicle.getD 0) (f x).age
      (setMove m (fun _ => unconfirmed (f x)) s) := by
  obtain ⟨-, hstate, hvehicle, hage⟩ := unconfirmed_fields (f x)
  unfold changeMove
  rw [hx]
  show reportMove m (.now (unconfirmed (f x)).state) ((unconfirmed (f x)).vehicle.getD 0) (unconfirmed (f x)).age _ = _
  rw [hstate, hvehicle, hage]
  rfl

theorem removeMove_eq {m : Nat} {x : Move} {s : State} (out : ReportState) (hx : findMove s m = some x) :
    removeMove m out s = reportMove m out (x.vehicle.getD 0) x.age (deleteMove m s) := by
  unfold removeMove
  rw [hx]

theorem movesKept_reportMove (m : Nat) (st : ReportState) (v a : Nat) (s : State) : MovesKept s (reportMove m st v a s) :=
  movesKept_of_raised (raised_reportMove m st v a s)

theorem findMove_changeMove {m : Nat} {x : Move} {f : Move → Move} {s : State} (hx : findMove s m = some x)
    (hid : (f x).id = m) (hstate : (f x).state ≠ .assigned) :
    findMove (changeMove m f s) m = some { f x with confirm := .absent } := by
  rw [changeMove_eq f hx]
  refine ((movesKept_reportMove _ _ _ _ _).move m).absent (?_ : _ = some { f x with confirm := .absent }) rfl
  rw [findMove_setMove_const hx ((unconfirmed_fields _).1.trans hid), unconfirmed_of_ne hstate]

theorem findMove_changeMove_assigned {m : Nat} {x : Move} {f : Move → Move} {s : State} (hx : findMove s m = some x)
    (hid : (f x).id = m) (hstate : (f x).state = .assigned) :
    ∃ y, findMove (changeMove m f s) m = some y ∧ y = { f x with confirm := y.confirm } := by
  rw [changeMove_eq f hx]
  refine ((movesKept_reportMove _ _ _ _ _).move m).some ?_
  rw [findMove_setMove_const hx ((unconfirmed_fields _).1.trans hid), unconfirmed_of_assigned hstate]

theorem moveKept_changeMove {m k : Nat} {f : Move → Move} (hid : ∀ x, x.id = m → (f x).id = m) (h : k ≠ m) (s : State) :
    MoveKept k s (changeMove m f s) := by
  cases hx : findMove s m with
  | none =>
    unfold changeMove
    rw [hx]
    exact .refl k s
  | some x =>
    rw [changeMove_eq f hx]
    refine MoveKept.trans (.inl (findMove_setMove_of_ne (fun _ _ => ?_) h s)) ((movesKept_reportMove _ _ _ _ _).move k)
    exact (unconfirmed_fields _).1.trans (hid x (findMove_id hx).1)

theorem findMove_removeMove (m : Nat) (out : ReportState) (s : State) : findMove (removeMove m out s) m = none := by
  cases hx : findMove s m with
  | none =>
    unfold removeMove
    rw [hx]
    exact hx
  | some x =>
    rw [removeMove_eq out hx]
    refine ((movesKept_reportMove _ _ _ _ _).move m).none ?_
    rw [findMove_deleteMove, if_pos rfl]

theorem moveKept_removeMove {m k : Nat} (out : ReportState) (h : k ≠ m) (s : State) : MoveKept k s (removeMove m out s) := by
  cases hx : findMove s m with
  | none =>
    unfold removeMove
    rw [hx]
    exact .refl k s
  | some x =>
    rw [removeMove_eq out hx]
    refine MoveKept.trans (.inl ?_) ((movesKept_reportMove _ _ _ _ _).move k)
    rw [findMove_deleteMove, if_neg h]

@[simp] theorem findMove_setPassDue (k : Nat) (s : State) : findMove (setPassDue s) k = findMove s k :=
  findMove_congr (by rw [(setPassDue_rest s).2.2.2.2.1]) k

theorem findMove_returnToWaiting {m : Nat} {x : Move} {s : State} (hx : findMove s m = some x) :
    findMove (returnToWaiting m s) m = some { x with state := .waiting, vehicle := none, confirm := .absent } := by
  rw [returnToWaiting, findMove_setPassDue]
  exact findMove_changeMove hx (findMove_id hx).1 (by nofun)

theorem moveKept_returnToWaiting {m k : Nat} (h : k ≠ m) (s : State) : MoveKept k s (returnToWaiting m s) := by
  have := moveKept_changeMove (f := fun x => { x with state := .waiting, vehicle := none }) (fun _ hx => hx) h s
  unfold MoveKept at this ⊢
  rwa [returnToWaiting, findMove_setPassDue]

/-! ### The preemption list (R123, R126) -/

theorem preempts_of_raised {s t : State} (h : Raised s t) : t.asu.preempts = s.asu.preempts := by
  cases h with
  | reported h => rw [show t = { s with su := t.su, fli := t.fli } from h]
  | deferred _ _ h => rw [h]
  | halted _ _ h =>
    rw [h]
    exact (congrArg Asu.preempts (entersHalted_enterHalted s).pass : (enterHalted s).asu.preempts = _)

theorem preempts_reportMove (m : Nat) (st : ReportState) (v a : Nat) (s : State) :
    (reportMove m st v a s).asu.preempts = s.asu.preempts := preempts_of_raised (raised_reportMove m st v a s)

@[simp] theorem preempts_setPassDue (s : State) : (setPassDue s).asu.preempts = s.asu.preempts := by
  rw [setPassDue_eq]

/-- What stands in the list once no ASSIGNED record has the id. -/
theorem ne_of_standing {l : List Move} {q : Preemption} {m : Nat} (hq : standing l q = true)
    (hl : ∀ x ∈ l, x.id = m → x.state ≠ .assigned) : q.newMove ≠ m := by
  rintro rfl
  obtain ⟨x, hx, hstands⟩ := List.any_eq_true.1 hq
  simp only [Bool.and_eq_true, beq_iff_eq] at hstands
  exact hl x hx hstands.1.1 hstands.1.2

theorem preempts_changeMove {m : Nat} {x : Move} {f : Move → Move} {s : State} (hx : findMove s m = some x)
    (hstate : (f x).state ≠ .assigned) :
    ∀ q ∈ (changeMove m f s).asu.preempts, q ∈ s.asu.preempts ∧ q.newMove ≠ m := by
  intro q hq
  rw [changeMove_eq f hx, preempts_reportMove] at hq
  obtain ⟨hmem, hstands⟩ := List.mem_filter.1 hq
  refine ⟨hmem, ne_of_standing hstands fun y hy hym => ?_⟩
  obtain ⟨z, -, hz⟩ := List.mem_map.1 hy
  by_cases hzm : z.id = m
  · rw [if_pos hzm] at hz
    rw [← hz, (unconfirmed_fields _).2.1]
    exact hstate
  · rw [if_neg hzm] at hz
    exact absurd (hz ▸ hym) hzm

theorem preempts_removeMove {m : Nat} {x : Move} {s : State} (out : ReportState) (hx : findMove s m = some x) :
    ∀ q ∈ (removeMove m out s).asu.preempts, q ∈ s.asu.preempts ∧ q.newMove ≠ m := by
  intro q hq
  rw [removeMove_eq out hx, preempts_reportMove] at hq
  obtain ⟨hmem, hstands⟩ := List.mem_filter.1 hq
  exact ⟨hmem, ne_of_standing hstands fun y hy hym => absurd hym (of_decide_eq_true (List.mem_filter.1 hy).2)⟩

theorem preempts_returnToWaiting {m : Nat} {x : Move} {s : State} (hx : findMove s m = some x) :
    ∀ q ∈ (returnToWaiting m s).asu.preempts, q ∈ s.asu.preempts ∧ q.newMove ≠ m := by
  rw [returnToWaiting, preempts_setPassDue]
  exact preempts_changeMove hx (by nofun)

theorem preempts_changeMove_subset (m : Nat) (f : Move → Move) (s : State) :
    (changeMove m f s).asu.preempts ⊆ s.asu.preempts := by
  cases hx : findMove s m with
  | none =>
    unfold changeMove
    rw [hx]
    exact List.Subset.refl _
  | some x =>
    rw [changeMove_eq f hx, preempts_reportMove]
    exact List.filter_subset_self _

theorem preempts_removeMove_subset (m : Nat) (out : ReportState) (s : State) :
    (removeMove m out s).asu.preempts ⊆ s.asu.preempts := by
  cases hx : findMove s m with
  | none =>
    unfold removeMove
    rw [hx]
    exact List.Subset.refl _
  | some x =>
    rw [removeMove_eq out hx, preempts_reportMove]
    exact List.filter_subset_self _

/-! ### The report of a change (R92, R161) -/

theorem reportMove_of_room {s : State} (h : occupancy s < 56) (m : Nat) (st : ReportState) (v a : Nat) :
    reportMove m st v a s = sending s (moveReport s m st.code v a) := by
  rw [reportMove, if_pos (show occupancy s < Config.reportLimit from h)]
  rfl

theorem fli_changeMove {m : Nat} {x : Move} {s : State} (f : Move → Move) (hx : findMove s m = some x)
    (h : occupancy s < 56) :
    (changeMove m f s).fli = (sending s (moveReport s m (ReportState.now (f x).state).code ((f x).vehicle.getD 0) (f x).age)).fli := by
  rw [changeMove_eq f hx, reportMove_of_room (by exact h)]
  rfl

theorem fli_removeMove {m : Nat} {x : Move} {s : State} (out : ReportState) (hx : findMove s m = some x)
    (h : occupancy s < 56) :
    (removeMove m out s).fli = (sending s (moveReport s m out.code (x.vehicle.getD 0) x.age)).fli := by
  rw [removeMove_eq out hx, reportMove_of_room (by exact h)]
  rfl

@[simp] theorem fli_setPassDue (s : State) : (setPassDue s).fli = s.fli := (setPassDue_rest s).2.2.2.2.2.2.2.1

/-! ### The record of a vehicle under the operations on it (R64, R101, R151) -/

section
variable (v u m : Nat) (s : State)

@[simp] theorem vehicle_reportMove (st : ReportState) (w a : Nat) : vehicle (reportMove m st w a s) u = vehicle s u :=
  vehicle_congr (reportMove_rest _ _ _ _ _).2.2.2.1 u
@[simp] theorem vehicle_raise (k : EventKind) (d : Detail) : vehicle (raise k d s) u = vehicle s u :=
  vehicle_congr (raise_rest _ _ _).2.2.2.1 u
@[simp] theorem vehicle_setMove (f : Move → Move) : vehicle (setMove m f s) u = vehicle s u :=
  vehicle_congr (setMove_rest _ _ _).2.2.2.1 u
@[simp] theorem vehicle_appendMove (x : Move) : vehicle (appendMove x s) u = vehicle s u :=
  vehicle_congr (appendMove_rest _ _).2.2.2.1 u
@[simp] theorem vehicle_changeMove (f : Move → Move) : vehicle (changeMove m f s) u = vehicle s u :=
  vehicle_congr (changeMove_rest _ _ _).2.2.2.1 u
@[simp] theorem vehicle_removeMove (out : ReportState) : vehicle (removeMove m out s) u = vehicle s u :=
  vehicle_congr (removeMove_rest _ _ _).2.2.2.1 u
@[simp] theorem vehicle_returnToWaiting : vehicle (returnToWaiting m s) u = vehicle s u :=
  vehicle_congr (returnToWaiting_rest _ _).2.2.2.1 u
@[simp] theorem vehicle_setPassDue : vehicle (setPassDue s) u = vehicle s u := vehicle_congr (setPassDue_rest s).2.2.2.1 u
@[simp] theorem vehicle_noteEligible : vehicle (noteEligible v s) u = vehicle s u := by
  unfold noteEligible
  split
  · exact vehicle_setPassDue u s
  · rfl

@[simp] theorem vehicle_setMoveField (o : Option Nat) :
    vehicle (setMoveField v o s) u = (vehicle s u).map fun x => if u = v then { x with move := o } else x :=
  vehicle_updVehicle v u (fun x => { x with move := o }) s fun _ h => h
@[simp] theorem vehicle_setNextMove (o : Option Nat) :
    vehicle (setNextMove v o s) u = (vehicle s u).map fun x => if u = v then { x with nextMove := o } else x :=
  vehicle_updVehicle v u (fun x => { x with nextMove := o }) s fun _ h => h
@[simp] theorem vehicle_setCarrier (o : Option Nat) :
    vehicle (setCarrier v o s) u = (vehicle s u).map fun x => if u = v then { x with carrier := o } else x :=
  vehicle_updVehicle v u (fun x => { x with carrier := o }) s fun _ h => h

theorem setWork_eq (w : WorkState) (x : Vehicle) : x.setWork w = { x with state := worksAs w x.state } := by
  unfold Vehicle.setWork
  split
  next h => rw [h]; rfl
  next h => rw [h]; rfl
  next hf hl =>
    unfold worksAs
    split
    next h => exact absurd h (hf _)
    next h => exact absurd h (hl _ _)
    next => rfl

@[simp] theorem vehicle_enterWork (w : WorkState) :
    vehicle (enterWork v w s) u = (vehicle s u).map fun x => if u = v then { x with state := worksAs w x.state } else x := by
  rw [enterWork, vehicle_noteEligible, vehicle_updVehicle v u (Vehicle.setWork w) s fun x h => by rw [setWork_eq]; exact h]
  simp only [setWork_eq]

@[simp] theorem vehicle_changeDue (f : DueSet → DueSet) :
    vehicle (updDue v f s) u = (vehicle s u).map fun x => if u = v then { x with due := f x.due } else x :=
  vehicle_updVehicle v u (fun x => { x with due := f x.due }) s fun _ h => h
@[simp] theorem vehicle_relink (item : LineItem) (l : Link) : vehicle (relink item l s) u = vehicle s u := rfl
@[simp] theorem vehicle_uncarry (w : Nat) : vehicle (uncarry w m s) u = vehicle s u := rfl

@[simp] theorem vehicle_makeWithdrawDue :
    vehicle (makeWithdrawDue v m s) u = (vehicle s u).map fun x =>
      if u = v then { x with due := { x.due with withdraw := addWithdraw m x.due.withdraw, withdrawCount := 0 } } else x := by
  rw [makeWithdrawDue, vehicle_uncarry, vehicle_relink, vehicle_changeDue]
@[simp] theorem vehicle_discardWithdraw :
    vehicle (discardWithdraw v m s) u = (vehicle s u).map fun x =>
      if u = v then { x with due := { x.due with withdraw := x.due.withdraw.filter (· ≠ m) } } else x := by
  rw [discardWithdraw, vehicle_uncarry, vehicle_changeDue]
@[simp] theorem vehicle_discardAssign :
    vehicle (discardAssign v s) u = (vehicle s u).map fun x =>
      if u = v then { x with due := { x.due with assign := none } } else x := by
  rw [discardAssign, vehicle_relink, vehicle_changeDue]
@[simp] theorem vehicle_makeAssignDue :
    vehicle (makeAssignDue v m s) u = (vehicle s u).map fun x =>
      if u = v then { x with due := { x.due with withdraw := x.due.withdraw.filter (· ≠ m), assign := some 0 } } else x := by
  rw [makeAssignDue, vehicle_relink, vehicle_changeDue, vehicle_discardWithdraw, Option.map_map]
  congr 1
  funext x
  by_cases h : u = v <;> simp [h]
@[simp] theorem vehicle_liftHold :
    vehicle (liftHold v s) u = (vehicle s u).map fun x =>
      if u = v then { x with due := { x.due with hold := none, stopMark := false } } else x := by
  rw [liftHold, vehicle_relink, vehicle_changeDue]
@[simp] theorem vehicle_leaveWaits : vehicle (leaveWaits v s) u = vehicle s u := rfl
@[simp] theorem vehicle_sendPeer (dst kind tag seg w : Nat) (extra : List Byte) :
    vehicle (sendPeer dst kind tag seg w extra s) u = vehicle s u := vehicle_congr (sendPeer_rest _ _ _ _ _ _ _).2.2.2.1 u

/-- A HOLD due to a vehicle without a record leaves the roster as it was. -/
@[simp] theorem vehicle_makeHoldDue :
    vehicle (makeHoldDue v s) u = (vehicle s u).map fun x =>
      if u = v then { x with due := { x.due with hold := some 0, stopMark := true } } else x := by
  unfold makeHoldDue
  split
  · rw [vehicle_relink, vehicle_changeDue]
  next h =>
    have hnone : vehicle s v = none := by simpa [inRoster_eq] using h
    show vehicle s u = _
    cases hx : vehicle s u with
    | none => rfl
    | some x =>
      have hne : u ≠ v := fun h => by rw [h, hnone] at hx; cases hx
      simp [hne]

end

theorem mem_addWithdraw (m : Nat) (ids : List Nat) : m ∈ addWithdraw m ids := by
  unfold addWithdraw
  split
  · assumption
  · split <;> simp

/-! ### Operations that leave the moves alone -/

section
variable (v m k : Nat) (s : State)

@[simp] theorem findMove_updVehicle (f : Vehicle → Vehicle) : findMove (updVehicle v f s) k = findMove s k := rfl
@[simp] theorem findMove_setMoveField (o : Option Nat) : findMove (setMoveField v o s) k = findMove s k := rfl
@[simp] theorem findMove_setNextMove (o : Option Nat) : findMove (setNextMove v o s) k = findMove s k := rfl
@[simp] theorem findMove_setCarrier (o : Option Nat) : findMove (setCarrier v o s) k = findMove s k := rfl
@[simp] theorem findMove_noteEligible : findMove (noteEligible v s) k = findMove s k := by
  unfold noteEligible
  split
  · exact findMove_setPassDue k s
  · rfl
@[simp] theorem findMove_enterWork (w : WorkState) : findMove (enterWork v w s) k = findMove s k :=
  findMove_noteEligible v k _
@[simp] theorem findMove_makeWithdrawDue : findMove (makeWithdrawDue v m s) k = findMove s k := rfl
@[simp] theorem findMove_discardWithdraw : findMove (discardWithdraw v m s) k = findMove s k := rfl
@[simp] theorem findMove_discardAssign : findMove (discardAssign v s) k = findMove s k := rfl
@[simp] theorem findMove_makeAssignDue : findMove (makeAssignDue v m s) k = findMove s k := rfl
@[simp] theorem findMove_makeHoldDue : findMove (makeHoldDue v s) k = findMove s k := by
  unfold makeHoldDue
  split <;> rfl
@[simp] theorem findMove_liftHold : findMove (liftHold v s) k = findMove s k := rfl
@[simp] theorem findMove_leaveWaits : findMove (leaveWaits v s) k = findMove s k := rfl

@[simp] theorem preempts_noteEligible : (noteEligible v s).asu.preempts = s.asu.preempts := by
  unfold noteEligible
  split
  · exact preempts_setPassDue s
  · rfl
@[simp] theorem preempts_enterWork (w : WorkState) : (enterWork v w s).asu.preempts = s.asu.preempts :=
  preempts_noteEligible v _

end

/-! ### What raising events, running tasks and building paths leave -/

/-- From `s` to `t` vehicles were tended and an ARRIVING one may be new; moves at most have their deadline suspended; the
preemption list stands; the mode at most became HALTED, and a pass that is due stays due without that. -/
structure Onward (s t : State) : Prop where
  vehicles : ∀ v x, vehicle s v = some x → ∃ y, vehicle t v = some y ∧ Tended x y
  newcomers : ∀ v y, vehicle s v = none → vehicle t v = some y → y.state = .arriving ∧ y.move = none
  moves : MovesKept s t
  preempts : t.asu.preempts = s.asu.preempts
  board : t.board = s.board
  layout : t.layout = s.layout
  identity : t.mc.identity = s.mc.identity
  passRunning : t.asu.passRunning = s.asu.passRunning
  mode : t.mode = s.mode ∨ t.mode = .halted
  passDue : t.mode = s.mode → t.asu.passDue = s.asu.passDue
  sent : Unreported s t

theorem Onward.refl (s : State) : Onward s s where
  vehicles _ x h := ⟨x, h, .refl x⟩
  newcomers v y hn hy := by rw [hn] at hy; cases hy
  moves := .refl s
  preempts := rfl
  board := rfl
  layout := rfl
  identity := rfl
  passRunning := rfl
  mode := .inl rfl
  passDue _ := rfl
  sent := unreported_of_fli rfl

theorem onward_of_worked {s t : State} (h : Worked s t) : Onward s t where
  vehicles := h.vehicles
  newcomers := h.newcomers
  moves := movesKept_of_worked h
  preempts := h.preempts
  board := h.board
  layout := h.layout
  identity := by
    obtain hmc | ⟨-, -, hmc⟩ := h.mc <;> rw [hmc]
  passRunning := h.passRunning
  mode := by
    by_cases hm : t.mode = s.mode
    · exact .inl hm
    · exact .inr (h.mode_of_ne hm).2
  passDue hm := (h.stays hm).2.1
  sent := h.sent

theorem onward_of_raised {s t : State} (h : Raised s t) (hsent : Unreported s t) : Onward s t := by
  have hroster : t.roster = s.roster ∧ t.board = s.board ∧ t.layout = s.layout ∧ t.mc.identity = s.mc.identity
      ∧ t.asu.passRunning = s.asu.passRunning := by
    cases h with
    | reported h =>
      rw [show t = { s with su := t.su, fli := t.fli } from h]
      exact ⟨rfl, rfl, rfl, rfl, rfl⟩
    | deferred _ _ h =>
      rw [h]
      exact ⟨rfl, rfl, rfl, rfl, rfl⟩
    | halted _ _ h =>
      have henter := entersHalted_enterHalted s
      rw [h]
      exact ⟨henter.roster, (enterHalted_rest s).1, henter.layout, by rw [enterHalted_mc],
        (congrArg Asu.passRunning henter.pass : (enterHalted s).asu.passRunning = _)⟩
  obtain ⟨hroster, hboard, hlayout, hidentity, hpass⟩ := hroster
  exact
    { vehicles := fun v x hx => ⟨x, by rw [vehicle_congr hroster, hx], .refl x⟩
      newcomers := fun v y hn hy => by rw [vehicle_congr hroster, hn] at hy; cases hy
      moves := movesKept_of_raised h
      preempts := preempts_of_raised h
      board := hboard
      layout := hlayout
      identity := hidentity
      passRunning := hpass
      mode := by
        cases h with
        | reported h => exact .inl h.mode
        | deferred _ _ h => exact .inl (mode_of_deferred h).1
        | halted _ _ h => exact .inr (mode_of_halted h)
      passDue := fun hm => by
        cases h with
        | reported h => rw [show t = { s with su := t.su, fli := t.fli } from h]
        | deferred _ _ h => rw [h]
        | halted hmode _ h => rw [mode_of_halted h, hmode] at hm; cases hm
      sent := hsent }

theorem Onward.trans {s t u : State} (h : Onward s t) (k : Onward t u) : Onward s u where
  vehicles v x hx := by
    obtain ⟨y, hy, hxy⟩ := h.vehicles v x hx
    obtain ⟨z, hz, hyz⟩ := k.vehicles v y hy
    exact ⟨z, hz, hxy.trans hyz⟩
  newcomers v z hn hz := by
    cases hy : vehicle t v with
    | none => exact k.newcomers v z hy hz
    | some y =>
      obtain ⟨z', hz', hyz⟩ := k.vehicles v y hy
      cases hz.symm.trans hz'
      have := h.newcomers v y hn hy
      rwa [hyz.rest]
  moves := h.moves.trans k.moves
  preempts := k.preempts.trans h.preempts
  board := k.board.trans h.board
  layout := k.layout.trans h.layout
  identity := k.identity.trans h.identity
  passRunning := k.passRunning.trans h.passRunning
  mode := by
    obtain k | k := k.mode
    · exact h.mode.imp k.trans k.trans
    · exact .inr k
  passDue hm := by
    have ht : t.mode = s.mode := by
      obtain h | h := h.mode
      · exact h
      · obtain k | k := k.mode
        · exact k.symm.trans hm
        · rw [h, ← k, hm]
    exact (k.passDue (hm.trans ht.symm)).trans (h.passDue ht)
  sent := h.sent.trans k.sent

theorem onward_raise (k : EventKind) (d : Detail) (s : State) : Onward s (raise k d s) :=
  onward_of_raised (raised_raise k d s) (unreported_raise k d s)

theorem onward_rebuild (v : Nat) (s : State) : Onward s (rebuild v s) := onward_of_worked (worked_rebuildWith _ v s)

theorem onward_run (ts : List Task) (s : State) : Onward s (run ts s) := onward_of_worked (worked_run ts s)

theorem Onward.vehicle {s t : State} (h : Onward s t) {v : Nat} {x : Vehicle} (hx : vehicle s v = some x) :
    ∃ y, Machine.vehicle t v = some y ∧ Tended x y := h.vehicles v x hx

end Sys2Proof.Machine

/-! PROOFS. Frames of present vehicles (R68, R78, R149); CONFIRM and the confirm deadline (R100, R102, R107). -/

namespace Sys2Proof.Machine

open Sys2Proof.Says

/-! ### A frame of a known vehicle is heard (R64, R78, R149) -/

/-- The record of a vehicle as its frame is handled: R149's flag and R78's deadline. -/
def hearing (s : State) (e : TrackEntry) (x : Vehicle) : Vehicle :=
  { x with
    pacing := e.paced
    heardBy := match x.state with
      | .work _ => some (s.board.now + s.layout.tuning.tSilent)
      | .faulted _ => some (s.board.now + s.layout.tuning.tSilent)
      | _ => x.heardBy }

section
variable {s : State} {e : TrackEntry} {rest : List TrackEntry} {x : Vehicle}

theorem noteFrame_popTrack (s : State) (e : TrackEntry) (rest : List TrackEntry) :
    noteFrame e (popTrack rest s) = heard s e rest := by
  have hfun : (fun y : Vehicle => { y with
      pacing := e.paced
      heardBy := if y.hasDeadline then heardFromNow (popTrack rest s) else y.heardBy }) = hearing s e := by
    funext y
    unfold hearing Vehicle.hasDeadline
    cases y.state <;> rfl
  unfold noteFrame
  rw [hfun]
  rfl

/-- What the frame leaves of any vehicle's record. -/
theorem vehicle_heard_eq (u : Nat) :
    vehicle (heard s e rest) u = (vehicle s u).map fun x => if u = e.src then hearing s e x else x :=
  vehicle_updVehicle e.src u (hearing s e) (popTrack rest s) fun _ h => h

theorem vehicle_heard (hx : vehicle s e.src = some x) : vehicle (heard s e rest) e.src = some (hearing s e x) := by
  simp [vehicle_heard_eq, hx]

theorem vehicle_heard_of_ne {u : Nat} (h : u ≠ e.src) : vehicle (heard s e rest) u = vehicle s u := by
  simp [vehicle_heard_eq, h]

@[simp] theorem findMove_heard (k : Nat) : findMove (heard s e rest) k = findMove s k := rfl

theorem restoreLost_of_present (b : Bool) {v seg : Nat} {t : State} (hx : vehicle t v = some x)
    (h : ∀ w m, x.state ≠ .lost w m) : restoreLost b v seg t = (t, true) := by
  unfold restoreLost
  rw [hx]
  dsimp only
  split
  next hl => exact absurd hl (h _ _)
  next => rfl

/-- A STATUS of a present vehicle reaches the rule for its event. -/
theorem takeStatus_of_present {h : Nat → StatusData → State → State} {ev : StatusEvent} {seg m carrier : Nat} {b : Bool}
    (hb : e.body = .status ev seg m b carrier) (hx : vehicle s e.src = some x) (hp : Present x) :
    takeStatus h e (popTrack rest s) =
      h e.src { seg := seg, move := m, grip := { present := b, carrier := carrier } } (heard s e rest) := by
  unfold takeStatus
  rw [hb]
  dsimp only
  rw [show vehicle (popTrack rest s) e.src = some x from hx]
  dsimp only
  rw [if_neg hp.1, noteFrame_popTrack, restoreLost_of_present false (vehicle_heard hx) hp.2]
  rfl

/-- What the rule for a STATUS is given. -/
def dataOf (d : Said) : StatusData :=
  { seg := d.seg, move := d.move, grip := { present := d.present, carrier := d.carrier } }

theorem statusRow_of_present {h : Nat → StatusData → State → State} {ev : StatusEvent} {d : Said}
    (hs : TakesStatus s e rest ev d x) :
    statusRow ev h s = h e.src (dataOf d) (heard s e rest) := by
  obtain ⟨htake, hb, hx, hp⟩ := hs
  rw [statusRow, takeTrack_of_taken htake (by rw [hb]; simp [isStatus])]
  exact takeStatus_of_present hb hx hp

/-- The move a STATUS names, where it is the vehicle's own. -/
theorem concerned_of_concerns {v : Nat} {t : State} {m : Nat} {y : Move} (hx : vehicle t v = some x)
    (hm : x.move = some m) (hy : findMove t m = some y) : concerned t v m = some y := by
  unfold concerned
  rw [hx]
  dsimp only
  rw [if_pos hm, hy]

theorem concerned_of_ne {v : Nat} {t : State} {m : Nat} (hx : vehicle t v = some x) (hm : x.move ≠ some m) :
    concerned t v m = none := by
  unfold concerned
  rw [hx]
  exact if_neg hm

theorem concerned_heard {m : Nat} {y : Move} (hx : vehicle s e.src = some x)
    (hm : x.move = some m) (hy : findMove s m = some y) : concerned (heard s e rest) e.src m = some y :=
  concerned_of_concerns (vehicle_heard hx) hm hy

theorem concerned_heard_of_ne {m : Nat} (hx : vehicle s e.src = some x) (hm : x.move ≠ some m) :
    concerned (heard s e rest) e.src m = none := concerned_of_ne (vehicle_heard hx) hm

end

/-! ### CONFIRM (R102, R107) -/

/-- A WITHDRAW made due to a vehicle (R107, R151). -/
theorem vehicle_makeWithdrawDue_same {v : Nat} {m : Nat} {s : State} {x : Vehicle} (hx : vehicle s v = some x) :
    ∃ y, vehicle (makeWithdrawDue v m s) v = some y ∧ m ∈ y.due.withdraw ∧ y.state = x.state ∧ y.move = x.move
      ∧ y.due.withdraw = addWithdraw m x.due.withdraw := by
  rw [vehicle_makeWithdrawDue, hx]
  exact ⟨_, rfl, by simpa using mem_addWithdraw m _, by simp, by simp, by simp⟩

theorem length_addWithdraw (m : Nat) (ids : List Nat) : (addWithdraw m ids).length ≤ max 6 ids.length := by
  unfold addWithdraw
  split
  · omega
  · split
    next h =>
      have : ids.length < 6 := h
      simp only [List.length_append, List.length_singleton]
      omega
    next h =>
      simp only [List.length_append, List.length_singleton, List.length_tail]
      omega

/-- The entries of the preemption list that survive a change of move `m`. -/
theorem mem_preempts_changeMove {m : Nat} {x : Move} {f : Move → Move} {s : State} (hx : findMove s m = some x)
    {q : Preemption} (hq : q ∈ s.asu.preempts) (hne : q.newMove ≠ m) {z : Move}
    (hz : findMove s q.newMove = some z) (hstate : z.state = .assigned) (hvehicle : z.vehicle = some q.vehicle) :
    q ∈ (changeMove m f s).asu.preempts := by
  rw [changeMove_eq f hx, preempts_reportMove]
  refine List.mem_filter.2 ⟨hq, List.any_eq_true.2 ⟨z, List.mem_map.2 ⟨z, (findMove_id hz).2, ?_⟩, ?_⟩⟩
  · rw [if_neg fun h => hne ((findMove_id hz).1.symm.trans h)]
  · simp [(findMove_id hz).1, hstate, hvehicle]

/-! ### A move takes a state of its own (R92) -/

section
variable {m k : Nat} {st : MState} {y : Move} {s : State}

theorem findMove_toMoveState (hy : findMove s m = some y) (hst : st ≠ .assigned) :
    findMove (toMoveState m st s) m = some { y with state := st, confirm := .absent } :=
  findMove_changeMove (f := fun z => { z with state := st }) hy (findMove_id hy).1 hst

@[simp] theorem vehicle_toMoveState (u : Nat) : vehicle (toMoveState m st s) u = vehicle s u := vehicle_changeMove _ _ _ _

theorem preempts_toMoveState (hy : findMove s m = some y) (hst : st ≠ .assigned) :
    ∀ q ∈ (toMoveState m st s).asu.preempts, q ∈ s.asu.preempts ∧ q.newMove ≠ m :=
  preempts_changeMove (f := fun z => { z with state := st }) hy hst

theorem fli_toMoveState (hy : findMove s m = some y) (h : occupancy s < 56) :
    (toMoveState m st s).fli =
      (sending s (moveReport s m (ReportState.now st).code (y.vehicle.getD 0) y.age)).fli :=
  fli_changeMove _ hy h

theorem toMoveState_rest (m : Nat) (st : MState) (s : State) :
    (toMoveState m st s).board = s.board ∧ (toMoveState m st s).layout = s.layout ∧ (toMoveState m st s).srt = s.srt
      ∧ (toMoveState m st s).roster = s.roster ∧ (toMoveState m st s).bxu = s.bxu := by
  unfold toMoveState
  simp

end

/-- Settles O45: by the state of the move, or the WITHDRAW of a move that is not the vehicle's. -/
theorem confirmMakesEnroute : Obligations.ConfirmMakesEnroute := by
  intro s e rest d x hs
  have hrun : exec .statusConfirm s = .next (takeConfirm e.src d.move (heard s e rest)) :=
    congrArg Host.Outcome.next (statusRow_of_present hs)
  obtain ⟨-, -, hx, -⟩ := hs
  refine ⟨fun y hy hstate => ?_, fun y hy hstate => ?_, fun hne => ?_⟩
  · obtain ⟨hm, hy⟩ := hy
    have hy' : findMove (heard s e rest) d.move = some y := hy
    have hnext : takeConfirm e.src d.move (heard s e rest) =
        toMoveState d.move .enroute (heard s e rest) := by
      unfold takeConfirm
      rw [concerned_heard hx hm hy]
      exact if_pos hstate
    obtain ⟨-, -, hsrt, -, hbxu⟩ := toMoveState_rest d.move .enroute (heard s e rest)
    refine ⟨_, by rw [hrun, hnext], findMove_toMoveState hy' (by nofun), vehicle_toMoveState _, hsrt, hbxu,
      preempts_toMoveState hy' (by nofun), ?_, ?_⟩
    · intro q hq z hne hz hstate hvehicle
      exact mem_preempts_changeMove hy' hq hne hz hstate hvehicle
    · intro hroom
      rw [fli_toMoveState hy' hroom]
      rfl
  · obtain ⟨hm, hy⟩ := hy
    rw [hrun]
    unfold takeConfirm
    rw [concerned_heard hx hm hy]
    exact congrArg _ (if_neg hstate)
  · have hnext : takeConfirm e.src d.move (heard s e rest) = withdrawNamed e.src d.move (heard s e rest) := by
      unfold takeConfirm
      rw [concerned_heard_of_ne hx hne]
    refine ⟨fun h0 => by rw [hrun, hnext, withdrawNamed, if_pos h0], fun h0 => ?_⟩
    obtain ⟨y, hy, hmem, hstate, -, hlist⟩ := vehicle_makeWithdrawDue_same (m := d.move) (vehicle_heard (rest := rest) hx)
    refine ⟨_, y, by rw [hrun, hnext, withdrawNamed, if_neg h0], hy, hmem, ?_, hstate, rfl, rfl⟩
    rw [hlist]
    exact length_addWithdraw _ _

/-! ### A vehicle is released from its move (R100, R107, R108) -/

/-- The path build of a change of working state leaves the rest of the record. -/
theorem onward_enterAndBuild (v : Nat) (w : WorkState) (s : State) : Onward (enterWork v w s) (enterAndBuild v w s) :=
  onward_rebuild v _

/-- The record of a vehicle that loses its move. -/
theorem vehicle_releaseVehicle {v : Nat} {s : State} {x : Vehicle} (hx : vehicle s v = some x) :
    ∃ y, vehicle (releaseVehicle v s) v = some y
      ∧ Tended { x with move := none, state := worksAs .idle x.state } y := by
  have hset : vehicle (enterWork v .idle (setMoveField v none s)) v =
      some { x with move := none, state := worksAs .idle x.state } := by
    simp [hx]
  exact (onward_enterAndBuild v .idle _).vehicle hset

/-- A released vehicle leaves moves and the preemption list as an entry to HALTED leaves them. -/
theorem movesKept_releaseVehicle (v : Nat) (s : State) : MovesKept s (releaseVehicle v s) := by
  refine MovesKept.trans (t := enterWork v .idle (setMoveField v none s)) (.inl ?_) (onward_enterAndBuild v .idle _).moves
  unfold enterWork noteEligible
  split
  · rw [(setPassDue_rest _).2.2.2.2.1]
    rfl
  · rfl

theorem preempts_releaseVehicle (v : Nat) (s : State) : (releaseVehicle v s).asu.preempts = s.asu.preempts :=
  (onward_enterAndBuild v .idle (setMoveField v none s)).preempts.trans (preempts_enterWork v _ _)

/-- A vehicle whose ASSIGN is discarded and to which a WITHDRAW for `m` is due, as it is released. -/
theorem vehicle_withdrawn {v m : Nat} {s : State} {x : Vehicle} (hx : vehicle s v = some x) :
    ∃ y, vehicle (releaseVehicle v (discardAssign v (makeWithdrawDue v m s))) v = some y ∧ y.move = none
      ∧ y.state = worksAs .idle x.state ∧ m ∈ y.due.withdraw ∧ y.due.assign = none := by
  have hset : vehicle (discardAssign v (makeWithdrawDue v m s)) v = some { x with due := { x.due with
      withdraw := addWithdraw m x.due.withdraw, withdrawCount := 0, assign := none } } := by
    simp [hx]
  obtain ⟨y, hy, ht⟩ := vehicle_releaseVehicle hset
  rw [ht.rest] at hy
  exact ⟨_, hy, rfl, rfl, mem_addWithdraw m _, rfl⟩

end Sys2Proof.Machine

/-! PROOFS. CANCEL by the state of the move (R108, R123, R126). -/

namespace Sys2Proof.Machine

open Sys2Proof.Says

section
variable {s : State} {f : FloorFrame} {rest : List FloorFrame} {m : Nat}

theorem exec_cancel_of_serve {t : State} {code : Code} (hs : Takes s f rest) (hkind : f.kind = 0x21)
    (hpayload : f.payload = bytes2 m) (hm : m < 65536)
    (hh : serveCancel f m (openRequest rest s) = (t, some (Reply.bare code))) :
    exec .cancel s = .next (closed f code t) := by
  refine congrArg Host.Outcome.next (serveRequest_eq_closed hs (isKind_of_eq hkind) ?_)
  rw [withPayload_of_read (by rw [hpayload]; exact readNum2_bytes2 hm), hh]

theorem serveCancel_of_known {x : Move} (hin : dispatchRefused s = false) (hm : m ≠ 0) (hx : findMove s m = some x)
    (f : FloorFrame) :
    serveCancel f m s = (cancelMove x s).elim (refuse .refusedLaden s) done := by
  rw [serveCancel, if_neg (by simp [hin]), if_neg hm]
  simp only [hx]
  cases cancelMove x s <;> rfl

end

/-- An ASSIGNED-NEXT move leaves the vehicle it was next for. -/
theorem cancelMove_assignedNext {x : Move} {s : State} (h : x.state = .assignedNext) :
    ∃ t, cancelMove x s = some t ∧ findMove t x.id = none
      ∧ ∀ u y, x.vehicle = some u → vehicle s u = some y → vehicle t u = some { y with nextMove := none } := by
  unfold cancelMove
  rw [h]
  refine ⟨_, rfl, ?_, fun u y hu hy => ?_⟩
  · cases x.vehicle with
    | none => exact findMove_removeMove _ _ s
    | some u => simp [findMove_removeMove]
  · simp [hu, hy]

/-- An ASSIGNED or ENROUTE move is taken off its vehicle and removed. -/
theorem cancelMove_assigned {x : Move} {s : State} (h : x.state = .assigned ∨ x.state = .enroute)
    (hx : findMove s x.id = some x) :
    ∃ t, cancelMove x s = some t ∧ findMove t x.id = none ∧ (∀ q ∈ t.asu.preempts, q.newMove ≠ x.id)
      ∧ ∀ u y, x.vehicle = some u → vehicle s u = some y → ∃ z, vehicle t u = some z ∧ z.move = none
        ∧ z.state = worksAs .idle y.state ∧ x.id ∈ z.due.withdraw ∧ z.due.assign = none := by
  have hcancel : cancelMove x s = some (match x.vehicle with
      | some u => removeMove x.id .cancelled (releaseVehicle u (discardAssign u (makeWithdrawDue u x.id s)))
      | none => removeMove x.id .cancelled s) := by
    unfold cancelMove
    obtain h | h := h <;> rw [h] <;> rfl
  rw [hcancel]
  refine ⟨_, rfl, ?_, ?_, ?_⟩
  · cases x.vehicle with
    | none => exact findMove_removeMove _ _ s
    | some u => exact findMove_removeMove _ _ _
  · cases x.vehicle with
    | none => exact fun q hq => (preempts_removeMove .cancelled hx q hq).2
    | some u =>
      obtain ⟨y, hy, -⟩ := ((movesKept_releaseVehicle u (discardAssign u (makeWithdrawDue u x.id s))).move x.id).some
        (show _ = some x from hx)
      exact fun q hq => (preempts_removeMove .cancelled hy q hq).2
  · intro u y hu hy
    rw [hu]
    dsimp only
    rw [vehicle_removeMove]
    exact vehicle_withdrawn hy

/-- Settles O10: by the state of the move. -/
theorem cancelByState : Obligations.CancelByState := by
  intro s f rest m hs hkind hpayload hm hin
  have hservice : dispatchRefused (openRequest rest s) = false := dispatchRefused_of_inService hin
  have hexec : ∀ {t code}, serveCancel f m (openRequest rest s) = (t, some (Reply.bare code)) →
      exec .cancel s = .next (closed f code t) := exec_cancel_of_serve hs hkind hpayload hm
  refine ⟨fun h0 => ?_, fun h1 hnone => ?_, fun x h1 hx => ?_⟩
  · rw [← closed_openRequest]
    refine hexec ?_
    rw [serveCancel, if_neg (by simp [hservice]), if_pos h0]
    rfl
  · have hnone' : findMove (openRequest rest s) m = none := hnone
    rw [← closed_openRequest]
    refine hexec ?_
    rw [serveCancel, if_neg (by simp [hservice]), if_neg (by omega)]
    simp only [hnone'] <;> rfl
  obtain ⟨rfl, -⟩ := findMove_id hx
  have hx' : findMove (openRequest rest s) x.id = some x := hx
  have hserve := serveCancel_of_known hservice (by omega) hx' f
  have htaken : ∀ {t}, cancelMove x (openRequest rest s) = some t → exec .cancel s = .next (closed f .done t) :=
    fun ht => hexec (by rw [hserve, ht]; rfl)
  refine ⟨fun h => htaken ?_, fun h => ?_, fun h => ?_, fun h => htaken ?_, fun h => ?_⟩
  · unfold cancelMove
    rw [h, ← removeMove_eq .cancelled hx']
  · obtain ⟨t, ht, hgone, hnext⟩ := cancelMove_assignedNext (s := openRequest rest s) h
    exact ⟨_, htaken ht, endsWithReply_closed _ _ _, hgone, hnext⟩
  · obtain ⟨t, ht, hgone, hpre, hvehicle⟩ := cancelMove_assigned h hx'
    refine ⟨_, htaken ht, endsWithReply_closed _ _ _, hgone, hpre, fun u y hu hy => ?_⟩
    obtain ⟨z, hz, hmove, hstate, hmem, hassign⟩ := hvehicle u y hu hy
    exact ⟨z, hz, hmove, by rw [hstate, setWork_eq], hmem, hassign⟩
  · unfold cancelMove
    rw [h]
    dsimp only
    rw [changeMove_eq _ hx']
    rfl
  · have hnone : cancelMove x (openRequest rest s) = none := by
      unfold cancelMove
      obtain h | h | h | h := h <;> rw [h]
    rw [← closed_openRequest]
    exact hexec (by rw [hserve, hnone]; rfl)

end Sys2Proof.Machine

/-! PROOFS. A vehicle leaves service: its wait and its claim in phase CLAIMING go, and the segment of the claim, FOREIGN
again, is arbitrated (R34, R35, R67, R134). -/

namespace Sys2Proof.Machine

open Sys2Proof.Says

/-! ### Reports leave room for peer frames (R161) -/

/-- From `s` to `t` reports were made, and vehicles, moves, the time and the mode changed: the segments, the claims and
the layout stay, and reports alone fill no queue. -/
structure Reporting (s t : State) : Prop where
  srt : t.srt = s.srt
  bxu : t.bxu = s.bxu
  layout : t.layout = s.layout
  identity : t.mc.identity = s.mc.identity
  mode : t.mode = s.mode ∨ t.mode = .halted
  outbound : s.fli.outbound <+: t.fli.outbound
  room : occupancy s < 64 → occupancy t < 64

theorem Reporting.refl (s : State) : Reporting s s := ⟨rfl, rfl, rfl, rfl, .inl rfl, List.prefix_rfl, id⟩

theorem Reporting.trans {s t u : State} (h : Reporting s t) (k : Reporting t u) : Reporting s u where
  srt := k.srt.trans h.srt
  bxu := k.bxu.trans h.bxu
  layout := k.layout.trans h.layout
  identity := k.identity.trans h.identity
  mode := k.mode.elim (fun km => h.mode.imp km.trans km.trans) .inr
  outbound := h.outbound.trans k.outbound
  room hs := k.room (h.room hs)

theorem Reporting.unarbitrated {s t : State} (h : Reporting s t) (hs : Unarbitrated s) : Unarbitrated t :=
  hs.imp (fun hm => h.mode.elim (fun h => by rw [h]; exact hm) fun h => by rw [h]; nofun) fun hw => by rw [h.srt]; exact hw

theorem reporting_of_same {s t : State} (hsrt : t.srt = s.srt) (hbxu : t.bxu = s.bxu) (hlayout : t.layout = s.layout)
    (hmc : t.mc = s.mc) (hfli : t.fli = s.fli) : Reporting s t :=
  ⟨hsrt, hbxu, hlayout, by rw [hmc], .inl (congrArg Mc.mode hmc), hfli ▸ List.prefix_rfl, fun h => by
    rw [occupancy_congr hfli]; exact h⟩

theorem room_pushOut {s : State} (f : FloorFrame) (h : occupancy s < Config.reportLimit) : occupancy (pushOut f s) < 64 := by
  have h : occupancy s < 56 := h
  simp only [occupancy, pushOut, State.updFli, List.length_append, List.length_singleton] at h ⊢
  omega

theorem room_occur {note : Detail → State → State} (hnote : ∀ d s, occupancy s < 64 → occupancy (note d s) < 64)
    {k : EventKind} {d : Detail} {s : State} (h : occupancy s < 64) : occupancy (occur note k d s) < 64 := by
  rw [occupancy_congr (occur_fli note k d s)]
  unfold noticed
  split
  · exact h
  · split
    · exact h
    · exact hnote _ _ h

theorem room_notifyLost {d : Detail} {s : State} (h : occupancy s < 64) : occupancy (notifyLost d s) < 64 := by
  unfold notifyLost
  split
  next hr => exact room_pushOut _ hr
  next => exact room_occur (fun _ _ h => h) h

theorem room_raise {k : EventKind} {d : Detail} {s : State} (h : occupancy s < 64) : occupancy (raise k d s) < 64 :=
  room_occur (fun d s h => by
    unfold notify
    split
    next hr => exact room_pushOut _ hr
    next => exact room_occur (fun _ _ => room_notifyLost) h) h

theorem reporting_raise (k : EventKind) (d : Detail) (s : State) : Reporting s (raise k d s) := by
  obtain ⟨-, hlayout, hsrt, -, hbxu, -⟩ := raise_rest k d s
  exact ⟨hsrt, hbxu, hlayout, (onward_raise k d s).identity, (onward_raise k d s).mode, (acts_raise k d s).outbound, room_raise⟩

theorem reporting_reportMove (m : Nat) (st : ReportState) (v a : Nat) (s : State) : Reporting s (reportMove m st v a s) := by
  unfold reportMove
  split
  next hr => exact ⟨rfl, rfl, rfl, rfl, .inl rfl, List.prefix_append _ _, fun _ => room_pushOut _ hr⟩
  next => exact reporting_raise _ _ s

theorem reporting_setMove (m : Nat) (f : Move → Move) (s : State) : Reporting s (setMove m f s) :=
  reporting_of_same rfl rfl rfl rfl rfl

theorem reporting_changeMove (m : Nat) (f : Move → Move) (s : State) : Reporting s (changeMove m f s) := by
  cases hx : findMove s m with
  | none =>
    unfold changeMove
    rw [hx]
    exact .refl s
  | some x =>
    rw [changeMove_eq f hx]
    exact (reporting_setMove m _ s).trans (reporting_reportMove _ _ _ _ _)

theorem reporting_removeMove (m : Nat) (out : ReportState) (s : State) : Reporting s (removeMove m out s) := by
  cases hx : findMove s m with
  | none =>
    unfold removeMove
    rw [hx]
    exact .refl s
  | some x =>
    rw [removeMove_eq out hx]
    exact Reporting.trans (t := deleteMove m s) (reporting_of_same rfl rfl rfl rfl rfl) (reporting_reportMove _ _ _ _ _)

theorem reporting_setPassDue (s : State) : Reporting s (setPassDue s) := by
  rw [setPassDue_eq]
  exact reporting_of_same rfl rfl rfl rfl rfl

theorem reporting_returnToWaiting (m : Nat) (s : State) : Reporting s (returnToWaiting m s) :=
  (reporting_changeMove m _ s).trans (reporting_setPassDue _)

theorem reporting_updVehicle (v : Nat) (f : Vehicle → Vehicle) (s : State) : Reporting s (updVehicle v f s) :=
  reporting_of_same rfl rfl rfl rfl rfl

theorem reporting_giveUpNext (v : Nat) (s : State) : Reporting s (giveUpNext v s) := by
  unfold giveUpNext
  split
  · exact .refl s
  · split
    · exact .refl s
    · exact Reporting.trans (t := setNextMove v none s) (reporting_updVehicle v _ s) (reporting_returnToWaiting _ _)

theorem reporting_makeHoldDue (v : Nat) (s : State) : Reporting s (makeHoldDue v s) := by
  unfold makeHoldDue
  split <;> exact reporting_of_same rfl rfl rfl rfl rfl

theorem reporting_reachTime (t : Nat) (s : State) : Reporting s (reachTime t s) := reporting_of_same rfl rfl rfl rfl rfl

/-! ### A next move given up (R67, R98) -/

theorem vehicle_giveUpNext {v : Nat} {s : State} {x : Vehicle} (hx : vehicle s v = some x) :
    vehicle (giveUpNext v s) v = some { x with nextMove := none } := by
  unfold giveUpNext
  rw [hx]
  dsimp only
  split
  next h => rw [hx, ← h]
  next => simp [hx]

theorem giveUpNext_of_none {v : Nat} {s : State} (h : ∀ x, vehicle s v = some x → x.nextMove = none) :
    giveUpNext v s = s := by
  unfold giveUpNext
  split
  · rfl
  next x hx => rw [h x hx]

theorem giveUpNext_of_some {v n : Nat} {s : State} {x : Vehicle} (hx : vehicle s v = some x) (hn : x.nextMove = some n) :
    giveUpNext v s = returnToWaiting n (setNextMove v none s) := by
  unfold giveUpNext
  rw [hx]
  dsimp only
  rw [hn]

/-- A move that is not there is not made by giving it up. -/
theorem findMove_giveUpNext_of_none {v m : Nat} {s : State} (h : findMove s m = none) : findMove (giveUpNext v s) m = none := by
  unfold giveUpNext
  split
  · exact h
  · split
    · exact h
    next n _ =>
      by_cases hn : m = n
      · subst hn
        rw [returnToWaiting, findMove_setPassDue]
        unfold changeMove
        rw [show findMove (setNextMove v none s) m = none from h]
        exact h
      · exact (moveKept_returnToWaiting hn _).none h

/-! ### A segment that returned to FOREIGN is arbitrated (R35, R130) -/

/-- What the arbitration of segment `i`, not FREE, does at most: one waiting vehicle leaves every wait list and claims it. -/
structure Reclaimed (i : Nat) (s t : State) : Prop where
  roster : t.roster = s.roster
  board : t.board = s.board
  waits : ∀ j, waitsOf t j ⊆ waitsOf s j
  claims : ∀ c ∈ t.bxu.outClaims, c ∈ s.bxu.outClaims
    ∨ c.segment = i ∧ c.phase = .claiming (s.board.now + s.layout.tuning.tClaim)
      ∧ ∃ w ∈ waitsOf s i, w.isVehicle c.vehicle = true
  others : ∀ j, j ≠ i → resOf t j = resOf s j
  res : resOf t i = resOf s i ∨ ∃ u, resOf t i = some (.claiming u)

theorem Reclaimed.refl (i : Nat) (s : State) : Reclaimed i s s :=
  ⟨rfl, rfl, fun _ => List.Subset.refl _, fun _ h => .inl h, fun _ _ => rfl, .inl rfl⟩

theorem waitsOf_leaveWaits_subset (v j : Nat) (s : State) : waitsOf (leaveWaits v s) j ⊆ waitsOf s j := by
  rw [waitsOf_leaveWaits]
  exact List.filter_subset_self _

theorem reclaimed_makeClaim {i u : Nat} {s : State} (hloaded : resOf s i ≠ none)
    (hu : ∃ w ∈ waitsOf s i, w.isVehicle u = true) : Reclaimed i s (makeClaim u i (leaveWaits u s)) := by
  have hleft : Reclaimed i s (leaveWaits u s) :=
    ⟨rfl, rfl, fun j => waitsOf_leaveWaits_subset u j s, fun _ h => .inl h, fun j _ => resOf_leaveWaits u j s,
      .inl (resOf_leaveWaits u i s)⟩
  unfold makeClaim
  split
  next x owner _ _ =>
    split
    · exact hleft
    · dsimp only
      generalize hb : (leaveWaits u s).updBxu _ = b
      have hclaims : b.bxu.outClaims = s.bxu.outClaims ++ [{ tag := nextTag s.bxu, segment := i, vehicle := u
                                                             phase := .claiming (s.board.now + s.layout.tuning.tClaim) }] := by
        rw [← hb]
        rfl
      have hsrt : b.srt = (leaveWaits u s).srt := by rw [← hb]; rfl
      obtain ⟨hboard, -, psrt, hroster, hbxu, -⟩ := sendPeer_rest owner kindClaim (nextTag (leaveWaits u s).bxu) i u
        (summaryBytes (summaryOf x)) (setRes i (.claiming u) b)
      have hres : ∀ j, resOf (setRes i (.claiming u) b) j =
          if j = i then (resOf (leaveWaits u s) i).map fun _ => .claiming u else resOf (leaveWaits u s) j := fun j => by
        rw [resOf_setRes, resOf_congr hsrt, resOf_congr hsrt]
      refine ⟨?_, ?_, fun j => ?_, fun c hc => ?_, fun j hj => ?_, .inr ⟨u, ?_⟩⟩
      · rw [hroster, ← hb]
        rfl
      · rw [hboard, ← hb]
        rfl
      · rw [waitsOf_congr psrt, waitsOf_setRes, waitsOf_congr hsrt]
        exact waitsOf_leaveWaits_subset u j s
      · rw [hbxu] at hc
        change c ∈ b.bxu.outClaims at hc
        rw [hclaims] at hc
        obtain hc | hc := List.mem_append.1 hc
        · exact .inl hc
        · rw [List.mem_singleton.1 hc]
          exact .inr ⟨rfl, rfl, hu⟩
      · rw [resOf_congr psrt, hres, if_neg hj, resOf_leaveWaits]
      · rw [resOf_congr psrt, hres, if_pos rfl, resOf_leaveWaits]
        obtain ⟨r, hr⟩ := Option.ne_none_iff_exists'.1 hloaded
        rw [hr]
        rfl
  · exact hleft

theorem arbitrate_of_not_free {i : Nat} {s : State} (h : resOf s i ≠ some .free) :
    (arbitrate i s).1 = [] ∧ Reclaimed i s (arbitrate i s).2 := by
  unfold arbitrate
  split
  next hf => exact absurd hf h
  next hf =>
    split
    · exact ⟨rfl, .refl i s⟩
    next w hw =>
      split
      next u f hwho =>
        exact ⟨rfl, reclaimed_makeClaim (by rw [hf]; nofun) ⟨w, (winner_admissible hw).1, by simp [WaitEntry.isVehicle, hwho]⟩⟩
      · exact ⟨rfl, .refl i s⟩
  next => exact ⟨rfl, .refl i s⟩

theorem run_arb_of_not_free {i : Nat} {s : State} (h : resOf s i ≠ some .free) :
    Reclaimed i s (run [.arb i] s) := by
  obtain ⟨hnil, hstep⟩ := arbitrate_of_not_free h
  by_cases hm : s.mode = .dispatching
  · have : run [.arb i] s = (arbitrate i s).2 := by
      show runTasks (Config.chainBound - 1) ((taskStep (.arb i) s).1 ++ []) (taskStep (.arb i) s).2 = _
      rw [taskStep_arb hm, hnil, List.append_nil, runTasks_nil]
    rw [this]
    exact hstep
  · rw [run_idle fun t _ => taskStep_of_not_dispatching hm t]
    exact .refl i s

/-! ### Leaving service (R34, R67, R134) -/

/-- The vehicle in its new state, its next move given up, waiting nowhere. -/
def standDown (v : Nat) (st : VState) (heardBy : Option Nat) (s : State) : State :=
  leaveWaits v (giveUpNext v (updVehicle v (fun x => { x with state := st, heardBy := heardBy }) s))

section
variable {v : Nat} {st : VState} {hb : Option Nat} {s : State} {x : Vehicle}

theorem outOfService_eq (v : Nat) (st : VState) (hb : Option Nat) (s : State) :
    outOfService v st hb s = run ((withdrawClaiming v (standDown v st hb s)).1.map .arb)
      (makeHoldDue v (withdrawClaiming v (standDown v st hb s)).2) := rfl

theorem vehicle_standDown (hx : vehicle s v = some x) :
    vehicle (standDown v st hb s) v = some { x with state := st, heardBy := hb, nextMove := none } := by
  have hset : vehicle (updVehicle v (fun y => { y with state := st, heardBy := hb }) s) v =
      some { x with state := st, heardBy := hb } := by
    rw [vehicle_updVehicle v v (fun y => { y with state := st, heardBy := hb }) s fun _ h => h, hx]
    simp
  rw [standDown, vehicle_leaveWaits, vehicle_giveUpNext hset]

theorem reporting_stopped (v : Nat) (st : VState) (hb : Option Nat) (s : State) :
    Reporting s (giveUpNext v (updVehicle v (fun x => { x with state := st, heardBy := hb }) s)) :=
  (reporting_updVehicle v (fun x => { x with state := st, heardBy := hb }) s).trans (reporting_giveUpNext v _)

theorem waitsOf_standDown (j : Nat) :
    waitsOf (standDown v st hb s) j = (waitsOf s j).filter fun w => !w.isVehicle v := by
  rw [standDown, waitsOf_leaveWaits, waitsOf_congr (reporting_stopped v st hb s).srt]

theorem resOf_standDown (j : Nat) : resOf (standDown v st hb s) j = resOf s j := by
  rw [standDown, resOf_leaveWaits, resOf_congr (reporting_stopped v st hb s).srt]

/-- The wait lists are all that a vehicle standing down takes from the segments. -/
theorem standDown_keeps : (standDown v st hb s).bxu = s.bxu ∧ (standDown v st hb s).layout = s.layout
    ∧ (standDown v st hb s).mc.identity = s.mc.identity ∧ s.fli.outbound <+: (standDown v st hb s).fli.outbound
    ∧ (occupancy s < 64 → occupancy (standDown v st hb s) < 64) := by
  have h := reporting_stopped v st hb s
  exact ⟨h.bxu, h.layout, h.identity, h.outbound, h.room⟩

theorem unarbitrated_standDown (h : Unarbitrated s) : Unarbitrated (standDown v st hb s) :=
  ((reporting_stopped v st hb s).unarbitrated h).imp id fun hw => NoneWait.filtered hw _

/-! The claim in phase CLAIMING is withdrawn -/

/-- CLAIM-WITHDRAW for `e`, which ends. -/
def claimWithdrawn (e : OutClaim) (s : State) : State :=
  Says.claimEnded (sendPeer ((ownerOf s e.segment).getD anyAddress) kindClaimWithdraw e.tag e.segment e.vehicle [] s) e

theorem withdrawClaim_of_claiming {e : OutClaim} (he : outClaimOf s v = some e) (hc : Says.claiming e) :
    withdrawClaim v s = ([e.segment], claimWithdrawn e s) := by
  have hv : e.vehicle = v := by simpa using List.find?_some he
  unfold withdrawClaim
  rw [he]
  dsimp only
  rw [endOutClaim_of_claiming hc, ← hv]
  rfl

theorem withdrawClaiming_of_claiming {e : OutClaim} (he : outClaimOf s v = some e) (hc : Says.claiming e) :
    withdrawClaiming v s = ([e.segment], claimWithdrawn e s) := by
  rw [← withdrawClaim_of_claiming he hc]
  obtain ⟨d, hd⟩ := hc
  obtain ⟨tag, segment, vehicle, phase⟩ := e
  dsimp only at hd
  subst hd
  unfold withdrawClaiming
  rw [he]

theorem withdrawClaiming_of_not (h : ∀ e, outClaimOf s v = some e → ¬ Says.claiming e) : withdrawClaiming v s = ([], s) := by
  unfold withdrawClaiming
  split
  next he => exact absurd ⟨_, rfl⟩ (h _ he)
  next => rfl

/-- A vehicle leaves service with a claim in phase CLAIMING, or without one. -/
theorem outOfService_cases (v : Nat) (st : VState) (hb : Option Nat) (s : State) :
    ((∀ e, outClaimOf s v = some e → ¬ Says.claiming e) ∧ outOfService v st hb s = makeHoldDue v (standDown v st hb s)) ∨
    ∃ e, outClaimOf s v = some e ∧ Says.claiming e
      ∧ outOfService v st hb s = run [.arb e.segment] (makeHoldDue v (claimWithdrawn e (standDown v st hb s))) := by
  have hclaims : outClaimOf (standDown v st hb s) v = outClaimOf s v := by
    rw [outClaimOf, outClaimOf, standDown_keeps.1]
  rw [outOfService_eq]
  by_cases h : ∃ e, outClaimOf s v = some e ∧ Says.claiming e
  · obtain ⟨e, he, hc⟩ := h
    exact .inr ⟨e, he, hc, by rw [withdrawClaiming_of_claiming (hclaims.trans he) hc]; rfl⟩
  · have hno : ∀ e, outClaimOf s v = some e → ¬ Says.claiming e := fun e he hc => h ⟨e, he, hc⟩
    refine .inl ⟨hno, ?_⟩
    rw [withdrawClaiming_of_not (hclaims ▸ hno)]
    exact run_idle fun _ h => absurd h List.not_mem_nil

theorem resOf_claimWithdrawn (e : OutClaim) (j : Nat) (s : State) :
    resOf (claimWithdrawn e s) j = if j = e.segment then (resOf s e.segment).map fun _ => .foreign else resOf s j := by
  refine (resOf_setRes e.segment j .foreign _).trans ?_
  rw [resOf_congr (sendPeer_rest _ _ _ _ _ _ _).2.2.1, resOf_congr (sendPeer_rest _ _ _ _ _ _ _).2.2.1]

theorem claimWithdrawn_keeps (e : OutClaim) (s : State) : (claimWithdrawn e s).roster = s.roster
    ∧ (claimWithdrawn e s).board = s.board ∧ (claimWithdrawn e s).layout = s.layout
    ∧ (claimWithdrawn e s).bxu = { s.bxu with outClaims := s.bxu.outClaims.filter fun c => c.tag ≠ e.tag }
    ∧ ∀ j, waitsOf (claimWithdrawn e s) j = waitsOf s j := by
  obtain ⟨hboard, hlayout, hsrt, hroster, hbxu, -⟩ :=
    sendPeer_rest ((ownerOf s e.segment).getD anyAddress) kindClaimWithdraw e.tag e.segment e.vehicle [] s
  refine ⟨hroster, hboard, hlayout, ?_, fun j => ?_⟩
  · rw [← hbxu]
    rfl
  · rw [claimWithdrawn, waitsOf_claimEnded, waitsOf_congr hsrt]

theorem unarbitrated_claimWithdrawn (e : OutClaim) (h : Unarbitrated s) : Unarbitrated (claimWithdrawn e s) := by
  refine unarbitrated_of_noneWait h (fun hm => ?_) fun hw => ?_
  · have := (onward_of_worked (worked_sendPeer (by decide : kindClaimWithdraw ≠ 0x61)
      ((ownerOf s e.segment).getD anyAddress) e.tag e.segment e.vehicle [] s)).mode
    obtain h | h := this
    · exact fun hd => hm (h ▸ hd)
    · exact fun hd => by cases h.symm.trans hd
  · exact NoneWait.modRes (hw.congr (sendPeer_rest _ _ _ _ _ _ _).2.2.1) e.segment fun _ => .foreign

theorem claimWithdrawn_not_free (e : OutClaim) (s : State) : resOf (claimWithdrawn e s) e.segment ≠ some .free := by
  rw [resOf_claimWithdrawn, if_pos rfl]
  cases resOf s e.segment <;> nofun

theorem reclaimed_outOfService (e : OutClaim) (s : State) :
    Reclaimed e.segment (makeHoldDue v (claimWithdrawn e s)) (run [.arb e.segment] (makeHoldDue v (claimWithdrawn e s))) := by
  refine run_arb_of_not_free ?_
  rw [resOf_congr (makeHoldDue_rest _ _).2.2.1]
  exact claimWithdrawn_not_free e s

/-- The record of a vehicle that left service. -/
theorem vehicle_outOfService (hx : vehicle s v = some x) :
    vehicle (outOfService v st hb s) v = some { x with
      state := st, heardBy := hb, nextMove := none, due := { x.due with hold := some 0, stopMark := true } } := by
  obtain ⟨-, h⟩ | ⟨e, -, -, h⟩ := outOfService_cases v st hb s
  · rw [h, vehicle_makeHoldDue, vehicle_standDown hx]
    simp
  · rw [h, vehicle_congr (reclaimed_outOfService e _).roster, vehicle_makeHoldDue,
      vehicle_congr (claimWithdrawn_keeps e _).1, vehicle_standDown hx]
    simp

theorem findMove_outOfService_of_none {m : Nat} (h : findMove s m = none) : findMove (outOfService v st hb s) m = none := by
  have hdown : findMove (standDown v st hb s) m = none := by
    rw [standDown, findMove_leaveWaits]
    exact findMove_giveUpNext_of_none h
  obtain ⟨-, h⟩ | ⟨e, -, -, h⟩ := outOfService_cases v st hb s
  · rw [h, findMove_makeHoldDue, hdown]
  · rw [h]
    refine ((onward_run _ _).moves.move m).none ?_
    rw [findMove_makeHoldDue]
    exact ((movesKept_of_raised (raised_sendPeer _ _ _ _ _ _ _)).move m).none hdown

end

/-- Whatever reports came before the vehicle left service. -/
theorem leavesService_outOfService {s₀ s : State} (h : Reporting s₀ s) (v : Nat) (st : VState) (hb : Option Nat) :
    LeavesService s₀ (outOfService v st hb s) v := by
  obtain ⟨hbxu, hlayout, hidentity, hout, hroom⟩ := standDown_keeps (v := v) (st := st) (hb := hb) (s := s)
  have hleft : ∀ j, ∀ w ∈ waitsOf (standDown v st hb s) j, w.isVehicle v = false := fun j w hw => by
    rw [waitsOf_standDown] at hw
    simpa using (List.mem_filter.1 hw).2
  obtain ⟨hno, heq⟩ | ⟨e, he, hc, heq⟩ := outOfService_cases v st hb s
  · refine ⟨fun j w hw => ?_, fun d hd hv hcd hunique => ?_⟩
    · rw [heq, waitsOf_congr (makeHoldDue_rest _ _).2.2.1] at hw
      exact hleft j w hw
    · exfalso
      cases hfind : outClaimOf s v with
      | none => exact List.find?_eq_none.1 hfind d (h.bxu ▸ hd) (by simp [hv])
      | some c =>
        have hcv : c.vehicle = v := by simpa using List.find?_some hfind
        obtain rfl : c = d := hunique c (h.bxu ▸ List.mem_of_find?_eq_some hfind) (.inl hcv)
        exact hno c hfind hcd
  have hev : e.vehicle = v := by simpa using List.find?_some he
  have hes : e ∈ s₀.bxu.outClaims := h.bxu ▸ List.mem_of_find?_eq_some he
  generalize hw : standDown v st hb s = w at hbxu hlayout hidentity hout hroom hleft heq
  have hres : ∀ j, resOf w j = resOf s₀ j := fun j => by rw [← hw, resOf_standDown, resOf_congr h.srt]
  obtain ⟨hroster, hboard, hlay, hclaims, hwaits⟩ := claimWithdrawn_keeps e w
  have hhold := reporting_makeHoldDue v (claimWithdrawn e w)
  have hrec := reclaimed_outOfService (v := v) e w
  rw [← heq] at hrec
  have hkept : (makeHoldDue v (claimWithdrawn e w)).bxu =
      { s₀.bxu with outClaims := s₀.bxu.outClaims.filter fun c => c.tag ≠ e.tag } := by
    rw [hhold.bxu, hclaims, hbxu, h.bxu]
  have hgone : ∀ c ∈ (outOfService v st hb s).bxu.outClaims, (c ∈ s₀.bxu.outClaims ∧ c.tag ≠ e.tag)
      ∨ (c.segment = e.segment ∧ c.phase = .claiming ((outOfService v st hb s).board.now + s₀.layout.tuning.tClaim)
        ∧ c.vehicle ≠ v) := fun c hc => by
    obtain hc | ⟨hseg, hphase, x, hx, hxc⟩ := hrec.claims c hc
    · rw [hkept] at hc
      obtain ⟨hc, htag⟩ := List.mem_filter.1 hc
      exact .inl ⟨hc, of_decide_eq_true htag⟩
    · refine .inr ⟨hseg, ?_, fun hcv => ?_⟩
      · rw [hphase, hrec.board, hhold.layout, hlay, hlayout, h.layout]
      · rw [waitsOf_congr hhold.srt, hwaits] at hx
        rw [hcv, hleft _ x hx] at hxc
        cases hxc
  refine ⟨fun j x hx => ?_, fun d hd hdv hcd hunique => ?_⟩
  · have hx := hrec.waits j hx
    rw [waitsOf_congr hhold.srt, hwaits] at hx
    exact hleft j x hx
  obtain rfl : e = d := hunique e hes (.inl hev)
  have hforeign : resOf s₀ e.segment ≠ none → resOf (makeHoldDue v (claimWithdrawn e w)) e.segment = some .foreign := by
    intro hloaded
    obtain ⟨r, hr⟩ := Option.ne_none_iff_exists'.1 hloaded
    rw [resOf_congr hhold.srt, resOf_claimWithdrawn, if_pos rfl, hres, hr]
    rfl
  refine ⟨⟨fun c hc => (hgone c hc).imp id fun h => ⟨h.1, h.2.1⟩, fun hloaded => ?_, fun hidle => ?_⟩, fun c hc => ?_,
    fun o ho hocc => ?_⟩
  · exact hrec.res.imp (·.trans (hforeign hloaded)) id
  · have hun : Unarbitrated (makeHoldDue v (claimWithdrawn e w)) :=
      hhold.unarbitrated (unarbitrated_claimWithdrawn e (hw ▸ unarbitrated_standDown (h.unarbitrated hidle)))
    rw [heq, run_idle fun t ht => taskStep_of_unarbitrated hun (.inl ⟨_, List.mem_singleton.1 ht⟩)]
    refine ⟨hkept, hforeign, fun i hi => ?_⟩
    rw [resOf_congr hhold.srt, resOf_claimWithdrawn, if_neg hi, hres]
  · obtain ⟨hc, htag⟩ | ⟨-, -, hne⟩ := hgone c hc
    · exact fun hcv => htag (by rw [hunique c hc (.inl hcv)])
    · exact hne
  · have hown : ownerOf w e.segment = some o := by
      rw [← ho]
      unfold ownerOf segment
      rw [hlayout, h.layout]
    obtain ⟨mid, hmid⟩ := h.outbound.trans hout
    have hrun : (makeHoldDue v (claimWithdrawn e w)).fli.outbound <+: (outOfService v st hb s).fli.outbound := by
      rw [heq]
      exact (acts_run _ _).outbound
    refine ⟨mid, List.IsPrefix.trans ?_ (hhold.outbound.trans hrun)⟩
    rw [hmid]
    show _ <+: (sendPeer ((ownerOf w e.segment).getD anyAddress) kindClaimWithdraw e.tag e.segment e.vehicle [] w).fli.outbound
    rw [hown, Option.getD_some, sendPeer_of_room (hroom (h.room hocc)), List.append_nil, hev]
    show _ <+: w.fli.outbound ++ [frameOf w o 0x43 0 (peerBytes e.tag e.segment v)]
    rw [show frameOf w = frameOf s₀ by unfold frameOf; rw [hidentity.trans h.identity]]

end Sys2Proof.Machine

/-! PROOFS. Faults of vehicles and silence; the confirm deadline (R67, R79, R81, R83, R100, R106). -/

namespace Sys2Proof.Machine

open Sys2Proof.Says

/-! ### After the vehicle left service -/

theorem entryEnds_raise {s t : State} {d : OutClaim} (h : EntryEnds s t d) (k : EventKind) (a : Detail) :
    EntryEnds s (raise k a t) d := by
  obtain ⟨hboard, -, hsrt, -, hbxu, -⟩ := raise_rest k a t
  obtain ⟨hgone, hres, hidle⟩ := h
  refine ⟨?_, ?_, fun hun => ?_⟩
  · rw [hbxu, hboard]
    exact hgone
  · rw [resOf_congr hsrt]
    exact hres
  · obtain ⟨hclaims, hforeign, hothers⟩ := hidle hun
    exact ⟨hbxu.trans hclaims, fun hl => (resOf_congr hsrt _).trans (hforeign hl),
      fun i hi => (resOf_congr hsrt i).trans (hothers i hi)⟩

theorem leavesService_raise {s t : State} {v : Nat} (h : LeavesService s t v) (k : EventKind) (a : Detail) :
    LeavesService s (raise k a t) v := by
  obtain ⟨-, -, hsrt, -, hbxu, -⟩ := raise_rest k a t
  refine ⟨fun i w hw => h.1 i w (waitsOf_congr hsrt i ▸ hw), fun d hd hv hcd hunique => ?_⟩
  obtain ⟨hends, hgone, hsent⟩ := h.2 d hd hv hcd hunique
  refine ⟨entryEnds_raise hends k a, by rw [hbxu]; exact hgone, fun o ho hocc => ?_⟩
  obtain ⟨mid, hmid⟩ := hsent o ho hocc
  exact ⟨mid, hmid.trans (acts_raise k a t).outbound⟩

/-- A frame that is heard changes only the roster and the line. -/
theorem reporting_heard (s : State) (e : TrackEntry) (rest : List TrackEntry) : Reporting s (heard s e rest) :=
  reporting_of_same rfl rfl rfl rfl rfl

/-! ### STATUS FAULT and HOIST-FAULT (R81, R83, R106) -/

section
variable {s : State} {v : Nat} {x : Vehicle}

/-- A FAULT of a vehicle in service. -/
theorem takeFault_of_work {w : WorkState} (hx : vehicle s v = some x) (hw : x.state = .work w) (d : StatusData) :
    takeFault v d s = outOfService v (.faulted w) x.heardBy
      (raise .vehicleFault { noDetail with vehicle := v, segment := segmentDetail d.seg } s) := by
  unfold takeFault
  dsimp only
  rw [vehicle_raise, hx]
  dsimp only
  rw [hw]

/-- A FAULT of a vehicle out of service, or DEPARTING. -/
theorem takeFault_of_not_work (hx : vehicle s v = some x) (hw : ∀ w, x.state ≠ .work w) (d : StatusData) :
    takeFault v d s = makeHoldDue v
      (raise .vehicleFault { noDetail with vehicle := v, segment := segmentDetail d.seg } s) := by
  unfold takeFault
  dsimp only
  rw [vehicle_raise, hx]
  dsimp only
  cases h : x.state with
  | work w => exact absurd h (hw w)
  | faulted w => rfl
  | lost w mark => rfl
  | departing => rfl
  | arriving => rfl

/-- The move of a vehicle whose hoist failed is FAILED and removed. -/
def failOwn (x : Vehicle) (s : State) : State :=
  match x.move with
  | some m => removeMove m .failed s
  | none => s

theorem vehicle_failOwn (u : Nat) : vehicle (failOwn x s) u = vehicle s u := by
  unfold failOwn
  split
  · exact vehicle_removeMove _ _ _ _
  · rfl

theorem reporting_failOwn : Reporting s (failOwn x s) := by
  unfold failOwn
  split
  · exact reporting_removeMove _ _ s
  · exact .refl s

theorem takeHoistFault_of_departing (hx : vehicle s v = some x) (hd : x.state = .departing) :
    takeHoistFault v s = makeHoldDue v (raiseHoistFault v 0 s) := by
  unfold takeHoistFault
  rw [hx]
  exact if_pos hd

theorem takeHoistFault_of_not_departing (hx : vehicle s v = some x) (hd : x.state ≠ .departing) :
    takeHoistFault v s = raiseHoistFault v (x.move.getD 0)
      (outOfService v (.faulted .idle) x.heardBy (setCarrier v none (setMoveField v none (failOwn x s)))) := by
  unfold takeHoistFault
  rw [hx]
  exact if_neg hd

end

/-- Settles O48: both faults, by the state of the vehicle. -/
theorem faultsStopVehicle : Obligations.FaultsStopVehicle := by
  intro s e rest d x
  refine ⟨fun hs => ?_, fun hs => ?_⟩
  · have hrun : exec .statusFault s = .next (takeFault e.src (dataOf d) (heard s e rest)) :=
      congrArg Host.Outcome.next (statusRow_of_present hs)
    obtain ⟨-, -, hx, -⟩ := hs
    have hx' := vehicle_heard (rest := rest) hx
    by_cases hw : ∃ w, x.state = .work w
    · obtain ⟨w, hw⟩ := hw
      rw [takeFault_of_work hx' (show (hearing s e x).state = .work w from hw)] at hrun
      refine ⟨_, _, hrun, (acts_outOfService _ _ _ _).flagSet (flagSet_raise _ _ _),
        vehicle_outOfService ((vehicle_raise _ _ _ _).trans hx'), rfl, rfl, rfl, fun w' hw' => ?_, fun hno => ?_⟩
      · cases hw.symm.trans hw'
        exact ⟨rfl, rfl, leavesService_outOfService ((reporting_heard s e rest).trans (reporting_raise _ _ _)) _ _ _⟩
      · rw [Vehicle.isWorking, hw] at hno
        cases hno
    · have hno : ∀ w, x.state ≠ .work w := fun w h => hw ⟨w, h⟩
      rw [takeFault_of_not_work hx' hno] at hrun
      have hheld : ∀ t, vehicle t e.src = some (hearing s e x) → vehicle (makeHoldDue e.src t) e.src =
          some { hearing s e x with due := { x.due with hold := some 0, stopMark := true } } := fun t ht => by
        rw [vehicle_makeHoldDue, ht]
        simp [hearing]
      exact ⟨_, _, hrun, (acts_makeHoldDue _ _).flagSet (flagSet_raise _ _ _),
        hheld _ ((vehicle_raise _ _ _ _).trans hx'), rfl, rfl, rfl, fun w h => absurd h (hno w), fun _ => rfl⟩
  · have hrun : exec .statusHoistFault s = .next (takeHoistFault e.src (heard s e rest)) :=
      congrArg Host.Outcome.next (statusRow_of_present hs)
    obtain ⟨-, -, hx, -⟩ := hs
    have hx' := vehicle_heard (rest := rest) hx
    by_cases hd : x.state = .departing
    · rw [takeHoistFault_of_departing hx' hd] at hrun
      have hheld : vehicle (makeHoldDue e.src (raiseHoistFault e.src 0 (heard s e rest))) e.src =
          some { hearing s e x with due := { x.due with hold := some 0, stopMark := true } } := by
        rw [vehicle_makeHoldDue, raiseHoistFault, vehicle_raise, hx']
        simp [hearing]
      exact ⟨_, _, hrun, (acts_makeHoldDue _ _).flagSet (flagSet_raise _ _ _), hheld, rfl, rfl,
        fun _ => ⟨hd, rfl⟩, fun h => absurd hd h⟩
    · rw [takeHoistFault_of_not_departing hx' hd] at hrun
      generalize hu : setCarrier e.src none (setMoveField e.src none (failOwn (hearing s e x) (heard s e rest))) = u at hrun
      have hreport : Reporting s u := by
        rw [← hu]
        exact (((reporting_heard s e rest).trans reporting_failOwn).trans (reporting_updVehicle _ _ _)).trans
          (reporting_updVehicle _ _ _)
      have hvehicle : vehicle u e.src = some { hearing s e x with move := none, carrier := none } := by
        rw [← hu, vehicle_setCarrier, vehicle_setMoveField, vehicle_failOwn, hx']
        simp
      refine ⟨_, _, hrun, flagSet_raise _ _ _, (vehicle_raise _ _ _ _).trans (vehicle_outOfService hvehicle), rfl, rfl,
        fun h => absurd h hd, fun _ => ⟨rfl, rfl, rfl, rfl,
          leavesService_raise (leavesService_outOfService hreport _ _ _) _ _, fun m z hm hz => ⟨?_, fun hroom => ?_⟩⟩⟩
      · have hgone : findMove u m = none := by
          rw [← hu, findMove_setCarrier, findMove_setMoveField]
          unfold failOwn
          rw [show (hearing s e x).move = some m from hm]
          exact findMove_removeMove _ _ _
        exact ((onward_raise _ _ _).moves.move m).none (findMove_outOfService_of_none hgone)
      · have hsent : u.fli.outbound = s.fli.outbound ++ [moveReport s m 11 (z.vehicle.getD 0) z.age] := by
          rw [← hu]
          show (failOwn (hearing s e x) (heard s e rest)).fli.outbound = _
          unfold failOwn
          rw [show (hearing s e x).move = some m from hm]
          dsimp only
          rw [fli_removeMove .failed (show findMove (heard s e rest) m = some z from hz) hroom]
          rfl
        rw [← hsent]
        exact (acts_outOfService _ _ _ _).outbound.trans (acts_raise _ _ _).outbound

/-! ### Silence (R67, R79, R134) -/

theorem board_giveUpNext (v : Nat) (s : State) : (giveUpNext v s).board = s.board := by
  unfold giveUpNext
  split
  · rfl
  · split
    · rfl
    · exact (returnToWaiting_rest _ _).1

theorem board_outOfService (v : Nat) (st : VState) (hb : Option Nat) (s : State) :
    (outOfService v st hb s).board = s.board := by
  have hdown : (standDown v st hb s).board = s.board := board_giveUpNext v _
  obtain ⟨-, h⟩ | ⟨e, -, -, h⟩ := outOfService_cases v st hb s
  · rw [h, (makeHoldDue_rest _ _).1, hdown]
  · rw [h, (reclaimed_outOfService e _).board, (makeHoldDue_rest _ _).1, (claimWithdrawn_keeps e _).2.1, hdown]

theorem silenceLosesVehicle : Says.SilenceLosesVehicle := by
  intro s v hrun
  have hexec : exec (.lastHeardDeadline v) s = .next (silenceFalls v s) :=
    congrArg Host.Outcome.next (whenRunning_of_running hrun)
  refine ⟨fun h => ?_, fun x d hx hd => ?_⟩
  · rw [hexec]
    unfold silenceFalls
    split
    · rfl
    next x hx => rw [h x hx]
  · have hfalls : silenceFalls v s = loseVehicle v x (reachTime d s) := by
      unfold silenceFalls
      rw [hx]
      dsimp only
      rw [hd]
    rw [hfalls, loseVehicle] at hexec
    have hx' : vehicle (raise .vehicleLost { noDetail with vehicle := v, move := x.move.getD 0 } (reachTime d s)) v = some x :=
      (vehicle_raise _ _ _ _).trans hx
    refine ⟨_, _, hexec, ?_, (acts_outOfService _ _ _ _).flagSet (flagSet_raise _ _ _), vehicle_outOfService hx', rfl, rfl,
      rfl, rfl, rfl, rfl, leavesService_outOfService ((reporting_reachTime d s).trans (reporting_raise _ _ _)) _ _ _,
      fun w hw => ?_, fun w hw => ?_⟩
    · rw [board_outOfService, (raise_rest _ _ _).1]
      rfl
    · simp only [hw, Vehicle.resumeWork, Vehicle.workOf]
    · simp only [hw, Vehicle.resumeWork, Vehicle.workOf]

/-! ### The confirm deadline (R100) -/

theorem board_releaseVehicle (v : Nat) (s : State) : (releaseVehicle v s).board = s.board := by
  refine (onward_enterAndBuild v .idle (setMoveField v none s)).board.trans ?_
  unfold enterWork noteEligible
  split
  · exact (setPassDue_rest _).1
  · rfl

theorem confirmTimesOut : Says.ConfirmTimesOut := by
  intro s m hrun
  have hexec : exec (.confirmDeadline m) s = .next (confirmFalls m s) :=
    congrArg Host.Outcome.next (whenRunning_of_running hrun)
  refine ⟨fun h => ?_, fun y d v hy hd hv => ?_⟩
  · rw [hexec]
    unfold confirmFalls
    split
    next hy => exact absurd rfl (h _ hy _)
    next => rfl
  · have hfalls : confirmFalls m s = confirmTimeout m v (reachTime d s) := by
      unfold confirmFalls
      rw [hy]
      obtain ⟨⟩ := y
      dsimp only at hd hv ⊢
      subst hd hv
      rfl
    rw [hfalls, confirmTimeout] at hexec
    dsimp only at hexec
    generalize hu : raise .confirmTimeout { noDetail with vehicle := v, move := m } (reachTime d s) = u at hexec
    obtain ⟨y', hy', heq⟩ : ∃ y', findMove u m = some y' ∧ y' = { y with confirm := y'.confirm } := by
      rw [← hu]
      exact ((onward_raise _ _ _).moves.move m).some (show findMove (reachTime d s) m = some y from hy)
    have hflag : flagSet u .confirmTimeout = true := by
      rw [← hu]
      exact flagSet_raise _ _ _
    have hreturned := findMove_returnToWaiting hy'
    refine ⟨_, { y with state := .waiting, vehicle := none, confirm := .absent }, hexec, ?_, ?_, fun q hq => ?_, ?_, rfl,
      fun x hx => ?_⟩
    · rw [board_releaseVehicle]
      show (returnToWaiting m u).board.now = _
      rw [(returnToWaiting_rest m u).1, ← hu, (raise_rest _ _ _).1]
      rfl
    · exact ((acts_makeWithdrawDue v m _).trans (acts_releaseVehicle v _)).flagSet
        (((acts_returnToWaiting m u).trans (acts_discardAssign v _)).flagSet hflag)
    · rw [preempts_releaseVehicle] at hq
      exact (preempts_returnToWaiting hy' q hq).2
    · refine ((movesKept_releaseVehicle v _).move m).absent ?_ rfl
      rw [findMove_makeWithdrawDue, findMove_discardAssign, hreturned, heq]
    · have hset : vehicle (makeWithdrawDue v m (discardAssign v (returnToWaiting m u))) v = some { x with due := { x.due with
          withdraw := addWithdraw m x.due.withdraw, withdrawCount := 0, assign := none } } := by
        have : vehicle u v = some x := by
          rw [← hu, vehicle_raise]
          exact hx
        simp [this]
      obtain ⟨z, hz, ht⟩ := vehicle_releaseVehicle hset
      rw [ht.rest] at hz
      exact ⟨_, hz, rfl, rfl, rfl, mem_addWithdraw m _⟩

/-- Settles O52. -/
theorem deadlinesFall : Obligations.DeadlinesFall := ⟨silenceLosesVehicle, confirmTimesOut⟩

end Sys2Proof.Machine

/-! PROOFS. HOIST-START: the hoists that begin, and the race of a preemption (R101, R103, R107, R124). -/

namespace Sys2Proof.Machine

open Sys2Proof.Says

/-! ### MOVE-REPORTs in their order (R92) -/

/-- From `s` to `t` frames were only appended to the outbound queue, their MOVE-REPORTs some of `l` in its order. -/
def Reports (l : List FloorFrame) (s t : State) : Prop :=
  ∃ new, t.fli.outbound = s.fli.outbound ++ new ∧ (new.filter fun g => g.kind == 0x61).Sublist l

theorem Reports.trans {l k : List FloorFrame} {s t u : State} (h : Reports l s t) (j : Reports k t u) : Reports (l ++ k) s u := by
  obtain ⟨new, ht, hnew⟩ := h
  obtain ⟨more, hu, hmore⟩ := j
  exact ⟨new ++ more, by rw [hu, ht, List.append_assoc], by rw [List.filter_append]; exact hnew.append hmore⟩

theorem reports_of_unreported {s t : State} (h : Unreported s t) : Reports [] s t := by
  obtain ⟨new, ht, hnew⟩ := h
  exact ⟨new, ht, by rw [List.filter_eq_nil_iff.2 fun g hg => by simp [hnew g hg]]⟩

theorem reports_of_fli {s t : State} (h : t.fli = s.fli) : Reports [] s t := reports_of_unreported (unreported_of_fli h)

/-- After frames that are no reports. -/
theorem Reports.after {l : List FloorFrame} {s t u : State} (h : Reports l s t) (j : Reports [] t u) : Reports l s u := by
  simpa using h.trans j

/-- Before frames that are no reports. -/
theorem Reports.before {l : List FloorFrame} {s t u : State} (h : Reports [] s t) (j : Reports l t u) : Reports l s u := by
  simpa using h.trans j

theorem reports_reportMove (m : Nat) (st : ReportState) (v a : Nat) (s : State) :
    Reports [moveReport s m st.code v a] s (reportMove m st v a s) := by
  by_cases h : occupancy s < 56
  · rw [reportMove_of_room h]
    exact ⟨_, rfl, List.filter_sublist⟩
  · have : reportMove m st v a s = raise .reportLost (lostDetail kindMoveReport) s := if_neg h
    rw [this]
    obtain ⟨new, ht, hnew⟩ := reports_of_unreported (unreported_raise .reportLost (lostDetail kindMoveReport) s)
    exact ⟨new, ht, hnew.trans (List.nil_sublist _)⟩

theorem reports_changeMove {m : Nat} {x : Move} {s : State} (f : Move → Move) (hx : findMove s m = some x) :
    Reports [moveReport s m (ReportState.now (f x).state).code ((f x).vehicle.getD 0) (f x).age] s (changeMove m f s) := by
  rw [changeMove_eq f hx]
  exact Reports.before (t := setMove m (fun _ => unconfirmed (f x)) s) (reports_of_fli rfl) (reports_reportMove _ _ _ _ _)

theorem reports_returnToWaiting {m : Nat} {x : Move} {s : State} (hx : findMove s m = some x) :
    Reports [moveReport s m 0 0 x.age] s (returnToWaiting m s) :=
  (reports_changeMove (fun y => { y with state := .waiting, vehicle := none }) hx).after (reports_of_fli (fli_setPassDue _))

/-! ### A pass that is due stays due (R111, R179) -/

/-- From `s` to `t` the mode at most became HALTED, and a pass that is due stays due without that. -/
structure PassKept (s t : State) : Prop where
  mode : t.mode = s.mode ∨ t.mode = .halted
  due : t.mode = s.mode → s.asu.passDue = true → t.asu.passDue = true

theorem PassKept.trans {s t u : State} (h : PassKept s t) (k : PassKept t u) : PassKept s u where
  mode := k.mode.elim (fun km => h.mode.imp km.trans km.trans) .inr
  due hu hs := by
    have ht : t.mode = s.mode := h.mode.elim id fun ht => k.mode.elim (fun k => k.symm.trans hu) fun k => by rw [ht, ← k, hu]
    exact k.due (hu.trans ht.symm) (h.due ht hs)

theorem passKept_of_same {s t : State} (hmc : t.mc = s.mc) (hasu : t.asu.passDue = s.asu.passDue) : PassKept s t :=
  ⟨.inl (congrArg Mc.mode hmc), fun _ h => hasu.trans h⟩

theorem passKept_of_onward {s t : State} (h : Onward s t) : PassKept s t := ⟨h.mode, fun hm hs => (h.passDue hm).trans hs⟩

theorem passKept_of_raised {s t : State} (h : Raised s t) : PassKept s t := by
  cases h with
  | reported h =>
    rw [show t = { s with su := t.su, fli := t.fli } from h]
    exact passKept_of_same rfl rfl
  | deferred _ _ h =>
    rw [h]
    exact passKept_of_same rfl rfl
  | halted hmode _ h =>
    have hm := mode_of_halted h
    exact ⟨.inr hm, fun h => by rw [hm, hmode] at h; cases h⟩

theorem passKept_setPassDue (s : State) : PassKept s (setPassDue s) := by
  rw [setPassDue_eq]
  exact ⟨.inl rfl, fun _ h => by simp [h]⟩

theorem passKept_noteEligible (v : Nat) (s : State) : PassKept s (noteEligible v s) := by
  unfold noteEligible
  split
  · exact passKept_setPassDue s
  · exact passKept_of_same rfl rfl

theorem passKept_enterAndBuild (v : Nat) (w : WorkState) (s : State) : PassKept s (enterAndBuild v w s) :=
  (PassKept.trans (s := s) (t := updVehicle v (Vehicle.setWork w) s) (passKept_of_same rfl rfl) (passKept_noteEligible v _)).trans
    (passKept_of_onward (onward_enterAndBuild v w s))

theorem passKept_changeMove (m : Nat) (f : Move → Move) (s : State) : PassKept s (changeMove m f s) := by
  cases hx : findMove s m with
  | none =>
    unfold changeMove
    rw [hx]
    exact passKept_of_same rfl rfl
  | some x =>
    rw [changeMove_eq f hx]
    exact PassKept.trans (t := setMove m (fun _ => unconfirmed (f x)) s) (passKept_of_same rfl rfl)
      (passKept_of_raised (raised_reportMove _ _ _ _ _))

/-- In DISPATCHING a move that waits again makes a pass due. -/
theorem passDue_returnToWaiting {m : Nat} {s : State} (h : (returnToWaiting m s).mode = .dispatching) :
    (returnToWaiting m s).asu.passDue = true := by
  rw [returnToWaiting, setPassDue_eq] at h ⊢
  have : (changeMove m (fun x => { x with state := .waiting, vehicle := none }) s).mode = .dispatching := h
  simp [this]

/-! ### The segment of a hoist event (R101) -/

section
variable {s : State} {d : Said} {y : Move}

theorem portSegment_eq_some_iff {p i : Nat} : portSegment s p = some i ↔ ∃ r, portRec s p = some r ∧ r.segment = i :=
  Option.map_eq_some_iff

theorem atSource_iff : y.source.bind (portSegment s) = some d.seg ↔ AtSource s d y := by
  simp only [Option.bind_eq_some_iff, portSegment_eq_some_iff]
  exact ⟨fun ⟨p, hp, r, hr, h⟩ => ⟨p, r, hp, hr, h⟩, fun ⟨p, r, hp, hr, h⟩ => ⟨p, hp, r, hr, h⟩⟩

theorem expectedSegment_source (h : y.state = .assigned ∨ y.state = .enroute ∨ y.state = .picking ∨ y.state = .cancelling) :
    expectedSegment s y = some d.seg ↔ AtSource s d y := by
  rw [← atSource_iff]
  unfold expectedSegment
  obtain h | h | h | h := h <;> rw [h]

theorem expectedSegment_dest (h : y.state = .carrying ∨ y.state = .delivering) :
    expectedSegment s y = some d.seg ↔ AtDestination s d y := by
  have hdest : expectedSegment s y =
      y.dest.bind fun g => if isOwnPort s g then portSegment s (localOfPort g) else none := by
    unfold expectedSegment
    obtain h | h := h <;> rw [h]
  rw [hdest, Option.bind_eq_some_iff]
  constructor
  · rintro ⟨g, hg, hseg⟩
    split at hseg
    next hown =>
      obtain ⟨r, hr, hi⟩ := portSegment_eq_some_iff.1 hseg
      exact ⟨g / 256, g, r, by simpa [isOwnPort, cellOfPort] using hown, hg, rfl, hr, hi⟩
    next => cases hseg
  · rintro ⟨n, g, r, hn, hg, hcell, hr, hi⟩
    refine ⟨g, hg, ?_⟩
    rw [if_pos (by simp [isOwnPort, cellOfPort, hn, hcell])]
    exact portSegment_eq_some_iff.2 ⟨r, hr, hi⟩

theorem expectedSegment_unrouted (h : y.state = .unrouted) : expectedSegment s y = none := by
  unfold expectedSegment
  rw [h]

end

/-! ### Hoists that begin (R103) -/

section
variable {s : State} {v seg m : Nat} {y : Move}

theorem takeHoistStart_of_concerned (hc : concerned s v m = some y) :
    takeHoistStart v seg m s = if expectedSegment s y = some seg then startHoist v y s else s := by
  unfold takeHoistStart
  rw [hc]

theorem takeHoistStart_of_stray (hc : concerned s v m = none) :
    takeHoistStart v seg m s =
      (preemptionOf s v m).elim (withdrawNamed v m s) fun e => (preemptedStart v m seg e s).1 := by
  unfold takeHoistStart
  rw [hc]
  dsimp only
  cases preemptionOf s v m <;> rfl

theorem startHoist_source (h : y.state = .assigned ∨ y.state = .enroute) :
    startHoist v y s = enterWork v .acquiring (toMoveState y.id .picking s) := by
  unfold startHoist
  obtain h | h := h <;> rw [h]

theorem startHoist_dest (h : y.state = .carrying) :
    startHoist v y s = enterWork v .depositing (toMoveState y.id .delivering s) := by
  unfold startHoist
  rw [h]

theorem preemptionOf_eq_none (h : ∀ q ∈ s.asu.preempts, q.vehicle = v → q.oldMove ≠ m) : preemptionOf s v m = none :=
  List.find?_eq_none.2 fun q hq => by simpa using h q hq

end

theorem fli_enterWork (v : Nat) (w : WorkState) (s : State) : (enterWork v w s).fli = s.fli := by
  unfold enterWork noteEligible
  split
  · exact fli_setPassDue _
  · rfl

/-! ### The undoing of a preemption (R124) -/

section
variable {s : State} {v p n : Nat} {x : Vehicle} {y z : Move}

/-- The ASSIGN of a vehicle discarded, a WITHDRAW due for the new move and none for the old one. -/
def swapDue (v p n : Nat) (t : State) : State := makeWithdrawDue v n (discardWithdraw v p (discardAssign v t))

/-- The new move waits and is withdrawn from the vehicle. -/
def givenBack (v p n : Nat) (s : State) : State := swapDue v p n (returnToWaiting n s)

/-- A move is PICKING on a vehicle. -/
def pickedBy (v : Nat) (y : Move) : Move := { y with state := .picking, vehicle := some v }

/-- The old move is PICKING on the vehicle, which has not begun to acquire. -/
def takenUp (v p n : Nat) (s : State) : State :=
  setMoveField v (some p) (changeMove p (pickedBy v) (givenBack v p n s))

theorem undoPreemption_eq (v p n : Nat) (s : State) :
    undoPreemption v p n s =
      dropPreemption v (raise .preemptLost { noDetail with vehicle := v, move := n } (enterAndBuild v .acquiring (takenUp v p n s))) :=
  rfl

/-- From the change of working state on the record of the vehicle is tended. -/
theorem onward_undoPreemption (v p n : Nat) (s : State) :
    Onward (enterWork v .acquiring (takenUp v p n s))
      (raise .preemptLost { noDetail with vehicle := v, move := n } (enterAndBuild v .acquiring (takenUp v p n s))) :=
  (onward_enterAndBuild v .acquiring (takenUp v p n s)).trans (onward_raise .preemptLost _ _)

theorem vehicle_takenUp (hx : vehicle s v = some x) :
    vehicle (enterWork v .acquiring (takenUp v p n s)) v = some { x with
      state := worksAs .acquiring x.state, move := some p
      due := { x.due with
        assign := none, withdraw := addWithdraw n (x.due.withdraw.filter (· ≠ p)), withdrawCount := 0 } } := by
  simp [takenUp, givenBack, swapDue, hx]

theorem vehicle_takenUp_of_ne {u : Nat} (h : u ≠ v) :
    vehicle (enterWork v .acquiring (takenUp v p n s)) u = vehicle s u := by
  simp [takenUp, givenBack, swapDue, h]

theorem swapDue_rest (v p n : Nat) (t : State) :
    (swapDue v p n t).fli = t.fli ∧ (swapDue v p n t).mc = t.mc ∧ (swapDue v p n t).asu = t.asu := by
  simp [swapDue]

theorem reports_updVehicle (v : Nat) (f : Vehicle → Vehicle) (t : State) : Reports [] t (updVehicle v f t) :=
  reports_of_fli rfl

theorem passKept_setMoveField (v : Nat) (o : Option Nat) (t : State) : PassKept t (setMoveField v o t) :=
  passKept_of_same rfl rfl

theorem passKept_dropPreemption (v : Nat) (t : State) : PassKept t (dropPreemption v t) := passKept_of_same rfl rfl

@[simp] theorem vehicle_dropPreemption (v u : Nat) (t : State) : vehicle (dropPreemption v t) u = vehicle t u := rfl

@[simp] theorem findMove_dropPreemption (v k : Nat) (t : State) : findMove (dropPreemption v t) k = findMove t k := rfl

theorem flagSet_dropPreemption (v : Nat) (k : EventKind) (t : State) : flagSet (dropPreemption v t) k = flagSet t k := rfl

theorem ne_of_mem_dropPreemption {v : Nat} {t : State} {q : Preemption} (h : q ∈ (dropPreemption v t).asu.preempts) :
    q.vehicle ≠ v := of_decide_eq_true (List.mem_filter.1 h).2

theorem reports_dropPreemption (v : Nat) (t : State) : Reports [] t (dropPreemption v t) := reports_of_fli rfl

theorem findMove_givenBack (k : Nat) : findMove (givenBack v p n s) k = findMove (returnToWaiting n s) k := by
  rw [givenBack, swapDue, findMove_makeWithdrawDue, findMove_discardWithdraw, findMove_discardAssign]

theorem findMove_takenUp_new (hz : findMove s n = some z) (hnp : n ≠ p) :
    findMove (takenUp v p n s) n = some { z with state := .waiting, vehicle := none, confirm := .absent } := by
  rw [takenUp, findMove_setMoveField]
  refine (moveKept_changeMove (f := pickedBy v) (fun _ h => h) hnp (givenBack v p n s)).absent ?_ rfl
  rw [findMove_givenBack, findMove_returnToWaiting hz]

/-- The old move as it stands when the vehicle takes it. -/
theorem findMove_givenBack_old (hy : findMove s p = some y) (hnp : n ≠ p) :
    ∃ c, findMove (givenBack v p n s) p = some { y with confirm := c } := by
  obtain ⟨y', hy', heq⟩ := (moveKept_returnToWaiting (Ne.symm hnp) s).some hy
  exact ⟨y'.confirm, by rw [findMove_givenBack, hy', ← heq]⟩

theorem findMove_takenUp_old (hy : findMove s p = some y) (hnp : n ≠ p) :
    findMove (takenUp v p n s) p = some { y with state := .picking, vehicle := some v, confirm := .absent } := by
  obtain ⟨c, hc⟩ := findMove_givenBack_old (v := v) hy hnp
  rw [takenUp, findMove_setMoveField]
  exact findMove_changeMove (x := { y with confirm := c }) (f := pickedBy v) hc (findMove_id hy).1 (by nofun)

theorem reports_takenUp (hz : findMove s n = some z) (hy : findMove s p = some y) (hnp : n ≠ p) :
    Reports [moveReport s n 0 0 z.age, moveReport s p 4 v y.age] s (takenUp v p n s) := by
  obtain ⟨c, hc⟩ := findMove_givenBack_old (v := v) hy hnp
  have hold := reports_changeMove (pickedBy v) hc
  obtain ⟨hfli, hmc, -⟩ := swapDue_rest v p n (returnToWaiting n s)
  have hid : moveReport (givenBack v p n s) p 4 v y.age = moveReport s p 4 v y.age := by
    unfold moveReport frameOf givenBack
    rw [hmc, (reporting_returnToWaiting n s).identity]
  have hold : Reports [moveReport s p 4 v y.age] (givenBack v p n s) (takenUp v p n s) :=
    hid ▸ hold.after (reports_updVehicle v _ _)
  have hback : Reports [moveReport s n 0 0 z.age] s (givenBack v p n s) :=
    (reports_returnToWaiting hz).after (reports_of_fli hfli)
  exact hback.trans hold

theorem passKept_undoPreemption (v p n : Nat) (s : State) : PassKept (returnToWaiting n s) (undoPreemption v p n s) := by
  obtain ⟨-, hmc, hasu⟩ := swapDue_rest v p n (returnToWaiting n s)
  have hback : PassKept (returnToWaiting n s) (givenBack v p n s) := passKept_of_same hmc (congrArg Asu.passDue hasu)
  have hup : PassKept (givenBack v p n s) (takenUp v p n s) :=
    (passKept_changeMove p (pickedBy v) (givenBack v p n s)).trans (passKept_setMoveField v (some p) _)
  rw [undoPreemption_eq]
  exact (((hback.trans hup).trans (passKept_enterAndBuild v .acquiring (takenUp v p n s))).trans
    (passKept_of_onward (onward_raise .preemptLost { noDetail with vehicle := v, move := n } _))).trans (passKept_dropPreemption v _)

/-- The preemption of `y` for `z` is undone from the state `s`. -/
theorem preemptionUndone_undoPreemption (hx : vehicle s v = some x) (hz : findMove s n = some z) (hy : findMove s p = some y)
    (hnp : n ≠ p) : PreemptionUndone s (undoPreemption v p n s) v x y z := by
  obtain ⟨rfl, -⟩ := findMove_id hy
  obtain ⟨rfl, -⟩ := findMove_id hz
  have hon := onward_undoPreemption v y.id z.id s
  rw [undoPreemption_eq]
  refine ⟨(flagSet_dropPreemption v _ _).trans (flagSet_raise _ _ _), ?_, ?_, ?_, fun q hq => ?_, ?_⟩
  · rw [findMove_dropPreemption]
    exact (hon.moves.move z.id).absent (by rw [findMove_enterWork]; exact findMove_takenUp_new hz hnp) rfl
  · rw [findMove_dropPreemption]
    exact (hon.moves.move y.id).absent (by rw [findMove_enterWork]; exact findMove_takenUp_old hy hnp) rfl
  · obtain ⟨w, hw, ht⟩ := hon.vehicle (vehicle_takenUp (p := y.id) (n := z.id) hx)
    rw [ht.rest] at hw
    refine ⟨_, by rw [vehicle_dropPreemption]; exact hw, rfl, rfl, rfl, mem_addWithdraw _ _, fun hmem => ?_⟩
    have hmem : y.id ∈ addWithdraw z.id (x.due.withdraw.filter (· ≠ y.id)) := hmem
    have hout : y.id ∉ x.due.withdraw.filter (· ≠ y.id) := by simp
    unfold addWithdraw at hmem
    split at hmem
    · exact hout hmem
    · split at hmem
      · exact (List.mem_append.1 hmem).elim hout fun h => hnp (List.mem_singleton.1 h).symm
      · exact (List.mem_append.1 hmem).elim (fun h => hout (List.mem_of_mem_tail h)) fun h => hnp (List.mem_singleton.1 h).symm
  · exact ne_of_mem_dropPreemption hq
  · have henter := reports_of_fli (fli_enterWork v .acquiring (takenUp v y.id z.id s))
    exact (((reports_takenUp hz hy hnp).after henter).after (reports_of_unreported hon.sent)).after (reports_dropPreemption v _)

/-- Any other vehicle is tended. -/
theorem vehicle_undoPreemption_of_ne {u : Nat} {w : Vehicle} (h : u ≠ v) (hw : vehicle s u = some w) :
    ∃ z, vehicle (undoPreemption v p n s) u = some z ∧ Tended w z := by
  rw [undoPreemption_eq, vehicle_dropPreemption]
  exact (onward_undoPreemption v p n s).vehicle ((vehicle_takenUp_of_ne h).trans hw)

end

end Sys2Proof.Machine

/-! PROOFS. HOIST-START by the state of the move and the race of a preemption (R103, R107, R124). -/

namespace Sys2Proof.Machine

open Sys2Proof.Says

/-! ### What a hoist start for a preempted move finds (R124) -/

section
variable {s : State} {v p seg : Nat} {e : Preemption} {y : Move}

theorem preemptedStart_of_none (h : findMove s p = none) :
    preemptedStart v p seg e s = (dropPreemption v (makeWithdrawDue v p s), false) := by
  unfold preemptedStart
  rw [h]

theorem preemptedStart_away (h : findMove s p = some y) (hseg : y.source.bind (portSegment s) ≠ some seg) :
    preemptedStart v p seg e s = (withdrawNamed v p s, false) := by
  unfold preemptedStart
  rw [h]
  exact if_pos hseg

theorem preemptedStart_waiting (h : findMove s p = some y) (hseg : y.source.bind (portSegment s) = some seg)
    (hy : y.state = .waiting) : preemptedStart v p seg e s = (undoPreemption v p e.newMove s, true) := by
  unfold preemptedStart
  rw [h]
  dsimp only
  rw [if_neg (not_not_intro hseg), hy]

theorem preemptedStart_assignedNext {u : Nat} (h : findMove s p = some y) (hseg : y.source.bind (portSegment s) = some seg)
    (hy : y.state = .assignedNext) (hu : y.vehicle = some u) :
    preemptedStart v p seg e s = (undoPreemption v p e.newMove (setNextMove u none s), true) := by
  unfold preemptedStart
  rw [h]
  dsimp only
  rw [if_neg (not_not_intro hseg), hy, hu]

theorem preemptedStart_assigned {u : Nat} (h : findMove s p = some y) (hseg : y.source.bind (portSegment s) = some seg)
    (hy : y.state = .assigned ∨ y.state = .enroute) (hu : y.vehicle = some u) :
    preemptedStart v p seg e s = (undoPreemption v p e.newMove (takeBack p u s), true) := by
  unfold preemptedStart
  rw [h]
  dsimp only
  rw [if_neg (not_not_intro hseg)]
  obtain hy | hy := hy <;> rw [hy, hu]

theorem preemptedStart_late (h : findMove s p = some y) (hseg : y.source.bind (portSegment s) = some seg)
    (hy : y.state ∈ [MState.picking, .carrying, .delivering, .cancelling, .unrouted]) :
    preemptedStart v p seg e s = (dropPreemption v (makeWithdrawDue v p s), false) := by
  unfold preemptedStart
  rw [h]
  dsimp only
  rw [if_neg (not_not_intro hseg)]
  simp only [List.mem_cons, List.not_mem_nil, or_false] at hy
  obtain hy | hy | hy | hy | hy := hy <;> rw [hy]

end

/-! ### The old move taken back from the vehicle that has it (R124) -/

section
variable {s : State} {p u : Nat} {y : Move}

/-- The record of a move that was taken back. -/
def waitsAgain (y : Move) : Move := { y with state := .waiting, confirm := .absent, vehicle := none }

theorem takeBack_eq (p u : Nat) (s : State) :
    takeBack p u s = releaseVehicle u (makeWithdrawDue u p (discardAssign u (setMove p waitsAgain s))) := rfl

/-- From the change of working state on the record of the vehicle is tended. -/
theorem onward_releaseVehicle (v : Nat) (t : State) :
    Onward (enterWork v .idle (setMoveField v none t)) (releaseVehicle v t) := onward_enterAndBuild v .idle _

theorem findMove_takeBack_same (hy : findMove s p = some y) : findMove (takeBack p u s) p = some (waitsAgain y) := by
  rw [takeBack_eq]
  refine ((movesKept_releaseVehicle u _).move p).absent ?_ rfl
  rw [findMove_makeWithdrawDue, findMove_discardAssign, findMove_setMove (f := waitsAgain) (fun _ h => h), hy]
  simp

theorem moveKept_takeBack {k : Nat} (h : k ≠ p) : MoveKept k s (takeBack p u s) := by
  rw [takeBack_eq]
  refine MoveKept.trans (.inl ?_) ((movesKept_releaseVehicle u _).move k)
  rw [findMove_makeWithdrawDue, findMove_discardAssign, findMove_setMove_of_ne (f := waitsAgain) (fun _ h => h) h]

theorem vehicle_takeBack_same {x : Vehicle} (hx : vehicle s u = some x) :
    ∃ w, vehicle (takeBack p u s) u = some w ∧ w.move = none ∧ w.state = worksAs .idle x.state ∧ w.due.assign = none
      ∧ p ∈ w.due.withdraw := by
  have hset : vehicle (makeWithdrawDue u p (discardAssign u (setMove p waitsAgain s))) u = some { x with due := { x.due with
      withdraw := addWithdraw p x.due.withdraw, withdrawCount := 0, assign := none } } := by
    simp [hx]
  obtain ⟨w, hw, ht⟩ := vehicle_releaseVehicle hset
  rw [ht.rest] at hw
  exact ⟨_, hw, rfl, rfl, rfl, mem_addWithdraw p _⟩

theorem vehicle_takeBack_of_ne {v : Nat} {x : Vehicle} (h : v ≠ u) (hx : vehicle s v = some x) :
    ∃ w, vehicle (takeBack p u s) v = some w ∧ Tended x w := by
  rw [takeBack_eq]
  refine (onward_releaseVehicle u _).vehicle ?_
  simp [h, hx]

theorem fli_beforeRelease (p u : Nat) (t : State) :
    (enterWork u .idle (setMoveField u none (makeWithdrawDue u p (discardAssign u t)))).fli = t.fli := by
  rw [fli_enterWork]
  show (makeWithdrawDue u p (discardAssign u t)).fli = t.fli
  simp

theorem enterWork_mc (v : Nat) (w : WorkState) (t : State) : (enterWork v w t).mc = t.mc := by
  unfold enterWork noteEligible
  split
  · rw [setPassDue_eq]
    rfl
  · rfl

theorem unreported_takeBack (p u : Nat) (s : State) : Unreported s (takeBack p u s) := by
  rw [takeBack_eq]
  exact (unreported_of_fli (fli_beforeRelease p u (setMove p waitsAgain s))).trans (onward_releaseVehicle u _).sent

theorem identity_takeBack (p u : Nat) (s : State) : (takeBack p u s).mc.identity = s.mc.identity := by
  rw [takeBack_eq, (onward_releaseVehicle u _).identity, enterWork_mc]
  show (makeWithdrawDue u p (discardAssign u (setMove p waitsAgain s))).mc.identity = _
  simp

end

/-- A preemption undone after the old move was taken back was undone. -/
theorem preemptionUndone_of_takenBack {s w t : State} {v : Nat} {x x' : Vehicle} {y y' z z' : Move}
    (h : PreemptionUndone w t v x' y' z') (hx : x'.state = x.state)
    (hy : y' = { y with state := y'.state, vehicle := y'.vehicle, confirm := y'.confirm })
    (hz : z' = { z with confirm := z'.confirm }) (hsent : Unreported s w) (hid : w.mc.identity = s.mc.identity) :
    PreemptionUndone s t v x y z := by
  obtain ⟨hflag, hnew, hold, ⟨r, hr, hstate, hmove, hassign, hmem, hnot⟩, hpre, hreports⟩ := h
  have hframe : ∀ m c u a, moveReport w m c u a = moveReport s m c u a := fun m c u a => by
    unfold moveReport frameOf
    rw [hid]
  rw [hz] at hnew hmem
  rw [hy] at hold hmove hnot
  refine ⟨hflag, hnew, hold, ⟨r, hr, by rw [hstate, hx], hmove, hassign, hmem, hnot⟩, hpre, ?_⟩
  rw [hframe, hframe, hz, hy] at hreports
  exact Reports.before (reports_of_unreported hsent) hreports

/-! ### The statements -/

section
variable {s : State} {e : TrackEntry} {rest : List TrackEntry} {d : Said} {x : Vehicle}

theorem exec_hoistStart (hs : TakesStatus s e rest .hoistStart d x) :
    exec .statusHoistStart s = .next (takeHoistStart e.src d.seg d.move (heard s e rest)) :=
  congrArg Host.Outcome.next (statusRow_of_present hs)

/-- A hoist start for a preempted move is what the entry of the preemption list makes of it. -/
theorem exec_hoistStart_preempted {n : Nat} (hs : StartsOldHoist s e rest d x n) :
    exec .statusHoistStart s = .next (preemptedStart e.src d.move d.seg
      { vehicle := e.src, newMove := n, oldMove := d.move } (heard s e rest)).1 := by
  obtain ⟨htakes, hmove, hne, hfind⟩ := hs
  rw [exec_hoistStart htakes]
  obtain ⟨-, -, hx, -⟩ := htakes
  rw [takeHoistStart_of_stray (concerned_heard_of_ne hx fun h => hne (by rw [hmove] at h; exact Option.some.inj h)),
    show preemptionOf (heard s e rest) e.src d.move = _ from hfind]
  rfl

theorem preemptionKept : Says.PreemptionKept := by
  intro s e rest d x n hs hm
  have hexec := exec_hoistStart_preempted hs
  obtain ⟨⟨-, -, hx, -⟩, -⟩ := hs
  have hx' := vehicle_heard (rest := rest) hx
  obtain ⟨w, hw, hmem, hstate, hmove, -⟩ := vehicle_makeWithdrawDue_same (m := d.move) hx'
  have hdue := makeWithdrawDue_rest e.src d.move (heard s e rest)
  refine ⟨fun h => ?_, fun y hy hseg => ?_⟩
  · have hdrop : exec .statusHoistStart s = .next (dropPreemption e.src (makeWithdrawDue e.src d.move (heard s e rest))) := by
      rw [hexec]
      obtain h | ⟨y, hy, hseg, -, hstate⟩ := h
      · rw [preemptedStart_of_none (s := heard s e rest) h]
      · rw [preemptedStart_late (s := heard s e rest) hy (atSource_iff.2 hseg) hstate]
    exact ⟨_, w, hdrop, hw, hmem, hstate, hmove, rfl, rfl, rfl⟩
  · refine ⟨_, w, ?_, hw, hmem, hstate, hmove, rfl, rfl, rfl⟩
    rw [hexec, preemptedStart_away (s := heard s e rest) hy (mt atSource_iff.1 hseg), withdrawNamed, if_neg hm]

theorem passDue_undoPreemption {v p n : Nat} {t : State} (h : (undoPreemption v p n t).mode = .dispatching) :
    (undoPreemption v p n t).asu.passDue = true := by
  have hkept := passKept_undoPreemption v p n t
  have hm : (returnToWaiting n t).mode = .dispatching := by
    obtain hk | hk := hkept.mode
    · rw [← hk, h]
    · rw [h] at hk
      cases hk
  exact hkept.due (h.trans hm.symm) (passDue_returnToWaiting hm)

theorem preemptedTakenBack : Says.PreemptedTakenBack := by
  intro s e rest d x xu n u y z hs hz hy hseg hu hne hxu
  have hexec := exec_hoistStart_preempted hs
  obtain ⟨⟨-, -, hx, -⟩, -, hnm, -⟩ := hs
  have hx' := vehicle_heard (rest := rest) hx
  have hxu' : vehicle (heard s e rest) u = some xu := (vehicle_heard_of_ne hne).trans hxu
  have hseg' : y.source.bind (portSegment (heard s e rest)) = some d.seg := atSource_iff.2 hseg
  refine ⟨fun hstate => ?_, fun hstate => ?_⟩
  · rw [preemptedStart_assignedNext (s := heard s e rest) hy hseg' hstate hu] at hexec
    dsimp only at hexec
    have hleft : vehicle (setNextMove u none (heard s e rest)) e.src = some (hearing s e x) := by
      simp [hx', Ne.symm hne]
    have hnext : vehicle (setNextMove u none (heard s e rest)) u = some { xu with nextMove := none } := by
      simp [hxu']
    have hundone := preemptionUndone_undoPreemption hleft (by rw [findMove_setNextMove, findMove_heard, hz])
      (by rw [findMove_setNextMove, findMove_heard, hy]) hnm
    obtain ⟨w, hw, ht⟩ := vehicle_undoPreemption_of_ne (p := d.move) (n := n) hne hnext
    rw [ht.rest] at hw
    refine ⟨_, _, hexec, preemptionUndone_of_takenBack hundone rfl rfl rfl ?_ ?_, hw, rfl, rfl, rfl, rfl⟩
    · exact unreported_of_fli rfl
    · rfl
  · rw [preemptedStart_assigned (s := heard s e rest) hy hseg' hstate hu] at hexec
    dsimp only at hexec
    obtain ⟨x', hx'', htended⟩ := vehicle_takeBack_of_ne (p := d.move) (Ne.symm hne) hx'
    obtain ⟨z', hz', hzeq⟩ := (moveKept_takeBack (p := d.move) (u := u) hnm).some
      (show findMove (heard s e rest) n = some z from hz)
    have hy' : findMove (takeBack d.move u (heard s e rest)) d.move = some (waitsAgain y) := findMove_takeBack_same hy
    have hundone := preemptionUndone_undoPreemption hx'' hz' hy' hnm
    obtain ⟨w', hw', hmove, hidle, hassign, hmem⟩ := vehicle_takeBack_same (p := d.move) hxu'
    obtain ⟨w, hw, ht⟩ := vehicle_undoPreemption_of_ne (p := d.move) (n := n) hne hw'
    rw [ht.rest] at hw
    refine ⟨_, _, hexec, preemptionUndone_of_takenBack hundone ?_ rfl hzeq ?_ ?_, hw, hmove, hidle, hassign, hmem,
      fun _ => passDue_undoPreemption⟩
    · rw [htended.rest]
      rfl
    · exact unreported_takeBack d.move u (heard s e rest)
    · exact identity_takeBack d.move u (heard s e rest)

theorem mode_toMoveState {m : Nat} {st : MState} {t : State} (h : severityOf t .reportLost ≠ .halt) :
    (toMoveState m st t).mode = t.mode := by
  have hreport : ∀ {u : State} (st : ReportState) (v a : Nat), severityOf u .reportLost ≠ .halt →
      (reportMove m st v a u).mode = u.mode := fun st v a hu => by
    unfold reportMove
    split
    · rfl
    · exact (reported_raise_of_not_halt hu (.inl hu)).mode
  cases hx : findMove t m with
  | none =>
    unfold toMoveState changeMove
    rw [hx]
  | some x =>
    rw [toMoveState, changeMove_eq _ hx]
    exact hreport _ _ _ h

/-- A vehicle that begins to deposit without a next move is eligible (R111). -/
theorem passDue_depositing {v : Nat} {t : State} {x : Vehicle} (hm : t.mode = .dispatching) (hx : vehicle t v = some x)
    (hw : x.isWorking = true) (hn : x.nextMove = none) : (enterWork v .depositing t).asu.passDue = true := by
  have hset : vehicle (updVehicle v (Vehicle.setWork .depositing) t) v = some { x with state := .work .depositing } := by
    rw [vehicle_updVehicle v v (Vehicle.setWork .depositing) t fun x h => by rw [setWork_eq]; exact h, hx, Option.map_some,
      if_pos rfl, setWork_eq]
    unfold Vehicle.isWorking at hw
    split at hw
    next h => rw [h]; rfl
    next => cases hw
  rw [enterWork, noteEligible, hset, if_pos (by simp [Vehicle.eligible, hn]), setPassDue_eq]
  have : (updVehicle v (Vehicle.setWork .depositing) t).mode = .dispatching := hm
  simp [this]

theorem hoistStarts : Says.HoistStarts := by
  intro s e rest d x hs
  have hexec := exec_hoistStart hs
  have htakes := hs
  obtain ⟨-, -, hx, -⟩ := hs
  have hx' := vehicle_heard (rest := rest) hx
  have hstart : ∀ y, Concerns s x d y → takeHoistStart e.src d.seg d.move (heard s e rest) =
      if expectedSegment s y = some d.seg then startHoist e.src y (heard s e rest) else heard s e rest := fun y hy =>
    takeHoistStart_of_concerned (concerned_heard hx hy.1 hy.2)
  refine ⟨fun y hy hstate hseg => ?_, fun y hy hstate hseg => ?_, fun y hy hstate => ?_, fun hne hpre hm => ?_,
    fun n y z hw hmove hne hfind hz hy hstate hseg => ?_⟩
  · rw [hstart y hy, if_pos ((expectedSegment_source (hstate.elim .inl fun h => .inr (.inl h))).2 hseg),
      startHoist_source hstate, (findMove_id hy.2).1] at hexec
    have hy' : findMove (heard s e rest) d.move = some y := hy.2
    refine ⟨_, { hearing s e x with state := worksAs .acquiring x.state }, hexec, ?_, ?_, rfl, rfl, rfl, fun q hq => ?_⟩
    · rw [findMove_enterWork, findMove_toMoveState hy' (by nofun)]
    · rw [vehicle_enterWork, vehicle_toMoveState, hx']
      simp [hearing]
    · rw [preempts_enterWork] at hq
      exact (preempts_toMoveState hy' (by nofun) q hq).2
  · rw [hstart y hy, if_pos ((expectedSegment_dest (.inl hstate)).2 hseg), startHoist_dest hstate, (findMove_id hy.2).1] at hexec
    have hy' : findMove (heard s e rest) d.move = some y := hy.2
    refine ⟨_, { hearing s e x with state := worksAs .depositing x.state }, hexec, ?_, ?_, rfl, rfl, rfl,
      fun hm hwork hnext hsev => ?_⟩
    · rw [findMove_enterWork, findMove_toMoveState hy' (by nofun)]
    · rw [vehicle_enterWork, vehicle_toMoveState, hx']
      simp [hearing]
    · exact passDue_depositing ((mode_toMoveState (t := heard s e rest) hsev).trans hm)
        ((vehicle_toMoveState _).trans hx') hwork hnext
  · rw [hexec, hstart y hy]
    obtain h | h | ⟨h, hseg⟩ | ⟨h, hseg⟩ := hstate
    · have : startHoist e.src y (heard s e rest) = heard s e rest := by
        unfold startHoist
        rw [h]
      rw [this, ite_self]
    · rw [expectedSegment_unrouted h]
      rfl
    · rw [if_neg (mt (expectedSegment_source (h.elim .inl fun h => .inr (.inl h))).1 hseg)]
    · rw [if_neg (mt (expectedSegment_dest (.inl h)).1 hseg)]
  · rw [takeHoistStart_of_stray (concerned_heard_of_ne hx hne), preemptionOf_eq_none (s := heard s e rest) hpre,
      Option.elim_none, withdrawNamed, if_neg hm] at hexec
    obtain ⟨w, hw, hmem, -⟩ := vehicle_makeWithdrawDue_same (m := d.move) hx'
    exact ⟨_, w, hexec, hw, hmem, (makeWithdrawDue_rest _ _ _).2.2.2.1⟩
  · have hexec := exec_hoistStart_preempted ⟨htakes, hmove, hne, hfind⟩
    rw [preemptedStart_waiting (s := heard s e rest) hy (atSource_iff.2 hseg) hstate] at hexec
    dsimp only at hexec
    have hundone := preemptionUndone_undoPreemption hx' (by rw [findMove_heard, hz]) (by rw [findMove_heard, hy]) hne
    generalize undoPreemption e.src d.move n (heard s e rest) = t at hexec hundone
    obtain ⟨hflag, hnew, hold, ⟨v, hv, hvstate, hvmove, hassign, hmem, -⟩, hentry, -⟩ := hundone
    have hzid := (findMove_id hz).1
    have hyid := (findMove_id hy).1
    refine ⟨_, { y with state := .picking, vehicle := some e.src, confirm := .absent },
      { z with state := .waiting, vehicle := none, confirm := .absent }, v, hexec, hflag, hzid ▸ hnew, rfl, rfl, rfl, rfl,
      hyid ▸ hold, rfl, rfl, hv, ?_, hyid ▸ hvmove,
      hassign, hzid ▸ hmem, hentry⟩
    rw [hvstate]
    unfold Vehicle.isWorking at hw
    show worksAs .acquiring x.state = _
    split at hw
    next h => rw [h]; rfl
    next => cases hw

/-- Settles O46: by the state of the move and, for a preempted one, of the vehicle that has it. -/
theorem hoistStartBegins : Obligations.HoistStartBegins := ⟨hoistStarts, preemptedTakenBack, preemptionKept⟩

end

end Sys2Proof.Machine

/-! PROOFS. What the end of a hoist does to the vehicle and its move (R93, R98, R104, R105, R109). -/

namespace Sys2Proof.Machine

open Sys2Proof.Says

/-! ### A vehicle and its move handled together -/

/-- From `s` to `t` vehicle `v` became `x`, but for the tending of its path and list, and of the moves only `m` changed; no
entry joined the preemption list. -/
structure Handled (v m : Nat) (x : Vehicle) (s t : State) : Prop where
  vehicle : ∃ z, vehicle t v = some z ∧ Tended x z
  moves : ∀ k, k ≠ m → MoveKept k s t
  preempts : t.asu.preempts ⊆ s.asu.preempts

/-- Events raised, tasks run and paths built afterwards. -/
theorem Handled.onward {v m : Nat} {x : Vehicle} {s t u : State} (h : Handled v m x s t) (k : Onward t u) : Handled v m x s u where
  vehicle := by
    obtain ⟨y, hy, hxy⟩ := h.vehicle
    obtain ⟨z, hz, hyz⟩ := k.vehicle hy
    exact ⟨z, hz, hxy.trans hyz⟩
  moves j hj := (h.moves j hj).trans (k.moves.move j)
  preempts := k.preempts ▸ h.preempts

section
variable {s : State} {v m : Nat} {x : Vehicle} {y : Move}

/-- A change of the move, then of the carrier and the working state, and the path. -/
def carryOn (v m : Nat) (w : WorkState) (o : Option Nat) (f : Move → Move) (s : State) : State :=
  enterAndBuild v w (setCarrier v o (changeMove m f s))

theorem onward_carryOn (v m : Nat) (w : WorkState) (o : Option Nat) (f : Move → Move) (s : State) :
    Onward (enterWork v w (setCarrier v o (changeMove m f s))) (carryOn v m w o f s) := onward_enterAndBuild v w _

theorem handled_carryOn (w : WorkState) (o : Option Nat) {f : Move → Move} (hf : ∀ z, (f z).id = z.id)
    (hx : vehicle s v = some x) :
    Handled v m { x with carrier := o, state := worksAs w x.state } s (carryOn v m w o f s) := by
  refine Handled.onward ?_ (onward_carryOn v m w o f s)
  refine ⟨⟨_, ?_, .refl _⟩, fun k hk => ?_, ?_⟩
  · simp [hx]
  · have := moveKept_changeMove (fun z hz => (hf z).trans hz) hk s
    unfold MoveKept at this ⊢
    rwa [findMove_enterWork, findMove_setCarrier]
  · rw [preempts_enterWork]
    exact preempts_changeMove_subset m f s

theorem findMove_carryOn (w : WorkState) (o : Option Nat) {f : Move → Move} (hy : findMove s m = some y)
    (hid : (f y).id = m) (hstate : (f y).state ≠ .assigned) :
    findMove (carryOn v m w o f s) m = some { f y with confirm := .absent } := by
  refine ((onward_carryOn v m w o f s).moves.move m).absent ?_ rfl
  rw [findMove_enterWork, findMove_setCarrier, findMove_changeMove hy hid hstate]

theorem acts_setCarrier_enter (v : Nat) (w : WorkState) (o : Option Nat) (t : State) :
    Acts t (enterAndBuild v w (setCarrier v o t)) := (acts_setCarrier v o t).trans (acts_enterAndBuild v w _)

theorem outbound_carryOn (w : WorkState) (o : Option Nat) {f : Move → Move} (hy : findMove s m = some y)
    (hroom : occupancy s < 56) :
    s.fli.outbound ++ [moveReport s m (ReportState.now (f y).state).code ((f y).vehicle.getD 0) (f y).age]
      <+: (carryOn v m w o f s).fli.outbound := by
  have hsent := congrArg Fli.outbound (fli_changeMove f hy hroom)
  have hafter := (acts_setCarrier_enter v w o (changeMove m f s)).outbound
  rw [hsent] at hafter
  exact hafter

/-- The move removed, the vehicle empty and without a move. -/
def emptyHanded (v m : Nat) (out : ReportState) (s : State) : State := emptied v (removeMove m out s)

theorem onward_emptyHanded (v m : Nat) (out : ReportState) (s : State) :
    Onward (enterWork v .idle (setMoveField v none (setCarrier v none (removeMove m out s)))) (emptyHanded v m out s) :=
  onward_enterAndBuild v .idle _

theorem handled_emptyHanded (out : ReportState) (hx : vehicle s v = some x) :
    Handled v m { x with carrier := none, move := none, state := worksAs .idle x.state } s (emptyHanded v m out s) := by
  refine Handled.onward ?_ (onward_emptyHanded v m out s)
  refine ⟨⟨_, ?_, .refl _⟩, fun k hk => ?_, ?_⟩
  · simp [hx]
  · have := moveKept_removeMove out hk s
    unfold MoveKept at this ⊢
    rwa [findMove_enterWork, findMove_setMoveField, findMove_setCarrier]
  · rw [preempts_enterWork]
    exact preempts_removeMove_subset m out s

theorem findMove_emptyHanded (out : ReportState) : findMove (emptyHanded v m out s) m = none := by
  refine ((onward_emptyHanded v m out s).moves.move m).none ?_
  rw [findMove_enterWork, findMove_setMoveField, findMove_setCarrier, findMove_removeMove]

theorem outbound_emptyHanded (out : ReportState) (hy : findMove s m = some y) (hroom : occupancy s < 56) :
    s.fli.outbound ++ [moveReport s m out.code (y.vehicle.getD 0) y.age] <+: (emptyHanded v m out s).fli.outbound := by
  have hsent := congrArg Fli.outbound (fli_removeMove out hy hroom)
  have hafter := (acts_emptied v (removeMove m out s)).outbound
  rw [hsent] at hafter
  exact hafter

end

/-! ### The end of a pick-up and of the hoist of a CANCELLING move (R104, R109) -/

section
variable {s : State} {v : Nat} {y : Move} {g : Gripper}

/-- The record of a move whose pick-up read another carrier. -/
def misread (c : Nat) (z : Move) : Move := { z with state := .unrouted, carrier := c, dest := none, returnFlag := false }

/-- A move in another state. -/
def inState (st : MState) (z : Move) : Move := { z with state := st }

theorem mismatch_eq (v : Nat) (y : Move) (c : Nat) (s : State) :
    mismatch v y c s = raiseMismatch v y.id c (carryOn v y.id .laden (some c) (misread c) s) := rfl

theorem endPick_loaded (hp : g.present = true) (hc : g.carrier = y.carrier) :
    endPick v y g s = carryOn v y.id .laden (some g.carrier) (inState .carrying) s := by
  unfold endPick
  rw [if_pos hp, if_pos hc]
  rfl

theorem endPick_misread (hp : g.present = true) (hc : g.carrier ≠ y.carrier) :
    endPick v y g s = raiseMismatch v y.id g.carrier (carryOn v y.id .laden (some g.carrier) (misread g.carrier) s) := by
  unfold endPick
  rw [if_pos hp, if_neg hc, mismatch_eq]

theorem endPick_empty (hp : g.present = false) :
    endPick v y g s = raiseMismatch v y.id 0 (emptyHanded v y.id .failed s) := by
  unfold endPick
  rw [if_neg (by simp [hp])]
  rfl

theorem endCancelling_loaded (hp : g.present = true) (hc : g.carrier = y.carrier) :
    endCancelling v y g s = carryOn v y.id .laden (some g.carrier) (returnDelivery s) s := by
  unfold endCancelling
  rw [if_pos hp, if_pos hc]
  rfl

theorem endCancelling_misread (hp : g.present = true) (hc : g.carrier ≠ y.carrier) :
    endCancelling v y g s =
      raiseMismatch v y.id g.carrier (carryOn v y.id .laden (some g.carrier) (misread g.carrier) s) := by
  unfold endCancelling
  rw [if_pos hp, if_neg hc, mismatch_eq]

theorem endCancelling_empty (hp : g.present = false) : endCancelling v y g s = emptyHanded v y.id .cancelled s := by
  unfold endCancelling
  rw [if_neg (by simp [hp])]
  rfl

theorem onward_raiseMismatch (v m c : Nat) (s : State) : Onward s (raiseMismatch v m c s) := onward_raise _ _ s

theorem flagSet_raiseMismatch (v m c : Nat) (s : State) : flagSet (raiseMismatch v m c s) .carrierMismatch = true :=
  flagSet_raise _ _ _

theorem outbound_raiseMismatch (v m c : Nat) (s : State) : s.fli.outbound <+: (raiseMismatch v m c s).fli.outbound :=
  (acts_raise _ _ s).outbound

/-- What the end of a pick-up of move `m` of carrier `c` leaves, by what the gripper reports; `y` is the record of the
move as it stands. -/
structure PickLeaves (v m : Nat) (x : Vehicle) (c : Nat) (y : Move) (g : Gripper) (s t : State) : Prop where
  loaded : g.present = true → g.carrier = c →
    Handled v m { x with carrier := some g.carrier, state := worksAs .laden x.state } s t
      ∧ findMove t m = some { y with state := .carrying, confirm := .absent }
      ∧ (occupancy s < 56 → s.fli.outbound ++ [moveReport s m 5 (y.vehicle.getD 0) y.age] <+: t.fli.outbound)
  misread : g.present = true → g.carrier ≠ c →
    Handled v m { x with carrier := some g.carrier, state := worksAs .laden x.state } s t
      ∧ findMove t m = some { misread g.carrier y with confirm := .absent } ∧ flagSet t .carrierMismatch = true
      ∧ (occupancy s < 56 → s.fli.outbound ++ [moveReport s m 8 (y.vehicle.getD 0) y.age] <+: t.fli.outbound)
  empty : g.present = false →
    Handled v m { x with carrier := none, move := none, state := worksAs .idle x.state } s t
      ∧ findMove t m = none ∧ flagSet t .carrierMismatch = true
      ∧ (occupancy s < 56 → s.fli.outbound ++ [moveReport s m 11 (y.vehicle.getD 0) y.age] <+: t.fli.outbound)

theorem misread_handled {m : Nat} {x : Vehicle} (c : Nat) (hx : vehicle s v = some x) (hy : findMove s m = some y) :
    ∀ t, t = raiseMismatch v m c (carryOn v m .laden (some c) (misread c) s) →
    Handled v m { x with carrier := some c, state := worksAs .laden x.state } s t
      ∧ findMove t m = some { misread c y with confirm := .absent } ∧ flagSet t .carrierMismatch = true
      ∧ (occupancy s < 56 → s.fli.outbound ++ [moveReport s m 8 (y.vehicle.getD 0) y.age] <+: t.fli.outbound) := by
  rintro t rfl
  have hon := onward_raiseMismatch v m c (carryOn v m .laden (some c) (misread c) s)
  have hmove := findMove_carryOn (v := v) (f := misread c) .laden (some c) hy (findMove_id hy).1 (by nofun)
  refine ⟨(handled_carryOn (f := misread c) .laden (some c) (fun _ => rfl) hx).onward hon, (hon.moves.move m).absent hmove rfl,
    flagSet_raiseMismatch _ _ _ _, fun hroom => ?_⟩
  exact (outbound_carryOn (f := misread c) .laden (some c) hy hroom).trans (outbound_raiseMismatch _ _ _ _)

/-- The move is named by its id in the record the handling began with, `y`. -/
theorem pickLeaves_endPick {m : Nat} {x : Vehicle} {y₀ : Move} (hid : y.id = m) (hx : vehicle s v = some x)
    (hy : findMove s m = some y₀) : PickLeaves v m x y.carrier y₀ g s (endPick v y g s) where
  loaded hp hc := by
    rw [endPick_loaded hp hc, hid]
    exact ⟨handled_carryOn (f := inState .carrying) .laden _ (fun _ => rfl) hx,
      findMove_carryOn (f := inState .carrying) .laden _ hy (findMove_id hy).1 (by nofun),
      outbound_carryOn (f := inState .carrying) .laden _ hy⟩
  misread hp hc := by
    rw [endPick_misread hp hc, hid]
    exact misread_handled g.carrier hx hy _ rfl
  empty hp := by
    have hon := onward_raiseMismatch v m 0 (emptyHanded v m .failed s)
    rw [endPick_empty hp, hid]
    exact ⟨(handled_emptyHanded .failed hx).onward hon, (hon.moves.move m).none (findMove_emptyHanded .failed),
      flagSet_raiseMismatch _ _ _ _, fun hroom => (outbound_emptyHanded .failed hy hroom).trans (outbound_raiseMismatch _ _ _ _)⟩

end

/-! ### The end of a deposit (R105, R122) -/

section
variable {s : State} {v : Nat} {y : Move} {g : Gripper}

theorem endDeposit_kept (hp : g.present = true) :
    endDeposit v y g s =
      giveUpNext v (enterWork v .laden (setCarrier v (some g.carrier) (toMoveState y.id .carrying s))) := by
  unfold endDeposit
  rw [if_pos hp]

/-- How a delivery ends. -/
def deliveryOutcome (y : Move) : ReportState := if y.returnFlag then .cancelled else .delivered

theorem endDeposit_done {x : Vehicle} (hp : g.present = false) (hx : vehicle s v = some x) (hn : x.nextMove = none) :
    endDeposit v y g s = emptyHanded v y.id (deliveryOutcome y) s := by
  have hnext : (vehicle (setMoveField v none (setCarrier v none (removeMove y.id (deliveryOutcome y) s))) v).bind
      Vehicle.nextMove = none := by
    simp [hx, hn]
  unfold endDeposit
  rw [if_neg (by simp [hp])]
  unfold deliveryOutcome at hnext ⊢
  dsimp only
  rw [hnext]
  rfl

theorem endDeposit_handOver {x : Vehicle} {n : Nat} (hp : g.present = false) (hx : vehicle s v = some x)
    (hn : x.nextMove = some n) :
    endDeposit v y g s =
      handOver v n (setMoveField v none (setCarrier v none (removeMove y.id (deliveryOutcome y) s))) := by
  have hnext : (vehicle (setMoveField v none (setCarrier v none (removeMove y.id (deliveryOutcome y) s))) v).bind
      Vehicle.nextMove = some n := by
    simp [hx, hn]
  unfold endDeposit
  rw [if_neg (by simp [hp])]
  unfold deliveryOutcome at hnext ⊢
  dsimp only
  rw [hnext]

end

/-! ### An assignment (R98, R121) -/

section
variable {s : State} {v m : Nat} {x : Vehicle} {y : Move}

/-- The record of a move that becomes ASSIGNED. -/
def assignedTo (v : Nat) (c : ConfirmDeadline) (z : Move) : Move := { z with state := .assigned, vehicle := some v, confirm := c }

/-- The vehicle has its move and its ASSIGN, before its working state changes. -/
def handedMove (m v : Nat) (s : State) : State :=
  makeAssignDue v m (setMoveField v (some m) (changeMove m (assignedTo v (confirmFromNow s)) s))

theorem onward_assignTo (m v : Nat) (s : State) : Onward (enterWork v .toSource (handedMove m v s)) (assignTo m v s) :=
  onward_enterAndBuild v .toSource _

theorem vehicle_handedMove (hx : vehicle s v = some x) :
    vehicle (enterWork v .toSource (handedMove m v s)) v = some { x with
      move := some m, state := worksAs .toSource x.state
      due := { x.due with withdraw := x.due.withdraw.filter (· ≠ m), assign := some 0 } } := by
  simp [handedMove, hx]

theorem vehicle_handedMove_of_ne {u : Nat} (h : u ≠ v) :
    vehicle (enterWork v .toSource (handedMove m v s)) u = vehicle s u := by
  simp [handedMove, h]

theorem vehicle_assignTo (hx : vehicle s v = some x) :
    ∃ z, vehicle (assignTo m v s) v = some z ∧ Tended { x with
      move := some m, state := worksAs .toSource x.state
      due := { x.due with withdraw := x.due.withdraw.filter (· ≠ m), assign := some 0 } } z :=
  (onward_assignTo m v s).vehicle (vehicle_handedMove hx)

theorem findMove_handedMove (k : Nat) : findMove (enterWork v .toSource (handedMove m v s)) k =
    findMove (changeMove m (assignedTo v (confirmFromNow s)) s) k := by
  rw [findMove_enterWork, handedMove, findMove_makeAssignDue, findMove_setMoveField]

theorem findMove_assignTo (hy : findMove s m = some y) :
    ∃ w, findMove (assignTo m v s) m = some w ∧ w = { y with state := .assigned, vehicle := some v, confirm := w.confirm } := by
  obtain ⟨z, hz, hzeq⟩ := findMove_changeMove_assigned (f := assignedTo v (confirmFromNow s)) hy (findMove_id hy).1 rfl
  rw [← findMove_handedMove] at hz
  obtain ⟨w, hw, hweq⟩ := ((onward_assignTo m v s).moves.move m).some hz
  rw [hzeq] at hweq
  exact ⟨w, hw, hweq⟩

theorem moveKept_assignTo {k : Nat} (h : k ≠ m) : MoveKept k s (assignTo m v s) := by
  refine MoveKept.trans ?_ ((onward_assignTo m v s).moves.move k)
  have := moveKept_changeMove (f := assignedTo v (confirmFromNow s)) (fun _ h => h) h s
  unfold MoveKept at this ⊢
  rwa [findMove_handedMove]

end

/-! ### A carrier no move accounts for (R93) -/

section
variable {s : State} {v c : Nat} {x : Vehicle}

/-- The record made for it. -/
def unroutedRecord (k v c : Nat) : Move :=
  { id := k, carrier := c, source := none, dest := none, cls := 3, age := 0, seq := 0, state := .unrouted
    vehicle := some v, confirm := .absent, returnFlag := false, urgency := 0 }

theorem createUnrouted_of_room (h : s.mq.moves.length < 128) (v c : Nat) :
    createUnrouted v c s = reportMove (freshMoveId s) (.now .unrouted) v 0
      (updVehicle v (fun y => { y with move := some (freshMoveId s), carrier := some c })
        (appendMove (unroutedRecord (freshMoveId s) v c) s)) := by
  unfold createUnrouted
  rw [if_pos (show s.mq.moves.length < Config.movesMax from h)]
  rfl

theorem vehicle_createUnrouted (h : s.mq.moves.length < 128) (hx : vehicle s v = some x) :
    vehicle (createUnrouted v c s) v = some { x with move := some (freshMoveId s), carrier := some c } := by
  rw [createUnrouted_of_room h, vehicle_reportMove,
    vehicle_updVehicle v v (fun y => { y with move := some (freshMoveId s), carrier := some c }) _ fun _ h => h,
    vehicle_appendMove, hx]
  simp

theorem findMove_createUnrouted (h : s.mq.moves.length < 128) :
    findMove (createUnrouted v c s) (freshMoveId s) =
      some { unroutedRecord (freshMoveId s) v c with seq := s.mq.arrivals } := by
  have hnew : findMove s (freshMoveId s) = none := freshMoveId_free s (show s.mq.moves.length ≤ Config.movesMax from h.le)
  rw [createUnrouted_of_room h]
  refine ((movesKept_reportMove _ _ _ _ _).move _).absent ?_ rfl
  rw [findMove_updVehicle, findMove_appendMove, hnew]
  simp [unroutedRecord]

theorem moveKept_createUnrouted (h : s.mq.moves.length < 128) {k : Nat} (hk : k ≠ freshMoveId s) :
    MoveKept k s (createUnrouted v c s) := by
  rw [createUnrouted_of_room h]
  refine MoveKept.trans (.inl ?_) ((movesKept_reportMove _ _ _ _ _).move k)
  rw [findMove_updVehicle, findMove_appendMove, if_neg (by simpa [unroutedRecord] using hk), Option.or_none]

/-- The search for an id ends among the first 129, since at most 128 are held. -/
theorem freshMoveId_found (h : s.mq.moves.length < 128) :
    ∃ k, (List.range 129).find? (fun i => (findMove s (65535 - i)).isNone) = some k ∧ freshMoveId s = 65535 - k := by
  have hfree : ∃ i ∈ List.range 129, (findMove s (65535 - i)).isNone = true := by
    by_contra hnone
    have hheld : (List.range 129).map (65535 - ·) ⊆ s.mq.moves.map (·.id) := fun m hm => by
      obtain ⟨i, hi, rfl⟩ := List.mem_map.1 hm
      have hne : findMove s (65535 - i) ≠ none := fun hn => hnone ⟨i, hi, by rw [hn]; rfl⟩
      obtain ⟨y, hy⟩ := Option.ne_none_iff_exists'.1 hne
      exact List.mem_map.2 ⟨y, (findMove_id hy).2, (findMove_id hy).1⟩
    have hdistinct : ((List.range 129).map (65535 - ·)).Nodup :=
      List.Nodup.map_on (fun i hi j hj heq => by
        have := List.mem_range.1 hi
        have := List.mem_range.1 hj
        omega) List.nodup_range
    have hlen := (hdistinct.subperm hheld).length_le
    rw [List.length_map, List.length_map, List.length_range] at hlen
    omega
  obtain ⟨k, hk⟩ := Option.isSome_iff_exists.1 (List.find?_isSome.2 hfree)
  refine ⟨k, hk, ?_⟩
  unfold freshMoveId
  rw [List.find?_map]
  change (Option.map _ ((List.range 129).find? fun i => (findMove s (65535 - i)).isNone)).getD 0 = _
  rw [hk]
  rfl

/-- Every id above the one taken is held (R93). -/
theorem freshMoveId_highest (h : s.mq.moves.length < 128) {j : Nat} (hj : freshMoveId s < j) (htop : j ≤ 65535) :
    findMove s j ≠ none := by
  obtain ⟨k, hk, heq⟩ := freshMoveId_found h
  obtain ⟨-, hrange, hfirst⟩ := List.find?_range_eq_some.1 hk
  have hearlier := hfirst (65535 - j) (by omega)
  rw [show 65535 - (65535 - j) = j by omega] at hearlier
  intro hnone
  rw [hnone] at hearlier
  cases hearlier

end

end Sys2Proof.Machine

/-! PROOFS. HOIST-DONE by the state of the move (R101, R104, R105, R107, R109, R122, R125). -/

namespace Sys2Proof.Machine

open Sys2Proof.Says

/-! ### The rule for a hoist's end -/

theorem worksAs_worksAs (w u : WorkState) (st : VState) : worksAs w (worksAs u st) = worksAs w st := by
  cases st <;> rfl

section
variable {s : State} {v seg m : Nat} {y : Move} {g : Gripper}

theorem takeHoistDone_of_concerned (hc : concerned s v m = some y) :
    takeHoistDone v seg m g s = if expectedSegment s y = some seg then endHoist v y g s else s := by
  unfold takeHoistDone
  rw [hc]

theorem takeHoistDone_of_stray (hc : concerned s v m = none) (hp : preemptionOf s v m = none) :
    takeHoistDone v seg m g s = strayDone v m g s := by
  unfold takeHoistDone
  rw [hc, hp]

theorem takeHoistDone_of_undone {e : Preemption} {t : State} (hc : concerned s v m = none)
    (hp : preemptionOf s v m = some e) (ht : preemptedStart v m seg e s = (t, true)) (hy : findMove t m = some y) :
    takeHoistDone v seg m g s = endPick v y g t := by
  unfold takeHoistDone
  rw [hc, hp]
  dsimp only
  rw [ht]
  dsimp only
  rw [hy]

theorem endHoist_of_picking (h : y.state = .picking) : endHoist v y g s = endPick v y g s := by
  unfold endHoist
  rw [h]

theorem endHoist_of_cancelling (h : y.state = .cancelling) : endHoist v y g s = endCancelling v y g s := by
  unfold endHoist
  rw [h]

theorem endHoist_of_delivering (h : y.state = .delivering) : endHoist v y g s = endDeposit v y g s := by
  unfold endHoist
  rw [h]

theorem endHoist_of_assigned (h : y.state = .assigned ∨ y.state = .enroute) :
    endHoist v y g s = endPick v y g (enterWork v .acquiring (toMoveState y.id .picking s)) := by
  rw [← startHoist_source h]
  unfold endHoist
  obtain h | h := h <;> rw [h]

theorem endHoist_of_carrying (h : y.state = .carrying) :
    endHoist v y g s = endDeposit v y g (enterWork v .depositing (toMoveState y.id .delivering s)) := by
  rw [← startHoist_dest h]
  unfold endHoist
  rw [h]

end

section
variable {s : State} {e : TrackEntry} {rest : List TrackEntry} {d : Said} {x : Vehicle} {y : Move}

theorem exec_hoistDone (hs : TakesStatus s e rest .hoistDone d x) :
    exec .statusHoistDone s = .next (takeHoistDone e.src d.seg d.move (dataOf d).grip (heard s e rest)) :=
  congrArg Host.Outcome.next (statusRow_of_present hs)

/-- A hoist's end of the vehicle's own move at the segment expected. -/
theorem exec_hoistDone_expected (hs : TakesStatus s e rest .hoistDone d x) (hy : Concerns s x d y)
    (hseg : expectedSegment s y = some d.seg) :
    exec .statusHoistDone s = .next (endHoist e.src y (dataOf d).grip (heard s e rest)) := by
  rw [exec_hoistDone hs, takeHoistDone_of_concerned (concerned_heard hs.2.2.1 hy.1 hy.2)]
  exact congrArg Host.Outcome.next (if_pos hseg)

theorem expected_at_source (hstate : y.state = .assigned ∨ y.state = .enroute ∨ y.state = .picking ∨ y.state = .cancelling)
    (hseg : AtSource s d y) : expectedSegment s y = some d.seg := (expectedSegment_source hstate).2 hseg

theorem expected_at_dest (hstate : y.state = .carrying ∨ y.state = .delivering) (hseg : AtDestination s d y) :
    expectedSegment s y = some d.seg := (expectedSegment_dest hstate).2 hseg

theorem pickEnds : Says.PickEnds := by
  intro s e rest d x y hs hy hstate hseg
  have hexec := exec_hoistDone_expected hs hy (expected_at_source (.inr (.inr (.inl hstate))) hseg)
  rw [endHoist_of_picking hstate] at hexec
  have hx' := vehicle_heard (rest := rest) hs.2.2.1
  have hmove : (hearing s e x).move = some d.move := hy.1
  have hends := pickLeaves_endPick (g := (dataOf d).grip) (findMove_id hy.2).1 hx' (by rw [findMove_heard, hy.2])
  generalize endPick e.src y (dataOf d).grip (heard s e rest) = t at hexec hends
  refine ⟨fun hp hc => ?_, fun hp hc => ?_, fun hp => ?_⟩
  · obtain ⟨⟨⟨z, hz, ht⟩, -, -⟩, hw, -⟩ := hends.loaded hp hc
    rw [ht.rest] at hz
    exact ⟨t, _, _, hexec, hw, rfl, hz, rfl, rfl, hmove⟩
  · obtain ⟨⟨⟨z, hz, ht⟩, -, -⟩, hw, hflag, -⟩ := hends.misread hp hc
    rw [ht.rest] at hz
    exact ⟨t, _, _, hexec, hflag, hw, rfl, hz, rfl, rfl, hmove⟩
  · obtain ⟨⟨⟨z, hz, ht⟩, -, -⟩, hw, hflag, hsent⟩ := hends.empty hp
    rw [ht.rest] at hz
    exact ⟨t, _, hexec, hflag, hw, hz, rfl, rfl, rfl, hsent⟩

theorem cancelEnds : Says.CancelEnds := by
  intro s e rest d x y n p hs hy hstate hseg hcell hp
  have hexec := exec_hoistDone_expected hs hy (expected_at_source (.inr (.inr (.inr hstate))) hseg)
  rw [endHoist_of_cancelling hstate] at hexec
  have hx' := vehicle_heard (rest := rest) hs.2.2.1
  have hy' : findMove (heard s e rest) d.move = some y := by rw [findMove_heard, hy.2]
  obtain ⟨hid, -⟩ := findMove_id hy.2
  refine ⟨fun hpres hc => ?_, fun hpres hc => ?_, fun hpres => ?_⟩
  · rw [endCancelling_loaded hpres hc, hid] at hexec
    obtain ⟨z, hz, ht⟩ := (handled_carryOn (f := returnDelivery (heard s e rest)) (m := d.move) .laden
      (some (dataOf d).grip.carrier) (fun _ => rfl) hx').vehicle
    have hw := findMove_carryOn (v := e.src) (f := returnDelivery (heard s e rest)) .laden
      (some (dataOf d).grip.carrier) hy' hid (by nofun)
    have hreturn : returnDelivery (heard s e rest) y =
        { y with state := .carrying, dest := some (n * 256 + p), returnFlag := true } := by
      unfold returnDelivery
      rw [hp, show (heard s e rest).mc.identity.cell = some n from hcell]
      rfl
    rw [hreturn] at hw
    rw [ht.rest] at hz
    exact ⟨_, _, _, hexec, hw, rfl, hz, rfl, rfl⟩
  · rw [endCancelling_misread hpres hc, hid] at hexec
    obtain ⟨⟨⟨z, hz, ht⟩, -, -⟩, hw, hflag, -⟩ := misread_handled (dataOf d).grip.carrier hx' hy' _ rfl
    rw [ht.rest] at hz
    exact ⟨_, _, hexec, hflag, hw, hz, rfl, rfl⟩
  · rw [endCancelling_empty hpres, hid] at hexec
    obtain ⟨z, hz, ht⟩ := (handled_emptyHanded (m := d.move) .cancelled hx').vehicle
    rw [ht.rest] at hz
    have hgone := findMove_emptyHanded (v := e.src) (m := d.move) (s := heard s e rest) .cancelled
    have hsent := outbound_emptyHanded (v := e.src) .cancelled hy'
    generalize emptyHanded e.src d.move .cancelled (heard s e rest) = t at hexec hz hgone hsent
    exact ⟨t, _, hexec, hgone, hz, rfl, rfl, rfl, hsent⟩

/-! ### The end of a deposit (R105) -/

/-- A vehicle that kept its carrier carries it again. -/
def carriesAgain (v m c : Nat) (s : State) : State := enterWork v .laden (setCarrier v (some c) (toMoveState m .carrying s))

theorem vehicle_carriesAgain {v m c : Nat} {s : State} {x : Vehicle} (hx : vehicle s v = some x) :
    vehicle (carriesAgain v m c s) v = some { x with carrier := some c, state := worksAs .laden x.state } := by
  simp [carriesAgain, hx]

theorem findMove_carriesAgain {v m c : Nat} {s : State} {y : Move} (hy : findMove s m = some y) :
    findMove (carriesAgain v m c s) m = some { y with state := .carrying, confirm := .absent } := by
  rw [carriesAgain, findMove_enterWork, findMove_setCarrier, findMove_toMoveState hy (by nofun)]

theorem fli_carriesAgain {v m c : Nat} {s : State} {y : Move} (hy : findMove s m = some y) (hroom : occupancy s < 56) :
    (carriesAgain v m c s).fli = (sending s (moveReport s m 5 (y.vehicle.getD 0) y.age)).fli := by
  rw [carriesAgain, fli_enterWork]
  exact fli_toMoveState hy hroom

end

end Sys2Proof.Machine

/-! PROOFS. HOIST-DONE: deposits, missed starts, stray events and a preemption undone (R101, R104, R105, R107, R122,
R124, R125). -/

namespace Sys2Proof.Machine

open Sys2Proof.Says

theorem worksAs_of_working {x : Vehicle} (h : x.isWorking = true) (w : WorkState) : worksAs w x.state = .work w := by
  unfold Vehicle.isWorking at h
  split at h
  next hstate => rw [hstate]; rfl
  next => cases h

/-- The next move of a vehicle is the only one that giving it up changes. -/
theorem moveKept_giveUpNext {v k : Nat} {s : State} (h : ∀ x, vehicle s v = some x → x.nextMove ≠ some k) :
    MoveKept k s (giveUpNext v s) := by
  unfold giveUpNext
  split
  · exact .refl k s
  next x hx =>
    split
    · exact .refl k s
    next n hn =>
      have hne : k ≠ n := fun hk => h x hx (by rw [hn, hk])
      have := moveKept_returnToWaiting hne (setNextMove v none s)
      unfold MoveKept at this ⊢
      rwa [findMove_setNextMove] at this

section
variable {s : State} {e : TrackEntry} {rest : List TrackEntry} {d : Said} {x : Vehicle} {y : Move}

/-- The vehicle before a next move is handed over: empty, without its old move. -/
def handedIn (v m : Nat) (out : ReportState) (s : State) : State :=
  setNextMove v none (setMoveField v none (setCarrier v none (removeMove m out s)))

theorem vehicle_handedIn {v m : Nat} {out : ReportState} {t : State} {w : Vehicle} (hw : vehicle t v = some w) :
    vehicle (handedIn v m out t) v = some { w with carrier := none, move := none, nextMove := none } := by
  simp [handedIn, hw]

theorem moveKept_handedIn {v m k : Nat} (out : ReportState) (t : State) (h : k ≠ m) : MoveKept k t (handedIn v m out t) := by
  have := moveKept_removeMove out h t
  unfold MoveKept at this ⊢
  rwa [handedIn, findMove_setNextMove, findMove_setMoveField, findMove_setCarrier]

theorem findMove_handedIn {v m : Nat} (out : ReportState) (t : State) : findMove (handedIn v m out t) m = none := by
  rw [handedIn, findMove_setNextMove, findMove_setMoveField, findMove_setCarrier, findMove_removeMove]

theorem depositEnds : Says.DepositEnds := by
  intro s e rest d x y hs hy hstate hseg
  have hexec := exec_hoistDone_expected hs hy (expected_at_dest (.inr hstate) hseg)
  rw [endHoist_of_delivering hstate] at hexec
  have hx' := vehicle_heard (rest := rest) hs.2.2.1
  have hy' : findMove (heard s e rest) d.move = some y := by rw [findMove_heard, hy.2]
  obtain ⟨hid, -⟩ := findMove_id hy.2
  refine ⟨fun hp hnext => ?_, fun hp hnext => ?_, fun n q hp hnext hne hq hwork => ?_⟩
  · rw [endDeposit_kept hp, hid] at hexec
    have hkept := vehicle_carriesAgain (m := d.move) (c := (dataOf d).grip.carrier) hx'
    have hw := findMove_carriesAgain (v := e.src) (c := (dataOf d).grip.carrier) hy'
    have hsame : MoveKept d.move (carriesAgain e.src d.move (dataOf d).grip.carrier (heard s e rest))
        (giveUpNext e.src (carriesAgain e.src d.move (dataOf d).grip.carrier (heard s e rest))) :=
      moveKept_giveUpNext fun w hw => by
        rw [hkept] at hw
        cases hw
        exact hnext
    exact ⟨_, _, _, hexec, hsame.absent hw rfl, rfl, rfl, vehicle_giveUpNext hkept, rfl, rfl, rfl, rfl⟩
  · rw [endDeposit_done hp hx' hnext, hid] at hexec
    obtain ⟨z, hz, ht⟩ := (handled_emptyHanded (m := d.move) (deliveryOutcome y) hx').vehicle
    have hgone := findMove_emptyHanded (v := e.src) (m := d.move) (s := heard s e rest) (deliveryOutcome y)
    have hsent := outbound_emptyHanded (v := e.src) (deliveryOutcome y) hy'
    have hcode : (deliveryOutcome y).code = if y.returnFlag then 10 else 9 := by
      unfold deliveryOutcome
      split <;> rfl
    rw [ht.rest] at hz
    rw [hcode] at hsent
    generalize emptyHanded e.src d.move (deliveryOutcome y) (heard s e rest) = t at hexec hz hgone hsent
    exact ⟨t, _, hexec, hgone, hz, rfl, rfl, rfl, hsent⟩
  · rw [endDeposit_handOver hp hx' hnext, hid] at hexec
    have hin := vehicle_handedIn (m := d.move) (out := deliveryOutcome y) hx'
    obtain ⟨q', hq', hqeq⟩ := (moveKept_handedIn (v := e.src) (deliveryOutcome y) (heard s e rest) hne).some
      (show findMove (heard s e rest) n = some q by rw [findMove_heard, hq])
    obtain ⟨z, hz, ht⟩ := vehicle_assignTo (m := n) hin
    obtain ⟨w, hw, hweq⟩ := findMove_assignTo (v := e.src) hq'
    have hgone := (moveKept_assignTo (v := e.src) (Ne.symm hne)).none (findMove_handedIn (v := e.src) (m := d.move)
      (deliveryOutcome y) (heard s e rest))
    change exec .statusHoistDone s = .next (assignTo n e.src (handedIn e.src d.move (deliveryOutcome y) (heard s e rest))) at hexec
    generalize assignTo n e.src (handedIn e.src d.move (deliveryOutcome y) (heard s e rest)) = t at hexec hz hw hgone
    rw [ht.rest] at hz
    refine ⟨t, _, w, hexec, hgone, hz, worksAs_of_working hwork .toSource, rfl, rfl, rfl, rfl, hw, ?_, ?_, ?_⟩
    · rw [hweq]
    · rw [hweq]
    · rw [hweq, hqeq]

/-! ### Missed starts (R104, R105) -/

/-- The two reports of a start and an end made together. -/
theorem two_reports {s w t : State} {m a b : Nat} {v g v' g' : Nat} (hw : w.fli.outbound = s.fli.outbound ++ [moveReport s m a v g])
    (hid : w.mc.identity = s.mc.identity) (hres : w.fli.reservations = s.fli.reservations) (hroom : occupancy s < 55)
    (ht : occupancy w < 56 → w.fli.outbound ++ [moveReport w m b v' g'] <+: t.fli.outbound) :
    s.fli.outbound ++ [moveReport s m a v g, moveReport s m b v' g'] <+: t.fli.outbound := by
  have hframe : moveReport w m b v' g' = moveReport s m b v' g' := by
    unfold moveReport frameOf
    rw [hid]
  have hocc : occupancy w < 56 := by
    unfold occupancy at hroom ⊢
    rw [hw, hres, List.length_append, List.length_singleton]
    omega
  have := ht hocc
  rwa [hw, hframe, List.append_assoc] at this

/-- The hoist whose start was missed has begun: what the state then shows. -/
structure Begun (s w : State) (v m : Nat) (x : Vehicle) (y : Move) (ws : WorkState) (st : MState) (code : Nat) : Prop where
  vehicle : vehicle w v = some { x with state := worksAs ws x.state }
  move : findMove w m = some { y with state := st, confirm := .absent }
  identity : w.mc.identity = s.mc.identity
  reservations : w.fli.reservations = s.fli.reservations
  sent : occupancy s < 56 → w.fli.outbound = s.fli.outbound ++ [moveReport s m code (y.vehicle.getD 0) y.age]

theorem begun_enterWork {s : State} {v m : Nat} {x : Vehicle} {y : Move} (hx : vehicle s v = some x)
    (hy : findMove s m = some y) (ws : WorkState) {st : MState} (hst : st ≠ .assigned) :
    Begun s (enterWork v ws (toMoveState m st s)) v m x y ws st (ReportState.now st).code where
  vehicle := by simp [hx]
  move := by rw [findMove_enterWork, findMove_toMoveState hy hst]
  identity := by
    rw [enterWork_mc]
    exact (reporting_changeMove m _ s).identity
  reservations := by
    rw [fli_enterWork]
    exact (acts_toMoveState m st s hst).reservations
  sent hroom := by
    rw [fli_enterWork, fli_toMoveState hy hroom]
    rfl

theorem missedStarts : Says.MissedStarts := by
  intro s e rest d x y hs hy
  have hx' := vehicle_heard (rest := rest) hs.2.2.1
  have hy' : findMove (heard s e rest) d.move = some y := by rw [findMove_heard, hy.2]
  have hmove : (hearing s e x).move = some d.move := hy.1
  obtain ⟨hid, -⟩ := findMove_id hy.2
  refine ⟨fun hstate hseg => ?_, fun hstate hseg hnext => ?_⟩
  · have hexec := exec_hoistDone_expected hs hy (expected_at_source (hstate.elim .inl fun h => .inr (.inl h)) hseg)
    rw [endHoist_of_assigned hstate, hid] at hexec
    have hbegun := begun_enterWork hx' hy' .acquiring (st := .picking) (by nofun)
    generalize enterWork e.src .acquiring (toMoveState d.move .picking (heard s e rest)) = w at hexec hbegun
    have hends := pickLeaves_endPick (g := (dataOf d).grip) hid hbegun.vehicle hbegun.move
    generalize endPick e.src y (dataOf d).grip w = t at hexec hends
    have hreports : ∀ {code}, (occupancy w < 56 →
        w.fli.outbound ++ [moveReport w d.move code (y.vehicle.getD 0) y.age] <+: t.fli.outbound) → occupancy s < 55 →
        s.fli.outbound ++ [moveReport s d.move 4 (y.vehicle.getD 0) y.age,
          moveReport s d.move code (y.vehicle.getD 0) y.age] <+: t.fli.outbound := fun hsent hroom =>
      two_reports (s := heard s e rest) (hbegun.sent (show occupancy s < 56 by omega)) hbegun.identity hbegun.reservations
        hroom hsent
    refine ⟨fun hp hc => ?_, fun hp hc => ?_, fun hp => ?_⟩
    · obtain ⟨⟨⟨z, hz, ht⟩, -, -⟩, hw, hsent⟩ := hends.loaded hp hc
      rw [ht.rest] at hz
      exact ⟨t, _, hexec, hz, worksAs_worksAs _ _ _, rfl, hw, hreports hsent⟩
    · obtain ⟨⟨⟨z, hz, ht⟩, -, -⟩, hw, hflag, hsent⟩ := hends.misread hp hc
      rw [ht.rest] at hz
      exact ⟨t, _, hexec, hz, worksAs_worksAs _ _ _, rfl, hflag, hreports hsent, hw⟩
    · obtain ⟨⟨⟨z, hz, ht⟩, -, -⟩, hw, hflag, hsent⟩ := hends.empty hp
      rw [ht.rest] at hz
      exact ⟨t, _, hexec, hz, worksAs_worksAs _ _ _, rfl, rfl, hflag, hw, hreports hsent⟩
  · have hexec := exec_hoistDone_expected hs hy (expected_at_dest (.inl hstate) hseg)
    rw [endHoist_of_carrying hstate, hid] at hexec
    have hbegun := begun_enterWork hx' hy' .depositing (st := .delivering) (by nofun)
    generalize enterWork e.src .depositing (toMoveState d.move .delivering (heard s e rest)) = w at hexec hbegun
    have hreports : ∀ {t : State} {code}, (occupancy w < 56 →
        w.fli.outbound ++ [moveReport w d.move code (y.vehicle.getD 0) y.age] <+: t.fli.outbound) → occupancy s < 55 →
        s.fli.outbound ++ [moveReport s d.move 6 (y.vehicle.getD 0) y.age,
          moveReport s d.move code (y.vehicle.getD 0) y.age] <+: t.fli.outbound := fun hsent hroom =>
      two_reports (s := heard s e rest) (hbegun.sent (show occupancy s < 56 by omega)) hbegun.identity hbegun.reservations
        hroom hsent
    refine ⟨fun hp => ?_, fun hp => ?_⟩
    · rw [endDeposit_kept hp, hid] at hexec
      have hkept := vehicle_carriesAgain (m := d.move) (c := (dataOf d).grip.carrier) hbegun.vehicle
      have hw := findMove_carriesAgain (v := e.src) (c := (dataOf d).grip.carrier) hbegun.move
      have hsent : occupancy w < 56 → w.fli.outbound ++ [moveReport w d.move 5 (y.vehicle.getD 0) y.age] <+:
          (carriesAgain e.src d.move (dataOf d).grip.carrier w).fli.outbound := fun hroom => by
        rw [fli_carriesAgain hbegun.move hroom]
        exact List.prefix_rfl
      have hgive : giveUpNext e.src (carriesAgain e.src d.move (dataOf d).grip.carrier w) =
          carriesAgain e.src d.move (dataOf d).grip.carrier w := giveUpNext_of_none fun z hz => by
        rw [hkept] at hz
        cases hz
        exact hnext
      change exec .statusHoistDone s = .next (giveUpNext e.src (carriesAgain e.src d.move (dataOf d).grip.carrier w)) at hexec
      rw [hgive] at hexec
      exact ⟨_, _, hexec, hkept, worksAs_worksAs _ _ _, rfl, hw, hreports hsent⟩
    · rw [endDeposit_done hp hbegun.vehicle hnext, hid] at hexec
      obtain ⟨z, hz, ht⟩ := (handled_emptyHanded (m := d.move) (deliveryOutcome y) hbegun.vehicle).vehicle
      have hgone := findMove_emptyHanded (v := e.src) (m := d.move) (s := w) (deliveryOutcome y)
      have hsent := outbound_emptyHanded (v := e.src) (deliveryOutcome y) hbegun.move
      have hcode : (deliveryOutcome y).code = if y.returnFlag then 10 else 9 := by
        unfold deliveryOutcome
        split <;> rfl
      rw [ht.rest] at hz
      rw [hcode] at hsent
      generalize emptyHanded e.src d.move (deliveryOutcome y) w = t at hexec hz hgone hsent
      exact ⟨t, _, hexec, hz, worksAs_worksAs _ _ _, rfl, rfl, hgone, hreports hsent⟩

end

end Sys2Proof.Machine

/-! PROOFS. HOIST-DONE: stray events and a preemption undone (R101, R107, R124, R125). -/

namespace Sys2Proof.Machine

open Sys2Proof.Says

/-! ### A carrier taken up by an idle vehicle (R107) -/

section
variable {s : State} {v m c : Nat} {x : Vehicle}

theorem strayPick_of_room (h : s.mq.moves.length < 128) (hx : vehicle s v = some x) :
    strayPick v c s = raiseMismatch v (freshMoveId s) c (enterAndBuild v .laden (createUnrouted v c s)) := by
  have hv := vehicle_createUnrouted (c := c) h hx
  unfold strayPick
  dsimp only
  rw [hv]
  rfl

theorem vehicle_withdrawNamed (hx : vehicle s v = some x) :
    ∃ y, vehicle (withdrawNamed v m s) v = some y ∧ y.state = x.state ∧ y.carrier = x.carrier ∧ y.move = x.move := by
  unfold withdrawNamed
  split
  · exact ⟨x, hx, rfl, rfl, rfl⟩
  · exact ⟨{ x with due := { x.due with withdraw := addWithdraw m x.due.withdraw, withdrawCount := 0 } },
      by simp [hx], rfl, rfl, rfl⟩

theorem findMove_withdrawNamed (k : Nat) : findMove (withdrawNamed v m s) k = findMove s k := by
  unfold withdrawNamed
  split
  · rfl
  · rw [findMove_makeWithdrawDue]

theorem strayPick_leaves (h : s.mq.moves.length < 128) (hx : vehicle s v = some x) (hidle : x.state = .work .idle) :
    flagSet (strayPick v c s) .carrierMismatch = true
    ∧ (∃ y, vehicle (strayPick v c s) v = some y ∧ y.state = .work .laden ∧ y.carrier = some c
        ∧ y.move = some (freshMoveId s))
    ∧ findMove (strayPick v c s) (freshMoveId s) =
        some { unroutedRecord (freshMoveId s) v c with seq := s.mq.arrivals } := by
  have hon : Onward (enterWork v .laden (createUnrouted v c s))
      (raiseMismatch v (freshMoveId s) c (enterAndBuild v .laden (createUnrouted v c s))) :=
    (onward_enterAndBuild v .laden _).trans (onward_raiseMismatch _ _ _ _)
  have hset : vehicle (enterWork v .laden (createUnrouted v c s)) v =
      some { x with move := some (freshMoveId s), carrier := some c, state := worksAs .laden x.state } := by
    rw [vehicle_enterWork, vehicle_createUnrouted h hx]
    simp
  rw [strayPick_of_room h hx]
  refine ⟨flagSet_raiseMismatch _ _ _ _, ?_, ?_⟩
  · obtain ⟨y, hy, ht⟩ := hon.vehicle hset
    rw [ht.rest] at hy
    exact ⟨_, hy, by rw [hidle]; rfl, rfl, rfl⟩
  · refine (hon.moves.move _).absent ?_ rfl
    rw [findMove_enterWork, findMove_createUnrouted h]

theorem strayDone_of_other {g : Gripper} (hx : vehicle s v = some x) (h : x.state ≠ .work .idle ∨ g.present = false) :
    strayDone v m g s = withdrawNamed v m s := by
  unfold strayDone
  rw [if_neg]
  rw [hx]
  obtain h | h := h <;> simp [h]

theorem strayDone_of_idle {g : Gripper} (hx : vehicle s v = some x) (h : x.state = .work .idle) (hp : g.present = true) :
    strayDone v m g s = withdrawNamed v m (strayPick v g.carrier s) := by
  unfold strayDone
  rw [if_pos]
  rw [hx]
  simp [h, hp]

end

section
variable {s : State} {e : TrackEntry} {rest : List TrackEntry} {d : Said} {x : Vehicle} {y : Move}

theorem strayHoistDone : Says.StrayHoistDone := by
  intro s e rest d x hs
  have hexec := exec_hoistDone hs
  have hx' := vehicle_heard (rest := rest) hs.2.2.1
  refine ⟨fun y hy hstate => ?_, fun hne hpre => ?_⟩
  · have hno : expectedSegment s y ≠ some d.seg := by
      obtain h | ⟨h, hseg⟩ | ⟨h, hseg⟩ := hstate
      · rw [expectedSegment_unrouted h]
        nofun
      · exact mt (expectedSegment_source (.inr (.inr (.inl h)))).1 hseg
      · exact mt (expectedSegment_dest (.inr h)).1 hseg
    rw [hexec, takeHoistDone_of_concerned (concerned_heard hs.2.2.1 hy.1 hy.2)]
    exact congrArg Host.Outcome.next (if_neg hno)
  · rw [takeHoistDone_of_stray (concerned_heard_of_ne hs.2.2.1 hne) (preemptionOf_eq_none (s := heard s e rest) hpre)] at hexec
    refine ⟨fun hother hm => ?_, fun hidle hp hroom => ?_⟩
    · rw [strayDone_of_other (g := (dataOf d).grip) hx' hother, withdrawNamed, if_neg hm] at hexec
      obtain ⟨w, hw, hmem, hstate, -⟩ := vehicle_makeWithdrawDue_same (m := d.move) hx'
      exact ⟨_, w, hexec, hw, hmem, (makeWithdrawDue_rest _ _ _).2.2.2.1, hstate⟩
    · rw [strayDone_of_idle hx' hidle hp] at hexec
      have hfresh := freshMoveId_free (heard s e rest) (show (heard s e rest).mq.moves.length ≤ Config.movesMax from hroom.le)
      obtain ⟨hflag, ⟨w, hw, hstate, hcarrier, hmove⟩, hmade⟩ :=
        strayPick_leaves (c := (dataOf d).grip.carrier) (s := heard s e rest) hroom hx' hidle
      generalize freshMoveId (heard s e rest) = k at hfresh hmove hmade
      generalize strayPick e.src (dataOf d).grip.carrier (heard s e rest) = t at hexec hflag hw hmade
      obtain ⟨z, hz, hzstate, hzcarrier, hzmove⟩ := vehicle_withdrawNamed (m := d.move) hw
      refine ⟨_, z, k, _, hexec, (acts_withdrawNamed _ _ _).flagSet hflag, hz, hzstate.trans hstate,
        hzcarrier.trans hcarrier, hzmove.trans hmove, hfresh, (findMove_withdrawNamed k).trans hmade, rfl, rfl, rfl⟩

/-! ### A preemption undone at the end of a hoist (R124, R125) -/

theorem preemptedHoistDone : Says.PreemptedHoistDone := by
  intro s e rest d x n y z hs hwork hmove hne hfind hz hy hstate hseg
  have hexec := exec_hoistDone hs
  have hx' := vehicle_heard (rest := rest) hs.2.2.1
  have hz' : findMove (heard s e rest) n = some z := by rw [findMove_heard, hz]
  have hy' : findMove (heard s e rest) d.move = some y := by rw [findMove_heard, hy]
  have hundone := preemptionUndone_undoPreemption hx' hz' hy' hne
  have hstart := preemptedStart_waiting (v := e.src) (seg := d.seg)
    (e := { vehicle := e.src, newMove := n, oldMove := d.move }) hy' (atSource_iff.2 hseg) hstate
  dsimp only at hstart
  generalize undoPreemption e.src d.move n (heard s e rest) = u at hundone hstart
  obtain ⟨hflag, hnew, hold, ⟨w, hw, hwstate, hwmove, hassign, hmem, -⟩, hpre, -⟩ := hundone
  obtain ⟨hyid, -⟩ := findMove_id hy
  obtain ⟨hzid, -⟩ := findMove_id hz
  rw [hyid] at hwmove
  rw [show z.id = n from hzid] at hmem
  have hold' : findMove u d.move = some { y with state := .picking, vehicle := some e.src, confirm := .absent } := hyid ▸ hold
  have hnew' : findMove u n = some { z with state := .waiting, vehicle := none, confirm := .absent } := hzid ▸ hnew
  rw [takeHoistDone_of_undone (concerned_heard_of_ne hs.2.2.1 fun h => hne (by rw [hmove] at h; exact Option.some.inj h))
    (show preemptionOf (heard s e rest) e.src d.move = _ from hfind) hstart hold'] at hexec
  have hends := pickLeaves_endPick (y := { y with state := .picking, vehicle := some e.src, confirm := .absent })
    (g := (dataOf d).grip) hyid hw hold'
  have hacts := acts_endPick e.src { y with state := .picking, vehicle := some e.src, confirm := .absent } (dataOf d).grip u
  generalize endPick e.src { y with state := .picking, vehicle := some e.src, confirm := .absent } (dataOf d).grip u = t
    at hexec hends hacts
  have hwork' : ∀ ws, worksAs ws w.state = .work ws := fun ws => by
    rw [hwstate, worksAs_worksAs]
    exact worksAs_of_working hwork ws
  have hflag' := hacts.flagSet hflag
  have hleft : ∀ {x'}, Handled e.src d.move x' u t → ∃ o v, findMove t n = some o ∧ o.state = .waiting ∧ o.vehicle = none
      ∧ o.age = z.age ∧ vehicle t e.src = some v ∧ Tended x' v ∧ ∀ q ∈ t.asu.preempts, q.vehicle ≠ e.src := fun h => by
    obtain ⟨v, hv, ht⟩ := h.vehicle
    exact ⟨_, v, (h.moves n hne).absent hnew' rfl, rfl, rfl, rfl, hv, ht, fun q hq => hpre q (h.preempts hq)⟩
  cases hp : d.present with
  | true =>
    by_cases hc : d.carrier = y.carrier
    · obtain ⟨hhandled, hmoved, -⟩ := hends.loaded hp hc
      obtain ⟨o, v, ho, hostate, hovehicle, hoage, hv, ht, hgone⟩ := hleft hhandled
      rw [ht.rest] at hv
      exact ⟨t, o, _, hexec, hflag', ho, hostate, hovehicle, hoage, hv, hassign, hmem, hgone,
        fun _ _ => ⟨hwork' .laden, rfl, hwmove, _, hmoved, rfl, rfl, hc.symm⟩, fun _ hne => absurd hc hne, by nofun⟩
    · obtain ⟨hhandled, hmoved, hmismatch, -⟩ := hends.misread hp hc
      obtain ⟨o, v, ho, hostate, hovehicle, hoage, hv, ht, hgone⟩ := hleft hhandled
      rw [ht.rest] at hv
      exact ⟨t, o, _, hexec, hflag', ho, hostate, hovehicle, hoage, hv, hassign, hmem, hgone,
        fun _ heq => absurd heq hc, fun _ _ => ⟨hwork' .laden, rfl, hwmove, hmismatch, _, hmoved, rfl, rfl, rfl⟩, by nofun⟩
  | false =>
    obtain ⟨hhandled, hmoved, hmismatch, -⟩ := hends.empty hp
    obtain ⟨o, v, ho, hostate, hovehicle, hoage, hv, ht, hgone⟩ := hleft hhandled
    rw [ht.rest] at hv
    exact ⟨t, o, _, hexec, hflag', ho, hostate, hovehicle, hoage, hv, hassign, hmem, hgone,
      by nofun, by nofun, fun _ => ⟨hwork' .idle, rfl, rfl, hmismatch, hmoved⟩⟩

/-- Settles O47: what each end of a hoist leaves, by the state of the move it concerns. -/
theorem hoistDoneEnds : Obligations.HoistDoneEnds :=
  ⟨pickEnds, cancelEnds, depositEnds, strayHoistDone, missedStarts, preemptedHoistDone⟩

end

end Sys2Proof.Machine

/-! PROOFS. O12: FORGET (R85, R86, R123, R126). -/

namespace Sys2Proof.Machine

open Sys2Proof.Says

section
variable {s : State} {f : FloorFrame} {rest : List FloorFrame} {v : Nat}

theorem exec_forget_of_serve {t : State} {code : Code} (hs : Takes s f rest) (hkind : f.kind = 0x22)
    (hpayload : f.payload = [byte v]) (hv : v < 256)
    (hh : serveForget f v (openRequest rest s) = (t, some (Reply.bare code))) :
    exec .forget s = .next (closed f code t) := by
  refine congrArg Host.Outcome.next (serveRequest_eq_closed hs (isKind_of_eq hkind) ?_)
  rw [withPayload_of_read (by rw [hpayload]; exact readNum1_byte hv), hh]

/-- The record goes; the moves stay, but for their CONFIRM deadlines, and so does the preemption list. -/
theorem forgetRecord_leaves (v : Nat) (s : State) : MovesKept s (forgetRecord v s)
    ∧ (forgetRecord v s).asu.preempts = s.asu.preempts
    ∧ ∀ y, vehicle (forgetRecord v s) v = some y → y.state = .arriving := by
  have hclaim := onward_of_worked (worked_withdrawClaim v s)
  have hgone := vehicle_removeHolder v (withdrawClaim v s).2
  obtain ⟨srt, line, hdrop⟩ := removeHolder_eq v (withdrawClaim v s).2
  have hsettle := onward_of_worked (worked_settle s ((dropHoldings v (withdrawClaim v s).2).1 ++ (withdrawClaim v s).1)
    (removeRecord v (dropHoldings v (withdrawClaim v s).2).2))
  change Onward _ (forgetRecord v s) at hsettle
  have hmoves : (removeRecord v (dropHoldings v (withdrawClaim v s).2).2).mq.moves = (withdrawClaim v s).2.mq.moves := by
    rw [hdrop]
  have hpre : (removeRecord v (dropHoldings v (withdrawClaim v s).2).2).asu.preempts = (withdrawClaim v s).2.asu.preempts := by
    rw [hdrop]
  exact ⟨hclaim.moves.trans (.trans (.inl hmoves) hsettle.moves), hsettle.preempts.trans (hpre.trans hclaim.preempts),
    fun y hy => (hsettle.newcomers v y hgone hy).1⟩

theorem preempts_giveUpNext_subset (v : Nat) (s : State) : (giveUpNext v s).asu.preempts ⊆ s.asu.preempts := by
  unfold giveUpNext
  split
  · exact fun _ h => h
  split
  · exact fun _ h => h
  · rw [returnToWaiting, preempts_setPassDue]
    exact preempts_changeMove_subset _ _ _

/-- What happens to the moves of a vehicle before its record goes. -/
def movesGivenUp (x : Vehicle) (s : State) : State :=
  giveUpNext x.id (match x.move with | some m => removeMove m .failed s | none => s)

theorem forgetVehicle_of_not_arriving {x : Vehicle} (h : x.state ≠ .arriving) (s : State) :
    forgetVehicle x s = forgetRecord x.id (movesGivenUp x s) := by
  unfold forgetVehicle
  split
  next harr _ => exact absurd harr h
  next => rfl

theorem forgetVehicle_cases (x : Vehicle) (s : State) :
    (∃ c, grantedClaimOf s x.id = some c ∧ forgetVehicle x s = abandonArrival c s)
      ∨ forgetVehicle x s = forgetRecord x.id (movesGivenUp x s) := by
  unfold forgetVehicle
  split
  next c _ hc => exact .inl ⟨c, hc, rfl⟩
  next => exact .inr rfl

theorem arriving_of_forgetVehicle {x y : Vehicle} (hy : vehicle (forgetVehicle x s) x.id = some y) : y.state = .arriving := by
  obtain ⟨c, hc, heq⟩ | heq := forgetVehicle_cases x s
  · have hkey := List.find?_some hc
    simp only [Bool.and_eq_true, beq_iff_eq] at hkey
    rw [heq, ← hkey.1] at hy
    exact (givesUp_abandonArrival c s).vehicle y hy
  · rw [heq] at hy
    exact (forgetRecord_leaves x.id _).2.2 y hy

theorem movesGivenUp_eq {x : Vehicle} {m : Nat} (hm : x.move = some m) (s : State) :
    movesGivenUp x s = giveUpNext x.id (removeMove m .failed s) := by
  unfold movesGivenUp
  rw [hm]

/-- The next move of the vehicle waits again. -/
theorem findMove_movesGivenUp_next {x : Vehicle} {n : Nat} {y : Move} (hx : vehicle s x.id = some x)
    (hn : x.nextMove = some n) (hne : x.move ≠ some n) (hy : findMove s n = some y) :
    ∃ z, findMove (movesGivenUp x s) n = some z ∧ z.state = .waiting ∧ z.vehicle = none ∧ z.age = y.age
      ∧ z.confirm = .absent := by
  have hback : ∀ {t}, vehicle t x.id = some x → MoveKept n s t → ∃ z, findMove (giveUpNext x.id t) n = some z
      ∧ z.state = .waiting ∧ z.vehicle = none ∧ z.age = y.age ∧ z.confirm = .absent := fun ht hk => by
    obtain ⟨z, hz, hzy⟩ := hk.some hy
    rw [giveUpNext_of_some ht hn, findMove_returnToWaiting (x := z) (by simpa using hz)]
    exact ⟨_, rfl, rfl, rfl, by rw [hzy], rfl⟩
  unfold movesGivenUp
  cases hm : x.move with
  | none => exact hback hx (.refl n s)
  | some m =>
    exact hback ((vehicle_removeMove _ _ _ _).trans hx) (moveKept_removeMove .failed (fun h => hne (by rw [hm, h])) s)

end

/-- Settles O12: a granted arrival is given up; any other vehicle loses its moves, then its record. -/
theorem forgetRemovesVehicle : Obligations.ForgetRemovesVehicle := by
  intro s f rest v hs hkind hpayload hv hin
  have hservice : dispatchRefused (openRequest rest s) = false := dispatchRefused_of_inService hin
  have hexec : ∀ {t code}, serveForget f v (openRequest rest s) = (t, some (Reply.bare code)) →
      exec .forget s = .next (closed f code t) := exec_forget_of_serve hs hkind hpayload hv
  refine ⟨fun h => ?_, fun h1 h254 hnone => ?_, fun x h1 h254 hx => ?_⟩
  · rw [← closed_openRequest]
    refine hexec ?_
    rw [serveForget, if_neg (by simp [hservice]), if_pos (by omega)]
    rfl
  · have hnone' : vehicle (openRequest rest s) v = none := hnone
    rw [← closed_openRequest]
    refine hexec ?_
    rw [serveForget, if_neg (by simp [hservice]), if_neg (by omega), hnone']
    rfl
  · have hx' : vehicle (openRequest rest s) v = some x := hx
    have hid := vehicle_id hx
    refine ⟨_, hexec (t := forgetVehicle x (openRequest rest s)) (code := .done) ?_, endsWithReply_closed _ _ _,
      fun y hy => ?_, fun hstate m hm => ?_, fun hstate n y hn hne hy => ?_⟩
    · rw [serveForget, if_neg (by simp [hservice]), if_neg (by omega), hx']
      rfl
    · exact arriving_of_forgetVehicle (x := x) (s := openRequest rest s) (hid ▸ hy)
    · show findMove (forgetVehicle x (openRequest rest s)) m = none
        ∧ (_ → ∀ q ∈ (forgetVehicle x (openRequest rest s)).asu.preempts, q.newMove ≠ m)
      rw [forgetVehicle_of_not_arriving hstate, movesGivenUp_eq hm]
      obtain ⟨hmoves, hpre, -⟩ := forgetRecord_leaves x.id (giveUpNext x.id (removeMove m .failed (openRequest rest s)))
      refine ⟨(hmoves.move m).none (findMove_giveUpNext_of_none (findMove_removeMove m .failed _)), fun hheld q hq => ?_⟩
      obtain ⟨z, hz⟩ := Option.ne_none_iff_exists'.1 hheld
      rw [hpre] at hq
      exact (preempts_removeMove .failed (show findMove (openRequest rest s) m = some z from hz) q
        (preempts_giveUpNext_subset _ _ hq)).2
    · obtain ⟨z, hz, hwaiting, hvehicle, hage, hconfirm⟩ := findMove_movesGivenUp_next (s := openRequest rest s)
        (by rw [hid]; exact hx') hn hne hy
      refine ⟨z, ?_, hwaiting, hvehicle, hage⟩
      show findMove (forgetVehicle x (openRequest rest s)) n = some z
      rw [forgetVehicle_of_not_arriving hstate]
      exact ((forgetRecord_leaves x.id _).1.move n).absent hz hconfirm

end Sys2Proof.Machine

/-! PROOFS. O35: ARRIVED, the end of a crossing (R26, R43, R44, R135). -/

namespace Sys2Proof.Machine

open Sys2Proof.Says

/-! ### The frames queued from a vehicle (R135, R148) -/

theorem queue_of_raised {s t : State} (h : Raised s t) : t.tli.queue = s.tli.queue := by
  cases h with
  | reported h => rw [show t = { s with su := t.su, fli := t.fli } from h]
  | deferred _ _ h => rw [h]
  | halted _ _ h =>
    rw [h]
    rfl

theorem queue_of_worked {s t : State} (h : Worked s t) : t.tli.queue = s.tli.queue := by rw [h.line]

theorem queue_removeMove (m : Nat) (out : ReportState) (s : State) : (removeMove m out s).tli.queue = s.tli.queue := by
  cases hx : findMove s m with
  | none =>
    unfold removeMove
    rw [hx]
  | some x =>
    rw [removeMove_eq out hx]
    exact (queue_of_raised (raised_reportMove _ _ _ _ _)).trans rfl

/-! ### A crossing that ends (R135) -/

/-- The move of a vehicle that has crossed is handed off. -/
def moveHandedOff (v : Nat) (s : State) : State :=
  match (vehicle s v).bind Vehicle.move with
  | some m => removeMove m .handedOff s
  | none => s

/-- Its queued frames go. -/
def framesGone (v : Nat) (s : State) : State :=
  if s.tli.queue.any (fun q => q.src == v) then discardFrames v s else s

/-- Its record, its holdings and its entry go. -/
def crossed (e : OutClaim) (s : State) : State :=
  dropOutClaim e.tag (removeRecord e.vehicle (dropHoldings e.vehicle s).2)

theorem crossingEnds_eq (e : OutClaim) (s : State) :
    crossingEnds e s = settle (framesGone e.vehicle (moveHandedOff e.vehicle s))
      (dropHoldings e.vehicle (framesGone e.vehicle (moveHandedOff e.vehicle s))).1
      (crossed e (framesGone e.vehicle (moveHandedOff e.vehicle s))) := rfl

theorem framesGone_eq (v : Nat) (s : State) : ∃ pacing, framesGone v s =
    { s with tli := { s.tli with queue := s.tli.queue.filter (fun q => q.src ≠ v), pacing := pacing } } := by
  unfold framesGone
  split
  · exact ⟨_, rfl⟩
  next h =>
    have hnone : s.tli.queue.filter (fun q => q.src ≠ v) = s.tli.queue :=
      List.filter_eq_self.2 fun q hq => by
        have := List.any_eq_false.1 (Bool.eq_false_iff.2 h) q hq
        simpa using this
    rw [hnone]
    exact ⟨s.tli.pacing, rfl⟩

theorem crossed_eq (e : OutClaim) (s : State) : ∃ srt line, crossed e s = { s with
    roster := s.roster.filter (fun p => p.2.id ≠ e.vehicle), srt := srt, tli := { s.tli with line := line }
    bxu := { s.bxu with outClaims := s.bxu.outClaims.filter fun c => c.tag ≠ e.tag } } := by
  obtain ⟨srt, line, h⟩ := removeHolder_eq e.vehicle s
  refine ⟨srt, line, ?_⟩
  rw [crossed, h]
  rfl

theorem vehicle_crossed (e : OutClaim) (s : State) : vehicle (crossed e s) e.vehicle = none :=
  vehicle_removeHolder e.vehicle s

theorem srt_crossed (e : OutClaim) (s : State) :
    (crossed e s).srt = (removeRecord e.vehicle (dropHoldings e.vehicle s).2).srt := rfl

theorem unarbitrated_crossed {e : OutClaim} {s : State} (h : Unarbitrated s) : Unarbitrated (crossed e s) := by
  obtain ⟨srt, line, heq⟩ := crossed_eq e s
  refine unarbitrated_of_noneWait h (fun hm => ?_) fun hw => NoneWait.congr (hw.removeHolder e.vehicle) (srt_crossed e s)
  rw [heq]
  exact hm

theorem waitsOf_removeHolder {v : Nat} {s : State} {x : Vehicle} (h : vehicle s v = some x) (j : Nat) :
    waitsOf (removeRecord v (dropHoldings v s).2) j = (waitsOf s j).filter fun w => !w.isVehicle v := by
  rw [waitsOf_congr (srt_removeHolder h), waitsOf_leaveWaits, waitsOf_releaseSegs]

section
variable {s : State} {v : Nat} {x : Vehicle} {m : Nat}

theorem moveHandedOff_of_move (hx : vehicle s v = some x) (hm : x.move = some m) :
    moveHandedOff v s = removeMove m .handedOff s := by
  unfold moveHandedOff
  rw [hx]
  show (match x.move with | some m => removeMove m .handedOff s | none => s) = _
  rw [hm]

/-- The reports, the moves and the mode are all that the report of a crossing changes. -/
theorem moveHandedOff_keeps (v : Nat) (s : State) : (moveHandedOff v s).roster = s.roster
    ∧ (moveHandedOff v s).board = s.board ∧ (moveHandedOff v s).tli.queue = s.tli.queue
    ∧ Reporting s (moveHandedOff v s) := by
  unfold moveHandedOff
  split
  · obtain ⟨hboard, -, -, hroster, -⟩ := removeMove_rest ‹Nat› .handedOff s
    exact ⟨hroster, hboard, queue_removeMove _ _ s, reporting_removeMove _ _ s⟩
  · exact ⟨rfl, rfl, rfl, .refl s⟩

end

/-- The vehicle, its frames and its entry are gone, whatever is arbitrated. -/
structure CrossingDone (e : OutClaim) (s t : State) : Prop where
  vehicle : ∀ y, vehicle t e.vehicle = some y → y.state = .arriving
  queue : t.tli.queue = s.tli.queue.filter (fun q => q.src ≠ e.vehicle)
  claims : ∀ c ∈ t.bxu.outClaims, c ∈ s.bxu.outClaims ∧ c.tag ≠ e.tag
    ∨ c.vehicle ≠ e.vehicle ∧ c.phase = .claiming (s.board.now + s.layout.tuning.tClaim)
  move : ∀ x m y, Machine.vehicle s e.vehicle = some x → x.move = some m → findMove s m = some y →
    findMove t m = none
      ∧ (occupancy s < 56 → s.fli.outbound ++ [moveReport s m 12 (y.vehicle.getD 0) y.age] <+: t.fli.outbound)

theorem crossingDone (e : OutClaim) (s : State) : CrossingDone e s (crossingEnds e s) := by
  obtain ⟨hroster, hboard, hqueue, hrep⟩ := moveHandedOff_keeps e.vehicle s
  obtain ⟨pacing, hframes⟩ := framesGone_eq e.vehicle (moveHandedOff e.vehicle s)
  obtain ⟨srt, line, hcrossed⟩ := crossed_eq e (framesGone e.vehicle (moveHandedOff e.vehicle s))
  have hgone := vehicle_crossed e (framesGone e.vehicle (moveHandedOff e.vehicle s))
  have hwork := worked_settle (framesGone e.vehicle (moveHandedOff e.vehicle s))
    (dropHoldings e.vehicle (framesGone e.vehicle (moveHandedOff e.vehicle s))).1
    (crossed e (framesGone e.vehicle (moveHandedOff e.vehicle s)))
  have hsent := (acts_settle (framesGone e.vehicle (moveHandedOff e.vehicle s))
    (dropHoldings e.vehicle (framesGone e.vehicle (moveHandedOff e.vehicle s))).1
    (crossed e (framesGone e.vehicle (moveHandedOff e.vehicle s)))).outbound
  rw [← crossingEnds_eq] at hwork hsent
  generalize crossingEnds e s = t at hwork hsent
  generalize crossed e (framesGone e.vehicle (moveHandedOff e.vehicle s)) = c at hwork hsent hcrossed hgone
  rw [hframes] at hcrossed
  refine ⟨fun y hy => (hwork.newcomers _ y hgone hy).1, ?_, fun d hd => ?_, fun x m y hx hm hy => ?_⟩
  · rw [queue_of_worked hwork, hcrossed, ← hqueue]
  · obtain hd | ⟨hphase, x, hx, -⟩ := hwork.outClaims d hd
    · rw [hcrossed] at hd
      obtain ⟨hd, htag⟩ := List.mem_filter.1 hd
      exact .inl ⟨hrep.bxu ▸ hd, of_decide_eq_true htag⟩
    · refine .inr ⟨fun hv => ?_, ?_⟩
      · rw [hv, hgone] at hx
        cases hx
      · rw [hphase, hcrossed]
        show OutPhase.claiming ((moveHandedOff e.vehicle s).board.now + (moveHandedOff e.vehicle s).layout.tuning.tClaim) = _
        rw [hboard, hrep.layout]
  · have hoff := moveHandedOff_of_move hx hm
    have hmq : c.mq = (removeMove m .handedOff s).mq := by rw [hcrossed, ← hoff]
    refine ⟨((onward_of_worked hwork).moves.move m).none ?_, fun hroom => ?_⟩
    · rw [findMove_congr (s := removeMove m .handedOff s) (by rw [hmq]), findMove_removeMove]
    · have hfli : c.fli = (removeMove m .handedOff s).fli := by rw [hcrossed, ← hoff]
      rw [hfli, fli_removeMove .handedOff hy hroom] at hsent
      exact hsent

/-! ### What a crossing leaves where nothing is arbitrated (R26, R43, R135) -/

/-- The whole effect but for the segment of the entry. -/
structure CrossingLeaves (e : OutClaim) (x : Vehicle) (m : Nat) (y : Move) (s t : State) : Prop where
  bxu : t.bxu = { s.bxu with outClaims := s.bxu.outClaims.filter fun c => c.tag ≠ e.tag }
  roster : t.roster = s.roster.filter (fun p => p.2.id ≠ e.vehicle)
  others : ∀ i, i ∉ x.held → resOf t i = resOf s i
  held : ∀ i q, i ∈ x.held → resOf s i = some q → ∃ r, resOf t i = some r ∧ LeftBy e.vehicle q r
  waits : ∀ i, waitsOf t i = (waitsOf s i).filter fun w => !w.isVehicle e.vehicle
  sent : occupancy s < 56 → t.fli.outbound = s.fli.outbound ++ [moveReport s m 12 (y.vehicle.getD 0) y.age]

theorem crossingLeaves {e : OutClaim} {s : State} {x : Vehicle} {m : Nat} {y : Move} (h : Unarbitrated s)
    (hx : vehicle s e.vehicle = some x) (hm : x.move = some m) (hy : findMove s m = some y) :
    CrossingLeaves e x m y s (crossingEnds e s) := by
  obtain ⟨hroster, hboard, hqueue, hrep⟩ := moveHandedOff_keeps e.vehicle s
  obtain ⟨pacing, hframes⟩ := framesGone_eq e.vehicle (moveHandedOff e.vehicle s)
  have hoff := moveHandedOff_of_move hx hm
  have hun : Unarbitrated (framesGone e.vehicle (moveHandedOff e.vehicle s)) := by
    rw [hframes]
    exact hrep.unarbitrated h
  have hsrt : (framesGone e.vehicle (moveHandedOff e.vehicle s)).srt = s.srt := by rw [hframes, ← hrep.srt]
  have hx' : vehicle (framesGone e.vehicle (moveHandedOff e.vehicle s)) e.vehicle = some x := by
    rw [← hx]
    refine vehicle_congr ?_ _
    rw [hframes, ← hroster]
  have hidle := crossingEnds_eq e s
  rw [settle_of_unarbitrated (unarbitrated_crossed hun)] at hidle
  rw [hidle]
  obtain ⟨srt, line, hcrossed⟩ := crossed_eq e (framesGone e.vehicle (moveHandedOff e.vehicle s))
  refine ⟨?_, ?_, fun i hi => ?_, fun i q hi hq => ?_, fun i => ?_, fun hroom => ?_⟩
  · rw [hcrossed, hframes, ← hrep.bxu]
  · rw [hcrossed, hframes, ← hroster]
  · rw [resOf_congr (srt_crossed e _), resOf_removeHolder_of_notMem hx' hi, resOf_congr hsrt]
  · obtain ⟨r, hr, hleft⟩ := leftBy_removeHolder hx' hi ((resOf_congr hsrt i).trans hq)
    exact ⟨r, (resOf_congr (srt_crossed e _) i).trans hr, hleft⟩
  · rw [waitsOf_congr (srt_crossed e _), waitsOf_removeHolder hx', waitsOf_congr hsrt]
  · rw [hcrossed, hframes, hoff]
    exact congrArg Fli.outbound (fli_removeMove .handedOff hy hroom)

/-! ### ARRIVED for an entry still CLAIMING, and for one GRANTED (R131, R135) -/

/-- The records of the vehicles other than `v`. -/
def recordsBut (v : Nat) (s : State) : Table Vehicle := s.roster.filter fun p => p.2.id ≠ v

theorem recordsBut_updVehicle {v : Nat} (f : Vehicle → Vehicle) (hid : ∀ x, x.id = v → (f x).id = v) (s : State) :
    recordsBut v (updVehicle v f s) = recordsBut v s := filter_updVehicle v f hid s.roster

theorem recordsBut_makeGrantDue (v : Nat) (s : State) : recordsBut v (makeGrantDue v s) = recordsBut v s :=
  recordsBut_updVehicle (fun x => if x.state = .arriving then x else { x with due := { x.due with grant := some 0 } })
    (fun x h => by
      dsimp only
      split
      · exact h
      · exact h) s

theorem recordsBut_grantTaken {e : OutClaim} {s : State} (hv : vehicle s e.vehicle ≠ none) :
    recordsBut e.vehicle (grantTaken e s) = recordsBut e.vehicle s := by
  unfold grantTaken
  rw [if_pos (by rw [inRoster_eq]; exact Option.isSome_iff_ne_none.2 hv)]
  dsimp only
  rw [recordsBut_updVehicle (fun x => { x with state := .departing, heardBy := none }) fun _ h => h, appendHeld,
    recordsBut_makeGrantDue, recordsBut_updVehicle (fun x => { x with
      held := x.held ++ [e.segment], path := advancePath _ e.segment x.path }) fun _ h => h]
  rfl

/-- What the entry is granted with, if it was still CLAIMING. -/
def grantedFirst (e : OutClaim) (s : State) : State := if e.isClaiming then grantTaken e s else s

theorem filter_granted (tag : Nat) (l : List OutClaim) :
    (l.map fun c => if c.tag = tag then { c with phase := .granted } else c).filter (fun c => c.tag ≠ tag)
      = l.filter fun c => c.tag ≠ tag := by
  induction l with
  | nil => rfl
  | cons c l ih =>
    rw [List.map_cons, List.filter_cons, List.filter_cons, ih]
    by_cases h : c.tag = tag
    · simp [h]
    · simp [h]

section
variable {s : State} {e : OutClaim}

theorem grantedFirst_of_claiming (h : claiming e) : grantedFirst e s = grantTaken e s := if_pos ((isClaiming_iff e).2 h)

theorem grantedFirst_of_not (h : ¬ claiming e) : grantedFirst e s = s := if_neg (mt (isClaiming_iff e).1 h)

/-- The grant changes the vehicle, its segment and its entry. -/
theorem grantedFirst_keeps (hv : vehicle s e.vehicle ≠ none) : ∃ roster line outs srt, grantedFirst e s = { s with
    roster := roster, tli := { s.tli with line := line }, bxu := { s.bxu with outClaims := outs }, srt := srt }
    ∧ recordsBut e.vehicle (grantedFirst e s) = recordsBut e.vehicle s
    ∧ outs.filter (fun c => c.tag ≠ e.tag) = s.bxu.outClaims.filter (fun c => c.tag ≠ e.tag) := by
  by_cases h : claiming e
  · obtain ⟨roster, line, heq⟩ := grantTaken_eq hv
    rw [grantedFirst_of_claiming h]
    exact ⟨_, _, _, _, heq, recordsBut_grantTaken hv, filter_granted e.tag _⟩
  · rw [grantedFirst_of_not h]
    exact ⟨_, _, _, _, rfl, rfl, rfl⟩

theorem grantedFirst_of_unknown (hv : vehicle s e.vehicle = none) :
    grantedFirst e s = s ∨ grantedFirst e s = claimEnded s e := by
  by_cases h : claiming e
  · rw [grantedFirst_of_claiming h, grantTaken, if_neg (by rw [inRoster_eq, hv]; nofun), endOutClaim_of_claiming h]
    exact .inr rfl
  · exact .inl (grantedFirst_of_not h)

/-- Whether the vehicle is known or not. -/
theorem grantedFirst_rest (s : State) (e : OutClaim) : (grantedFirst e s).tli.queue = s.tli.queue
    ∧ (grantedFirst e s).board = s.board ∧ (grantedFirst e s).layout = s.layout
    ∧ ∀ c ∈ (grantedFirst e s).bxu.outClaims, c.tag ≠ e.tag → c ∈ s.bxu.outClaims := by
  by_cases hv : vehicle s e.vehicle = none
  · obtain h | h := grantedFirst_of_unknown hv <;> rw [h]
    · exact ⟨rfl, rfl, rfl, fun c hc _ => hc⟩
    · exact ⟨rfl, rfl, rfl, fun c hc _ => (List.mem_filter.1 hc).1⟩
  · obtain ⟨roster, line, outs, srt, h, -, houts⟩ := grantedFirst_keeps hv
    rw [h]
    refine ⟨rfl, rfl, rfl, fun c hc htag => ?_⟩
    have hkept : c ∈ outs.filter fun c => c.tag ≠ e.tag := List.mem_filter.2 ⟨hc, decide_eq_true htag⟩
    rw [houts] at hkept
    exact (List.mem_filter.1 hkept).1

/-- The vehicle that crosses holds its boundary segment. -/
theorem vehicle_grantedFirst {x : Vehicle} (hx : vehicle s e.vehicle = some x) :
    ∃ w, vehicle (grantedFirst e s) e.vehicle = some w ∧ w.move = x.move
      ∧ (claiming e → w.held = x.held ++ [e.segment]) ∧ (¬ claiming e → w.held = x.held) := by
  by_cases h : claiming e
  · rw [grantedFirst_of_claiming h, vehicle_grantTaken (by rw [hx]; nofun), hx, Option.map_some, if_pos rfl]
    refine ⟨_, rfl, ?_, fun _ => ?_, absurd h⟩
    · unfold grantedRecord
      split <;> rfl
    · unfold grantedRecord
      split <;> rfl
  · rw [grantedFirst_of_not h]
    exact ⟨x, hx, rfl, fun hc => absurd hc h, fun _ => rfl⟩

theorem resOf_grantedFirst (hv : vehicle s e.vehicle ≠ none) (i : Nat) :
    (claiming e → resOf (grantedFirst e s) i =
      if i = e.segment then (resOf s e.segment).map fun _ => .borrowed e.vehicle else resOf s i)
    ∧ (¬ claiming e → resOf (grantedFirst e s) i = resOf s i) := by
  refine ⟨fun h => ?_, fun h => by rw [grantedFirst_of_not h]⟩
  obtain ⟨roster, line, heq⟩ := grantTaken_eq hv
  rw [← resOf_setRes, grantedFirst_of_claiming h]
  refine resOf_congr ?_ i
  rw [heq]
  rfl

theorem srt_grantedFirst (hv : vehicle s e.vehicle ≠ none) :
    (grantedFirst e s).srt = s.srt ∨ (grantedFirst e s).srt = (setRes e.segment (.borrowed e.vehicle) s).srt := by
  by_cases h : claiming e
  · obtain ⟨roster, line, heq⟩ := grantTaken_eq hv
    rw [grantedFirst_of_claiming h, heq]
    exact .inr rfl
  · exact .inl (by rw [grantedFirst_of_not h])

theorem waitsOf_grantedFirst (hv : vehicle s e.vehicle ≠ none) (i : Nat) : waitsOf (grantedFirst e s) i = waitsOf s i := by
  obtain h | h := srt_grantedFirst hv
  · exact waitsOf_congr h i
  · rw [waitsOf_congr h, waitsOf_setRes]

theorem unarbitrated_grantedFirst (hv : vehicle s e.vehicle ≠ none) (h : Unarbitrated s) :
    Unarbitrated (grantedFirst e s) := by
  obtain ⟨roster, line, outs, srt, heq, -⟩ := grantedFirst_keeps hv
  refine unarbitrated_of_noneWait h (fun hm => by rw [heq]; exact hm) fun hw => ?_
  obtain hsrt | hsrt := srt_grantedFirst hv
  · exact NoneWait.congr hw hsrt
  · exact NoneWait.congr (NoneWait.modRes hw e.segment fun _ => .borrowed e.vehicle) hsrt

end

section
variable {s : State} {f : FloorFrame} {rest : List FloorFrame} {e : OutClaim}

theorem exec_arrived (hs : TakesAnswer s f rest 0x44 e []) :
    exec .arrived s = .next (crossingEnds e (grantedFirst e (popped s rest))) := by
  refine congrArg Host.Outcome.next ((servePeer_of_read hs.1 (readPeer_of_takesAnswer hs)).trans ?_)
  rw [takeArrived, matchOut_of_takesAnswer hs]
  rfl

end

/-- Settles O35: the entry is granted where it was not, then the crossing ends. -/
theorem arrivedEndsCrossing : Obligations.ArrivedEndsCrossing := by
  intro s f rest e hs
  have hexec := exec_arrived hs
  obtain ⟨hqueue, hboard, hlayout, houts⟩ := grantedFirst_rest (popped s rest) e
  have hdone := crossingDone e (grantedFirst e (popped s rest))
  refine ⟨_, hexec, hdone.vehicle, ?_, fun c hc => ?_, fun x m y hx hm hy => ?_, fun x m y hidle hx hm hy => ?_⟩
  · rw [hdone.queue, hqueue]
    rfl
  · refine (hdone.claims c hc).imp (fun h => ⟨houts c h.1 h.2, h.2⟩) fun h => ⟨h.1, ?_⟩
    rw [h.2, hboard, hlayout]
    rfl
  all_goals
    have hx' : vehicle (popped s rest) e.vehicle = some x := hx
    have hv : vehicle (popped s rest) e.vehicle ≠ none := by rw [hx']; nofun
    obtain ⟨w, hw, hwmove, hclaimed, hnot⟩ := vehicle_grantedFirst (s := popped s rest) (e := e) hx'
    obtain ⟨roster, line, outs, srt, heq, hrecords, hfilter⟩ := grantedFirst_keeps (s := popped s rest) (e := e) hv
    have hy' : findMove (grantedFirst e (popped s rest)) m = some y := by
      rw [heq]
      exact hy
  · obtain ⟨hgone, hsent⟩ := hdone.move w m y hw (hwmove.trans hm) hy'
    refine ⟨hgone, fun hroom => ?_⟩
    rw [heq] at hsent ⊢
    exact hsent hroom
  · have hleaves := crossingLeaves (unarbitrated_grantedFirst hv hidle) hw (hwmove.trans hm) hy'
    have hres := resOf_grantedFirst (s := popped s rest) (e := e) hv
    have hheld : ∀ i, i ≠ e.segment → (i ∈ w.held ↔ i ∈ x.held) := fun i hi => by
      by_cases h : claiming e
      · rw [hclaimed h]
        simp [hi]
      · rw [hnot h]
    have hother : ∀ i, i ≠ e.segment → resOf (grantedFirst e (popped s rest)) i = resOf s i := fun i hi => by
      by_cases h : claiming e
      · rw [(hres i).1 h, if_neg hi]
        rfl
      · exact (hres i).2 h
    refine ⟨?_, ?_, fun i hi hne => ?_, fun i q hi hne hq => ?_, fun hseg => ?_, fun i => ?_, fun hroom => ?_⟩
    · rw [hleaves.bxu]
      rw [heq]
      exact congrArg (fun l => { s.bxu with outClaims := l }) hfilter
    · exact hleaves.roster.trans hrecords
    · rw [hleaves.others i (mt (hheld i hne).1 hi), hother i hne]
    · exact hleaves.held i q ((hheld i hne).2 hi) ((hother i hne).trans hq)
    · have hborrowed : e.segment ∈ w.held ∧ resOf (grantedFirst e (popped s rest)) e.segment = some (.borrowed e.vehicle) := by
        by_cases h : claiming e
        · rw [hclaimed h, (hres e.segment).1 h, if_pos rfl]
          refine ⟨by simp, ?_⟩
          obtain ⟨-, hloaded⟩ | ⟨-, hborrowed⟩ := hseg
          · obtain ⟨q, hq⟩ := Option.ne_none_iff_exists'.1 hloaded
            rw [show resOf (popped s rest) e.segment = some q from hq]
            rfl
          · rw [show resOf (popped s rest) e.segment = _ from hborrowed]
            rfl
        · rw [hnot h, (hres e.segment).2 h]
          exact hseg.resolve_left fun hc => h hc.1
      obtain ⟨r, hr, hleft⟩ := hleaves.held e.segment _ hborrowed.1 hborrowed.2
      rw [hr, hleft.borrowed rfl]
    · rw [hleaves.waits, waitsOf_grantedFirst hv]
      rfl
    · rw [hleaves.sent (by rw [heq]; exact hroom)]
      rw [heq]
      rfl

end Sys2Proof.Machine

/-! PROOFS. O36: ABANDON, a crossing given up (R34, R35, R129, R136). -/

namespace Sys2Proof.Machine

open Sys2Proof.Says

/-! ### An entry that ends, CLAIMING or GRANTED (R129) -/

section
variable {s : State} {e : OutClaim}

theorem endOutClaim_rest (e : OutClaim) (s : State) : (endOutClaim e s).srt = (setRes e.segment .foreign s).srt
    ∧ (endOutClaim e s).bxu = { s.bxu with outClaims := s.bxu.outClaims.filter fun c => c.tag ≠ e.tag }
    ∧ (endOutClaim e s).layout = s.layout ∧ (endOutClaim e s).mc = s.mc := by
  unfold endOutClaim
  split <;> exact ⟨rfl, rfl, rfl, rfl⟩

theorem fli_endOutClaim (e : OutClaim) (s : State) : (endOutClaim e s).fli = s.fli := by
  unfold endOutClaim
  split <;> rfl

theorem resOf_endOutClaim (j : Nat) : resOf (endOutClaim e s) j =
    if j = e.segment then (resOf s e.segment).map fun _ => .foreign else resOf s j := by
  rw [resOf_congr (endOutClaim_rest e s).1, resOf_setRes]

theorem unarbitrated_endOutClaim (h : Unarbitrated s) : Unarbitrated (endOutClaim e s) := by
  obtain ⟨hsrt, -, -, hmc⟩ := endOutClaim_rest e s
  refine unarbitrated_of_noneWait h (fun hm => ?_) fun hw => ?_
  · rw [State.mode, hmc]
    exact hm
  · exact NoneWait.congr (NoneWait.modRes hw e.segment fun _ => .foreign) hsrt

/-- A vehicle whose crossing ends lets its BORROWED segment go. -/
theorem vehicle_endOutClaim_of_granted {x : Vehicle} (h : ¬ claiming e) (hx : vehicle s e.vehicle = some x) :
    vehicle (endOutClaim e s) e.vehicle = some (grantedRecord { x with held := x.held.filter (· ≠ e.segment) }) := by
  have hphase : e.phase = .granted := by
    cases hp : e.phase with
    | claiming d => exact absurd ⟨d, hp⟩ h
    | granted => rfl
  unfold endOutClaim
  rw [hphase]
  dsimp only
  rw [vehicle_makeGrantDue_eq, vehicle_updVehicle e.vehicle e.vehicle
    (fun x => { x with held := x.held.filter (· ≠ e.segment) }) _ fun _ h => h,
    show vehicle (dropOutClaim e.tag (setRes e.segment .foreign s)) e.vehicle = some x from hx]
  simp

/-- The entry gone, its segment FOREIGN and then arbitrated. -/
theorem entryEnds_arbitrated {r : State}
    (hbxu : r.bxu = { s.bxu with outClaims := s.bxu.outClaims.filter fun c => c.tag ≠ e.tag })
    (hres : ∀ j, resOf r j = if j = e.segment then (resOf s e.segment).map fun _ => .foreign else resOf s j)
    (hlayout : r.layout = s.layout) (hidle : Unarbitrated s → Unarbitrated r) :
    EntryEnds s (arbitrateSeg e.segment r) e := by
  have hforeign : resOf r e.segment = (resOf s e.segment).map fun _ => .foreign := (hres e.segment).trans (if_pos rfl)
  have hloaded : resOf s e.segment ≠ none → resOf r e.segment = some .foreign := fun h => by
    obtain ⟨q, hq⟩ := Option.ne_none_iff_exists'.1 h
    rw [hforeign, hq]
    rfl
  have hrec : Reclaimed e.segment r (arbitrateSeg e.segment r) := run_arb_of_not_free (by
    rw [hforeign]
    cases resOf s e.segment <;> nofun)
  refine ⟨fun c hc => ?_, fun h => hrec.res.imp (·.trans (hloaded h)) id, fun h => ?_⟩
  · refine (hrec.claims c hc).imp (fun hc => ?_) fun ⟨hseg, hphase, _⟩ => ⟨hseg, ?_⟩
    · rw [hbxu] at hc
      exact ⟨(List.mem_filter.1 hc).1, of_decide_eq_true (List.mem_filter.1 hc).2⟩
    · rw [hphase, hrec.board, hlayout]
  · rw [arbitrateSeg_of_unarbitrated (hidle h)]
    exact ⟨hbxu, hloaded, fun i hi => (hres i).trans (if_neg hi)⟩

end

/-! ### A segment that is not FREE stays so as a vehicle leaves service (R34, R134) -/

theorem outOfService_not_free {v i : Nat} {st : VState} {hb : Option Nat} {s : State} (h : resOf s i ≠ some .free) :
    resOf (outOfService v st hb s) i ≠ some .free := by
  obtain ⟨-, heq⟩ | ⟨e, -, -, heq⟩ := outOfService_cases v st hb s <;> rw [heq]
  · rw [resOf_congr (makeHoldDue_rest _ _).2.2.1, resOf_standDown]
    exact h
  · have hrec := reclaimed_outOfService (v := v) e (standDown v st hb s)
    have hbefore : resOf (makeHoldDue v (claimWithdrawn e (standDown v st hb s))) i ≠ some .free := by
      rw [resOf_congr (makeHoldDue_rest _ _).2.2.1]
      by_cases hi : i = e.segment
      · rw [hi]
        exact claimWithdrawn_not_free e _
      · rw [resOf_claimWithdrawn, if_neg hi, resOf_standDown]
        exact h
    by_cases hi : i = e.segment
    · subst hi
      obtain hsame | ⟨u, hu⟩ := hrec.res
      · rw [hsame]
        exact hbefore
      · rw [hu]
        nofun
    · rw [hrec.others i hi]
      exact hbefore

/-! ### ABANDON (R136) -/

/-- The vehicle of a crossing given up is LOST; one that only claimed stays. -/
def lostIfCrossing (e : OutClaim) (s : State) : State :=
  if e.isClaiming then s else outOfService e.vehicle (.lost .laden false) none s

section
variable {s : State} {f : FloorFrame} {rest : List FloorFrame} {e : OutClaim}

theorem exec_abandon (hs : TakesAnswer s f rest 0x45 e []) :
    exec .abandon s = .next (arbitrateSeg e.segment
      (raiseAbandoned f.src e (lostIfCrossing e (endOutClaim e (popped s rest))))) := by
  refine congrArg Host.Outcome.next ((servePeer_of_read hs.1 (readPeer_of_takesAnswer hs)).trans ?_)
  rw [takeAbandon, matchOut_of_takesAnswer hs]
  rfl

theorem lostIfCrossing_of_claiming (h : claiming e) : lostIfCrossing e s = s := if_pos ((isClaiming_iff e).2 h)

theorem lostIfCrossing_of_not (h : ¬ claiming e) :
    lostIfCrossing e s = outOfService e.vehicle (.lost .laden false) none s := if_neg (mt (isClaiming_iff e).1 h)

theorem lostIfCrossing_not_free (h : resOf s e.segment ≠ some .free) : resOf (lostIfCrossing e s) e.segment ≠ some .free := by
  by_cases hc : claiming e
  · rw [lostIfCrossing_of_claiming hc]
    exact h
  · rw [lostIfCrossing_of_not hc]
    exact outOfService_not_free h

/-- A vehicle without a claim leaves service: the claims and the states of the segments stay. -/
theorem lostIfCrossing_keeps (h : ∀ c ∈ s.bxu.outClaims, c.vehicle ≠ e.vehicle) : (lostIfCrossing e s).bxu = s.bxu
    ∧ (lostIfCrossing e s).layout = s.layout ∧ (∀ j, resOf (lostIfCrossing e s) j = resOf s j)
    ∧ (Unarbitrated s → Unarbitrated (lostIfCrossing e s)) := by
  unfold lostIfCrossing
  split
  · exact ⟨rfl, rfl, fun _ => rfl, id⟩
  obtain ⟨-, heq⟩ | ⟨c, hc, -⟩ := outOfService_cases e.vehicle (.lost .laden false) none s
  · have hdown := standDown_keeps (v := e.vehicle) (st := .lost .laden false) (hb := none) (s := s)
    have hhold := reporting_makeHoldDue e.vehicle (standDown e.vehicle (.lost .laden false) none s)
    rw [heq]
    refine ⟨hhold.bxu.trans hdown.1, hhold.layout.trans hdown.2.1, fun j => ?_, fun hidle => ?_⟩
    · rw [resOf_congr hhold.srt, resOf_standDown]
    · exact hhold.unarbitrated (unarbitrated_standDown hidle)
  · exact absurd (by simpa using List.find?_some hc) (h c (List.mem_of_find?_eq_some hc))

theorem no_claim_of_endOutClaim (hunique : ∀ c ∈ s.bxu.outClaims, c.vehicle = e.vehicle → c = e) :
    ∀ c ∈ (endOutClaim e s).bxu.outClaims, c.vehicle ≠ e.vehicle := fun c hc hv => by
  rw [(endOutClaim_rest e s).2.1] at hc
  obtain ⟨hc, htag⟩ := List.mem_filter.1 hc
  exact of_decide_eq_true htag (by rw [hunique c hc hv])

end

/-- Settles O36. -/
theorem abandonGivesUpCrossing : Obligations.AbandonGivesUpCrossing := by
  intro s f rest e hs
  have hexec := exec_abandon hs
  let w : State := lostIfCrossing e (endOutClaim e (popped s rest))
  let r : State := raiseAbandoned f.src e w
  obtain ⟨-, hlayout, hsrt, hroster, hbxu, -⟩ : r.board = w.board ∧ r.layout = w.layout ∧ r.srt = w.srt
    ∧ r.roster = w.roster ∧ r.bxu = w.bxu ∧ r.pending = w.pending := raise_rest .handoffAbandoned _ w
  have hrec : Reclaimed e.segment r (arbitrateSeg e.segment r) := run_arb_of_not_free (by
    rw [resOf_congr hsrt]
    refine lostIfCrossing_not_free ?_
    rw [resOf_endOutClaim, if_pos rfl]
    cases resOf (popped s rest) e.segment <;> nofun)
  refine ⟨_, hexec, (acts_run [.arb e.segment] r).flagSet (flagSet_raise _ _ w), fun x hx => ?_, fun hnot i q hq => ?_,
    fun hunique => ?_⟩
  · have hx' : vehicle (popped s rest) e.vehicle = some x := hx
    show ∃ y, vehicle (arbitrateSeg e.segment r) e.vehicle = some y ∧ _
    rw [vehicle_congr hrec.roster, vehicle_congr hroster]
    by_cases hc : claiming e
    · refine ⟨x, ?_, rfl, rfl, fun _ => rfl, absurd hc, fun _ _ => rfl⟩
      show vehicle (lostIfCrossing e (endOutClaim e (popped s rest))) e.vehicle = some x
      rw [lostIfCrossing_of_claiming hc, endOutClaim_of_claiming hc]
      exact hx'
    · have hlost := vehicle_outOfService (st := .lost .laden false) (hb := none) (vehicle_endOutClaim_of_granted hc hx')
      have hw : vehicle w e.vehicle = _ := (congrArg (vehicle · e.vehicle) (lostIfCrossing_of_not hc)).trans hlost
      refine ⟨_, hw, ?_, ?_, fun h => absurd h hc, fun _ => ⟨rfl, rfl, rfl, rfl, ?_⟩, fun h => absurd h hc⟩
      all_goals unfold grantedRecord; split <;> rfl
  · have hq := hrec.waits i hq
    rw [waitsOf_congr hsrt] at hq
    change q ∈ waitsOf (lostIfCrossing e (endOutClaim e (popped s rest))) i at hq
    rw [lostIfCrossing_of_not hnot] at hq
    exact (leavesService_outOfService (.refl (endOutClaim e (popped s rest))) e.vehicle _ _).1 i q hq
  · obtain ⟨hclaims, hlay, hres, hidle⟩ := lostIfCrossing_keeps (s := endOutClaim e (popped s rest)) (e := e)
      (no_claim_of_endOutClaim (s := popped s rest) hunique)
    obtain ⟨-, ebxu, elayout, -⟩ := endOutClaim_rest e (popped s rest)
    exact entryEnds_arbitrated (s := s) (hbxu.trans (hclaims.trans ebxu))
      (fun j => (resOf_congr hsrt j).trans ((hres j).trans (resOf_endOutClaim j)))
      (hlayout.trans (hlay.trans elayout))
      fun h => (reporting_raise .handoffAbandoned _ w).unarbitrated
        (hidle (unarbitrated_endOutClaim (s := popped s rest) h))

end Sys2Proof.Machine

/-! PROOFS. Layer: a position conflict, what it marks and how the engine stays HALTED (R41, R42, R83, R134, R178). -/

namespace Sys2Proof.Machine

open Sys2Proof.Says

/-! ### In HALTED (R178, R179) -/

/-- The engine is HALTED in `t`, with the HOLD to all, the RESUME and the pass that `s` had due. -/
structure StaysHalted (s t : State) : Prop where
  mode : t.mode = .halted
  allHold : t.tli.allHold = s.tli.allHold
  resume : t.tli.resume = s.tli.resume
  passDue : t.asu.passDue = s.asu.passDue

theorem StaysHalted.trans {s t u : State} (h : StaysHalted s t) (k : StaysHalted t u) : StaysHalted s u :=
  ⟨k.mode, k.allHold.trans h.allHold, k.resume.trans h.resume, k.passDue.trans h.passDue⟩

theorem reported_of_raised {s t : State} (h : Raised s t) (hm : s.mode = .halted) : Reported s t := by
  cases h with
  | reported h => exact h
  | deferred hmode _ _ => rw [hm] at hmode; cases hmode
  | halted hmode _ _ => rw [hm] at hmode; cases hmode

theorem staysHalted_of_raised {s t : State} (h : Raised s t) (hm : s.mode = .halted) : StaysHalted s t := by
  have ht : t = { s with su := t.su, fli := t.fli } := reported_of_raised h hm
  rw [ht]
  exact ⟨hm, rfl, rfl, rfl⟩

section
variable {s : State}

theorem staysHalted_changeMove (m : Nat) (f : Move → Move) (hm : s.mode = .halted) : StaysHalted s (changeMove m f s) := by
  cases hx : findMove s m with
  | none =>
    unfold changeMove
    rw [hx]
    exact ⟨hm, rfl, rfl, rfl⟩
  | some x =>
    rw [changeMove_eq f hx]
    exact .trans (t := setMove m (fun _ => unconfirmed (f x)) s) ⟨hm, rfl, rfl, rfl⟩
      (staysHalted_of_raised (raised_reportMove _ _ _ _ _) hm)

theorem staysHalted_setPassDue (hm : s.mode = .halted) : StaysHalted s (setPassDue s) := by
  unfold setPassDue
  rw [if_neg (by rw [hm]; nofun)]
  exact ⟨hm, rfl, rfl, rfl⟩

theorem staysHalted_giveUpNext (v : Nat) (hm : s.mode = .halted) : StaysHalted s (giveUpNext v s) := by
  unfold giveUpNext
  split
  · exact ⟨hm, rfl, rfl, rfl⟩
  split
  · exact ⟨hm, rfl, rfl, rfl⟩
  · have hset : StaysHalted s (setNextMove v none s) := ⟨hm, rfl, rfl, rfl⟩
    have hchange := staysHalted_changeMove ‹Nat› (fun x => { x with state := .waiting, vehicle := none }) hset.mode
    exact (hset.trans hchange).trans (staysHalted_setPassDue hchange.mode)

theorem staysHalted_standDown (v : Nat) (st : VState) (hb : Option Nat) (hm : s.mode = .halted) :
    StaysHalted s (standDown v st hb s) := by
  have hset : StaysHalted s (updVehicle v (fun x => { x with state := st, heardBy := hb }) s) := ⟨hm, rfl, rfl, rfl⟩
  have hgive := hset.trans (staysHalted_giveUpNext v hset.mode)
  exact hgive.trans (t := giveUpNext v _) ⟨hgive.mode, rfl, rfl, rfl⟩

theorem staysHalted_makeHoldDue (v : Nat) (hm : s.mode = .halted) : StaysHalted s (makeHoldDue v s) := by
  unfold makeHoldDue
  split <;> exact ⟨hm, rfl, rfl, rfl⟩

/-- A HALT occurrence outside a pass leaves the engine HALTED. -/
theorem mode_raise_of_halt {k : EventKind} {d : Detail}
    (h : s.mode = .halted ∨ s.mode = .dispatching ∧ s.asu.passRunning = false ∧ severityOf s k = .halt) :
    (raise k d s).mode = .halted := by
  obtain hm | ⟨hm, hpass, hk⟩ := h
  · rw [raise_mode (by rw [hm]; nofun), hm]
  · exact raise_of_halt hpass hk hm

/-- The HOLD to all is due as DISPATCHING is left, and neither a RESUME nor a pass is. -/
theorem halts_of_raised {t : State} (h : Raised s t) (hm : s.mode = .dispatching) (ht : t.mode = .halted) :
    t.tli.allHold = some 0 ∧ t.tli.resume = none ∧ t.asu.passDue = false := by
  cases h with
  | reported h => rw [h.mode, hm] at ht; cases ht
  | deferred _ _ h => rw [(mode_of_deferred h).1, hm] at ht; cases ht
  | halted _ _ h =>
    rw [h]
    exact ⟨rfl, rfl, rfl⟩

end

/-! ### The mark (R41, R42) -/

section
variable {s : State} {v i : Nat} {r : Res} {x : Vehicle}

theorem replaceHeld_known (hx : vehicle s v = some x) :
    replaceHeld v i r s = makeGrantDue v (setRes i r (setHeld v [i] (releaseSegs v x.held s))) := by
  unfold replaceHeld
  rw [hx]

theorem vehicle_replaceHeld (hx : vehicle s v = some x) :
    vehicle (replaceHeld v i r s) v = some (grantedRecord { x with held := [i] }) := by
  obtain ⟨srt, hrel⟩ := releaseSegs_eq v x.held s
  rw [replaceHeld_known hx, vehicle_makeGrantDue_eq, hrel]
  have hset : vehicle (setRes i r (setHeld v [i] { s with srt := srt })) v = some { x with held := [i] } := by
    refine (vehicle_updVehicle v v (fun y => { y with held := [i] }) { s with srt := srt } fun _ h => h).trans ?_
    rw [show vehicle { s with srt := srt } v = some x from hx]
    simp
  rw [hset]
  simp

theorem replaceHeld_eq (v i : Nat) (r : Res) (s : State) : ∃ roster srt line, replaceHeld v i r s =
    { s with roster := roster, srt := srt, tli := { s.tli with line := line } } := by
  cases hx : vehicle s v with
  | none =>
    unfold replaceHeld
    rw [hx]
    exact ⟨_, _, _, rfl⟩
  | some x =>
    obtain ⟨srt, hrel⟩ := releaseSegs_eq v x.held s
    rw [replaceHeld_known hx, hrel]
    exact ⟨_, _, _, rfl⟩

theorem resOf_replaceHeld (hx : vehicle s v = some x) (hi : i ∉ x.held) (j : Nat) : resOf (replaceHeld v i r s) j =
    if j = i then (resOf s i).map fun _ => r else resOf (releaseSegs v x.held s) j := by
  rw [replaceHeld_known hx, resOf_congr (makeGrantDue_rest _ _).2.2.1, resOf_setRes,
    resOf_congr (t := setHeld v [i] (releaseSegs v x.held s)) (s := releaseSegs v x.held s) rfl,
    resOf_congr (t := setHeld v [i] (releaseSegs v x.held s)) (s := releaseSegs v x.held s) rfl,
    resOf_releaseSegs_of_notMem v x.held s hi]

/-- A FOREIGN segment is not released. -/
theorem resOf_releaseSegs_of_foreign : ∀ (is : List Nat) (s : State), resOf s i = some .foreign →
    resOf (releaseSegs v is s) i = some .foreign
  | [], _, h => h
  | j :: is, s, h => by
    refine resOf_releaseSegs_of_foreign is (releaseSeg v j s) ((resOf_modRes j i _ s).trans ?_)
    split
    · rw [h]
      rfl
    · exact h

/-- Where a conflict marks segment `i` with `r`. -/
theorem conflictMark_of_mark (h : (resOf s i).bind (markFor v) = some r) :
    conflictMark v i s = replaceHeld v i r (withdrawClaim v s).2 := by
  unfold conflictMark
  rw [h]

theorem conflictMark_of_none (h : (resOf s i).bind (markFor v) = none) : conflictMark v i s = (withdrawClaim v s).2 := by
  unfold conflictMark
  rw [h]

theorem markable_iff (v : Nat) : Markable s i ↔ ∃ r, (resOf s i).bind (markFor v) = some r := by
  constructor
  · rintro ⟨q, hq, h⟩
    rw [hq]
    obtain rfl | rfl | ⟨u, rfl⟩ | ⟨u, rfl⟩ | ⟨u, h, rfl⟩ := h <;> exact ⟨_, rfl⟩
  · rintro ⟨r, hr⟩
    obtain ⟨q, hq, hmark⟩ := Option.bind_eq_some_iff.1 hr
    refine ⟨q, hq, ?_⟩
    unfold markFor at hmark
    split at hmark
    case h_1 => exact .inl rfl
    case h_2 => exact .inr (.inl rfl)
    case h_3 u => exact .inr (.inr (.inl ⟨u, rfl⟩))
    case h_4 u => exact .inr (.inr (.inr (.inl ⟨u, rfl⟩)))
    case h_5 u h => exact .inr (.inr (.inr (.inr ⟨u, h, rfl⟩)))
    all_goals cases hmark

theorem not_markable_iff (v : Nat) : ¬ Markable s i ↔ (resOf s i).bind (markFor v) = none := by
  rw [markable_iff v, ← Option.not_isSome_iff_eq_none, Option.isSome_iff_exists]

theorem conflictMarks_of_mark {t : State} {held : List Nat} {y : Vehicle} (h : (resOf s i).bind (markFor v) = some r)
    (hres : resOf t i = some r) (hheld : y.held = [i]) : ConflictMarks s t v i held y := by
  have hmark : ∀ {q}, resOf s i = some q → resOf t i = markFor v q := fun hq => by
    rw [hq] at h
    rw [hres]
    exact h.symm
  refine ⟨fun hq => hmark hq, fun hq => hmark hq, fun u hq => ?_, fun u k hq => hmark hq, fun _ => hheld,
    fun hno => absurd ((markable_iff v).2 ⟨r, h⟩) hno⟩
  obtain hq | hq := hq <;> exact hmark hq

theorem conflictMarks_of_none {t : State} {held : List Nat} {y : Vehicle} (h : (resOf s i).bind (markFor v) = none)
    (hres : resOf t i = resOf s i) (hheld : y.held = held) : ConflictMarks s t v i held y := by
  have hno : ∀ {q}, resOf s i = some q → markFor v q = none := fun hq => by
    rw [hq] at h
    exact h
  refine ⟨fun hq => ?_, fun hq => ?_, fun u hq => ?_, fun u k hq => ?_, fun hm => ?_, fun _ => ⟨hres, hheld⟩⟩
  · cases hno hq
  · cases hno hq
  · obtain hq | hq := hq <;> cases hno hq
  · cases hno hq
  · exact absurd hm ((not_markable_iff v).2 h)

end

/-! ### The vehicle leaves service (R83) -/

/-- What a conflict of vehicle `v`, with record `x`, leaves of `m`, the state with the mark made, where no claim of the
vehicle is left. -/
structure ConflictLeaves (v : Nat) (st : VState) (hb : Option Nat) (m t : State) : Prop where
  flag : flagSet t .positionConflict = true
  bxu : t.bxu = m.bxu
  res : ∀ j, resOf t j = resOf m j
  vehicle : ∀ w, vehicle m v = some w → vehicle t v = some { w with
    state := st, heardBy := hb, nextMove := none, due := { w.due with hold := some 0, stopMark := true } }
  mode : m.mode = .halted ∨ m.mode = .dispatching ∧ m.asu.passRunning = false ∧ severityOf m .positionConflict = .halt →
    t.mode = .halted
  halts : m.mode = .dispatching → t.mode = .halted → m.asu.passRunning = false → severityOf m .positionConflict = .halt →
    t.tli.allHold = some 0 ∧ t.tli.resume = none ∧ t.asu.passDue = false
  mq : m.mode = .halted → (∀ w, Machine.vehicle m v = some w → w.nextMove = none) → t.mq = m.mq
  outbound : m.fli.outbound <+: t.fli.outbound

theorem conflictLeaves {v i : Nat} {st : VState} {hb : Option Nat} {m : State}
    (hno : ∀ c ∈ m.bxu.outClaims, c.vehicle ≠ v) :
    ConflictLeaves v st hb m (outOfService v st hb (raiseConflict v i m)) := by
  have hraised : Raised m (raiseConflict v i m) := raised_raise _ _ m
  have hreport : Reporting m (raiseConflict v i m) := reporting_raise _ _ m
  have hkeeps := standDown_keeps (v := v) (st := st) (hb := hb) (s := raiseConflict v i m)
  have hhold := reporting_makeHoldDue v (standDown v st hb (raiseConflict v i m))
  have hflag := (acts_outOfService v st hb (raiseConflict v i m)).flagSet (flagSet_raise .positionConflict _ m)
  have hout := (acts_outOfService v st hb (raiseConflict v i m)).outbound
  have heq : outOfService v st hb (raiseConflict v i m) = makeHoldDue v (standDown v st hb (raiseConflict v i m)) := by
    obtain ⟨-, h⟩ | ⟨c, hc, -⟩ := outOfService_cases v st hb (raiseConflict v i m)
    · exact h
    · exact absurd (by simpa using List.find?_some hc) (hno c (hreport.bxu ▸ List.mem_of_find?_eq_some hc))
  have hstay : (raiseConflict v i m).mode = .halted → StaysHalted (raiseConflict v i m) (outOfService v st hb (raiseConflict v i m)) :=
    fun h => by
      have hdown := staysHalted_standDown v st hb h
      rw [heq]
      exact hdown.trans (staysHalted_makeHoldDue v hdown.mode)
  refine ⟨hflag, ?_, fun j => ?_, fun w hw => vehicle_outOfService ((vehicle_raise _ _ _ _).trans hw), fun h => ?_,
    fun hm ht hpass hk => ?_, fun hm hnext => ?_, hreport.outbound.trans hout⟩
  · rw [heq, hhold.bxu, hkeeps.1, hreport.bxu]
  · rw [heq, resOf_congr hhold.srt, resOf_standDown, resOf_congr hreport.srt]
  · exact (hstay (mode_raise_of_halt h)).mode
  · have hhalted : (raiseConflict v i m).mode = .halted := mode_raise_of_halt (.inr ⟨hm, hpass, hk⟩)
    obtain ⟨hall, hresume, hdue⟩ := halts_of_raised hraised hm hhalted
    have h := hstay hhalted
    exact ⟨h.allHold.trans hall, h.resume.trans hresume, h.passDue.trans hdue⟩
  · have hmq : (raiseConflict v i m).mq = m.mq := by
      rw [show raiseConflict v i m = _ from reported_of_raised hraised hm]
    have hgive : giveUpNext v (updVehicle v (fun x => { x with state := st, heardBy := hb }) (raiseConflict v i m)) =
        updVehicle v (fun x => { x with state := st, heardBy := hb }) (raiseConflict v i m) :=
      giveUpNext_of_none fun y hy => by
        rw [vehicle_updVehicle v v (fun x => { x with state := st, heardBy := hb }) _ fun _ h => h,
          raiseConflict, vehicle_raise] at hy
        obtain ⟨w, hw, rfl⟩ := Option.map_eq_some_iff.1 hy
        rw [if_pos rfl]
        exact hnext w hw
    rw [heq, (makeHoldDue_rest _ _).2.2.2.1, standDown, hgive]
    exact hmq

theorem positionConflict_known {v i : Nat} {s : State} {x : Vehicle} (hx : vehicle s v = some x) :
    positionConflict v i s =
      outOfService v (.faulted x.resumeWork) (heardFromNow s) (raiseConflict v i (conflictMark v i s)) := by
  unfold positionConflict
  rw [hx]

end Sys2Proof.Machine

/-! PROOFS. O44: position conflicts (R41, R42, R80, R83, R134, R178). -/

namespace Sys2Proof.Machine

open Sys2Proof.Says

/-! ### A conflict of a vehicle without a claim (R41, R42) -/

section
variable {s : State} {v i : Nat} {x : Vehicle}

theorem outClaimOf_eq_none (h : ∀ d ∈ s.bxu.outClaims, d.vehicle ≠ v) : outClaimOf s v = none :=
  List.find?_eq_none.2 fun d hd => by simpa using h d hd

theorem withdrawClaim_of_none (h : outClaimOf s v = none) : withdrawClaim v s = ([], s) := by
  unfold withdrawClaim
  rw [h]

/-- A GRANT made due changes nothing else of the record. -/
theorem grantedRecord_eq (x : Vehicle) : grantedRecord x = { x with due := (grantedRecord x).due } := by
  unfold grantedRecord
  split <;> rfl

/-- The segment marked, or nothing. -/
theorem conflictMark_unclaimed (hno : ∀ d ∈ s.bxu.outClaims, d.vehicle ≠ v) (hx : vehicle s v = some x) (hi : i ∉ x.held) :
    (∃ w, vehicle (conflictMark v i s) v = some w ∧ ConflictMarks s (conflictMark v i s) v i x.held w
        ∧ w = { x with held := w.held, due := w.due })
      ∧ ∃ roster srt line, conflictMark v i s = { s with roster := roster, srt := srt, tli := { s.tli with line := line } } := by
  have hclaim := withdrawClaim_of_none (outClaimOf_eq_none hno)
  cases h : (resOf s i).bind (markFor v) with
  | none =>
    rw [conflictMark_of_none h, hclaim]
    exact ⟨⟨x, hx, conflictMarks_of_none h rfl rfl, rfl⟩, s.roster, s.srt, s.tli.line, rfl⟩
  | some r =>
    rw [conflictMark_of_mark h, hclaim]
    refine ⟨⟨_, vehicle_replaceHeld hx, conflictMarks_of_mark h ?_ ?_, ?_⟩, replaceHeld_eq v i r s⟩
    · obtain ⟨q, hq, -⟩ := Option.bind_eq_some_iff.1 h
      rw [resOf_replaceHeld hx hi, if_pos rfl, hq]
      rfl
    · rw [grantedRecord_eq]
    · rw [grantedRecord_eq]

end

section
variable {s : State} {e : TrackEntry} {rest : List TrackEntry} {seg need : Nat} {x : Vehicle}

/-- The vehicle's record says what it needs. -/
def needing (v need : Nat) (s : State) : State := updVehicle v (fun y => { y with need := min need 4 }) s

theorem vehicle_needing {v : Nat} (hx : vehicle s v = some x) :
    vehicle (needing v need s) v = some { x with need := min need 4 } := by
  rw [needing, vehicle_updVehicle v v (fun y => { y with need := min need 4 }) s fun _ h => h, hx]
  simp

theorem exec_position_of_present (hs : TakesPosition s e rest seg need x) :
    exec .position s = .next (takePosition e.src seg (needing e.src need (heard s e rest))) := by
  obtain ⟨htake, ⟨load, hb⟩, hx, hp⟩ := hs
  refine congrArg Host.Outcome.next ((takeTrack_of_taken htake (by rw [hb]; rfl)).trans ?_)
  unfold takePositionFrame
  rw [hb]
  dsimp only
  rw [show vehicle (popTrack rest s) e.src = some x from hx]
  dsimp only
  rw [if_neg hp.1, noteFrame_popTrack, restoreLost_of_present false (vehicle_heard hx) hp.2]
  rfl

theorem exec_position_of_conflict (hs : TakesPosition s e rest seg need x) (hseg : seg ∉ x.held) :
    exec .position s = .next (outOfService e.src (.faulted x.resumeWork) (some (s.board.now + s.layout.tuning.tSilent))
      (raiseConflict e.src seg (conflictMark e.src seg (needing e.src need (heard s e rest))))) := by
  have hx := vehicle_needing (need := need) (vehicle_heard (rest := rest) hs.2.2.1)
  rw [exec_position_of_present hs]
  unfold takePosition
  rw [hx]
  dsimp only
  rw [if_neg (show seg ∉ (hearing s e x).held from hseg), positionConflict_known hx]
  rfl

end

theorem resumeWork_of_present {x : Vehicle} (hp : Present x) :
    x.resumeWork = match x.state with | .work w => w | .faulted w => w | _ => .laden := by
  unfold Vehicle.resumeWork Vehicle.workOf
  cases h : x.state with
  | lost w mark => exact absurd h (hp.2 w mark)
  | _ => rfl

theorem conflictHalts : Says.ConflictHalts := by
  intro s e rest seg need x hs hseg hmode hpass hk hno
  have hexec := exec_position_of_conflict hs hseg
  have hx := vehicle_needing (need := need) (vehicle_heard (rest := rest) hs.2.2.1)
  obtain ⟨⟨w, hw, hmarks, hweq⟩, roster, srt, line, heq⟩ :=
    conflictMark_unclaimed (s := needing e.src need (heard s e rest)) (i := seg) hno hx hseg
  generalize conflictMark e.src seg (needing e.src need (heard s e rest)) = m at hexec hw hmarks heq
  have hmode' : m.mode = .dispatching := by rw [heq]; exact hmode
  have hpass' : m.asu.passRunning = false := by rw [heq]; exact hpass
  have hk' : severityOf m .positionConflict = .halt := by rw [heq]; exact hk
  have hleaves := conflictLeaves (v := e.src) (i := seg) (st := .faulted x.resumeWork)
    (hb := some (s.board.now + s.layout.tuning.tSilent)) (m := m) (by rw [heq]; exact hno)
  generalize outOfService e.src (.faulted x.resumeWork) _ (raiseConflict e.src seg m) = t at hexec hleaves
  have ht := hleaves.mode (.inr ⟨hmode', hpass', hk'⟩)
  obtain ⟨hall, hresume, hdue⟩ := hleaves.halts hmode' ht hpass' hk'
  refine ⟨t, _, hexec, ht, hleaves.flag, hall, hresume, hdue, hleaves.vehicle w hw, rfl, rfl, rfl,
    congrArg VState.faulted (resumeWork_of_present hs.2.2.2), ?_⟩
  obtain ⟨hfree, hblocked, hheld, hpending, hmarked, hnone⟩ := hmarks
  have hres : ∀ {q}, resOf m seg = q → resOf t seg = q := fun h => (hleaves.res seg).trans h
  have hmark : ∀ {q}, resOf s seg = some q → (q = .free ∨ q = .blocked ∨ (∃ u, q = .reserved u) ∨ (∃ u, q = .occupied u none)
      ∨ ∃ u h, q = .blockPending u h none) → w.held = [seg] := fun hq h => hmarked ⟨_, hq, h⟩
  split
  next h => exact ⟨hres (hfree h), hmark h (.inl rfl)⟩
  next h => exact ⟨hres (hblocked h), hmark h (.inr (.inl rfl))⟩
  next u h => exact ⟨hres (hheld u (.inl h)), hmark h (.inr (.inr (.inl ⟨u, rfl⟩)))⟩
  next u h => exact ⟨hres (hheld u (.inr h)), hmark h (.inr (.inr (.inr (.inl ⟨u, rfl⟩))))⟩
  next u k h => exact ⟨hres (hpending u k h), hmark h (.inr (.inr (.inr (.inr ⟨u, k, rfl⟩))))⟩
  next r h₁ h₂ h₃ h₄ h₅ =>
    obtain ⟨hsame, hkept⟩ := hnone fun hm => by
      obtain ⟨q, hq, hq'⟩ := hm
      obtain rfl | rfl | ⟨u, rfl⟩ | ⟨u, rfl⟩ | ⟨u, k, rfl⟩ := hq'
      · exact h₁ hq
      · exact h₂ hq
      · exact h₃ u hq
      · exact h₄ u hq
      · exact h₅ u k hq
    exact ⟨hres hsame, hkept⟩

theorem conflictMarks_congr {s m t : State} {v seg : Nat} {held : List Nat} {y w : Vehicle}
    (h : ConflictMarks s m v seg held w) (hres : resOf t seg = resOf m seg) (hheld : y.held = w.held) :
    ConflictMarks s t v seg held y := by
  unfold ConflictMarks at *
  rwa [hres, hheld]

/-! ### A conflict of a vehicle with a claim (R41, R42, R134) -/

section
variable {s : State} {v i : Nat} {x : Vehicle} {d : OutClaim}

theorem withdrawClaim_of_some (hd : outClaimOf s v = some d) : (withdrawClaim v s).2 =
    endOutClaim d (sendPeer ((ownerOf s d.segment).getD anyAddress) kindClaimWithdraw d.tag d.segment v [] s) := by
  unfold withdrawClaim
  rw [hd]

/-- The claim, in either phase, is withdrawn. -/
theorem withdrawClaim_rest (hd : outClaimOf s v = some d) :
    (withdrawClaim v s).2.bxu = { s.bxu with outClaims := s.bxu.outClaims.filter fun c => c.tag ≠ d.tag }
    ∧ (∀ j, resOf (withdrawClaim v s).2 j =
        if j = d.segment then (resOf s d.segment).map fun _ => .foreign else resOf s j)
    ∧ (∀ o, ownerOf s d.segment = some o → occupancy s < 64 →
        (withdrawClaim v s).2.fli.outbound = s.fli.outbound ++ [frameOf s o 0x43 0 (peerBytes d.tag d.segment v)]) := by
  obtain ⟨-, -, hsrt, -, hbxu, -⟩ :=
    sendPeer_rest ((ownerOf s d.segment).getD anyAddress) kindClaimWithdraw d.tag d.segment v [] s
  rw [withdrawClaim_of_some hd]
  refine ⟨by rw [(endOutClaim_rest _ _).2.1, hbxu], fun j => ?_, fun o ho hroom => ?_⟩
  · rw [resOf_endOutClaim, resOf_congr hsrt, resOf_congr hsrt]
  · rw [show (endOutClaim d _).fli = _ from fli_endOutClaim d _, ho, Option.getD_some, sendPeer_of_room hroom, List.append_nil]
    rfl

theorem vehicle_withdrawClaim (hd : outClaimOf s v = some d) (hx : vehicle s v = some x) :
    ∃ w, vehicle (withdrawClaim v s).2 v = some w ∧ (claiming d → w = x)
      ∧ (¬ claiming d → w.held = x.held.filter (· ≠ d.segment)) := by
  have hv : d.vehicle = v := by simpa using List.find?_some hd
  have hsent : vehicle (sendPeer ((ownerOf s d.segment).getD anyAddress) kindClaimWithdraw d.tag d.segment v [] s) d.vehicle =
      some x := by rw [vehicle_congr (sendPeer_rest _ _ _ _ _ _ _).2.2.2.1, hv, hx]
  rw [withdrawClaim_of_some hd]
  by_cases hc : claiming d
  · rw [endOutClaim_of_claiming hc]
    exact ⟨x, hv ▸ hsent, fun _ => rfl, absurd hc⟩
  · refine ⟨_, hv ▸ vehicle_endOutClaim_of_granted hc hsent, fun h => absurd h hc, fun _ => ?_⟩
    rw [grantedRecord_eq]

/-- The claim withdrawn, the segment marked where it can be. -/
structure ClaimMarks (v i : Nat) (x : Vehicle) (d : OutClaim) (s m : State) (w : Vehicle) : Prop where
  bxu : m.bxu = { s.bxu with outClaims := s.bxu.outClaims.filter fun c => c.tag ≠ d.tag }
  vehicle : vehicle m v = some w
  other : d.segment ≠ i → resOf m d.segment = some .foreign ∧ ∀ held,
    (claiming d → held = x.held) → (¬ claiming d → held = x.held.filter (· ≠ d.segment)) → ConflictMarks s m v i held w
  same : d.segment = i → ¬ Markable s i → resOf m i = some .foreign ∧ w.held = x.held
  unmarked : ¬ Markable s i → ∀ j, j ≠ d.segment → resOf m j = resOf s j
  sent : ∀ o, ownerOf s d.segment = some o → occupancy s < 64 →
    m.fli.outbound = s.fli.outbound ++ [frameOf s o 0x43 0 (peerBytes d.tag d.segment v)]
  mode : s.mode = .halted ∨ s.mode = .dispatching ∧ s.asu.passRunning = false ∧ severityOf s .positionConflict = .halt →
    m.mode = .halted ∨ m.mode = .dispatching ∧ m.asu.passRunning = false ∧ severityOf m .positionConflict = .halt

theorem claimMarks (hd : outClaimOf s v = some d) (hx : vehicle s v = some x) (hi : i ∉ x.held)
    (hloaded : resOf s d.segment ≠ none) : ∃ w, ClaimMarks v i x d s (conflictMark v i s) w := by
  obtain ⟨hbxu, hres, hsent⟩ := withdrawClaim_rest hd
  obtain ⟨w, hw, hclaiming, hgranted⟩ := vehicle_withdrawClaim hd hx
  have hon := onward_of_worked (worked_withdrawClaim v s)
  have hmode : s.mode = .halted ∨ s.mode = .dispatching ∧ s.asu.passRunning = false ∧ severityOf s .positionConflict = .halt →
      (withdrawClaim v s).2.mode = .halted ∨ (withdrawClaim v s).2.mode = .dispatching
        ∧ (withdrawClaim v s).2.asu.passRunning = false ∧ severityOf (withdrawClaim v s).2 .positionConflict = .halt := by
    unfold severityOf
    rw [hon.passRunning, hon.layout]
    obtain h | h := hon.mode
    · rw [h]
      exact id
    · exact fun _ => .inl h
  generalize hs₁ : (withdrawClaim v s).2 = u at *
  have hforeign : resOf u d.segment = some .foreign := by
    obtain ⟨q, hq⟩ := Option.ne_none_iff_exists'.1 hloaded
    rw [hres, if_pos rfl, hq]
    rfl
  have hheld : ∀ held, (claiming d → held = x.held) → (¬ claiming d → held = x.held.filter (· ≠ d.segment)) → w.held = held :=
    fun held hc hg => by
      by_cases h : claiming d
      · rw [hc h, hclaiming h]
      · rw [hg h, hgranted h]
  have hiw : i ∉ w.held := by
    by_cases h : claiming d
    · rw [hclaiming h]
      exact hi
    · rw [hgranted h]
      exact fun hmem => hi (List.mem_filter.1 hmem).1
  cases h : (resOf s i).bind (markFor v) with
  | none =>
    rw [conflictMark_of_none h, hs₁]
    refine ⟨w, hbxu, hw, fun hne => ⟨hforeign, fun held hc hg => ?_⟩, fun heq _ => ⟨heq ▸ hforeign, ?_⟩,
      fun _ j hj => (hres j).trans (if_neg hj), hsent, hmode⟩
    · exact conflictMarks_of_none h ((hres i).trans (if_neg (Ne.symm hne))) (hheld held hc hg)
    · subst heq
      refine hheld x.held (fun _ => rfl) fun _ => (List.filter_eq_self.2 fun j hj => ?_).symm
      exact decide_eq_true fun hji => hi (hji ▸ hj)
  | some r =>
    have hno : ¬ Markable s i → False := fun hno => hno ((markable_iff v).2 ⟨r, h⟩)
    obtain ⟨roster, srt, line, heq⟩ := replaceHeld_eq v i r u
    rw [conflictMark_of_mark h, hs₁]
    refine ⟨_, by rw [heq, ← hbxu], vehicle_replaceHeld hw, fun hne => ⟨?_, fun held _ _ => conflictMarks_of_mark h ?_ ?_⟩,
      fun _ hm => absurd (hno hm) id, fun hm => absurd (hno hm) id, fun o ho hroom => ?_, fun hm => ?_⟩
    · rw [resOf_replaceHeld hw hiw, if_neg hne]
      exact resOf_releaseSegs_of_foreign _ _ hforeign
    · obtain ⟨q, hq, -⟩ := Option.bind_eq_some_iff.1 h
      rw [resOf_replaceHeld hw hiw, if_pos rfl, hres, if_neg (Ne.symm hne), hq]
      rfl
    · rw [grantedRecord_eq]
    · rw [heq, ← hsent o ho hroom]
    · rw [heq]
      exact hmode hm

end

theorem conflictAndClaim : Says.ConflictAndClaim := by
  intro s e rest seg need x d hs hseg hmode hd hv hunique hloaded
  have hexec := exec_position_of_conflict hs hseg
  have hx := vehicle_needing (need := need) (vehicle_heard (rest := rest) hs.2.2.1)
  have hfind : outClaimOf (needing e.src need (heard s e rest)) e.src = some d := by
    cases h : outClaimOf (needing e.src need (heard s e rest)) e.src with
    | none => exact absurd (by simp [hv]) (List.find?_eq_none.1 h d hd)
    | some c => rw [hunique c (List.mem_of_find?_eq_some h) (.inl (by simpa using List.find?_some h))]
  obtain ⟨w, hmarks⟩ := claimMarks (i := seg) hfind hx hseg hloaded
  generalize conflictMark e.src seg (needing e.src need (heard s e rest)) = m at hexec hmarks
  have hleaves := conflictLeaves (v := e.src) (i := seg) (st := .faulted x.resumeWork)
    (hb := some (s.board.now + s.layout.tuning.tSilent)) (m := m) fun c hc hcv => by
      rw [hmarks.bxu] at hc
      obtain ⟨hc, htag⟩ := List.mem_filter.1 hc
      exact of_decide_eq_true htag (by rw [hunique c hc (.inl hcv)])
  generalize outOfService e.src (.faulted x.resumeWork) _ (raiseConflict e.src seg m) = t at hexec hleaves
  refine ⟨t, _, hexec, hleaves.mode (hmarks.mode hmode), hleaves.vehicle w hmarks.vehicle, hleaves.bxu.trans hmarks.bxu,
    fun hne => ?_, fun heq hno => ?_, fun hno i hi => (hleaves.res i).trans (hmarks.unmarked hno i hi), fun o ho hroom => ?_⟩
  · obtain ⟨hforeign, hconflict⟩ := hmarks.other hne
    refine ⟨(hleaves.res _).trans hforeign, conflictMarks_congr (hconflict _ ?_ ?_) (hleaves.res seg) rfl⟩
    · rintro ⟨c, hc⟩
      rw [hc]
      rfl
    · intro hc
      cases hp : d.phase with
      | claiming c => exact absurd ⟨c, hp⟩ hc
      | granted => rfl
  · obtain ⟨hforeign, hheld⟩ := hmarks.same heq hno
    exact ⟨(hleaves.res seg).trans hforeign, hheld⟩
  · have hsent : m.fli.outbound = s.fli.outbound ++ [frameOf s o 0x43 0 (peerBytes d.tag d.segment e.src)] :=
      hmarks.sent o ho hroom
    rw [← hsent]
    exact hleaves.outbound

/-! ### A conflict of a LOST vehicle (R80) -/

section
variable {s : State} {e : TrackEntry} {rest : List TrackEntry} {x : Vehicle} {w : WorkState} {mark : Bool}

theorem restoreLost_of_conflict {v seg : Nat} {t : State} (hx : vehicle t v = some x) (hlost : x.state = .lost w mark)
    (hseg : seg ∉ x.held) : restoreLost false v seg t = (positionConflict v seg t, false) := by
  unfold restoreLost
  rw [hx]
  dsimp only
  rw [hlost]
  dsimp only
  rw [if_neg hseg]
  rfl

theorem takeStatus_of_conflict {h : Nat → StatusData → State → State} {ev : StatusEvent} {seg m carrier : Nat} {b : Bool}
    (hb : e.body = .status ev seg m b carrier) (hx : vehicle s e.src = some x) (hlost : x.state = .lost w mark)
    (hseg : seg ∉ x.held) : takeStatus h e (popTrack rest s) = positionConflict e.src seg (heard s e rest) := by
  unfold takeStatus
  rw [hb]
  dsimp only
  rw [show vehicle (popTrack rest s) e.src = some x from hx]
  dsimp only
  rw [if_neg (by rw [hlost]; nofun), noteFrame_popTrack,
    restoreLost_of_conflict (x := hearing s e x) (vehicle_heard hx) hlost hseg]
  rfl

theorem takePositionFrame_of_conflict {seg need : Nat} {load : Bool} (hb : e.body = .position seg need load)
    (hx : vehicle s e.src = some x) (hlost : x.state = .lost w mark) (hseg : seg ∉ x.held) :
    takePositionFrame e (popTrack rest s) = positionConflict e.src seg (heard s e rest) := by
  unfold takePositionFrame
  rw [hb]
  dsimp only
  rw [show vehicle (popTrack rest s) e.src = some x from hx]
  dsimp only
  rw [if_neg (by rw [hlost]; nofun), noteFrame_popTrack,
    restoreLost_of_conflict (x := hearing s e x) (vehicle_heard hx) hlost hseg]
  rfl

/-- Whatever the frame of the LOST vehicle reports, it is a conflict where it names a segment not held. -/
theorem exec_row_of_conflict (hs : TakesEntry s e rest) (hkind : kindOf e.body ≠ 1) (hx : vehicle s e.src = some x)
    (hlost : x.state = .lost w mark) (hseg : namedSeg e.body ∉ x.held) :
    exec (rowOf e.body) s = .next (positionConflict e.src (namedSeg e.body) (heard s e rest)) := by
  have hrow : ∀ {p h}, p e.body = true → h e (popTrack rest s) = positionConflict e.src (namedSeg e.body) (heard s e rest) →
      (Host.Outcome.next (takeTrack p h s) : Host.Outcome State Fault Refusal) =
        .next (positionConflict e.src (namedSeg e.body) (heard s e rest)) := fun hp hh =>
    congrArg Host.Outcome.next ((takeTrack_of_taken hs hp).trans hh)
  cases hb : e.body with
  | join seg b c m => rw [hb] at hkind; exact absurd rfl hkind
  | position seg need load =>
    rw [hb] at hseg hrow
    exact hrow (p := isPositionFrame) (h := takePositionFrame) rfl (takePositionFrame_of_conflict hb hx hlost hseg)
  | status ev seg m b c =>
    rw [hb] at hseg hrow
    have hstatus : ∀ h, takeStatus h e (popTrack rest s) = positionConflict e.src seg (heard s e rest) := fun h =>
      takeStatus_of_conflict hb hx hlost hseg
    cases ev <;> exact hrow (p := isStatus _) rfl (hstatus _)

end

theorem lostConflict : Says.LostConflict := by
  intro s e rest x w mark hs hmode hkind hx hlost hseg hnext hno
  have hexec := exec_row_of_conflict hs hkind hx hlost hseg
  have hx' := vehicle_heard (rest := rest) hx
  obtain ⟨⟨y, hy, hmarks, hyeq⟩, roster, srt, line, heq⟩ :=
    conflictMark_unclaimed (s := heard s e rest) (i := namedSeg e.body) hno hx' hseg
  have hresume : (hearing s e x).resumeWork = w := by
    unfold Vehicle.resumeWork Vehicle.workOf
    rw [show (hearing s e x).state = .lost w mark from hlost]
  rw [positionConflict_known hx', hresume] at hexec
  generalize conflictMark e.src (namedSeg e.body) (heard s e rest) = m at hexec hy hmarks heq
  have hleaves := conflictLeaves (v := e.src) (i := namedSeg e.body) (st := .faulted w)
    (hb := heardFromNow (heard s e rest)) (m := m) (by rw [heq]; exact hno)
  generalize outOfService e.src (.faulted w) _ (raiseConflict e.src (namedSeg e.body) m) = t at hexec hleaves
  have hynext : y.nextMove = none := by
    rw [hyeq]
    exact hnext
  refine ⟨t, _, hexec, hleaves.flag, hleaves.vehicle y hy, rfl, rfl, rfl, rfl, ?_, ?_, ?_,
    conflictMarks_congr hmarks (hleaves.res _) rfl, ?_⟩
  · show y.move = x.move
    rw [hyeq]
    rfl
  · show y.carrier = x.carrier
    rw [hyeq]
    rfl
  · show y.need = x.need
    rw [hyeq]
    rfl
  · rw [hleaves.mq (by rw [heq]; exact hmode) fun v hv => by rw [hy] at hv; cases hv; exact hynext, heq]
    rfl

/-- Settles O44. -/
theorem positionConflictHalts : Obligations.PositionConflictHalts := ⟨conflictHalts, conflictAndClaim, lostConflict⟩

end Sys2Proof.Machine

/-! PROOFS. Layer: walks and path builds (R49 to R53, R55, R62). -/

namespace Sys2Proof.Machine

open Sys2Proof.Says

/-! ### What the Path Walker reads (R49, R53) -/

/-- The layout and the identity are all that a build reads besides the vehicle, its move and the park choice. -/
def SameFloor (s t : State) : Prop := t.layout = s.layout ∧ t.mc.identity = s.mc.identity

section
variable {s t : State}

theorem walkFrom_congr (h : SameFloor s t) (goal : Nat) : ∀ n cur taken, walkFrom t goal n cur taken = walkFrom s goal n cur taken
  | 0, _, _ => rfl
  | n + 1, cur, taken => by
    unfold walkFrom succ0
    rw [segment_congr h.1]
    split
    · rfl
    next nx _ => rw [isForeign_congr h.1 h.2, walkFrom_congr h goal n nx]

theorem walkLength_congr (h : SameFloor s t) : walkLength t = walkLength s := by
  funext start goal
  unfold walkLength
  rw [walkFrom_congr h]

theorem trial_congr (h : SameFloor s t) : trial t = trial s := by
  funext p target s0 approach fin
  unfold trial
  rw [zoneOf_congr h.1, walkLength_congr h, zoneRec_congr h.1, route_congr h.1]

theorem pathToPort_congr (h : SameFloor s t) (s0 dest : Nat) : pathToPort t s0 dest = pathToPort s s0 dest := by
  unfold pathToPort isOwnPort portSegment portRec exitSeg solePredecessor
  rw [predecessors_congr h.1 h.2, h.1, h.2, trial_congr h]

end

/-! ### Walks (R53) -/

section
variable {s : State} {a b k : Nat}

theorem succ0_of_along {j i nx : Nat} (hi : along s j a = some i) (hnx : along s (j + 1) a = some nx) : succ0 s i = some nx := by
  unfold along at hnx
  rw [hi] at hnx
  exact hnx

/-- A walk that stands at its `j`-th segment and has met neither its goal nor a foreign segment takes the next one. -/
theorem walkFrom_step {n j i nx : Nat} (hi : along s j a = some i) (hnx : along s (j + 1) a = some nx)
    (hforeign : isForeign s nx = false) (hne : nx ≠ b) (taken : Nat) :
    walkFrom s b (n + 1) i taken = walkFrom s b n nx (taken + 1) := by
  rw [walkFrom, succ0_of_along hi hnx]
  dsimp only
  rw [if_neg (by simp [hforeign]), if_neg hne]

/-- The walk goes on to its `j`-th segment. -/
theorem walkFrom_along (hway : OnTheWay s a b k) {j n i : Nat} (hj : j < k) (hi : along s j a = some i) :
    walkFrom s b (n + j) a 0 = walkFrom s b n i j := by
  induction j generalizing n i with
  | zero =>
    cases hi
    rfl
  | succ j ih =>
    obtain ⟨i', hi', -, -⟩ := hway j (by omega)
    obtain ⟨nx, hnx, hne, hforeign⟩ := hway (j + 1) hj
    cases hi.symm.trans hnx
    rw [show n + (j + 1) = n + 1 + j by omega, ih (by omega) hi', walkFrom_step hi' hnx (hforeign (by omega)) hne]

theorem start_ne_of_onTheWay (hway : OnTheWay s a b k) (hk : 1 ≤ k) : a ≠ b := by
  obtain ⟨i, hi, hne, -⟩ := hway 0 hk
  cases hi
  exact hne

theorem walkLength_of_walks (h : Walks s a b k) : walkLength s a b = .ok k := by
  obtain ⟨hlimit, hway, hgoal, hforeign⟩ := h
  unfold walkLength
  cases k with
  | zero =>
    cases hgoal
    exact if_pos rfl
  | succ k =>
    obtain ⟨i, hi, -, -⟩ := hway k (by omega)
    rw [if_neg (start_ne_of_onTheWay hway (by omega)), show 255 = (254 - k + 1) + k by omega, walkFrom_along hway (by omega) hi,
      walkFrom, succ0_of_along hi hgoal]
    dsimp only
    rw [if_neg (by simp [hforeign]), if_pos rfl]

theorem walkLength_of_walksForeign (h : WalksForeign s a b k) : walkLength s a b = .error .walkForeign := by
  obtain ⟨hk, hlimit, hway, nx, hnx, hforeign⟩ := h
  obtain ⟨k, rfl⟩ := Nat.exists_eq_add_of_le' hk
  obtain ⟨i, hi, -, -⟩ := hway k (by omega)
  unfold walkLength
  rw [if_neg (start_ne_of_onTheWay hway hk), show 255 = (254 - k + 1) + k by omega, walkFrom_along hway (by omega) hi,
    walkFrom, succ0_of_along hi hnx]
  dsimp only
  rw [if_pos hforeign]

theorem walkLength_of_walksOn (h : WalksOn s a b) : walkLength s a b = .error .walkLimit := by
  obtain ⟨i, hi, -, -⟩ := h 255 (by omega)
  unfold walkLength
  rw [if_neg (start_ne_of_onTheWay h (by omega)), show (255 : Nat) = 0 + 255 from rfl, walkFrom_along h (by omega) hi]
  rfl

end

/-! ### A trial (R51, R52, R55) -/

section
variable {s : State}

theorem trial_one_zone {p : Purpose} {target s0 approach a : Nat} {fin : Option Nat} (ha : zoneOf s s0 = some a)
    (hb : zoneOf s approach = some a) :
    (∀ n, walkLength s s0 approach = .ok n →
      trial s p target s0 approach fin = builtPath (begunPath p target s0 approach fin none) 0 0 0 n) ∧
    (∀ c, walkLength s s0 approach = .error c →
      trial s p target s0 approach fin = brokenPath (begunPath p target s0 approach fin none) c) := by
  unfold trial
  rw [ha, hb]
  dsimp only
  rw [if_pos rfl]
  refine ⟨fun n hn => ?_, fun c hc => ?_⟩
  · rw [hn]
    rfl
  · rw [hc]
    rfl

theorem trial_two_zones {p : Purpose} {target s0 approach a b : Nat} {za zb : ZoneRec} {li : Nat}
    (ha : zoneOf s s0 = some a) (hb : zoneOf s approach = some b) (hne : a ≠ b) (hza : zoneRec s a = some za)
    (hzb : zoneRec s b = some zb) (hli : Walks s s0 za.anchor li) :
    (∀ desc lo, (route s a b).desc = some desc → Walks s zb.entrySeg approach lo →
      trial s p target s0 approach none = builtPath (begunPath p target s0 approach none (some (a, b))) li desc.length lo 0) ∧
    ((route s a b).desc = none →
      trial s p target s0 approach none = brokenPath (begunPath p target s0 approach none (some (a, b))) .noRoute) := by
  unfold trial
  rw [ha, hb]
  dsimp only
  rw [if_neg hne, hza, hzb]
  dsimp only
  rw [walkLength_of_walks hli]
  dsimp only
  refine ⟨fun desc lo hdesc hlo => ?_, fun hdesc => ?_⟩
  · rw [hdesc]
    dsimp only
    rw [walkLength_of_walks hlo]
    rfl
  · rw [hdesc]
    rfl

/-- A build for a purpose from `s0` to `g` sets what R51 to R55 say. -/
theorem leadsTo_trial (p : Purpose) (s0 g : Nat) : LeadsTo s p s0 g (trial s p g s0 g none) := by
  intro a b ha hb
  refine ⟨fun hab => ?_, fun za zb li hne hza hzb hli => ?_⟩
  · subst hab
    obtain ⟨hbuilt, hbroken⟩ := trial_one_zone (p := p) (target := g) (fin := none) ha hb
    refine ⟨fun k hk => ?_, fun k hk => hbroken _ (walkLength_of_walksForeign hk),
      fun hon => hbroken _ (walkLength_of_walksOn hon)⟩
    rw [hbuilt k (walkLength_of_walks hk)]
    simp [builtPath, walkPath, begunPath, Path.empty]
  · obtain ⟨hroute, hnone⟩ := trial_two_zones (p := p) (target := g) ha hb hne hza hzb hli
    refine ⟨fun desc lo hdesc hlo => ?_, fun hdesc => hnone hdesc⟩
    rw [hroute desc lo hdesc hlo]
    simp [builtPath, routePath, begunPath, Descriptor.length, Path.empty]

/-- A build through the exit of another cell. -/
theorem trial_exit {x p s0 a k : Nat} (ha : zoneOf s s0 = some a) (hp : zoneOf s p = some a) (hk : Walks s s0 p k) :
    trial s .exit x s0 p (some x) = exitPath x s0 p k := by
  rw [(trial_one_zone ha hp).1 k (walkLength_of_walks hk)]
  simp [builtPath, exitPath, begunPath, Path.empty]

end

/-! ### A build, and the alignment of a list of one segment (R46, R49, R55) -/

section
variable {s : State} {v s0 : Nat} {x : Vehicle} {w : WorkState}

/-- The path of a vehicle with the mark that goes with it. -/
def pathSet (v : Nat) (plan : Path × Option Nat) (s : State) : State :=
  updVehicle v (fun y => { y with path := plan.1, parkMark := plan.2 }) (updVehicle v (fun y => { y with parkMark := none }) s)

theorem vehicle_pathSet {plan : Path × Option Nat} (hx : vehicle s v = some x) :
    vehicle (pathSet v plan s) v = some { x with path := plan.1, parkMark := plan.2 } := by
  rw [pathSet, vehicle_updVehicle v v (fun y => { y with path := plan.1, parkMark := plan.2 }) _ fun _ h => h,
    vehicle_updVehicle v v (fun y => { y with parkMark := none }) s fun _ h => h, hx]
  simp

theorem buildPath_of_working (hx : vehicle s v = some x) (hw : x.state = .work w) (hs0 : x.held.head? = some s0) :
    ∃ plan, plan = planPath (updVehicle v (fun y => { y with parkMark := none }) s) x w s0
      ∧ ((∀ c, plan.1.condition ≠ .broken c) → buildPath v s = pathSet v plan s)
      ∧ ∀ c, plan.1.condition = .broken c → buildPath v s =
          raise .pathFault { noDetail with vehicle := v, segment := plan.1.target, cause := some (.path c) } (pathSet v plan s) := by
  refine ⟨_, rfl, fun hno => ?_, fun c hc => ?_⟩
  all_goals
    unfold buildPath
    rw [hx]
    dsimp only
    rw [hw, show x.firstHeld = some s0 from hs0]
    dsimp only
  · split
    next c hc => exact absurd hc (hno c)
    next => rfl
  · rw [hc]
    rfl

theorem releaseEntries_nil (v : Nat) (s : State) : releaseEntries v [] s = s := by
  unfold releaseEntries withdrawAmong
  split
  · rfl
  · rw [if_neg (by simp)]
    rfl

/-- A vehicle that holds one segment keeps it, with the path built. -/
theorem vehicle_alignHeld_of_one (hx : vehicle s v = some x) (hheld : x.held = [s0]) :
    vehicle (alignHeld v s).2 v = some x := by
  have hset : vehicle (updVehicle v (fun y => { y with held := [s0], path := x.path }) s) v = some x := by
    rw [vehicle_updVehicle v v (fun y => { y with held := [s0], path := x.path }) s fun _ h => h, hx, ← hheld]
    simp
  unfold alignHeld
  rw [hx]
  dsimp only
  rw [hheld]
  simp only [alignRun, List.length_nil, List.drop_nil, List.reverse_nil, List.isEmpty_nil, if_true, releaseEntries_nil]
  split
  · exact hset
  · rw [vehicle_leaveWaits]
    exact hset

/-- The vehicle holds one segment and has the path that the build in HALTED gives it. -/
theorem rebuild_of_halted (hmode : s.mode = .halted) (hx : vehicle s v = some x) (hw : x.state = .work w)
    (hheld : x.held = [s0]) :
    ∃ plan, plan = planPath (updVehicle v (fun y => { y with parkMark := none }) s) x w s0
      ∧ vehicle (rebuild v s) v = some { x with path := plan.1, parkMark := plan.2 }
      ∧ ((∃ c, plan.1.condition = .broken c) → flagSet (rebuild v s) .pathFault = true) := by
  obtain ⟨plan, hplan, hbuilt, hbroken⟩ := buildPath_of_working hx hw (by rw [hheld]; rfl)
  have hset : vehicle (buildPath v s) v = some { x with path := plan.1, parkMark := plan.2 } := by
    by_cases h : ∃ c, plan.1.condition = .broken c
    · obtain ⟨c, hc⟩ := h
      rw [hbroken c hc, vehicle_raise]
      exact vehicle_pathSet hx
    · rw [hbuilt fun c hc => h ⟨c, hc⟩]
      exact vehicle_pathSet hx
  have hhalted : (alignHeld v (buildPath v s)).2.mode ≠ .dispatching := by
    have := ((acts_buildPath v s).trans (acts_alignHeld v _)).mc
    obtain h | ⟨h, -⟩ := this
    · rw [State.mode, h, ← State.mode, hmode]
      nofun
    · rw [hmode] at h
      cases h
  have hrebuild : rebuild v s = (alignHeld v (buildPath v s)).2 := by
    unfold rebuild rebuildWith
    rw [hx]
    dsimp only
    rw [if_pos (by rw [Vehicle.isWorking, hw])]
    exact run_idle fun t _ => taskStep_of_not_dispatching hhalted t
  refine ⟨plan, hplan, ?_, fun ⟨c, hc⟩ => ?_⟩
  · rw [hrebuild]
    exact vehicle_alignHeld_of_one hset hheld
  · rw [hrebuild]
    refine (acts_alignHeld v _).flagSet ?_
    rw [hbroken c hc]
    exact flagSet_raise _ _ _

end

end Sys2Proof.Machine

/-! PROOFS. O9: a MOVE that adopts an UNROUTED record, and the path its vehicle then has (R49 to R53, R55, R62, R97). -/

namespace Sys2Proof.Machine

open Sys2Proof.Says

section
variable {s : State} {f : FloorFrame} {rest : List FloorFrame} {n m c p d k : Nat} {x : Move}

/-- The record adopted with the fields of the request. -/
def adopted (p d k : Nat) (y : Move) : Move :=
  { y with source := some p, dest := some d, cls := k, returnFlag := false, state := .carrying }

/-- What an adoption does before the path is built. -/
def adopting (rest : List FloorFrame) (m p d k : Nat) (s : State) : State := changeMove m (adopted p d k) (openRequest rest s)

/-- The path is built for the vehicle that has the carrier. -/
def rebuildOf (o : Option Nat) (s : State) : State :=
  match o with
  | some v => rebuild v s
  | none => s

theorem onward_rebuildOf (o : Option Nat) (s : State) : Onward s (rebuildOf o s) := by
  cases o with
  | none => exact .refl s
  | some v => exact onward_rebuild v s

theorem exec_move_of_adopted (hs : Takes s f rest) (hkind : f.kind = 0x20) (hpayload : f.payload = movePayload m c p d k)
    (hfields : MoveFields m c p d k) (hcell : s.mc.identity.cell = some n) (hmode : s.mode ≠ .parked) (hm : 1 ≤ m)
    (hd : d ≤ 16383) (hk : k ≤ 3) (hport : portRec s p ≠ none) (hreach : Reachable s n d) (hx : findMove s m = some x)
    (hstate : x.state = .unrouted) (hc : x.carrier = c) :
    exec .move s = .next (closed f .done (rebuildOf x.vehicle (adopting rest m p d k s))) := by
  obtain ⟨-, -, hp, -, -⟩ := id hfields
  refine exec_move_of_serve hs hkind hpayload hfields ?_
  rw [serveMove_of_known (movePasses_openRequest (c := c) rest hcell hmode hm hp hd hk hport hreach) hx]
  unfold adoptMove
  rw [if_pos ⟨hstate, hc⟩]
  rfl

theorem findMove_adopting (hx : findMove s m = some x) :
    findMove (adopting rest m p d k s) m = some { adopted p d k x with confirm := .absent } :=
  findMove_changeMove (f := adopted p d k) (s := openRequest rest s) hx (findMove_id hx).1 (by nofun)

end

theorem moveAdopts : Says.MoveAdopts := by
  intro s f rest n m c p d k x hs hkind hpayload hfields hcell hmode hm hd hk hport hreach hx hstate hc
  refine ⟨_, exec_move_of_adopted hs hkind hpayload hfields hcell hmode hm hd hk hport hreach hx hstate hc,
    endsWithReply_closed _ _ _, ?_⟩
  exact ((onward_rebuildOf x.vehicle _).moves.move m).absent (findMove_adopting hx) rfl

/-! ### The path (R49 to R53, R62) -/

theorem planPath_laden {s : State} {x : Vehicle} {m s0 d : Nat} {y : Move} (hm : x.move = some m) (hy : findMove s m = some y)
    (hstate : y.state ≠ .unrouted) (hd : y.dest = some d) : planPath s x .laden s0 = (pathToPort s s0 d, none) := by
  unfold planPath
  rw [hm]
  dsimp only [Option.bind_some]
  rw [hy]
  dsimp only
  split
  next h => exact absurd h hstate
  next h _ => rw [hd] at h; cases h
  next h _ =>
    rw [hd] at h
    cases h
    rfl

theorem pathSet_of_adoptsAt {s : State} {f : FloorFrame} {rest : List FloorFrame} {n d v s0 : Nat}
    (hs : AdoptsAt s f rest n d v s0) {q : Path → Prop} (hq : q (pathToPort s s0 d)) : Says.PathSet s v s0 q := by
  obtain ⟨m, c, p, k, x, u, htakes, hkind, hpayload, hfields, hcell, hmode, hm, hd, hk, hport, hreach, hx, hstate, hc, hxv,
    hu, hladen, hum, hheld⟩ := hs
  have hexec := exec_move_of_adopted htakes hkind hpayload hfields hcell (by rw [hmode]; nofun) hm hd hk hport hreach hx hstate hc
  rw [hxv] at hexec
  have hfound := findMove_adopting (rest := rest) (p := p) (d := d) (k := k) hx
  have hrep : Reporting (openRequest rest s) (adopting rest m p d k s) := reporting_changeMove _ _ _
  have hfloor : SameFloor s (updVehicle v (fun y => { y with parkMark := none }) (adopting rest m p d k s)) :=
    ⟨hrep.layout, hrep.identity⟩
  have hvehicle : vehicle (adopting rest m p d k s) v = some u := (vehicle_changeMove _ _ _ _).trans hu
  have hhalted : (adopting rest m p d k s).mode = .halted := hrep.mode.elim (fun h => h.trans hmode) id
  obtain ⟨plan, hplan, hy, hflag⟩ := rebuild_of_halted hhalted hvehicle hladen hheld
  rw [planPath_laden (d := d) hum (by rw [findMove_updVehicle]; exact hfound) (by nofun) rfl, pathToPort_congr hfloor] at hplan
  exact ⟨_, _, hexec, hy, by rw [hplan]; exact hq, hheld, hflag⟩

theorem adoptedPathBuilt : Says.AdoptedPathBuilt := by
  intro s f rest n d v s0 a hs ha
  obtain ⟨m, c, p, k, x, u, -, -, -, -, hcell, -⟩ := id hs
  refine ⟨fun g hown hport => pathSet_of_adoptsAt hs ?_, fun x p hother hexit hpred hp k hk => pathSet_of_adoptsAt hs ?_⟩
  · unfold pathToPort
    rw [if_pos (by simp [isOwnPort, hcell, cellOfPort, hown]), show portSegment s (localOfPort d) = some g.segment by
      rw [portSegment, localOfPort, hport]
      rfl]
    exact leadsTo_trial .destination s0 g.segment
  · unfold pathToPort
    rw [if_neg (by simpa [isOwnPort, hcell, cellOfPort] using Ne.symm hother), show exitSeg s (cellOfPort d) = some x from hexit]
    dsimp only
    rw [show solePredecessor s x = some p by rw [solePredecessor, hpred]]
    exact trial_exit ha hp hk

/-- Settles O9. -/
theorem moveAdoptsUnrouted : Obligations.MoveAdoptsUnrouted := ⟨moveAdopts, adoptedPathBuilt⟩

end Sys2Proof.Machine

/-! PROOFS. Layer: the first held segment of a vehicle under tasks and path builds (R28, R35, R46). -/

namespace Sys2Proof.Machine

open Sys2Proof.Says

/-- Segment `i` is the first of the held list of vehicle `v`. -/
def Heads (v i : Nat) (s : State) : Prop := ∃ x, vehicle s v = some x ∧ x.held.head? = some i

section
variable {v i : Nat} {s t : State}

theorem Heads.of_vehicle (h : Heads v i s) (hv : vehicle t v = vehicle s v) : Heads v i t := by
  obtain ⟨x, hx, hi⟩ := h
  exact ⟨x, hv.trans hx, hi⟩

theorem Heads.of_roster (h : Heads v i s) (hroster : t.roster = s.roster) : Heads v i t := h.of_vehicle (vehicle_congr hroster v)

theorem heads_updVehicle {u : Nat} {f : Vehicle → Vehicle} (h : Heads v i s) (hid : ∀ x, x.id = u → (f x).id = u)
    (hf : ∀ x, vehicle s v = some x → x.held.head? = some i → u = v → (f x).held.head? = some i) :
    Heads v i (updVehicle u f s) := by
  obtain ⟨x, hx, hi⟩ := h
  refine ⟨if v = u then f x else x, by rw [vehicle_updVehicle u v f s hid, hx]; rfl, ?_⟩
  split
  next huv => exact hf x hx hi huv.symm
  next => exact hi

theorem heads_makeGrantDue (u : Nat) (h : Heads v i s) : Heads v i (makeGrantDue u s) := by
  obtain ⟨x, hx, hi⟩ := h
  refine ⟨if v = u then grantedRecord x else x, by rw [vehicle_makeGrantDue_eq, hx]; rfl, ?_⟩
  split
  · rw [grantedRecord_eq]
    exact hi
  · exact hi

theorem heads_appendHeld (u j : Nat) (h : Heads v i s) : Heads v i (appendHeld u j s) := by
  refine heads_makeGrantDue u (heads_updVehicle h (fun _ h => h) fun x _ hi _ => ?_)
  show (x.held ++ [j]).head? = some i
  rw [List.head?_append, hi]
  rfl

theorem heads_reserveFor (u j : Nat) (h : Heads v i s) : Heads v i (reserveFor u j s) :=
  (heads_appendHeld u j h).of_roster rfl

theorem heads_buildPath (u : Nat) (h : Heads v i s) : Heads v i (buildPath u s) := by
  unfold buildPath
  split
  · exact h
  split
  next x hx w s0 hw hs0 =>
    have hset : ∀ p m, Heads v i (updVehicle u (fun y => { y with path := p, parkMark := m })
        (updVehicle u (fun y => { y with parkMark := none }) s)) := fun p m =>
      heads_updVehicle (f := fun y => { y with path := p, parkMark := m })
        (heads_updVehicle (f := fun y => { y with parkMark := none }) h (fun _ h => h) fun _ _ hi _ => hi)
        (fun _ h => h) fun _ _ hi _ => hi
    dsimp only
    split
    · exact (hset _ _).of_roster (raise_rest _ _ _).2.2.2.1
    · exact hset _ _
  next => exact h

/-- The entries of another vehicle are no business of `v`; its own list is set anew afterwards. -/
theorem vehicle_releaseEntries_of_ne {u : Nat} (hne : v ≠ u) (is : List Nat) (s : State) :
    vehicle (releaseEntries u is s) v = vehicle s v := by
  have hsegs : ∀ (is : List Nat) (t : State), vehicle (releaseSegs u is t) v = vehicle t v := fun is t => by
    obtain ⟨srt, h⟩ := releaseSegs_eq u is t
    rw [h]
    rfl
  rw [releaseEntries, hsegs]
  unfold withdrawAmong
  split
  · rfl
  next e he =>
    split
    · have hu : e.vehicle = u := by simpa using List.find?_some he
      rw [withdrawClaim_of_some he]
      unfold endOutClaim
      split
      · exact vehicle_congr (sendPeer_rest _ _ _ _ _ _ _).2.2.2.1 v
      · rw [vehicle_makeGrantDue_eq, vehicle_updVehicle e.vehicle v
          (fun x => { x with held := x.held.filter (· ≠ e.segment) }) _ fun _ h => h, hu]
        simp only [if_neg hne, Option.map_id']
        exact vehicle_congr (sendPeer_rest _ _ _ _ _ _ _).2.2.2.1 v
    · rfl

theorem heads_alignHeld (u : Nat) (h : Heads v i s) : Heads v i (alignHeld u s).2 := by
  unfold alignHeld
  split
  · exact h
  next x hx =>
    split
    · exact h
    next first ahead hheld =>
      have hset : ∀ is (k : List Nat × Path), Heads v i (updVehicle u (fun y => { y with held := first :: k.1, path := k.2 })
          (releaseEntries u is s)) := fun is k => by
        by_cases hne : v = u
        · subst hne
          obtain ⟨y, hy, hi⟩ := h
          cases hx.symm.trans hy
          obtain ⟨z, hz, -⟩ := path_releaseEntries (is := is) hx
          refine ⟨_, by rw [vehicle_updVehicle v v (fun y => { y with held := first :: k.1, path := k.2 }) _ fun _ h => h, hz,
            Option.map_some, if_pos rfl], ?_⟩
          rw [hheld] at hi
          exact hi
        · exact heads_updVehicle (h.of_vehicle (vehicle_releaseEntries_of_ne hne is s)) (fun _ h => h)
            fun _ _ _ huv => absurd huv.symm hne
      dsimp only
      split <;> split
      · exact hset _ _
      · exact (hset _ _).of_roster rfl
      · exact heads_makeGrantDue u (hset _ _)
      · exact (heads_makeGrantDue u (hset _ _)).of_roster rfl

theorem heads_makeClaim (u j : Nat) (h : Heads v i s) : Heads v i (makeClaim u j s) := by
  unfold makeClaim
  split
  · split
    · exact h
    · exact h.of_roster (sendPeer_rest _ _ _ _ _ _ _).2.2.2.1
  · exact h

theorem heads_enterWait (u j : Nat) (h : Heads v i s) : Heads v i (enterWait u j s) := by
  unfold enterWait
  split
  · exact h
  · dsimp only
    split
    · split
      · exact h.of_roster (raise_rest _ _ _).2.2.2.1
      · exact h.of_roster rfl
    · exact h.of_roster rfl

theorem heads_claimWins {j u tag cell : Nat} (hroom : rosterHasRoom s = true) (h : Heads v i s) :
    Heads v i (claimWins j u tag cell s).2 := by
  unfold claimWins
  dsimp only
  split
  · exact h.of_roster rfl
  · split
    · exact h.of_roster (sendPeer_rest _ _ _ _ _ _ _).2.2.2.1
    next e _ hnew =>
      have hadd := vehicle_addRecord (x := arrivingRecord e.vehicle e.segment) (s := leaveClaimWait cell tag s)
        (of_decide_eq_true hroom) (Bool.eq_false_iff.2 hnew)
      obtain ⟨x, hx, hi⟩ := h
      have hknown : v ≠ e.vehicle := fun hv => hnew (by
        rw [inRoster_eq, ← hv, show vehicle (leaveClaimWait cell tag s) v = some x from hx]
        rfl)
      refine Heads.of_roster (s := addRecord (arrivingRecord e.vehicle e.segment) (leaveClaimWait cell tag s))
        ⟨x, ?_, hi⟩ (sendPeer_rest _ _ _ _ _ _ _).2.2.2.1
      exact (hadd v).trans ((if_neg hknown).trans hx)

theorem heads_arbitrate (j : Nat) (h : Heads v i s) : Heads v i (arbitrate j s).2 := by
  unfold arbitrate
  split
  next hfree =>
    split
    · exact h
    next e he =>
      split
      · exact heads_reserveFor _ _ (h.of_roster rfl)
      next u tag cell cls hwho =>
        have hadm := (winner_admissible he).2
        unfold admissible at hadm
        rw [hfree, if_neg (by nofun), hwho] at hadm
        exact heads_claimWins (Bool.and_eq_true_iff.1 hadm).2 h
  · split
    · exact h
    · split
      · exact heads_makeClaim _ _ (h.of_roster rfl)
      · exact h
  · exact h

theorem heads_retryPath (u : Nat) (h : Heads v i s) : Heads v i (retryPath u s).2 := by
  have halign : Heads v i (alignHeld u (buildPath u s)).2 := heads_alignHeld u (heads_buildPath u h)
  unfold retryPath
  dsimp only
  split <;> exact halign

theorem heads_extendStart (u : Nat) (h : Heads v i s) : Heads v i (extendStart u s).2 := by
  unfold extendStart
  split
  · exact h
  · split
    · split
      · exact heads_retryPath u h
      · split
        · exact heads_retryPath u h
        · exact h
      · exact h
    · exact h

theorem heads_reachSegment (u j : Nat) (h : Heads v i s) : Heads v i (reachSegment u j s).2 := by
  unfold reachSegment
  split
  · exact h
  · split
    · split
      · split
        · exact heads_reserveFor u j h
        · exact heads_enterWait u j h
      · exact heads_enterWait u j h
    · split
      · split
        · exact heads_makeClaim u j h
        · exact heads_enterWait u j h
      · exact heads_enterWait u j h
    · split
      · exact h
      · exact heads_enterWait u j h
    · exact heads_enterWait u j h

theorem heads_taskStep (k : Task) (h : Heads v i s) : Heads v i (taskStep k s).2 := by
  unfold taskStep
  split
  · split
    · exact heads_arbitrate _ h
    · split <;> exact h
    · split <;> exact h
    · exact heads_extendStart _ h
    · unfold extendRound
      split
      · exact h
      · exact heads_reachSegment _ _ h
    · unfold regainRound
      split
      · exact h
      · split
        · exact heads_reserveFor _ _ h
        · exact h
  · exact h

theorem heads_runTasks : ∀ (n : Nat) (ts : List Task) {s : State}, Heads v i s → Heads v i (runTasks n ts s)
  | 0, _, _, h => h
  | _ + 1, [], _, h => h
  | n + 1, k :: _, _, h => heads_runTasks n _ (heads_taskStep k h)

theorem heads_run (ts : List Task) (h : Heads v i s) : Heads v i (run ts s) := heads_runTasks _ ts h

theorem heads_rebuildWith (more : List Task) (u : Nat) (h : Heads v i s) : Heads v i (rebuildWith more u s) := by
  unfold rebuildWith
  split
  · exact h
  · split
    · exact heads_run _ (heads_alignHeld u (heads_buildPath u h))
    · exact h

end

end Sys2Proof.Machine

/-! PROOFS. Layer: what the applications of a dispatch pass keep (R98, R112, R121, R123). -/

namespace Sys2Proof.Machine

open Sys2Proof.Says

/-! ### Records of moves and vehicles that a pass has settled -/

/-- Age, class, urgency and source of a move. -/
def SameMove (y w : Move) : Prop := w.age = y.age ∧ w.cls = y.cls ∧ w.urgency = y.urgency ∧ w.source = y.source

theorem SameMove.trans {x y z : Move} (h : SameMove x y) (k : SameMove y z) : SameMove x z := by
  obtain ⟨ha, hc, hu, hs⟩ := h
  obtain ⟨ka, kc, ku, ks⟩ := k
  exact ⟨ka.trans ha, kc.trans hc, ku.trans hu, ks.trans hs⟩

theorem sameMove_of_moveKept {k : Nat} {s t : State} {y : Move} (h : MoveKept k s t) (hy : findMove s k = some y) :
    ∃ w, findMove t k = some w ∧ SameMove y w := by
  obtain ⟨w, hw, hweq⟩ := h.some hy
  exact ⟨w, hw, by rw [hweq]; exact ⟨rfl, rfl, rfl, rfl⟩⟩

/-- Move `k` is WAITING without a vehicle. -/
def Waits (k : Nat) (s : State) : Prop := ∃ y, findMove s k = some y ∧ y.state = .waiting ∧ y.vehicle = none

theorem Waits.kept {k : Nat} {s t : State} (h : Waits k s) (hk : MoveKept k s t) : Waits k t := by
  obtain ⟨y, hy, hstate, hvehicle⟩ := h
  obtain ⟨w, hw, hweq⟩ := hk.some hy
  exact ⟨w, hw, by rw [hweq]; exact hstate, by rw [hweq]; exact hvehicle⟩

/-- From `s` to `t` only the vehicles `vs` were given work, the moves `ws` assigned, and moves that `W` does not name
returned to WAITING. -/
structure Passed (W : Nat → Prop) (vs ws : List Nat) (s t : State) : Prop where
  layout : t.layout = s.layout
  identity : t.mc.identity = s.mc.identity
  vehicles : ∀ v x, v ∉ vs → vehicle s v = some x → ∃ z, vehicle t v = some z ∧ Tended x z
  heads : ∀ v i, Heads v i s → Heads v i t
  aims : ∀ v i, v ∉ vs → Aimed v i s → Aimed v i t
  moves : ∀ k, W k → k ∉ ws → MoveKept k s t
  waits : ∀ k, k ∉ ws → Waits k s → Waits k t
  records : ∀ k y, findMove s k = some y → ∃ w, findMove t k = some w ∧ SameMove y w
  preempts : ∀ q ∈ s.asu.preempts, W q.newMove → q.newMove ∉ ws →
    (∃ z, findMove s q.newMove = some z ∧ z.state = .assigned ∧ z.vehicle = some q.vehicle) → q ∈ t.asu.preempts

section
variable {W : Nat → Prop} {vs ws vs' ws' : List Nat} {s t u : State}

theorem Passed.refl (s : State) : Passed W vs ws s s where
  layout := rfl
  identity := rfl
  vehicles _ x _ h := ⟨x, h, .refl x⟩
  heads _ _ h := h
  aims _ _ _ h := h
  moves k _ _ := .refl k s
  waits _ _ h := h
  records _ y h := ⟨y, h, rfl, rfl, rfl, rfl⟩
  preempts _ h _ _ _ := h

theorem Passed.mono (h : Passed W vs ws s t) (hv : vs ⊆ vs') (hw : ws ⊆ ws') : Passed W vs' ws' s t where
  layout := h.layout
  identity := h.identity
  vehicles v x hn := h.vehicles v x fun hm => hn (hv hm)
  heads := h.heads
  aims v i hn := h.aims v i fun hm => hn (hv hm)
  moves k hk hn := h.moves k hk fun hm => hn (hw hm)
  waits k hn := h.waits k fun hm => hn (hw hm)
  records := h.records
  preempts q hq hk hn := h.preempts q hq hk fun hm => hn (hw hm)

theorem Passed.trans (h : Passed W vs ws s t) (k : Passed W vs ws t u) : Passed W vs ws s u where
  layout := k.layout.trans h.layout
  identity := k.identity.trans h.identity
  vehicles v x hn hx := by
    obtain ⟨y, hy, hxy⟩ := h.vehicles v x hn hx
    obtain ⟨z, hz, hyz⟩ := k.vehicles v y hn hy
    exact ⟨z, hz, hxy.trans hyz⟩
  heads v i hi := k.heads v i (h.heads v i hi)
  aims v i hn hi := k.aims v i hn (h.aims v i hn hi)
  moves j hj hn := (h.moves j hj hn).trans (k.moves j hj hn)
  waits j hn hj := k.waits j hn (h.waits j hn hj)
  records j y hy := by
    obtain ⟨z, hz, hyz⟩ := h.records j y hy
    obtain ⟨w, hw, hzw⟩ := k.records j z hz
    exact ⟨w, hw, hyz.trans hzw⟩
  preempts q hq hj hn hz := by
    refine k.preempts q (h.preempts q hq hj hn hz) hj hn ?_
    obtain ⟨z, hz, hstate, hvehicle⟩ := hz
    obtain ⟨w, hw, hweq⟩ := (h.moves _ hj hn).some hz
    exact ⟨w, hw, by rw [hweq]; exact hstate, by rw [hweq]; exact hvehicle⟩

/-! ### The single steps -/

theorem passed_of_onward (h : Onward s t) (heads : ∀ v i, Heads v i s → Heads v i t)
    (aims : ∀ v i, Aimed v i s → Aimed v i t) : Passed W vs ws s t where
  layout := h.layout
  identity := h.identity
  vehicles v x _ hx := h.vehicles v x hx
  heads := heads
  aims v i _ := aims v i
  moves k _ _ := h.moves.move k
  waits k _ hk := hk.kept (h.moves.move k)
  records k _ hy := sameMove_of_moveKept (h.moves.move k) hy
  preempts q hq _ _ _ := by rwa [h.preempts]

/-- One vehicle is written, its held list left. -/
theorem passed_of_vehicle {v : Nat} (hv : v ∈ vs) (hlayout : t.layout = s.layout) (hidentity : t.mc.identity = s.mc.identity)
    (hmoves : ∀ k, findMove t k = findMove s k) (hpreempts : t.asu.preempts = s.asu.preempts)
    (hother : ∀ w, w ≠ v → vehicle t w = vehicle s w)
    (hheld : ∀ x, vehicle s v = some x → ∃ z, vehicle t v = some z ∧ z.held = x.held) : Passed W vs ws s t where
  layout := hlayout
  identity := hidentity
  vehicles w x hn hx := ⟨x, (hother w fun h => hn (h ▸ hv)).trans hx, .refl x⟩
  heads w i hi := by
    by_cases hw : w = v
    · obtain ⟨x, hx, hhead⟩ := hi
      rw [hw] at hx ⊢
      obtain ⟨z, hz, hzheld⟩ := hheld x hx
      exact ⟨z, hz, by rw [hzheld]; exact hhead⟩
    · exact hi.of_vehicle (hother w hw)
  aims w i hn hi := hi.of_sources hlayout (fun k y hy => ⟨y, (hmoves k).trans hy, rfl⟩) fun x hx =>
    ⟨x, (hother w fun h => hn (h ▸ hv)).trans hx, .refl x, .refl i x.path⟩
  moves k _ _ := .inl (hmoves k)
  waits k _ hk := hk.kept (.inl (hmoves k))
  records k y hy := ⟨y, (hmoves k).trans hy, rfl, rfl, rfl, rfl⟩
  preempts q hq _ _ _ := by rwa [hpreempts]

theorem SameMove.unconfirmed {y w : Move} (h : SameMove y w) : SameMove y (unconfirmed w) := by
  unfold Machine.unconfirmed
  split <;> exact h

/-- Move `m` is changed: one of those the pass assigns, or one that waits afterwards. -/
theorem passed_changeMove {m : Nat} {f : Move → Move} (hid : ∀ y, (f y).id = y.id) (hf : ∀ y, SameMove y (f y))
    (hm : m ∈ ws ∨ ¬ W m ∧ ∀ y, (f y).state = .waiting ∧ (f y).vehicle = none) (s : State) :
    Passed W vs ws s (changeMove m f s) := by
  have hrep := reporting_changeMove m f s
  have hkept {k : Nat} (hk : k ≠ m) : MoveKept k s (changeMove m f s) := moveKept_changeMove (fun y h => (hid y).trans h) hk s
  have hne {k : Nat} (hk : W k) (hn : k ∉ ws) : k ≠ m := by
    rintro rfl
    exact hm.elim hn fun h => h.1 hk
  have hrecords (k : Nat) (y : Move) (hy : findMove s k = some y) :
      ∃ w, findMove (changeMove m f s) k = some w ∧ SameMove y w := by
    by_cases hk : k = m
    · subst hk
      have hfid : (f y).id = k := (hid y).trans (findMove_id hy).1
      by_cases hstate : (f y).state = .assigned
      · obtain ⟨w, hw, hweq⟩ := findMove_changeMove_assigned hy hfid hstate
        exact ⟨w, hw, by rw [hweq]; exact hf y⟩
      · exact ⟨_, findMove_changeMove hy hfid hstate, hf y⟩
    · exact sameMove_of_moveKept (hkept hk) hy
  refine
    { layout := hrep.layout, identity := hrep.identity
      vehicles := fun v x _ hx => ⟨x, (vehicle_changeMove _ _ _ _).trans hx, .refl x⟩
      heads := fun v i hi => hi.of_vehicle (vehicle_changeMove _ _ _ _)
      aims := fun v i _ hi => hi.of_sources hrep.layout
        (fun k y hy => (hrecords k y hy).imp fun w hw => ⟨hw.1, hw.2.2.2.2⟩) fun x hx =>
          ⟨x, (vehicle_changeMove _ _ _ _).trans hx, .refl x, .refl i x.path⟩
      moves := fun k hk hn => hkept (hne hk hn), waits := fun k hn hk => ?_, records := hrecords
      preempts := fun q hq hk hn hz => ?_ }
  · by_cases hkm : k = m
    · subst hkm
      obtain ⟨y, hy, -⟩ := hk
      obtain hm | ⟨-, hm⟩ := hm
      · exact absurd hm hn
      · obtain ⟨hstate, hvehicle⟩ := hm y
        exact ⟨_, findMove_changeMove hy ((hid y).trans (findMove_id hy).1) (by rw [hstate]; nofun), hstate, hvehicle⟩
    · exact hk.kept (hkept hkm)
  · obtain ⟨z, hz, hstate, hvehicle⟩ := hz
    cases hy : findMove s m with
    | none =>
      unfold changeMove
      rw [hy]
      exact hq
    | some y => exact mem_preempts_changeMove hy hq (hne hk hn) hz hstate hvehicle

theorem passed_of_same (hroster : t.roster = s.roster) (hlayout : t.layout = s.layout) (hidentity : t.mc.identity = s.mc.identity)
    (hmq : t.mq = s.mq) (hpreempts : s.asu.preempts ⊆ t.asu.preempts) : Passed W vs ws s t where
  layout := hlayout
  identity := hidentity
  vehicles v x _ hx := ⟨x, (vehicle_congr hroster v).trans hx, .refl x⟩
  heads _ _ hi := hi.of_roster hroster
  aims _ _ _ hi := aimed_of_roster hi hroster hlayout (.inl (congrArg MoveQueue.moves hmq))
  moves k _ _ := .inl (findMove_congr (congrArg MoveQueue.moves hmq) k)
  waits k _ hk := hk.kept (.inl (findMove_congr (congrArg MoveQueue.moves hmq) k))
  records k y hy := ⟨y, (findMove_congr (congrArg MoveQueue.moves hmq) k).trans hy, rfl, rfl, rfl, rfl⟩
  preempts _ hq _ _ _ := hpreempts hq

theorem passed_updVehicle {v : Nat} {f : Vehicle → Vehicle} (hv : v ∈ vs) (hid : ∀ x, x.id = v → (f x).id = v)
    (hheld : ∀ x, (f x).held = x.held) (s : State) : Passed W vs ws s (updVehicle v f s) :=
  passed_of_vehicle hv rfl rfl (fun _ => rfl) rfl
    (fun w hw => by rw [vehicle_updVehicle v w f s hid]; simp only [if_neg hw, Option.map_id'])
    fun x hx => ⟨f x, by rw [vehicle_updVehicle v v f s hid, hx, Option.map_some, if_pos rfl], hheld x⟩

theorem passed_setPassDue (s : State) : Passed W vs ws s (setPassDue s) := by
  rw [setPassDue_eq]
  exact passed_of_same rfl rfl rfl rfl (List.Subset.refl _)

theorem passed_noteEligible (v : Nat) (s : State) : Passed W vs ws s (noteEligible v s) := by
  unfold noteEligible
  split
  · exact passed_setPassDue s
  · exact .refl s

theorem passed_returnToWaiting {p : Nat} (hp : ¬ W p) (s : State) : Passed W vs ws s (returnToWaiting p s) :=
  (passed_changeMove (f := fun y => { y with state := .waiting, vehicle := none }) (fun _ => rfl)
    (fun _ => ⟨rfl, rfl, rfl, rfl⟩) (.inr ⟨hp, fun _ => ⟨rfl, rfl⟩⟩) s).trans (passed_setPassDue _)

theorem passed_rebuild (v : Nat) (s : State) : Passed W vs ws s (rebuild v s) :=
  passed_of_onward (onward_rebuild v s) (fun _ _ h => heads_rebuildWith _ v h) (worked_rebuildWith _ v s).aims

theorem passed_makeWithdrawDue {v : Nat} (hv : v ∈ vs) (m : Nat) (s : State) : Passed W vs ws s (makeWithdrawDue v m s) :=
  passed_of_vehicle hv rfl rfl (fun k => findMove_makeWithdrawDue v m k s) rfl (fun w hw => by simp [hw])
    fun x hx => ⟨_, by rw [vehicle_makeWithdrawDue, hx]; rfl, by simp⟩

theorem passed_assignTo {m v : Nat} (hv : v ∈ vs) (hm : m ∈ ws) (s : State) : Passed W vs ws s (assignTo m v s) := by
  have hchanged : Passed W vs ws s (changeMove m (assignedTo v (confirmFromNow s)) s) :=
    passed_changeMove (f := assignedTo v (confirmFromNow s)) (fun _ => rfl) (fun _ => ⟨rfl, rfl, rfl, rfl⟩) (.inl hm) s
  have hgiven : Passed W vs ws (changeMove m (assignedTo v (confirmFromNow s)) s) (handedMove m v s) :=
    passed_of_vehicle hv rfl rfl (fun k => by simp [handedMove]) rfl (fun w hw => by simp [handedMove, hw])
      fun x hx => ⟨_, by simp only [handedMove, vehicle_makeAssignDue, vehicle_setMoveField, hx]; rfl, by simp⟩
  have hset : Passed W vs ws (handedMove m v s) (enterWork v .toSource (handedMove m v s)) :=
    (passed_updVehicle (f := Vehicle.setWork .toSource) hv (fun x h => by rw [setWork_eq]; exact h)
      (fun x => by rw [setWork_eq]) (handedMove m v s)).trans (passed_noteEligible v _)
  exact ((hchanged.trans hgiven).trans hset).trans (passed_rebuild v (enterWork v .toSource (handedMove m v s)))

theorem passed_assignNext {m v : Nat} (hv : v ∈ vs) (hm : m ∈ ws) (s : State) : Passed W vs ws s (assignNext m v s) :=
  (passed_changeMove (f := fun y => { y with state := .assignedNext, vehicle := some v }) (fun _ => rfl)
    (fun _ => ⟨rfl, rfl, rfl, rfl⟩) (.inl hm) s).trans
    (passed_updVehicle (f := fun x => { x with nextMove := some m }) hv (fun _ h => h) (fun _ => rfl) _)

theorem passed_assignByPreemption {m v p : Nat} (hv : v ∈ vs) (hm : m ∈ ws) (hp : ¬ W p) (s : State) :
    Passed W vs ws s (assignByPreemption m v p s) := by
  have happlied : Passed W vs ws s (assignTo m v (makeWithdrawDue v p (returnToWaiting p s))) :=
    ((passed_returnToWaiting hp s).trans (passed_makeWithdrawDue hv p _)).trans (passed_assignTo hv hm _)
  unfold assignByPreemption
  dsimp only
  generalize assignTo m v (makeWithdrawDue v p (returnToWaiting p s)) = t at happlied
  exact happlied.trans (passed_of_same rfl rfl rfl rfl (List.subset_append_left _ _))

theorem passed_endPass (s : State) : Passed W vs ws s (endPass s) := by
  have hflags : Passed W vs ws s (s.updAsu fun a => { a with passRunning := false, haltDeferred := false }) :=
    passed_of_same rfl rfl rfl rfl (List.Subset.refl _)
  unfold endPass
  dsimp only
  split
  · generalize s.updAsu (fun a => { a with passRunning := false, haltDeferred := false }) = t at hflags
    have henter := entersHalted_enterHalted t
    have hmoves : (enterHalted t).mq.moves = t.mq.moves.map suspended := by rw [henter.moves]
    have hkept (k : Nat) : MoveKept k t (enterHalted t) := MovesKept.move (.inr hmoves) k
    refine hflags.trans
      { layout := henter.layout, identity := by rw [enterHalted_mc]
        vehicles := fun v x _ hx => ⟨x, (vehicle_congr henter.roster v).trans hx, .refl x⟩
        heads := fun v i hi => hi.of_roster henter.roster
        aims := fun v i _ hi => aimed_of_roster hi henter.roster henter.layout (.inr hmoves)
        moves := fun k _ _ => hkept k, waits := fun k _ hk => hk.kept (hkept k)
        records := fun k y hy => sameMove_of_moveKept (hkept k) hy
        preempts := fun q hq _ _ _ => by rw [henter.pass]; exact hq }
  · exact hflags

end

end Sys2Proof.Machine

/-! PROOFS. Layer: the choices of a dispatch pass and their applications (R98, R112, R115, R121, R123). -/

namespace Sys2Proof.Machine

open Sys2Proof.Says

/-! ### The path of a vehicle that is given a move (R50, R57) -/

section
variable {s : State} {v i j : Nat} {x : Vehicle} {y : Move}

theorem aimed_rebuild {m : Nat} (hx : vehicle s v = some x) (hw : x.state = .work .toSource) (hhead : x.held.head? = some j)
    (hm : x.move = some m) (hy : findMove s m = some y) (hport : y.source.bind (portSegment s) = some i) :
    Aimed v i (rebuild v s) := by
  obtain ⟨plan, hplan, hbuilt, hbroken⟩ := buildPath_of_working hx hw hhead
  obtain ⟨hpurpose, htarget⟩ :=
    planPath_aims (s := updVehicle v (fun y => { y with parkMark := none }) s) hm ((findMove_updVehicle v m s _).trans hy) hport j
  rw [← hplan] at hpurpose htarget
  have hset : Aimed v i (pathSet v plan s) := ⟨_, m, y, vehicle_pathSet hx, hw, hm, hy, hport, hpurpose, htarget⟩
  have hpath : Aimed v i (buildPath v s) := by
    by_cases h : ∃ c, plan.1.condition = .broken c
    · obtain ⟨c, hc⟩ := h
      rw [hbroken c hc]
      exact aimed_of_roster hset (raise_rest _ _ _).2.2.2.1 (onward_raise _ _ _).layout (onward_raise _ _ _).moves
    · rw [hbuilt fun c hc => h ⟨c, hc⟩]
      exact hset
  unfold rebuild rebuildWith
  rw [hx]
  dsimp only
  rw [if_pos (by rw [Vehicle.isWorking, hw])]
  exact (worked_run _ _).aims v i ((worked_alignHeld v _).aims v i hpath)

/-- Move `m` is WAITING with its age and source. -/
def Stands (m : Move) (t : State) : Prop := ∃ y, findMove t m.id = some y ∧ y.state = .waiting ∧ y.age = m.age ∧ y.source = m.source

/-- Move `m`, in state `st`, names vehicle `v`. -/
def Given (st : MState) (m : Move) (v : Nat) (t : State) : Prop :=
  ∃ y, findMove t m.id = some y ∧ y.state = st ∧ y.vehicle = some v ∧ y.age = m.age ∧ y.source = m.source
    ∧ (st = .assignedNext → y.confirm = .absent)

/-- Move `m` is ASSIGNED to vehicle `v`, which is on its way to segment `i` and has the moves `ps` withdrawn. -/
structure Taken (m : Move) (v i : Nat) (ps : List Nat) (t : State) : Prop where
  given : Given .assigned m v t
  aimed : Aimed v i t
  vehicle : ∃ z, Machine.vehicle t v = some z ∧ z.state = .work .toSource ∧ z.move = some m.id ∧ z.due.assign = some 0
    ∧ ∀ p ∈ ps, p ∈ z.due.withdraw

/-- Move `m` is ASSIGNED-NEXT on the vehicle of record `x`, which is depositing. -/
structure Queued (m : Move) (x : Vehicle) (t : State) : Prop where
  given : Given .assignedNext m x.id t
  vehicle : ∃ z, Machine.vehicle t x.id = some z ∧ z.state = .work .depositing ∧ z.move = x.move ∧ z.nextMove = some m.id

theorem Stands.kept {m : Move} {t u : State} (h : Stands m t) (hk : MoveKept m.id t u) : Stands m u := by
  obtain ⟨y, hy, hstate, hage, hsource⟩ := h
  obtain ⟨w, hw, hweq⟩ := hk.some hy
  refine ⟨w, hw, ?_⟩
  rw [hweq]
  exact ⟨hstate, hage, hsource⟩

theorem Given.kept {st : MState} {m : Move} {t u : State} (h : Given st m v t) (hk : MoveKept m.id t u) : Given st m v u := by
  obtain ⟨y, hy, hstate, hvehicle, hage, hsource, habsent⟩ := h
  obtain ⟨w, hw, hweq⟩ := hk.some hy
  refine ⟨w, hw, by rw [hweq]; exact hstate, by rw [hweq]; exact hvehicle, by rw [hweq]; exact hage, by rw [hweq]; exact hsource,
    fun hst => ?_⟩
  have := hw.symm.trans (hk.absent hy (habsent hst))
  cases this
  exact habsent hst

variable {W : Nat → Prop} {vs ws : List Nat} {t u : State} {m : Move}

theorem Taken.kept {ps : List Nat} (h : Taken m v i ps t) (hk : Passed W vs ws t u) (hv : v ∉ vs) (hW : W m.id)
    (hm : m.id ∉ ws) : Taken m v i ps u where
  given := h.given.kept (hk.moves m.id hW hm)
  aimed := hk.aims v i hv h.aimed
  vehicle := by
    obtain ⟨z, hz, hfacts⟩ := h.vehicle
    obtain ⟨w, hw, ht⟩ := hk.vehicles v z hv hz
    refine ⟨w, hw, ?_⟩
    rw [ht.rest]
    exact hfacts

theorem Queued.kept (h : Queued m x t) (hk : Passed W vs ws t u) (hv : x.id ∉ vs) (hW : W m.id) (hm : m.id ∉ ws) :
    Queued m x u where
  given := h.given.kept (hk.moves m.id hW hm)
  vehicle := by
    obtain ⟨z, hz, hfacts⟩ := h.vehicle
    obtain ⟨w, hw, ht⟩ := hk.vehicles x.id z hv hz
    refine ⟨w, hw, ?_⟩
    rw [ht.rest]
    exact hfacts

theorem taken_assignTo {ps : List Nat} {w : WorkState} (hx : vehicle t v = some x) (hw : x.state = .work w)
    (hhead : x.held.head? = some j) (hm : Stands m t) (hport : m.source.bind (portSegment t) = some i)
    (hps : ∀ p ∈ ps, p ∈ x.due.withdraw ∧ p ≠ m.id) : Taken m v i ps (assignTo m.id v t) := by
  obtain ⟨y, hy, -, hage, hsource⟩ := hm
  have hstate : worksAs .toSource x.state = .work .toSource := by rw [hw]; rfl
  obtain ⟨z, hz, ht⟩ := vehicle_assignTo (m := m.id) hx
  obtain ⟨y', hy', hyeq⟩ := findMove_assignTo (v := v) hy
  obtain ⟨c, hc, hceq⟩ := findMove_changeMove_assigned (f := assignedTo v (confirmFromNow t)) hy (findMove_id hy).1 rfl
  rw [← findMove_handedMove] at hc
  have hlayout : (enterWork v .toSource (handedMove m.id v t)).layout = t.layout :=
    (onward_assignTo m.id v t).layout.symm.trans (passed_assignTo (W := fun _ => True) (vs := [v]) (ws := [m.id]) (by simp)
      (by simp) t).layout
  refine ⟨⟨y', hy', by rw [hyeq], by rw [hyeq], by rw [hyeq]; exact hage, by rw [hyeq]; exact hsource, nofun⟩, ?_, z, hz, ?_⟩
  · have hsrc : c.source = m.source := by
      rw [hceq]
      exact hsource
    have hportc : c.source.bind (portSegment (enterWork v .toSource (handedMove m.id v t))) = some i := by
      rw [hsrc, portSegment_congr hlayout]
      exact hport
    exact aimed_rebuild (vehicle_handedMove hx) hstate hhead rfl hc hportc
  · rw [ht.rest]
    refine ⟨hstate, rfl, rfl, fun p hp => ?_⟩
    obtain ⟨hmem, hne⟩ := hps p hp
    exact List.mem_filter.2 ⟨hmem, decide_eq_true hne⟩

theorem queued_assignNext {x' : Vehicle} (hx : vehicle t x.id = some x') (ht : Tended x x') (hw : x.state = .work .depositing)
    (hm : Stands m t) : Queued m x (assignNext m.id x.id t) := by
  obtain ⟨y, hy, -, hage, hsource⟩ := hm
  refine ⟨⟨_, findMove_changeMove (f := fun y => { y with state := .assignedNext, vehicle := some x.id }) hy (findMove_id hy).1
    (by nofun), rfl, rfl, hage, hsource, fun _ => rfl⟩, { x' with nextMove := some m.id }, ?_, ?_⟩
  · simp [assignNext, hx]
  · refine ⟨?_, ?_, rfl⟩
    · rw [ht.rest]
      exact hw
    · rw [ht.rest]

/-! ### One application (R98, R121, R123) -/

/-- The move a choice assigns. -/
def movedBy (m : Move) : Choice → List Nat
  | .none => []
  | .plain _ => [m.id]
  | .preempt _ => [m.id]

/-- What an application of a choice for `m` leaves. -/
def Placed (W : Nat → Prop) (m : Move) (c : Choice) (t : State) : Prop :=
  match c with
  | .none => Stands m t
  | .plain x => (x.state = .work .idle → ∃ i, Taken m x.id i [] t) ∧ (x.state = .work .depositing → Queued m x t)
  | .preempt x => ∃ p i, x.move = some p ∧ ¬ W p ∧ Taken m x.id i [p] t ∧ Waits p t
      ∧ { vehicle := x.id, newMove := m.id, oldMove := p } ∈ t.asu.preempts

theorem Placed.kept {c : Choice} (h : Placed W m c t) (hk : Passed W vs ws t u) (hv : ∀ v ∈ chosenBy c, v ∉ vs) (hW : W m.id)
    (hm : m.id ∉ ws) (hws : ∀ k ∈ ws, W k) : Placed W m c u := by
  cases c with
  | none => exact Stands.kept h (hk.moves m.id hW hm)
  | plain x =>
    have hx : x.id ∉ vs := hv _ (List.mem_singleton.2 rfl)
    exact ⟨fun hidle => (h.1 hidle).imp fun i hi => hi.kept hk hx hW hm, fun hdep => (h.2 hdep).kept hk hx hW hm⟩
  | preempt x =>
    have hx : x.id ∉ vs := hv _ (List.mem_singleton.2 rfl)
    obtain ⟨p, i, hp, hWp, htaken, hwaits, hentry⟩ := h
    obtain ⟨y, hy, hstate, hvehicle, -⟩ := id htaken.given
    exact ⟨p, i, hp, hWp, htaken.kept hk hx hW hm, hk.waits p (fun hmem => hWp (hws p hmem)) hwaits,
      hk.preempts _ hentry hW hm ⟨y, hy, hstate, hvehicle⟩⟩

/-- What the pass knows of a choice: the vehicle is in service and stands somewhere, the move has a source, and a move it
takes from a vehicle is none of those `W` names. -/
def Chosen (W : Nat → Prop) (s : State) (m : Move) (c : Choice) : Prop :=
  match c with
  | .none => True
  | .plain x => (∃ w, x.state = .work w) ∧ (∃ j, x.held.head? = some j) ∧ ∃ i, m.source.bind (portSegment s) = some i
  | .preempt x => (∃ w, x.state = .work w) ∧ (∃ j, x.held.head? = some j) ∧ (∃ i, m.source.bind (portSegment s) = some i)
      ∧ ∃ p y, x.move = some p ∧ findMove s p = some y ∧ ¬ W p

theorem moveReport_congr (h : t.mc.identity = s.mc.identity) : moveReport t = moveReport s := by
  unfold moveReport frameOf
  rw [h]

theorem reports_assignTo {m : Nat} {y : Move} (hy : findMove t m = some y) :
    Reports [moveReport t m 2 v y.age] t (assignTo m v t) := by
  have hgiven : Reports [] (changeMove m (assignedTo v (confirmFromNow t)) t) (enterWork v .toSource (handedMove m v t)) :=
    reports_of_fli ((fli_enterWork v .toSource _).trans rfl)
  exact ((reports_changeMove (assignedTo v (confirmFromNow t)) hy).after hgiven).after
    (reports_of_unreported (onward_assignTo m v t).sent)

/-- One application, made in a state that the applications before it led to from `s`. -/
theorem applied {vs₀ ws₀ : List Nat} {c : Choice} (hst : Passed W vs₀ ws₀ s t) (hc : Chosen W s m c)
    (hknown : ∀ x, c = .plain x ∨ c = .preempt x → x.id ∉ vs₀ ∧ vehicle s x.id = some x)
    (hm : Stands m t) (hW : W m.id) :
    Passed W (chosenBy c) (movedBy m c) t (applyChoice m.id c t) ∧ Placed W m c (applyChoice m.id c t)
      ∧ Reports (reportsOf s m c) t (applyChoice m.id c t) := by
  have hport : portSegment t = portSegment s := portSegment_congr hst.layout
  cases c with
  | none => exact ⟨.refl t, hm, reports_of_fli rfl⟩
  | plain x =>
    obtain ⟨⟨w, hw⟩, ⟨j, hj⟩, i, hi⟩ := hc
    obtain ⟨hnew, hx⟩ := hknown x (.inl rfl)
    obtain ⟨x', hx', ht⟩ := hst.vehicles _ _ hnew hx
    obtain ⟨x'', hx'', hhead⟩ := hst.heads _ _ ⟨x, hx, hj⟩
    cases hx'.symm.trans hx''
    have hw' : x'.state = .work w := by rw [ht.rest]; exact hw
    obtain ⟨y, hy, -, hage, -⟩ := id hm
    by_cases hidle : x.state = .work .idle
    · have happ : applyChoice m.id (.plain x) t = assignTo m.id x.id t := if_pos hidle
      rw [happ]
      refine ⟨passed_assignTo (by simp [chosenBy]) (by simp [movedBy]) t,
        ⟨fun _ => ⟨i, taken_assignTo hx' hw' hhead hm (by rw [hport]; exact hi) nofun⟩,
          fun hdep => by rw [hidle] at hdep; cases hdep⟩, ?_⟩
      rw [reportsOf, if_pos hidle, ← moveReport_congr hst.identity, ← hage]
      exact reports_assignTo hy
    · have happ : applyChoice m.id (.plain x) t = assignNext m.id x.id t := if_neg hidle
      rw [happ]
      refine ⟨passed_assignNext (by simp [chosenBy]) (by simp [movedBy]) t,
        ⟨fun h => absurd h hidle, fun hdep => queued_assignNext hx' ht hdep hm⟩, ?_⟩
      rw [reportsOf, if_neg hidle, ← moveReport_congr hst.identity, ← hage]
      exact (reports_changeMove (fun y => { y with state := .assignedNext, vehicle := some x.id }) hy).after
        (reports_of_fli rfl)
  | preempt x =>
    obtain ⟨⟨w, hw⟩, ⟨j, hj⟩, ⟨i, hi⟩, p, y₀, hp, hy₀, hWp⟩ := hc
    obtain ⟨hnew, hx⟩ := hknown x (.inr rfl)
    obtain ⟨x', hx', ht⟩ := hst.vehicles _ _ hnew hx
    obtain ⟨x'', hx'', hhead⟩ := hst.heads _ _ ⟨x, hx, hj⟩
    cases hx'.symm.trans hx''
    have hw' : x'.state = .work w := by rw [ht.rest]; exact hw
    obtain ⟨yp, hyp, hpage, -⟩ := hst.records p y₀ hy₀
    have hpm : p ≠ m.id := fun h => hWp (h ▸ hW)
    have happ : applyChoice m.id (.preempt x) t = assignByPreemption m.id x.id p t := by
      unfold applyChoice
      dsimp only
      rw [hp]
    have hback : Passed W [x.id] [] t (makeWithdrawDue x.id p (returnToWaiting p t)) :=
      (passed_returnToWaiting hWp t).trans (passed_makeWithdrawDue (by simp) p _)
    have hbackReports : Reports [moveReport t p 0 0 yp.age] t (makeWithdrawDue x.id p (returnToWaiting p t)) :=
      (reports_returnToWaiting hyp).after (reports_of_fli rfl)
    have hxb : vehicle (makeWithdrawDue x.id p (returnToWaiting p t)) x.id = some { x' with
        due := { x'.due with withdraw := addWithdraw p x'.due.withdraw, withdrawCount := 0 } } := by
      simp [hx']
    have hwaits : Waits p (makeWithdrawDue x.id p (returnToWaiting p t)) :=
      ⟨_, (findMove_makeWithdrawDue x.id p p _).trans (findMove_returnToWaiting hyp), rfl, rfl⟩
    have hpassed : Passed W [x.id] [m.id] t (assignByPreemption m.id x.id p t) :=
      passed_assignByPreemption (by simp) (by simp) hWp t
    rw [happ]
    unfold assignByPreemption at hpassed ⊢
    dsimp only at hpassed ⊢
    generalize makeWithdrawDue x.id p (returnToWaiting p t) = b at hback hbackReports hxb hwaits hpassed
    have hmb : Stands m b := hm.kept (hback.moves m.id hW (by simp))
    have hgiven : Passed W [x.id] [m.id] b (assignTo m.id x.id b) := passed_assignTo (by simp) (by simp) b
    have htaken : Taken m x.id i [p] (assignTo m.id x.id b) :=
      taken_assignTo hxb hw' hhead hmb (by rw [portSegment_congr hback.layout, hport]; exact hi)
        fun q hq => by rw [List.mem_singleton.1 hq]; exact ⟨mem_addWithdraw p _, hpm⟩
    have hwaits : Waits p (assignTo m.id x.id b) := hgiven.waits p (by simp [hpm]) hwaits
    obtain ⟨y, hy, -, hage, -⟩ := id hmb
    have hreports : Reports [moveReport b m.id 2 x.id y.age] b (assignTo m.id x.id b) := reports_assignTo hy
    generalize assignTo m.id x.id b = a at hpassed htaken hwaits hreports
    have hentered : Passed W [] [] a (a.updAsu fun k =>
        { k with preempts := k.preempts ++ [{ vehicle := x.id, newMove := m.id, oldMove := p }] }) :=
      passed_of_same rfl rfl rfl rfl (List.subset_append_left _ _)
    refine ⟨hpassed, ⟨p, i, hp, hWp, htaken.kept hentered (by simp) hW (by simp), hentered.waits p (by simp) hwaits,
      List.mem_append_right _ (List.mem_singleton.2 rfl)⟩, ?_⟩
    have hall : reportsOf s m (.preempt x) = [moveReport t p 0 0 yp.age] ++ [moveReport b m.id 2 x.id y.age] := by
      rw [reportsOf, hp, Option.bind_some, hy₀, moveReport_congr (hback.identity.trans hst.identity),
        moveReport_congr hst.identity, hpage, hage, Option.toList_some, List.map_singleton, (findMove_id hy₀).1]
    rw [hall]
    exact (hbackReports.trans hreports).after (reports_of_fli rfl)

end

/-! ### The choices of a pass (R115, R116, R117) -/

section
variable {s : State} {chosen : List Nat} {m : Move} {x : Vehicle} {W : Nat → Prop}

/-- The vehicle of the best bid. -/
theorem bidder_of_bestBid {p : Vehicle → Bool} {zs : Nat} {b : Bid} (h : bestBid (bids s chosen p zs) = some b) :
    (∃ q ∈ s.roster, q.2 = b.vehicle) ∧ p b.vehicle = true ∧ b.vehicle.id ∉ chosen ∧ ∃ j, b.vehicle.held.head? = some j := by
  have hmem : b ∈ s.roster.filterMap (bidOf s chosen p zs) := leastBy_mem h
  obtain ⟨q, hq, hbid⟩ := List.mem_filterMap.1 hmem
  obtain ⟨hvehicle, hp, hnew, hcost⟩ := bidOf_eq_some.1 hbid
  rw [hvehicle]
  refine ⟨⟨q, hq, rfl⟩, hp, hnew, ?_⟩
  cases hj : q.2.held.head? with
  | some j => exact ⟨j, rfl⟩
  | none =>
    unfold costOf at hcost
    rw [show vehicleZone s q.2 = none by rw [vehicleZone, Vehicle.firstHeld, hj, Option.bind_none]] at hcost
    cases hcost

theorem choose_eq_plain (h : choose s chosen m = .plain x) :
    ∃ zs b, sourceZone s m = some zs ∧ bestBid (bids s chosen plainCandidate zs) = some b ∧ b.vehicle = x := by
  unfold choose at h
  split at h
  · cases h
  next zs hzs =>
    refine ⟨zs, ?_⟩
    cases hbest : bestBid (bids s chosen plainCandidate zs) with
    | none =>
      rw [hbest] at h
      unfold chooseUrgent chooseOrdinary at h
      grind
    | some b =>
      rw [hbest] at h
      unfold chooseUrgent chooseOrdinary at h
      grind

theorem choose_eq_preempt (h : choose s chosen m = .preempt x) :
    ∃ zs b, sourceZone s m = some zs ∧ bestBid (bids s chosen (preemptible s) zs) = some b ∧ b.vehicle = x := by
  unfold choose at h
  split at h
  · cases h
  next zs hzs =>
    refine ⟨zs, ?_⟩
    unfold chooseUrgent chooseOrdinary at h
    grind

theorem source_of_sourceZone {zs : Nat} (h : sourceZone s m = some zs) : ∃ i, m.source.bind (portSegment s) = some i := by
  obtain ⟨i, hi, -⟩ := Option.bind_eq_some_iff.1 h
  exact ⟨i, hi⟩

theorem chosen_choose (hW : ∀ k y, W k → findMove s k = some y → y.state = .waiting) (chosen : List Nat) (m : Move) :
    Chosen W s m (choose s chosen m) := by
  cases hc : choose s chosen m with
  | none => trivial
  | plain x =>
    obtain ⟨zs, b, hzs, hbest, rfl⟩ := choose_eq_plain hc
    obtain ⟨-, hp, -, hhead⟩ := bidder_of_bestBid hbest
    refine ⟨?_, hhead, source_of_sourceZone hzs⟩
    obtain hidle | ⟨hdep, -⟩ := (plainCandidate_iff _).1 hp
    · exact ⟨_, hidle⟩
    · exact ⟨_, hdep⟩
  | preempt x =>
    obtain ⟨zs, b, hzs, hbest, rfl⟩ := choose_eq_preempt hc
    obtain ⟨-, hp, -, hhead⟩ := bidder_of_bestBid hbest
    obtain ⟨hstate, p, y, hmove, hy, hcls, hy'⟩ := (preemptible_iff s _).1 hp
    exact ⟨⟨_, hstate⟩, hhead, source_of_sourceZone hzs, p, y, hmove, hy, fun hw => by
      obtain h | h := hy' <;> rw [hW p y hw hy] at h <;> cases h⟩

/-- A vehicle is chosen once (R116), and it is in the roster. -/
theorem chooses (h : choose s chosen m = .plain x ∨ choose s chosen m = .preempt x) : x.id ∉ chosen ∧ ∃ q ∈ s.roster, q.2 = x := by
  obtain h | h := h
  · obtain ⟨zs, b, -, hbest, rfl⟩ := choose_eq_plain h
    obtain ⟨hq, -, hnew, -⟩ := bidder_of_bestBid hbest
    exact ⟨hnew, hq⟩
  · obtain ⟨zs, b, -, hbest, rfl⟩ := choose_eq_preempt h
    obtain ⟨hq, -, hnew, -⟩ := bidder_of_bestBid hbest
    exact ⟨hnew, hq⟩

theorem mem_chosenBy {c : Choice} {v : Nat} : v ∈ chosenBy c ↔ ∃ x, (c = .plain x ∨ c = .preempt x) ∧ x.id = v := by
  cases c <;> simp [chosenBy, eq_comm]

/-- The vehicles a list of choices takes. -/
def takers (all : List (Move × Choice)) : List Nat := all.flatMap fun c => chosenBy c.2

/-- The moves it assigns. -/
def placements (all : List (Move × Choice)) : List Nat := all.flatMap fun c => movedBy c.1 c.2

theorem not_chosen_of_mem_takers : ∀ (ms : List Move) (chosen : List Nat) {v : Nat}, v ∈ takers (choicesOf s ms chosen) → v ∉ chosen
  | [], _, _, h => by cases h
  | m :: ms, chosen, v, h => by
    obtain ⟨c, hc, hv⟩ := List.mem_flatMap.1 h
    obtain rfl | hc := List.mem_cons.1 hc
    · obtain ⟨x, hx, rfl⟩ := mem_chosenBy.1 hv
      exact (chooses hx).1
    · have := not_chosen_of_mem_takers ms _ (List.mem_flatMap.2 ⟨c, hc, hv⟩)
      exact fun h => this (List.mem_append_right _ h)

theorem mem_of_mem_choicesOf : ∀ (ms : List Move) (chosen : List Nat) {c : Move × Choice}, c ∈ choicesOf s ms chosen → c.1 ∈ ms
  | [], _, _, h => by cases h
  | m :: ms, chosen, c, h => by
    obtain rfl | h := List.mem_cons.1 h
    · exact List.mem_cons_self
    · exact List.mem_cons_of_mem _ (mem_of_mem_choicesOf ms _ h)

theorem mem_of_mem_placements {ms : List Move} {k : Nat} (h : k ∈ placements (choicesOf s ms chosen)) : ∃ m ∈ ms, m.id = k := by
  obtain ⟨c, hc, hk⟩ := List.mem_flatMap.1 h
  refine ⟨c.1, mem_of_mem_choicesOf ms chosen hc, ?_⟩
  cases hc2 : c.2 with
  | none => rw [hc2] at hk; cases hk
  | plain x => rw [hc2] at hk; exact (List.mem_singleton.1 hk).symm
  | preempt x => rw [hc2] at hk; exact (List.mem_singleton.1 hk).symm

theorem vehicles_eq_chosenBy (c : Choice) : c.vehicles = chosenBy c := by cases c <;> rfl

theorem eq_of_mem_movedBy {c : Choice} {k : Nat} (h : k ∈ movedBy m c) : k = m.id := by
  cases c with
  | none => cases h
  | plain x => exact List.mem_singleton.1 h
  | preempt x => exact List.mem_singleton.1 h

theorem choicesOf_cons (ms : List Move) (chosen : List Nat) :
    choicesOf s (m :: ms) chosen = (m, choose s chosen m) :: choicesOf s ms (chosenBy (choose s chosen m) ++ chosen) := rfl

theorem passMoves_cons (ms : List Move) (chosen : List Nat) (t : State) :
    passMoves s (m :: ms) chosen t
      = passMoves s ms (chosenBy (choose s chosen m) ++ chosen) (applyChoice m.id (choose s chosen m) t) := by
  rw [passMoves, vehicles_eq_chosenBy]

/-- The choices are applied one after the other: what that leaves. -/
structure Applies (W : Nat → Prop) (s : State) (all : List (Move × Choice)) (t u : State) : Prop where
  passed : Passed W (takers all) (placements all) t u
  placed : ∀ c ∈ all, Placed W c.1 c.2 u
  reports : Reports (all.flatMap fun c => reportsOf s c.1 c.2) t u

theorem Applies.nil (t : State) : Applies W s [] t t where
  passed := .refl t
  placed _ h := absurd h List.not_mem_nil
  reports := reports_of_fli (s := t) (t := t) rfl

theorem Applies.cons {c : Choice} {all : List (Move × Choice)} {t u w : State} (hpassed : Passed W (chosenBy c) (movedBy m c) t u)
    (hplaced : Placed W m c u) (hreports : Reports (reportsOf s m c) t u) (h : Applies W s all u w)
    (hv : ∀ v ∈ chosenBy c, v ∉ takers all) (hW : W m.id) (hm : m.id ∉ placements all) (hall : ∀ k ∈ placements all, W k) :
    Applies W s ((m, c) :: all) t w where
  passed := (hpassed.mono (List.subset_append_left _ _) (List.subset_append_left _ _)).trans
    (h.passed.mono (List.subset_append_right _ _) (List.subset_append_right _ _))
  placed d hd := by
    obtain rfl | hd := List.mem_cons.1 hd
    · exact hplaced.kept h.passed hv hW hm hall
    · exact h.placed d hd
  reports := hreports.trans h.reports

theorem applies_passMoves (hW : ∀ k y, W k → findMove s k = some y → y.state = .waiting) (ms : List Move)
    (chosen ws : List Nat) (t : State) (hst : Passed W chosen ws s t) (hids : (ms.map (·.id)).Nodup)
    (hms : ∀ m ∈ ms, Stands m t ∧ W m.id)
    (hknown : ∀ c ∈ choicesOf s ms chosen, ∀ x, c.2 = .plain x ∨ c.2 = .preempt x → vehicle s x.id = some x) :
    Applies W s (choicesOf s ms chosen) t (passMoves s ms chosen t) := by
  induction ms generalizing chosen ws t with
  | nil =>
    rw [choicesOf, passMoves]
    exact .nil t
  | cons m ms ih =>
    obtain ⟨hm, hWm⟩ := hms m List.mem_cons_self
    rw [List.map_cons, List.nodup_cons] at hids
    obtain ⟨hfresh, hids⟩ := hids
    rw [choicesOf_cons] at hknown ⊢
    rw [passMoves_cons]
    have hchosen := chosen_choose hW chosen m
    have hfirst (x : Vehicle) (hx : choose s chosen m = .plain x ∨ choose s chosen m = .preempt x) :
        x.id ∉ chosen ∧ vehicle s x.id = some x :=
      ⟨(chooses hx).1, hknown (m, choose s chosen m) List.mem_cons_self x hx⟩
    have hlater := fun v => not_chosen_of_mem_takers (s := s) ms (chosenBy (choose s chosen m) ++ chosen) (v := v)
    generalize choose s chosen m = c at hknown hchosen hfirst hlater ⊢
    obtain ⟨hpassed, hplaced, hreports⟩ := applied hst hchosen hfirst hm hWm
    have hother (k : Move) (hk : k ∈ ms) : Stands k (applyChoice m.id c t) ∧ W k.id := by
      obtain ⟨hstands, hWk⟩ := hms k (List.mem_cons_of_mem _ hk)
      exact ⟨hstands.kept (hpassed.moves k.id hWk fun h => hfresh (List.mem_map.2 ⟨k, hk, eq_of_mem_movedBy h⟩)), hWk⟩
    refine Applies.cons hpassed hplaced hreports (ih (chosenBy c ++ chosen) (movedBy m c ++ ws) (applyChoice m.id c t) ?_ hids
      hother fun d hd => hknown d (List.mem_cons_of_mem _ hd)) ?_ hWm ?_ ?_
    · exact (hst.mono (List.subset_append_right _ _) (List.subset_append_right _ _)).trans
        (hpassed.mono (List.subset_append_left _ _) (List.subset_append_left _ _))
    · exact fun v hv h => hlater v h (List.mem_append_left _ hv)
    · intro h
      obtain ⟨k, hk, hid⟩ := mem_of_mem_placements h
      exact hfresh (List.mem_map.2 ⟨k, hk, hid⟩)
    · intro i hi
      obtain ⟨k, hk, rfl⟩ := mem_of_mem_placements hi
      exact (hms k (List.mem_cons_of_mem _ hk)).2

end

end Sys2Proof.Machine

/-! PROOFS. O54: what a dispatch pass assigns (R111 to R115, R121 to R123). -/

namespace Sys2Proof.Machine

open Sys2Proof.Says

/-! ### The state the choices read (R112, R114) -/

section
variable {s : State}

/-- A WAITING record with its urgency written. -/
def urged (t : Tuning) (x : Move) : Move := if isWaiting x then { x with urgency := urgencyOf t x } else x

theorem urged_eq (t : Tuning) (x : Move) : urged t x = { x with urgency := (urged t x).urgency } := by
  unfold urged
  split <;> rfl

theorem isWaiting_iff (x : Move) : isWaiting x = true ↔ x.state = .waiting := beq_iff_eq

/-- The state at the start of a pass. -/
def passStart (s : State) : State := writeUrgencies (beginPass s)

theorem dispatchPass_eq (s : State) : dispatchPass s = endPass (passMoves (passStart s) (passOrder s) [] (passStart s)) := rfl

theorem findMove_passStart (k : Nat) : findMove (passStart s) k = (findMove s k).map (urged s.tuning) :=
  findMove_of_map (f := urged s.tuning) (fun x => by rw [urged_eq]) rfl k

theorem preemptible_passStart (x : Vehicle) : preemptible (passStart s) x = preemptible s x := by
  rw [Bool.eq_iff_iff, preemptible_iff, preemptible_iff]
  unfold IsPreemptible
  refine and_congr_right fun _ => ⟨?_, ?_⟩
  · rintro ⟨m, y, hm, hy, hcls, hstate⟩
    rw [findMove_passStart] at hy
    obtain ⟨z, hz, rfl⟩ := Option.map_eq_some_iff.1 hy
    rw [urged_eq] at hcls hstate
    exact ⟨m, z, hm, hz, hcls, hstate⟩
  · rintro ⟨m, y, hm, hy, hcls, hstate⟩
    refine ⟨m, urged s.tuning y, hm, by rw [findMove_passStart, hy, Option.map_some], ?_⟩
    rw [urged_eq]
    exact ⟨hcls, hstate⟩

theorem choose_passStart (chosen : List Nat) (m : Move) : choose (passStart s) chosen m = choose s chosen m := by
  have hpre : preemptible (passStart s) = preemptible s := funext preemptible_passStart
  have hbids (p : Vehicle → Bool) (zs : Nat) : bids (passStart s) chosen p zs = bids s chosen p zs := rfl
  unfold choose
  rw [hpre]
  simp only [hbids]
  rfl

theorem choicesOf_passStart (ms : List Move) (chosen : List Nat) : choicesOf (passStart s) ms chosen = choicesOf s ms chosen := by
  induction ms generalizing chosen with
  | nil => rfl
  | cons m ms ih => rw [choicesOf_cons, choicesOf_cons, choose_passStart, ih]

theorem reportsOf_passStart (m : Move) (c : Choice) : reportsOf (passStart s) m c = reportsOf s m c := by
  cases c with
  | none => rfl
  | plain x => rfl
  | preempt x =>
    unfold reportsOf
    dsimp only
    rw [moveReport_congr (t := passStart s) (s := s) rfl]
    cases x.move with
    | none => rfl
    | some p =>
      rw [Option.bind_some, Option.bind_some, findMove_passStart]
      cases findMove s p with
      | none => rfl
      | some y =>
        have hid : (urged s.tuning y).id = y.id := by rw [urged_eq]
        have hage : (urged s.tuning y).age = y.age := by rw [urged_eq]
        simp only [Option.map_some, Option.toList_some, List.map_cons, List.map_nil, hid, hage]

theorem findMove_of_mem (hids : (s.mq.moves.map (·.id)).Nodup) {x : Move} (hx : x ∈ s.mq.moves) : findMove s x.id = some x := by
  cases h : findMove s x.id with
  | none => exact absurd (BEq.rfl : (x.id == x.id) = true) (List.find?_eq_none.1 h x hx)
  | some y =>
    obtain ⟨hid, hy⟩ := findMove_id h
    rw [List.inj_on_of_nodup_map hids hy hx hid]

theorem mem_passOrder {m : Move} : m ∈ passOrder s ↔ m ∈ s.mq.moves ∧ m.state = .waiting := by
  rw [passOrder, (sortByRank_perm _).mem_iff, List.mem_filter, isWaiting_iff]

theorem passOrder_ids (hids : (s.mq.moves.map (·.id)).Nodup) : ((passOrder s).map (·.id)).Nodup :=
  ((sortByRank_perm _).map _).nodup_iff.2 (hids.sublist (List.filter_sublist.map _))

/-! ### A whole pass -/

/-- The moves that wait when the pass starts. -/
def WaitsAtStart (s : State) (k : Nat) : Prop := ∃ y, findMove (passStart s) k = some y ∧ y.state = .waiting

theorem waiting_of_waitsAtStart {k : Nat} {y : Move} (h : WaitsAtStart s k) (hy : findMove (passStart s) k = some y) :
    y.state = .waiting := by
  obtain ⟨z, hz, hstate⟩ := h
  cases hy.symm.trans hz
  exact hstate

theorem stands_passStart (hids : (s.mq.moves.map (·.id)).Nodup) {m : Move} (hm : m ∈ passOrder s) :
    Stands m (passStart s) ∧ WaitsAtStart s m.id := by
  obtain ⟨hmem, hstate⟩ := mem_passOrder.1 hm
  have hfound : findMove (passStart s) m.id = some (urged s.tuning m) := by
    rw [findMove_passStart, findMove_of_mem hids hmem, Option.map_some]
  have hwaits : (urged s.tuning m).state = .waiting := by rw [urged_eq]; exact hstate
  exact ⟨⟨_, hfound, hwaits, by rw [urged_eq], by rw [urged_eq]⟩, _, hfound, hwaits⟩

theorem exec_dispatchPass (hs : PassBegins s) : exec .dispatchPass s = .next (dispatchPass s) := by
  obtain ⟨hrun, hmode, hdue⟩ := hs
  show Host.Outcome.next (whenRunning _ s) = _
  rw [whenRunning, if_pos hrun, if_pos ⟨hmode, hdue⟩]

theorem fli_endPass (t : State) : (endPass t).fli = t.fli := by
  unfold endPass
  dsimp only
  split
  · exact (enterHalted_rest _).2.2.2.2.2.1
  · rfl

/-- What a pass leaves, when the vehicles it chooses are those of the roster. -/
theorem applies_dispatchPass (hids : (s.mq.moves.map (·.id)).Nodup)
    (hknown : ∀ c ∈ choicesOf s (passOrder s) [], ∀ x, c.2 = .plain x ∨ c.2 = .preempt x → vehicle s x.id = some x) :
    Passed (WaitsAtStart s) (takers (choicesOf s (passOrder s) [])) (placements (choicesOf s (passOrder s) [])) (passStart s)
        (dispatchPass s)
      ∧ (∀ c ∈ choicesOf s (passOrder s) [], Placed (WaitsAtStart s) c.1 c.2 (dispatchPass s))
      ∧ Reports ((choicesOf s (passOrder s) []).flatMap fun c => reportsOf s c.1 c.2) s (dispatchPass s) := by
  have happlies := applies_passMoves (W := WaitsAtStart s) (fun _ _ => waiting_of_waitsAtStart) (passOrder s) [] [] (passStart s)
    (.refl _) (passOrder_ids hids) (fun m hm => stands_passStart hids hm)
    (by rw [choicesOf_passStart]; exact hknown)
  rw [choicesOf_passStart] at happlies
  rw [dispatchPass_eq]
  obtain ⟨hpassed, hplaced, hreports⟩ := happlies
  generalize passMoves (passStart s) (passOrder s) [] (passStart s) = t at hpassed hplaced hreports
  have hend : Passed (WaitsAtStart s) [] [] t (endPass t) := passed_endPass t
  refine ⟨hpassed.trans (hend.mono (List.nil_subset _) (List.nil_subset _)), fun c hc => ?_, ?_⟩
  · exact (hplaced c hc).kept hend (fun _ _ => List.not_mem_nil) (stands_passStart hids (mem_of_mem_choicesOf _ _ hc)).2
      List.not_mem_nil (fun _ h => absurd h List.not_mem_nil)
  · simp only [reportsOf_passStart] at hreports
    exact Reports.before (reports_of_fli rfl) (hreports.after (reports_of_fli (fli_endPass t)))

theorem assigned_of_taken {m : Move} {v i : Nat} {ps : List Nat} {t : State} (h : Taken m v i ps t) : Assigned t m v := by
  obtain ⟨y, hy, hstate, hvehicle, hage, hsource, -⟩ := h.given
  obtain ⟨z, hz, hzstate, hzmove, hassign, -⟩ := h.vehicle
  obtain ⟨x, k, y', hx, -, hk, hy', hport, hpurpose, htarget⟩ := h.aimed
  cases hz.symm.trans hx
  cases hzmove.symm.trans hk
  cases hy.symm.trans hy'
  refine ⟨y, z, hy, hstate, hvehicle, hage, hz, hzstate, hzmove, hassign, hpurpose, fun p r hp hr => ?_⟩
  rw [hsource, hp, Option.bind_some, portSegment, hr, Option.map_some] at hport
  rw [htarget, ← hport]

end

theorem choice_of_mem {s : State} {c : Move × Choice} : ∀ (ms : List Move) (chosen : List Nat), c ∈ choicesOf s ms chosen →
    ∃ l, c.2 = choose s l c.1
  | [], _, h => by cases h
  | m :: ms, chosen, h => by
    obtain rfl | h := List.mem_cons.1 h
    · exact ⟨chosen, rfl⟩
    · exact choice_of_mem ms _ h

theorem passTakesInOrder : Says.PassTakesInOrder := by
  intro s hs hroster hids
  dsimp only
  have hknown : ∀ c ∈ choicesOf s (passOrder s) [], ∀ x, c.2 = .plain x ∨ c.2 = .preempt x → vehicle s x.id = some x := by
    intro c hc x hx
    obtain ⟨l, hl⟩ := choice_of_mem _ _ hc
    obtain ⟨-, q, hq, rfl⟩ := chooses (hl ▸ hx)
    exact vehicle_of_mem hroster hq
  obtain ⟨hpassed, hplaced, hreports⟩ := applies_dispatchPass hids hknown
  refine ⟨_, exec_dispatchPass hs, fun m x hc => ?_, fun m x hc => ?_, fun m hc => ?_, fun v x hx hfree => ?_, hreports⟩
  · obtain ⟨hidle, hdep⟩ := hplaced _ hc
    refine ⟨fun h => ?_, fun h => ?_⟩
    · obtain ⟨i, hi⟩ := hidle h
      exact assigned_of_taken hi
    · obtain ⟨⟨y, hy, hstate, hvehicle, -, -, habsent⟩, z, hz, hfacts⟩ := hdep h
      exact ⟨y, z, hy, hstate, hvehicle, habsent rfl, hz, hfacts⟩
  · obtain ⟨p, i, hp, -, htaken, ⟨w, hw, hstate, hvehicle⟩, hentry⟩ := hplaced _ hc
    obtain ⟨z, hz, -, -, -, hwithdraw⟩ := htaken.vehicle
    exact ⟨assigned_of_taken htaken, p, w, z, hp, hw, hstate, hvehicle, hz, hwithdraw p List.mem_cons_self, hentry⟩
  · obtain ⟨y, hy, hstate, -⟩ := hplaced _ hc
    exact ⟨y, hy, hstate⟩
  · have hnot : v ∉ takers (choicesOf s (passOrder s) []) := fun h => by
      obtain ⟨c, hc, hv⟩ := List.mem_flatMap.1 h
      exact hfree c hc hv
    obtain ⟨z, hz, ht⟩ := hpassed.vehicles v x hnot hx
    exact ⟨z, hz, by rw [ht.rest], by rw [ht.rest], by rw [ht.rest]⟩

/-! ### One WAITING move, and the records of all (R113, R114) -/

section
variable {s : State} {m : Move}

/-- Whatever is chosen, an application keeps the age, class, urgency and source of every move. -/
theorem passed_applyChoice (c : Choice) (t : State) :
    Passed (fun _ => False) (chosenBy c) (movedBy m c) t (applyChoice m.id c t) := by
  unfold applyChoice
  split
  · exact .refl t
  · split
    · exact passed_assignTo (List.mem_singleton.2 rfl) (List.mem_singleton.2 rfl) t
    · exact passed_assignNext (List.mem_singleton.2 rfl) (List.mem_singleton.2 rfl) t
  · split
    · exact passed_assignByPreemption (List.mem_singleton.2 rfl) (List.mem_singleton.2 rfl) id t
    · exact .refl t

theorem records_passMoves (s : State) (ms : List Move) (chosen : List Nat) (t : State) (k : Nat) (y : Move)
    (hy : findMove t k = some y) : ∃ w, findMove (passMoves s ms chosen t) k = some w ∧ SameMove y w := by
  induction ms generalizing chosen t y with
  | nil => exact ⟨y, hy, rfl, rfl, rfl, rfl⟩
  | cons m ms ih =>
    obtain ⟨z, hz, hyz⟩ := (passed_applyChoice (m := m) (choose s chosen m) t).records k y hy
    rw [passMoves_cons]
    obtain ⟨w, hw, hzw⟩ := ih (chosenBy (choose s chosen m) ++ chosen) _ z hz
    exact ⟨w, hw, hyz.trans hzw⟩

theorem records_dispatchPass {k : Nat} {y : Move} (hy : findMove s k = some y) :
    ∃ w, findMove (dispatchPass s) k = some w ∧ SameMove (urged s.tuning y) w := by
  obtain ⟨z, hz, hyz⟩ := records_passMoves (passStart s) (passOrder s) [] (passStart s) k (urged s.tuning y)
    (by rw [findMove_passStart, hy, Option.map_some])
  obtain ⟨w, hw, hzw⟩ := (passed_endPass (W := fun _ => False) (vs := []) (ws := []) _).records k z hz
  exact ⟨w, hw, hyz.trans hzw⟩

theorem flags_endPass (t : State) : (endPass t).asu.passRunning = false ∧ (endPass t).asu.haltDeferred = false
    ∧ (endPass t).roster = t.roster := by
  unfold endPass
  dsimp only
  split
  · generalize ht : t.updAsu (fun a => { a with passRunning := false, haltDeferred := false }) = u
    have henter := entersHalted_enterHalted u
    rw [henter.pass, henter.roster, ← ht]
    exact ⟨rfl, rfl, rfl⟩
  · exact ⟨rfl, rfl, rfl⟩

theorem urgency_urged (t : Tuning) (x : Move) :
    (urged t x).urgency = if x.state = .waiting then urgencyBy t x else x.urgency := by
  by_cases h : x.state = .waiting
  · rw [if_pos h, urged, if_pos ((isWaiting_iff x).2 h), urgencyOf_eq]
  · rw [if_neg h, urged, if_neg fun hw => h ((isWaiting_iff x).1 hw)]

theorem passOrder_of_oneWaiting (h : OneWaiting s m) : passOrder s = [m] := by
  have hfilter : s.mq.moves.filter isWaiting = [m] := h.1
  rw [passOrder, hfilter]
  rfl

theorem dispatchPass_of_none (hdefer : s.asu.haltDeferred = false) (hnone : ∀ x ∈ s.mq.moves, x.state ≠ .waiting) :
    dispatchPass s = { s with asu := { s.asu with passDue := false, passRunning := false } } := by
  have hwaits (x : Move) (hx : x ∈ s.mq.moves) : isWaiting x = false :=
    Bool.eq_false_iff.2 fun h => hnone x hx ((isWaiting_iff x).1 h)
  have horder : passOrder s = [] := by
    rw [passOrder, List.filter_eq_nil_iff.2 fun x hx => by rw [hwaits x hx]; nofun]
    rfl
  have hmap : s.mq.moves.map (urged s.tuning) = s.mq.moves :=
    (List.map_congr_left fun x hx => by rw [urged, hwaits x hx]; rfl).trans (List.map_id _)
  have hstart : passStart s = beginPass s := by
    show { beginPass s with mq := { s.mq with moves := s.mq.moves.map (urged s.tuning) } } = _
    rw [hmap]
    rfl
  rw [dispatchPass_eq, horder, hstart, passMoves]
  unfold endPass
  dsimp only
  rw [if_neg (by show ¬ s.asu.haltDeferred = true; rw [hdefer]; nofun)]
  unfold beginPass State.updAsu
  rw [hdefer]

/-- The pass with one WAITING move leaves what its one application does. -/
theorem placed_of_oneWaiting (hone : OneWaiting s m)
    (hknown : ∀ x, choose s [] m = .plain x ∨ choose s [] m = .preempt x → vehicle s x.id = some x) :
    Placed (WaitsAtStart s) m (choose s [] m) (dispatchPass s) := by
  have horder := passOrder_of_oneWaiting hone
  have hall : choicesOf s (passOrder s) [] = [(m, choose s [] m)] := by rw [horder, choicesOf_cons, choicesOf]
  refine (applies_dispatchPass hone.2 fun c hc x hx => ?_).2.1 (m, choose s [] m) (by rw [hall]; exact List.mem_singleton.2 rfl)
  rw [hall] at hc
  rw [List.mem_singleton.1 hc] at hx
  exact hknown x hx

theorem roster_of_choose_none (hone : OneWaiting s m) (hc : choose s [] m = .none) : (dispatchPass s).roster = s.roster := by
  rw [dispatchPass_eq, passOrder_of_oneWaiting hone, passMoves_cons, choose_passStart, hc, passMoves, (flags_endPass _).2.2]
  rfl

end

theorem passOfOne : Says.PassOfOne := by
  intro s
  refine ⟨fun hrun hnot => ?_, fun hs hdefer hnone => ?_, fun hs => ?_, fun m x hs hone hc hx => ?_,
    fun m x p hs hone hc hx hp => ?_, fun m hs hone hc => ?_⟩
  · show Host.Outcome.next (whenRunning _ s) = _
    rw [whenRunning, if_pos hrun, if_neg hnot]
  · rw [exec_dispatchPass hs, dispatchPass_of_none hdefer hnone]
  · obtain ⟨hrun, hdefer, -⟩ := flags_endPass (passMoves (passStart s) (passOrder s) [] (passStart s))
    refine ⟨_, exec_dispatchPass hs, hrun, hdefer, fun hids x hx => ?_⟩
    obtain ⟨w, hw, hage, hcls, hurgency, -⟩ := records_dispatchPass (findMove_of_mem hids hx)
    refine ⟨w, hw, hage.trans (by rw [urged_eq]), hcls.trans (by rw [urged_eq]), hurgency.trans (urgency_urged _ x)⟩
  · have hplaced := placed_of_oneWaiting hone fun x' hx' => by
      obtain h | h := hx' <;> cases hc.symm.trans h
      exact hx
    rw [hc] at hplaced
    obtain ⟨hidle, hdep⟩ := hplaced
    refine ⟨fun h => ?_, fun h => ?_⟩
    · obtain ⟨i, hi⟩ := hidle h
      obtain ⟨y, z, hy, hstate, hvehicle, -, hz, hzstate, hzmove, hassign, -⟩ := assigned_of_taken hi
      exact ⟨_, y, z, exec_dispatchPass hs, hy, hstate, hvehicle, hz, hzstate, hzmove, hassign⟩
    · obtain ⟨⟨y, hy, hstate, hvehicle, -⟩, z, hz, hzstate, -, hnext⟩ := hdep h
      exact ⟨_, y, z, exec_dispatchPass hs, hy, hstate, hvehicle, hz, hzstate, hnext⟩
  · have hplaced := placed_of_oneWaiting hone fun x' hx' => by
      obtain h | h := hx' <;> cases hc.symm.trans h
      exact hx
    rw [hc] at hplaced
    obtain ⟨p', i, hp', -, htaken, ⟨w, hw, hwstate, hwvehicle⟩, hentry⟩ := hplaced
    cases hp.symm.trans hp'
    obtain ⟨y, hy, hstate, hvehicle, -⟩ := htaken.given
    obtain ⟨z, hz, hzstate, hzmove, hassign, hwithdraw⟩ := htaken.vehicle
    exact ⟨_, y, z, w, exec_dispatchPass hs, hy, hstate, hvehicle, hw, hwstate, hwvehicle, hz, hzstate, hzmove, hassign,
      hwithdraw p List.mem_cons_self, hentry⟩
  · have hplaced := placed_of_oneWaiting hone fun x' hx' => by
      obtain h | h := hx' <;> cases hc.symm.trans h
    rw [hc] at hplaced
    obtain ⟨y, hy, hstate, -⟩ := hplaced
    exact ⟨_, y, exec_dispatchPass hs, hy, hstate, roster_of_choose_none hone hc⟩

/-- Settles O54: a pass applies its choices in their order, each in what the ones before it left. -/
theorem dispatchPassAssigns : Obligations.DispatchPassAssigns := ⟨passOfOne, passTakesInOrder⟩

end Sys2Proof.Machine

/-! PROOFS. O42: the arrival of a handed-over vehicle (R25, R69, R110, R141). -/

namespace Sys2Proof.Machine

open Sys2Proof.Says

/-! ### A position at the first held segment (R25) -/

section
variable {s : State} {v i : Nat} {x : Vehicle}

theorem worked_modRes (i : Nat) (f : Res → Res) (s : State) : Worked s (modRes i f s) :=
  worked_of_rest rfl rfl rfl rfl rfl rfl rfl rfl rfl

theorem splitHeld_head (hi : x.held.head? = some i) : splitHeld x i = ([], x.held) := by
  obtain ⟨tail, htail⟩ : ∃ tail, x.held = i :: tail := List.head?_eq_some_iff.1 hi
  unfold splitHeld
  dsimp only
  rw [htail, List.idxOf_cons_self]
  simp

/-- A position at the first held segment releases nothing. -/
theorem takePosition_of_head (hx : vehicle s v = some x) (hi : x.held.head? = some i) :
    takePosition v i s = run (settleTasks s (modRes i occupiedRes (setHeld v x.held s)) [] ++ [.extend v])
      (modRes i occupiedRes (setHeld v x.held s)) := by
  obtain ⟨tail, htail⟩ : ∃ tail, x.held = i :: tail := List.head?_eq_some_iff.1 hi
  have hrelease : releaseBehind v i x s = ([], modRes i occupiedRes (setHeld v x.held s)) := by
    unfold releaseBehind
    dsimp only
    rw [splitHeld_head hi, releaseEntries_nil]
    dsimp only
    rw [htail]
    rfl
  unfold takePosition
  rw [hx]
  dsimp only
  rw [if_pos (by rw [htail]; exact List.mem_cons_self), hrelease]

theorem worked_setHeld (v : Nat) (is : List Nat) (s : State) : Worked s (setHeld v is s) :=
  worked_tendList (fun _ => is) Vehicle.parkMark v s

theorem heads_setHeld (hx : vehicle s v = some x) {u j : Nat} (h : Heads u j s) : Heads u j (setHeld v x.held s) :=
  heads_updVehicle h (fun _ h => h) fun y hy hj huv => by
    subst huv
    cases hx.symm.trans hy
    exact hj

theorem worked_takePosition_head (h : Heads v i s) : Worked s (takePosition v i s) := by
  obtain ⟨x, hx, hi⟩ := h
  rw [takePosition_of_head hx hi]
  exact ((worked_setHeld v _ s).trans (worked_modRes i _ _)).trans (worked_run _ _)

theorem heads_takePosition_head (h : Heads v i s) : Heads v i (takePosition v i s) := by
  obtain ⟨x, hx, hi⟩ := id h
  rw [takePosition_of_head hx hi]
  exact heads_run _ ((heads_setHeld hx h).of_roster rfl)

end

/-! ### The frames of an ARRIVING vehicle (R69) -/

section
variable {s : State} {e : TrackEntry} {rest : List TrackEntry} {x : Vehicle}

theorem exec_join_of_arriving {seg m cr : Nat} {b : Bool} (hs : TakesEntry s e rest) (hx : vehicle s e.src = some x)
    (harr : x.state = .arriving) (hb : e.body = .join seg b cr m) :
    exec .join s = .next (arrivingFrame e x (heard s e rest)) := by
  refine congrArg Host.Outcome.next ((takeTrack_of_taken hs (by rw [hb]; rfl)).trans ?_)
  unfold takeJoin
  rw [hb]
  dsimp only
  rw [show vehicle (popTrack rest s) e.src = some x from hx]
  dsimp only
  rw [if_pos harr, noteFrame_popTrack]

theorem exec_position_of_arriving {seg need : Nat} {load : Bool} (hs : TakesEntry s e rest) (hx : vehicle s e.src = some x)
    (harr : x.state = .arriving) (hb : e.body = .position seg need load) :
    exec .position s = .next (arrivingFrame e x (heard s e rest)) := by
  refine congrArg Host.Outcome.next ((takeTrack_of_taken hs (by rw [hb]; rfl)).trans ?_)
  unfold takePositionFrame
  rw [hb]
  dsimp only
  rw [show vehicle (popTrack rest s) e.src = some x from hx]
  dsimp only
  rw [if_pos harr, noteFrame_popTrack]

theorem statusRow_of_arriving {h : Nat → StatusData → State → State} {ev : StatusEvent} {seg m cr : Nat} {b : Bool}
    (hs : TakesEntry s e rest) (hx : vehicle s e.src = some x) (harr : x.state = .arriving)
    (hb : e.body = .status ev seg m b cr) : statusRow ev h s = arrivingFrame e x (heard s e rest) := by
  rw [statusRow, takeTrack_of_taken hs (by rw [hb]; simp [isStatus])]
  unfold takeStatus
  rw [hb]
  dsimp only
  rw [show vehicle (popTrack rest s) e.src = some x from hx]
  dsimp only
  rw [if_pos harr, noteFrame_popTrack]

end

section
variable {s : State} {e : TrackEntry} {x : Vehicle} {q : InClaim} {seg : Nat}

theorem arrivingFrame_join {m cr : Nat} {b : Bool} (hb : e.body = .join seg b cr m) (hq : grantedClaimOf s x.id = some q) :
    arrivingFrame e x s = if q.segment = seg then completeArrival x q s else s := by
  unfold arrivingFrame
  rw [hb]
  dsimp only
  rw [hq]

theorem arrivingFrame_position {need : Nat} {load : Bool} (hb : e.body = .position seg need load)
    (hq : grantedClaimOf s x.id = some q) :
    arrivingFrame e x s =
      if q.segment = seg then takePosition x.id seg (needing x.id need (completeArrival x q s)) else s := by
  unfold arrivingFrame
  rw [hb]
  dsimp only
  rw [hq]
  rfl

theorem arrivingFrame_fault {ev : StatusEvent} {m cr : Nat} {b : Bool} (hb : e.body = .status ev seg m b cr)
    (hev : ev = .fault ∨ ev = .hoistFault) :
    arrivingFrame e x s =
      makeHoldDue x.id (raise .vehicleFault { noDetail with vehicle := x.id, segment := segmentDetail seg } s) := by
  unfold arrivingFrame
  rw [hb]
  obtain rfl | rfl := hev <;> rfl

end

/-! ### The record of the carried move (R110) -/

section
variable {s : State} {v : Nat} {c : Summary} {x : Vehicle}

/-- The move as it is taken over. -/
def carriedRecord (v : Nat) (c : Summary) : Move :=
  { id := c.move, carrier := c.carrier, source := none, dest := some c.dest, cls := c.cls, age := c.age, seq := 0
    state := .carrying, vehicle := some v, confirm := .absent, returnFlag := false, urgency := 0 }

/-- The vehicle has it. -/
def carriedOn (v : Nat) (c : Summary) (s : State) : State :=
  updVehicle v (fun y => { y with move := some c.move, carrier := some c.carrier }) (appendMove (carriedRecord v c) s)

theorem createCarried_of_room (hroom : s.mq.moves.length < 128) (hnew : findMove s c.move = none) :
    createCarried v c s = reportMove c.move (.now .carrying) v c.age (carriedOn v c s) := by
  unfold createCarried
  rw [if_pos ⟨hroom, by rw [hnew]; rfl⟩]
  rfl

theorem vehicle_carriedOn (hx : vehicle s v = some x) :
    vehicle (carriedOn v c s) v = some { x with move := some c.move, carrier := some c.carrier } := by
  rw [carriedOn, vehicle_updVehicle v v (fun y => { y with move := some c.move, carrier := some c.carrier }) _ fun _ h => h,
    vehicle_appendMove, hx]
  simp

theorem findMove_carriedOn (hnew : findMove s c.move = none) :
    findMove (carriedOn v c s) c.move = some { carriedRecord v c with seq := s.mq.arrivals } := by
  rw [carriedOn, findMove_updVehicle, findMove_appendMove, hnew, if_pos (show c.move = (carriedRecord v c).id from rfl)]
  rfl

end

/-! ### The arrival, step by step (R141) -/

section
variable {s t u : State} {x : Vehicle} {q : InClaim}

/-- The state an arriving vehicle takes. -/
def arrivedState (x : Vehicle) : VState := if x.due.stopMark then .faulted .laden else .work .laden

/-- The segment is occupied, the move on the vehicle and the vehicle in service, or FAULTED. -/
def inService (x : Vehicle) (q : InClaim) (s : State) : State :=
  updVehicle x.id (fun y => { y with state := arrivedState x, heardBy := heardFromNow s })
    (createCarried x.id q.summary (modRes q.segment occupiedRes s))

theorem completeArrival_eq (x : Vehicle) (q : InClaim) (s : State) :
    completeArrival x q s = dropInClaim q.cell q.tag
      (sendPeer q.cell kindArrived q.tag q.segment x.id [] (realign x.id (inService x q s))) := rfl

/-- Vehicle `v` has arrived with the move of claim `q`. -/
structure Landed (q : InClaim) (v : Nat) (st : VState) (by' : Option Nat) (t : State) : Prop where
  vehicle : ∃ y, Machine.vehicle t v = some y ∧ y.state = st ∧ y.move = some q.summary.move
    ∧ y.carrier = some q.summary.carrier ∧ y.heardBy = by'
  heads : Heads v q.segment t
  move : ∃ n, findMove t q.summary.move = some { carriedRecord v q.summary with seq := n }

theorem Landed.kept {v : Nat} {st : VState} {o : Option Nat} (h : Landed q v st o t) (hw : Worked t u)
    (hh : Heads v q.segment u) : Landed q v st o u where
  vehicle := by
    obtain ⟨y, hy, hfacts⟩ := h.vehicle
    obtain ⟨z, hz, ht⟩ := hw.vehicles v y hy
    refine ⟨z, hz, ?_⟩
    rw [ht.rest]
    exact hfacts
  heads := hh
  move := by
    obtain ⟨n, hn⟩ := h.move
    exact ⟨n, ((onward_of_worked hw).moves.move _).absent hn rfl⟩

theorem landed_inService {y : Vehicle} (hx : vehicle s x.id = some y) (hhead : y.held.head? = some q.segment)
    (hroom : s.mq.moves.length < 128) (hnew : findMove s q.summary.move = none) :
    Landed q x.id (arrivedState x) (heardFromNow s) (inService x q s) := by
  have hx' : vehicle (inService x q s) x.id = some { y with
      move := some q.summary.move, carrier := some q.summary.carrier, state := arrivedState x, heardBy := heardFromNow s } := by
    rw [inService, vehicle_updVehicle x.id x.id (fun y => { y with state := arrivedState x, heardBy := heardFromNow s }) _
      fun _ h => h, createCarried_of_room (s := modRes q.segment occupiedRes s) hroom hnew, vehicle_reportMove,
      vehicle_carriedOn (s := modRes q.segment occupiedRes s) hx]
    simp
  refine ⟨⟨_, hx', rfl, rfl, rfl, rfl⟩, ⟨_, hx', hhead⟩, s.mq.arrivals, ?_⟩
  rw [inService, findMove_updVehicle, createCarried_of_room (s := modRes q.segment occupiedRes s) hroom hnew]
  exact ((movesKept_reportMove _ _ _ _ _).move _).absent (findMove_carriedOn (s := modRes q.segment occupiedRes s) hnew) rfl

theorem worked_realign (v : Nat) (s : State) : Worked s (realign v s) := worked_rebuildWith [] v s

theorem worked_completeArrival (x : Vehicle) (q : InClaim) (s : State) : Worked (inService x q s) (completeArrival x q s) := by
  rw [completeArrival_eq]
  exact ((worked_realign x.id _).trans (worked_sendPeer (by decide) _ _ _ _ _ _)).trans (worked_dropInClaim _ _ _)

theorem heads_completeArrival {v i : Nat} (h : Heads v i (inService x q s)) : Heads v i (completeArrival x q s) := by
  rw [completeArrival_eq]
  exact ((heads_rebuildWith [] x.id h).of_roster (sendPeer_rest _ _ _ _ _ _ _).2.2.2.1).of_roster rfl

/-- No entry of the claim is left. -/
def Unlisted (q : InClaim) (t : State) : Prop := inClaim t q.cell q.tag = none

theorem Unlisted.kept (h : Unlisted q t) (hw : Worked t u) : Unlisted q u := by
  have hnone := List.find?_eq_none.1 h
  refine List.find?_eq_none.2 fun c hc => ?_
  obtain ⟨d, hd, hcell, htag, -⟩ := hw.inClaims c hc
  have := hnone d hd
  rwa [hcell, htag] at this

theorem unlisted_completeArrival (x : Vehicle) (q : InClaim) (s : State) : Unlisted q (completeArrival x q s) := by
  rw [completeArrival_eq]
  refine List.find?_eq_none.2 fun c hc => ?_
  have hnot := (List.mem_filter.1 hc).2
  rw [Bool.not_eq_true'] at hnot
  rw [hnot]
  nofun

theorem Landed.needing {v need : Nat} {st : VState} {o : Option Nat} (h : Landed q v st o t) :
    Landed q v st o (Machine.needing v need t) where
  vehicle := by
    obtain ⟨y, hy, hfacts⟩ := h.vehicle
    exact ⟨_, vehicle_needing hy, hfacts⟩
  heads := heads_updVehicle h.heads (fun _ h => h) fun _ _ hi _ => hi
  move := h.move

/-- What a POSITION or JOIN at the boundary segment leaves. -/
theorem landed_arriving {e : TrackEntry} {c : Instr} {rest : List TrackEntry} (hs : TakesEntry s e rest)
    (hx : vehicle s e.src = some x)
    (harr : x.state = .arriving) (hq : grantedClaimOf s e.src = some q)
    (hc : (∃ b cr m, c = .join ∧ e.body = .join q.segment b cr m) ∨ (∃ n b, c = .position ∧ e.body = .position q.segment n b))
    (hroom : s.mq.moves.length < 128) (hnew : findMove s q.summary.move = none) (hheld : x.held = [q.segment]) :
    ∃ t, exec c s = .next t ∧ Unlisted q t
      ∧ Landed q e.src (arrivedState x) (some (s.board.now + s.layout.tuning.tSilent)) t := by
  have hid : x.id = e.src := vehicle_id hx
  have hq' : grantedClaimOf (heard s e rest) x.id = some q := by rw [hid]; exact hq
  have hx' : vehicle (heard s e rest) x.id = some (hearing s e x) := by rw [hid]; exact vehicle_heard hx
  have hroom' : (heard s e rest).mq.moves.length < 128 := hroom
  have hnew' : findMove (heard s e rest) q.summary.move = none := hnew
  have hland := landed_inService hx' (by rw [hearing, hheld]; rfl) hroom' hnew'
  have hland : Landed q x.id (arrivedState x) (some (s.board.now + s.layout.tuning.tSilent))
      (completeArrival x q (heard s e rest)) :=
    hland.kept (worked_completeArrival x q _) (heads_completeArrival hland.heads)
  have hunlisted := unlisted_completeArrival x q (heard s e rest)
  rw [← hid]
  obtain ⟨b, cr, m, rfl, hb⟩ | ⟨need, b, rfl, hb⟩ := hc
  · refine ⟨_, exec_join_of_arriving hs hx harr hb, ?_⟩
    rw [arrivingFrame_join hb hq', if_pos rfl]
    exact ⟨hunlisted, hland⟩
  · refine ⟨_, exec_position_of_arriving hs hx harr hb, ?_⟩
    rw [arrivingFrame_position hb hq', if_pos rfl]
    generalize completeArrival x q (heard s e rest) = a at hland hunlisted
    have hneed := hland.needing (need := need)
    have hwork := worked_takePosition_head hneed.heads
    exact ⟨Unlisted.kept (t := needing x.id need a) hunlisted hwork, hneed.kept hwork (heads_takePosition_head hneed.heads)⟩

end

theorem arrivalTaken : Says.ArrivalTaken := by
  intro s e rest c seg x q d hs hx harr hq hphase
  have hid : x.id = e.src := vehicle_id hx
  have hq' : grantedClaimOf (heard s e rest) x.id = some q := by rw [hid]; exact hq
  refine ⟨fun hc => ⟨fun hne => ?_, fun heq hroom hnew hheld => ?_⟩, fun m b cr hc => ?_⟩
  · obtain ⟨b, cr, m, rfl, hb⟩ | ⟨need, b, rfl, hb⟩ := hc
    · rw [exec_join_of_arriving hs hx harr hb, arrivingFrame_join hb hq', if_neg (Ne.symm hne)]
    · rw [exec_position_of_arriving hs hx harr hb, arrivingFrame_position hb hq', if_neg (Ne.symm hne)]
  · subst heq
    obtain ⟨t, hexec, hunlisted, ⟨y, hy, hstate, hmove, hcarrier, hheard⟩, ⟨y', hy', hhead⟩, n, hz⟩ :=
      landed_arriving hs hx harr hq hc hroom hnew hheld
    cases hy.symm.trans hy'
    exact ⟨t, y, _, hexec, hunlisted, hy, hstate, hhead, hmove, hcarrier, hheard, hz, rfl, rfl, rfl, rfl, rfl, rfl⟩
  · have hx' : vehicle (heard s e rest) x.id = some (hearing s e x) := by rw [hid]; exact vehicle_heard hx
    have hexec : ∃ ev, (ev = .fault ∨ ev = .hoistFault) ∧ e.body = .status ev seg m b cr
        ∧ exec c s = .next (arrivingFrame e x (heard s e rest)) := by
      obtain ⟨rfl, hb⟩ | ⟨rfl, hb⟩ := hc
      · exact ⟨_, .inl rfl, hb, congrArg Host.Outcome.next (statusRow_of_arriving hs hx harr hb)⟩
      · exact ⟨_, .inr rfl, hb, congrArg Host.Outcome.next (statusRow_of_arriving hs hx harr hb)⟩
    obtain ⟨ev, hev, hb, hexec⟩ := hexec
    rw [arrivingFrame_fault hb hev] at hexec
    refine ⟨_, { hearing s e x with due := { x.due with hold := some 0, stopMark := true } }, hexec, ?_, ?_, harr, rfl, rfl, rfl⟩
    · unfold makeHoldDue
      split <;> exact flagSet_raise _ _ _
    · rw [vehicle_makeHoldDue, vehicle_raise, ← hid, hx', Option.map_some, if_pos rfl]
      rfl

end Sys2Proof.Machine

/-! PROOFS. O42, continued: the frames of an arrival in their order (R92, R141, R161). -/

namespace Sys2Proof.Machine

open Sys2Proof.Says

/-! ### Notices (R161, R170) -/

/-- From `s` to `t` the outbound queue took notices. -/
def Notices (s t : State) : Prop := ∃ mid, t.fli.outbound = s.fli.outbound ++ mid ∧ ∀ g ∈ mid, g.kind = 0x62

theorem notices_of_fli {s t : State} (h : t.fli = s.fli) : Notices s t := ⟨[], by rw [h, List.append_nil], nofun⟩

theorem notices_noticed {k : EventKind} {d : Detail} {s : State} (h : occupancy s < 56) : Notices s (noticed notify k d s) := by
  unfold noticed
  split
  · exact notices_of_fli rfl
  · split
    · exact notices_of_fli rfl
    · rw [notify, if_pos (show occupancy (s.updSu _) < Config.reportLimit from h)]
      exact ⟨[noticeFrame _ _], rfl, fun g hg => by rw [List.mem_singleton.1 hg]; rfl⟩

theorem notices_raise {k : EventKind} {d : Detail} {s : State} (h : occupancy s < 56) : Notices s (raise k d s) := by
  obtain ⟨mid, hmid, hkind⟩ := notices_noticed (k := k) (d := d) h
  exact ⟨mid, by rw [raise, occur_fli, hmid], hkind⟩

/-! ### An alignment that drops nothing starts no task (R25, R46) -/

section
variable {s t : State} {v i : Nat}

/-- Every record of vehicle `v` holds segment `i` alone. -/
def HoldsOnly (v i : Nat) (s : State) : Prop := ∀ p ∈ s.roster, p.2.id = v → p.2.held = [i]

theorem holdsOnly_of_rosterOk {x : Vehicle} (h : RosterOk s.roster) (hx : vehicle s v = some x) (hheld : x.held = [i]) :
    HoldsOnly v i s := fun p hp hid => by
  have := vehicle_of_mem h hp
  rw [hid, hx] at this
  cases this
  exact hheld

theorem HoldsOnly.of_roster (h : HoldsOnly v i s) (hroster : t.roster = s.roster) : HoldsOnly v i t := fun p hp => by
  rw [hroster] at hp
  exact h p hp

theorem HoldsOnly.updVehicle {u : Nat} {f : Vehicle → Vehicle} (h : HoldsOnly v i s) (hid : ∀ x, (f x).id = x.id)
    (hheld : ∀ x, x.held = [i] → (f x).held = [i]) : HoldsOnly v i (Machine.updVehicle u f s) := fun p hp hpid => by
  obtain ⟨q, hq, rfl⟩ := List.mem_map.1 hp
  by_cases hu : q.2.id = u
  · rw [if_pos hu] at hpid ⊢
    exact hheld q.2 (h q hq ((hid q.2).symm.trans hpid))
  · rw [if_neg hu] at hpid ⊢
    exact h q hq hpid

theorem HoldsOnly.vehicle {x : Vehicle} (h : HoldsOnly v i s) (hx : vehicle s v = some x) : x.held = [i] := by
  obtain ⟨p, hp, rfl⟩ := Option.map_eq_some_iff.1 hx
  exact h p (List.mem_of_find?_eq_some hp) (by simpa using List.find?_some hp)

theorem zoneCount_congr {g : Nat × Vehicle → Nat × Vehicle} (hlayout : t.layout = s.layout) (hres : ∀ j, resOf t j = resOf s j)
    (hroster : t.roster = s.roster.map g) (hheld : ∀ p ∈ s.roster, (g p).2.held = p.2.held) (z : Nat) :
    zoneCount t z = zoneCount s z := by
  have hcounts (p : Nat × Vehicle) (hp : p ∈ s.roster) : countsIn t z (g p).2 = countsIn s z p.2 := by
    unfold countsIn
    rw [hheld p hp, zoneOf_congr hlayout]
    simp only [hres]
  unfold zoneCount
  rw [hroster, List.filter_map, List.length_map]
  exact congrArg List.length (List.filter_congr hcounts)

theorem settleTasks_nil (h : ∀ z, zoneCount t z = zoneCount s z) : settleTasks s t [] = [] := by
  have hnone : fallenZones s t = [] := List.filter_eq_nil_iff.2 fun z _ => by simp [h z]
  rw [settleTasks, hnone]
  rfl

theorem alignHeld_of_holdsOnly (h : HoldsOnly v i s) : (alignHeld v s).1 = [] ∧ (alignHeld v s).2.fli = s.fli := by
  unfold alignHeld
  split
  · exact ⟨rfl, rfl⟩
  next x hx =>
    rw [h.vehicle hx]
    simp only [alignRun, List.length_nil, List.drop_nil, List.reverse_nil, List.isEmpty_nil, if_true, releaseEntries_nil]
    have hkeeps (p : Nat × Vehicle) (hp : p ∈ s.roster) :
        (if p.2.id = v then (p.1, { p.2 with held := [i], path := x.path }) else p).2.held = p.2.held := by
      split
      next hid => exact (h p hp hid).symm
      next => rfl
    split
    · exact ⟨settleTasks_nil (zoneCount_congr rfl (fun _ => rfl) rfl hkeeps), rfl⟩
    · exact ⟨settleTasks_nil (zoneCount_congr rfl (fun j => resOf_leaveWaits v j _) rfl hkeeps), rfl⟩

theorem holdsOnly_buildPath (h : HoldsOnly v i s) : HoldsOnly v i (buildPath v s) := by
  unfold buildPath
  split
  · exact h
  split
  next x hx w s0 hw hs0 =>
    have hset : ∀ p m, HoldsOnly v i (updVehicle v (fun y => { y with path := p, parkMark := m })
        (updVehicle v (fun y => { y with parkMark := none }) s)) := fun p m =>
      HoldsOnly.updVehicle (f := fun y => { y with path := p, parkMark := m })
        (h.updVehicle (f := fun y => { y with parkMark := none }) (fun _ => rfl) fun _ h => h) (fun _ => rfl) fun _ h => h
    dsimp only
    split
    · exact (hset _ _).of_roster (raise_rest _ _ _).2.2.2.1
    · exact hset _ _
  next => exact h

theorem notices_buildPath (h : occupancy s < 56) : Notices s (buildPath v s) := by
  unfold buildPath
  split
  · exact notices_of_fli rfl
  split
  · dsimp only
    split
    · exact notices_raise (s := updVehicle v _ (updVehicle v _ s)) h
    · exact notices_of_fli rfl
  · exact notices_of_fli rfl

theorem notices_realign (h : HoldsOnly v i s) (hroom : occupancy s < 56) : Notices s (realign v s) := by
  unfold realign rebuildWith
  split
  · exact notices_of_fli rfl
  · split
    · obtain ⟨hnil, hfli⟩ := alignHeld_of_holdsOnly (holdsOnly_buildPath h)
      obtain ⟨mid, hmid, hkind⟩ := notices_buildPath (v := v) hroom
      dsimp only
      rw [hnil, List.append_nil, ite_self]
      refine ⟨mid, ?_, hkind⟩
      rw [show run [] (alignHeld v (buildPath v s)).2 = _ from runTasks_nil _ _, hfli, hmid]
    · exact notices_of_fli rfl

theorem room_realign (h : HoldsOnly v i s) (hroom : occupancy s < 56) : occupancy (realign v s) < 64 := by
  unfold realign rebuildWith
  split
  · exact hroom.trans (by decide)
  · split
    · obtain ⟨hnil, hfli⟩ := alignHeld_of_holdsOnly (holdsOnly_buildPath h)
      dsimp only
      rw [hnil, List.append_nil, ite_self, show run [] (alignHeld v (buildPath v s)).2 = _ from runTasks_nil _ _,
        occupancy_congr hfli]
      unfold buildPath
      split
      · exact hroom.trans (by decide)
      split
      · dsimp only
        split
        · exact room_raise (s := updVehicle v _ (updVehicle v _ s)) (hroom.trans (by decide))
        · exact hroom.trans (by decide)
      · exact hroom.trans (by decide)
    · exact hroom.trans (by decide)

end

/-! ### The report, the notices, ARRIVED (R141) -/

section
variable {s : State} {x : Vehicle} {q : InClaim}

theorem fli_inService (hroom : s.mq.moves.length < 128) (hnew : findMove s q.summary.move = none) (hocc : occupancy s < 56) :
    (inService x q s).fli = (sending s (moveReport s q.summary.move 5 x.id q.summary.age)).fli := by
  show (createCarried x.id q.summary (modRes q.segment occupiedRes s)).fli = _
  rw [createCarried_of_room (s := modRes q.segment occupiedRes s) hroom hnew]
  rw [reportMove_of_room (s := carriedOn x.id q.summary (modRes q.segment occupiedRes s)) hocc]
  rfl

theorem holdsOnly_inService {v i : Nat} (hroom : s.mq.moves.length < 128) (hnew : findMove s q.summary.move = none)
    (h : HoldsOnly v i s) : HoldsOnly v i (inService x q s) := by
  unfold inService
  refine HoldsOnly.updVehicle (f := fun y => { y with state := arrivedState x, heardBy := heardFromNow s }) ?_ (fun _ => rfl)
    fun _ h => h
  rw [createCarried_of_room (s := modRes q.segment occupiedRes s) hroom hnew]
  have hcarried : HoldsOnly v i (carriedOn x.id q.summary (modRes q.segment occupiedRes s)) :=
    HoldsOnly.updVehicle (f := fun y => { y with move := some q.summary.move, carrier := some q.summary.carrier })
      (h.of_roster rfl) (fun _ => rfl) fun _ h => h
  exact hcarried.of_roster (reportMove_rest _ _ _ _ _).2.2.2.1

theorem outbound_completeArrival {i : Nat} (hroom : s.mq.moves.length < 128) (hnew : findMove s q.summary.move = none)
    (hocc : occupancy s < 54) (h : HoldsOnly x.id i s) :
    ∃ mid, (∀ g ∈ mid, g.kind = 0x62) ∧ (completeArrival x q s).fli.outbound =
      s.fli.outbound ++ [moveReport s q.summary.move 5 x.id q.summary.age] ++ mid
        ++ [frameOf s q.cell 0x44 0 (peerBytes q.tag q.segment x.id)] := by
  have hfli := fli_inService (x := x) hroom hnew (hocc.trans (by decide))
  have honly := holdsOnly_inService (x := x) hroom hnew h
  have hid : (inService x q s).mc.identity = s.mc.identity := by
    show (createCarried x.id q.summary (modRes q.segment occupiedRes s)).mc.identity = _
    rw [createCarried_of_room (s := modRes q.segment occupiedRes s) hroom hnew]
    exact (reporting_reportMove _ _ _ _ _).identity
  have hocc' : occupancy (inService x q s) < 56 := by
    rw [occupancy_congr hfli]
    show (s.fli.outbound ++ [_]).length + s.fli.reservations < 56
    rw [List.length_append, List.length_singleton]
    unfold occupancy at hocc
    omega
  obtain ⟨mid, hmid, hkind⟩ := notices_realign honly hocc'
  have hroom' := room_realign honly hocc'
  have hid' : (realign x.id (inService x q s)).mc.identity = s.mc.identity :=
    (onward_of_worked (worked_realign x.id _)).identity.trans hid
  refine ⟨mid, hkind, ?_⟩
  rw [completeArrival_eq]
  generalize realign x.id (inService x q s) = t at hmid hroom' hid'
  rw [sendPeer_of_room hroom', List.append_nil]
  show t.fli.outbound ++ [frameOf t q.cell 0x44 0 (peerBytes q.tag q.segment x.id)] = _
  rw [hmid, hfli, show frameOf t = frameOf s by unfold frameOf; rw [hid']]
  rfl

end

theorem arrivalInOrder : Says.ArrivalInOrder := by
  intro s e rest need d load x q hs hroster hx harr hq hphase hheld hb hroom hnew hocc
  have hid : x.id = e.src := vehicle_id hx
  have hq' : grantedClaimOf (heard s e rest) x.id = some q := by rw [hid]; exact hq
  have honly : HoldsOnly x.id q.segment (heard s e rest) := by
    rw [hid]
    exact HoldsOnly.updVehicle (f := hearing s e) (HoldsOnly.of_roster (t := popTrack rest s) (holdsOnly_of_rosterOk hroster hx hheld) rfl)
      (fun _ => rfl) fun _ h => h
  obtain ⟨mid, hkind, hout⟩ := outbound_completeArrival (s := heard s e rest) (x := x) hroom hnew hocc honly
  have hlater := (acts_takePosition x.id q.segment (needing x.id need (completeArrival x q (heard s e rest)))).outbound
  rw [show (needing x.id need (completeArrival x q (heard s e rest))).fli.outbound = _ from hout] at hlater
  obtain ⟨tail, htail⟩ := hlater
  refine ⟨_, mid, tail, exec_position_of_arriving hs hx harr hb, hkind, ?_⟩
  rw [arrivingFrame_position hb hq', if_pos rfl, ← htail, hid]
  rfl

/-- Settles O42. -/
theorem arrivalCompletes : Obligations.ArrivalCompletes := ⟨arrivalTaken, arrivalInOrder⟩

end Sys2Proof.Machine

/-! PROOFS. Layer: a vehicle that holds one segment and needs none ahead (R28, R35, R46). -/

namespace Sys2Proof.Machine

open Sys2Proof.Says

section
variable {v i : Nat} {r : Nat → Option Res} {s t : State} {x : Vehicle}

/-- Vehicle `v` holds segment `i` alone and needs none ahead, nothing is arbitrated, and the segments are in the states `r`. -/
structure Still (v i : Nat) (r : Nat → Option Res) (s : State) : Prop where
  record : ∃ x, vehicle s v = some x ∧ x.held = [i] ∧ x.need = 0
  quiet : Unarbitrated s
  res : ∀ j, resOf s j = r j

/-- The tasks that leave such a vehicle where it is. -/
def Resting (v : Nat) : Task → Prop
  | .arb _ => True
  | .scanZone _ _ => True
  | .scanAll _ => False
  | .extend u => u = v
  | .rounds u => u = v
  | .regain _ => False

theorem Still.of_record (h : Still v i r s) {f : Vehicle → Vehicle} (hid : ∀ x, x.id = v → (f x).id = v)
    (hheld : ∀ x, x.held = [i] → (f x).held = [i]) (hneed : ∀ x, (f x).need = x.need) : Still v i r (updVehicle v f s) where
  record := by
    obtain ⟨x, hx, hi, hn⟩ := h.record
    exact ⟨f x, by rw [vehicle_updVehicle v v f s hid, hx, Option.map_some, if_pos rfl], hheld x hi, (hneed x).trans hn⟩
  quiet := h.quiet
  res := h.res

theorem Still.acts (h : Still v i r s) (ha : Acts s t) (hroster : t.roster = s.roster) (hsrt : t.srt = s.srt) : Still v i r t where
  record := by
    obtain ⟨x, hx, hfacts⟩ := h.record
    exact ⟨x, (vehicle_congr hroster v).trans hx, hfacts⟩
  quiet := ha.unarbitrated h.quiet hsrt
  res j := (resOf_congr hsrt j).trans (h.res j)

theorem still_raise (h : Still v i r s) (k : EventKind) (d : Detail) : Still v i r (raise k d s) :=
  h.acts (acts_raise k d s) (raise_rest k d s).2.2.2.1 (raise_rest k d s).2.2.1

theorem still_leaveWaits (h : Still v i r s) (u : Nat) : Still v i r (leaveWaits u s) where
  record := h.record
  quiet := h.quiet.imp id fun hw => NoneWait.filtered hw _
  res j := (resOf_leaveWaits u j s).trans (h.res j)

theorem still_buildPath (h : Still v i r s) : Still v i r (buildPath v s) := by
  unfold buildPath
  split
  · exact h
  split
  · have hset : ∀ p m, Still v i r (updVehicle v (fun y => { y with path := p, parkMark := m })
        (updVehicle v (fun y => { y with parkMark := none }) s)) := fun p m =>
      (h.of_record (f := fun y => { y with parkMark := none }) (fun _ h => h) (fun _ h => h) fun _ => rfl).of_record
        (f := fun y => { y with path := p, parkMark := m }) (fun _ h => h) (fun _ h => h) fun _ => rfl
    dsimp only
    split
    · exact still_raise (hset _ _) _ _
    · exact hset _ _
  · exact h

theorem resting_settleTasks (before after : State) (is : List Nat) : ∀ k ∈ settleTasks before after is, Resting v k := by
  intro k hk
  obtain hk | hk := List.mem_append.1 hk <;> obtain ⟨j, -, rfl⟩ := List.mem_map.1 hk <;> trivial

theorem still_alignHeld (h : Still v i r s) : Still v i r (alignHeld v s).2 ∧ ∀ k ∈ (alignHeld v s).1, Resting v k := by
  obtain ⟨x, hx, hheld, hneed⟩ := h.record
  have hset : Still v i r (updVehicle v (fun y => { y with held := [i], path := x.path }) s) :=
    h.of_record (f := fun y => { y with held := [i], path := x.path }) (fun _ h => h) (fun _ _ => rfl) fun _ => rfl
  unfold alignHeld
  rw [hx]
  dsimp only
  rw [hheld]
  simp only [alignRun, List.length_nil, List.drop_nil, List.reverse_nil, List.isEmpty_nil, if_true, releaseEntries_nil]
  refine ⟨?_, resting_settleTasks _ _ _⟩
  split
  · exact hset
  · exact still_leaveWaits hset v

theorem still_retryPath (h : Still v i r s) : Still v i r (retryPath v s).2 ∧ ∀ k ∈ (retryPath v s).1, Resting v k := by
  obtain ⟨hstill, htasks⟩ := still_alignHeld (still_buildPath h)
  unfold retryPath
  dsimp only
  split
  · exact ⟨hstill, htasks⟩
  · refine ⟨hstill, fun k hk => ?_⟩
    obtain hk | hk := List.mem_append.1 hk
    · exact htasks k hk
    · rw [List.mem_singleton.1 hk]
      rfl

theorem still_extendStart (h : Still v i r s) : Still v i r (extendStart v s).2 ∧ ∀ k ∈ (extendStart v s).1, Resting v k := by
  unfold extendStart
  split
  · exact ⟨h, nofun⟩
  · split
    · split
      · exact still_retryPath h
      · split
        · exact still_retryPath h
        · exact ⟨h, nofun⟩
      · exact ⟨h, fun k hk => by rw [List.mem_singleton.1 hk]; rfl⟩
    · exact ⟨h, nofun⟩

theorem wantedSegment_of_still (h : Still v i r s) : wantedSegment v s = none := by
  obtain ⟨x, hx, hheld, hneed⟩ := h.record
  have hsatisfied : x.satisfied s.layout.grantWindow = true := by
    unfold Vehicle.satisfied
    simp [hneed, hheld]
  unfold wantedSegment
  rw [hx, Option.bind_some, hsatisfied]
  simp

theorem still_taskStep (h : Still v i r s) {k : Task} (hk : Resting v k) :
    Still v i r (taskStep k s).2 ∧ ∀ k' ∈ (taskStep k s).1, Resting v k' := by
  by_cases hm : s.mode = .dispatching
  · cases k with
    | arb j | scanZone z j =>
      rw [taskStep_of_unarbitrated h.quiet (by simp)]
      exact ⟨h, nofun⟩
    | scanAll j | regain u => exact hk.elim
    | extend u =>
      cases (hk : u = v)
      unfold taskStep
      rw [if_pos hm]
      exact still_extendStart h
    | rounds u =>
      cases (hk : u = v)
      unfold taskStep
      rw [if_pos hm]
      dsimp only
      rw [extendRound, wantedSegment_of_still h]
      exact ⟨h, nofun⟩
  · rw [taskStep_of_not_dispatching hm]
    exact ⟨h, nofun⟩

theorem still_runTasks : ∀ (n : Nat) (ts : List Task) {s : State}, Still v i r s → (∀ k ∈ ts, Resting v k) →
    Still v i r (runTasks n ts s)
  | 0, _, _, h, _ => h
  | _ + 1, [], _, h, _ => h
  | n + 1, k :: ts, _, h, hts => by
    obtain ⟨hstill, htasks⟩ := still_taskStep h (hts k List.mem_cons_self)
    refine still_runTasks n _ hstill fun k' hk' => ?_
    obtain hk' | hk' := List.mem_append.1 hk'
    · exact htasks k' hk'
    · exact hts k' (List.mem_cons_of_mem _ hk')

theorem still_rebuild (h : Still v i r s) : Still v i r (rebuild v s) := by
  unfold rebuild rebuildWith
  split
  · exact h
  · split
    · obtain ⟨hstill, htasks⟩ := still_alignHeld (still_buildPath h)
      refine still_runTasks _ _ hstill ?_
      split
      · exact htasks
      · intro k hk
        obtain hk | hk := List.mem_append.1 hk
        · exact htasks k hk
        · rw [List.mem_singleton.1 hk]
          rfl
    · exact h

end

end Sys2Proof.Machine

/-! PROOFS. Layer: the record of a vehicle that joins (R71, R73 to R75). -/

namespace Sys2Proof.Machine

open Sys2Proof.Says

/-! ### A joined record stands (R71, R74) -/

/-- The state of a joined vehicle. -/
def joinState (conflict : Bool) (w : WorkState) : VState := if conflict then .faulted w else .work w

/-- The vehicle takes it. -/
def taking (v : Nat) (st : VState) (s : State) : State := noteEligible v (updVehicle v (fun x => { x with state := st }) s)

/-- A HOLD is due where the vehicle joined in conflict. -/
def stoppedIf (conflict : Bool) (v : Nat) (s : State) : State := if conflict then makeHoldDue v s else s

/-- The path is built. -/
def settledIn (v : Nat) (conflict : Bool) (r : WorkState × State) : State :=
  rebuild v (stoppedIf conflict v (taking v (joinState conflict r.1) r.2))

theorem settleJoin_eq (v : Nat) (j : JoinData) (d : Detached) (conflict : Bool) (s : State) :
    settleJoin v j d conflict s =
      failAside d (withdrawReturned v d.returned (settledIn v conflict (reconcile v j d (makeGrantDue v s)))) := rfl

section
variable {v : Nat} {c : Bool} {s : State} {st : VState} {x : Vehicle} {r : WorkState × State}

theorem vehicle_taking (hx : vehicle s v = some x) : vehicle (taking v st s) v = some { x with state := st } := by
  rw [taking, vehicle_noteEligible, vehicle_updVehicle v v (fun x => { x with state := st }) s fun _ h => h, hx]
  simp

/-- The record with the HOLD of a conflict. -/
def stoppedRecord (c : Bool) (x : Vehicle) : Vehicle :=
  if c then { x with due := { x.due with hold := some 0, stopMark := true } } else x

theorem vehicle_stoppedIf (hx : vehicle s v = some x) : vehicle (stoppedIf c v s) v = some (stoppedRecord c x) := by
  unfold stoppedIf stoppedRecord
  split
  · rw [vehicle_makeHoldDue, hx]
    simp
  · exact hx

theorem moves_stoppedIf (c : Bool) (v : Nat) (s : State) : (stoppedIf c v s).mq = s.mq ∧ (stoppedIf c v s).asu = s.asu := by
  unfold stoppedIf makeHoldDue
  split
  · split <;> exact ⟨rfl, rfl⟩
  · exact ⟨rfl, rfl⟩

theorem moves_taking (v : Nat) (st : VState) (s : State) :
    (taking v st s).mq = s.mq ∧ (taking v st s).asu.preempts = s.asu.preempts := by
  unfold taking noteEligible
  split
  · rw [setPassDue_eq]
    exact ⟨rfl, rfl⟩
  · exact ⟨rfl, rfl⟩

theorem movesKept_settledIn (v : Nat) (c : Bool) (r : WorkState × State) : MovesKept r.2 (settledIn v c r) := by
  refine MovesKept.trans (.inl ?_) (onward_rebuild v _).moves
  rw [(moves_stoppedIf c v _).1, (moves_taking v _ _).1]

theorem preempts_settledIn (v : Nat) (c : Bool) (r : WorkState × State) :
    (settledIn v c r).asu.preempts = r.2.asu.preempts := by
  rw [settledIn, (onward_rebuild v _).preempts, (moves_stoppedIf c v _).2, (moves_taking v _ _).2]

/-- The record as the path is built. -/
theorem vehicle_before_settledIn (hx : vehicle r.2 v = some x) :
    vehicle (stoppedIf c v (taking v (joinState c r.1) r.2)) v = some (stoppedRecord c { x with state := joinState c r.1 }) :=
  vehicle_stoppedIf (vehicle_taking hx)

theorem vehicle_settledIn (hx : vehicle r.2 v = some x) :
    ∃ y, vehicle (settledIn v c r) v = some y ∧ Tended (stoppedRecord c { x with state := joinState c r.1 }) y :=
  (onward_rebuild v _).vehicle (vehicle_before_settledIn hx)

theorem held_stoppedRecord (x : Vehicle) : (stoppedRecord c x).held = x.held := by
  unfold stoppedRecord
  split <;> rfl

theorem heads_settledIn {i : Nat} (hx : vehicle r.2 v = some x) (hi : x.held.head? = some i) : Heads v i (settledIn v c r) := by
  have hstand : Heads v i (stoppedIf c v (taking v (joinState c r.1) r.2)) :=
    ⟨_, vehicle_before_settledIn hx, by rw [held_stoppedRecord]; exact hi⟩
  exact heads_rebuildWith _ v hstand

/-- A vehicle that joins in conflict has no path built. -/
theorem vehicle_settledIn_of_conflict (hx : vehicle r.2 v = some x) :
    vehicle (settledIn v true r) v = some (stoppedRecord true { x with state := joinState true r.1 }) := by
  have hx' := vehicle_before_settledIn (c := true) hx
  unfold settledIn rebuild rebuildWith
  rw [hx']
  dsimp only
  rw [if_neg (by simp [stoppedRecord, joinState, Vehicle.isWorking])]
  exact hx'

theorem still_settledIn {i : Nat} {q : Nat → Option Res} (h : Still v i q r.2) : Still v i q (settledIn v c r) := by
  have htake : Still v i q (taking v (joinState c r.1) r.2) := by
    have hset : Still v i q (updVehicle v (fun x => { x with state := joinState c r.1 }) r.2) :=
      h.of_record (fun _ h => h) (fun _ h => h) fun _ => rfl
    unfold taking noteEligible
    split
    · rw [setPassDue_eq]
      exact ⟨hset.record, hset.quiet, hset.res⟩
    · exact hset
  refine still_rebuild ?_
  obtain ⟨x, hx, hheld, hneed⟩ := htake.record
  refine ⟨⟨_, vehicle_stoppedIf hx, ?_, ?_⟩, ?_, fun k => ?_⟩
  · rw [held_stoppedRecord, hheld]
  · unfold stoppedRecord
    split <;> exact hneed
  · unfold stoppedIf
    split
    · exact (reporting_makeHoldDue v _).unarbitrated htake.quiet
    · exact htake.quiet
  · unfold stoppedIf
    split
    · rw [resOf_congr (makeHoldDue_rest _ _).2.2.1]
      exact htake.res k
    · exact htake.res k

end

/-! ### Carrier and move (R75) -/

section
variable {v : Nat} {j : JoinData} {d : Detached} {s : State} {x : Vehicle} {y : Move}

theorem reconcile_empty (hp : j.grip.present = false) : reconcile v j d s = (.idle, s) := by
  unfold reconcile
  rw [if_neg (by simp [hp])]

theorem reconcile_link (hp : j.grip.present = true) (hy : claimable j d s = some y) :
    reconcile v j d s = (.laden, linkMove v y s) := by
  unfold reconcile
  rw [if_pos hp, hy]

theorem reconcile_unrouted (hp : j.grip.present = true) (hy : claimable j d s = none) :
    reconcile v j d s = (.laden, createUnrouted v j.grip.carrier s) := by
  unfold reconcile
  rw [if_pos hp, hy]

theorem claimable_of_taken (hy : findMove s j.move = some y) (hm : j.move ≠ 0) (hc : y.carrier = j.grip.carrier)
    (hne : j.grip.carrier ≠ 0) (hfree : y.state = .waiting ∨ d.aside = some y.id) : claimable j d s = some y := by
  unfold claimable
  rw [hy]
  dsimp only
  rw [if_pos ⟨hm, hc, hne, hfree⟩]

theorem claimable_of_not_taken (h : j.move = 0 ∨ j.grip.carrier = 0 ∨ ∀ y, findMove s j.move = some y →
    y.carrier ≠ j.grip.carrier ∨ y.state ≠ .waiting ∧ d.aside ≠ some y.id) : claimable j d s = none := by
  unfold claimable
  split
  next y hy =>
    refine if_neg fun ⟨hm, hc, hne, hfree⟩ => ?_
    obtain h | h | h := h
    · exact hm h
    · exact hne h
    · obtain h | ⟨hstate, haside⟩ := h y hy
      · exact h hc
      · exact hfree.elim hstate haside
  next => rfl

theorem findMove_of_claimable (h : claimable j d s = some y) : findMove s j.move = some y := by
  unfold claimable at h
  split at h
  next z hz =>
    split at h
    · cases h
      exact hz
    · cases h
  next => cases h

/-- The record the move takes. -/
def relinked (v : Nat) (y : Move) (s : State) : State :=
  if (rejoined s v y).state = y.state then setMove y.id (fun _ => rejoined s v y) s
  else changeMove y.id (fun _ => rejoined s v y) s

theorem linkMove_eq (v : Nat) (y : Move) (s : State) : linkMove v y s =
    updVehicle v (fun x => { x with move := some y.id, carrier := some y.carrier }) (relinked v y s) := rfl

theorem reporting_relinked (v : Nat) (y : Move) (s : State) : Reporting s (relinked v y s) := by
  unfold relinked
  split
  · exact reporting_setMove _ _ s
  · exact reporting_changeMove _ _ s

theorem vehicle_relinked (v : Nat) (y : Move) (s : State) (u : Nat) : vehicle (relinked v y s) u = vehicle s u := by
  unfold relinked
  split
  · exact vehicle_setMove _ _ _ _
  · exact vehicle_changeMove _ _ _ _

theorem vehicle_linkMove (hx : vehicle s v = some x) :
    vehicle (linkMove v y s) v = some { x with move := some y.id, carrier := some y.carrier } := by
  rw [linkMove_eq, vehicle_updVehicle v v (fun x => { x with move := some y.id, carrier := some y.carrier }) _ fun _ h => h,
    vehicle_relinked, hx]
  simp

theorem rejoined_fields (s : State) (v : Nat) (y : Move) : (rejoined s v y).id = y.id
    ∧ (rejoined s v y).vehicle = some v ∧ (rejoined s v y).carrier = y.carrier ∧ (rejoined s v y).age = y.age := by
  unfold rejoined
  split <;> exact ⟨rfl, rfl, rfl, rfl⟩

theorem findMove_linkMove (hy : findMove s y.id = some y) :
    ∃ w, findMove (linkMove v y s) y.id = some w ∧ w = { rejoined s v y with confirm := w.confirm } := by
  rw [linkMove_eq, findMove_updVehicle]
  have hid := (rejoined_fields s v y).1
  unfold relinked
  split
  · exact ⟨_, findMove_setMove_const hy hid, rfl⟩
  · by_cases hstate : (rejoined s v y).state = .assigned
    · exact findMove_changeMove_assigned hy hid hstate
    · exact ⟨_, findMove_changeMove hy hid hstate, rfl⟩

theorem moveKept_linkMove {k : Nat} (hk : k ≠ y.id) : MoveKept k s (linkMove v y s) := by
  have hid := (rejoined_fields s v y).1
  refine MoveKept.trans (t := relinked v y s) ?_ (.inl rfl)
  unfold relinked
  split
  · exact .inl (findMove_setMove_of_ne (fun _ _ => hid) hk s)
  · exact moveKept_changeMove (fun _ _ => hid) hk s

theorem preempts_linkMove_subset : (linkMove v y s).asu.preempts ⊆ s.asu.preempts := by
  show (relinked v y s).asu.preempts ⊆ _
  unfold relinked
  split
  · exact List.filter_subset_self _
  · exact preempts_changeMove_subset _ _ _

theorem preempts_createUnrouted (v c : Nat) (s : State) : (createUnrouted v c s).asu.preempts = s.asu.preempts := by
  unfold createUnrouted
  split
  · exact (preempts_reportMove _ _ _ _ _).trans rfl
  · rfl

theorem preempts_reconcile_subset (v : Nat) (j : JoinData) (d : Detached) (s : State) :
    (reconcile v j d s).2.asu.preempts ⊆ s.asu.preempts := by
  unfold reconcile
  split
  · split
    · exact preempts_linkMove_subset
    · rw [preempts_createUnrouted]
      exact fun _ h => h
  · exact fun _ h => h

/-- `x` is the record `x₀` with a GRANT due, and the move and carrier that were reconciled. -/
def Granted (x₀ x : Vehicle) : Prop :=
  x = { x₀ with move := x.move, carrier := x.carrier, due := { x₀.due with grant := some 0 } }

theorem vehicle_granted {x₀ : Vehicle} (hx : vehicle s v = some x₀) (hstate : x₀.state ≠ .arriving) :
    vehicle (makeGrantDue v s) v = some { x₀ with due := { x₀.due with grant := some 0 } } := by
  rw [vehicle_makeGrantDue_eq, hx, Option.map_some, if_pos rfl, grantedRecord, if_neg hstate]

theorem granted_reconcile {x₀ : Vehicle} (hx : vehicle s v = some x₀) (hstate : x₀.state ≠ .arriving) :
    ∃ x, vehicle (reconcile v j d (makeGrantDue v s)).2 v = some x ∧ Granted x₀ x := by
  have hx' := vehicle_granted hx hstate
  unfold reconcile
  split
  · split
    · exact ⟨_, vehicle_linkMove hx', rfl⟩
    · unfold createUnrouted
      split
      · refine ⟨{ x₀ with
            due := { x₀.due with grant := some 0 }, move := some (freshMoveId (makeGrantDue v s))
            carrier := some j.grip.carrier }, ?_, rfl⟩
        dsimp only
        rw [vehicle_reportMove, vehicle_updVehicle v v (fun y => { y with
            move := some (freshMoveId (makeGrantDue v s)), carrier := some j.grip.carrier }) _ fun _ h => h,
          vehicle_appendMove, hx']
        simp
      · refine ⟨{ x₀ with
            due := { x₀.due with grant := some 0 }, move := none, carrier := some j.grip.carrier }, ?_, rfl⟩
        rw [vehicle_updVehicle v v (fun y => { y with move := none, carrier := some j.grip.carrier }) _ fun _ h => h, hx']
        simp
  · exact ⟨_, hx', rfl⟩

end

end Sys2Proof.Machine

/-! PROOFS. O41, part 1: the JOIN of an unknown vehicle (R71, R72, R74 to R76). -/

namespace Sys2Proof.Machine

open Sys2Proof.Says

/-! ### The record a JOIN leaves (R71) -/

/-- What a JOIN that says `seg` at `s` makes of a record before carrier and move are reconciled. -/
structure JoinBase (s : State) (e : TrackEntry) (seg : Nat) (x : Vehicle) : Prop where
  state : x.state = .work .idle
  held : x.held = [seg]
  move : x.move = none
  nextMove : x.nextMove = none
  carrier : x.carrier = none
  need : x.need = 0
  pacing : x.pacing = e.paced
  heardBy : x.heardBy = some (s.board.now + s.layout.tuning.tSilent)
  due : x.due = DueSet.empty

section
variable {s : State} {e : TrackEntry} {seg : Nat} {x₀ x : Vehicle} {c : Bool} {r : WorkState × State}

theorem JoinBase.not_arriving (h : JoinBase s e seg x₀) : x₀.state ≠ .arriving := by
  rw [h.state]
  nofun

theorem joinedAs_settledIn (hx : vehicle r.2 e.src = some x) (hg : Granted x₀ x) (hb : JoinBase s e seg x₀) :
    ∃ y, JoinedAs s (settledIn e.src c r) e seg (joinState c r.1) y ∧ y.move = x.move ∧ y.carrier = x.carrier
      ∧ y.due.withdraw = [] ∧ (c = true → y.due.hold = some 0 ∧ y.due.stopMark = true) := by
  have hhead : x.held.head? = some seg := by
    rw [hg, hb.held]
    rfl
  obtain ⟨y, hy, ht⟩ := vehicle_settledIn (c := c) hx
  obtain ⟨y', hy', hhead'⟩ := heads_settledIn (c := c) hx hhead
  cases hy.symm.trans hy'
  have hrest := ht.rest
  have hgrant : y.due.grant = some 0 := by
    obtain h | h := ht.grant
    · rw [h, stoppedRecord, hg]
      split <;> rfl
    · exact h
  refine ⟨y, ⟨hy, ?_, hhead', ?_, ?_, ?_, ?_, hgrant⟩, ?_, ?_, ?_, fun hc => ?_⟩
  · rw [hrest]
    unfold stoppedRecord
    split <;> rfl
  · rw [hrest]
    unfold stoppedRecord
    split <;> exact (congrArg Vehicle.nextMove hg).trans hb.nextMove
  · rw [hrest]
    unfold stoppedRecord
    split <;> exact (congrArg Vehicle.need hg).trans hb.need
  · rw [hrest]
    unfold stoppedRecord
    split <;> exact (congrArg Vehicle.pacing hg).trans hb.pacing
  · rw [hrest]
    unfold stoppedRecord
    split <;> exact (congrArg Vehicle.heardBy hg).trans hb.heardBy
  · rw [hrest]
    unfold stoppedRecord
    split <;> rfl
  · rw [hrest]
    unfold stoppedRecord
    split <;> rfl
  · have hw : x.due.withdraw = [] := by
      rw [hg, hb.due]
      rfl
    rw [hrest]
    unfold stoppedRecord
    split <;> exact hw
  · rw [hrest, hc]
    exact ⟨rfl, rfl⟩

end

/-! ### What carrier and move come to (R75) -/

/-- The record stands, whatever the vehicle carries. -/
def joinedState (v : Nat) (c : Bool) (j : JoinData) (d : Detached) (a : State) : State :=
  settledIn v c (reconcile v j d (makeGrantDue v a))

section
variable {s a : State} {e : TrackEntry} {seg : Nat} {x₀ : Vehicle} {c : Bool} {j : JoinData} {d : Detached}

/-- The fields a joined record has, with its working state, its move and its carrier. -/
def JoinsWith (s t : State) (e : TrackEntry) (seg : Nat) (c : Bool) (w : WorkState) (m k : Option Nat) : Prop :=
  ∃ y, JoinedAs s t e seg (joinState c w) y ∧ y.move = m ∧ y.carrier = k ∧ y.due.withdraw = []
    ∧ (c = true → y.due.hold = some 0 ∧ y.due.stopMark = true)

theorem joinsWith_of_reconciled {x : Vehicle} {w : WorkState} {t : State} (hx : vehicle t e.src = some x) (hg : Granted x₀ x)
    (hb : JoinBase s e seg x₀) : JoinsWith s (settledIn e.src c (w, t)) e seg c w x.move x.carrier :=
  joinedAs_settledIn (r := (w, t)) hx hg hb

theorem joinedState_empty (hv : vehicle a e.src = some x₀) (hb : JoinBase s e seg x₀) (hp : j.grip.present = false) :
    JoinsWith s (joinedState e.src c j d a) e seg c .idle none none ∧ MovesKept a (joinedState e.src c j d a) := by
  unfold joinedState
  rw [reconcile_empty hp]
  have hjoins := joinsWith_of_reconciled (c := c) (w := .idle) (vehicle_granted hv hb.not_arriving) rfl hb
  rw [hb.move, hb.carrier] at hjoins
  exact ⟨hjoins, MovesKept.trans (.inl rfl) (movesKept_settledIn e.src c (.idle, makeGrantDue e.src a))⟩

theorem joinedState_link {y : Move} (hv : vehicle a e.src = some x₀) (hb : JoinBase s e seg x₀) (hp : j.grip.present = true)
    (hy : claimable j d a = some y) :
    JoinsWith s (joinedState e.src c j d a) e seg c .laden (some y.id) (some y.carrier)
      ∧ (∃ w, findMove (joinedState e.src c j d a) y.id = some w ∧ w = { rejoined a e.src y with confirm := w.confirm })
      ∧ ∀ k, k ≠ y.id → MoveKept k a (joinedState e.src c j d a) := by
  have hy' : claimable j d (makeGrantDue e.src a) = some y := hy
  have hfound : findMove (makeGrantDue e.src a) y.id = some y := by
    have := findMove_of_claimable hy'
    rwa [← (findMove_id this).1] at this
  have hkept := movesKept_settledIn e.src c (.laden, linkMove e.src y (makeGrantDue e.src a))
  unfold joinedState
  rw [reconcile_link hp hy']
  have hx := vehicle_linkMove (y := y) (vehicle_granted hv hb.not_arriving)
  refine ⟨joinsWith_of_reconciled (x₀ := x₀) hx rfl hb, ?_, fun k hk => ?_⟩
  · obtain ⟨w, hw, hweq⟩ := findMove_linkMove (v := e.src) hfound
    obtain ⟨z, hz, hzeq⟩ := (hkept.move y.id).some hw
    refine ⟨z, hz, hzeq.trans ?_⟩
    rw [hweq]
    rfl
  · exact MoveKept.trans (t := makeGrantDue e.src a) (.inl rfl) ((moveKept_linkMove hk).trans (hkept.move k))

theorem joinedState_unrouted (hv : vehicle a e.src = some x₀) (hb : JoinBase s e seg x₀) (hp : j.grip.present = true)
    (hy : claimable j d a = none) (hroom : a.mq.moves.length < 128) :
    JoinsWith s (joinedState e.src c j d a) e seg c .laden (some (freshMoveId a)) (some j.grip.carrier)
      ∧ (∃ n, findMove (joinedState e.src c j d a) (freshMoveId a) =
          some { unroutedRecord (freshMoveId a) e.src j.grip.carrier with seq := n })
      ∧ ∀ k, k ≠ freshMoveId a → MoveKept k a (joinedState e.src c j d a) := by
  have hroom' : (makeGrantDue e.src a).mq.moves.length < 128 := hroom
  have hkept := movesKept_settledIn e.src c (.laden, createUnrouted e.src j.grip.carrier (makeGrantDue e.src a))
  unfold joinedState
  rw [reconcile_unrouted hp (show claimable j d (makeGrantDue e.src a) = none from hy)]
  have hx := vehicle_createUnrouted (c := j.grip.carrier) hroom' (vehicle_granted hv hb.not_arriving)
  refine ⟨joinsWith_of_reconciled (x₀ := x₀) hx rfl hb, ?_, fun k hk => ?_⟩
  · exact ⟨_, (hkept.move _).absent (findMove_createUnrouted hroom') rfl⟩
  · exact MoveKept.trans (t := makeGrantDue e.src a) (.inl rfl) ((moveKept_createUnrouted hroom' hk).trans (hkept.move k))

end

/-! ### The segment of a JOIN (R45) -/

section
variable {s : State} {v i : Nat}

theorem examineJoin_of_clear (h : resOf s i = some .free ∨ resOf s i = some .blocked) :
    joinMarks v i s = true ∧ joinConflicts i s = false ∧ ∃ q, examineJoin v i s = setRes i q s
      ∧ (resOf s i = some .free → q = .occupied v none) := by
  unfold joinMarks joinConflicts examineJoin
  obtain h | h := h
  · rw [h]
    exact ⟨rfl, rfl, _, rfl, fun _ => rfl⟩
  · rw [h]
    exact ⟨rfl, rfl, _, rfl, fun h => by cases h⟩

theorem examineJoin_of_conflict {u : Nat} (h : resOf s i = some (.reserved u) ∨ resOf s i = some (.occupied u none)) :
    joinMarks v i s = true ∧ joinConflicts i s = true
      ∧ examineJoin v i s = raiseConflict v i (setRes i (.occupied u (some v)) s) := by
  unfold joinMarks joinConflicts examineJoin
  obtain h | h := h <;> rw [h] <;> exact ⟨rfl, rfl, rfl⟩

theorem examineJoin_of_unmarked (h : (resOf s i).bind (markFor v) = none) :
    joinMarks v i s = false ∧ examineJoin v i s = raiseConflict v i s := by
  refine ⟨by rw [joinMarks, h]; rfl, ?_⟩
  unfold examineJoin
  split
  next hf => rw [hf] at h; cases h
  next hb => rw [hb] at h; cases h
  next q _ _ hq =>
    have hnone : markFor v q = none := by rwa [hq, Option.bind_some] at h
    rw [hnone]
  next => rfl

theorem vehicle_examineJoin (v i u : Nat) (s : State) : vehicle (examineJoin v i s) u = vehicle s u := by
  unfold examineJoin raiseConflict
  split
  · rfl
  · rfl
  · split
    · exact vehicle_raise _ _ _ _
    · exact vehicle_raise _ _ _ _
  · exact vehicle_raise _ _ _ _

theorem preempts_examineJoin (v i : Nat) (s : State) : (examineJoin v i s).asu.preempts = s.asu.preempts := by
  have hraise (t : State) (d : Detail) : (raise .positionConflict d t).asu.preempts = t.asu.preempts :=
    preempts_of_raised (raised_raise _ _ _)
  unfold examineJoin raiseConflict
  split
  · rfl
  · rfl
  · split
    · exact (hraise _ _).trans rfl
    · exact hraise _ _
  · exact hraise _ _

end

/-! ### The command -/

section
variable {s : State} {e : TrackEntry} {rest : List TrackEntry} {c : Instr} {seg carrier m : Nat} {present : Bool}

/-- What a JOIN says. -/
def joinData (e : TrackEntry) (seg : Nat) (present : Bool) (carrier m : Nat) : JoinData :=
  { seg := seg, grip := { present := present, carrier := carrier }, move := m, paced := e.paced }

theorem exec_of_unknown_joins (hs : TakesEntry s e rest) (hj : Joins c e.body seg present carrier m)
    (hx : vehicle s e.src = none) :
    exec c s = .next (joinUnknown e.src (joinData e seg present carrier m) (popTrack rest s)) := by
  have hx' : vehicle (popTrack rest s) e.src = none := hx
  obtain ⟨rfl, hb⟩ | ⟨rfl, ⟨need, hb⟩, rfl, rfl⟩ := hj
  · refine congrArg Host.Outcome.next ((takeTrack_of_taken hs (by rw [hb]; rfl)).trans ?_)
    unfold takeJoin
    rw [hb]
    dsimp only
    rw [hx']
    rfl
  · refine congrArg Host.Outcome.next ((takeTrack_of_taken hs (by rw [hb]; rfl)).trans ?_)
    unfold takePositionFrame
    rw [hb]
    dsimp only
    rw [hx']
    rfl

/-- A JOIN of an id without a record detaches nothing. -/
def nothing : Detached := { returned := [], aside := none }

/-- The record made, and the segment examined. -/
def entered (v : Nat) (j : JoinData) (s : State) : State := examineJoin v j.seg (addRecord (joinRecord v j s) s)

theorem joinUnknown_of_marked {v : Nat} {j : JoinData} (hroom : s.roster.length < 64) (hmarks : joinMarks v j.seg s = true) :
    joinUnknown v j s = joinedState v (joinConflicts j.seg s) j nothing (entered v j s) := by
  unfold joinUnknown
  rw [if_pos (show rosterHasRoom s = true from decide_eq_true hroom), if_pos hmarks, settleJoin_eq]
  rfl

theorem vehicle_entered {v : Nat} {j : JoinData} (hroom : s.roster.length < 64) (hx : vehicle s v = none) :
    vehicle (entered v j s) v = some (joinRecord v j s) := by
  rw [entered, vehicle_examineJoin, vehicle_addRecord hroom (by rw [inRoster_eq]; exact congrArg Option.isSome hx)]
  exact if_pos rfl

theorem joinBase_joinRecord : JoinBase s e seg (joinRecord e.src (joinData e seg present carrier m) (popTrack rest s)) :=
  ⟨rfl, rfl, rfl, rfl, rfl, rfl, rfl, rfl, rfl⟩

end

theorem joinUnknown_of_clear {s : State} {e : TrackEntry} {seg carrier m : Nat} {present : Bool} (hx : vehicle s e.src = none)
    (hroom : s.roster.length < 64) (hclear : resOf s seg = some .free ∨ resOf s seg = some .blocked) :
    ∃ a x₀, joinUnknown e.src (joinData e seg present carrier m) s =
        joinedState e.src false (joinData e seg present carrier m) nothing a
      ∧ a.mq = s.mq ∧ vehicle a e.src = some x₀ ∧ x₀ = joinRecord e.src (joinData e seg present carrier m) s := by
  obtain ⟨hmarks, hconflict, -⟩ := examineJoin_of_clear (v := e.src) hclear
  have hclear' := hclear
  rw [← resOf_congr (addRecord_rest (joinRecord e.src (joinData e seg present carrier m) s) s).2.2.1] at hclear'
  obtain ⟨-, -, q, hexamined, -⟩ := examineJoin_of_clear (v := e.src) hclear'
  refine ⟨_, _, (joinUnknown_of_marked hroom hmarks).trans ?_, ?_, vehicle_entered hroom hx, rfl⟩
  · rw [show joinConflicts (joinData e seg present carrier m).seg s = false from hconflict]
  · rw [entered, show examineJoin e.src (joinData e seg present carrier m).seg _ = _ from hexamined,
      (setRes_rest _ _ _).2.2.2.1, (addRecord_rest _ _).2.2.2.1]

theorem unknownJoins : Says.UnknownJoins := by
  intro s e rest c seg carrier m present hs hj hx hroom hclear
  have hexec := exec_of_unknown_joins hs hj hx
  obtain ⟨a, x₀, hjoin, hmq, hv, hx₀⟩ := joinUnknown_of_clear (s := popTrack rest s) (e := e) (carrier := carrier) (m := m)
    (present := present) hx hroom hclear
  have hbase : JoinBase s e seg x₀ := by
    rw [hx₀]
    exact joinBase_joinRecord
  have hfound (k : Nat) : findMove a k = findMove s k := findMove_congr (congrArg MoveQueue.moves hmq) k
  rw [hjoin] at hexec
  refine ⟨fun hp => ?_, fun hp hm hne hwaits => ?_, fun hp hnone hlen => ?_⟩
  · obtain ⟨⟨y, hy, hmove, hcarrier, -⟩, -⟩ := joinedState_empty (c := false) (d := nothing)
      (j := joinData e seg present carrier m) hv hbase hp
    exact ⟨_, y, hexec, hy, hmove, hcarrier⟩
  · obtain ⟨z, hz, hstate, hcarrier⟩ := hwaits
    obtain ⟨hzid, -⟩ := findMove_id hz
    have hclaim : claimable (joinData e seg present carrier m) nothing a = some z :=
      claimable_of_taken ((hfound m).trans hz) hm hcarrier hne (.inl hstate)
    obtain ⟨⟨y, hy, hymove, hycarrier, -⟩, ⟨w, hw, hweq⟩, -⟩ := joinedState_link (c := false) hv hbase hp hclaim
    obtain ⟨-, hvehicle, hcar, -⟩ := rejoined_fields a e.src z
    have hcarrying : (rejoined a e.src z).state = .carrying := by
      unfold rejoined
      rw [hstate]
    rw [hzid] at hymove hw
    exact ⟨_, y, w, hexec, hy, hymove, by rw [hycarrier, hcarrier], hw, by rw [hweq]; exact hcarrying,
      by rw [hweq]; exact hvehicle, by rw [hweq]; exact hcar.trans hcarrier⟩
  · have hclaim : claimable (joinData e seg present carrier m) nothing a = none :=
      claimable_of_not_taken (hnone.imp id (Or.imp id fun h z hz => by
        obtain h | h := h z ((hfound m).symm.trans hz)
        · exact .inr ⟨h, nofun⟩
        · exact .inl h))
    have hlen' : a.mq.moves.length < 128 := by
      rw [hmq]
      exact hlen
    obtain ⟨⟨y, hy, hymove, hycarrier, -⟩, ⟨n, hz⟩, -⟩ := joinedState_unrouted (c := false) hv hbase hp hclaim hlen'
    refine ⟨_, y, _, freshMoveId a, hexec, hy, hymove, hycarrier, ?_, fun k hk htop => ?_, hz, rfl, rfl, rfl, rfl⟩
    · rw [← hfound]
      exact freshMoveId_free a hlen'.le
    · rw [← hfound]
      exact freshMoveId_highest hlen' hk htop

/-! ### A JOIN that finds no room, another vehicle, or nothing to mark (R45, R72, R74) -/

theorem tget_strayHolds_makeHoldDue {s : State} {v : Nat} (h : vehicle s v = none) :
    tget v (makeHoldDue v s).tli.strayHolds = some 0 := by
  unfold makeHoldDue
  rw [if_neg (by rw [inRoster_eq, h]; nofun)]
  exact (tget_tput v v 0 s.tli.strayHolds).trans (if_pos rfl)

theorem vehicle_makeHoldDue_of_none {s : State} {v : Nat} (h : vehicle s v = none) : vehicle (makeHoldDue v s) v = none := by
  rw [vehicle_makeHoldDue, h]
  rfl

theorem flagSet_makeHoldDue (v : Nat) (k : EventKind) (s : State) : flagSet (makeHoldDue v s) k = flagSet s k := by
  unfold makeHoldDue
  split <;> rfl

theorem unknownJoinStopped : Says.UnknownJoinStopped := by
  intro s e rest c seg carrier m present hs hj hx
  have hexec := exec_of_unknown_joins hs hj hx
  have hx' : vehicle (popTrack rest s) e.src = none := hx
  refine ⟨fun hfull => ?_, fun hroom hheld hp => ?_, fun hroom hnone => ?_⟩
  · have hjoin : joinUnknown e.src (joinData e seg present carrier m) (popTrack rest s) =
        makeHoldDue e.src (raise .rosterFull { noDetail with vehicle := e.src } (popTrack rest s)) := by
      unfold joinUnknown
      rw [if_neg (show ¬ rosterHasRoom (popTrack rest s) = true from fun h => by
        have := of_decide_eq_true h
        exact absurd this (not_lt.2 hfull))]
    have hgone : vehicle (raise .rosterFull { noDetail with vehicle := e.src } (popTrack rest s)) e.src = none :=
      (vehicle_raise _ _ _ _).trans hx'
    rw [hjoin] at hexec
    refine ⟨_, hexec, ?_, vehicle_makeHoldDue_of_none hgone, tget_strayHolds_makeHoldDue hgone, ?_⟩
    · rw [flagSet_makeHoldDue]
      exact flagSet_raise _ _ _
    · rw [(makeHoldDue_rest _ _).2.2.1, (raise_rest _ _ _).2.2.1]
      rfl
  · obtain ⟨u, hu⟩ := hheld
    obtain ⟨hmarks, hconflict, -⟩ := examineJoin_of_conflict (v := e.src) (s := popTrack rest s) hu
    have hu' := hu
    rw [← resOf_congr (s := s) (t := addRecord (joinRecord e.src (joinData e seg present carrier m) (popTrack rest s)) (popTrack rest s))
      (addRecord_rest _ _).2.2.1] at hu'
    obtain ⟨-, -, hexamined⟩ := examineJoin_of_conflict (v := e.src) hu'
    have hjoin := joinUnknown_of_marked (s := popTrack rest s) (j := joinData e seg present carrier m) hroom hmarks
    rw [show joinConflicts (joinData e seg present carrier m).seg (popTrack rest s) = true from hconflict] at hjoin
    rw [hjoin] at hexec
    have hv := vehicle_entered (s := popTrack rest s) (j := joinData e seg present carrier m) hroom hx'
    have hflag : flagSet (entered e.src (joinData e seg present carrier m) (popTrack rest s)) .positionConflict = true := by
      rw [entered, show examineJoin e.src (joinData e seg present carrier m).seg _ = _ from hexamined]
      exact flagSet_raise _ _ _
    have hacts := acts_settleJoin e.src (joinData e seg present carrier m) nothing true
      (entered e.src (joinData e seg present carrier m) (popTrack rest s))
    obtain ⟨⟨y, hy, -, -, -, hstop⟩, -⟩ := joinedState_empty (c := true) (d := nothing)
      (j := joinData e seg present carrier m) hv (joinBase_joinRecord (s := s) (rest := rest)) hp
    obtain ⟨hhold, hmark⟩ := hstop rfl
    exact ⟨_, y, hexec, hacts.flagSet hflag, hy, hhold, hmark⟩
  · obtain ⟨hmarks, hexamined⟩ := examineJoin_of_unmarked (v := e.src) (s := popTrack rest s) hnone
    have hjoin : joinUnknown e.src (joinData e seg present carrier m) (popTrack rest s) =
        makeHoldDue e.src (raiseConflict e.src seg (popTrack rest s)) := by
      unfold joinUnknown
      rw [if_pos (show rosterHasRoom (popTrack rest s) = true from decide_eq_true hroom),
        show joinMarks e.src (joinData e seg present carrier m).seg (popTrack rest s) = false from hmarks, ← hexamined]
      rfl
    have hgone : vehicle (raiseConflict e.src seg (popTrack rest s)) e.src = none := (vehicle_raise _ _ _ _).trans hx'
    rw [hjoin] at hexec
    refine ⟨_, hexec, ?_, vehicle_makeHoldDue_of_none hgone, tget_strayHolds_makeHoldDue hgone, ?_⟩
    · rw [flagSet_makeHoldDue]
      exact flagSet_raise _ _ _
    · rw [(makeHoldDue_rest _ _).2.2.1]
      exact (raise_rest _ _ _).2.2.1.trans rfl

end Sys2Proof.Machine

/-! PROOFS. O41, part 2: what the JOIN of a known vehicle leaves behind and what it finds (R44, R71, R73). -/

namespace Sys2Proof.Machine

open Sys2Proof.Says

/-! ### The move of the vehicle is detached (R73) -/

section
variable {h u : State} {x : Vehicle} {z : Move} {v : Nat} {d : Detached}

/-- The record of the vehicle without its moves. -/
def unladen (v : Nat) (h : State) : State := setNextMove v none (setMoveField v none h)

theorem vehicle_unladen (hx : vehicle h v = some x) : vehicle (unladen v h) v = some { x with move := none, nextMove := none } := by
  simp [unladen, hx]

/-- A move set aside. -/
def setAside (y : Move) : Move := { y with vehicle := none }

theorem detach_back (hm : x.move = some z.id) (hn : x.nextMove = none) (hz : findMove h z.id = some z)
    (hstate : z.state = .assigned ∨ z.state = .enroute) :
    detach x h = ({ returned := [z.id], aside := none }, returnToWaiting z.id (unladen x.id h)) := by
  unfold detach
  rw [hm, Option.bind_some, hz, hn]
  dsimp only
  rw [if_pos hstate, if_pos hstate]
  rfl

theorem detach_aside (hm : x.move = some z.id) (hn : x.nextMove = none) (hz : findMove h z.id = some z)
    (hstate : ¬ (z.state = .assigned ∨ z.state = .enroute)) :
    detach x h = ({ returned := [], aside := some z.id }, setMove z.id setAside (unladen x.id h)) := by
  unfold detach
  rw [hm, Option.bind_some, hz, hn]
  dsimp only
  rw [if_neg hstate, if_neg hstate]
  rfl

theorem length_of_movesKept {s t : State} (k : MovesKept s t) : t.mq.moves.length = s.mq.moves.length := by
  obtain k | k := k <;> rw [k]
  rw [List.length_map]

theorem length_changeMove (m : Nat) (f : Move → Move) (s : State) : (changeMove m f s).mq.moves.length = s.mq.moves.length := by
  cases hx : findMove s m with
  | none =>
    unfold changeMove
    rw [hx]
  | some y =>
    rw [changeMove_eq f hx, length_of_movesKept (movesKept_reportMove _ _ _ _ _)]
    exact List.length_map ..

/-- Entries of the preemption list name no move that no record has ASSIGNED to a vehicle. -/
theorem ne_of_mem_setAside {m : Nat} {s : State} {q : Preemption} (hq : q ∈ (setMove m setAside s).asu.preempts) :
    q.newMove ≠ m := by
  rintro rfl
  obtain ⟨y, hy, hstands⟩ := List.any_eq_true.1 (List.mem_filter.1 hq).2
  obtain ⟨w, -, rfl⟩ := List.mem_map.1 hy
  simp only [Bool.and_eq_true, beq_iff_eq] at hstands
  obtain ⟨⟨hid, -⟩, hvehicle⟩ := hstands
  split at hvehicle
  · cases hvehicle
  next hne =>
    rw [if_neg hne] at hid
    exact hne hid

/-- The move `z` of the vehicle is detached: returned, or set aside. -/
structure Detaching (h : State) (z : Move) (d : Detached) (u : State) : Prop where
  back : z.state = .assigned ∨ z.state = .enroute → d = { returned := [z.id], aside := none }
    ∧ findMove u z.id = some { z with state := .waiting, vehicle := none, confirm := .absent }
  aside : ¬ (z.state = .assigned ∨ z.state = .enroute) → d = { returned := [], aside := some z.id }
    ∧ findMove u z.id = some (setAside z)
  moves : ∀ k, k ≠ z.id → MoveKept k h u
  size : u.mq.moves.length = h.mq.moves.length
  reports : Reporting h u
  preempts : ∀ q ∈ u.asu.preempts, q.newMove ≠ z.id

theorem detaching_detach (hm : x.move = some z.id) (hn : x.nextMove = none) (hz : findMove h z.id = some z) :
    Detaching h z (detach x h).1 (detach x h).2 := by
  have hz' : findMove (unladen x.id h) z.id = some z := hz
  have hrep : Reporting h (unladen x.id h) :=
    (reporting_updVehicle x.id (fun y => { y with move := none }) h).trans
      (reporting_updVehicle x.id (fun y => { y with nextMove := none }) _)
  by_cases hstate : z.state = .assigned ∨ z.state = .enroute
  · rw [detach_back hm hn hz hstate]
    refine ⟨fun _ => ⟨rfl, findMove_returnToWaiting hz'⟩, fun h => absurd hstate h,
      fun k hk => MoveKept.trans (t := unladen x.id h) (.inl rfl) (moveKept_returnToWaiting hk _), ?_,
      hrep.trans (reporting_returnToWaiting _ _), fun q hq => (preempts_returnToWaiting hz' q hq).2⟩
    dsimp only
    rw [returnToWaiting, (setPassDue_rest _).2.2.2.2.1, length_changeMove]
    rfl
  · rw [detach_aside hm hn hz hstate]
    refine ⟨fun h => absurd h hstate, fun _ => ⟨rfl, ?_⟩,
      fun k hk => .inl (findMove_setMove_of_ne (f := setAside) (fun _ h => h) hk (unladen x.id h)), ?_,
      hrep.trans (reporting_setMove _ _ _), fun q hq => ne_of_mem_setAside hq⟩
    · dsimp only
      rw [findMove_setMove (f := setAside) fun _ h => h, hz']
      simp
    · exact List.length_map ..

theorem vehicle_detach (hm : x.move = some z.id) (hn : x.nextMove = none) (hz : findMove h z.id = some z)
    (hx : vehicle h v = some x) : vehicle (detach x h).2 v = some { x with move := none, nextMove := none } := by
  have hunladen : vehicle (unladen x.id h) v = some { x with move := none, nextMove := none } := by
    have hid : unladen x.id h = unladen v h := congrArg (unladen · h) (vehicle_id hx)
    rw [hid]
    exact vehicle_unladen hx
  by_cases hstate : z.state = .assigned ∨ z.state = .enroute
  · rw [detach_back hm hn hz hstate]
    exact (vehicle_returnToWaiting _ _ _).trans hunladen
  · rw [detach_aside hm hn hz hstate]
    exact (vehicle_setMove _ _ _ _).trans hunladen

end

/-! ### Its holdings go (R44) -/

section
variable {u : State} {v : Nat} {x : Vehicle}

/-- The vehicle holds nothing and waits nowhere. -/
def stripped (v : Nat) (u : State) : State := (dropHoldings v u).2

theorem stripped_of_known (hx : vehicle u v = some x) :
    stripped v u = leaveWaits v (setHeld v [] (releaseSegs v x.held u)) := by
  rw [stripped, dropHoldings_of_known hx]

theorem stripped_rest (hx : vehicle u v = some x) : (stripped v u).mq = u.mq ∧ (stripped v u).asu = u.asu
    ∧ (stripped v u).mc = u.mc ∧ (stripped v u).board = u.board ∧ (stripped v u).layout = u.layout := by
  obtain ⟨srt, hrel⟩ := releaseSegs_eq v x.held u
  rw [stripped_of_known hx, hrel]
  exact ⟨rfl, rfl, rfl, rfl, rfl⟩

theorem vehicle_stripped (hx : vehicle u v = some x) : vehicle (stripped v u) v = some { x with held := [] } := by
  obtain ⟨srt, hrel⟩ := releaseSegs_eq v x.held u
  rw [stripped_of_known hx, hrel, vehicle_leaveWaits, setHeld,
    vehicle_updVehicle v v (fun y => { y with held := [] }) _ fun _ h => h, show vehicle { u with srt := srt } v = some x from hx]
  simp

theorem resOf_stripped (hx : vehicle u v = some x) (i : Nat) : resOf (stripped v u) i = resOf (releaseSegs v x.held u) i := by
  rw [stripped_of_known hx, resOf_leaveWaits]
  rfl

theorem unarbitrated_stripped (hx : vehicle u v = some x) (h : Unarbitrated u) : Unarbitrated (stripped v u) := by
  refine unarbitrated_of_noneWait h (fun hm => ?_) fun hw => ?_
  · rw [State.mode, (stripped_rest hx).2.2.1]
    exact hm
  · rw [stripped_of_known hx]
    have hreleased : NoneWait (releaseSegs v x.held u) := NoneWait.releaseSegs x.held hw
    exact NoneWait.filtered (s := setHeld v [] (releaseSegs v x.held u)) hreleased _

theorem stripHoldings_of_unclaimed (hno : ∀ d ∈ u.bxu.outClaims, d.vehicle ≠ v) (hx : vehicle u v = some x)
    (h : Unarbitrated u) : stripHoldings v u = stripped v u := by
  unfold stripHoldings
  rw [withdrawClaim_of_none (outClaimOf_eq_none hno)]
  exact settle_of_unarbitrated (unarbitrated_stripped hx h) _ _

/-- A FREE segment is not released. -/
theorem resOf_releaseSegs_of_free {i : Nat} : ∀ (is : List Nat) (s : State), resOf s i = some .free →
    resOf (releaseSegs v is s) i = some .free
  | [], _, h => h
  | j :: is, s, h => by
    refine resOf_releaseSegs_of_free is (releaseSeg v j s) ((resOf_modRes j i _ s).trans ?_)
    split
    · rw [h]
      rfl
    · exact h

end

/-! ### Its record is set afresh (R61, R71) -/

section
variable {u h : State} {v : Nat} {x : Vehicle} {j : JoinData}

/-- The record set afresh, nothing due. -/
def renewed (v : Nat) (j : JoinData) (h u : State) : State := updVehicle v (rejoinRecord j h) (discardDue v (stripped v u))

theorem vehicle_renewed (hx : vehicle u v = some x) :
    vehicle (renewed v j h u) v = some { joinRecord v j h with path := x.path, parkMark := x.parkMark } := by
  have hdue : vehicle (discardDue v (stripped v u)) v = some { x with held := [], due := DueSet.empty } := by
    rw [discardDue, vehicle_congr (t := severVehicle v _) (s := updDue v (fun _ => DueSet.empty) (stripped v u)) rfl,
      vehicle_changeDue, vehicle_stripped hx]
    simp
  rw [renewed, vehicle_updVehicle v v (rejoinRecord j h) _ fun _ h => h, hdue, Option.map_some, if_pos rfl, rejoinRecord]
  rw [show ({ x with held := [], due := DueSet.empty } : Vehicle).id = x.id from rfl, vehicle_id hx]

theorem renewed_rest (hx : vehicle u v = some x) : (renewed v j h u).mq = u.mq ∧ (renewed v j h u).asu = u.asu
    ∧ (renewed v j h u).mc = u.mc := by
  obtain ⟨hmq, hasu, hmc, -⟩ := stripped_rest hx
  exact ⟨hmq, hasu, hmc⟩

theorem srt_renewed : (renewed v j h u).srt = (stripped v u).srt := (discardDue_rest v (stripped v u)).2.2.1

theorem unarbitrated_renewed (hx : vehicle u v = some x) (hu : Unarbitrated u) : Unarbitrated (renewed v j h u) :=
  unarbitrated_stripped hx hu

end

/-! ### The command (R73) -/

section
variable {s : State} {e : TrackEntry} {rest : List TrackEntry} {seg carrier m : Nat} {present : Bool} {x : Vehicle} {z : Move}

theorem exec_join_of_known (hs : JoinsAgain s e rest x z) (hb : e.body = .join seg present carrier m) :
    exec .join s = .next (joinKnown (hearing s e x) (joinData e seg present carrier m) (heard s e rest)) := by
  obtain ⟨htake, -, hx, hp, -⟩ := hs
  refine congrArg Host.Outcome.next ((takeTrack_of_taken htake (by rw [hb]; rfl)).trans ?_)
  unfold takeJoin
  rw [hb]
  dsimp only
  rw [show vehicle (popTrack rest s) e.src = some x from hx]
  dsimp only
  rw [if_neg hp.1, noteFrame_popTrack, restoreLost_of_present true (vehicle_heard hx) hp.2]
  dsimp only
  rw [vehicle_heard hx]
  rfl

/-- A JOIN of vehicle `v`, of record `x` in `h`, in two steps: to `u`, where `d` is detached, and from there to `t`. -/
structure Rejoins (h : State) (v : Nat) (x : Vehicle) (z : Move) (j : JoinData) (d : Detached) (u t : State) : Prop where
  detached : Detaching h z d u
  record : vehicle u v = some { x with move := none, nextMove := none }
  quiet : Unarbitrated u
  marked : joinMarks v j.seg (stripped v u) = true →
    t = failAside d (withdrawReturned v d.returned (joinedState v (joinConflicts j.seg (stripped v u)) j d
      (examineJoin v j.seg (renewed v j h u))))
  unmarked : joinMarks v j.seg (stripped v u) = false →
    t = failAside d (makeHoldDue v (removeRecord v (examineJoin v j.seg (stripped v u))))

theorem rejoins_joinKnown (hs : JoinsAgain s e rest x z) (j : JoinData) :
    ∃ d u, Rejoins (heard s e rest) e.src (hearing s e x) z j d u (joinKnown (hearing s e x) j (heard s e rest)) := by
  obtain ⟨-, hquiet, hx, -, hno, hn, hm, hz⟩ := hs
  have hid : (hearing s e x).id = e.src := vehicle_id (s := heard s e rest) (vehicle_heard hx)
  have hdet := detaching_detach (x := hearing s e x) (h := heard s e rest) hm hn hz
  have hrec := vehicle_detach (x := hearing s e x) (h := heard s e rest) hm hn hz (vehicle_heard hx)
  have hu : Unarbitrated (detach (hearing s e x) (heard s e rest)).2 := hdet.reports.unarbitrated hquiet
  have hstrip := stripHoldings_of_unclaimed (v := e.src) (by rw [hdet.reports.bxu]; exact hno) hrec hu
  refine ⟨_, _, hdet, hrec, hu, fun hmarks => ?_, fun hmarks => ?_⟩
  · unfold joinKnown
    dsimp only
    rw [hid, hstrip, if_pos hmarks, settleJoin_eq]
    rfl
  · unfold joinKnown
    dsimp only
    rw [hid, hstrip, if_neg (by rw [hmarks]; nofun)]

end

end Sys2Proof.Machine

/-! PROOFS. O41, part 3: the JOIN of a known vehicle (R44, R45, R71, R73 to R75, R109, R123, R126). -/

namespace Sys2Proof.Machine

open Sys2Proof.Says

/-! ### The last steps of a JOIN (R71 step 5, R73) -/

section
variable {s t : State} {v k : Nat} {d : Detached} {w : Move} {y : Vehicle} {e : TrackEntry} {seg : Nat} {st : VState}

theorem finish_back (hw : findMove s k = some w) (hstate : w.state = .waiting) :
    failAside { returned := [k], aside := none } (withdrawReturned v [k] s) = makeWithdrawDue v k s := by
  show (if (findMove s k).any (fun y => decide (y.state = .waiting)) then makeWithdrawDue v k s else s) = _
  rw [hw, if_pos (by simp [hstate])]

theorem finish_aside (hw : findMove s k = some w) (hvehicle : w.vehicle = none) :
    failAside { returned := [], aside := some k } (withdrawReturned v [] s) = removeMove k .failed s := by
  show (if (findMove s k).any (fun y => decide (y.vehicle = none)) then removeMove k .failed s else s) = _
  rw [hw, if_pos (by simp [hvehicle])]

theorem finish_taken (hw : findMove s k = some w) (hvehicle : w.vehicle = some v) :
    failAside { returned := [], aside := some k } (withdrawReturned v [] s) = s := by
  show (if (findMove s k).any (fun y => decide (y.vehicle = none)) then removeMove k .failed s else s) = _
  rw [hw, if_neg (by simp [hvehicle])]

/-- From `s` to `t` the record of vehicle `v` changed in its WITHDRAW list alone, and no segment did. -/
structure Finished (v : Nat) (s t : State) : Prop where
  record : ∀ y, vehicle s v = some y →
    ∃ ws n, vehicle t v = some { y with due := { y.due with withdraw := ws, withdrawCount := n } }
  srt : t.srt = s.srt

theorem Finished.refl (v : Nat) (s : State) : Finished v s s := ⟨fun _ h => ⟨_, _, h⟩, rfl⟩

theorem Finished.trans {u : State} (h : Finished v s t) (k : Finished v t u) : Finished v s u where
  record _ hy := by
    obtain ⟨ws, n, ht⟩ := h.record _ hy
    obtain ⟨ws', n', hu⟩ := k.record _ ht
    exact ⟨ws', n', hu⟩
  srt := k.srt.trans h.srt

theorem finished_makeWithdrawDue (v k : Nat) (s : State) : Finished v s (makeWithdrawDue v k s) where
  record _ hy := ⟨_, _, by rw [vehicle_makeWithdrawDue, hy, Option.map_some, if_pos rfl]⟩
  srt := rfl

theorem finished_failAside (d : Detached) (s : State) : Finished v s (failAside d s) := by
  unfold failAside
  split
  · exact .refl v s
  · split
    · exact ⟨fun _ hy => ⟨_, _, (vehicle_removeMove _ _ _ _).trans hy⟩, (reporting_removeMove _ _ s).srt⟩
    · exact .refl v s

theorem finished_withdrawReturned (v : Nat) : ∀ (ms : List Nat) (s : State), Finished v s (withdrawReturned v ms s)
  | [], s => .refl v s
  | m :: ms, s => by
    have hfirst : Finished v s
        (if (findMove s m).any (fun y => decide (y.state = .waiting)) then makeWithdrawDue v m s else s) := by
      split
      · exact finished_makeWithdrawDue v m s
      · exact .refl v s
    exact hfirst.trans (finished_withdrawReturned v ms _)

theorem finished_steps (v : Nat) (d : Detached) (s : State) : Finished v s (failAside d (withdrawReturned v d.returned s)) :=
  (finished_withdrawReturned v d.returned s).trans (finished_failAside d _)

/-- The fields of a joined record do not change with its WITHDRAW list. -/
theorem joinedAs_rewithdrawn {s₀ : State} {ws : List Nat} {n : Nat} (h : JoinedAs s₀ s e seg st y)
    (ht : vehicle t e.src = some { y with due := { y.due with withdraw := ws, withdrawCount := n } }) :
    JoinedAs s₀ t e seg st { y with due := { y.due with withdraw := ws, withdrawCount := n } } := by
  obtain ⟨-, hfacts⟩ := h
  exact ⟨ht, hfacts⟩

end

/-! ### A JOIN at a segment that it marks -/

section
variable {h u t a : State} {v i : Nat} {x : Vehicle} {z : Move} {j : JoinData} {d : Detached} {c : Bool}

theorem srt_reconcile (v : Nat) (j : JoinData) (d : Detached) (s : State) : (reconcile v j d s).2.srt = s.srt := by
  unfold reconcile
  split
  · split
    · exact (reporting_relinked _ _ _).srt
    · unfold createUnrouted
      split
      · exact (reportMove_rest _ _ _ _ _).2.2.1.trans rfl
      · rfl
  · rfl

theorem still_joinedState {x₀ : Vehicle} (hv : vehicle a v = some x₀) (hstate : x₀.state ≠ .arriving) (hheld : x₀.held = [i])
    (hneed : x₀.need = 0) (hquiet : Unarbitrated a) : Still v i (resOf a) (joinedState v c j d a) := by
  obtain ⟨y, hy, hg⟩ := granted_reconcile (j := j) (d := d) hv hstate
  have hsrt : (reconcile v j d (makeGrantDue v a)).2.srt = a.srt := (srt_reconcile v j d _).trans (makeGrantDue_rest v a).2.2.1
  have hacts : Acts a (reconcile v j d (makeGrantDue v a)).2 := (acts_makeGrantDue v a).trans (acts_reconcile v j d _)
  refine still_settledIn ⟨⟨y, hy, ?_, ?_⟩, hacts.unarbitrated hquiet hsrt, fun k => resOf_congr hsrt k⟩
  · rw [hg]
    exact hheld
  · rw [hg]
    exact hneed

theorem fst_reconcile (v : Nat) (j : JoinData) (d : Detached) (s : State) :
    (reconcile v j d s).1 = if j.grip.present then .laden else .idle := by
  unfold reconcile
  split
  · split <;> rfl
  · rfl

/-- What is examined is the record set afresh, at a FREE segment. -/
structure AtFree (h : State) (v : Nat) (x : Vehicle) (j : JoinData) (d : Detached) (u a t : State) : Prop where
  ends : t = failAside d (withdrawReturned v d.returned (joinedState v false j d a))
  record : vehicle a v = some { joinRecord v j h with path := x.path, parkMark := x.parkMark }
  mq : a.mq = u.mq
  identity : a.mc.identity = h.mc.identity
  quiet : Unarbitrated a
  res : resOf a j.seg = some (.occupied v none)

theorem Rejoins.atFree (hr : Rejoins h v x z j d u t) (hfree : resOf h j.seg = some .free) :
    AtFree h v x j d u (setRes j.seg (.occupied v none) (renewed v j h u)) t := by
  have hstripped : resOf (stripped v u) j.seg = some .free := by
    rw [resOf_stripped hr.record]
    exact resOf_releaseSegs_of_free _ _ ((resOf_congr hr.detached.reports.srt _).trans hfree)
  have hrenewed : resOf (renewed v j h u) j.seg = some .free := (resOf_congr srt_renewed _).trans hstripped
  obtain ⟨hmarks, hconflict, -⟩ := examineJoin_of_clear (v := v) (.inl hstripped)
  obtain ⟨-, -, q, hexamined, hq⟩ := examineJoin_of_clear (v := v) (.inl hrenewed)
  cases hq hrenewed
  obtain ⟨hmq, -, hmc⟩ := renewed_rest (j := j) (h := h) hr.record
  have hrecord := vehicle_renewed (j := j) (h := h) hr.record
  refine ⟨?_, hrecord, hmq, ?_, ?_, ?_⟩
  · rw [hr.marked hmarks, hconflict, hexamined]
  · rw [show (setRes j.seg (.occupied v none) (renewed v j h u)).mc = u.mc from hmc, hr.detached.reports.identity]
  · exact unarbitrated_of_noneWait (unarbitrated_renewed hr.record hr.quiet) id fun hw =>
      NoneWait.modRes hw j.seg fun _ => .occupied v none
  · rw [resOf_setRes, if_pos rfl, hrenewed]
    rfl

end

section
variable {s : State} {e : TrackEntry} {rest : List TrackEntry} {seg carrier m : Nat} {present : Bool} {x : Vehicle} {z : Move}
  {d : Detached} {u t a : State}

theorem joinBase_of_renewed (p : Path) (q : Option Nat) :
    JoinBase s e seg { joinRecord e.src (joinData e seg present carrier m) (heard s e rest) with path := p, parkMark := q } :=
  ⟨rfl, rfl, rfl, rfl, rfl, rfl, rfl, rfl, rfl⟩

/-- The held list and the segment of a vehicle that joined at a FREE segment. -/
theorem AtFree.stays (ha : AtFree (heard s e rest) e.src (hearing s e x) (joinData e seg present carrier m) d u a t) :
    (∃ y, vehicle t e.src = some y ∧ y.held = [seg]) ∧ resOf t seg = some (.occupied e.src none) := by
  have hstill : Still e.src seg (resOf a) (joinedState e.src false (joinData e seg present carrier m) d a) :=
    still_joinedState ha.record nofun rfl rfl ha.quiet
  have hfinished := finished_steps e.src d (joinedState e.src false (joinData e seg present carrier m) d a)
  rw [← ha.ends] at hfinished
  obtain ⟨y, hy, hheld, -⟩ := hstill.record
  obtain ⟨ws, n, ht⟩ := hfinished.record y hy
  exact ⟨⟨_, ht, hheld⟩, (resOf_congr hfinished.srt seg).trans ((hstill.res seg).trans ha.res)⟩

end

/-! ### The record of a move that is linked again (R75, R109) -/

section
variable {y : Move} (s : State) (v : Nat)

theorem rejoined_of_unrouted (h : y.state = .unrouted) : rejoined s v y = { y with vehicle := some v } := by
  unfold rejoined
  split
  · rfl
  next hc => rw [h] at hc; cases hc
  next hu _ => exact absurd h hu

theorem rejoined_of_cancelling (h : y.state = .cancelling) :
    rejoined s v y = { returnDelivery s y with vehicle := some v } := by
  unfold rejoined
  split
  next hu => rw [h] at hu; cases hu
  · rfl
  next hc => exact absurd h hc

theorem rejoined_of_carried (hu : y.state ≠ .unrouted) (hc : y.state ≠ .cancelling) :
    rejoined s v y = { y with state := .carrying, vehicle := some v } := by
  unfold rejoined
  split
  next h => exact absurd h hu
  next h => exact absurd h hc
  · rfl

end

theorem knownJoins : Says.KnownJoins := by
  intro s e rest seg carrier m k x z hs hk hb hfree
  subst hk
  obtain ⟨d, u, hr⟩ := rejoins_joinKnown hs (joinData e seg false carrier m)
  have hexec := exec_join_of_known hs hb
  generalize joinKnown (hearing s e x) (joinData e seg false carrier m) (heard s e rest) = t at hexec hr
  have ha := hr.atFree hfree
  generalize setRes (joinData e seg false carrier m).seg (.occupied e.src none)
    (renewed e.src (joinData e seg false carrier m) (heard s e rest) u) = a at ha
  obtain ⟨⟨y', hy', hheld⟩, hres⟩ := ha.stays
  obtain ⟨⟨y, hy, hmove, hcarrier, hwithdraw, -⟩, hkept⟩ := joinedState_empty (c := false) (d := d)
    (j := joinData e seg false carrier m) ha.record (joinBase_of_renewed (s := s) _ _) rfl
  have hends := ha.ends
  by_cases hstate : z.state = .assigned ∨ z.state = .enroute
  · obtain ⟨rfl, hz⟩ := hr.detached.back hstate
    have hza := (findMove_congr (congrArg MoveQueue.moves ha.mq) z.id).trans hz
    have hzj := (hkept.move z.id).absent hza rfl
    rw [finish_back hzj rfl] at hends
    have ht : vehicle t e.src = some { y with due := { y.due with withdraw := addWithdraw z.id y.due.withdraw, withdrawCount := 0 } } := by
      rw [hends, vehicle_makeWithdrawDue, hy.1, Option.map_some, if_pos rfl]
    cases ht.symm.trans hy'
    refine ⟨t, _, hexec, joinedAs_rewithdrawn hy ht, hheld, hmove, hcarrier, hres,
      fun _ => ⟨?_, { z with state := .waiting, vehicle := none, confirm := .absent }, ?_, rfl, rfl, rfl, rfl⟩,
      fun h1 h2 => absurd hstate (not_or.2 ⟨h1, h2⟩)⟩
    · show addWithdraw z.id y.due.withdraw = _
      rw [hwithdraw]
      rfl
    · rw [hends, findMove_makeWithdrawDue]
      exact hzj
  · obtain ⟨rfl, hz⟩ := hr.detached.aside hstate
    have hza := (findMove_congr (congrArg MoveQueue.moves ha.mq) z.id).trans hz
    obtain ⟨w, hzj, hweq⟩ := (hkept.move z.id).some hza
    rw [finish_aside hzj (by rw [hweq]; rfl)] at hends
    have ht : vehicle t e.src = some y := by rw [hends, vehicle_removeMove, hy.1]
    cases ht.symm.trans hy'
    obtain ⟨-, hjoined⟩ := hy
    exact ⟨t, y', hexec, ⟨ht, hjoined⟩, hheld, hmove, hcarrier, hres, fun h => absurd h hstate,
      fun _ _ => ⟨hwithdraw, by rw [hends]; exact findMove_removeMove _ _ _⟩⟩

theorem knownJoinsLaden : Says.KnownJoinsLaden := by
  intro s e rest seg carrier x z hs hb hfree hcar hid hne hstates
  obtain ⟨d, u, hr⟩ := rejoins_joinKnown hs (joinData e seg true carrier z.id)
  have hexec := exec_join_of_known hs hb
  generalize joinKnown (hearing s e x) (joinData e seg true carrier z.id) (heard s e rest) = t at hexec hr
  have ha := hr.atFree hfree
  generalize setRes (joinData e seg true carrier z.id).seg (.occupied e.src none)
    (renewed e.src (joinData e seg true carrier z.id) (heard s e rest) u) = a at ha
  obtain ⟨⟨y', hy', hheld⟩, hres⟩ := ha.stays
  have hstate : ¬ (z.state = .assigned ∨ z.state = .enroute) := by
    rintro (h | h) <;> rw [h] at hstates <;> simp at hstates
  obtain ⟨rfl, hz⟩ := hr.detached.aside hstate
  have hza := (findMove_congr (congrArg MoveQueue.moves ha.mq) z.id).trans hz
  have hclaim : claimable (joinData e seg true carrier z.id) { returned := [], aside := some z.id } a = some (setAside z) :=
    claimable_of_taken hza hid hcar hne (.inr rfl)
  obtain ⟨⟨y, hy, hymove, hycarrier, -⟩, ⟨w, hw, hweq⟩, -⟩ :=
    joinedState_link (c := false) ha.record (joinBase_of_renewed (s := s) _ _) rfl hclaim
  obtain ⟨-, hvehicle, hwcar, hage⟩ := rejoined_fields a e.src (setAside z)
  have hends := ha.ends
  rw [finish_taken (k := z.id) hw (by rw [hweq]; exact hvehicle)] at hends
  rw [← hends] at hy hw
  cases hy.1.symm.trans hy'
  refine ⟨t, y', w, hexec, hy, hheld, hymove, hycarrier.trans (congrArg some hcar), hres, hw, ?_, ?_, ?_, fun h => ?_, fun h => ?_,
    fun h => ?_⟩
  · rw [hweq]
    exact hvehicle
  · rw [hweq]
    exact hwcar.trans hcar
  · rw [hweq]
    exact hage
  · have hcarried : z.state ≠ .unrouted ∧ z.state ≠ .cancelling := by
      simp only [List.mem_cons, List.not_mem_nil, or_false] at h
      obtain h | h | h := h <;> rw [h] <;> exact ⟨nofun, nofun⟩
    rw [hweq, rejoined_of_carried (y := setAside z) a e.src hcarried.1 hcarried.2]
    exact ⟨rfl, rfl, rfl⟩
  · rw [hweq, rejoined_of_cancelling (y := setAside z) a e.src h]
    refine ⟨rfl, rfl, fun n p hcell hp => ?_⟩
    show z.source.map (fun p => a.mc.identity.cell.getD 0 * 256 + p) = _
    rw [hp, ha.identity, show (heard s e rest).mc.identity.cell = some n from hcell]
    rfl
  · rw [hweq, rejoined_of_unrouted (y := setAside z) a e.src h]
    exact ⟨h, rfl⟩

end Sys2Proof.Machine

/-! PROOFS. O41, part 4: the JOIN of a known vehicle with an unaccounted carrier, in conflict, or where it can mark nothing
(R44, R45, R61, R63, R71, R73 to R75, R123, R126). -/

namespace Sys2Proof.Machine

open Sys2Proof.Says

/-! ### A carrier that no move accounts for (R75, R93) -/

section
variable {h u a : State} {z : Move} {d : Detached} {j : JoinData} {k : Nat}

theorem moveKept_some_iff {s t : State} (hk : MoveKept k s t) : (findMove t k).isSome = (findMove s k).isSome := by
  obtain hk | hk := hk <;> rw [hk]
  exact Option.isSome_map

/-- A record that is there afterwards was there before. -/
theorem before_of_moveKept {s t : State} {y : Move} (hk : MoveKept k s t) (hy : findMove t k = some y) :
    ∃ q, findMove s k = some q ∧ y = { q with confirm := y.confirm } := by
  cases hq : findMove s k with
  | none =>
    rw [hk.none hq] at hy
    cases hy
  | some q =>
    obtain ⟨w, hw, hweq⟩ := hk.some hq
    cases hy.symm.trans hw
    exact ⟨q, rfl, hweq⟩

theorem Detaching.found (hd : Detaching h z d u) : ∃ w, findMove u z.id = some w ∧ w.carrier = z.carrier ∧ w.vehicle = none
    ∧ w.age = z.age := by
  by_cases hstate : z.state = .assigned ∨ z.state = .enroute
  · exact ⟨_, (hd.back hstate).2, rfl, rfl, rfl⟩
  · exact ⟨_, (hd.aside hstate).2, rfl, rfl, rfl⟩

/-- Detaching makes no move and removes none. -/
theorem Detaching.none_iff (hd : Detaching h z d u) (hz : findMove h z.id = some z) (k : Nat) :
    findMove u k = none ↔ findMove h k = none := by
  by_cases hk : k = z.id
  · obtain ⟨w, hw, -⟩ := hd.found
    rw [hk, hw, hz]
    exact iff_of_false nofun nofun
  · rw [← Option.not_isSome_iff_eq_none, ← Option.not_isSome_iff_eq_none, moveKept_some_iff (hd.moves k hk)]

theorem Detaching.aside_eq (hd : Detaching h z d u) (k : Nat) (hk : k ≠ z.id) : d.aside ≠ some k := by
  by_cases hstate : z.state = .assigned ∨ z.state = .enroute
  · rw [(hd.back hstate).1]
    nofun
  · rw [(hd.aside hstate).1]
    exact fun heq => hk (Option.some.inj heq).symm

theorem Detaching.claimable_eq_none (hd : Detaching h z d u) (hmq : a.mq = u.mq) (hz : findMove h z.id = some z)
    (hno : j.move = 0 ∨ j.grip.carrier = 0 ∨ ∀ q, findMove h j.move = some q →
      q.carrier ≠ j.grip.carrier ∨ j.move ≠ z.id ∧ q.state ≠ .waiting) : claimable j d a = none := by
  refine claimable_of_not_taken (hno.imp id (Or.imp id fun hno y hy => ?_))
  rw [findMove_congr (congrArg MoveQueue.moves hmq)] at hy
  by_cases hj : j.move = z.id
  · obtain ⟨w, hw, hcar, -⟩ := hd.found
    rw [hj] at hy hno
    cases hy.symm.trans hw
    obtain h | h := hno z hz
    · exact .inl (by rw [hcar]; exact h)
    · exact absurd rfl h.1
  · obtain ⟨q, hq, hyeq⟩ := before_of_moveKept (hd.moves _ hj) hy
    obtain h | h := hno q hq
    · exact .inl (by rw [hyeq]; exact h)
    · refine .inr ⟨by rw [hyeq]; exact h.2, hd.aside_eq y.id ?_⟩
      rw [(findMove_id hy).1]
      exact hj

end

theorem knownJoinsUnrouted : Says.KnownJoinsUnrouted := by
  intro s e rest seg carrier m x z hs hb hfree hno hlen
  obtain ⟨d, u, hr⟩ := rejoins_joinKnown hs (joinData e seg true carrier m)
  have hexec := exec_join_of_known hs hb
  have hzs : findMove (heard s e rest) z.id = some z := hs.2.2.2.2.2.2.2
  generalize joinKnown (hearing s e x) (joinData e seg true carrier m) (heard s e rest) = t at hexec hr
  have ha := hr.atFree hfree
  generalize setRes (joinData e seg true carrier m).seg (.occupied e.src none)
    (renewed e.src (joinData e seg true carrier m) (heard s e rest) u) = a at ha
  obtain ⟨⟨y', hy', hheld⟩, hres⟩ := ha.stays
  have hsame := fun k => findMove_congr (congrArg MoveQueue.moves ha.mq) k
  have hclaim := hr.detached.claimable_eq_none (j := joinData e seg true carrier m) ha.mq hzs hno
  have hlen' : a.mq.moves.length < 128 := by
    rw [ha.mq, hr.detached.size]
    exact hlen
  obtain ⟨⟨y, hy, hymove, hycarrier, -⟩, ⟨n, hw⟩, hkept⟩ :=
    joinedState_unrouted (c := false) ha.record (joinBase_of_renewed (s := s) _ _) rfl hclaim hlen'
  have hnone (k : Nat) : findMove a k = none ↔ findMove s k = none := by
    rw [hsame]
    exact hr.detached.none_iff hzs k
  have hfresh : findMove s (freshMoveId a) = none := (hnone _).1 (freshMoveId_free a hlen'.le)
  have hne : z.id ≠ freshMoveId a := fun h => by
    rw [← h] at hfresh
    rw [show findMove s z.id = some z from hzs] at hfresh
    cases hfresh
  have hhigh (k : Nat) (hk : freshMoveId a < k) (htop : k ≤ 65535) : findMove s k ≠ none := fun h =>
    freshMoveId_highest hlen' hk htop ((hnone k).2 h)
  have hends := ha.ends
  by_cases hstate : z.state = .assigned ∨ z.state = .enroute
  · obtain ⟨rfl, hz⟩ := hr.detached.back hstate
    have hzj := (hkept z.id hne).absent ((hsame z.id).trans hz) rfl
    rw [finish_back hzj rfl] at hends
    have ht : vehicle t e.src = some { y with due := { y.due with withdraw := addWithdraw z.id y.due.withdraw, withdrawCount := 0 } } := by
      rw [hends, vehicle_makeWithdrawDue, hy.1, Option.map_some, if_pos rfl]
    have hwt : findMove t (freshMoveId a) = some { unroutedRecord (freshMoveId a) e.src carrier with seq := n } := by
      rw [hends, findMove_makeWithdrawDue]
      exact hw
    have hzt := (congrArg (findMove · z.id) hends).trans ((findMove_makeWithdrawDue _ _ _ _).trans hzj)
    cases ht.symm.trans hy'
    exact ⟨t, _, freshMoveId a, _, hexec, joinedAs_rewithdrawn hy ht, hheld, hymove, hycarrier, hres, hfresh, hhigh, hwt, rfl,
      rfl, rfl, rfl, fun _ => ⟨_, hzt, rfl, rfl, rfl⟩, fun h1 h2 => absurd hstate (not_or.2 ⟨h1, h2⟩)⟩
  · obtain ⟨rfl, hz⟩ := hr.detached.aside hstate
    obtain ⟨w, hzj, hweq⟩ := (hkept z.id hne).some ((hsame z.id).trans hz)
    rw [finish_aside hzj (by rw [hweq]; rfl)] at hends
    have ht : vehicle t e.src = some y := by rw [hends, vehicle_removeMove, hy.1]
    have hwt : findMove t (freshMoveId a) = some { unroutedRecord (freshMoveId a) e.src carrier with seq := n } := by
      rw [hends]
      exact (moveKept_removeMove .failed (Ne.symm hne) _).absent hw rfl
    cases ht.symm.trans hy'
    obtain ⟨-, hjoined⟩ := hy
    exact ⟨t, _, freshMoveId a, _, hexec, ⟨ht, hjoined⟩, hheld, hymove, hycarrier, hres, hfresh, hhigh, hwt, rfl, rfl, rfl, rfl,
      fun h => absurd h hstate, fun _ _ => by rw [hends]; exact findMove_removeMove _ _ _⟩

/-! ### A segment another vehicle holds (R45, R74) -/

theorem resOf_stripped_of_notMem {h u t : State} {v i : Nat} {x : Vehicle} {z : Move} {j : JoinData} {d : Detached}
    (hr : Rejoins h v x z j d u t) (hi : i ∉ x.held) : resOf (stripped v u) i = resOf h i :=
  (resOf_stripped hr.record i).trans ((resOf_releaseSegs_of_notMem v _ u hi).trans (resOf_congr hr.detached.reports.srt i))

theorem knownJoinConflicts : Says.KnownJoinConflicts := by
  intro s e rest seg carrier m o present x z hs hb hseg hheldBy
  obtain ⟨d, u, hr⟩ := rejoins_joinKnown hs (joinData e seg present carrier m)
  have hexec := exec_join_of_known hs hb
  generalize joinKnown (hearing s e x) (joinData e seg present carrier m) (heard s e rest) = t at hexec hr
  have hheldBy' : resOf (stripped e.src u) seg = some (.reserved o) ∨ resOf (stripped e.src u) seg = some (.occupied o none) := by
    rw [resOf_stripped_of_notMem hr hseg]
    exact hheldBy
  obtain ⟨hmarks, hconflict, -⟩ := examineJoin_of_conflict (v := e.src) hheldBy'
  have hrenewed := hheldBy'
  rw [← resOf_congr (srt_renewed (v := e.src) (j := joinData e seg present carrier m) (h := heard s e rest) (u := u))] at hrenewed
  obtain ⟨-, -, hexamined⟩ := examineJoin_of_conflict (v := e.src) hrenewed
  have hends := hr.marked hmarks
  rw [show joinConflicts (joinData e seg present carrier m).seg (stripped e.src u) = true from hconflict,
    show examineJoin e.src (joinData e seg present carrier m).seg _ = _ from hexamined] at hends
  have hrecord := vehicle_renewed (j := joinData e seg present carrier m) (h := heard s e rest) hr.record
  have hquiet := unarbitrated_renewed (j := joinData e seg present carrier m) (h := heard s e rest) hr.record hr.quiet
  generalize renewed e.src (joinData e seg present carrier m) (heard s e rest) u = b at hends hrecord hquiet hrenewed
  have hmarked : Unarbitrated (setRes seg (.occupied o (some e.src)) b) :=
    unarbitrated_of_noneWait hquiet id fun hw => NoneWait.modRes hw seg fun _ => .occupied o (some e.src)
  have hres : resOf (setRes seg (.occupied o (some e.src)) b) seg = some (.occupied o (some e.src)) := by
    rw [resOf_setRes, if_pos rfl]
    obtain h | h := hrenewed <;> rw [h] <;> rfl
  have hflag : flagSet (raiseConflict e.src seg (setRes seg (.occupied o (some e.src)) b)) .positionConflict = true :=
    flagSet_raise _ _ _
  have hv : vehicle (raiseConflict e.src seg (setRes seg (.occupied o (some e.src)) b)) e.src = _ :=
    (vehicle_raise _ _ _ _).trans hrecord
  have hquiet' : Unarbitrated (raiseConflict e.src seg (setRes seg (.occupied o (some e.src)) b)) :=
    (reporting_raise _ _ _).unarbitrated hmarked
  have hres' : resOf (raiseConflict e.src seg (setRes seg (.occupied o (some e.src)) b)) seg = some (.occupied o (some e.src)) :=
    (resOf_congr (raise_rest _ _ _).2.2.1 seg).trans hres
  generalize raiseConflict e.src seg (setRes seg (.occupied o (some e.src)) b) = a at hends hflag hv hquiet' hres'
  have hbase := joinBase_of_renewed (s := s) (e := e) (rest := rest) (seg := seg) (carrier := carrier) (m := m) (present := present)
    x.path x.parkMark
  obtain ⟨y, hy, hg⟩ := granted_reconcile (j := joinData e seg present carrier m) (d := d) hv hbase.not_arriving
  have hstill : Still e.src seg (resOf a) (joinedState e.src true (joinData e seg present carrier m) d a) :=
    still_joinedState hv hbase.not_arriving rfl rfl hquiet'
  have hsettled : vehicle (joinedState e.src true (joinData e seg present carrier m) d a) e.src = _ :=
    vehicle_settledIn_of_conflict hy
  have hacts := acts_settleJoin e.src (joinData e seg present carrier m) d true a
  rw [show settleJoin e.src (joinData e seg present carrier m) d true a = t from hends.symm] at hacts
  have hfinished := finished_steps e.src d (joinedState e.src true (joinData e seg present carrier m) d a)
  rw [← hends] at hfinished
  obtain ⟨ws, n, ht⟩ := hfinished.record _ hsettled
  rw [fst_reconcile, hg] at ht
  refine ⟨t, _, hexec, hacts.flagSet hflag, ⟨ht, ?_, rfl, rfl, rfl, rfl, rfl, rfl⟩, rfl, rfl, rfl, rfl, rfl, ?_⟩
  · rfl
  · exact (resOf_congr hfinished.srt seg).trans ((hstill.res seg).trans hres')

/-! ### A segment that cannot be marked (R44, R45, R74) -/

theorem strayHolds_of_raised {s t : State} (h : Raised s t) : t.tli.strayHolds = s.tli.strayHolds := by
  cases h with
  | reported h => rw [show t = { s with su := t.su, fli := t.fli } from h]
  | deferred _ _ h => rw [h]
  | halted _ _ h =>
    rw [h]
    rfl

theorem strayHolds_removeMove (m : Nat) (out : ReportState) (s : State) :
    (removeMove m out s).tli.strayHolds = s.tli.strayHolds := by
  cases hx : findMove s m with
  | none =>
    unfold removeMove
    rw [hx]
  | some x =>
    rw [removeMove_eq out hx]
    exact (strayHolds_of_raised (raised_reportMove _ _ _ _ _)).trans rfl

theorem strayHolds_failAside (d : Detached) (s : State) : (failAside d s).tli.strayHolds = s.tli.strayHolds := by
  unfold failAside
  split
  · rfl
  · split
    · exact strayHolds_removeMove _ _ s
    · rfl

theorem vehicle_removeRecord (v : Nat) (s : State) : vehicle (removeRecord v s) v = none := by
  rw [vehicle_eq_none_iff]
  intro p hp
  exact of_decide_eq_true (List.mem_filter.1 hp).2

theorem knownJoinUnmarked : Says.KnownJoinUnmarked := by
  intro s e rest seg carrier m present x z hs hb hseg hnone
  obtain ⟨d, u, hr⟩ := rejoins_joinKnown hs (joinData e seg present carrier m)
  have hexec := exec_join_of_known hs hb
  generalize joinKnown (hearing s e x) (joinData e seg present carrier m) (heard s e rest) = t at hexec hr
  have hnone' : (resOf (stripped e.src u) seg).bind (markFor e.src) = none := by
    rw [resOf_stripped_of_notMem hr hseg]
    exact hnone
  obtain ⟨hmarks, hexamined⟩ := examineJoin_of_unmarked hnone'
  have hends := hr.unmarked hmarks
  rw [show examineJoin e.src (joinData e seg present carrier m).seg (stripped e.src u) = _ from hexamined] at hends
  have hflag : flagSet (makeHoldDue e.src (removeRecord e.src (raiseConflict e.src seg (stripped e.src u)))) .positionConflict = true := by
    rw [flagSet_makeHoldDue]
    exact flagSet_raise .positionConflict _ (stripped e.src u)
  have hgone := vehicle_removeRecord e.src (raiseConflict e.src seg (stripped e.src u))
  have hmoves : MovesKept u (makeHoldDue e.src (removeRecord e.src (raiseConflict e.src seg (stripped e.src u)))) := by
    refine MovesKept.trans (t := stripped e.src u) (.inl (congrArg MoveQueue.moves (stripped_rest hr.record).1)) ?_
    refine MovesKept.trans (t := raiseConflict e.src seg (stripped e.src u)) (onward_raise _ _ _).moves (.inl ?_)
    rw [(makeHoldDue_rest _ _).2.2.2.1]
    rfl
  have hstray := tget_strayHolds_makeHoldDue hgone
  have hgone := vehicle_makeHoldDue_of_none hgone
  generalize makeHoldDue e.src (removeRecord e.src (raiseConflict e.src seg (stripped e.src u))) = b at hends hflag hgone hmoves hstray
  refine ⟨t, hexec, ?_, ?_, ?_, fun hstate => ?_, fun h1 h2 => ?_⟩
  · rw [hends]
    exact (acts_failAside d b).flagSet hflag
  · rw [hends]
    unfold failAside
    split
    · exact hgone
    · split
      · exact (vehicle_removeMove _ _ _ _).trans hgone
      · exact hgone
  · rw [hends, strayHolds_failAside]
    exact hstray
  · obtain ⟨rfl, hz⟩ := hr.detached.back hstate
    rw [hends]
    exact ⟨_, (hmoves.move z.id).absent hz rfl, rfl, rfl⟩
  · obtain ⟨rfl, hz⟩ := hr.detached.aside (not_or.2 ⟨h1, h2⟩)
    obtain ⟨w, hw, hweq⟩ := (hmoves.move z.id).some hz
    rw [hends, show failAside { returned := [], aside := some z.id } b = removeMove z.id .failed b from
      finish_aside (v := e.src) hw (by rw [hweq]; rfl)]
    exact findMove_removeMove _ _ _

/-! ### The preemption list (R73, R123, R126) -/

theorem preempts_withdrawReturned (v : Nat) : ∀ (ms : List Nat) (s : State),
    (withdrawReturned v ms s).asu.preempts = s.asu.preempts
  | [], _ => rfl
  | m :: ms, s => by
    have hfirst : (if (findMove s m).any (fun y => decide (y.state = .waiting)) then makeWithdrawDue v m s else s).asu.preempts
        = s.asu.preempts := by
      split <;> rfl
    exact (preempts_withdrawReturned v ms _).trans hfirst

theorem preempts_failAside_subset (d : Detached) (s : State) : (failAside d s).asu.preempts ⊆ s.asu.preempts := by
  unfold failAside
  split
  · exact fun _ h => h
  · split
    · exact preempts_removeMove_subset _ _ _
    · exact fun _ h => h

theorem preempts_joinedState_subset (v : Nat) (c : Bool) (j : JoinData) (d : Detached) (a : State) :
    (joinedState v c j d a).asu.preempts ⊆ a.asu.preempts := by
  rw [joinedState, preempts_settledIn]
  exact fun q hq => by
    have := preempts_reconcile_subset v j d (makeGrantDue v a) hq
    rwa [(makeGrantDue_rest v a).2.2.2.2.1] at this

theorem joinEndsPreemption : Says.JoinEndsPreemption := by
  intro s t e rest seg carrier m present x z hs hb ht q hq
  obtain ⟨d, u, hr⟩ := rejoins_joinKnown hs (joinData e seg present carrier m)
  have hexec := exec_join_of_known hs hb
  generalize joinKnown (hearing s e x) (joinData e seg present carrier m) (heard s e rest) = t' at hexec hr
  cases ht.symm.trans hexec
  refine hr.detached.preempts q ?_
  have hstripped : (stripped e.src u).asu.preempts = u.asu.preempts := congrArg Asu.preempts (stripped_rest hr.record).2.1
  cases hmarks : joinMarks e.src (joinData e seg present carrier m).seg (stripped e.src u) with
  | true =>
    rw [hr.marked hmarks] at hq
    have hq := preempts_failAside_subset _ _ hq
    rw [preempts_withdrawReturned] at hq
    have hq := preempts_joinedState_subset _ _ _ _ _ hq
    rw [preempts_examineJoin, (renewed_rest hr.record).2.1] at hq
    exact hq
  | false =>
    rw [hr.unmarked hmarks] at hq
    have hq := preempts_failAside_subset _ _ hq
    rw [(makeHoldDue_rest _ _).2.2.2.2.1, (removeRecord_rest _ _).2.2.2.2.1, preempts_examineJoin, hstripped] at hq
    exact hq

/-- Settles O41: a JOIN sets the record of its vehicle, known or not, and what it carries decides its move. -/
theorem joinSetsRecord : Obligations.JoinSetsRecord :=
  ⟨unknownJoins, unknownJoinStopped, knownJoins, knownJoinsLaden, knownJoinsUnrouted, knownJoinConflicts, knownJoinUnmarked,
    joinEndsPreemption⟩

end Sys2Proof.Machine
